-- ==== Sys2Proof/Word.lean ====
section
/-! DEFINITION. The word types of the DZ-9640 model and their plainest arithmetic: bytes, 64-bit register words (R8),
and little-endian packing (R3, R4). -/
namespace Sys2Proof

/-- One byte. -/
abbrev Byte := BitVec 8

/-- One 64-bit register word (R8). -/
abbrev Word := BitVec 64

/-- The value of a little-endian byte string: the first byte is least significant (R3). -/
def leNat : List Byte → Nat
  | [] => 0
  | b :: bs => b.toNat + 256 * leNat bs

/-- The `n` little-endian bytes of a number, taken modulo 256^n (R3). -/
def leBytes : Nat → Nat → List Byte
  | 0, _ => []
  | n + 1, v => BitVec.ofNat 8 v :: leBytes n (v / 256)

/-- Bits `[lo + w - 1 : lo]` of a number (R4). -/
def bitsOf (v lo w : Nat) : Nat := (v / 2 ^ lo) % 2 ^ w

/-- The number read as a two's-complement integer of `w` bits. -/
def signedOf (w v : Nat) : Int :=
  if v % 2 ^ w < 2 ^ (w - 1) then ((v % 2 ^ w : Nat) : Int) else ((v % 2 ^ w : Nat) : Int) - 2 ^ w

/-- `⌈a ÷ b⌉`. -/
def ceilDiv (a b : Nat) : Nat := (a + b - 1) / b

/-- The smallest multiple of `b` not below `a`. -/
def roundUp (a b : Nat) : Nat := ceilDiv a b * b

end Sys2Proof
end

