-- ==== Sys2Proof/Syntax.lean ====
section
/-! DEFINITION. The commands and events of the DZ-9640 block, one constructor of `Instr` for each row of
spec/opcode_table.json, with the operands that the row's rule gives it. The table gives no row a bit encoding. -/
namespace Sys2Proof

/-- A hall number H0–H3 (R7). -/
abbrev HallId := Fin 4
/-- A device-wide enabled-bench number (R7). -/
abbrev BenchId := Fin 256
/-- A stack number S0–S19, with its quern (R7). -/
abbrev StackId := Fin 20
/-- A partition number (R7). -/
abbrev PtnId := Fin 8
/-- A Lightway port number P0–P31 (R7). -/
abbrev LPort := Fin 32
/-- An Ethernet port number E0–E3 (R21). -/
abbrev EPort := Fin 4
/-- A guild member number (R7). -/
abbrev MemberId := Fin 64

/-- A command capsule: every field of the 64-byte header (R349), then the inline area. -/
structure Capsule where
  opc     : Byte
  flags   : Byte
  ptn     : Byte
  policy  : Byte
  inlen   : BitVec 16
  target  : Byte
  rsv07   : Byte
  reqid   : Word
  handle  : Word
  budget  : BitVec 32
  cseq    : BitVec 32
  nin     : Byte
  nout    : Byte
  listoff : BitVec 16
  npin    : BitVec 16
  pinoff  : BitVec 16
  arg0    : Word
  arg1    : Word
  arg2    : Word
  inl     : List Byte
  deriving DecidableEq, Repr, Inhabited

/-- A token (R51). -/
structure Token where
  inst   : BitVec 32
  node   : BitVec 16
  gen    : BitVec 16
  pk     : Byte
  status : Byte
  ptn    : Byte
  member : Byte
  value  : BitVec 32
  deriving DecidableEq, Repr, Inhabited

/-- The name of one firing: instance, node and generation (R57). -/
structure FKey where
  inst : BitVec 32
  node : BitVec 16
  gen  : BitVec 16
  deriving DecidableEq, Repr, Inhabited

/-- A queue pair set-up record (R451). -/
structure SetupRecord where
  magic    : BitVec 32
  kind     : Byte
  ptn      : Byte
  aclass   : Byte
  cqmode   : Byte
  slots    : BitVec 16
  rsv0A    : BitVec 16
  slotcap  : BitVec 32
  nmask    : BitVec 16
  gsel     : BitVec 16
  gkind    : Byte
  rsv15    : BitVec 24
  ringaddr : Word
  ringkey  : BitVec 32
  ringlen  : BitVec 32
  session  : Word
  rsv30    : BitVec 128
  deriving DecidableEq, Repr, Inhabited

/-- A fall-back launch descriptor (R424). -/
structure FallbackDesc where
  reqid : Word
  ptn   : Byte
  type  : Byte
  flags : Byte
  gkind : Byte
  gsel  : BitVec 16
  rsv0E : BitVec 16
  count : Word
  xaddr : Word
  yaddr : Word
  maddr : Word
  cseq  : BitVec 32
  rsv34 : BitVec 96
  deriving DecidableEq, Repr, Inhabited

/-- The header of a Lightway packet (R390). -/
structure PacketHeader where
  kind  : Byte
  vcc   : Byte
  dst   : Byte
  src   : Byte
  len   : BitVec 16
  flow  : BitVec 16
  pseq  : BitVec 32
  ack   : BitVec 32
  route : Word
  ptn   : Byte
  hop   : Byte
  rsv1A : BitVec 48
  deriving DecidableEq, Repr, Inhabited

/-- What a peer sends at IDENT (R386): serial, member, coordinates, guild handle, port and charter; and whether its
certificate and signature verify at KEY (R389). -/
structure PeerIdent where
  serial  : BitVec 128
  member  : Byte
  x       : Nat
  y       : Nat
  z       : Nat
  handle  : Word
  port    : LPort
  charter : List Byte
  deriving DecidableEq, Repr, Inhabited

/-- The agreements that the warden coordinates (R404): a GROUP agreement carries the new table, in words numbered from
its first (R414), a CHARTER agreement the guild charter, a JOIN agreement the joining member's serial number and the new
route set: for source × 64 + destination, the ROUTE word of R390 (R394). -/
inductive Agreement where
  | draftActivate (ptn : PtnId)
  | draftUnload (ptn : PtnId)
  | flip (table edition : Nat)
  | group (table : List (Nat × Word))
  | charter (bytes : List Byte)
  | join (member : MemberId) (serial : BitVec 128) (routes : List (Nat × Word))
  deriving DecidableEq, Repr, Inhabited

/-- The warden's answer to a JOIN (R401, R402, R443): the guild charter, the draft digests and
model handles that a member in QUARANTINE may load, the group table, the editions (table, number, state, flip epoch), and
the membership with its serial numbers; the editions begun FRESH (table, number), and the highest edition number of each table
(R158, R166). -/
structure JoinAnswer where
  charter  : List Byte
  digests  : List (List Byte)
  handles  : List Nat
  groups   : List (Nat × Word)
  editions : List (Nat × Nat × Nat × Nat)
  joined   : Word
  serials  : List (Nat × BitVec 128)
  fresh    : List (Nat × Nat) := []
  highest  : List (Nat × Nat) := []
  deriving DecidableEq, Repr, Inhabited

/-- A member's report to the warden, or of a staged draft to the member that loads it (R94, R169, R404); an ACK carries
the member's charter (R400). -/
inductive Report where
  | ready
  | notReady (reason : Nat)
  | staged
  | refused
  | ack (charter : List Byte)
  deriving DecidableEq, Repr, Inhabited

/-- The master and the kind of one channel-path access (R309). -/
inductive AccessKind where
  | read
  | write (data : List Byte)
  deriving DecidableEq, Repr, Inhabited

/-- How a sector of DRAM reads back under the check codes of R318, or a word of an SRAM array under its SEC-DED code: `corrected` a
single-bit error, `uncorrectable` a double-bit one (R317). -/
inductive SectorOutcome where
  | clean
  | corrected
  | uncorrectable
  deriving DecidableEq, Repr, Inhabited

/-- What an event reads in an SRAM array, and how that reads back (R317). -/
structure Reading (α : Type) where
  what    : α
  outcome : SectorOutcome
  deriving DecidableEq, Repr, Inhabited

/-- A failing physical bench, and the word of its tile SRAM with a double-bit error, where that is what fails (R317, R437). -/
structure BenchFault where
  pbench : Nat
  word   : Option Nat := none
  deriving DecidableEq, Repr, Inhabited

/-- A batch tag (R174). -/
structure BatchTag where
  ptn   : PtnId
  reqid : Word
  node  : BitVec 16
  gen   : BitVec 16
  chunk : BitVec 32
  copy  : Bool
  stack : StackId
  deriving DecidableEq, Repr, Inhabited

/-- One command or event, one constructor per row of the opcode table. A collective goes by the name of its sequence
number, group and partition: sequence × 4096 + group × 8 + partition, an axis group counting as 0x100 + GSPEC (R416,
R417). -/
inductive Instr where
  /- serving: capsules on a queue pair (R349–R352) -/
  | run (qp : Nat) (c : Capsule)
  | cancel (qp : Nat) (c : Capsule)
  | query (qp : Nat) (c : Capsule)
  | graphLoad (qp : Nat) (c : Capsule) (image : List Byte)
  | graphUnload (qp : Nat) (c : Capsule)
  | draftLoad (qp : Nat) (c : Capsule) (image : List Byte)
  | draftActivate (qp : Nat) (c : Capsule)
  | draftUnload (qp : Nat) (c : Capsule)
  | pageEvict (qp : Nat) (c : Capsule)
  | pageEvictDrained (ptn : PtnId) (reqid : Word)
  | pageRestore (qp : Nat) (c : Capsule)
  | editionBegin (qp : Nat) (c : Capsule)
  | editionWrite (qp : Nat) (c : Capsule) (rows : List Byte)
  | editionSeal (qp : Nat) (c : Capsule)
  | editionSealDone (ptn : PtnId) (reqid : Word)
  | editionDiscard (qp : Nat) (c : Capsule)
  | editionFlip (qp : Nat) (c : Capsule)
  | graphDefine (qp : Nat) (c : Capsule)
  | graphUndefine (qp : Nat) (c : Capsule)
  /- rounds and admission (R355, R356) -/
  | inputFetchDone (ptn : PtnId) (reqid : Word) (inputs : List (List Byte))
  | roundWindowClose (ptn : PtnId)
  | admissionRetry (ptn : PtnId)
  /- matching store (R57–R69) -/
  | tokenArrive (t : Token)
  | benchDispatch (bench : Reading BenchId)
  | affinityHoldExpire (k : FKey)
  | matchStall (hall : HallId) (inst : BitVec 32)
  | nodeFiringEnd (k : FKey)
  | relay (k : FKey)
  | join (k : FKey)
  | steer (k : FKey)
  /- node classes -/
  | gather (k : FKey)
  | scatterAdd (k : FKey)
  | sample (k : FKey)
  | segmentReduce (k : FKey)
  | matmul (k : FKey)
  | chainFiring (k : FKey)
  | chainHoldExpire (k : FKey)
  | chainSumArrive (k : FKey) (pos tile : Nat)
  | spmmCsr (k : FKey)
  | hubSegmentTake (bench : BenchId)
  | hubPartialArrive (k : FKey) (row seg : Nat)
  | vector (k : FKey)
  | reduce (k : FKey)
  | topk (k : FKey)
  | streamCopy (k : FKey)
  | fuse (k : FKey)
  | fusedGroupDispatch (k : FKey)
  | fuseCreditReturn (k : FKey)
  | barrier (k : FKey)
  | barrierRelease (k : FKey)
  | allreduce (k : FKey)
  | rwkReserveRetry (coll : Nat)
  | collPassStart (coll : Nat)
  | fallbackLaunch (qp : Nat) (d : FallbackDesc)
  /- streams -/
  | streamAdmit (hall : HallId)
  | preadmit (bench : BenchId)
  | streamRequestComplete (hall : HallId) (ctx : Reading Byte)
  | pageResume (ptn : PtnId) (ra : Nat)
  | streamSlack (hall : HallId) (ctx : Byte)
  | haltLong (hall : HallId) (ctx : Byte)
  /- querns -/
  | quernEntryAccept (stack : Reading StackId)
  | segmentOpen (stack : StackId)
  | lineFetchDone (stack : StackId) (line : Nat) (o : SectorOutcome)
  | bankFallback (stack : StackId) (line : Nat)
  | mergerPartial (hall : Reading HallId)
  | gatherPartial (k : FKey)
  | addBatchArrive (stack : StackId) (tag : BatchTag)
  | addBatchReserved (stack : StackId) (tag : BatchTag)
  | addBatchEnd (stack : StackId) (tag : BatchTag)
  | cbAgeWriteback (stack : StackId) (line : Nat) (o : SectorOutcome)
  /- memory system -/
  | channelAccess (master : BitVec 12) (hall : HallId) (ptn : PtnId) (ra len : Nat) (hint : Nat) (a : AccessKind)
      (o : SectorOutcome)
  | hallCacheFillDone (hall : HallId) (line : Nat)
  | scrubRead (stack : StackId) (o : SectorOutcome)
  /- retention and other timers -/
  | receiptExpire (ptn : PtnId) (tag : BatchTag)
  | tallyEntryExpire (ptn : PtnId) (reqid : Word)
  | mailboxRetentionExpire (qp slot : Nat)
  | pushRetentionExpire (ptn : PtnId) (reqid : Word)
  | retireSlow (table : BitVec 32)
  | staleTokenDiscard (t : Token)
  /- the counter -/
  | cmReq (port : EPort) (r : SetupRecord) (counter : BitVec 32) (tag : BitVec 128)
  | qpClose (qp : Nat)
  | hostRdmaRead (qp : Nat) (key : BitVec 32) (va : Word) (len : Nat)
  | hostRdmaWrite (qp : Nat) (key : BitVec 32) (va : Word) (data : List Byte)
  | slotRelease (qp : Nat) (key : BitVec 32) (va : Word) (data : List Byte)
  | doorbellWrite (qp : Nat) (key : BitVec 32) (c : Word)
  | unsupportedVerb (qp : Nat)
  | ackTimeout (qp : Nat)
  | ecnMarkedReceive (qp : Nat)
  | cnpReceive (qp : Nat)
  | rateIncrease (qp : Nat)
  | pauseFrame (port : EPort) (prio : BitVec 3) (ns : Nat)
  | linkState (port : EPort) (up pfc : Bool)
  | noticeHoldExpire (qp : Nat)
  | noticeDeliver
  /- the Lightway fabric -/
  | portTrain (port : LPort) (peer : PeerIdent)
  | heldRetry (port : LPort)
  | keyAgree (port : LPort) (certOk sigOk : Bool) (secret : List Byte)
  | keyRenew (port : LPort) (secret : List Byte)
  | linkFrameReceive (port : LPort) (codewordOk tagOk : Bool) (corrected : Nat)
  | portFail (port : LPort)
  | linkDown (port : LPort)
  | packetReceive (port : LPort) (h : PacketHeader) (payload : List Byte) (crc : BitVec 32)
  | e2eTimeout (dst : MemberId) (vc : Fin 4) (pseq : BitVec 32)
  | e2e (dst : MemberId) (vc : Fin 4) (pseq : BitVec 32)
  | tokenPacket (src : MemberId) (ptn : PtnId) (payload : List Byte)
  | commandPacket (src : MemberId) (reply : Bool) (elapsed : Nat) (c : Capsule) (data : List Byte) (status : Byte)
      (value : Word)
  | noticePacket (src : MemberId) (payload : List Byte)
  | gatherReq (src : MemberId) (ptn : PtnId) (payload : List Byte)
  | partialPkt (src : MemberId) (ptn : PtnId) (payload : List Byte)
  | sampleReq (src : MemberId) (ptn : PtnId) (payload : List Byte)
  | sampleAns (src : MemberId) (ptn : PtnId) (payload : List Byte)
  | addBatch (src : MemberId) (ptn : PtnId) (payload : List Byte)
  | addAck (src : MemberId) (ptn : PtnId) (payload : List Byte)
  | chunk (src : MemberId) (ptn : PtnId) (payload : List Byte)
  | chunkNack (src : MemberId) (coll : Nat) (chunk : Nat)
  | bulk (src : MemberId) (kind : Nat) (ptn : PtnId) (payload : List Byte)
  /- collectives -/
  | stragglerExpire (coll : Nat) (chunk : Nat) (neighbour : MemberId)
  | hold (src : MemberId) (coll : Nat) (chunk : Nat)
  | late (coll : Nat) (member : MemberId) (elastic : Bool)
  | reform (coll : Nat) (mask : Word) (rfm : Byte)
  | collAbort (ptn : PtnId) (grp : BitVec 16) (seq : Word) (cause : Byte) (detector member : MemberId)
      (sigA sigB : Word)
  /- agreements and membership -/
  | prepare (epoch : Word) (a : Agreement) (drainUs : Nat)
  | ready (src : MemberId) (epoch : Word) (r : Report)
  | drainTimeout (epoch : Word)
  | commit (epoch : Word) (a : Agreement)
  | abort (epoch : Word) (a : Agreement)
  | drained (src : MemberId) (table edition : BitVec 32)
  | release (epoch : Word) (table edition : BitVec 32)
  | joinRequest (member : MemberId) (serial : BitVec 128) (charter quote : List Byte) (linkSerial : BitVec 128)
      (answer : JoinAnswer)
  | joinWaitExpire (reachable : Word) (serials : List (BitVec 128)) (charters : List (List Byte))
  | probeExpire (member : MemberId)
  | lost (epoch : Word) (member : MemberId) (cause : Byte) (routes : List (Nat × Word))
  | routes (epoch : Word) (routes : List (Nat × Word))
  | fenceExpire (reached : Word)
  | rebuildPage (src : MemberId) (table edition : BitVec 32) (page : Nat) (data : List Byte)
  /- dependability -/
  | benchOutOfService (hall : HallId) (pbench : BenchFault)
  | benchWatchdog (bench : BenchId)
  | benchCopyDone (hall : HallId) (clean : Bool)
  | stackWithdraw (stack : StackId) (cause : Fin 8)
  | drainForced
  /- the assay block -/
  | mbctlClaim (v : BitVec 16)
  | claimExpire
  | certs
  | quote
  | sessionOpen
  | sessionClose
  | zeroise
  | signersLoad
  | rolesLoad
  | packageLoad
  | tamper (sensor : Byte)
  | entropyTestFail
  /- power and start-up -/
  | powerApplied (mv : Nat)
  | powerLoss
  | inputRange (mv : Nat)
  | modRstAssert
  | modRstRelease (selfTestOk : Bool)
  | trainingDone (untrained : BitVec 20) (laneSpares : List Byte) (badBenches : List (BitVec 68))
  | thermalSample (temps : List (BitVec 16)) (halls : List (BitVec 16))
  | hallTrip (hall : HallId) (temp : BitVec 16)
  | powerCapStep (watts : Nat)
  | pwrRstCold
  | pwrRstWarm
  | pwrCmdDrain
  | pwrCmdRelease
  | pwrT1500dWrite (v : Word)
  /- register actions -/
  | qrnFlush (stack : StackId)
  | qrnHrcinv (stack : StackId)
  | halCctlFlush (hall : HallId)
  | halCctlInv (hall : HallId)
  | halCctlEn (hall : HallId) (en : Bool)
  | accclr (bench : BenchId)
  | bchVcseed (bench : BenchId) (seed : Word)
  | halSresume (hall : HallId) (mask : Byte)
  | halDctlOos (hall : HallId) (pbench : BitVec 7)
  | halDctlWd (hall : HallId) (stack : BitVec 3)
  | elogClr (hall : HallId)
  | nringClr
  | rwkGcommitCommit
  | rwkGcommitDiscard
  | registerWrite (master : BitVec 12) (addr : Nat) (v : Word)
  | registerBadAccess (master : BitVec 12) (addr len : Nat) (isWrite : Bool) (k : Option FKey)
  /- sideband and test ports -/
  | sidebandPrivateWrite (bytes : List Byte)
  | sidebandPrivateRead
  | setdasa (addr : BitVec 7)
  | idcode
  | bypass
  | samplePreload (cells : BitVec 120)
  | extest
  | stack1500 (stack : BitVec 5) (v : Word)
  /- rows added at the end of the table -/
  | pipeTileArrive (k : FKey) (tile : Nat)
  | sampleNeighbourReturn (k : FKey)
  | levelCSumReceive (coll : Nat) (chunk : Nat) (guildPos : Nat) (sums : List (BitVec 32))
  | pairSwitchDone (pair : Fin 16) (through : Bool)
  | pfcPauseExpire (port : EPort)
  | arpRequest (port : EPort) (ip : BitVec 32)
  | neighbourSolicitation (port : EPort) (ip : BitVec 128)
  | nakReceive (qp : Nat) (op : Nat) (reqid : Word) (entry : Byte)
  | rnrRetry (qp : Nat) (taken : Bool)
  | inputInRange (mv : Nat)
  | tapReset
  deriving DecidableEq, Repr

end Sys2Proof
end

