-- ==== Sys2Proof/Config.lean ====
section
/-! DEFINITION. What one part fixes for itself, and the values that the spec leaves open. Each constant has no body, so
no proof can see its value: a claim holds for every value. The assumption log names each of them. -/
namespace Sys2Proof

/-- The free values of the spec: draw number `n` gives a stream of values, indexed by `i` (log entry 1, DESIGN CHOICE). -/
opaque Config.choice (n i : Nat) : Nat

/-- The 128-bit serial number, fused at manufacture (R469). -/
opaque Config.serial : BitVec 128

/-- The MAC address of E0, derived at manufacture (R448). -/
opaque Config.mac : BitVec 48

/-- Hard spare rows left in a stack, as built (R322, R324). -/
opaque Config.hardLeft : Nat → BitVec 16

/-- The lowest firmware security version accepted, as built (R492). -/
opaque Config.fusedSvn : BitVec 16

/-- The full digest in a firmware-signer slot, and whether its revocation fuse is blown (R471). -/
opaque Config.signerSlot : Nat → List Byte × Bool

/-- The DER certificate chain that CERTS returns (R470). -/
opaque Config.certChain : List Byte

/-- ML-DSA-87 verification (FIPS 204): public key, message and signature (R74, R471). -/
opaque Config.mldsaVerify (pk msg sig : List Byte) : Bool

/-- An ML-DSA-87 signature of the module's identity key over a message; the number is the randomness drawn (R470). -/
opaque Config.mldsaSign (rnd : Nat) (msg : List Byte) : List Byte

/-- ML-KEM-1024 encapsulation (FIPS 203): ciphertext and shared secret for an encapsulation key (R479). -/
opaque Config.mlkemEncaps (rnd : Nat) (ek : List Byte) : List Byte × List Byte

/-- The AES-256-GCM tag over an empty plaintext: key, nonce and additional data (R480). -/
opaque Config.gcmTag (key nonce aad : List Byte) : List Byte

/-- Whether the quote of a joining member verifies: the chain and the signature (R482). -/
opaque Config.quoteChainOk (quote : List Byte) : Bool
opaque Config.quoteSigOk (quote : List Byte) : Bool

/-- The keyed hash H of bits [35:14] of an offset in a stack, whose key is drawn at each boot and not readable (R303). -/
opaque Config.offsetHash (key stack bits : Nat) : Nat

/-- The set of a hot-row cache or hall cache in which a line lies; the spec gives the number of sets and no index. -/
opaque Config.cacheSet (line : Nat) : Nat

/-- The draws of SAMPLE (R288): a fixed function of the node's KEY, the request ID, the hop, the parent and its slot, the
same on every member; the index counts the draws. -/
opaque Config.sampleDraw (key reqid hop : Nat) (parent : Int) (slot i : Nat) : Nat

/-- What byte `i` of a READY mailbox slot beyond its payload reads as: queue pair, slot and count of fills (R376, log entry 44, DESIGN CHOICE). -/
opaque Config.slotTail (qp slot fills i : Nat) : BitVec 8

/-- The vector-chain generator: the draw of number `n` from a seed state (R267). -/
opaque Config.vcDraw (seed n : Nat) : Nat

end Sys2Proof
end

