-- ==== Sys2Proof/Machine/RegMap.lean ====
section
/-! DEFINITION. The register tables of the spec (R32, R71, R91, R124, R125, R156, R157, R178, R216, R217, R245, R280, R301,
R323, R324, R348, R380, R410, R430, R447, R468, R492, R515): for each block, the offsets that hold a writable field or a
field with a reset value other than zero, with the masks of the access codes of R10. An offset that stands in no row
holds read-only status that `Machine/Status.lean` computes, or is reserved and reads as zero. -/
namespace Sys2Proof.Machine

/-- One row of a register table: its offsets `first`, `first + stride`, …, `last`, its reset value, and the bits of each
access code of R10. -/
structure RegRow where
  first  : Nat
  last   : Nat
  stride : Nat
  reset  : Nat
  rw     : Nat
  w1c    : Nat
  rws    : Nat
  rwl    : Nat
  deriving DecidableEq, Repr, Inhabited

/-- The register blocks of R519. PTN has its partition groups (`ptng`, at p × 0x100) and its module-wide part (`ptn`). -/
inductive Block where
  | chip | asy | ctr | fab | rwk | hal | bch | qrn | ptng | ptn | pwr
  deriving DecidableEq, Repr, Inhabited

/-- The rows of block chip. -/
def rowsChip : List RegRow := [
  /- CHIP_ID (R32) -/ ⟨0x0, 0x0, 8, 0x10001B09640, 0, 0, 0, 0⟩,
  /- CHIP_CAPS (R32) -/ ⟨0x8, 0x8, 8, 0x40820144004, 0, 0, 0, 0⟩,
  /- CHIP_SCRATCH (R32) -/ ⟨0x18, 0x18, 8, 0, 0, 0, 0xFFFFFFFFFFFFFFFF, 0⟩]

/-- The rows of block asy. -/
def rowsAsy : List RegRow := [
  /- ASY_ACNT (R492) -/ ⟨0x28, 0x28, 8, 0, 0xFFFFFFFF, 0, 0, 0⟩,
  /- ASY_AFAULT (R492) -/ ⟨0x30, 0x30, 8, 0, 0, 0x8000000000000000, 0, 0⟩,
  /- ASY_ATSEL (R492) -/ ⟨0x38, 0x38, 8, 0, 0x3FFFFF, 0, 0, 0⟩,
  /- ASY_MBCTL (R492) -/ ⟨0x48, 0x48, 8, 0, 0xFFFF000000000000, 0, 0, 0⟩,
  /- ASY_MBOX (R492) -/ ⟨0x1000, 0x2FF8, 8, 0, 0xFFFFFFFFFFFFFFFF, 0, 0, 0⟩]

/-- The rows of block ctr. -/
def rowsCtr : List RegRow := [
  /- CTR_NETCFG (R468) -/ ⟨0x0, 0x0, 8, 0, 0, 0, 0x7FFFFFFFF, 0⟩,
  /- CTR_IPV6H (R468) -/ ⟨0x8, 0x8, 8, 0, 0, 0, 0xFFFFFFFFFFFFFFFF, 0⟩,
  /- CTR_IPV6L (R468) -/ ⟨0x10, 0x10, 8, 0, 0, 0, 0xFFFFFFFFFFFFFFFF, 0⟩,
  /- CTR_CTL (R468) -/ ⟨0x20, 0x20, 8, 0x70EF0CD3, 0x7FFFFFFF, 0, 0, 0⟩,
  /- CTR_CC (R468) -/ ⟨0x28, 0x28, 8, 0x3200370032, 0xFFFFFFFFFFFF, 0, 0, 0⟩,
  /- CTR_PCNTh (R468) -/ ⟨0x50, 0x68, 8, 0, 0xFFFFFFFFFFFFFFFF, 0, 0, 0⟩,
  /- CTR_CNT_CAP (R468) -/ ⟨0x78, 0x78, 8, 0, 0xFFFFFFFFFFFFFFFF, 0, 0, 0⟩,
  /- CTR_CNT_NOT (R468) -/ ⟨0x80, 0x80, 8, 0, 0xFFFFFFFFFFFFFFFF, 0, 0, 0⟩,
  /- CTR_CNT_NAK (R468) -/ ⟨0x88, 0x88, 8, 0, 0xFFFFFFFFFFFFFFFF, 0, 0, 0⟩,
  /- CTR_NCTL (R468) -/ ⟨0x90, 0x90, 8, 0x3E8, 0xFFFF, 0, 0, 0⟩,
  /- CTR_NRING (R468) -/ ⟨0x98, 0x98, 8, 0, 0xFFFFFFFF00000000, 0, 0, 0⟩,
  /- CTR_NSEL (R468) -/ ⟨0xA0, 0xA0, 8, 0, 0xFFF, 0, 0, 0⟩]

/-- The rows of block fab. -/
def rowsFab : List RegRow := [
  /- FAB_GCFG (R410) -/ ⟨0x0, 0x0, 8, 0x3000, 0, 0, 0x7FFF, 0⟩,
  /- FAB_GHANDLE (R410) -/ ⟨0x8, 0x8, 8, 0, 0, 0, 0xFFFFFFFFFFFFFFFF, 0⟩,
  /- FAB_CTL (R410) -/ ⟨0x28, 0x28, 8, 0x10141F40C814, 0xFFFFFFFFFFFFFF, 0, 0, 0⟩,
  /- FAB_VCW (R410) -/ ⟨0x30, 0x30, 8, 0x14030408, 0xFFFFFFFF, 0, 0, 0⟩,
  /- FAB_PCNTp (R410) -/ ⟨0x108, 0x2F8, 16, 0, 0xFFFFFFFFFFFFFFFF, 0, 0, 0⟩]

/-- The rows of block rwk. -/
def rowsRwk : List RegRow := [
  /- RWK_CTL (R430) -/ ⟨0x0, 0x0, 8, 0x3E8, 0x1FFFF, 0, 0, 0⟩,
  /- RWK_GSEL (R430) -/ ⟨0x10, 0x10, 8, 0, 0x1FF, 0, 0, 0⟩,
  /- RWK_GENT0–15 (R430) -/ ⟨0x40, 0xB8, 8, 0, 0xFFFFFFFFFFFFFFFF, 0, 0, 0⟩,
  /- RWK_CNT_LAUNCH (R430) -/ ⟨0x100, 0x100, 8, 0, 0xFFFFFFFFFFFFFFFF, 0, 0, 0⟩,
  /- RWK_CNT_ABORT (R430) -/ ⟨0x108, 0x108, 8, 0, 0xFFFFFFFFFFFFFFFF, 0, 0, 0⟩,
  /- RWK_CNT_REFORM (R430) -/ ⟨0x110, 0x110, 8, 0, 0xFFFFFFFFFFFFFFFF, 0, 0, 0⟩,
  /- RWK_CNT_CRC (R430) -/ ⟨0x118, 0x118, 8, 0, 0xFFFFFFFFFFFFFFFF, 0, 0, 0⟩]

/-- The rows of block hal. -/
def rowsHal : List RegRow := [
  /- HAL_MCTL (R71) -/ ⟨0x0, 0x0, 8, 0x1006407D0, 0, 0, 0, 0x1FFFFFFFF⟩,
  /- HAL_MCNT_DROP (R71) -/ ⟨0x18, 0x18, 8, 0, 0xFFFFFFFFFFFFFFFF, 0, 0, 0⟩,
  /- HAL_MCNT_FLOW (R71) -/ ⟨0x20, 0x20, 8, 0, 0xFFFFFFFFFFFFFFFF, 0, 0, 0⟩,
  /- HAL_MCNT_BAD (R71) -/ ⟨0x28, 0x28, 8, 0, 0xFFFFFFFFFFFFFFFF, 0, 0, 0⟩,
  /- HAL_GCNT_OOB (R157) -/ ⟨0x100, 0x100, 8, 0, 0xFFFFFFFFFFFFFFFF, 0, 0, 0⟩,
  /- HAL_GCNT_MRG (R157) -/ ⟨0x108, 0x108, 8, 0, 0xFFFFFFFFFFFFFFFF, 0, 0, 0⟩,
  /- HAL_GCNT_SAT (R157) -/ ⟨0x118, 0x118, 8, 0, 0xFFFFFFFF, 0, 0, 0⟩,
  /- HAL_XCTL (R217) -/ ⟨0x140, 0x140, 8, 0x7D0, 0xFFFF, 0, 0, 0⟩,
  /- HAL_SCNT_OOB (R301) -/ ⟨0x160, 0x160, 8, 0, 0xFFFFFFFFFFFFFFFF, 0, 0, 0⟩,
  /- HAL_SCNT_DRAW (R301) -/ ⟨0x168, 0x168, 8, 0, 0xFFFFFFFFFFFFFFFF, 0, 0, 0⟩,
  /- HAL_SCNT_HUB (R301) -/ ⟨0x170, 0x170, 8, 0, 0xFFFFFFFFFFFFFFFF, 0, 0, 0⟩,
  /- HAL_SCNT_MISC (R301) -/ ⟨0x178, 0x178, 8, 0, 0xFFFFFFFFFFFFFFFF, 0, 0, 0⟩,
  /- HAL_CCTL (R323) -/ ⟨0x180, 0x180, 8, 0x1, 0x1, 0, 0, 0⟩,
  /- HAL_CWAYS0 (R323) -/ ⟨0x188, 0x188, 8, 0xFFFFFFFFFFFFFFFF, 0xFFFFFFFFFFFFFFFF, 0, 0, 0⟩,
  /- HAL_CWAYS1 (R323) -/ ⟨0x190, 0x190, 8, 0xFFFFFFFFFFFFFFFF, 0xFFFFFFFFFFFFFFFF, 0, 0, 0⟩,
  /- HAL_CCNT_HIT (R323) -/ ⟨0x1A0, 0x1A0, 8, 0, 0xFFFFFFFFFFFFFFFF, 0, 0, 0⟩,
  /- HAL_CCNT_MISS (R323) -/ ⟨0x1A8, 0x1A8, 8, 0, 0xFFFFFFFFFFFFFFFF, 0, 0, 0⟩,
  /- HAL_CCNT_WB (R323) -/ ⟨0x1B0, 0x1B0, 8, 0, 0xFFFFFFFFFFFFFFFF, 0, 0, 0⟩,
  /- HAL_CCNT_FAR (R323) -/ ⟨0x1B8, 0x1B8, 8, 0, 0xFFFFFFFFFFFFFFFF, 0, 0, 0⟩,
  /- HAL_SCTL (R348) -/ ⟨0x200, 0x200, 8, 0xC9001403E80190, 0x7FFFFFFFFFFFFFF, 0, 0, 0⟩,
  /- HAL_SCNT_BYTES (R348) -/ ⟨0x210, 0x210, 8, 0, 0xFFFFFFFFFFFFFFFF, 0, 0, 0⟩,
  /- HAL_SCNT_ADM (R348) -/ ⟨0x218, 0x218, 8, 0, 0xFFFFFFFFFFFFFFFF, 0, 0, 0⟩,
  /- HAL_SCNT_LATE (R348) -/ ⟨0x220, 0x220, 8, 0, 0xFFFFFFFFFFFFFFFF, 0, 0, 0⟩,
  /- HAL_SCNT_HALT (R348) -/ ⟨0x228, 0x228, 8, 0, 0xFFFFFFFFFFFFFFFF, 0, 0, 0⟩,
  /- HAL_SCNT_BAR (R348) -/ ⟨0x230, 0x230, 8, 0, 0xFFFFFFFFFFFFFFFF, 0, 0, 0⟩,
  /- HAL_SHALT (R348) -/ ⟨0x238, 0x238, 8, 0, 0, 0x8000000000000000, 0, 0⟩,
  /- HAL_SCTXSEL (R348) -/ ⟨0x248, 0x248, 8, 0, 0xFF, 0, 0, 0⟩,
  /- HAL_DCTL (R447) -/ ⟨0x300, 0x300, 8, 0, 0x77F, 0, 0, 0⟩,
  /- HAL_DCNT (R447) -/ ⟨0x318, 0x318, 8, 0, 0xFFFFFFFFFFFFFFFF, 0, 0, 0⟩,
  /- HAL_ELOGPTR (R447) -/ ⟨0x320, 0x320, 8, 0, 0xFFFFFFFF00000000, 0, 0, 0⟩,
  /- HAL_ELOGSEL (R447) -/ ⟨0x328, 0x328, 8, 0, 0x3F, 0, 0, 0⟩]

/-- The rows of block bch. -/
def rowsBch : List RegRow := [
  /- BCH_MXCNT_STEP (R216) -/ ⟨0x18, 0x18, 8, 0, 0xFFFFFFFFFFFFFFFF, 0, 0, 0⟩,
  /- BCH_MXCNT_TILE (R216) -/ ⟨0x20, 0x20, 8, 0, 0xFFFFFFFFFFFFFFFF, 0, 0, 0⟩,
  /- BCH_MXCNT_EV (R216) -/ ⟨0x28, 0x28, 8, 0, 0xFFFFFFFFFFFFFFFF, 0, 0, 0⟩,
  /- BCH_MXCNT_CHAIN (R216) -/ ⟨0x30, 0x30, 8, 0, 0xFFFFFFFFFFFFFFFF, 0, 0, 0⟩,
  /- BCH_SPCTL (R245) -/ ⟨0x100, 0x100, 8, 0x20003, 0xFFFFF3, 0, 0, 0⟩,
  /- BCH_SPCNT_PAT (R245) -/ ⟨0x108, 0x108, 8, 0, 0xFFFFFFFFFFFFFFFF, 0, 0, 0⟩,
  /- BCH_SPCNT_FLT (R245) -/ ⟨0x110, 0x110, 8, 0, 0xFFFFFFFFFFFFFFFF, 0, 0, 0⟩,
  /- BCH_SPCNT_Z (R245) -/ ⟨0x118, 0x118, 8, 0, 0xFFFFFFFFFFFFFFFF, 0, 0, 0⟩,
  /- BCH_SPCNT_CMP (R245) -/ ⟨0x120, 0x120, 8, 0, 0xFFFFFFFFFFFFFFFF, 0, 0, 0⟩,
  /- BCH_SPCNT_ZW (R245) -/ ⟨0x128, 0x128, 8, 0, 0xFFFFFFFF, 0, 0, 0⟩,
  /- BCH_SPCNT_HUB (R245) -/ ⟨0x130, 0x130, 8, 0, 0xFFFFFFFFFFFFFFFF, 0, 0, 0⟩,
  /- BCH_SPCNT_STEAL (R245) -/ ⟨0x138, 0x138, 8, 0, 0xFFFFFFFF, 0, 0, 0⟩,
  /- BCH_VCCNT_EL (R280) -/ ⟨0x150, 0x150, 8, 0, 0xFFFFFFFFFFFFFFFF, 0, 0, 0⟩,
  /- BCH_VCCNT_EV (R280) -/ ⟨0x158, 0x158, 8, 0, 0xFFFFFFFFFFFFFFFF, 0, 0, 0⟩,
  /- BCH_VCCNT_LANE (R280) -/ ⟨0x160, 0x160, 8, 0, 0xFFFFFFFFFFFFFFFF, 0, 0, 0⟩,
  /- BCH_RUCNT (R280) -/ ⟨0x168, 0x168, 8, 0, 0xFFFFFFFFFFFFFFFF, 0, 0, 0⟩,
  /- BCH_TFQ (R280) -/ ⟨0x170, 0x170, 8, 0, 0xFFFFFFFF00000000, 0, 0, 0⟩]

/-- The rows of block qrn. -/
def rowsQrn : List RegRow := [
  /- QRN_CTL (R156) -/ ⟨0x8, 0x8, 8, 0x200643, 0xFFFFF3, 0, 0, 0⟩,
  /- QRN_HRCWAYS0 (R156) -/ ⟨0x18, 0x18, 8, 0xFFFFFFFFFFFFFFFF, 0xFFFFFFFFFFFFFFFF, 0, 0, 0⟩,
  /- QRN_HRCWAYS1 (R156) -/ ⟨0x20, 0x20, 8, 0xFFFFFFFFFFFFFFFF, 0xFFFFFFFFFFFFFFFF, 0, 0, 0⟩,
  /- QRN_CNT_IDX (R156) -/ ⟨0x28, 0x28, 8, 0, 0xFFFFFFFFFFFFFFFF, 0, 0, 0⟩,
  /- QRN_CNT_WIN (R156) -/ ⟨0x30, 0x30, 8, 0, 0xFFFFFFFFFFFFFFFF, 0, 0, 0⟩,
  /- QRN_CNT_HRC (R156) -/ ⟨0x38, 0x38, 8, 0, 0xFFFFFFFFFFFFFFFF, 0, 0, 0⟩,
  /- QRN_CNT_DRAM (R156) -/ ⟨0x40, 0x40, 8, 0, 0xFFFFFFFFFFFFFFFF, 0, 0, 0⟩,
  /- QRN_CNT_ADD (R156) -/ ⟨0x48, 0x48, 8, 0, 0xFFFFFFFFFFFFFFFF, 0, 0, 0⟩,
  /- QRN_CNT_CB (R156) -/ ⟨0x50, 0x50, 8, 0, 0xFFFFFFFFFFFFFFFF, 0, 0, 0⟩,
  /- QRN_CNT_SAT (R156) -/ ⟨0x58, 0x58, 8, 0, 0xFFFFFFFFFFFFFFFF, 0, 0, 0⟩,
  /- QRN_CNT_FLOW (R156) -/ ⟨0x60, 0x60, 8, 0, 0xFFFFFFFFFFFFFFFF, 0, 0, 0⟩,
  /- QRN_SCCTL (R324) -/ ⟨0x100, 0x100, 8, 0x831, 0x1FFF, 0, 0, 0⟩,
  /- QRN_SCSTAT (R324) -/ ⟨0x108, 0x108, 8, 0xFF000, 0, 0, 0, 0⟩,
  /- QRN_ECCCNT (R324) -/ ⟨0x110, 0x110, 8, 0, 0xFFFFFFFFFFFFFFFF, 0, 0, 0⟩,
  /- QRN_ECCLOG (R324) -/ ⟨0x118, 0x118, 8, 0, 0, 0x8000000000000000, 0, 0⟩,
  /- QRN_RGCNTp (R324) -/ ⟨0x180, 0x1B8, 8, 0, 0xFFFFFFFFFFFFFFFF, 0, 0, 0⟩]

/-- The rows of block ptng. -/
def rowsPtng : List RegRow := [
  /- PTNp_DFLOOR (R91) -/ ⟨0x18, 0x18, 8, 0, 0, 0, 0xFFFFFFFFFFFFFFFF, 0⟩,
  /- PTNp_XFAULT (R124) -/ ⟨0x80, 0x80, 8, 0, 0, 0x8000000000000000, 0, 0⟩,
  /- PTNp_XCNT (R124) -/ ⟨0x88, 0x88, 8, 0, 0xFFFFFFFFFFFFFFFF, 0, 0, 0⟩,
  /- PTNp_ESEL (R178) -/ ⟨0x90, 0x90, 8, 0, 0xFFFFFFFF, 0, 0, 0⟩,
  /- PTNp_EDC (R178) -/ ⟨0xA8, 0xA8, 8, 0, 0xFFFFFC0000000000, 0, 0, 0⟩,
  /- PTNp_RCPT (R178) -/ ⟨0xB8, 0xB8, 8, 0, 0xFFFFFFFFFFE00000, 0, 0, 0⟩,
  /- PTNp_LAG (R380) -/ ⟨0xC8, 0xC8, 8, 0, 0xFFFFFFFF00000000, 0, 0, 0⟩,
  /- PTNp_DLCNT (R380) -/ ⟨0xD0, 0xD0, 8, 0, 0xFFFFFFFFFFFFFFFF, 0, 0, 0⟩,
  /- PTNp_TALLY (R380) -/ ⟨0xD8, 0xD8, 8, 0, 0xFFFFFFFF00000000, 0, 0, 0⟩,
  /- PTNp_TCNT (R380) -/ ⟨0xE0, 0xE0, 8, 0, 0xFFFFFFFFFFFFFFFF, 0, 0, 0⟩,
  /- PTNp_SRVCTL (R380) -/ ⟨0xE8, 0xE8, 8, 0x3E8, 0xFFFF, 0, 0, 0⟩]

/-- The rows of block ptn. -/
def rowsPtn : List RegRow := [
  /- PTN_TSEL (R125) -/ ⟨0x808, 0x808, 8, 0, 0xFFFFFFFF, 0, 0, 0⟩]

/-- The rows of block pwr. -/
def rowsPwr : List RegRow := [
  /- PWR_CAP (R515) -/ ⟨0x20, 0x20, 8, 0xA8C, 0xFFF, 0, 0, 0⟩,
  /- PWR_TEST (R515) -/ ⟨0x28, 0x28, 8, 0, 0x1, 0, 0, 0⟩,
  /- THM_CNT (R515) -/ ⟨0x70, 0x70, 8, 0, 0xFFFFFFFFFFFFFFFF, 0, 0, 0⟩,
  /- PWR_T1500 (R515) -/ ⟨0x78, 0x78, 8, 0, 0x1F, 0, 0, 0⟩,
  /- PWR_T1500D (R515) -/ ⟨0x80, 0x80, 8, 0, 0xFFFFFFFFFFFFFFFF, 0, 0, 0⟩]

/-- The rows of a block. -/
def blockRows : Block → List RegRow
  | .chip => rowsChip
  | .asy => rowsAsy
  | .ctr => rowsCtr
  | .fab => rowsFab
  | .rwk => rowsRwk
  | .hal => rowsHal
  | .bch => rowsBch
  | .qrn => rowsQrn
  | .ptng => rowsPtng
  | .ptn => rowsPtn
  | .pwr => rowsPwr

/-- The row that holds an offset, the empty row where none does. -/
def regRow (b : Block) (off : Nat) : RegRow :=
  ((blockRows b).find? fun r => decide (r.first ≤ off ∧ off ≤ r.last ∧ (off - r.first) % r.stride = 0)).getD default

end Sys2Proof.Machine
end

