-- ==== Sys2Proof/Machine/State.lean ====
section
/-! DEFINITION. The state of one DZ-9640 module, as plain data: every register, memory, queue, mode, record and pin
that the spec gives the block, and the queue of waiting commands. INVENTORY.md lists each field with its rule. -/
namespace Sys2Proof.Machine

/-- A sparse map from number to word in canonical form: keys strictly rising, no entry at its default value. -/
abbrev WordMap := List (Nat × Word)

/-- Sparse byte memory in canonical form: keys strictly rising, no entry equal to what an unlisted key reads as. -/
abbrev Memory := List Host.Cell

/-! ### Draft records (R75–R89) -/

/-- PARTITION record (R75). -/
structure PartitionRec where
  mode     : Nat := 0
  collgrp  : Nat := 0
  arenaRgn : Nat := 0
  roundUs  : Nat := 0
  livemax  : List Nat := []
  slots    : List Nat := []
  readys   : List Nat := []
  rgbuf    : Nat := 0
  affhold  : Nat := 0
  holdlim  : Nat := 0
  affen    : Nat := 0
  lock     : Nat := 0
  qpairs   : Nat := 0
  deriving DecidableEq, Repr, Inhabited

/-- BENCHSET record (R78). -/
structure BenchSetRec where
  set    : Nat
  hall   : Nat
  share  : Nat
  weight : Nat
  mask   : Nat
  deriving DecidableEq, Repr, Inhabited

/-- WEAVE record (R80). -/
structure WeaveRec where
  kind  : Nat
  hall  : Nat
  id    : Nat
  len   : Nat
  bench : List Nat
  deriving DecidableEq, Repr, Inhabited

/-- One stage of a composition (R82, R249). -/
structure VStage where
  code  : Nat
  param : Nat
  deriving DecidableEq, Repr, Inhabited

/-- VCHAIN record (R82). -/
structure VChainRec where
  comp   : Nat
  stages : List VStage
  deriving DecidableEq, Repr, Inhabited

/-- REGION record (R84). -/
structure RegionRec where
  rgn   : Nat
  page  : Nat
  mode  : Nat
  wh    : Nat
  flags : Nat
  base  : Nat
  size  : Nat
  deriving DecidableEq, Repr, Inhabited

/-- REGULATOR record (R86). -/
structure RegulatorRec where
  stack : Nat
  cap   : Nat
  rate  : Nat
  burst : Nat
  deriving DecidableEq, Repr, Inhabited

/-- ACCESS record (R87). -/
structure AccessRec where
  tclass : Nat
  perm   : Nat
  tfirst : Nat
  tcount : Nat
  mfirst : Nat
  mlast  : Nat
  mkind  : Nat
  deriving DecidableEq, Repr, Inhabited

/-- PLACEMENT record (R89). -/
structure PlacementRec where
  table   : Nat
  type    : Nat
  mode    : Nat
  wh      : Nat
  twin    : Bool
  rows    : Nat
  dim     : Nat
  rgn     : Nat
  shards  : Nat
  readers : Nat
  adders  : Nat
  deriving DecidableEq, Repr, Inhabited

/-- A verified draft (R72–R89), with its digest (R74). -/
structure Draft where
  ptn        : Nat := 0
  tag        : Nat := 0
  serial     : Nat := 0
  part       : PartitionRec := {}
  sets       : List BenchSetRec := []
  weaves     : List WeaveRec := []
  chains     : List VChainRec := []
  regions    : List RegionRec := []
  regulators : List RegulatorRec := []
  access     : List AccessRec := []
  placements : List PlacementRec := []
  digest     : List Byte := []
  deriving DecidableEq, Repr, Inhabited

/-- Residency of a page (R110). -/
inductive Residency where
  | present
  | building
  | evicted
  | lost
  deriving DecidableEq, Repr, Inhabited

/-- A region that holds pages: its record, the serial number of its allocation, the frames that it holds on each stack as runs of
first frame and count, in page order (R109, R115), and its pages' residency where it differs from the state at activation
(R108, R110). -/
structure RegionSt where
  info   : RegionRec
  serial : Nat
  frames : List (List (Nat × Nat)) := []
  resid  : List (Nat × Residency) := []
  deriving DecidableEq, Repr, Inhabited

/-- A page table entry (R107): VALID, SIZE (1: 64 KiB), TABLE, FRAME and RGN. -/
structure PageEntry where
  valid : Bool
  small : Bool
  table : Bool
  frame : Nat
  rgn   : Nat
  deriving DecidableEq, Repr, Inhabited

/-- A unit with translation caches (R108): a hall, a quern or the engine of a counter port. -/
inductive XUnit where
  | hall (h : Nat)
  | quern (s : Nat)
  | port (e : Nat)
  deriving DecidableEq, Repr, Inhabited

/-- A page table entry in a unit's translation caches: the partition and the page's number in its region (R108). -/
structure XlatLine where
  unit  : XUnit
  ptn   : Nat
  page  : Nat
  entry : PageEntry
  deriving DecidableEq, Repr, Inhabited

/-! ### Work graphs (R41–R50) -/

/-- A DEST entry (R43). -/
structure Dest where
  node   : Nat
  port   : Nat
  sel    : Nat
  member : Nat
  remote : Bool
  valid  : Bool
  deriving DecidableEq, Repr, Inhabited

/-- A node descriptor (R42). -/
structure Node where
  index  : Nat
  op     : Nat
  exit   : Bool
  noaff  : Bool
  prio   : Bool
  nports : Nat
  dyn    : Nat
  bset   : Nat
  opnd   : List Nat
  res    : List Nat
  dest   : List Dest
  param  : Nat
  deriving DecidableEq, Repr, Inhabited

/-- A tensor descriptor (R47). -/
structure Tensor where
  type   : Nat
  layout : Nat
  hint   : Nat
  space  : Nat
  pat    : Nat
  oobx   : Bool
  dim0   : Nat
  dim1   : Nat
  dim2   : Nat
  pitch  : Nat
  aux    : Nat
  addr   : Nat
  deriving DecidableEq, Repr, Inhabited

/-- A loaded graph under its model handle (R41, R351). -/
structure Graph where
  handle  : Nat
  maxgen  : Nat
  exits   : Nat
  arena   : Nat
  slotq   : Nat
  readyq  : Nat
  tag     : Nat
  nodes   : List Node
  tensors : List Tensor
  image   : List Byte
  deriving DecidableEq, Repr, Inhabited

/-- A defined guild graph: the fields of its descriptor (R283); the editions of its tables that one flip made CURRENT together, set by
set, as (table, edition) (R284); and the GRAPH_UNDEFINE that this member has applied and whose outcome it awaits (R282). -/
structure GuildGraph where
  graph : Nat
  offs  : Nat
  nbr   : Nat
  wgt   : Nat
  sink  : Nat
  ptn   : Nat := 0
  verts : Nat := 0
  ecap  : Nat := 0
  sets  : List (List (Nat × Nat)) := []
  going : Option Word := none
  deriving DecidableEq, Repr, Inhabited

/-! ### Tables and editions (R158–R170) -/

/-- Edition states (R159); an edition in state NONE is held by no record. -/
inductive EdState where
  | building
  | sealed
  | current
  | retiring
  deriving DecidableEq, Repr, Inhabited

/-- One edition on this member: the edition maps of the copies held, as page numbers within RGN (R119). -/
structure Edition where
  num       : Nat
  state     : EdState
  fresh     : Bool
  primary   : Option (List Nat)
  twin      : Option (List Nat)
  retiredAt : Nat := 0
  reported  : Bool := false
  slowSaid  : Bool := false
  writes    : Nat := 0
  deriving DecidableEq, Repr, Inhabited

/-- A table placed by a draft in force, with its editions and last flip epoch (R123, R158), and the edition set aside for
an EDITION_BEGIN that is not decided yet (R163). -/
structure Table where
  ptn      : Nat
  place    : PlacementRec
  highest  : Nat
  flip     : Nat
  editions : List Edition
  aside    : Option (Word × Edition) := none
  deriving DecidableEq, Repr, Inhabited

/-! ### Serving (R349–R377) -/

/-- How a completion is to be delivered: queue pair, host sequence number and delivery flags (R349, R364). -/
structure Delivery where
  qp    : Nat
  cseq  : BitVec 32
  flags : Byte
  slot  : Nat
  outs  : List (Nat × Nat × Nat)
  deriving DecidableEq, Repr, Inhabited

/-- Where a command came from: its delivery where this member received it, else the receiving member; and the capsule. -/
structure Origin where
  own     : Option Delivery
  recv    : Nat
  capsule : Capsule
  deriving DecidableEq, Repr, Inhabited

/-- A tally entry (R363). `heldFor` names the member for which this is a copy (R366). -/
structure TallyEntry where
  reqid     : Word
  opc       : Nat
  digest    : List Byte
  budget    : Nat
  elapsed   : Nat
  arrival   : Nat
  done      : Bool := false
  doneAt    : Nat := 0
  status    : Nat := 0
  late      : Bool := false
  flagged   : Bool := false
  length    : Nat := 0
  value     : Nat := 0
  retained  : Bool := false
  mailbox   : Option (Nat × Nat) := none
  results   : List (List (Nat × List Byte)) := []
  own       : Option Delivery := none
  attached  : List Origin := []
  effectful : Bool := false
  heldFor   : Option Nat := none
  recv      : Nat := 0
  capsule   : Option Capsule := none
  deriving DecidableEq, Repr, Inhabited

/-- Where a RUN stands (R355, R356, R359): its inputs are being fetched; it waits for a window to open; it is in the open
window; it waits for its reservations; it executes. -/
inductive ReqState where
  | fetching
  | held
  | window
  | waiting
  | executing
  deriving DecidableEq, Repr, Inhabited

/-- A RUN request on its admitting member `dest` (R355, R356), or on the receiving member while its inputs are fetched.
`staged` counts its bytes in input staging (R456). -/
structure Request where
  reqid    : Word
  ptn      : Nat
  qp       : Nat
  capsule  : Capsule
  arrival  : Nat
  deadline : Option Nat
  state    : ReqState
  round    : Nat := 0
  inputs   : List (Nat × Nat) := []
  staged   : Nat := 0
  dest     : Nat := 0
  reexec   : Bool := false
  forLost  : Bool := false
  recv     : Nat := 0
  deriving DecidableEq, Repr, Inhabited

/-- Where a held token stands (R66, R67). -/
inductive Place where
  | slotReserved
  | slotGeneral
  | completion
  | readyReserved
  | readyGeneral
  deriving DecidableEq, Repr, Inhabited

/-- The state of a match entry (R57). -/
inductive EntryState where
  | filling
  | waitReady
  | ready
  | executing
  deriving DecidableEq, Repr, Inhabited

/-- What a token on its way comes from, and so the path that it takes (R28, R66). -/
inductive TokenSrc where
  | bench (b : Nat)
  | hall (h : Nat)
  | ropewalk
  | member (k : Nat)
  deriving DecidableEq, Repr, Inhabited

/-- A token on its way to the matching store, and since when its producer is held back with it (R28, R66, R69). -/
structure Flight where
  tok   : Token
  src   : TokenSrc
  since : Option Nat := none
  deriving DecidableEq, Repr, Inhabited

/-- A match entry: the tokens of one node at one generation, and then its firing (R57). `readyAt` is its place in the order
in which entries became READY, `readySince` the local time at which it did (R62, R213); `heldAt` the hall that a store-executed
node waits for, and since when (R66); `haltAt` the page at which the firing is halted (R61, R337). -/
structure MatchEntry where
  key      : FKey
  ptn      : Nat
  hall     : Nat
  state    : EntryState
  tokens   : List (Nat × Token × Place)
  place    : Place := .readyReserved
  readyAt  : Nat := 0
  readySince : Nat := 0
  heldAt   : Option (Nat × Nat) := none
  holdTill : Option Nat := none
  lapsed   : Bool := false
  bench    : Option Nat := none
  status   : Nat := 0
  ran      : Bool := false
  haltAt   : Option Nat := none
  benches  : List Nat := []
  chainHold : Bool := false
  preadm   : Bool := false
  launched : Bool := false
  deriving DecidableEq, Repr, Inhabited

/-- A live instance (R54). `wrote` holds the spans of each result buffer that the graph has written (R373). -/
structure Inst where
  num       : BitVec 32
  ptn       : Nat
  handle    : Nat
  reqid     : Word
  arenaBase : Nat
  inBufs    : List (Nat × Nat)
  outBufs   : List (Nat × Nat)
  bindings  : List (Nat × Nat)
  exitsDone : Nat := 0
  status    : Nat := 0
  cancelled : Bool := false
  lostCause : Nat := 0
  launched  : Bool := false
  startedAt : Nat := 0
  benchesRan : List Nat := []
  stallSaid : Bool := false
  round     : Nat := 0
  forLost   : Bool := false
  wrote     : List (Nat × List (Nat × Nat)) := []
  deriving DecidableEq, Repr, Inhabited

/-- The serving rounds of a partition (R356, R357). `due` holds, for each round not complete, its number, its due time,
the requests not complete and all its requests. -/
structure Rounds where
  isOpen    : Bool := false
  openedAt  : Nat := 0
  width     : Nat := 0
  owed      : Nat := 0
  num       : Nat := 0
  due       : List (Nat × Nat × Nat × Nat) := []
  lastN     : Nat := 0
  shortened : Nat := 0
  deriving DecidableEq, Repr, Inhabited

/-- A receipt (R176). -/
structure Receipt where
  tag   : BatchTag
  table : Nat
  at_   : Nat
  deriving DecidableEq, Repr, Inhabited

/-- A command other than a RUN that has begun on its admitting member and not ended (R94, R111, R162, R167, R353): whether
this member's own part is still to end, the members yet to answer, and its status so far. -/
structure PendingCmd where
  capsule : Capsule
  mine    : Bool
  waits   : List Nat
  status  : Nat := 0
  value   : Nat := 0
  deriving DecidableEq, Repr, Inhabited

/-- A command that waits for a tally entry, its tally twin or input staging, holding nothing (R365, R368, R456). -/
structure Blocked where
  origin  : Origin
  arrival : Nat
  elapsed : Nat
  data    : List Byte
  deriving DecidableEq, Repr, Inhabited

/-- One partition (R91). `seals` holds the EDITION_SEAL parts that wait for the EDITION_WRITEs that this member admitted before: the
capsule, the member that sent it, and the request IDs of those writes (R167). -/
structure Partition where
  active   : Nat := 0
  draft    : Option Draft := none
  staged   : Option Draft := none
  regions  : List RegionSt := []
  stagedRegions : List RegionSt := []
  cand     : Option Draft := none
  candRegions : List RegionSt := []
  epoch    : Nat := 0
  admitting : Bool := true
  impaired : Bool := false
  graphs   : List Graph := []
  unloaded : List Nat := []
  ggraphs  : List GuildGraph := []
  tally    : List TallyEntry := []
  requests : List Request := []
  rounds   : Rounds := {}
  receipts : List Receipt := []
  waitCmds : List PendingCmd := []
  seals    : List (Capsule × Nat × List Word) := []
  refetch  : List Word := []
  blocked  : List Blocked := []
  arenaUsed : List (Nat × Nat) := []
  lastDeny : Option Nat := none
  denied   : Nat := 0
  lastEarly : Option Nat := none
  earlySince : Nat := 0
  pagesSaid : List Nat := []
  deriving DecidableEq, Repr, Inhabited

/-! ### Streams and barriers (R325–R346) -/

/-- A stream context (R332). -/
structure Context where
  idx    : Nat
  state  : Nat
  kind   : Nat
  ptn    : Nat
  status : Nat
  key    : FKey
  bench  : Nat
  port   : Nat
  ring   : Nat
  src    : Nat
  dst    : Nat
  total  : Nat
  done   : Nat := 0
  fill   : Nat := 0
  rate   : Nat := 1
  dt     : Nat := 0
  haltAt : Nat := 0
  slackSaid : Bool := false
  longSaid  : Bool := false
  deriving DecidableEq, Repr, Inhabited

/-- Stream resources held by a firing in a hall (R328, R330). -/
structure Held where
  key   : FKey
  bench : Nat
  light : Nat
  area  : Nat
  deriving DecidableEq, Repr, Inhabited

/-- A stream admission (R328): the firings it is for, their rings as contexts without numbers, and what each holds of
the stream areas and light-path slots. -/
structure Admission where
  keys  : List FKey
  ptn   : Nat
  rings : List Context
  held  : List Held
  deriving DecidableEq, Repr, Inhabited

/-- A barrier that has fired and not released, with the set it waits for (R345). -/
structure BarrierSt where
  key   : FKey
  ptn   : Nat
  hall  : Nat
  hold  : Bool
  scopePtn : Bool
  waits : List FKey
  deriving DecidableEq, Repr, Inhabited

/-- One value of a hub segment's partial: an fp32 code or an integer, and whether making it saturated or made a NaN. -/
structure HubVal where
  val : Int
  sat : Bool := false
  nan : Bool := false
  deriving DecidableEq, Repr, Inhabited

/-- One hub segment in a hall's hub queue or running on a bench (R243, R294, R297). `age` is its place in the order in which
nodes and segments became ready (R62). -/
structure HubSegment where
  owner : FKey
  ptn   : Nat
  set   : Nat
  prio  : Bool
  row   : Nat
  seg   : Nat
  block : Nat
  first : Nat
  count : Nat
  age   : Nat := 0
  bench : Option Nat := none
  partials : List HubVal := []
  deriving DecidableEq, Repr, Inhabited

/-- A line of a hall cache or a hot-row cache: set, way, line key, re-reference value, dirty (R143, R305). -/
structure CacheLine where
  set   : Nat
  way   : Nat
  line  : Nat
  rrv   : Nat
  dirty : Bool := false
  deriving DecidableEq, Repr, Inhabited

/-- A miss register of a hall cache: one DRAM request of 1 to 16 contiguous lines from `line` on, for a read, or for lines that a write
covers only in part, which are `dirty` when they come. Those `snooped` are delivered and not installed (R306, R310). -/
structure Fill where
  line    : Nat
  count   : Nat := 1
  ptn     : Nat
  install : Bool
  dirty   : Bool := false
  snooped : List Nat := []
  deriving DecidableEq, Repr, Inhabited

/-- A partial pooled vector on its way (R138, R147): the entries covered, by number where this member issued them, and
fp32 values, or under NONE one row as stored. -/
structure PoolPartial where
  key     : FKey
  src     : Nat
  ptn     : Nat
  bag     : Nat
  covered : Nat
  slots   : List Nat
  member  : Nat
  hall    : Nat
  status  : Nat
  vals    : List (BitVec 32)
  row     : List Byte := []
  deriving DecidableEq, Repr, Inhabited

/-- A bag slot of a hall pool merger (R147). -/
structure MergerSlot where
  key     : FKey
  src     : Nat
  ptn     : Nat
  bag     : Nat
  covered : Nat
  slots   : List Nat
  flagged : Bool
  vals    : List (BitVec 32)
  row     : List Byte := []
  deriving DecidableEq, Repr, Inhabited

/-- What the issuer told a merger: how many entries of a bag go to that hall's querns (R147), and its bench. -/
structure MergerQuota where
  key   : FKey
  src   : Nat
  bench : Nat
  bag   : Nat
  count : Nat
  deriving DecidableEq, Repr, Inhabited

/-- An entry of a hall event log (R446). -/
structure LogEntry where
  code   : Nat
  unit   : Nat
  ptn    : Nat
  ltime  : Nat
  addr   : Nat
  detail : List Byte
  deriving DecidableEq, Repr, Inhabited

/-- One hall (R20–R26). `copying` holds the benches whose tile SRAM is being copied to a spare: device-wide number, old and
new physical bench (R438); `level` is its step of heat throttling and `coolAt` since when it has been 3 °C below each threshold
(R511). -/
structure Hall where
  entries  : List MatchEntry := []
  affinity : List (Nat × Nat × Nat) := []
  contexts : List Context := []
  held     : List Held := []
  admq     : List Admission := []
  barriers : List BarrierSt := []
  hubq     : List HubSegment := []
  cache    : List CacheLine := []
  fills    : List Fill := []
  merger   : List MergerSlot := []
  quotas   : List MergerQuota := []
  arriving : List PoolPartial := []
  oos      : BitVec 68 := 0
  spare    : List Nat := [64, 65, 66, 67]
  copying  : List (Nat × Nat × Nat) := []
  elog     : List LogEntry := []
  elogHead : Nat := 0
  temp     : BitVec 16 := 0
  clock    : Nat := 1250
  level    : Nat := 0
  coolAt   : List (Option Nat) := [none, none, none, none]
  hotAt    : Option Nat := none
  throttledAt : Nat := 0
  turn     : List (Nat × Nat) := []
  deriving DecidableEq, Repr, Inhabited

/-! ### Benches and querns -/

/-- One enabled bench, by device-wide number (R7, R520). `clearDue` is a write of BCH_MXCTL.ACCCLR that waits for the end of a firing
(R216); `dbe` counts the double-bit errors of its tile SRAM since boot (R437). -/
structure Bench where
  phys   : Nat := 0
  dbe    : Nat := 0
  busy   : Option FKey := none
  next   : Option FKey := none
  heldFor : Option FKey := none
  seed   : Nat := 0
  clearDue : Bool := false
  deriving DecidableEq, Repr, Inhabited

/-- One entry of a bag's portion at a quern (R136, R396). -/
structure QEntry where
  key     : FKey
  src     : Nat
  ptn     : Nat
  bag     : Nat
  slot    : Nat
  index   : Nat
  weight  : BitVec 32
  table   : Nat
  edition : Nat
  hint    : Nat
  none_   : Bool
  deriving DecidableEq, Repr, Inhabited

/-- The distinct rows of a segment: the weights that entries brought, where the row lies, the window entries it is attached to,
those of them still to be read, and its data by line (R139–R141). -/
structure SegRow where
  index   : Nat
  weights : List (BitVec 32)
  slots   : List Nat
  key     : Nat
  wins    : List Nat
  need    : List Nat
  got     : List (Nat × List Byte) := []
  bad     : Bool := false
  deriving DecidableEq, Repr, Inhabited

/-- A segment of a bag's portion (R139, R140): the entries its lanes have not accepted yet, and its rows. -/
structure Segment where
  id      : Nat
  key     : FKey
  src     : Nat
  ptn     : Nat
  bag     : Nat
  isOpen  : Bool
  entries : List QEntry
  rows    : List SegRow := []
  table   : Nat
  none_   : Bool
  reserve : Nat := 0
  deriving DecidableEq, Repr, Inhabited

/-- An entry of the coalescing window (R141), with the segment whose reservation it came from, none where a sampling read made it (R140,
R291). Its data are the line's as the fetch began; a write or an add that meets it afterwards makes it stale (R151, R310). -/
structure WinLine where
  id      : Nat
  seg     : Option Nat
  line    : Nat
  fetched : Bool
  data    : List Byte
  stale   : Bool := false
  hint    : Nat
  ptn     : Nat
  fromHrc : Bool := false
  deriving DecidableEq, Repr, Inhabited

/-- A merged combining entry: line key, row type and one delta per element (R150): fp32 patterns for float rows,
int64 patterns for integer rows. `lastAdd` is its place in the order of updates, `addAt` the local time of the last (R152). -/
structure CombEntry where
  line    : Nat
  type    : Nat
  ptn     : Nat
  deltas  : List Word
  lastAdd : Nat
  addAt   : Nat := 0
  deriving DecidableEq, Repr, Inhabited

/-- One add of a batch: row index and delta row in the table's type (R398). -/
structure AddEntry where
  index : Nat
  delta : List Byte
  deriving DecidableEq, Repr, Inhabited

/-- An add batch at its quern (R174). -/
structure Batch where
  tag      : BatchTag
  src      : Nat
  table    : Nat
  adds     : List AddEntry
  reserved : Bool := false
  ended    : Bool := false
  deriving DecidableEq, Repr, Inhabited

/-- One stack with its quern and stack controller (R24, R302). `coolAt` holds, for each throttle step, since when the temperature
has been 3 °C below its threshold (R510); `hardUsed` counts the hard repairs fused into the stack (R322). -/
structure Quern where
  inq      : List QEntry := []
  segs     : List Segment := []
  nextSeg  : Nat := 0
  win      : List WinLine := []
  nextWin  : Nat := 0
  hrc      : List CacheLine := []
  comb     : List CombEntry := []
  batches  : List Batch := []
  poisoned : List Nat := []
  tokens   : List Nat := [0, 0, 0, 0, 0, 0, 0, 0]
  scrubAt  : Nat := 0
  rowCe    : List (Nat × Nat) := []
  ueScrub  : Nat := 0
  chargeRem : List Nat := [0, 0, 0, 0, 0, 0, 0, 0]
  fillAt   : Nat := 0
  soft     : Nat := 0
  lanesp   : Nat := 0
  trained  : Bool := false
  withdrawn : Bool := false
  wdcause  : Nat := 0
  temp     : BitVec 16 := 0
  step     : Nat := 0
  coolAt   : List (Option Nat) := [none, none, none]
  throttledAt : Nat := 0
  shift1500 : Word := 0
  hardUsed : Nat := 0
  deriving DecidableEq, Repr, Inhabited

/-! ### Node progress -/

/-- One entry a gather has issued (R136, R138). -/
structure Issued where
  slot   : Nat
  bag    : Nat
  index  : Nat
  weight : BitVec 32
  member : Nat
  hall   : Nat
  triedTwin : Bool := false
  done   : Bool := false
  deriving DecidableEq, Repr, Inhabited

/-- One bag of a gather under way (R138). -/
structure BagSt where
  bag     : Nat
  n       : Nat
  covered : Nat := 0
  acc     : List (BitVec 32) := []
  row     : List Byte := []
  closed  : Bool := false
  deriving DecidableEq, Repr, Inhabited

/-- A GATHER firing under way (R136–R149). -/
structure GatherSt where
  key     : FKey
  ptn     : Nat
  hall    : Nat
  bench   : Nat
  table   : Nat
  edition : Nat
  pool    : Nat
  rnd     : Nat
  hint    : Nat
  result  : Tensor
  issued  : List Issued
  bags    : List BagSt
  arriving : List PoolPartial := []
  flagged : Bool := false
  deriving DecidableEq, Repr, Inhabited

/-- A SCATTER_ADD firing under way: the batches not yet acknowledged, with their members (R174, R176). -/
structure ScatterSt where
  key    : FKey
  ptn    : Nat
  out    : List (BatchTag × Nat × List AddEntry)
  table  : Nat
  flagged : Bool := false
  deriving DecidableEq, Repr, Inhabited

/-- A parent of a hop (R291, R398). -/
structure Parent where
  vertex : Int
  bag    : Nat
  slot   : Nat
  pathW  : BitVec 32
  member : Nat
  answered : Bool := false
  triedTwin : Bool := false
  dead   : Bool := false
  got    : List (Int × BitVec 32) := []
  deriving DecidableEq, Repr, Inhabited

/-- A SAMPLE firing under way on a guild graph: the parents of the hop that is out, and of the hops answered
(R286–R294); in full mode the seeds that the walk has not handled, with whether ACT lets each, and whether it stopped for capacity
(R294). -/
structure SampleSt where
  key     : FKey
  ptn     : Nat
  hop     : Nat
  parents : List Parent
  past    : List (List Parent) := []
  flagged : Bool := false
  todo    : List (Int × Bool) := []
  trunc   : Bool := false
  deriving DecidableEq, Repr, Inhabited

/-- A chain MATMUL under way: how many running-sum tiles each position has received (R211). -/
structure ChainSt where
  key     : FKey
  benches : List Nat
  tiles   : Nat
  got     : List Nat
  deriving DecidableEq, Repr, Inhabited

/-- A hub owner's state: its hub rows with first entry and entry count, the feature blocks of a segment, and the
partials merged so far (R243, R244, R297). -/
structure HubSt where
  key    : FKey
  bench  : Nat
  rows   : List (Nat × Nat × Nat)
  blocks : Nat := 1
  merged : List (Nat × Nat × List HubVal) := []
  deriving DecidableEq, Repr, Inhabited

/-- A fused hand-over under way: its firings, its pipe, the credits left and all of them, the tiles passed and all of
them, and the model's buffer that holds the tensor on the pipe (R342–R344). -/
structure GroupSt where
  prod    : FKey
  cons    : FKey
  pipe    : Nat
  credits : Nat
  buffer  : Nat
  sentTiles : Nat := 0
  tiles   : Nat
  wb      : Bool
  buf     : Nat := 0
  deriving DecidableEq, Repr, Inhabited

/-! ### Ropewalk (R411–R430) -/

/-- What one chunk holds on this member (R418, R420–R426): its own level-A sum and those of its children, each as fp32
codes or integers; the level-B sum where this member formed it, with the members it contains; the sum that is broadcast;
and what it has sent, for a resend. -/
structure ChunkSt where
  num     : Nat
  own     : List Int
  since   : Nat
  kids    : List (Nat × List Int) := []
  sent    : List (Nat × Nat × List Int) := []
  root    : Option (List Int) := none
  rootMask : Nat := 0
  total   : Option (List Int) := none
  upRfm   : Option Nat := none
  fwdRfm  : Option Nat := none
  done    : Bool := false
  sat     : Bool := false
  nacked  : Bool := false
  saidHold : Bool := false
  holds   : List Nat := []
  levelC  : List (Nat × List Int) := []
  pieces  : List (Nat × Nat × Nat × List Byte) := []
  deriving DecidableEq, Repr, Inhabited

/-- A tensor of a collective: its descriptor, its region address and the key of its first byte. -/
structure CollTensor where
  t   : Tensor
  ra  : Nat
  key : Nat
  deriving DecidableEq, Repr, Inhabited

/-- A collective on this member (R413), under the name of its partition, group and sequence number. `pass` counts the
passes started; `ended` holds its status once it has ended. -/
structure Coll where
  id      : Nat
  key     : Option FKey
  reqid   : Word := 0
  ptn     : Nat
  grp     : Nat
  seq     : Nat
  sig     : Word
  type    : Nat
  count   : Nat
  csize   : Nat
  qsize   : Nat
  rnd     : Nat
  elastic : Bool
  reserved : Bool := false
  pass    : Nat := 0
  ranks   : List Nat
  masks   : List Nat
  rfm     : Nat := 0
  xs      : List CollTensor
  y       : CollTensor
  m       : Option CollTensor
  chunks  : List ChunkSt := []
  heard   : List Nat := []
  flagged : Bool := false
  ended   : Option Nat := none
  deriving DecidableEq, Repr, Inhabited

/-- An ABORT that has arrived before its collective (R413, R417). -/
structure EarlyAbort where
  name     : Nat
  cause    : Nat
  detector : Nat
  member   : Nat
  sigA     : Word
  sigB     : Word
  deriving DecidableEq, Repr, Inhabited

/-- A fall-back launch that is tallied and not launched yet (R424). -/
structure FallbackWait where
  qp   : Nat
  desc : FallbackDesc
  reexec : Bool := false
  deriving DecidableEq, Repr, Inhabited

/-- The ropewalk (R414, R430): the group tables in force and staged, the next sequence number of each partition and
group, the collectives, and what has arrived for collectives that have not begun here. -/
structure Ropewalk where
  inForce : WordMap := []
  stagedT : WordMap := []
  epoch   : Nat := 0
  busy    : Bool := false
  result  : Nat := 0
  seqs    : List (Nat × Nat) := []
  colls   : List Coll := []
  fallbacks : List FallbackWait := []
  reforms : List (Nat × Nat × Nat) := []
  aborts  : List EarlyAbort := []
  holds   : List (Nat × Nat × Nat) := []
  packets : List (Nat × Nat × List Byte) := []
  sums    : List (Nat × Nat × Nat × List (BitVec 32)) := []
  deriving DecidableEq, Repr, Inhabited

/-! ### Counter (R448–R468) -/

/-- A completion entry (R458). -/
structure Completion where
  status  : Nat
  flags   : Nat
  cseq    : BitVec 32
  reqid   : Word
  opc     : Nat
  ptn     : Nat
  member  : Nat
  length  : Nat
  value   : Nat
  elapsed : Nat
  deriving DecidableEq, Repr, Inhabited

/-- A notice (R462). -/
structure Notice where
  sev    : Nat
  code   : Nat
  member : Nat
  ptn    : Option Nat
  nseq   : BitVec 16
  obj    : Nat
  ltime  : Nat
  detail : List Byte
  deriving DecidableEq, Repr, Inhabited

/-- An entry bound for a queue pair's ring or receive buffers (R457, R459); a notice with the local time at which it was
queued (R465). -/
inductive QEvent where
  | completion (c : Completion)
  | notice (n : Notice) (at_ : Nat)
  deriving DecidableEq, Repr, Inhabited

/-- A mailbox slot header (R374). -/
structure Slot where
  reqid  : Word := 0
  state  : Nat := 0
  status : Nat := 0
  flags  : Nat := 0
  length : Nat := 0
  cseq   : BitVec 32 := 0
  fills  : BitVec 32 := 0
  crc    : BitVec 32 := 0
  readyAt : Nat := 0
  deriving DecidableEq, Repr, Inhabited

/-- A queue pair (R451–R457). `lostN` counts the notices discarded since its last NOTICE_LOST (R465), `rate` is its sending
rate in Mb/s (R450), and `lastSent` the entry last sent while `rnr` has it retried (R457). -/
structure QueuePair where
  num      : Nat
  port     : Nat
  kind     : Nat
  ptn      : Nat
  aclass   : Nat
  ringMode : Bool
  slotcap  : Nat
  slots    : List Slot
  nmask    : Nat
  gsel     : Nat
  gkind    : Nat
  ringaddr : Nat
  ringkey  : BitVec 32
  ringlen  : Nat
  keys     : List (BitVec 32)
  prod     : BitVec 32 := 0
  cons     : BitVec 32 := 0
  outq     : List QEvent := []
  behind   : List Notice := []
  lostN    : Nat := 0
  err      : Bool := false
  rate     : Nat := 400000
  rateAt   : Nat := 0
  lastCnp  : Option Nat := none
  rnr      : Bool := false
  lastSent : Option QEvent := none
  deriving DecidableEq, Repr, Inhabited

/-- A command that other members answer: where it came from, and the members yet to answer (R353, R371). -/
structure Forwarded where
  origin : Origin
  waits  : List Nat
  value  : Nat := 0
  deriving DecidableEq, Repr, Inhabited

/-- The counter. `posted` holds each posted notice that is not delivered yet, with the queue pairs that it is not for
(R460). -/
structure Counter where
  forwarded : List Forwarded := []
  qps      : List QueuePair := []
  posted   : List (Notice × List Nat) := []
  ring     : List Notice := []
  ringHead : Nat := 0
  nseq     : BitVec 16 := 0
  link     : List Bool := [false, false, false, false]
  pfc      : List Bool := [false, false, false, false]
  paused   : List (Option Nat) := [none, none, none, none]
  stagedBytes : Nat := 0
  deriving DecidableEq, Repr, Inhabited

/-! ### Fabric and guild (R381–R410) -/

/-- One Lightway port (R386–R389), with the local times of the frames discarded in the last second and of those that failed authentication in
the last millisecond (R388). -/
structure Port where
  state   : Nat := 0
  reason  : Nat := 0
  peer    : Nat := 0
  peerPort : Nat := 0
  spared  : Bool := false
  peerSerial : BitVec 128 := 0
  keyTx   : List Byte := []
  keyRx   : List Byte := []
  counter : Nat := 0
  phase   : Bool := false
  discards : List Nat := []
  authFails : List Nat := []
  retryAt : Nat := 0
  deriving DecidableEq, Repr, Inhabited

/-- Message kinds on the fabric beyond the byte layouts of R396–R398 and R422 (R391, R404). -/
inductive FabMsg where
  | tokens (ptn : Nat) (ts : List Token)
  | command (elapsed : Nat) (c : Capsule) (data : List Byte)
  | reply (c : Capsule) (data : List Byte) (status value : Nat)
  | notice (n : Notice)
  | payload (kind ptn : Nat) (bytes : List Byte)
  | bulk (kind ptn : Nat) (bytes : List Byte)
  | prepare (epoch : Nat) (a : Agreement) (drainUs : Nat)
  | report (epoch : Nat) (r : Report)
  | commit (epoch : Nat) (a : Agreement)
  | abort (epoch : Nat) (a : Agreement)
  | drained (table edition : Nat)
  | release (epoch table edition : Nat)
  | join (charter quote : List Byte)
  | joinAnswer (a : JoinAnswer)
  | lost (epoch member cause : Nat) (routes : List (Nat × Word))
  | routes (epoch : Nat) (routes : List (Nat × Word))
  | probe
  | probeAnswer
  | drainDone
  | rebuildFor (member : Nat)
  | rebuildReady (member : Nat)
  | linkUp (port : Nat)
  | linkDown (port : Nat)
  | nack (coll chunk : Nat)
  | holdMsg (coll chunk : Nat)
  | lateMsg (coll member : Nat) (elastic : Bool)
  | reform (coll mask rfm : Nat)
  | collAbort (ptn grp seq cause detector member : Nat) (sigA sigB : Word)
  | rebuildPage (table edition page : Nat) (bytes : List Byte)
  deriving DecidableEq, Repr, Inhabited

/-- The sequenced flow to and from one member on one channel (R393): the packets sent, those kept in the retransmission
store, each with the local time at which it was sent (R52), and the highest sequence number received in order. -/
structure Flow where
  member : Nat
  vc     : Nat
  sent   : Nat := 0
  unacked : List (Nat × Nat × FabMsg) := []
  recv   : Nat := 0
  deriving DecidableEq, Repr, Inhabited

/-- The Lightway fabric of this member; `downAt` is when one of its ports last left UP (R407). -/
structure Fabric where
  ports   : List Port := List.replicate 32 {}
  through : BitVec 16 := 0xFFFF
  flows   : List Flow := []
  routes  : List (Nat × Word) := []
  charter : List Byte := []
  gcharter : List Byte := []
  breakSaid : List Nat := []
  downAt  : Nat := 0
  deriving DecidableEq, Repr, Inhabited

/-- The agreement this member has last taken PREPARE for (R94): what it has reported, and whether it is committed or
aborted. -/
structure MemberAgr where
  epoch    : Nat
  agr      : Agreement
  since    : Nat
  drainUs  : Nat
  reported : Option Bool := none
  done     : Option Bool := none
  deriving DecidableEq, Repr, Inhabited

/-- An agreement the warden runs or has queued (R96, R404). `phase` is 0 while reports come in, 1 once COMMIT has gone out,
2 while a new warden asks how it stands (R407); `taken` marks one taken over; `lost` that a member was lost before its
report; `changed` counts the groups that a GROUP agreement changes. -/
structure WardenAgr where
  agr     : Agreement
  epoch   : Nat := 0
  drainUs : Nat
  origin  : Nat
  capsule : Option Capsule := none
  phase   : Nat := 0
  ready   : List Nat := []
  refused : List (Nat × Nat) := []
  acked   : List Nat := []
  taken   : Bool := false
  lost    : Bool := false
  changed : Nat := 0
  deriving DecidableEq, Repr, Inhabited

/-- A page that a source of a rebuild is still to send: table, edition, the twin copy of the returning member, and the
shard page (R443). -/
structure RebuildMark where
  table   : Nat
  edition : Nat
  twin    : Bool
  page    : Nat
  deriving DecidableEq, Repr, Inhabited

/-- A source's part in the rebuild of a member: the pages that adds have changed since they were sent, and whether the
warden has been told that the first pass is over (R443). -/
structure RebuildSrc where
  member : Nat
  marks  : List RebuildMark
  told   : Bool := false
  deriving DecidableEq, Repr, Inhabited

/-- A member that the warden has rebuilt: its serial number and the sources still at it (R443). -/
structure RebuildFor where
  member : Nat
  serial : BitVec 128
  waits  : List Nat
  deriving DecidableEq, Repr, Inhabited

/-- The warden's LOST for a drained member, until every member has applied it (R442). -/
structure DrainLost where
  epoch  : Nat
  member : Nat
  waits  : List Nat
  deriving DecidableEq, Repr, Inhabited

/-- An agreement of the warden that the members are applying: those yet to acknowledge it, the charters that came with the
acknowledgements (R400), and the member that it declares lost (R406). -/
structure AckWait where
  epoch    : Nat
  waits    : List Nat
  charters : List (Nat × List Byte) := []
  lost     : Option Nat := none
  deriving DecidableEq, Repr, Inhabited

/-- Guild membership and agreements (R402–R407). `floor` is the least epoch that this member does not refuse (R405);
`oldWarden` is the warden that this member takes over from, and `resolved` what it then found of that warden's agreement
(R407); `rebuilding` are the members that the warden has sources send pages to, `rebuilds` the pages this member is still
to send as a source, `rebuildGot` how often each page has come to this member (R443); `probeAt` is when each member was probed (R406), `joinAt`
when this one last sent JOIN (R402), and `acks` the warden's agreements being applied (R400). -/
structure Guild where
  joined   : Word := 0
  warden   : Nat := 0
  quorum   : Bool := false
  epoch    : Nat := 0
  epochSeen : Nat := 0
  floor    : Nat := 0
  outcomes : List (Nat × Bool) := []
  serials  : List (Nat × BitVec 128) := []
  agr      : Option MemberAgr := none
  queue    : List WardenAgr := []
  current  : Option WardenAgr := none
  oldWarden : Option Nat := none
  resolved : List (Agreement × Bool) := []
  drainLost : List DrainLost := []
  downLinks : List (Nat × Nat) := []
  probing  : List Nat := []
  probeAt  : List (Nat × Nat) := []
  joinAt   : Nat := 0
  acks     : List AckWait := []
  drainedBy : List (Nat × Nat × Nat) := []
  answer   : Option JoinAnswer := none
  twinCopy : Bool := false
  lastTwin : Option Nat := none
  copied   : Nat := 0
  copyBack : Bool := false
  noQuorumSaid : Bool := false
  rebuilding : List RebuildFor := []
  rebuilds : List RebuildSrc := []
  rebuildGot : List (RebuildMark × Nat) := []
  rebuildAt : Nat := 0
  deriving DecidableEq, Repr, Inhabited

/-! ### Assay block, power and test ports -/

/-- A host session (R479). -/
structure Session where
  id      : Word
  role    : Byte
  key     : List Byte
  counter : Nat := 0
  signer  : List Byte := []
  deriving DecidableEq, Repr, Inhabited

/-- The assay block (R469–R492). `down` says that hall H0, which holds it, is out of service (R22). -/
structure Assay where
  hallmarks : List (List Byte) := List.replicate 16 (List.replicate 64 0)
  bootstep  : Nat := 0
  fail      : Nat := 0
  locked    : Bool := false
  tamper    : Bool := false
  zeroised  : Bool := false
  seedErased : Bool := false
  running   : Nat := 0
  signers   : List (List Byte) := []
  roles     : List (Byte × List Byte) := []
  sessions  : List Session := []
  pkgLen    : Nat := 0
  pkgFinal  : Bool := false
  drbg      : Nat := 0
  hashKey   : Nat := 0
  lastGo    : Nat := 0
  claim     : BitVec 16 := 0
  mbResult  : Nat := 0
  down      : Bool := false
  deriving DecidableEq, Repr, Inhabited

/-- Module states (R499). -/
inductive Mode where
  | off
  | boot
  | training
  | quarantine
  | joined
  | draining
  | faulted
  deriving DecidableEq, Repr, Inhabited

/-- Power, thermal control, pins, sideband and TAP (R493–R515). `capLow` is the time of the last step of the power cap, `tapIr` the
TAP instruction: 0 BYPASS, 1 IDCODE, 2 SAMPLE/PRELOAD, 3 EXTEST, 4 STACK1500. -/
structure Power where
  input    : Bool := false
  pwrgd    : Bool := false
  rstLow   : Bool := true
  mode     : Mode := .off
  rstCause : Nat := 0
  vin      : Nat := 0
  iin      : Nat := 0
  pin_     : Nat := 0
  extended : Bool := false
  capStep  : Nat := 0
  capLow   : Option Nat := none
  drainAt  : Option Nat := none
  drainCopy : Bool := false
  dynAddr  : Option (BitVec 7) := none
  setup    : Option (Nat × Nat) := none
  sbStatus : Nat := 0
  tapIr    : Nat := 1
  cells    : BitVec 120 := 0
  memoryUp : Bool := false
  deriving DecidableEq, Repr, Inhabited

/-- An access of the channel path (R305, R309): the master that makes it, the hall it comes from, and how a sector of it reads back
(R318). -/
structure ChanAcc where
  master  : Nat
  hall    : Nat
  ptn     : Nat
  ra      : Nat
  len     : Nat
  hint    : Nat
  kind    : AccessKind
  outcome : SectorOutcome
  deriving DecidableEq, Repr, Inhabited

/-- What the module sends outward: on queue pairs, on Lightway, on the sideband and TAP, to the network. -/
inductive Out where
  | entry (qp : Nat) (at_ : Option Nat) (e : QEvent)
  | rdmaWrite (qp : Nat) (addr rkey : Nat) (bytes : List Byte)
  | rdmaRead (qp : Nat) (addr rkey len : Nat)
  | readReply (qp : Nat) (bytes : List Byte)
  | nak (qp : Nat) (code : Nat)
  | rep (qp : Nat) (master member : Nat) (keys : List (BitVec 32))
  | rej (port reason : Nat)
  | cnp (qp : Nat)
  | fab (dst vc pseq : Nat) (route : Word) (m : FabMsg)
  | ack (dst vc pseq : Nat)
  | transit (dir : Nat) (h : PacketHeader) (payload : List Byte)
  | e2e (dst vc pseq : Nat)
  | levelC (qp : Nat) (coll chunk guildPos : Nat) (sums : List (BitVec 32))
  | ibi (b : Nat)
  | sideband (status : Nat) (words : List Word)
  | tap (bits : Nat) (v : Nat)
  | arp (port : Nat) (mac : Nat)
  | neighbour (port : Nat) (mac : Nat)
  | regRead (v : Word)
  deriving DecidableEq, Repr, Inhabited

/-- The whole module: everything but the queue of waiting commands. -/
structure Module where
  pwr     : Power := {}
  ltime   : Nat := 0
  regs    : WordMap := []
  mem     : Memory := []
  asy     : Assay := {}
  fab     : Fabric := {}
  guild   : Guild := {}
  ctr     : Counter := {}
  ptns    : List Partition := List.replicate 8 {}
  halls   : List Hall := List.replicate 4 {}
  benches : List Bench := (List.range 256).map fun n => { phys := n % 64 }
  querns  : List Quern := List.replicate 20 {}
  rwk     : Ropewalk := {}
  tables  : List Table := []
  xlat    : List XlatLine := []
  heldAcc : List ChanAcc := []
  tileBad : List Nat := []
  insts   : List Inst := []
  tokens  : List Flight := []
  gathers : List GatherSt := []
  scatters : List ScatterSt := []
  samples : List SampleSt := []
  chains  : List ChainSt := []
  hubs    : List HubSt := []
  groups  : List GroupSt := []
  nextInst : Nat := 0
  instLog : List (Nat × Nat) := []
  nextSerial : Nat := 0
  nextBuf : Nat := 0
  nextHandle : Nat := 0
  stamp   : Nat := 0
  free    : Nat := 0
  sent    : List Out := []
  deriving DecidableEq, Repr, Inhabited

/-- The machine's state: the module and the commands that wait, first in, first out. -/
structure State where
  m       : Module
  pending : List Instr
  deriving DecidableEq, Repr

/-- Why a step faults. No rule of the spec stops the block: every error has an answer that the machine goes on from.
This reason is raised by no command. -/
inductive Fault where
  /-- Raised by nobody; safe. -/
  | none
  deriving DecidableEq, Repr

/-- Why a step gives no meaning. -/
inductive Refusal where
  /-- Raised by a row that has no meaning yet; safe. -/
  | notModelled (mnemonic : String)
  deriving DecidableEq, Repr

/-- The module right after power-on reset: OFF, nothing powered, every register at its reset value (R10, R502). -/
def State.reset : State := { m := {}, pending := [] }

end Sys2Proof.Machine
end

