-- ==== Sys2Proof/Machine/Ops.lean ====
section
/-! DEFINITION. The named operations over the module's memory, registers, units, notices and logs. Every meaning is
written over these. -/
namespace Sys2Proof.Machine

/-- Run a total effect on the module; the queue stands. -/
def State.on (s : State) (f : Module → Module) : Host.Outcome State Fault Refusal := .next { s with m := f s.m }

/-! ### Lists -/

/-- Set the element that a test finds, in place. -/
def updWhere {α : Type} (p : α → Bool) (f : α → α) (l : List α) : List α := l.map fun x => if p x then f x else x

/-- Replace the value filed under a key, or file it at the end. -/
def assocSet {β : Type} (k : Nat) (v : β) : List (Nat × β) → List (Nat × β)
  | [] => [(k, v)]
  | (k', v') :: t => if k' = k then (k, v) :: t else (k', v') :: assocSet k v t

/-- The value filed under a key. -/
def assocGet {β : Type} (k : Nat) (l : List (Nat × β)) : Option β := (l.find? fun c => c.1 == k).map (·.2)

/-- The bytes of a list from `off`, `n` of them; bytes beyond the list read as zero. -/
def slice (bs : List Byte) (off n : Nat) : List Byte :=
  let t := (bs.drop off).take n
  t ++ List.replicate (n - t.length) 0

/-- A little-endian field of a byte string (R3). -/
def fieldAt (bs : List Byte) (off n : Nat) : Nat := leNat (slice bs off n)

/-- The number of set bits below bit `n`. -/
def popcount (n v : Nat) : Nat := (List.range n).countP fun i => v.testBit i

/-- The set bits below bit `n`, rising. -/
def bitsSet (n v : Nat) : List Nat := (List.range n).filter fun i => v.testBit i

/-- A number with bit `i` set. -/
def setBit (v i : Nat) : Nat := v ||| 2 ^ i

/-- A number with bit `i` clear. -/
def clearBit (v i : Nat) : Nat := if v.testBit i then v - 2 ^ i else v

/-! ### Sparse maps in canonical form -/

/-- The value under a key: the default where the map lists none. -/
def sparseGet {β : Type} (d : Nat → β) : List (Nat × β) → Nat → β
  | [], k => d k
  | (k', v) :: t, k => if k' = k then v else sparseGet d t k

/-- Write a value under a key, keeping the keys rising and listing no default. -/
def sparsePut {β : Type} [DecidableEq β] (d : Nat → β) : List (Nat × β) → Nat → β → List (Nat × β)
  | [], k, v => if v = d k then [] else [(k, v)]
  | (k', v') :: t, k, v =>
    if k < k' then (if v = d k then (k', v') :: t else (k, v) :: (k', v') :: t)
    else if k = k' then (if v = d k then t else (k, v) :: t)
    else (k', v') :: sparsePut d t k v

/-- Canonical form: keys strictly rising, no entry at its default. -/
abbrev SparseWf {β : Type} [DecidableEq β] (d : Nat → β) (l : List (Nat × β)) : Prop :=
  (l.map Prod.fst).Pairwise (· < ·) ∧ ∀ c ∈ l, c.2 ≠ d c.1

/-! ### Memory: one byte space for DRAM, tile SRAM and buffers (log entry 3, DESIGN CHOICE) -/

/-- What an unlisted byte reads as (log entry 4, DESIGN CHOICE). -/
def memDefault (_ : Nat) : Byte := 0

/-- The canonical form of memory. -/
abbrev Memory.wf (mem : Memory) : Prop := SparseWf memDefault mem

/-- Read one byte. -/
def Memory.read (mem : Memory) (k : Nat) : Byte := sparseGet memDefault mem k

/-- Write one byte. -/
def Memory.write (mem : Memory) (k : Nat) (b : Byte) : Memory := sparsePut memDefault mem k b

/-- Read `n` bytes from a key upward. -/
def Memory.readN (mem : Memory) (k n : Nat) : List Byte := (List.range n).map fun i => mem.read (k + i)

/-- Write a byte string from a key upward. -/
def Memory.writeN : Memory → Nat → List Byte → Memory
  | mem, _, [] => mem
  | mem, k, b :: bs => Memory.writeN (mem.write k b) (k + 1) bs

/-- Make every byte of `[lo, hi)` read as zero. -/
def Memory.zero (mem : Memory) (lo hi : Nat) : Memory := mem.filter fun c => decide (c.1 < lo ∨ hi ≤ c.1)

/-- Copy `n` bytes from `src` to `dst`. -/
def Memory.copy (mem : Memory) (src dst n : Nat) : Memory :=
  (mem.filter fun c => decide (src ≤ c.1 ∧ c.1 < src + n)).foldl
    (fun acc c => acc.write (c.1 - src + dst) c.2) (mem.zero dst (dst + n))

/-- Read a little-endian number of `n` bytes. -/
def Memory.num (mem : Memory) (k n : Nat) : Nat := leNat (mem.readN k n)

/-- The module with one byte string stored. -/
def Module.store (m : Module) (k : Nat) (bs : List Byte) : Module := { m with mem := m.mem.writeN k bs }

/-- The slot of a device-wide bench in the tile SRAM window (R516). -/
def tileBase (bench : Nat) : Nat := 0x18000000000 + bench * 0x800000

/-- The bytes of one region allocation, apart from every other allocation (log entry 3, DESIGN CHOICE). -/
def regionKey (serial off : Nat) : Nat := 2 ^ 50 + serial * 2 ^ 41 + off

/-- The bytes of one INPUT or OUTPUT buffer (log entry 3, DESIGN CHOICE). -/
def bufKey (buf off : Nat) : Nat := 2 ^ 100 + buf * 2 ^ 32 + off

/-- The bytes of the mailbox area of one queue pair (log entry 3, DESIGN CHOICE). -/
def mboxKey (qp off : Nat) : Nat := 2 ^ 90 + qp * 2 ^ 40 + off

/-! ### Register addresses (R519) -/

def chipR (off : Nat) : Nat := 0x1FF00000000 + off
def asyR (off : Nat) : Nat := 0x1FF00010000 + off
def ctrR (off : Nat) : Nat := 0x1FF00100000 + off
def fabR (off : Nat) : Nat := 0x1FF00200000 + off
def rwkR (off : Nat) : Nat := 0x1FF00300000 + off
def halR (h off : Nat) : Nat := 0x1FF01000000 + h * 0x1000000 + off
/-- A register of the bench with a device-wide number (R520). -/
def bchR (b off : Nat) : Nat := 0x1FF01000000 + (b / 64) * 0x1000000 + 0x800000 + (b % 64) * 0x10000 + off
def qrnR (s off : Nat) : Nat := 0x1FF08000000 + s * 0x100000 + off
def ptnR (p off : Nat) : Nat := 0x1FF0E000000 + p * 0x100 + off
def poolR (off : Nat) : Nat := 0x1FF0E000000 + off
def pwrR (off : Nat) : Nat := 0x1FF0F000000 + off

/-- Which block, unit and offset a local address of register space names; none between blocks (R519). -/
def regLocate (a : Nat) : Option (Block × Nat × Nat) :=
  if 0x1FF00000000 ≤ a ∧ a < 0x1FF00001000 then some (.chip, 0, a - 0x1FF00000000)
  else if 0x1FF00010000 ≤ a ∧ a < 0x1FF00013000 then some (.asy, 0, a - 0x1FF00010000)
  else if 0x1FF00100000 ≤ a ∧ a < 0x1FF00101000 then some (.ctr, 0, a - 0x1FF00100000)
  else if 0x1FF00200000 ≤ a ∧ a < 0x1FF00201000 then some (.fab, 0, a - 0x1FF00200000)
  else if 0x1FF00300000 ≤ a ∧ a < 0x1FF00301000 then some (.rwk, 0, a - 0x1FF00300000)
  else if 0x1FF01000000 ≤ a ∧ a < 0x1FF05000000 then
    let h := (a - 0x1FF01000000) / 0x1000000
    let o := (a - 0x1FF01000000) % 0x1000000
    if o < 0x1000 then some (.hal, h, o)
    else if 0x800000 ≤ o ∧ o < 0xC00000 ∧ o % 0x10000 < 0x1000 then
      some (.bch, h * 64 + (o - 0x800000) / 0x10000, o % 0x10000)
    else none
  else if 0x1FF08000000 ≤ a ∧ a < 0x1FF09400000 ∧ (a - 0x1FF08000000) % 0x100000 < 0x1000 then
    some (.qrn, (a - 0x1FF08000000) / 0x100000, (a - 0x1FF08000000) % 0x100000)
  else if 0x1FF0E000000 ≤ a ∧ a < 0x1FF0E001000 then
    let o := a - 0x1FF0E000000
    if o < 0x800 then some (.ptng, o / 0x100, o % 0x100) else some (.ptn, 0, o)
  else if 0x1FF0F000000 ≤ a ∧ a < 0x1FF0F001000 then some (.pwr, 0, a - 0x1FF0F000000)
  else none

/-- The reset value of the register at a local address (R10 and the register tables). -/
def regDefault (a : Nat) : Word :=
  match regLocate a with
  | some (b, _, off) => BitVec.ofNat 64 (regRow b off).reset
  | none => 0

/-- The stored word of the register at a local address. -/
def Module.reg (m : Module) (a : Nat) : Word := sparseGet regDefault m.regs a

/-- Store a register word. -/
def Module.setReg (m : Module) (a : Nat) (w : Word) : Module := { m with regs := sparsePut regDefault m.regs a w }

/-- A word with bits `[lo + w - 1 : lo]` replaced. -/
def putBits (x : Word) (lo w v : Nat) : Word :=
  BitVec.ofNat 64 (x.toNat - bitsOf x.toNat lo w * 2 ^ lo + (v % 2 ^ w) * 2 ^ lo)

/-- A field of a stored register. -/
def Module.fld (m : Module) (a lo w : Nat) : Nat := bitsOf (m.reg a).toNat lo w

/-- Set a field of a stored register. -/
def Module.setFld (m : Module) (a lo w v : Nat) : Module := m.setReg a (putBits (m.reg a) lo w v)

/-- Add to a counter field, which saturates at all ones. -/
def Module.count (m : Module) (a lo w : Nat) (n : Nat := 1) : Module :=
  m.setFld a lo w (min (m.fld a lo w + n) (2 ^ w - 1))

/-! ### Units -/

def Module.hall (m : Module) (h : Nat) : Hall := m.halls.getD h {}
def Module.setHall (m : Module) (h : Nat) (f : Hall → Hall) : Module := { m with halls := m.halls.modify h f }
def Module.bench (m : Module) (b : Nat) : Bench := m.benches.getD b {}
def Module.setBench (m : Module) (b : Nat) (f : Bench → Bench) : Module := { m with benches := m.benches.modify b f }
def Module.quern (m : Module) (q : Nat) : Quern := m.querns.getD q {}
def Module.setQuern (m : Module) (q : Nat) (f : Quern → Quern) : Module := { m with querns := m.querns.modify q f }
def Module.ptn (m : Module) (p : Nat) : Partition := m.ptns.getD p {}
def Module.setPtn (m : Module) (p : Nat) (f : Partition → Partition) : Module := { m with ptns := m.ptns.modify p f }
def Module.setCtr (m : Module) (f : Counter → Counter) : Module := { m with ctr := f m.ctr }
def Module.setAsy (m : Module) (f : Assay → Assay) : Module := { m with asy := f m.asy }
def Module.setGuild (m : Module) (f : Guild → Guild) : Module := { m with guild := f m.guild }
def Module.setFab (m : Module) (f : Fabric → Fabric) : Module := { m with fab := f m.fab }
def Module.setPwr (m : Module) (f : Power → Power) : Module := { m with pwr := f m.pwr }
def Module.setRwk (m : Module) (f : Ropewalk → Ropewalk) : Module := { m with rwk := f m.rwk }
def Module.port (m : Module) (p : Nat) : Port := m.fab.ports.getD p {}
def Module.setPort (m : Module) (p : Nat) (f : Port → Port) : Module :=
  m.setFab fun x => { x with ports := x.ports.modify p f }

/-- The draft in force of a partition, the empty one where none is. -/
def Module.draft (m : Module) (p : Nat) : Draft := (m.ptn p).draft.getD {}

/-- A loaded graph of a partition by model handle. -/
def Module.graph (m : Module) (p handle : Nat) : Option Graph := (m.ptn p).graphs.find? fun g => g.handle == handle

/-- A loaded graph that commands may name: not one unloaded while instances of it live (log entry 28, DEDUCED). -/
def Module.loaded (m : Module) (p handle : Nat) : Option Graph :=
  (m.graph p handle).filter fun g => !(m.ptn p).unloaded.contains g.handle

/-- A live instance by number. -/
def Module.inst (m : Module) (i : BitVec 32) : Option Inst := m.insts.find? fun x => x.num == i
def Module.setInst (m : Module) (i : BitVec 32) (f : Inst → Inst) : Module :=
  { m with insts := updWhere (fun x => x.num == i) f m.insts }

/-- The hall that holds a match entry, and the entry. -/
def Module.entry (m : Module) (k : FKey) : Option MatchEntry :=
  (m.halls.flatMap (·.entries)).find? fun e => e.key == k
def Module.setEntry (m : Module) (k : FKey) (f : MatchEntry → MatchEntry) : Module :=
  { m with halls := m.halls.map fun h => { h with entries := updWhere (fun e => e.key == k) f h.entries } }

/-- A queue pair by number. -/
def Module.qp (m : Module) (n : Nat) : Option QueuePair := m.ctr.qps.find? fun q => q.num == n
def Module.setQp (m : Module) (n : Nat) (f : QueuePair → QueuePair) : Module :=
  m.setCtr fun c => { c with qps := updWhere (fun q => q.num == n) f c.qps }

/-- The node descriptor of a firing, with its instance and graph. -/
def Module.nodeOf (m : Module) (k : FKey) : Option (Inst × Graph × Node) := do
  let i ← m.inst k.inst
  let g ← m.graph i.ptn i.handle
  let n ← g.nodes[k.node.toNat]?
  some (i, g, n)

/-- This member's number (R382). -/
def Module.member (m : Module) : Nat := m.fld (fabR 0x000) 0 6

/-- The number of members of the guild: the product of the extents (R382). -/
def Module.guildSize (m : Module) : Nat :=
  (m.fld (fabR 0x000) 6 2 + 1) * (m.fld (fabR 0x000) 8 2 + 1) * (m.fld (fabR 0x000) 10 2 + 1)

/-- The members JOINED, as this member has applied them (R402). -/
def Module.joinedList (m : Module) : List Nat := bitsSet 64 m.guild.joined.toNat

def Module.isJoined (m : Module) (k : Nat) : Bool := m.guild.joined.toNat.testBit k

/-- This member is the warden (R402). -/
def Module.isWarden (m : Module) : Bool := decide (m.guild.warden = m.member)

/-! ### Free values and time -/

/-- The next stream of free values (log entry 1, DESIGN CHOICE). -/
def Module.draw (m : Module) : (Nat → Nat) × Module := (Config.choice m.free, { m with free := m.free + 1 })

/-- A free pick among `n` things. -/
def Module.pick (m : Module) (n : Nat) : Nat × Module := (Config.choice m.free 0 % n, { m with free := m.free + 1 })

/-- One number for two, injectively: sub-streams of a stream of free values. -/
def pair (a b : Nat) : Nat := (a + b) * (a + b + 1) / 2 + b

/-- The sub-stream `a` of a stream. -/
def sub (s : Nat → Nat) (a : Nat) : Nat → Nat := fun i => s (pair a i)

/-- The list in the order that a stream of codes picks: the first code picks the first element among all, the next
among the rest. Every order is the pick of some codes. -/
def permute {α : Type} (codes : Nat → Nat) (l : List α) : List α :=
  go codes l.length l
where
  go (codes : Nat → Nat) : Nat → List α → List α
    | 0, l => l
    | n + 1, l =>
      match l[codes n % l.length]? with
      | some x => x :: go codes n (l.eraseIdx (codes n % l.length))
      | none => l

/-- Move local time on to a due time, never back (R31, log entry 2, DESIGN CHOICE). -/
def Module.until_ (m : Module) (t : Nat) : Module := { m with ltime := max m.ltime t }

/-- Send something outward. -/
def Module.send (m : Module) (o : Out) : Module := { m with sent := m.sent ++ [o] }

/-- The sequenced flow to a member on a channel (R393). -/
def Module.flow (m : Module) (k vc : Nat) : Flow :=
  (m.fab.flows.find? fun f => f.member == k && f.vc == vc).getD { member := k, vc := vc }

def Module.setFlow (m : Module) (f : Flow) : Module :=
  m.setFab fun x => { x with flows := (x.flows.filter fun y => !(y.member == f.member && y.vc == f.vc)) ++ [f] }

/-- Send a packet to a member on a channel (R390, R393): it takes the next sequence number, carries the route in force,
and stays in the retransmission store. What goes to this member itself needs neither (log entry 20, DESIGN CHOICE). -/
def Module.packet (m : Module) (dst vc : Nat) (x : FabMsg) : Module :=
  if dst = m.member then m.send (.fab dst vc 0 0 x)
  else
    let f := m.flow dst vc
    let n := f.sent + 1
    (m.setFlow { f with sent := n, unacked := f.unacked ++ [(n, m.ltime, x)] }).send
      (.fab dst vc n ((assocGet dst m.fab.routes).getD 0) x)

/-- Send a message to a JOINED member; what is for a removed member is discarded at its source (R393), and a message to
this member itself is not sent. -/
def Module.sendTo (m : Module) (dst vc : Nat) (x : FabMsg) : Module :=
  if dst = m.member || !m.isJoined dst then m else m.packet dst vc x

/-- Send a message to every member of a list but this one. -/
def Module.sendAll (m : Module) (dsts : List Nat) (vc : Nat) (x : FabMsg) : Module :=
  dsts.foldl (fun acc d => acc.sendTo d vc x) m

/-! ### Notices and event logs -/

/-- The severity of a notice code (R463, R514). -/
def sevOf (code : Nat) : Nat :=
  match code / 256 with
  | 0x01 => if code = 0x0104 then 1 else 2
  | 0x02 => if code = 0x0204 ∨ code = 0x0208 then 3 else if code = 0x020B then 1 else 2
  | 0x03 => if code = 0x0305 then 1 else 2
  | 0x04 => if code = 0x0404 then 1 else 2
  | 0x05 => if code = 0x0503 then 2 else 1
  | 0x06 => 3
  | 0x07 => if code = 0x0703 ∨ code = 0x0706 then 3 else if code = 0x0702 ∨ code = 0x0705 then 1 else 2
  | 0x08 => if 0x0805 ≤ code then 2 else 1
  | 0x09 => if code = 0x0903 then 1 else if 0x0906 ≤ code then 3 else 2
  | _ => 2

/-- Post a notice with a given severity (R462), not for some queue pairs (R460): it takes the next NSEQ and waits for
delivery. A THERMAL notice also raises an in-band interrupt (R505). -/
def Module.postBut (m : Module) (but : List Nat) (sev code : Nat) (ptn : Option Nat) (obj : Nat) (detail : List Byte) : Module :=
  let n : Notice := { sev := sev, code := code, member := m.member, ptn := ptn, nseq := m.ctr.nseq, obj := obj,
                      ltime := m.ltime, detail := slice detail 0 40 }
  let m := m.setCtr fun c => { c with posted := c.posted ++ [(n, but)], nseq := c.nseq + 1 }
  if code / 256 = 0x07 then m.send (.ibi 0x02) else m

/-- Post a notice with the severity of its code. -/
def Module.post (m : Module) (code : Nat) (ptn : Option Nat) (obj : Nat) (detail : List Byte) : Module :=
  m.postBut [] (sevOf code) code ptn obj detail

/-- The PTN byte of notices and log entries: bit 7 where no partition applies (R446, R462). -/
def ptnByte : Option Nat → Nat
  | some p => p % 8
  | none => 0x80

/-- Enter a DEGRADE event in the event log of a hall: a ring of 64 entries (R446, R447). -/
def Module.logEvent (m : Module) (h : Nat) (e : LogEntry) : Module :=
  let hs := m.hall h
  let full := decide (64 ≤ hs.elog.length)
  let m := if full then m.count (halR h 0x320) 32 32 else m
  m.setHall h fun x =>
    { x with elog := if full then x.elog.set x.elogHead e else x.elog ++ [e], elogHead := (x.elogHead + 1) % 64 }

/-- Post a DEGRADE notice and enter it in the log of the hall that owns the unit (R445). -/
def Module.degrade (m : Module) (h unit code : Nat) (ptn : Option Nat) (obj addr : Nat) (detail : List Byte) : Module :=
  (m.logEvent h { code := code, unit := unit, ptn := ptnByte ptn, ltime := m.ltime, addr := addr,
                  detail := slice detail 0 8 }).post code ptn obj detail

/-- Post a DEGRADE notice that names no unit of a hall, entered in the log of hall H0 (log entry 30, DESIGN CHOICE). -/
def Module.degradeAll (m : Module) (code : Nat) (ptn : Option Nat) (obj : Nat) (detail : List Byte) : Module :=
  m.degrade 0 0xFF code ptn obj 0 detail

/-! ### Clocks (R511, R512) -/

/-- The bench island clock, in MHz, that a step of the power cap allows (R512). -/
def capClock (step : Nat) : Nat := [1250, 1000, 750, 500, 250].getD step 250

/-- The bench island clock of a hall: the lowest that heat and the power cap set (R512). -/
def Module.hallClock (m : Module) (h : Nat) : Nat := min (m.hall h).clock (capClock m.pwr.capStep)

/-- A bench whose clock is stopped: for heat, or while it is spared (R438, R511). -/
def Module.benchStopped (m : Module) (b : Nat) : Bool :=
  m.hallClock (b / 64) == 0 || (m.hall (b / 64)).copying.any fun c => c.1 == b

/-- A pool address of this member (R100). -/
def Module.poolAddr (m : Module) (la : Nat) : Nat := m.member * 2 ^ 41 + la % 2 ^ 41

end Sys2Proof.Machine
end

