-- ==== Sys2Proof/Machine/Access.lean ====
section
/-! DEFINITION. Access tables (R486–R490), page placement (R115), residency (R110) and region translation (R104, R106). -/
namespace Sys2Proof.Machine

/-! ### Masters (R486) -/

def benchMaster (b : Nat) : Nat := b
def quernMaster (s : Nat) : Nat := 0x100 + s
def streamMaster (h : Nat) : Nat := 0x120 + h
def ropewalkMaster : Nat := 0x130
def assayMaster : Nat := 0x140
def mgmtMaster : Nat := 0x141
/-- The master of a counter queue pair (R454). -/
def queueMaster (ptn aclass : Nat) : Nat := 0x200 + 128 * ptn + aclass
/-- The master of a remote member (R486). -/
def remoteMaster (member ptn : Nat) : Nat := 0x800 + member * 8 + ptn

def isCounterQueue (M : Nat) : Bool := decide (0x200 ≤ M ∧ M ≤ 0x5FF)

/-- Status codes of R15. -/
abbrev stOk : Nat := 0x00
abbrev stFlagged : Nat := 0x01
abbrev stFaultAddress : Nat := 0x10
abbrev stFaultPattern : Nat := 0x11
abbrev stFaultOob : Nat := 0x12
abbrev stFaultAccess : Nat := 0x13
abbrev stAborted : Nat := 0x20
abbrev stPageHalt : Nat := 0x21
abbrev stLate : Nat := 0x22

/-- A status under which a result exists (R15). -/
def resultValid (s : Nat) : Bool := s == stOk || s == stFlagged || s == stLate

/-! ### Access tables (R487–R489) -/

/-- Target classes of R487. -/
abbrev tcRegion : Nat := 1
abbrev tcQuern : Nat := 2
abbrev tcQueue : Nat := 3
abbrev tcRopewalk : Nat := 4
abbrev tcRegblock : Nat := 5
abbrev tcAssay : Nat := 6

/-- Permission bits of R488. -/
abbrev permRead : Nat := 1
abbrev permWrite : Nat := 2
abbrev permAtomic : Nat := 4
abbrev permConfigure : Nat := 8

/-- Every permission that a class defines: what its fixed entry grants (R487, log entry 12, DEDUCED). -/
def classPerms : Nat → Nat
  | 1 => 7
  | 2 => 13
  | 3 => 3
  | 4 => 10
  | 5 => 11
  | 6 => 3
  | _ => 0

/-- One access table entry (R488). -/
structure AEntry where
  first   : Nat
  last    : Nat
  perm    : Nat
  ptn     : Nat
  members : Bool
  fixed   : Bool
  deriving DecidableEq, Repr, Inhabited

/-- The fixed entry of a class (R487). -/
def fixedEntry (tclass : Nat) : AEntry :=
  { first := 0x140, last := 0x141, perm := classPerms tclass, ptn := 0, members := false, fixed := true }

/-- The entry that an ACCESS record becomes (R488). -/
def entryOf (p : Nat) (r : AccessRec) : AEntry :=
  { first := r.mfirst, last := r.mlast, perm := r.perm, ptn := p, members := r.mkind == 1, fixed := false }

/-- A record names a target. -/
def AccessRec.names (r : AccessRec) (tclass target : Nat) : Bool :=
  r.tclass == tclass && decide (r.tfirst ≤ target ∧ target < r.tfirst + r.tcount)

/-- The table of a target: the fixed entry, then the drafts' entries by partition and record (log entry 13, DESIGN CHOICE). -/
def Module.accessTable (m : Module) (tclass target : Nat) : List AEntry :=
  fixedEntry tclass :: (List.range 8).flatMap fun p =>
    ((m.draft p).access.filter (·.names tclass target)).map (entryOf p)

/-- An entry covers a master (R488). -/
def AEntry.covers (e : AEntry) (M : Nat) : Bool :=
  if e.members then
    decide (0x800 ≤ M ∧ M ≤ 0xBFF ∧ (M - 0x800) % 8 = e.ptn ∧ e.first ≤ (M - 0x800) / 8 ∧ (M - 0x800) / 8 ≤ e.last)
  else decide (e.first ≤ M ∧ M ≤ e.last)

/-- The entry in the 64-bit layout of R488. -/
def AEntry.word (e : AEntry) : Nat :=
  e.first + e.last * 2 ^ 12 + e.perm * 2 ^ 24 + e.ptn * 2 ^ 28 + e.members.toNat * 2 ^ 31 + e.fixed.toNat * 2 ^ 32 + 2 ^ 63

/-- An access is allowed when some entry covers the master with the permission; on REGION and QUEUE targets only the
fixed entry and the owning partition's entries count (R489). -/
def Module.allowed (m : Module) (tclass target owner M perm : Nat) : Bool :=
  (m.accessTable tclass target).any fun e =>
    e.covers M && (e.perm &&& perm) == perm &&
      (e.fixed || (tclass != tcRegion && tclass != tcQueue) || e.ptn == owner)

/-- Record a denial (R489): the counter, the first record, and a notice at most once in 100 ms per partition. -/
def Module.deny (m : Module) (p M tclass target perm : Nat) : Module :=
  let m := m.count (asyR 0x028) 0 32
  let m := if m.fld (asyR 0x030) 63 1 = 1 then m
    else m.setReg (asyR 0x030)
      (BitVec.ofNat 64 (M % 4096 + tclass % 16 * 2 ^ 12 + target % 1024 * 2 ^ 16 + perm % 16 * 2 ^ 26 + 2 ^ 63))
  let m := m.setPtn p fun x => { x with denied := x.denied + 1 }
  let due := match (m.ptn p).lastDeny with
    | none => true
    | some t => decide (t + 100000000 ≤ m.ltime)
  if due then
    let m' := m.post 0x0603 (some p) 0
      (leBytes 2 M ++ leBytes 1 tclass ++ leBytes 2 target ++ leBytes 1 perm ++ leBytes 4 (m.ptn p).denied)
    m'.setPtn p fun x => { x with denied := 0, lastDeny := some m.ltime }
  else m

/-! ### Pages (R115, R119) -/

/-- The placement order σ over the stacks. -/
def sigma (j : Nat) : Nat := 5 * (j % 4) + j / 4

/-- The stack of page `k` under a placement MODE and WHERE, with a region number or table ID (R115, R119). -/
def placeStack (mode wh num k : Nat) : Nat :=
  match mode with
  | 0 => sigma ((k + num) % 20)
  | 1 => 5 * wh + (k + num) % 5
  | _ => wh

def RegionRec.shift (r : RegionRec) : Nat := if r.page = 0 then 21 else 16
def RegionRec.pages (r : RegionRec) : Nat := r.size / 2 ^ r.shift
def RegionRec.stackOf (r : RegionRec) (k : Nat) : Nat := placeStack r.mode r.wh r.rgn k

/-- How many of the pages 0 … n − 1 are congruent to `r` modulo `c`. -/
def countCong (n c r : Nat) : Nat := (n + c - 1 - r) / c

/-- Pages of a region on a stack (R115). -/
def RegionRec.pagesOn (r : RegionRec) (s : Nat) : Nat :=
  match r.mode with
  | 0 =>
    let j := 4 * (s % 5) + s / 5
    countCong r.pages 20 ((j + 20 - r.rgn % 20) % 20)
  | 1 => if s / 5 = r.wh then countCong r.pages 5 ((s % 5 + 5 - r.rgn % 5) % 5) else 0
  | _ => if s = r.wh then r.pages else 0

/-- Frames of 2 MiB that a region holds on a stack (R109). -/
def RegionRec.framesOn (r : RegionRec) (s : Nat) : Nat :=
  if r.page = 0 then r.pagesOn s else ceilDiv (r.pagesOn s) 32

def RegionRec.frames (r : RegionRec) : Nat := ((List.range 20).map r.framesOn).sum

/-- Allocatable frames of a stack: 64 GiB, less the carve-out of R103. -/
def stackFrames (s : Nat) : Nat := if s % 5 = 4 then 32256 else 32768

/-- The regions that hold frames: in force, staged, and of an image not yet staged guild-wide (R85). -/
def Module.allRegions (m : Module) : List RegionSt :=
  m.ptns.flatMap fun p => p.regions ++ p.stagedRegions ++ p.candRegions

/-- Frames of a stack that no region holds; none on a withdrawn stack (R125, R441). -/
def Module.freeFrames (m : Module) (s : Nat) : Nat :=
  if (m.quern s).withdrawn then 0
  else stackFrames s - (m.allRegions.map fun g => g.info.framesOn s).sum

/-- The region of a partition that holds a region address. -/
def Module.regionAt (m : Module) (p ra : Nat) : Option RegionSt :=
  (m.ptn p).regions.find? fun g => decide (g.info.base ≤ ra ∧ ra < g.info.base + g.info.size)

def Module.regionNo (m : Module) (p n : Nat) : Option RegionSt := (m.ptn p).regions.find? fun g => g.info.rgn == n

/-- The region holds table pages (R107, TABLE). -/
def Module.isTableRegion (m : Module) (p n : Nat) : Bool := (m.draft p).placements.any fun t => t.rgn == n

/-- Residency of page `k` of a region (R110): LOST once its stack is withdrawn (R441, R114), else as recorded, else as
activation left it. -/
def Module.residency (m : Module) (g : RegionSt) (k : Nat) : Residency :=
  if (m.quern (g.info.stackOf k)).withdrawn then .lost
  else (assocGet k g.resid).getD (if g.info.flags % 2 = 1 then .evicted else .present)

/-- Which of the pages of a region on its stack page `k` is (R115). -/
def RegionRec.rankOn (r : RegionRec) (k : Nat) : Nat :=
  match r.mode with
  | 0 => k / 20
  | 1 => k / 5
  | _ => k

/-- Pages that one 2 MiB frame holds (R109). -/
def RegionRec.perFrame (r : RegionRec) : Nat := 2 ^ (21 - r.shift)

/-- Frame `j` of a list of runs. -/
def frameOf : List (Nat × Nat) → Nat → Nat
  | [], _ => 0
  | (a, n) :: t, j => if j < n then a + j else frameOf t (j - n)

/-- The local address of page `k` of a region: its stack's base, the frame that the module chose, outside the carve-out, and its
place among the 64 KiB pages carved from that frame (R102, R103, R109, R115). -/
def RegionSt.pageAddr (g : RegionSt) (k : Nat) : Nat :=
  let s := g.info.stackOf k
  let j := g.info.rankOn k
  s * 2 ^ 36 + frameOf (g.frames.getD s []) (j / g.info.perFrame) % stackFrames s * 2 ^ 21 + j % g.info.perFrame * 2 ^ g.info.shift

/-- The gaps between rising runs of frames below `top`, from frame `lo` upward. -/
def gapsOf (top : Nat) : Nat → List (Nat × Nat) → List (Nat × Nat)
  | lo, [] => if lo < top then [(lo, top - lo)] else []
  | lo, (a, n) :: t => (if lo < a then [(lo, a - lo)] else []) ++ gapsOf top (a + n) t

/-- The free frame of a number among those of some gaps, and how many frames follow in its gap from it on. -/
def nthFree : List (Nat × Nat) → Nat → Nat × Nat
  | [], _ => (0, 1)
  | (a, n) :: t, r => if r < n then (a + r, n - r) else nthFree t (r - n)

/-- File a run of frames among rising runs. -/
def fileRun (x : Nat × Nat) : List (Nat × Nat) → List (Nat × Nat)
  | [] => [x]
  | y :: t => if x.1 < y.1 then x :: y :: t else y :: fileRun x t

/-- Choose frames for `n` frames of a region below `top`, none of them taken: run after run, each from a free frame on and of a free
length; every choice of free frames is one of these (R115, log entry 157, DESIGN CHOICE). `fuel` bounds the runs. -/
def chooseFrames (top : Nat) (codes : Nat → Nat) : Nat → Nat → List (Nat × Nat) → List (Nat × Nat)
  | 0, _, _ => []
  | fuel + 1, n, taken =>
    let gaps := gapsOf top 0 taken
    let free := (gaps.map (·.2)).sum
    if n = 0 ∨ free = 0 then []
    else
      let x := nthFree gaps (codes (2 * fuel) % free)
      let most := min n x.2
      let len := most - codes (2 * fuel + 1) % most
      (x.1, len) :: chooseFrames top codes fuel (n - len) (fileRun (x.1, len) taken)

/-- The frames of a stack that regions hold, as rising runs. -/
def Module.takenFrames (m : Module) (s : Nat) : List (Nat × Nat) :=
  (m.allRegions.flatMap fun g => g.frames.getD s []).foldr fileRun []

/-- The frames of a new region on every stack (R109, R115). -/
def Module.newFrames (m : Module) (r : RegionRec) (codes : Nat → Nat) : List (List (Nat × Nat)) :=
  (List.range 20).map fun s =>
    chooseFrames (stackFrames s) (sub codes s) (r.framesOn s) (r.framesOn s) (m.takenFrames s)

/-! ### Page table entries and translation caches (R107, R108) -/

/-- The 64-bit layout of an entry (R107). -/
def PageEntry.word (e : PageEntry) : Nat :=
  e.valid.toNat + e.small.toNat * 2 + e.table.toNat * 4 + e.frame % 2 ^ 25 * 2 ^ 16 + e.rgn % 256 * 2 ^ 48

/-- The entry of page `k` of a region of a partition (R107). -/
def Module.pageEntry (m : Module) (p : Nat) (g : RegionSt) (k : Nat) : PageEntry :=
  { valid := true, small := g.info.page != 0, table := m.isTableRegion p g.info.rgn, frame := g.pageAddr k / 2 ^ 16
    rgn := g.info.rgn }

/-- A unit translates `len` bytes at a region address: the entries of their pages enter its translation caches. An entry never changes
while it is there, so a translation reads the same from the page table (R108, log entry 158, DESIGN CHOICE). -/
def Module.cacheXlat (m : Module) (u : XUnit) (p ra len : Nat) : Module :=
  match m.regionAt p ra with
  | none => m
  | some g =>
    let k0 := (ra - g.info.base) / 2 ^ g.info.shift
    let k1 := (ra - g.info.base + (len - 1)) / 2 ^ g.info.shift
    let new := ((List.range (k1 - k0 + 1)).map fun i => ({ unit := u, ptn := p, page := k0 + i, entry := m.pageEntry p g (k0 + i) } : XlatLine))
    { m with xlat := m.xlat ++ new.filter fun x => !m.xlat.contains x }

/-- The translation caches' entries of a partition are invalidated at COMMIT (R108). -/
def Module.dropXlat (m : Module) (p : Nat) : Module := { m with xlat := m.xlat.filter fun x => x.ptn != p }

/-! ### Translation (R104–R106) -/

/-- The outcome of a translation (R104). -/
inductive Xlat where
  | ok (key stack : Nat)
  | fault (status cause : Nat)
  | halt (page : Nat)
  deriving DecidableEq, Repr, Inhabited

/-- Translate `len` bytes at a region address for a master and a permission, page by page where the access spans pages
(R104, R105): the checks in the order of R104. -/
def Module.translate (m : Module) (p M ra len perm : Nat) : Xlat :=
  match m.regionAt p ra with
  | none => .fault stFaultAddress 1
  | some g =>
    if g.info.base + g.info.size < ra + len then .fault stFaultAddress 2
    else if !m.allowed tcRegion g.info.rgn p M perm then .fault stFaultAccess 3
    else
      let sz := 2 ^ g.info.shift
      let k0 := (ra - g.info.base) / sz
      let k1 := (ra - g.info.base + (len - 1)) / sz
      let ks := (List.range (k1 - k0 + 1)).map (k0 + ·)
      match ks.find? fun k => m.residency g k == .lost || (m.residency g k != .present && !isCounterQueue M) with
      | some k => if m.residency g k = .lost then .fault stFaultAddress 4 else .halt (g.info.base + k * sz)
      | none => .ok (regionKey g.serial (ra - g.info.base)) (g.info.stackOf k0)

/-- The first byte at or after a region address that lies in a LOST page of the region: where an access that meets one faults
(R105, R106). -/
def Module.lostFrom (m : Module) (p ra : Nat) : Nat :=
  match m.regionAt p ra with
  | none => ra
  | some g =>
    let sz := 2 ^ g.info.shift
    let k0 := (ra - g.info.base) / sz
    match (List.range (g.info.pages - k0)).find? fun i => m.residency g (k0 + i) == .lost with
    | some i => max ra (g.info.base + (k0 + i) * sz)
    | none => ra

/-- Record a translation fault, with the address of the page that it meets (R106); a denial is recorded under R489 too. -/
def Module.xfault (m : Module) (p M ra cause perm : Nat) : Module :=
  let ra := if cause = 4 then m.lostFrom p ra else ra
  let m := m.count (ptnR p 0x88) 0 32
  let m := if m.fld (ptnR p 0x80) 63 1 = 1 then m
    else m.setReg (ptnR p 0x80) (BitVec.ofNat 64 (ra % 2 ^ 41 + M % 4096 * 2 ^ 41 + cause % 8 * 2 ^ 53 + 2 ^ 63))
  if cause = 3 then m.deny p M tcRegion (((m.regionAt p ra).map (·.info.rgn)).getD 0) perm else m

/-- The region page that lies at a local DRAM address, as the key of that byte (log entry 3, DESIGN CHOICE); the address itself where
no region page lies there. -/
def Module.dramKey (m : Module) (la : Nat) : Nat :=
  let hit := m.allRegions.findSome? fun g =>
    ((List.range g.info.pages).find? fun k =>
      decide (g.pageAddr k ≤ la ∧ la < g.pageAddr k + 2 ^ g.info.shift)).map fun k =>
        regionKey g.serial (k * 2 ^ g.info.shift + (la - g.pageAddr k))
  hit.getD la

end Sys2Proof.Machine
end

