-- ==== Sys2Proof/Machine/Keccak.lean ====
section
/-! DEFINITION. SHA3-512 and SHAKE256 (FIPS 202, which R485 names), CRC-32C and the CRC-64 of collective
chunks: the digests that the spec computes over images, hallmarks, capsules and chunks. -/
namespace Sys2Proof.Machine

/-- Where the step pi puts lane (x, y), numbered x + 5 y: at (y, 2 x + 3 y). -/
def piTo (i : Nat) : Nat := i / 5 + 5 * ((2 * (i % 5) + 3 * (i / 5)) % 5)

/-- The rotations of the step rho: from lane (1, 0) on, each lane that pi leads to turns by the next triangular number. -/
def rhoTurns : Nat → Nat → Nat → List (Nat × Nat)
  | 0, _, _ => []
  | n + 1, t, i => (i, t * (t + 1) / 2 % 64) :: rhoTurns n (t + 1) (piTo i)

/-- The feedback register of the step iota, shifted once. -/
def iotaShift (v : Nat) : Nat := if 128 ≤ v then (2 * v) ^^^ 0x171 else 2 * v

/-- The constant of a round: seven bits of the register, at the places 2 ^ j - 1; and the register after them. -/
def iotaWord (v : Nat) : Nat × Nat :=
  (List.range 7).foldl (fun s j => (iotaShift s.1, s.2 + s.1 % 2 * 2 ^ (2 ^ j - 1))) (v, 0)

/-- The parity of column x of a state of 25 lanes. -/
def parity (a : List Word) (x : Nat) : Word := ((List.range 5).map fun y => a.getD (x % 5 + 5 * y) 0).foldl (· ^^^ ·) 0

/-- One round of Keccak-f[1600]: theta, rho with pi, chi, and iota with its constant. -/
def permuteRound (a : List Word) (rc : Nat) : List Word :=
  let t := a.zipIdx.map fun (w, i) => w ^^^ (parity a (i + 4) ^^^ (parity a (i + 1)).rotateLeft 1)
  let b := (rhoTurns 24 1 1).foldl (fun b r => b.set (piTo r.1) ((t.getD r.1 0).rotateLeft r.2)) t
  let c := b.zipIdx.map fun (w, i) =>
    let y := i / 5 * 5
    w ^^^ (~~~ b.getD (y + (i - y + 1) % 5) 0 &&& b.getD (y + (i - y + 2) % 5) 0)
  c.modify 0 (· ^^^ BitVec.ofNat 64 rc)

/-- The permutation Keccak-f[1600]: 24 rounds. -/
def permute1600 (a : List Word) : List Word :=
  ((List.range 24).foldl (fun (s : Nat × List Word) _ =>
    let k := iotaWord s.1
    (k.1, permuteRound s.2 k.2)) (1, a)).2

/-- The blocks of `rate` bytes of a message padded with a domain byte and a last bit. -/
def padded (rate : Nat) (domain : Byte) (msg : List Byte) : List (List Byte) :=
  let n := msg.length / rate + 1
  let all := (msg ++ [domain]) ++ List.replicate (n * rate - msg.length - 1) 0
  (List.range n).map fun i =>
    let block := slice all (i * rate) rate
    if i + 1 = n then block.modify (rate - 1) (· ||| 0x80) else block

/-- A block meets the state: each of its lanes is added, and the permutation follows. -/
def meetBlock (a : List Word) (block : List Byte) : List Word :=
  permute1600 (a.zipIdx.map fun (w, i) => w ^^^ BitVec.ofNat 64 (fieldAt block (8 * i) 8))

/-- `n` blocks of output, of `rate` bytes each. -/
def outBlocks (rate : Nat) : Nat → List Word → List Byte
  | 0, _ => []
  | n + 1, a => ((a.flatMap fun w => leBytes 8 w.toNat).take rate) ++ outBlocks rate n (permute1600 a)

/-- A sponge of `rate` bytes with a domain byte: the message, and `out` bytes of output. -/
def sponge (rate : Nat) (domain : Byte) (msg : List Byte) (out : Nat) : List Byte :=
  (outBlocks rate (ceilDiv out rate) ((padded rate domain msg).foldl meetBlock (List.replicate 25 0))).take out

/-- SHA3-512. -/
def sha3 (msg : List Byte) : List Byte := sponge 72 0x06 msg 64

/-- SHAKE256 with `out` bytes of output. -/
def shake256 (msg : List Byte) (out : Nat) : List Byte := sponge 136 0x1F msg out

/-- One bit of a reflected CRC register. -/
def crcBit (poly v : Nat) : Nat := if v % 2 = 1 then (v / 2) ^^^ poly else v / 2

/-- One byte of a reflected CRC register. -/
def crcByte (poly v : Nat) (b : Byte) : Nat :=
  let r := crcBit poly
  r (r (r (r (r (r (r (r (v ^^^ b.toNat))))))))

/-- CRC-32C (Castagnoli), reflected, initial and final value all ones. -/
def crc32c (bs : List Byte) : BitVec 32 := BitVec.ofNat 32 (0xFFFFFFFF ^^^ bs.foldl (crcByte 0x82F63B78) 0xFFFFFFFF)

/-- One bit of an unreflected 64-bit CRC register with the polynomial of ECMA-182. -/
def crc64Bit (v : Nat) : Nat := if 2 ^ 63 ≤ v then ((2 * v) % 2 ^ 64) ^^^ 0x42F0E1EBA9EA3693 else 2 * v

/-- One byte of the CRC-64 register. -/
def crc64Byte (v : Nat) (b : Byte) : Nat :=
  let r := crc64Bit
  r (r (r (r (r (r (r (r (v ^^^ (b.toNat * 2 ^ 56)))))))))

/-- CRC-64/ECMA-182, initial value 0, no reflection, no final exclusive or (R422). -/
def crc64 (bs : List Byte) : Word := BitVec.ofNat 64 (bs.foldl crc64Byte 0)

end Sys2Proof.Machine
end

