-- ==== Sys2Proof/Machine/DraftCheck.lean ====
section
/-! DEFINITION. The draft image: its parsing and its checks (R72–R93, R119, R120, R249, R250). A failure is a pair of a
byte offset and a reason of R92. -/
namespace Sys2Proof.Machine

/-- Refusal reasons of R92. -/
abbrev rSIGNATURE : Nat := 1
abbrev rSIGNER : Nat := 2
abbrev rFORMAT : Nat := 3
abbrev rRESERVED : Nat := 4
abbrev rLIMIT : Nat := 5
abbrev rCONFLICT : Nat := 6
abbrev rLIVE_TABLE : Nat := 7
abbrev rROLLBACK : Nat := 8
abbrev rPARTITION : Nat := 9
abbrev rACCESS : Nat := 10
abbrev rCAPACITY : Nat := 11

/-- A failed check: byte offset and reason. -/
abbrev Failure := Nat × Nat

/-- A failure at an offset when a condition does not hold. -/
def need (ok : Bool) (off reason : Nat) : List Failure := if ok then [] else [(off, reason)]

/-- Every byte of a field is zero. -/
def zeros (bs : List Byte) (off n : Nat) : Bool := (slice bs off n).all (· == 0)

/-- A reserved field (R6). -/
def needZero (bs : List Byte) (off n : Nat) : List Failure := need (zeros bs off n) off rRESERVED

/-- A value within a range. -/
def within (v lo hi : Nat) : Bool := decide (lo ≤ v ∧ v ≤ hi)

/-- The first failure in byte order; at one offset the lowest reason (R93). -/
def firstFailure (l : List Failure) : Option Failure :=
  l.foldl (fun best x => match best with
    | none => some x
    | some b => if x.1 < b.1 ∨ (x.1 = b.1 ∧ x.2 < b.2) then some x else some b) none

/-! ### Element types and vector stages, where a draft names them -/

/-- Element type codes that R11 defines, fp20 apart (R12). -/
def typeKnown (t : Nat) : Bool := within t 0x01 0x0A || within t 0x10 0x15

/-- The MX types of R11. -/
def isMx (t : Nat) : Bool := within t 0x06 0x0A

/-- Bits per element (R11); block scales of MX types are apart. -/
def typeBits (t : Nat) : Nat :=
  match t with
  | 0x01 | 0x13 | 0x20 => 32
  | 0x02 | 0x03 | 0x12 => 16
  | 0x08 | 0x09 => 6
  | 0x0A | 0x15 => 4
  | 0x14 => 64
  | _ => 8

/-- Stage parameter formats of R250. -/
inductive StageFmt where
  | imm | port | port2 | shift | mode | none
  deriving DecidableEq, Repr

/-- The parameter format of a stage code that the catalogue of R249 defines. -/
def stageFmt (code : Nat) : Option StageFmt :=
  if within code 0x01 0x06 then some .imm
  else if within code 0x08 0x0C ∨ code = 0x40 then some .port
  else if code = 0x0D ∨ code = 0x0E then some .port2
  else if within code 0x10 0x13 ∨ within code 0x20 0x28 ∨ code = 0x38 then some .none
  else if code = 0x30 ∨ code = 0x31 then some .shift
  else if code = 0x39 then some .mode
  else none

/-- A stage parameter fits its format (R250). -/
def paramOk : StageFmt → Nat → Bool
  | .imm, _ => true
  | .port, p => within p 1 3
  | .port2, p => decide (p < 16) && p % 4 != 0 && p / 4 != 0
  | .shift, p => decide (p < 32)
  | .mode, p => decide (p < 3)
  | .none, p => p == 0

/-! ### Sections and records -/

/-- A directory entry (R73). -/
structure DirEntry where
  at_    : Nat
  kind   : Nat
  count  : Nat
  reclen : Nat
  offset : Nat
  length : Nat
  deriving DecidableEq, Repr, Inhabited

/-- The record length and the counts of a section kind (R73). -/
def sectionKind : Nat → Option (Nat × Nat × Nat)
  | 1 => some (64, 1, 1)
  | 2 => some (16, 1, 64)
  | 3 => some (16, 0, 512)
  | 4 => some (32, 0, 32)
  | 5 => some (32, 1, 256)
  | 6 => some (16, 0, 20)
  | 7 => some (16, 1, 1024)
  | 8 => some (32, 0, 256)
  | _ => none

def dirEntries (bs : List Byte) : List DirEntry :=
  (List.range (min (fieldAt bs 8 2) 8)).map fun i =>
    let o := 0x40 + 16 * i
    { at_ := o, kind := fieldAt bs o 1, count := fieldAt bs (o + 2) 2, reclen := fieldAt bs (o + 4) 2,
      offset := fieldAt bs (o + 8) 4, length := fieldAt bs (o + 12) 4 }

/-- The offsets of the records of a section kind. -/
def recordOffsets (bs : List Byte) (kind : Nat) : List Nat :=
  match (dirEntries bs).find? fun e => e.kind == kind with
  | some e => (List.range e.count).map fun i => e.offset + i * e.reclen
  | none => []

def parsePartition (bs : List Byte) (o : Nat) : PartitionRec :=
  { mode := fieldAt bs o 1, collgrp := fieldAt bs (o + 1) 1, arenaRgn := fieldAt bs (o + 2) 1
    roundUs := fieldAt bs (o + 4) 2
    livemax := (List.range 4).map fun i => fieldAt bs (o + 8 + 2 * i) 2
    slots := (List.range 4).map fun i => fieldAt bs (o + 0x10 + 4 * i) 4
    readys := (List.range 4).map fun i => fieldAt bs (o + 0x20 + 2 * i) 2
    rgbuf := fieldAt bs (o + 0x28) 2, affhold := fieldAt bs (o + 0x2A) 2, holdlim := fieldAt bs (o + 0x2C) 2
    affen := fieldAt bs (o + 0x2E) 1, lock := fieldAt bs (o + 0x30) 4, qpairs := fieldAt bs (o + 0x34) 2 }

def parseBenchSet (bs : List Byte) (o : Nat) : BenchSetRec :=
  { set := fieldAt bs o 1, hall := fieldAt bs (o + 1) 1, share := fieldAt bs (o + 2) 1, weight := fieldAt bs (o + 3) 1
    mask := fieldAt bs (o + 8) 8 }

def parseWeave (bs : List Byte) (o : Nat) : WeaveRec :=
  { kind := fieldAt bs o 1, hall := fieldAt bs (o + 1) 1, id := fieldAt bs (o + 2) 2, len := fieldAt bs (o + 4) 1
    bench := (List.range (min (fieldAt bs (o + 4) 1) 8)).map fun i => fieldAt bs (o + 8 + i) 1 }

def parseVChain (bs : List Byte) (o : Nat) : VChainRec :=
  { comp := fieldAt bs o 1
    stages := (List.range (min (fieldAt bs (o + 1) 1) 8)).map fun i =>
      { code := fieldAt bs (o + 8 + 3 * i) 1, param := fieldAt bs (o + 9 + 3 * i) 2 } }

def parseRegion (bs : List Byte) (o : Nat) : RegionRec :=
  { rgn := fieldAt bs o 1, page := fieldAt bs (o + 1) 1, mode := fieldAt bs (o + 2) 1, wh := fieldAt bs (o + 3) 1
    flags := fieldAt bs (o + 4) 1, base := fieldAt bs (o + 8) 8, size := fieldAt bs (o + 16) 8 }

def parseRegulator (bs : List Byte) (o : Nat) : RegulatorRec :=
  { stack := fieldAt bs o 1, cap := fieldAt bs (o + 1) 1 % 2, rate := fieldAt bs (o + 4) 4, burst := fieldAt bs (o + 8) 4 }

def parseAccess (bs : List Byte) (o : Nat) : AccessRec :=
  { tclass := fieldAt bs o 1, perm := fieldAt bs (o + 1) 1, tfirst := fieldAt bs (o + 2) 2, tcount := fieldAt bs (o + 4) 2
    mfirst := fieldAt bs (o + 6) 2, mlast := fieldAt bs (o + 8) 2, mkind := fieldAt bs (o + 10) 1 }

def parsePlacement (bs : List Byte) (o : Nat) : PlacementRec :=
  { table := fieldAt bs o 4, type := fieldAt bs (o + 4) 1, mode := fieldAt bs (o + 5) 1, wh := fieldAt bs (o + 6) 1
    twin := fieldAt bs (o + 7) 1 % 2 == 1, rows := fieldAt bs (o + 8) 8, dim := fieldAt bs (o + 0x10) 2
    rgn := fieldAt bs (o + 0x12) 1, shards := fieldAt bs (o + 0x14) 2, readers := fieldAt bs (o + 0x16) 1
    adders := fieldAt bs (o + 0x17) 1 }

/-- The draft that an image holds, with its digest (R74). -/
def parseDraft (bs : List Byte) : Draft :=
  let recs {α : Type} (k : Nat) (f : List Byte → Nat → α) : List α := (recordOffsets bs k).map (f bs)
  { ptn := fieldAt bs 6 1, tag := fieldAt bs 0x10 8, serial := fieldAt bs 0x18 8
    part := ((recs 1 parsePartition).head?).getD {}
    sets := recs 2 parseBenchSet, weaves := recs 3 parseWeave, chains := recs 4 parseVChain
    regions := recs 5 parseRegion, regulators := recs 6 parseRegulator, access := recs 7 parseAccess
    placements := recs 8 parsePlacement, digest := sha3 (slice bs 0 (fieldAt bs 0x0C 4)) }

/-! ### Step 1 and 2: the signed bytes (R93) -/

/-- FORMAT of MAGIC, IMAGE_LEN and the signature block (R72, R74). -/
def signedFailures (bs : List Byte) : List Failure :=
  let len := fieldAt bs 0x0C 4
  need (64 ≤ bs.length ∧ fieldAt bs 0 4 = 0x52445A44) 0 rFORMAT ++
  need (len % 16 = 0 ∧ 0x40 ≤ len ∧ bs.length = len + 4640) 0x0C rFORMAT ++
  need (fieldAt bs len 2 = 4627) len rFORMAT ++ need (zeros bs (len + 2) 6) (len + 2) rFORMAT ++
  need (zeros bs (len + 8 + 4627) 5) (len + 8 + 4627) rFORMAT

/-- The public key in the draft-signer set that SIGNER names (R476). -/
def Module.signerKey (m : Module) (bs : List Byte) : Option (List Byte) :=
  m.asy.signers.find? fun k => (sha3 k).take 8 == slice bs 0x20 8

/-! ### Step 3: single fields and the directory (R93) -/

def headerFailures (m : Module) (ptn : Nat) (bs : List Byte) : List Failure :=
  need (fieldAt bs 4 1 = 0) 4 rFORMAT ++ need (fieldAt bs 5 1 = 1) 5 rFORMAT ++
  need (fieldAt bs 6 1 ≤ 7) 6 rLIMIT ++ need (fieldAt bs 6 1 = ptn) 6 rPARTITION ++
  needZero bs 7 1 ++ need (within (fieldAt bs 8 2) 1 8) 8 rFORMAT ++ needZero bs 0x0A 2 ++
  need (fieldAt bs 0x10 8 ≠ 0) 0x10 rLIMIT ++
  need ((m.reg (ptnR ptn 0x18)).toNat ≤ fieldAt bs 0x18 8) 0x18 rROLLBACK ++ needZero bs 0x28 24

def dirFailures (bs : List Byte) : List Failure :=
  let es := dirEntries bs
  let lo := 0x40 + 16 * fieldAt bs 8 2
  let hi := fieldAt bs 0x0C 4
  need (lo ≤ hi) 8 rFORMAT ++ need (es.any fun e => e.kind == 1) 8 rFORMAT ++
  es.flatMap fun e =>
    (match sectionKind e.kind with
     | none => need false e.at_ rRESERVED
     | some (len, cmin, cmax) =>
       need (within e.count cmin cmax) (e.at_ + 2) rFORMAT ++ need (e.reclen = len) (e.at_ + 4) rFORMAT) ++
    need (!(es.any fun f => decide (f.at_ < e.at_) && f.kind == e.kind)) e.at_ rFORMAT ++
    needZero bs (e.at_ + 1) 1 ++ needZero bs (e.at_ + 6) 2 ++
    need (e.offset % 16 = 0 ∧ lo ≤ e.offset ∧ e.offset + e.length ≤ hi) (e.at_ + 8) rFORMAT ++
    need (!(es.any fun f => decide (f.at_ < e.at_ ∧ 0 < e.length ∧ 0 < f.length ∧
      e.offset < f.offset + f.length ∧ f.offset < e.offset + e.length)))
      (e.at_ + 8) rFORMAT ++
    need (e.length = e.count * e.reclen) (e.at_ + 12) rFORMAT

def partitionFailures (d : Draft) (bs : List Byte) (o : Nat) : List Failure :=
  let r := parsePartition bs o
  need (r.mode ≤ 1) o rRESERVED ++ need (r.collgrp ≤ 1) (o + 1) rRESERVED ++
  need (d.regions.any fun g => g.rgn == r.arenaRgn) (o + 2) rLIMIT ++ needZero bs (o + 3) 1 ++
  need (r.roundUs = 0 ∨ within r.roundUs 50 2000) (o + 4) rLIMIT ++ needZero bs (o + 6) 2 ++
  (List.range 4).flatMap (fun i => need (r.livemax.getD i 0 ≤ 4096) (o + 8 + 2 * i) rLIMIT) ++
  (List.range 4).flatMap (fun i => need (r.slots.getD i 0 ≤ 61440) (o + 0x10 + 4 * i) rLIMIT) ++
  (List.range 4).flatMap (fun i => need (r.readys.getD i 0 ≤ 16384) (o + 0x20 + 2 * i) rLIMIT) ++
  need (r.rgbuf ≤ 48) (o + 0x28) rLIMIT ++ need (r.affen ≤ 1) (o + 0x2E) rLIMIT ++ needZero bs (o + 0x2F) 1 ++
  need (r.lock < 8) (o + 0x30) rRESERVED ++ need (r.qpairs ≤ 4096) (o + 0x34) rLIMIT ++ needZero bs (o + 0x36) 10

def benchSetFailures (bs : List Byte) (os : List Nat) (o : Nat) : List Failure :=
  let r := parseBenchSet bs o
  need (r.set ≤ 63) o rLIMIT ++ need (!(os.any fun q => decide (q < o) && fieldAt bs q 1 == r.set)) o rLIMIT ++
  need (r.hall ≤ 3) (o + 1) rLIMIT ++ need (r.share ≤ 1) (o + 2) rRESERVED ++
  need (if r.share = 0 then r.weight == 0 else within r.weight 1 255) (o + 3) rLIMIT ++ needZero bs (o + 4) 4 ++
  need (r.mask ≠ 0) (o + 8) rLIMIT

/-- The weave ports of a record: each link as sender and receiver, device-wide (R81). -/
def WeaveRec.links (w : WeaveRec) : List (Nat × Nat) :=
  (w.bench.zip (w.bench.drop 1)).map fun (a, b) => (w.hall * 64 + a, w.hall * 64 + b)

/-- No bench of a list of links takes a fifth outgoing or incoming port (R81). -/
def portsOk (ls : List (Nat × Nat)) (a : Nat × Nat) : Bool :=
  decide (ls.countP (fun l => l.1 == a.1) ≤ 4 ∧ ls.countP (fun l => l.2 == a.2) ≤ 4)

/-- Drafts in force of the partitions other than `p`. -/
def Module.otherDrafts (m : Module) (p : Nat) : List Draft :=
  ((List.range 8).filter (· != p)).filterMap fun q => (m.ptn q).draft

def weaveFailures (m : Module) (d : Draft) (bs : List Byte) (os : List Nat) (o : Nat) : List Failure :=
  let r := parseWeave bs o
  let before := (os.filter (· < o)).map (parseWeave bs)
  let used := (m.otherDrafts d.ptn).flatMap (fun x => x.weaves.flatMap WeaveRec.links) ++ before.flatMap WeaveRec.links
  need (r.kind = 1 ∨ r.kind = 2) o rRESERVED ++ need (r.hall ≤ 3) (o + 1) rLIMIT ++
  need (r.id ≤ 255 ∧ !(before.any fun w => w.kind == r.kind && w.id == r.id)) (o + 2) rLIMIT ++
  need (if r.kind = 1 then r.len == 2 else within r.len 2 8) (o + 4) rLIMIT ++ needZero bs (o + 5) 3 ++
  (List.range 8).flatMap (fun i =>
    let b := fieldAt bs (o + 8 + i) 1
    need (if i < r.len then decide (b ≤ 63) else b == 0xFF) (o + 8 + i) rLIMIT ++
    need (!(r.kind == 2 && decide (i < r.len) && (r.bench.take i).contains b)) (o + 8 + i) rLIMIT ++
    need (i = 0 ∨ r.len ≤ i ∨
      portsOk (used ++ r.links.take i) (r.links.getD (i - 1) (0, 0))) (o + 8 + i) rLIMIT) ++
  need (r.kind ≠ 2 ∨ d.sets.any fun s => s.hall == r.hall && r.bench.all fun b => s.mask.testBit b) (o + 8) rLIMIT

/-- One stage slot: a reserved code, or a parameter with a bit outside its format, is RESERVED (R249, R250); code 0x00
below STAGES, and any other code at or above it, is LIMIT (R82; log entry 146, DEDUCED). -/
def slotFailures (below : Bool) (code param a : Nat) : List Failure :=
  if code = 0 then need (!below) a rLIMIT ++ need (decide (param = 0)) a rRESERVED
  else need below a rLIMIT ++ need (((stageFmt code).map fun f => paramOk f param).getD false) a rRESERVED

def vchainFailures (bs : List Byte) (os : List Nat) (o : Nat) : List Failure :=
  let stages := fieldAt bs (o + 1) 1
  need (fieldAt bs o 1 ≤ 31 ∧ !(os.any fun q => decide (q < o) && fieldAt bs q 1 == fieldAt bs o 1)) o rLIMIT ++
  need (within stages 1 8) (o + 1) rLIMIT ++ needZero bs (o + 2) 6 ++
  (List.range 8).flatMap fun i =>
    let a := o + 8 + 3 * i
    slotFailures (decide (i < stages)) (fieldAt bs a 1) (fieldAt bs (a + 1) 2) a

def regionFailures (bs : List Byte) (os : List Nat) (o : Nat) : List Failure :=
  let r := parseRegion bs o
  let before := (os.filter (· < o)).map (parseRegion bs)
  let sz := 2 ^ r.shift
  need (!(before.any fun g => g.rgn == r.rgn)) o rLIMIT ++ need (r.page ≤ 1) (o + 1) rRESERVED ++
  need (r.mode ≤ 2) (o + 2) rRESERVED ++
  need (match r.mode with | 0 => r.wh == 0 | 1 => decide (r.wh ≤ 3) | _ => decide (r.wh ≤ 19)) (o + 3) rLIMIT ++
  need (r.flags < 2) (o + 4) rRESERVED ++ needZero bs (o + 5) 3 ++
  need (r.base % sz = 0 ∧ !(before.any fun g => decide (r.base < g.base + g.size ∧ g.base < r.base + r.size)))
    (o + 8) rLIMIT ++
  need (r.size ≠ 0 ∧ r.size % sz = 0 ∧ r.base + r.size ≤ 2 ^ 41 ∧ (r.page = 0 ∨ r.size ≤ 2 ^ 28)) (o + 16) rLIMIT ++
  needZero bs (o + 24) 8

def regulatorFailures (bs : List Byte) (os : List Nat) (o : Nat) : List Failure :=
  let r := parseRegulator bs o
  need (r.stack ≤ 19 ∧ !(os.any fun q => decide (q < o) && fieldAt bs q 1 == r.stack)) o rLIMIT ++
  need (fieldAt bs (o + 1) 1 < 2) (o + 1) rRESERVED ++ needZero bs (o + 2) 2 ++
  need (within r.rate 1 2826) (o + 4) rLIMIT ++ need (within r.burst 4 65536) (o + 8) rLIMIT ++ needZero bs (o + 12) 4

/-- Entries that drafts may write into one target: 63 or 255 (R488). -/
def classEntries (tclass : Nat) : Nat := if tclass = 1 ∨ tclass = 3 then 63 else 255

def accessFailures (m : Module) (d : Draft) (bs : List Byte) (os : List Nat) (o : Nat) : List Failure :=
  let r := parseAccess bs o
  let before := (os.filter (· < o)).map (parseAccess bs) ++ (m.otherDrafts d.ptn).flatMap (·.access)
  let targets := (List.range (min r.tcount 1024)).map (r.tfirst + ·)
  need (within r.tclass 1 4) o rRESERVED ++ need (r.perm < 16) (o + 1) rRESERVED ++
  need (r.tclass ≠ 4 ∨ r.tfirst = 0) (o + 2) rLIMIT ++
  need (!(targets.any fun t => decide (classEntries r.tclass ≤ before.countP fun q => q.names r.tclass t))) (o + 2) rLIMIT ++
  need (1 ≤ r.tcount ∧ (r.tclass ≠ 4 ∨ r.tcount = 1)) (o + 4) rLIMIT ++
  need (if r.mkind = 1 then decide (r.mfirst ≤ 63) else decide (r.mfirst < 4096)) (o + 6) rLIMIT ++
  need (r.mfirst ≤ r.mlast ∧ (if r.mkind = 1 then r.mlast ≤ 63 else r.mlast < 4096)) (o + 8) rLIMIT ++
  need (r.mkind ≤ 1) (o + 10) rRESERVED ++ needZero bs (o + 11) 5

/-- A table MODE and WHERE that its region's allow (R119). -/
def tableModeOk (g : RegionRec) (t : PlacementRec) : Bool :=
  match g.mode, t.mode with
  | 0, _ => true
  | 1, 1 => t.wh == g.wh
  | 1, 2 => t.wh / 5 == g.wh
  | 2, 2 => t.wh == g.wh
  | _, _ => false

def placementFailures (m : Module) (d : Draft) (bs : List Byte) (os : List Nat) (o : Nat) : List Failure :=
  let r := parsePlacement bs o
  let g := d.regions.find? fun g => g.rgn == r.rgn
  need (!(os.any fun q => decide (q < o) && fieldAt bs q 4 == r.table)) o rLIMIT ++
  need (typeKnown r.type) (o + 4) rRESERVED ++ need (r.mode ≤ 2) (o + 5) rRESERVED ++
  need ((g.map fun g => tableModeOk g r).getD true) (o + 5) rLIMIT ++
  need (match r.mode with | 0 => r.wh == 0 | 1 => decide (r.wh ≤ 3) | _ => decide (r.wh ≤ 19)) (o + 6) rLIMIT ++
  need (fieldAt bs (o + 7) 1 < 2) (o + 7) rRESERVED ++ need (!(r.twin && m.guildSize == 1)) (o + 7) rLIMIT ++
  need (1 ≤ r.rows) (o + 8) rLIMIT ++
  need (within r.dim 1 4096 ∧ (!isMx r.type || r.dim % 32 == 0)) (o + 0x10) rLIMIT ++
  need (g.isSome ∧ (g.map fun g => g.page == 0 && g.flags % 2 == 0).getD true) (o + 0x12) rLIMIT ++
  needZero bs (o + 0x13) 1 ++ need (within r.shards 1 (min 64 m.guildSize)) (o + 0x14) rLIMIT ++ needZero bs (o + 0x18) 8

/-- The checks of the records' fields. -/
def recordFailures (m : Module) (bs : List Byte) : List Failure :=
  let d := parseDraft bs
  let os := recordOffsets bs
  (os 1).flatMap (partitionFailures d bs) ++
  (os 2).flatMap (benchSetFailures bs (os 2)) ++ (os 3).flatMap (weaveFailures m d bs (os 3)) ++
  (os 4).flatMap (vchainFailures bs (os 4)) ++ (os 5).flatMap (regionFailures bs (os 5)) ++
  (os 6).flatMap (regulatorFailures bs (os 6)) ++ (os 7).flatMap (accessFailures m d bs (os 7)) ++
  (os 8).flatMap (placementFailures m d bs (os 8))

/-- Every check of step 3. Records are read only where the directory that places them is sound, which is before them in
byte order (R73; log entry 146, DEDUCED). -/
def fieldFailures (m : Module) (ptn : Nat) (bs : List Byte) : List Failure :=
  match headerFailures m ptn bs ++ dirFailures bs with
  | [] => recordFailures m bs
  | l => l

/-! ### Step 4: records against one another, the drafts in force and the module (R93) -/

/-- Device-wide benches of a set. -/
def BenchSetRec.benches (s : BenchSetRec) : List Nat := (bitsSet 64 s.mask).map (s.hall * 64 + ·)

/-- R88. -/
def accessBroken (d : Draft) (r : AccessRec) : Bool :=
  r.perm.testBit 3 ||
  (r.mkind == 0 && decide (r.mfirst ≤ 0xBFF ∧ 0x800 ≤ r.mlast)) ||
  (r.mkind == 0 && (List.range 256).any fun b =>
    decide (r.mfirst ≤ b ∧ b ≤ r.mlast) && !(d.sets.any fun s => s.benches.contains b)) ||
  (match r.tclass with
   | 1 => (List.range r.tcount).any fun i => !(d.regions.any fun g => g.rgn == r.tfirst + i)
   | 2 => decide (20 < r.tfirst + r.tcount)
   | 3 => decide (r.tfirst < 128 * d.ptn ∨ 128 * d.ptn + 128 < r.tfirst + r.tcount)
   | _ => false)

def nth (l : List Nat) (i : Nat) : Nat := l.getD i 0

/-- A lock of one field at one value (R77). -/
def lockClash (a b : PartitionRec) : Bool :=
  (a.lock.testBit 0 && b.lock.testBit 0 && a.affhold != b.affhold) ||
  (a.lock.testBit 1 && b.lock.testBit 1 && a.holdlim != b.holdlim) ||
  (a.lock.testBit 2 && b.lock.testBit 2 && a.affen != b.affen)

/-- The halls in which a draft has a bench set. -/
def Draft.halls (d : Draft) : List Nat := (List.range 4).filter fun h => d.sets.any fun s => s.hall == h

/-- R76 and R77 for the PARTITION record. -/
def partitionClash (d : Draft) (others : List Draft) : Bool :=
  let sum (f : PartitionRec → Nat) : Nat := f d.part + (others.map fun x => f x.part).sum
  (List.range 4).any (fun h => decide (4096 < sum (nth ·.livemax h) ∨ 61440 < sum (nth ·.slots h) ∨
    16384 < sum (nth ·.readys h))) ||
  decide (48 < sum (·.rgbuf)) || decide (4096 < sum (·.qpairs)) ||
  others.any fun x => lockClash d.part x.part && d.halls.any fun h => x.halls.contains h

/-- R79 for one bench set. -/
def benchClash (d : Draft) (others : List Draft) (s : BenchSetRec) : Bool :=
  others.any fun x => x.sets.any fun t =>
    (s.share == 0 || t.share == 0 || (d.part.mode == 1 && x.part.mode == 1)) && t.hall == s.hall &&
      (t.mask &&& s.mask) != 0

/-- R86 for one regulator. -/
def rateClash (others : List Draft) (r : RegulatorRec) : Bool :=
  decide (2826 < r.rate + (others.map fun x => ((x.regulators.filter (·.stack == r.stack)).map (·.rate)).sum).sum)

/-- A table of partition `p` in force with its editions. -/
def Module.table (m : Module) (t : Nat) : Option Table := m.tables.find? fun x => x.place.table == t

/-- A loaded graph names a table in a SPACE TABLE tensor. -/
def Graph.namesTable (g : Graph) (t : Nat) : Bool := g.tensors.any fun x => x.space == 3 && x.addr % 2 ^ 32 == t

/-- Partitions other than `p` with a loaded graph that names a table. -/
def Module.tableUsers (m : Module) (p t : Nat) : List Nat :=
  (List.range 8).filter fun q => q != p && (m.ptn q).graphs.any (·.namesTable t)

/-- The tables of a defined guild graph; a WGT of 0 is none (R281, R283). -/
def GuildGraph.tables (g : GuildGraph) : List Nat := [g.offs, g.nbr] ++ if g.wgt = 0 then [] else [g.wgt]

/-- A table that may not leave force (R92, R98): an edition RETIRING, BUILDING or SEALED, a defined guild graph, or a
graph of another partition that names it. -/
def Module.tableLive (m : Module) (p : Nat) (t : Table) : Bool :=
  t.editions.any (fun e => e.state == .retiring || e.state == .building || e.state == .sealed) ||
  (m.ptn p).ggraphs.any (·.tables.contains t.place.table) ||
  !(m.tableUsers p t.place.table).isEmpty

/-- LIVE_TABLE (R92) for the PLACEMENT record of a table that the partition keeps, or for a table that it drops. -/
def Module.keepBroken (m : Module) (d : Draft) (t : Table) : Bool :=
  match d.placements.find? fun r => r.table == t.place.table with
  | none => m.tableLive d.ptn t
  | some r =>
    { r with readers := t.place.readers, adders := t.place.adders } != t.place ||
    (m.tableUsers d.ptn r.table).any fun q =>
      (t.place.readers.testBit q && !r.readers.testBit q) || (t.place.adders.testBit q && !r.adders.testBit q)

/-- LIVE_TABLE (R92) for a REGION record: it holds a kept table and differs from the record in force. -/
def Module.regionBroken (m : Module) (d : Draft) (g : RegionRec) : Bool :=
  ((m.draft d.ptn).regions.find? fun x => x.rgn == g.rgn) != some g &&
    m.tables.any fun t => t.ptn == d.ptn && t.place.rgn == g.rgn && d.placements.any fun r => r.table == t.place.table

/-- Regions of an image that the partition does not hold already (R85, R97). -/
def Module.newRegions (m : Module) (d : Draft) : List RegionRec :=
  d.regions.filter fun g => !((m.ptn d.ptn).regions.any fun x => x.info == g)

/-- Row geometry of a table (R116, R117). -/
def PlacementRec.rowBytes (t : PlacementRec) : Nat := ceilDiv (t.dim * typeBits t.type) 8 + (if isMx t.type then t.dim / 32 else 0)
def PlacementRec.stride (t : PlacementRec) : Nat :=
  if t.rowBytes ≤ 32 then 32 else if t.rowBytes ≤ 64 then 64 else roundUp t.rowBytes 128
def PlacementRec.rpp (t : PlacementRec) : Nat := 2097152 / t.stride
def PlacementRec.shrows (t : PlacementRec) : Nat := ceilDiv t.rows t.shards
def PlacementRec.shpages (t : PlacementRec) : Nat := ceilDiv t.shrows t.rpp
/-- The stack of shard page `j` (R119). -/
def PlacementRec.stackOf (t : PlacementRec) (j : Nat) : Nat := placeStack t.mode t.wh t.table j

/-- The shard whose primary copy is on a member, and the shard whose twin is (R118). -/
def PlacementRec.primaryOf (t : PlacementRec) (member : Nat) : Option Nat := if member < t.shards then some member else none
def PlacementRec.twinMember (_t : PlacementRec) (guild k : Nat) : Nat := (k + guild / 2) % guild
def PlacementRec.twinOf (t : PlacementRec) (guild member : Nat) : Option Nat :=
  if t.twin then (List.range t.shards).find? fun k => t.twinMember guild k == member else none

/-- Copies of a table's shards that a member holds. -/
def PlacementRec.copies (t : PlacementRec) (guild member : Nat) : Nat :=
  (if (t.primaryOf member).isSome then 1 else 0) + (if (t.twinOf guild member).isSome then 1 else 0)

/-- Shard pages of one copy on a stack, by R115 with the table's MODE (R119). -/
def PlacementRec.shpagesOn (t : PlacementRec) (s : Nat) : Nat :=
  RegionRec.pagesOn { rgn := t.table, page := 0, mode := t.mode, wh := t.wh, flags := 0, base := 0
                      size := t.shpages * 2 ^ 21 } s

/-- One copy of every held shard fits in the region pages of the required stacks (R120). -/
def Module.tablesFit (m : Module) (d : Draft) (t : PlacementRec) : Bool :=
  match d.regions.find? fun g => g.rgn == t.rgn with
  | none => true
  | some g => (List.range 20).all fun s =>
      decide (((d.placements.filter (·.rgn == t.rgn)).map fun x => x.copies m.guildSize m.member * x.shpagesOn s).sum ≤ g.pagesOn s)

/-- The first record at fault of step 4, with its reason, in the order ACCESS, CONFLICT, LIVE_TABLE, CAPACITY. -/
def relationFailure (m : Module) (bs : List Byte) : Option Failure :=
  let d := parseDraft bs
  let others := m.otherDrafts d.ptn
  let os := recordOffsets bs
  let bad {α : Type} (kind reason : Nat) (l : List α) (p : α → Bool) : List Failure :=
    ((os kind).zip l).filterMap fun (o, r) => if p r then some (o, reason) else none
  let access := firstFailure (bad 7 rACCESS d.access (accessBroken d))
  let conflict := firstFailure (bad 1 rCONFLICT [d.part] (fun _ => partitionClash d others) ++
    bad 2 rCONFLICT d.sets (benchClash d others) ++ bad 6 rCONFLICT d.regulators (rateClash others) ++
    bad 8 rCONFLICT d.placements fun t => others.any fun x => x.placements.any fun u => u.table == t.table)
  let own := m.tables.filter (·.ptn == d.ptn)
  let live := firstFailure (bad 5 rLIVE_TABLE d.regions (m.regionBroken d) ++ bad 8 rLIVE_TABLE d.placements (fun t =>
      (own.filter (·.place.table == t.table)).any (m.keepBroken d)) ++
    need (!(own.any fun t => !(d.placements.any fun r => r.table == t.place.table) && m.keepBroken d t)) 0 rLIVE_TABLE)
  let fresh := m.newRegions d
  let capacity := firstFailure ((((os 5).zip d.regions).filterMap fun (o, r) =>
      if fresh.contains r && (List.range 20).any fun s =>
        !((m.quern s).withdrawn && (m.quern s).wdcause == 1) && decide (0 < r.framesOn s ∧
          m.freeFrames s < (((fresh.takeWhile (· != r)) ++ [r]).map fun g => g.framesOn s).sum)
      then some (o, rCAPACITY) else none) ++
    bad 8 rCAPACITY d.placements (fun t => !m.tablesFit d t))
  access.orElse fun _ => conflict.orElse fun _ => live.orElse fun _ => capacity

/-- Check an image for a partition: the first failure in the order of R93, or the draft. -/
def checkDraft (m : Module) (ptn : Nat) (bs : List Byte) : Except Failure Draft :=
  match firstFailure (signedFailures bs) with
  | some f => .error f
  | none =>
    match m.signerKey bs with
    | none => .error (0x20, rSIGNER)
    | some key =>
      let len := fieldAt bs 0x0C 4
      if !Config.mldsaVerify key (slice bs 0 len) (slice bs (len + 8) 4627) then .error (len + 8, rSIGNATURE)
      else match firstFailure (fieldFailures m ptn bs) with
        | some f => .error f
        | none =>
          match relationFailure m bs with
          | some f => .error f
          | none => .ok (parseDraft bs)

end Sys2Proof.Machine
end

