-- ==== Sys2Proof/Machine/Numeric.lean ====
section
/-! DEFINITION. Numbers and their conversions: exact values, the float formats, rounding, saturation and block scales
(R191, R192, R251, R252, R264–R268). -/
namespace Sys2Proof.Machine

/-- A value: NaN, an infinity, or the dyadic number (−1)^neg × m × 2^e, with a signed zero. -/
inductive Num where
  | nan
  | inf (neg : Bool)
  | fin (neg : Bool) (m : Nat) (e : Int)
  deriving DecidableEq, Repr, Inhabited

/-- A rounding mode; stochastic rounding carries its 16-bit draw (R267). -/
inductive Rnd where
  | even
  | zero
  | stoch (r : Nat)
  deriving DecidableEq, Repr, Inhabited

/-- What a step of arithmetic yields: a value, whether it saturated, and whether it was made NaN. -/
structure Res where
  v   : Num
  sat : Bool := false
  deriving DecidableEq, Repr, Inhabited

def Num.zero : Num := .fin false 0 0

def Num.isNan : Num → Bool
  | .nan => true
  | _ => false

def Num.isZero : Num → Bool
  | .fin _ 0 _ => true
  | _ => false

def Num.isNeg : Num → Bool
  | .nan => false
  | .inf n => n
  | .fin n _ _ => n

def Num.negate : Num → Num
  | .nan => .nan
  | .inf n => .inf !n
  | .fin n m e => .fin (!n) m e

def Num.abs : Num → Num
  | .nan => .nan
  | .inf _ => .inf false
  | .fin _ m e => .fin false m e

/-- The integer (−1)^neg × m × 2^(e − lo) of a finite value, for a common exponent `lo` at or below `e`. -/
def scaled (neg : Bool) (m : Nat) (e lo : Int) : Int :=
  let x : Int := m * 2 ^ (e - lo).toNat
  if neg then -x else x

/-- The exact sum. A zero sum of two negative zeros is negative, and every other exact zero sum is positive. -/
def Num.add : Num → Num → Num
  | .nan, _ => .nan
  | _, .nan => .nan
  | .inf a, .inf b => if a == b then .inf a else .nan
  | .inf a, _ => .inf a
  | _, .inf b => .inf b
  | .fin na ma ea, .fin nb mb eb =>
    let lo := min ea eb
    let x := scaled na ma ea lo + scaled nb mb eb lo
    if x = 0 then .fin (na && nb) 0 0 else .fin (decide (x < 0)) x.natAbs lo

/-- The exact product. -/
def Num.mul : Num → Num → Num
  | .nan, _ => .nan
  | _, .nan => .nan
  | .inf a, .inf b => .inf (a != b)
  | .inf a, .fin n m _ => if m = 0 then .nan else .inf (a != n)
  | .fin n m _, .inf b => if m = 0 then .nan else .inf (b != n)
  | .fin na ma ea, .fin nb mb eb => .fin (na != nb) (ma * mb) (ea + eb)

/-- Order of two numbers that are not NaN; zeros are equal. -/
def Num.lt : Num → Num → Bool
  | .nan, _ => false
  | _, .nan => false
  | .inf a, .inf b => a && !b
  | .inf a, _ => a
  | _, .inf b => !b
  | .fin na ma ea, .fin nb mb eb =>
    let lo := min ea eb
    decide (scaled na ma ea lo < scaled nb mb eb lo)

def Num.ofInt (i : Int) : Num := .fin (decide (i < 0)) i.natAbs 0

/-- A multiplication by a power of two. -/
def Num.scale (k : Int) : Num → Num
  | .fin n m e => .fin n m (e + k)
  | x => x

/-! ### Rounding -/

/-- Round the magnitude m × 2^e (plus less than one unit of 2^e where `sticky`) to a multiple of 2^q, as that multiple. -/
def roundAt (mode : Rnd) (m : Nat) (e q : Int) (sticky : Bool) : Nat :=
  if q ≤ e then m * 2 ^ (e - q).toNat
  else
    let s := (q - e).toNat
    let hi := m / 2 ^ s
    let lo := m % 2 ^ s
    match mode with
    | .zero => hi
    | .even =>
      let half := 2 ^ (s - 1)
      if half < lo ∨ (lo = half ∧ sticky) then hi + 1
      else if lo = half then hi + hi % 2
      else hi
    | .stoch r => if r % 65536 < lo * 65536 / 2 ^ s then hi + 1 else hi

/-- How a format codes its top exponent: IEEE infinities and NaNs; one NaN code (E4M3); no special code. -/
inductive Top where
  | ieee | one | plain
  deriving DecidableEq, Repr

/-- A float format: exponent and fraction bits, bias, top codes, and whether it has subnormals. -/
structure Fmt where
  eb   : Nat
  fb   : Nat
  bias : Int
  top  : Top
  subn : Bool := true
  deriving DecidableEq, Repr

def fp32 : Fmt := ⟨8, 23, 127, .ieee, true⟩
def fp20 : Fmt := ⟨8, 11, 127, .ieee, false⟩
def bf16 : Fmt := ⟨8, 7, 127, .ieee, true⟩
def fp16 : Fmt := ⟨5, 10, 15, .ieee, true⟩
def e4m3 : Fmt := ⟨4, 3, 7, .one, true⟩
def e5m2 : Fmt := ⟨5, 2, 15, .ieee, true⟩
def e3m2 : Fmt := ⟨3, 2, 3, .plain, true⟩
def e2m3 : Fmt := ⟨2, 3, 1, .plain, true⟩
def e2m1 : Fmt := ⟨2, 1, 1, .plain, true⟩

/-- The format of the elements of a float or MX type (R11). -/
def fmtOf (t : Nat) : Option Fmt :=
  match t with
  | 0x01 => some fp32
  | 0x02 => some bf16
  | 0x03 => some fp16
  | 0x04 | 0x06 => some e4m3
  | 0x05 | 0x07 => some e5m2
  | 0x08 => some e3m2
  | 0x09 => some e2m3
  | 0x0A => some e2m1
  | 0x20 => some fp20
  | _ => none

/-- The code of the largest finite magnitude (R266). -/
def Fmt.maxCode (f : Fmt) : Nat :=
  match f.top with
  | .ieee => (2 ^ f.eb - 1) * 2 ^ f.fb - 1
  | .one => 2 ^ (f.eb + f.fb) - 2
  | .plain => 2 ^ (f.eb + f.fb) - 1

/-- The canonical quiet NaN (R266). -/
def Fmt.nanCode (f : Fmt) : Nat :=
  match f.top with
  | .ieee => (2 ^ f.eb - 1) * 2 ^ f.fb + 2 ^ (f.fb - 1)
  | .one => 2 ^ (f.eb + f.fb) - 1
  | .plain => 0

/-- The value of a magnitude code. -/
def Fmt.magnitude (f : Fmt) (neg : Bool) (c : Nat) : Num :=
  let ex := c / 2 ^ f.fb
  let fr := c % 2 ^ f.fb
  if f.top = .ieee ∧ ex = 2 ^ f.eb - 1 then (if fr = 0 then .inf neg else .nan)
  else if f.top = .one ∧ c = 2 ^ (f.eb + f.fb) - 1 then .nan
  else if ex = 0 then (if f.subn then .fin neg fr (1 - f.bias - f.fb) else .fin neg 0 0)
  else .fin neg (fr + 2 ^ f.fb) (ex - f.bias - f.fb)

/-- The value that a code holds. -/
def Fmt.decode (f : Fmt) (c : Nat) : Num :=
  f.magnitude (c.testBit (f.eb + f.fb)) (c % 2 ^ (f.eb + f.fb))

/-- Round a value to a format: its code and whether it saturated (R192, R265, R266). -/
def Fmt.encode (f : Fmt) (mode : Rnd) (x : Num) (sticky : Bool := false) : Nat × Bool :=
  let sgn (n : Bool) : Nat := if n then 2 ^ (f.eb + f.fb) else 0
  match x with
  | .nan => (f.nanCode, false)
  | .inf n => if f.top = .ieee then (sgn n + f.maxCode + 1, false) else (sgn n + f.maxCode, true)
  | .fin n 0 _ => (sgn n, false)
  | .fin n m e =>
    let ex : Int := Nat.log2 m + e
    let emin : Int := 1 - f.bias
    let ex' := if f.subn then max ex emin else ex
    let r := roundAt mode m e (ex' - f.fb) sticky
    if !f.subn && decide (ex' < emin ∧ (ex' + 1 < emin ∨ r < 2 ^ (f.fb + 1))) then (sgn n, false)
    else
      let c : Int := (ex' + f.bias) * 2 ^ f.fb + (r - 2 ^ f.fb)
      if (f.maxCode : Int) < c then (sgn n + f.maxCode, true) else (sgn n + c.toNat, false)

/-- Round a value to a format, as a value. -/
def Fmt.round (f : Fmt) (mode : Rnd) (x : Num) (sticky : Bool := false) : Res :=
  let c := f.encode mode x sticky
  { v := f.decode c.1, sat := c.2 }

/-! ### Elements -/

/-- An element: a float value, or an integer. -/
inductive Val where
  | flt (x : Num)
  | int (n : Int)
  deriving DecidableEq, Repr, Inhabited

/-- A type with integer elements (R11). -/
def isInt (t : Nat) : Bool := within t 0x10 0x15

/-- The limits of an integer type. -/
def intLimits (t : Nat) : Int × Int :=
  match t with
  | 0x10 => (-128, 127)
  | 0x11 => (0, 255)
  | 0x12 => (-32768, 32767)
  | 0x13 => (-2147483648, 2147483647)
  | 0x14 => (-9223372036854775808, 9223372036854775807)
  | _ => (-8, 7)

/-- The element that a code of a type holds; the block scale of an MX type is apart. -/
def decodeElem (t code : Nat) : Val :=
  match fmtOf t with
  | some f => .flt (f.decode (code % 2 ^ typeBits t))
  | none => if t = 0x11 then .int (code % 256 : Nat) else .int (signedOf (typeBits t) code)

/-- The exact number that an element stands for. -/
def Val.num : Val → Num
  | .flt x => x
  | .int n => Num.ofInt n

/-- Saturate an integer. -/
def clampInt (lo hi x : Int) : Int × Bool :=
  if x < lo then (lo, true) else if hi < x then (hi, true) else (x, false)

/-- Round a finite value to an integer. -/
def roundInt (mode : Rnd) (neg : Bool) (m : Nat) (e : Int) : Int :=
  let r : Int := roundAt mode m e 0 false
  if neg then -r else r

/-- The value of a conversion to an integer type: result, saturated, and whether a NaN became zero (R265). -/
def Val.toInt (t : Nat) (mode : Rnd) : Val → Int × Bool × Bool
  | .int n => let c := clampInt (intLimits t).1 (intLimits t).2 n; (c.1, c.2, false)
  | .flt .nan => (0, false, true)
  | .flt (.inf n) => (if n then (intLimits t).1 else (intLimits t).2, true, false)
  | .flt (.fin n m e) => let c := clampInt (intLimits t).1 (intLimits t).2 (roundInt mode n m e); (c.1, c.2, false)

/-- The code of a conversion to a type that is not an MX type, whether it saturated, and whether it made or met a NaN
(R264, R265). -/
def Val.toCode (t : Nat) (mode : Rnd) (v : Val) : Nat × Bool × Bool :=
  match fmtOf t with
  | some f =>
    match v with
    | .flt .nan => (f.nanCode, false, true)
    | _ => let c := f.encode mode v.num; (c.1, c.2, false)
  | none =>
    let r := v.toInt t mode
    ((r.1 % 2 ^ typeBits t).toNat, r.2.1, r.2.2)

/-- A conversion, as an element of the type. -/
def Val.toType (t : Nat) (mode : Rnd) (v : Val) : Val × Bool × Bool :=
  let c := v.toCode t mode
  (decodeElem t c.1, c.2)

/-- Non-zero under R223: neither zero of a float type, not 0; a NaN counts as non-zero. -/
def Val.nonZero : Val → Bool
  | .flt x => !x.isZero
  | .int n => n != 0

/-- The largest finite exponent of an MX element type (R266, emax). -/
def mxEmax (t : Nat) : Int :=
  match t with
  | 0x06 => 8
  | 0x07 => 15
  | 0x08 => 4
  | _ => 2

/-- The number that an E8M0 scale stands for; 0xFF is NaN (R195). -/
def e8m0 (s : Nat) : Num := if s = 0xFF then .nan else .fin false 1 ((s : Int) - 127)

/-- Convert one block of 32 elements to an MX type: scale, element codes, saturated elements (R268). -/
def mxBlock (t : Nat) (mode : Nat → Rnd) (vs : List Val) : Nat × List (Nat × Bool) :=
  let xs := vs.map Val.num
  if xs.any Num.isNan then (0xFF, xs.map fun _ => (0, false))
  else
    let mag : Num → Num := fun x => match x.abs with
      | .inf _ => fp32.decode fp32.maxCode
      | y => y
    let amax := xs.foldl (fun a x => if a.lt (mag x) then mag x else a) Num.zero
    match amax with
    | .fin _ (k + 1) e =>
      let ex : Int := Nat.log2 (k + 1) + e - mxEmax t
      let ex := max (-127) (min 127 ex)
      let f := (fmtOf t).getD e2m1
      let conv : Num → Nat → Nat × Bool := fun x i =>
        match x with
        | .inf n => ((if n then 2 ^ (f.eb + f.fb) else 0) + (if f.top = .ieee then f.maxCode + 1 else f.maxCode), f.top != .ieee)
        | y => f.encode (mode i) (y.scale (-ex))
      ((ex + 127).toNat, xs.zipIdx.map fun (x, i) => conv x i)
    | _ => (0x7F, xs.map fun _ => (0, false))

/-! ### fp32 and fp20 arithmetic -/

/-- One rounded sum or product of a format (R192, R251). -/
def Fmt.add (f : Fmt) (a b : Num) : Res := f.round .even (a.add b)
def Fmt.mul (f : Fmt) (a b : Num) : Res := f.round .even (a.mul b)

/-- A sum of fp32 terms with one rounding each, and whether any step saturated. -/
def sumF32 (start : Num) (l : List Num) : Res :=
  l.foldl (fun acc x => let r := fp32.add acc.v x; { v := r.v, sat := acc.sat || r.sat }) { v := start }

/-- A sum of fp32 terms in a free order (R201). -/
def sumFree (codes : Nat → Nat) (start : Num) (l : List Num) : Res := sumF32 start (permute codes l)

/-- The 32-bit code of an fp32 value. -/
def f32Code (x : Num) : BitVec 32 := BitVec.ofNat 32 (fp32.encode .even x).1

/-- The value of a 32-bit fp32 code. -/
def f32Of (c : BitVec 32) : Num := fp32.decode c.toNat

end Sys2Proof.Machine
end

