-- ==== Sys2Proof/Machine/Functions.lean ====
section
/-! DEFINITION. The function stages of the vector chain (R249, R251, R253, R254). The spec bounds each result and fixes
none: the result is a free value among the fp32 values within the bound of the exact result, which is computed here to
2^−200 (log entry 6, DESIGN CHOICE). -/
namespace Sys2Proof.Machine

/-- ln 2, 1 ÷ √2 and 2 ÷ √π in units of 2^−256. -/
def ln2Fix : Nat := 80260960185991308862233904206310070533990667611589946606122867505419956976171
def rsqrt2Fix : Nat := 81877371507464127617551201542979628307507432471243237061821853600756754782485
def erfScaleFix : Nat := 130657381209852114387528029350014196574164286124850014242073919076264802271585

/-- The integer square root, bit by bit. -/
def isqrt (n : Nat) : Nat :=
  ((List.range (Nat.log2 n / 2 + 1)).reverse).foldl (fun r i => if (r + 2 ^ i) * (r + 2 ^ i) ≤ n then r + 2 ^ i else r) 0

/-- The positive dyadic m × 2^e in units of 2^−256, rounded down. -/
def toFix (m : Nat) (e : Int) : Nat := if 0 ≤ e + 256 then m * 2 ^ (e + 256).toNat else m / 2 ^ (-(e + 256)).toNat

/-- e^x for x in units of 2^−256 and |x| ≤ 400. -/
def expFix (x : Int) : Num :=
  let k := x.fdiv ln2Fix
  let r := (x - k * ln2Fix).toNat
  let t := (List.range 60).foldl (fun (acc : Nat × Nat) n => (acc.1 + acc.2, acc.2 * r / 2 ^ 256 / (n + 1))) (0, 2 ^ 256)
  .fin false t.1 (k - 256)

/-- ln x for a positive dyadic, in units of 2^−256. -/
def lnFix (m : Nat) (e : Int) : Int :=
  let l := Nat.log2 m
  let f := toFix m (-(l : Int))
  let z := (f - 2 ^ 256) * 2 ^ 256 / (f + 2 ^ 256)
  let t := (List.range 90).foldl
    (fun (acc : Nat × Nat) n => (acc.1 + acc.2 / (2 * n + 1), acc.2 * z / 2 ^ 256 * z / 2 ^ 256)) (0, z)
  2 * (t.1 : Int) + (l + e) * (ln2Fix : Int)

/-- erf z for z in units of 2^−256 and z ≤ 8. -/
def erfFix (z : Nat) : Int :=
  let t := (List.range 400).foldl
    (fun (acc : Int × Nat) n =>
      (acc.1 + (if n % 2 = 0 then 1 else -1) * ((acc.2 / (2 * n + 1) : Nat) : Int), acc.2 * z / 2 ^ 256 * z / 2 ^ 256 / (n + 1)))
    (0, z)
  t.1 * erfScaleFix / 2 ^ 256

/-- The quotient of two positive dyadics to 300 bits. -/
def divNum (m : Nat) (e : Int) (m' : Nat) (e' : Int) : Num :=
  let s := 300 + Nat.log2 m'
  .fin false (m * 2 ^ s / m') (e - e' - s)

/-- x in units of 2^−256, held within ±400. -/
def argFix (neg : Bool) (m : Nat) (e : Int) : Int :=
  let lim : Int := 400 * 2 ^ 256
  if decide (9 ≤ Nat.log2 m + e) then (if neg then -lim else lim)
  else let v : Int := toFix m e; if neg then -v else v

/-- 1 ÷ (1 + e^−x). -/
def sigmoidNum (x : Int) : Num :=
  match (Num.fin false 1 0).add (expFix (-x)) with
  | .fin _ m e => divNum 1 0 m e
  | y => y

/-- The exact result of a function stage at a finite non-special input, to well below its bound; none where it is no
real number. -/
def fnExact (code : Nat) (neg : Bool) (m : Nat) (e : Int) : Option Num :=
  let x : Num := .fin neg m e
  match code with
  | 0x20 => some (expFix (argFix neg m e))
  | 0x21 => if neg then none else
      let l := lnFix m e
      some (.fin (decide (l < 0)) l.natAbs (-256))
  | 0x22 => some ((divNum 1 0 m e).mul (.fin neg 1 0))
  | 0x23 => if neg then none else
      let s : Nat := if (e % 2 : Int) = 0 then 400 else 401
      let r := isqrt (m * 2 ^ s)
      some (divNum 1 0 r ((e - s) / 2))
  | 0x25 => some (sigmoidNum (argFix neg m e))
  | 0x26 =>
      let a := if decide (Nat.log2 m + e < -40) then Num.fin false m e
        else match (expFix (2 * argFix false m e)).add (.fin true 1 0), (expFix (2 * argFix false m e)).add (.fin false 1 0) with
          | .fin _ a ea, .fin _ b eb => divNum a ea b eb
          | y, _ => y
      some (if neg then a.negate else a)
  | 0x27 =>
      let z := ((argFix false m e).toNat * rsqrt2Fix) / 2 ^ 256
      let er : Int := if 8 * 2 ^ 256 < z then 2 ^ 256 else erfFix z
      let one : Int := 2 ^ 256 + (if neg then -er else er)
      some (x.mul (.fin (decide (one < 0)) one.natAbs (-257)))
  | 0x28 => some (x.mul (sigmoidNum (argFix neg m e)))
  | _ => none

/-- The values at special inputs (R254), and NaN operands (R251). -/
def fnSpecial (code : Nat) (x : Num) : Option Num :=
  match code, x with
  | _, .nan => some .nan
  | 0x20, .inf n => some (if n then Num.zero else .inf false)
  | 0x20, .fin _ 0 _ => some (.fin false 1 0)
  | 0x21, .inf n => some (if n then .nan else .inf false)
  | 0x21, .fin _ 0 _ => some (.inf true)
  | 0x22, .inf n => some (.fin n 0 0)
  | 0x22, .fin n 0 _ => some (.inf n)
  | 0x23, .inf n => some (if n then .nan else Num.zero)
  | 0x23, .fin n 0 _ => some (.inf n)
  | 0x24, .inf n => some (if n then .nan else .inf false)
  | 0x24, .fin n 0 _ => some (.fin n 0 0)
  | 0x25, .inf n => some (if n then Num.zero else .fin false 1 0)
  | 0x25, .fin _ 0 _ => some (.fin false 1 (-1))
  | 0x26, .inf n => some (.fin n 1 0)
  | 0x26, .fin n 0 _ => some (.fin n 0 0)
  | 0x27, .inf n => some (if n then .fin true 0 0 else .inf false)
  | 0x27, .fin n 0 _ => some (.fin n 0 0)
  | 0x28, .inf n => some (if n then .fin true 0 0 else .inf false)
  | 0x28, .fin n 0 _ => some (.fin n 0 0)
  | _, _ => none

/-- One unit in the last place of fp32 at a value (R253). -/
def ulpAt (y : Num) : Num :=
  match y with
  | .fin _ m e => if m = 0 then .fin false 1 (-149) else .fin false 1 (max (Nat.log2 m + e) (-126) - 23)
  | _ => Num.zero

/-- The bound of R253 on a function stage. -/
def fnBound (code : Nat) (x y : Num) : Num :=
  let u := ulpAt y
  let times (k : Nat) : Num := u.mul (.fin false k 0)
  match code with
  | 0x22 => u
  | 0x20 | 0x23 => times 2
  | 0x21 =>
    if !(x.lt (.fin false 1 (-1))) && !((Num.fin false 2 0).lt x) then .fin false 1 (-23) else times 2
  | 0x25 | 0x26 => times 3
  | _ => if (times 4).lt (.fin false 1 (-26)) then .fin false 1 (-26) else times 4

/-- A free fp32 value within the bound of an exact result: the code chooses a point of the interval, whose nearest fp32
value is taken where it lies within the bound, and the nearest value of the result itself otherwise. -/
def chooseNear (code : Nat) (y bound : Num) : Res :=
  let t : Int := (code % 2 ^ 64 : Nat) - 2 ^ 63
  let v := fp32.round .even (y.add (bound.mul (.fin (decide (t < 0)) t.natAbs (-63))))
  if bound.lt ((v.v.add y.negate).abs) then fp32.round .even y else v

/-- A function stage at fp32: the free value at a finite input, the table's value at a special one, a NaN where the
result is no real number. -/
def fnStage (choice code : Nat) (x : Num) : Res :=
  match fnSpecial code x with
  | some v => { v := v }
  | none =>
    match x with
    | .fin neg m e =>
      if code = 0x24 then
        if neg then { v := .nan }
        else
          let s : Nat := if (e % 2 : Int) = 0 then 200 else 201
          let n := m * 2 ^ s
          let r := isqrt n
          fp32.round .even (.fin false r ((e - s) / 2)) (r * r != n)
      else match fnExact code neg m e with
        | none => { v := .nan }
        | some y => chooseNear choice y (fnBound code x y)
    | y => { v := y }

end Sys2Proof.Machine
end

