-- ==== Sys2Proof/Machine/Operands.lean ====
section
/-! DEFINITION. The operand forms of a node: where a tensor lies (R48, R105, R207, R325, R326), what bytes it covers in
each layout (R14, R49, R50, R219–R223, R231), and how one element is read and written in each. -/
namespace Sys2Proof.Machine

/-! ### Geometry -/

/-- Rows along DIM1 and DIM2. -/
def Tensor.rows (t : Tensor) : Nat := t.dim1 * t.dim2
def Tensor.bits (t : Tensor) : Nat := typeBits t.type
/-- Tiles of 32 × 32 elements (R50). -/
def Tensor.tiles (t : Tensor) : Nat := ceilDiv t.dim0 32 * ceilDiv t.dim1 32 * t.dim2
def Tensor.isMx (t : Tensor) : Bool := Machine.isMx t.type

/-- The tile of an element (R50). -/
def Tensor.tileOf (t : Tensor) (d0 d1 d2 : Nat) : Nat :=
  d0 / 32 + ceilDiv t.dim0 32 * (d1 / 32 + ceilDiv t.dim1 32 * d2)

/-- The bit offset of an element in a dense layout, 0x0 (or 0x2 stored dense) or 0x1 (R47, R50). -/
def Tensor.elemBit (t : Tensor) (d0 d1 d2 : Nat) : Nat :=
  if t.layout = 1 then (t.tileOf d0 d1 d2 * 1024 + d1 % 32 * 32 + d0 % 32) * t.bits
  else if t.pitch = 0 then (d0 + t.dim0 * (d1 + t.dim1 * d2)) * t.bits
  else (d1 + t.dim1 * d2) * t.pitch * 8 + d0 * t.bits

/-- Pair-of-four stored compressed (R219). -/
def Tensor.compressed (t : Tensor) : Bool := t.layout == 2 && t.aux != 0

/-- Bytes of the values of a row of a compressed pair-of-four tensor (R220). -/
def Tensor.p4Pitch (t : Tensor) : Nat := if t.pitch = 0 then t.dim0 / 2 * t.bits / 8 else t.pitch

/-- The bit offset of value `i` of a row of a compressed pair-of-four tensor (R220). -/
def Tensor.p4Bit (t : Tensor) (row i : Nat) : Nat := row * t.p4Pitch * 8 + i * t.bits

/-- Bytes of pair-of-four metadata (R220), and where the MX scales follow them (R222). -/
def Tensor.p4Meta (t : Tensor) : Nat := t.rows * t.dim0 / 8
def Tensor.p4Scales (t : Tensor) : Nat := roundUp (t.aux + t.p4Meta) 64

/-- The parts of a zero-bitmap tensor after its tile zero map (R231). -/
def Tensor.zbCounts (t : Tensor) : Nat := t.aux + ceilDiv t.tiles 64 * 8
def Tensor.zbBitmaps (t : Tensor) : Nat := roundUp (t.zbCounts + t.tiles * 2) 128

/-- The byte offset of the block scale of an element of an MX tensor (R49, R222). -/
def Tensor.scaleAt (t : Tensor) (d0 d1 d2 : Nat) : Nat :=
  let row := d1 + t.dim1 * d2
  if t.layout = 1 then t.aux + t.tileOf d0 d1 d2 * 32 + d1 % 32
  else if t.compressed then t.p4Scales + (row * (t.dim0 / 32) + d0 / 32)
  else t.aux + (row * (t.dim0 / 32) + d0 / 32)

/-- Block scales of an MX tensor. -/
def Tensor.blocks (t : Tensor) : Nat := if t.layout = 1 then t.tiles * 32 else t.rows * (t.dim0 / 32)

/-- Bytes from the tensor's start to the end of its last part, as its descriptor gives them (R105); layouts 0x4 to 0x6
have their own (R105, R127). -/
def Tensor.extent (t : Tensor) : Nat :=
  let values :=
    match t.layout with
    | 1 => t.tiles * 1024 * t.bits / 8
    | 3 => t.zbBitmaps + t.tiles * 128
    | _ =>
      if t.compressed then
        max ((t.rows - 1) * t.p4Pitch + t.dim0 / 2 * t.bits / 8) (t.aux + t.p4Meta)
      else if t.pitch = 0 then ceilDiv (t.dim0 * t.rows * t.bits) 8
      else (t.rows - 1) * t.pitch + ceilDiv (t.dim0 * t.bits) 8
  if t.isMx then
    max values ((if t.compressed then t.p4Scales else t.aux) + t.blocks)
  else values

/-- Bytes of an index of a bag list (R127). -/
def Tensor.idxBytes (t : Tensor) : Nat := if t.type = 0x14 then 8 else 4

/-- The byte ranges of a tensor from its first byte, row by row where its rows have a pitch, with its side data (R47, R49, R50, R127,
R220, R222, R231, R237); `n` is the entry count of a CSR or CSC tensor. -/
def Tensor.spans (t : Tensor) (n : Nat) : List (Nat × Nat) :=
  let arr (off len : Nat) : Nat × Nat := (off, off + len)
  let side (off : Nat) : List (Nat × Nat) := if t.isMx then [arr off t.blocks] else []
  let rows (pitch len : Nat) : List (Nat × Nat) := (List.range t.rows).map fun r => arr (r * pitch) len
  match t.layout with
  | 1 => arr 0 (t.tiles * 1024 * t.bits / 8) :: side t.aux
  | 3 => [arr 0 (t.tiles * 1024 * t.bits / 8), (t.aux, t.zbBitmaps + t.tiles * 128)]
  | 4 | 5 => [arr 0 (4 * n), arr t.aux (8 * (t.dim1 + 1))] ++ (if t.pitch = 0 then [] else [arr t.pitch (n * t.bits / 8)])
  | 6 => [arr 0 (t.dim0 * t.idxBytes)] ++ (if t.aux = 0 then [] else [arr t.aux ((t.dim1 + 1) * t.idxBytes)]) ++
      (if t.pitch = 0 then [] else [arr t.pitch (4 * t.dim0)])
  | _ =>
    if t.compressed then rows t.p4Pitch (t.dim0 / 2 * t.bits / 8) ++ arr t.aux t.p4Meta :: side t.p4Scales
    else (if t.pitch = 0 then [arr 0 (ceilDiv (t.dim0 * t.rows * t.bits) 8)]
      else rows t.pitch (ceilDiv (t.dim0 * t.bits) 8)) ++ side t.aux

/-! ### Reading bits -/

/-- `w` bits at a bit offset from a key (R5). -/
def Memory.bitsAt (mem : Memory) (key bit w : Nat) : Nat :=
  mem.num (key + bit / 8) ((bit % 8 + w + 7) / 8) / 2 ^ (bit % 8) % 2 ^ w

/-- Replace `w` bits at a bit offset from a key. -/
def Memory.putBits (mem : Memory) (key bit w v : Nat) : Memory :=
  let n := (bit % 8 + w + 7) / 8
  let old := mem.num (key + bit / 8) n
  let fieldv := old / 2 ^ (bit % 8) % 2 ^ w
  mem.writeN (key + bit / 8) (leBytes n (old - fieldv * 2 ^ (bit % 8) + v % 2 ^ w * 2 ^ (bit % 8)))

/-! ### Placed tensors -/

/-- A tensor with the key of its byte 0; `short` where it lies in the short accumulator area (R207). -/
structure Placed where
  t     : Tensor
  key   : Nat
  short : Bool := false
  deriving DecidableEq, Repr, Inhabited

/-- The block scale of an element, as a number; one where the type has none. -/
def Placed.scale (mem : Memory) (p : Placed) (d0 d1 d2 : Nat) : Num :=
  if p.t.isMx then e8m0 (mem.read (p.key + p.t.scaleAt d0 d1 d2)).toNat else .fin false 1 0

/-- The element at a bit offset, without its scale. A 32-bit integer of the short area holds 20 bits (R207). -/
def Placed.elemAt (mem : Memory) (p : Placed) (bit : Nat) : Val :=
  let c := mem.bitsAt p.key bit p.t.bits
  if p.short ∧ p.t.type = 0x13 then .int (signedOf 20 c) else decodeElem p.t.type c

/-- Zero of a type. -/
def zeroVal (t : Nat) : Val := if isInt t then .int 0 else .flt Num.zero

/-- A group of four of a pair-of-four tensor as a reader sees it: the elements kept, how many non-zero ones were dropped
under KEEP_TOP2, whether it held three or more, and whether its metadata code is invalid (R220–R228). -/
structure Group4 where
  vals    : List Val
  dropped : Nat
  many    : Bool
  invalid : Bool
  deriving DecidableEq, Repr, Inhabited

/-- `a` ranks above `b` by magnitude; a NaN above every number (R226). -/
def magAbove (a b : Val) : Bool :=
  if a.num.isNan then !b.num.isNan else if b.num.isNan then false else b.num.abs.lt a.num.abs

/-- The positions of the two elements of largest magnitude, the lower position first among equals, rising (R226). -/
def topTwo (l : List Val) : Nat × Nat :=
  let best (skip : Nat) : Nat :=
    (List.range 4).foldl (fun b i =>
      if i = skip then b
      else if b = 4 then i
      else if magAbove (l.getD i default) (l.getD b default) then i else b) 4
  let a := best 4
  let b := best a
  (min a b, max a b)

/-- Group `g` of row `row` (R220, R221, R223, R226). -/
def Placed.group4 (mem : Memory) (p : Placed) (row g : Nat) : Group4 :=
  if p.t.compressed then
    let code := mem.bitsAt (p.key + p.t.aux) ((row * (p.t.dim0 / 4) + g) * 4) 4
    let a := code % 4
    let b := code / 4
    if b ≤ a then { vals := List.replicate 4 (zeroVal p.t.type), dropped := 0, many := false, invalid := true }
    else
      { vals := ((List.replicate 4 (zeroVal p.t.type)).set a (p.elemAt mem (p.t.p4Bit row (2 * g)))).set b
          (p.elemAt mem (p.t.p4Bit row (2 * g + 1)))
        dropped := 0, many := false, invalid := false }
  else
    let l := (List.range 4).map fun i => p.elemAt mem (p.t.elemBit (4 * g + i) (row % p.t.dim1) (row / p.t.dim1))
    let nz := l.countP Val.nonZero
    if nz ≤ 2 then { vals := l, dropped := 0, many := false, invalid := false }
    else
      let k := topTwo l
      { vals := l.zipIdx.map fun (v, i) => if i = k.1 ∨ i = k.2 then v else zeroVal p.t.type
        dropped := nz - 2, many := true, invalid := false }

/-- The count, bitmap and map bit of a zero-bitmap tile (R231). -/
def Placed.zbCount (mem : Memory) (p : Placed) (tile : Nat) : Nat := mem.num (p.key + p.t.zbCounts + 2 * tile) 2
def Placed.zbBit (mem : Memory) (p : Placed) (tile i : Nat) : Bool :=
  mem.bitsAt (p.key + p.t.zbBitmaps + 128 * tile) i 1 == 1
def Placed.zbMap (mem : Memory) (p : Placed) (tile : Nat) : Bool := mem.bitsAt (p.key + p.t.aux) tile 1 == 1

/-- A tile is consistent (R233). -/
def Placed.zbOk (mem : Memory) (p : Placed) (tile : Nat) : Bool :=
  let n := (List.range 1024).countP fun i => p.zbBit mem tile i
  p.zbCount mem tile == n && (p.zbMap mem tile == (n == 0))

/-- The element without its block scale, in any of the layouts 0x0 to 0x3. -/
def Placed.raw (mem : Memory) (p : Placed) (d0 d1 d2 : Nat) : Val :=
  match p.t.layout with
  | 2 => ((p.group4 mem (d1 + p.t.dim1 * d2) (d0 / 4)).vals).getD (d0 % 4) default
  | 3 =>
    let tile := p.t.tileOf d0 d1 d2
    let i := d1 % 32 * 32 + d0 % 32
    if p.zbBit mem tile i then
      let rank := (List.range i).countP fun j => p.zbBit mem tile j
      p.elemAt mem ((tile * 1024 + rank) * p.t.bits)
    else zeroVal p.t.type
  | _ => p.elemAt mem (p.t.elemBit d0 d1 d2)

/-- The element, scaled. -/
def Placed.elem (mem : Memory) (p : Placed) (d0 d1 d2 : Nat) : Val :=
  match p.raw mem d0 d1 d2 with
  | .int n => .int n
  | .flt x => .flt (if p.t.isMx then x.mul (p.scale mem d0 d1 d2) else x)

/-- The element at a position, with extents of 1 broadcast. -/
def Placed.elemB (mem : Memory) (p : Placed) (d0 d1 d2 : Nat) : Val :=
  p.elem mem (if p.t.dim0 = 1 then 0 else d0) (if p.t.dim1 = 1 then 0 else d1) (if p.t.dim2 = 1 then 0 else d2)

/-- The stored code of an element, bit for bit; 0 where the reader sees a zero that no code stands for. -/
def Placed.codeAt (mem : Memory) (p : Placed) (d0 d1 d2 : Nat) : Nat :=
  let w := p.t.bits
  match p.t.layout with
  | 2 =>
    let row := d1 + p.t.dim1 * d2
    if p.t.compressed then
      let code := mem.bitsAt (p.key + p.t.aux) ((row * (p.t.dim0 / 4) + d0 / 4) * 4) 4
      if d0 % 4 = code % 4 then mem.bitsAt p.key (p.t.p4Bit row (d0 / 4 * 2)) w
      else if d0 % 4 = code / 4 then mem.bitsAt p.key (p.t.p4Bit row (d0 / 4 * 2 + 1)) w
      else 0
    else if (p.raw mem d0 d1 d2).nonZero || !(p.group4 mem row (d0 / 4)).many then mem.bitsAt p.key (p.t.elemBit d0 d1 d2) w
    else 0
  | 3 =>
    let tile := p.t.tileOf d0 d1 d2
    let i := d1 % 32 * 32 + d0 % 32
    if p.zbBit mem tile i then
      mem.bitsAt p.key ((tile * 1024 + (List.range i).countP fun j => p.zbBit mem tile j) * w) w
    else 0
  | _ => mem.bitsAt p.key (p.t.elemBit d0 d1 d2) w

/-! ### Pattern checks over a whole operand (R225–R228, R233) -/

/-- The FAULT policy applies: PAT 1, or PAT 0 on operand 1 of a MATMUL node (R225). -/
def Tensor.patFault (t : Tensor) (matmulB : Bool) : Bool := t.pat == 1 || (t.pat == 0 && matmulB)

/-- Every group of a pair-of-four tensor with its row and index. -/
def Placed.groups (mem : Memory) (p : Placed) : List (Nat × Nat × Group4) :=
  (List.range p.t.rows).flatMap fun row => (List.range (p.t.dim0 / 4)).map fun g => (row, g, p.group4 mem row g)

/-- The first element of tile `i` (R50). -/
def Tensor.tileAt (t : Tensor) (i : Nat) : Nat × Nat × Nat :=
  let w := ceilDiv t.dim0 32
  let h := ceilDiv t.dim1 32
  (i % w * 32, i / w % h * 32, i / w / h)

/-- The pattern faults of the groups or tiles that a reader reads: `reads` tells by the position of the first element. -/
def Placed.patternBad (mem : Memory) (p : Placed) (matmulB : Bool) (reads : Nat × Nat × Nat → Bool) : Bool :=
  match p.t.layout with
  | 2 => (p.groups mem).any fun (row, g, x) =>
    reads (4 * g, row % p.t.dim1, row / p.t.dim1) && (x.invalid || (x.many && p.t.patFault matmulB))
  | 3 => (List.range p.t.tiles).any fun i => reads (p.t.tileAt i) && !p.zbOk mem i
  | _ => false

/-- The operand tiles of 32 × 32 elements in which KEEP_TOP2 dropped an element, with how many (R226). -/
def Placed.dropTiles (mem : Memory) (p : Placed) (reads : Nat × Nat × Nat → Bool) : List (Nat × Nat) :=
  if p.t.layout = 2 then
    ((p.groups mem).filter fun (row, g, x) => reads (4 * g, row % p.t.dim1, row / p.t.dim1) && x.dropped != 0).foldl
      (fun acc (row, g, x) =>
        let tile := p.t.tileOf (4 * g) (row % p.t.dim1) (row / p.t.dim1)
        assocSet tile ((assocGet tile acc).getD 0 + x.dropped) acc) []
  else []

/-! ### Writing a result -/

/-- What a write recorded: elements saturated at any point, those that the final conversion saturated, those made NaN, and the compressor's
events. -/
structure WriteEv where
  sat     : Nat := 0
  conv    : Nat := 0
  nan     : Nat := 0
  cmpDrop : Nat := 0
  zTiles  : Nat := 0
  deriving DecidableEq, Repr, Inhabited

/-- The code of an fp32-class or integer result element for its stored form. -/
def storeElem (mem : Memory) (p : Placed) (bit code : Nat) : Memory :=
  if p.short then mem.putBits p.key bit 32 (code % 2 ^ 20) else mem.putBits p.key bit p.t.bits code

/-- The positions of a result in its storage order, tile padding included in layouts 0x1 and 0x3 (R50). -/
def Tensor.positions (t : Tensor) : List (Nat × Nat × Nat) :=
  if t.layout = 1 ∨ t.layout = 3 then
    (List.range t.dim2).flatMap fun d2 => (List.range (ceilDiv t.dim1 32)).flatMap fun b1 =>
      (List.range (ceilDiv t.dim0 32)).flatMap fun b0 => (List.range 1024).map fun i =>
        (b0 * 32 + i % 32, b1 * 32 + i / 32, d2)
  else
    (List.range t.dim2).flatMap fun d2 => (List.range t.dim1).flatMap fun d1 => (List.range t.dim0).map fun d0 => (d0, d1, d2)

def Tensor.inside (t : Tensor) (d : Nat × Nat × Nat) : Bool := decide (d.1 < t.dim0 ∧ d.2.1 < t.dim1 ∧ d.2.2 < t.dim2)

/-- Split a list into pieces of `n`. -/
def chunks {α : Type} (n : Nat) (l : List α) : List (List α) :=
  (List.range (ceilDiv l.length n)).map fun i => (l.drop (i * n)).take n

/-- One block or row group of a result converted to codes: each with its position, none where the element is not written. -/
abbrev Coded := List ((Nat × Nat × Nat) × Option Nat)

/-- An element of a result before its final conversion: its value, and whether it saturated or was made NaN before. -/
structure Elem where
  v   : Val
  sat : Bool := false
  nan : Bool := false
  deriving DecidableEq, Repr, Inhabited

/-- Convert the elements of a result (R205, R264, R265, R268): `f` gives each element, none where it is not to be
written (R263); an MX block with no element to write is not written. The rounding of element `i` is `rnd i` (R267). An element counts once as saturated and once as made NaN,
and a NaN that becomes an integer counts (R265). -/
def codeResult (t : Tensor) (rnd : Nat → Rnd) (f : Nat → Nat → Nat → Option Elem) :
    Coded × List ((Nat × Nat × Nat) × Nat) × WriteEv :=
  let ps := t.positions
  let val (d : Nat × Nat × Nat) : Option Elem :=
    if t.inside d then f d.1 d.2.1 d.2.2 else some { v := zeroVal t.type }
  if t.isMx then
    let bs : List (List (Nat × Nat × Nat) × List (Option Elem) × (Nat × List (Nat × Bool))) := (chunks 32 ps).zipIdx.map fun (blk, i) =>
      let es : List (Option Elem) := blk.map val
      (blk, es, mxBlock t.type (fun j => rnd (32 * i + j)) (es.map fun e => (e.map (·.v)).getD (zeroVal t.type)))
    let put := bs.filter fun b => b.2.1.any Option.isSome
    (bs.flatMap fun (blk, es, c) => blk.zip (c.2.map fun x => if es.any Option.isSome then some x.1 else none),
     put.map fun (blk, _, c) => (blk.headD (0, 0, 0), c.1),
     { sat := (bs.map fun b => (b.2.1.zip b.2.2.2).countP fun y => y.2.2 || (y.1.map (·.sat)).getD false).sum
       conv := (bs.map fun b => b.2.2.2.countP (·.2)).sum
       nan := (bs.map fun b => b.2.1.countP fun e => (e.map (·.nan)).getD false).sum })
  else
    let cs : List ((Nat × Nat × Nat) × Option (Elem × (Nat × Bool × Bool))) :=
      ps.zipIdx.map fun (d, i) => (d, (val d).map fun e => (e, e.v.toCode t.type (rnd i)))
    (cs.map fun (d, c) => (d, c.map (·.2.1)), [],
     { sat := cs.countP fun c => (c.2.map fun x => x.1.sat || x.2.2.1).getD false
       conv := cs.countP fun c => (c.2.map (·.2.2.1)).getD false
       nan := cs.countP fun c => (c.2.map fun x => x.1.nan || (isInt t.type && x.2.2.2)).getD false })

/-- Write the codes of a result in its layout (R205, R229–R232). -/
def writeCoded (mem : Memory) (p : Placed) (cs : Coded) : Memory × WriteEv :=
  match p.t.layout with
  | 2 =>
    let row (d : Nat × Nat × Nat) : Nat := d.2.1 + p.t.dim1 * d.2.2
    (chunks 4 cs).foldl (fun (acc : Memory × WriteEv) g =>
      let d := (g.headD ((0, 0, 0), none)).1
      let codes := g.map fun x => x.2.getD 0
      let vals := codes.map (decodeElem p.t.type)
      let k := topTwo vals
      let kept (i : Nat) : Bool := i == k.1 || i == k.2
      let drops := (List.range 4).countP fun i => !kept i && (vals.getD i default).nonZero
      let mem := acc.1
      let mem :=
        if p.t.compressed then
          let m1 := storeElem mem p (p.t.p4Bit (row d) (d.1 / 2)) (codes.getD k.1 0)
          let m2 := storeElem m1 p (p.t.p4Bit (row d) (d.1 / 2 + 1)) (codes.getD k.2 0)
          m2.putBits (p.key + p.t.aux) ((row d * (p.t.dim0 / 4) + d.1 / 4) * 4) 4 (k.1 + 4 * k.2)
        else
          (List.range 4).foldl (fun mm i =>
            storeElem mm p (p.t.elemBit (d.1 + i) d.2.1 d.2.2) (if kept i then codes.getD i 0 else 0)) mem
      (mem, { acc.2 with cmpDrop := acc.2.cmpDrop + drops })) (mem, {})
  | 3 =>
    (chunks 1024 cs).zipIdx.foldl (fun (acc : Memory × WriteEv) (tileCs, tile) =>
      let codes := tileCs.map fun x => x.2.getD 0
      let nz := codes.zipIdx.filter fun (c, _) => (decodeElem p.t.type c).nonZero
      let mem := nz.zipIdx.foldl (fun mm ((c, _), r) => storeElem mm p ((tile * 1024 + r) * p.t.bits) c) acc.1
      let mem := mem.writeN (p.key + p.t.zbCounts + 2 * tile) (leBytes 2 nz.length)
      let mem := mem.writeN (p.key + p.t.zbBitmaps + 128 * tile)
        (leBytes 128 ((nz.map fun (_, i) => 2 ^ i).sum))
      let mem := mem.putBits (p.key + p.t.aux) tile 1 (if nz.isEmpty then 1 else 0)
      (mem, { acc.2 with zTiles := acc.2.zTiles + (if nz.isEmpty then 1 else 0) })) (mem, {})
  | _ =>
    (cs.foldl (fun mm (d, c) => match c with
      | some c => storeElem mm p (p.t.elemBit d.1 d.2.1 d.2.2) c
      | none => mm) mem, {})

/-- Convert and write a whole result. -/
def writeResult (mem : Memory) (p : Placed) (rnd : Nat → Rnd) (f : Nat → Nat → Nat → Option Elem) : Memory × WriteEv :=
  let c := codeResult p.t rnd f
  let w := writeCoded mem p c.1
  let mem := c.2.1.foldl (fun mm (d, s) => mm.write (p.key + p.t.scaleAt d.1 d.2.1 d.2.2) (BitVec.ofNat 8 s)) w.1
  (mem, { sat := c.2.2.sat, conv := c.2.2.conv, nan := c.2.2.nan, cmpDrop := w.2.cmpDrop, zTiles := w.2.zTiles })

/-- A final rounding mode from a RND or MODE field, with the draws of the bench's generator (R256, R267). -/
def rndOf (field : Nat) (draws : Nat → Nat) (i : Nat) : Rnd :=
  match field with
  | 0 => .even
  | 1 => .zero
  | _ => .stoch (draws i)

end Sys2Proof.Machine
end

