-- ==== Sys2Proof/Machine/Flags.lean ====
section
/-! DEFINITION. Statuses of operations (R15, R59), flag bytes of output tiles (R199) and how they combine. -/
namespace Sys2Proof.Machine

/-- A tolerated event turns OK into OK_FLAGGED and leaves every other status (R15, R59). -/
def flagIf (event : Bool) (st : Nat) : Nat := if event && st == stOk then stFlagged else st

/-- The highest-coded of two statuses (R59). -/
def worse (a b : Nat) : Nat := max a b

/-- What the operand tokens of a firing say (R59): `inl` the status of the lowest-numbered port without a valid result;
`inr` OK, or OK_FLAGGED when any token carried it. -/
def tokensStatus (ts : List (Nat × Nat)) : Nat ⊕ Nat :=
  let bad := ts.filter fun t => !resultValid t.2
  match bad.foldl (fun (b : Option (Nat × Nat)) t => match b with
      | none => some t
      | some x => if t.1 < x.1 then some t else some x) none with
  | some t => .inl t.2
  | none => .inr (flagIf (ts.any fun t => t.2 == stFlagged) stOk)

/-- The flag byte of an output tile (R199). -/
structure TileFlags where
  sat   : Bool := false
  nan   : Bool := false
  pdrop : Bool := false
  deriving DecidableEq, Repr, Inhabited

def TileFlags.byte (f : TileFlags) : Nat := f.sat.toNat + 2 * f.nan.toNat + 4 * f.pdrop.toNat

def TileFlags.or (a b : TileFlags) : TileFlags :=
  { sat := a.sat || b.sat, nan := a.nan || b.nan, pdrop := a.pdrop || b.pdrop }

end Sys2Proof.Machine
end

