-- ==== Sys2Proof/Machine/Deliver.lean ====
section
/-! DEFINITION. Completions: the tally's record, delivery by push and by mailbox, and the entries of a queue pair
(R360–R375, R457–R459). -/
namespace Sys2Proof.Machine

/-! ### Spans of bytes -/

/-- Add `[lo, hi)` to a rising list of disjoint spans. -/
def addSpan (lo hi : Nat) : List (Nat × Nat) → List (Nat × Nat)
  | [] => [(lo, hi)]
  | (a, b) :: t =>
    if hi < a then (lo, hi) :: (a, b) :: t
    else if b < lo then (a, b) :: addSpan lo hi t
    else addSpan (min lo a) (max hi b) t

/-! ### Entries of a queue pair (R457, R459, R465) -/

/-- A queue pair can send: its port's link is up and not paused (R450, R460), it is not in the error state, no Receiver Not
Ready holds it, and its ring has space (R457). -/
def Module.canSend (m : Module) (x : QueuePair) : Bool :=
  m.ctr.link.getD x.port false && (m.ctr.paused.getD x.port none).isNone && !x.err && !x.rnr &&
    !(x.ringMode && decide (x.ringlen ≤ (x.prod - x.cons).toNat))

/-- Send one entry on a queue pair (R457). -/
def Module.sendEntry (m : Module) (x : QueuePair) (e : QEvent) : Module :=
  let at_ := if x.ringMode then some (x.ringaddr + x.prod.toNat % x.ringlen * 64) else none
  let m := (m.send (.entry x.num at_ e)).setQp x.num fun y => { y with prod := y.prod + 1, lastSent := some e }
  match e with
  | .completion _ => m
  | .notice _ _ => m.count (ctrR 0x080) 0 32

/-- The NOTICE_LOST that goes ahead of the next notice of a queue pair (R465, R467). -/
def Module.sendLost (m : Module) (x : QueuePair) : Module :=
  let n : Notice := { sev := 2, code := 0x0109, member := m.member, ptn := none, nseq := m.ctr.nseq, obj := 0, ltime := m.ltime
                      detail := slice (leBytes 4 x.num ++ leBytes 4 x.lostN) 0 40 }
  ((m.setCtr fun c => { c with nseq := c.nseq + 1 }).sendEntry x (.notice n m.ltime)).setQp x.num fun y => { y with lostN := 0 }

/-- Hand the head of a queue pair's waiting entries to the wire, as far as it can send. -/
def Module.pump (m : Module) (q : Nat) : Module :=
  go (((m.qp q).map fun x => x.outq.length + 1).getD 0) m
where
  go : Nat → Module → Module
    | 0, m => m
    | n + 1, m =>
      match m.qp q with
      | none => m
      | some x =>
        match x.outq with
        | [] => m
        | e :: rest =>
          if !m.canSend x then m
          else match e with
            | .notice _ _ =>
              if x.lostN ≠ 0 then go n (m.sendLost x)
              else go n ((m.sendEntry x e).setQp q fun y => { y with outq := rest })
            | .completion _ => go n ((m.sendEntry x e).setQp q fun y => { y with outq := rest })

/-- Queue a completion entry: ahead of every waiting notice, behind every waiting completion; the notices about its request that
were kept back for it follow (R459, R465). A queue pair that is closed or in the error state takes none (R460). -/
def Module.enqueue (m : Module) (q : Nat) (c : Completion) : Module :=
  match m.qp q with
  | none => m
  | some x =>
    if x.err then m
    else
      let isC : QEvent → Bool := fun e => match e with
        | .completion _ => true
        | _ => false
      let mine : Notice → Bool := fun n => n.obj == c.reqid.toNat && n.ptn == some c.ptn
      (m.setQp q fun y => { y with outq := y.outq.takeWhile isC ++ [.completion c] ++ y.outq.dropWhile isC ++ (y.behind.filter mine).map fun n => .notice n m.ltime
                                   behind := y.behind.filter fun n => !mine n }).pump q

/-! ### The tally (R363, R365) -/

def Module.tallyOf (m : Module) (p : Nat) (reqid : Word) : Option TallyEntry := (m.ptn p).tally.find? fun e => e.reqid == reqid

def Module.setTally (m : Module) (p : Nat) (reqid : Word) (f : TallyEntry → TallyEntry) : Module :=
  m.setPtn p fun x => { x with tally := updWhere (fun e => e.reqid == reqid) f x.tally }

/-- The tally twin of a member (R368). -/
def Module.tallyTwin (m : Module) (k : Nat) : Option Nat :=
  let g := m.guildSize
  ((List.range g).map fun j => (k + g / 2 + j) % g).find? fun x => x != k && m.isJoined x

/-- The local deadline of a command, none without a budget (R354). -/
def TallyEntry.deadline (e : TallyEntry) : Option Nat :=
  if e.budget = 0 then none else some (e.arrival + e.budget * 1000 - e.elapsed * 1000)

/-! ### Delivery (R364, R370, R373–R376) -/

/-- Bytes of a list of result pieces. -/
def piecesLen (rs : List (List (Nat × List Byte))) : Nat := ((rs.flatMap fun r => r.map fun p => p.2.length)).sum

/-- The mailbox payload: the result entries end to end, each from a multiple of 64 bytes (R350). -/
def mailboxPayload (rs : List (List (Nat × List Byte))) : List Byte :=
  rs.foldl (fun acc r =>
    let acc := if r.isEmpty then acc else slice acc 0 (roundUp acc.length 64)
    let len := (r.map fun p => p.1 + p.2.length).foldl max 0
    acc ++ (List.range len).map fun i =>
      ((r.findSome? fun p => if p.1 ≤ i then p.2[i - p.1]? else none).getD 0)) []

/-- What a delivery carries. -/
structure Answer where
  status  : Nat
  flags   : Nat
  reqid   : Word
  opc     : Nat
  ptn     : Nat
  member  : Nat
  value   : Nat
  elapsed : Nat
  results : List (List (Nat × List Byte))
  deriving DecidableEq, Repr, Inhabited

def Answer.completion (a : Answer) (d : Delivery) (flags length value : Nat) : Completion :=
  { status := a.status, flags := flags, cseq := d.cseq, reqid := a.reqid, opc := a.opc, ptn := a.ptn, member := a.member
    length := length, value := value, elapsed := a.elapsed }

/-- Results by RDMA WRITE, each within its entry's LEN, then the completion entry (R373). -/
def Module.deliverPush (m : Module) (a : Answer) (d : Delivery) (extra : Nat) : Module :=
  let live := ((m.qp d.qp).map fun x => !x.err).getD false
  let rs := if resultValid a.status && live then a.results else []
  let writes := (rs.zip d.outs).flatMap fun (r, (addr, key, len)) =>
    r.filterMap fun (off, bs) => if off < len then some (addr + off, key, bs.take (len - off)) else none
  let m := writes.foldl (fun mm (addr, key, bs) => mm.send (.rdmaWrite d.qp addr key bs)) m
  m.enqueue d.qp (a.completion d (a.flags + extra) ((writes.map fun w => w.2.2.length).sum) a.value)

/-- The slot's payload, then its header READY in one write, then a completion entry when CQE asks (R375). -/
def Module.deliverMailbox (m : Module) (a : Answer) (d : Delivery) : Module :=
  match m.qp d.qp with
  | none => m
  | some q =>
    let payload := if resultValid a.status ∧ d.slot < q.slots.length then (mailboxPayload a.results).take q.slotcap else []
    let m := m.store (mboxKey d.qp (d.slot * (64 + q.slotcap) + 64)) payload
    let m := m.setQp d.qp fun x =>
      { x with slots := x.slots.modify d.slot fun sl =>
          { sl with reqid := a.reqid, state := 2, status := a.status, flags := a.flags % 4, length := payload.length
                    cseq := d.cseq, fills := sl.fills + 1, readyAt := m.ltime
                    crc := if payload.isEmpty then 0 else crc32c payload } }
    if d.flags.toNat.testBit 1 then
      m.enqueue d.qp (a.completion d (a.flags + 16) payload.length d.slot)
    else m

/-- Deliver a completion in the mode its capsule asked for (R349); on a queue pair that is closed or in the error state it is
not delivered (R460). -/
def Module.deliver (m : Module) (a : Answer) (d : Delivery) : Module :=
  if ((m.qp d.qp).map (·.err)).getD true then m
  else if d.flags.toNat.testBit 0 then m.deliverMailbox a d else m.deliverPush a d 0

/-- The data of a COMMAND reply: completion flags, elapsed time, then each result with its spans (log entry 7, DESIGN CHOICE). -/
def replyData (a : Answer) : List Byte :=
  leBytes 2 a.flags ++ leBytes 4 a.elapsed ++ leBytes 1 a.results.length ++ a.results.flatMap fun r =>
    leBytes 2 r.length ++ r.flatMap fun (off, bs) => leBytes 4 off ++ leBytes 4 bs.length ++ bs

/-- The completion of a duplicate (R364): flag DUP; a mailbox record names its slot; a push record is written again
where its result is at hand and the duplicate is in push mode, and otherwise NORESULT says that a valid result is not
delivered. A duplicate that another member received is answered there. Each is counted. -/
def Module.answerDup (m : Module) (a : Answer) (e : TallyEntry) (atHand : Bool) (o : Origin) : Module :=
  let valid := resultValid a.status
  let push := atHand && !o.capsule.flags.toNat.testBit 0 && e.mailbox.isNone
  let m := m.count (ptnR a.ptn 0xD8) 32 32
  match o.own with
  | some d =>
    match e.mailbox with
    | some (_, slot) => m.enqueue d.qp (a.completion d (a.flags + 4 + 16) e.length slot)
    | none =>
      if push then m.deliverPush a d 4
      else m.enqueue d.qp (a.completion d (a.flags + 4 + (if valid then 8 else 0)) 0 a.value)
  | none =>
    let flags := a.flags + 4 + (if e.mailbox.isSome then 16 else if push || !valid then 0 else 8)
    let value := match e.mailbox with
      | some (_, slot) => slot
      | none => a.value
    m.sendTo o.recv 0 (.reply o.capsule (replyData { a with flags := flags, results := if push then a.results else [] }) a.status value)

/-- The 64-byte header of a capsule (R349). -/
def headerBytes (c : Capsule) : List Byte :=
  leBytes 1 c.opc.toNat ++ leBytes 1 c.flags.toNat ++ leBytes 1 c.ptn.toNat ++ leBytes 1 c.policy.toNat ++
    leBytes 2 c.inlen.toNat ++ leBytes 1 c.target.toNat ++ leBytes 1 c.rsv07.toNat ++ leBytes 8 c.reqid.toNat ++
    leBytes 8 c.handle.toNat ++ leBytes 4 c.budget.toNat ++ leBytes 4 c.cseq.toNat ++ leBytes 1 c.nin.toNat ++
    leBytes 1 c.nout.toNat ++ leBytes 2 c.listoff.toNat ++ leBytes 2 c.npin.toNat ++ leBytes 2 c.pinoff.toNat ++
    leBytes 8 c.arg0.toNat ++ leBytes 8 c.arg1.toNat ++ leBytes 8 c.arg2.toNat

/-- The capsule whose header and inline area begin a byte string (R349), and the bytes that follow. -/
def capsuleOf (bs : List Byte) : Capsule × List Byte :=
  let n (o k : Nat) : Nat := fieldAt bs o k
  let b (o : Nat) : Byte := BitVec.ofNat 8 (n o 1)
  let h (o : Nat) : BitVec 16 := BitVec.ofNat 16 (n o 2)
  let w (o : Nat) : BitVec 32 := BitVec.ofNat 32 (n o 4)
  let d (o : Nat) : Word := BitVec.ofNat 64 (n o 8)
  ({ opc := b 0, flags := b 1, ptn := b 2, policy := b 3, inlen := h 4, target := b 6, rsv07 := b 7, reqid := d 8
     handle := d 0x10, budget := w 0x18, cseq := w 0x1C, nin := b 0x20, nout := b 0x21, listoff := h 0x22, npin := h 0x24
     pinoff := h 0x26, arg0 := d 0x28, arg1 := d 0x30, arg2 := d 0x38, inl := slice bs 64 (n 4 2) },
   bs.drop (64 + n 4 2))

/-- A tally record as it travels to a twin (R366, R368; log entry 19, DESIGN CHOICE). -/
def tallyBytes (e : TallyEntry) : List Byte :=
  leBytes 8 e.reqid.toNat ++ leBytes 1 e.opc ++ leBytes 1 (e.done.toNat + 2 * e.late.toNat + 4 * e.flagged.toNat) ++
    leBytes 1 e.status ++ leBytes 1 e.recv ++ leBytes 4 e.budget ++ leBytes 4 e.elapsed ++ leBytes 8 e.length ++
    leBytes 8 e.value ++ leBytes 4 ((e.mailbox.map (·.1)).getD (2 ^ 32 - 1)) ++ leBytes 4 ((e.mailbox.map (·.2)).getD 0) ++
    slice e.digest 0 36 ++ (match e.capsule with
      | some c => headerBytes c ++ c.inl
      | none => [])

/-- The record that arrives from member `src` (R366, R368, R443). -/
def tallyOfBytes (now src : Nat) (bs : List Byte) : TallyEntry :=
  let n (o k : Nat) : Nat := fieldAt bs o k
  let f := n 9 1
  { reqid := BitVec.ofNat 64 (n 0 8), opc := n 8 1, done := f % 2 == 1, late := f / 2 % 2 == 1, flagged := f / 4 % 2 == 1
    status := n 10 1, recv := n 11 1, budget := n 12 4, elapsed := n 16 4, length := n 20 8, value := n 28 8
    mailbox := if n 36 4 = 2 ^ 32 - 1 then none else some (n 36 4, n 40 4)
    digest := slice bs 44 36, arrival := now, doneAt := now, effectful := true, heldFor := some src
    capsule := if bs.length < 144 then none else some (capsuleOf (bs.drop 80)).1 }

/-- The record of a completed request as an answer. -/
def Module.answerOf (m : Module) (p : Nat) (e : TallyEntry) : Answer :=
  { status := e.status, flags := e.late.toNat + 2 * e.flagged.toNat, reqid := e.reqid, opc := e.opc, ptn := p
    member := m.member, value := e.value, elapsed := (e.doneAt - e.arrival) / 1000, results := e.results }

/-- Record the completion of a command in the tally (R360, R363, R366), deliver it to its capsule and to every attached
one (R364), and post MISSED in a real-time partition (R361). -/
def Module.recordDone (m : Module) (p : Nat) (reqid : Word) (status value : Nat)
    (results : List (List (Nat × List Byte)) := []) : Module :=
  match m.tallyOf p reqid with
  | none => m
  | some e =>
    if e.done then m
    else
      let late := match e.deadline with
        | none => false
        | some t => decide (t < m.ltime)
      let ok := status == stOk || status == stFlagged
      let st := if late && ok then stLate else status
      let keep := match e.own with
        | some d => !d.flags.toNat.testBit 0 && d.flags.toNat.testBit 2
        | none => (e.capsule.map fun c => c.flags.toNat.testBit 2).getD false
      let len := if resultValid st then piecesLen results else 0
      let done : TallyEntry :=
        { e with done := true, doneAt := m.ltime, status := st, late := late && !ok
                 flagged := late && status == stFlagged, length := len, value := value
                 results := results, retained := keep && resultValid st }
      let a := m.answerOf p done
      let m := m.setTally p reqid fun _ =>
        { done with results := if done.retained then results else [], attached := [] }
      let m := if late then m.count (ptnR p 0xD0) 0 32 else m
      let m := match e.effectful, m.tallyTwin m.member with
        | true, some t => m.sendTo t 3 (.bulk 2 p (tallyBytes done))
        | _, _ => m
      let m := match e.own with
        | some d => m.deliver a d
        | none =>
          if e.recv = m.member then m
          else match e.capsule with
            | some c => m.sendTo e.recv 0 (.reply c (replyData a) st value)
            | none => m
      let m := e.attached.foldl (fun mm o => mm.answerDup a done true o) m
      if late && (m.draft p).part.mode == 1 then
        m.post 0x0301 (some p) reqid.toNat
          (leBytes 8 reqid.toNat ++ leBytes 4 e.budget ++
            leBytes 4 ((m.ltime - (e.deadline.getD 0)) / 1000) ++ leBytes 1 st)
      else m

/-- Complete a command that was admitted with no result: its status and value (R351). -/
def Module.complete (m : Module) (p : Nat) (reqid : Word) (status : Nat) (value : Nat := 0) : Module :=
  m.recordDone p reqid status value

end Sys2Proof.Machine
end

