-- ==== Sys2Proof/Machine/Agree.lean ====
section
/-! DEFINITION. Messages of agreements (R94, R169, R404, R405): epochs, and when a member has drained and reports READY.
What a member sends to the warden's role on itself, or the warden to itself, comes back as a command (log entry 20, DESIGN CHOICE). -/
namespace Sys2Proof.Machine

/-- An epoch above every epoch used or seen (R405). -/
def Module.newEpoch (m : Module) : Nat := max m.guild.epoch m.guild.epochSeen + 1

/-- A message to the warden. -/
def Module.toWarden (m : Module) (x : FabMsg) : Module := m.packet m.guild.warden 0 x

/-- A message to every JOINED member. -/
def Module.toJoined (m : Module) (x : FabMsg) : Module := m.joinedList.foldl (fun (m : Module) d => m.packet d 0 x) m

/-- A word of a group table (R414). -/
def groupWord (t : WordMap) (n : Nat) : Word := sparseGet (fun _ => 0) t n

/-- The groups whose entries differ between two tables (R414). -/
def changedGroups (a b : WordMap) : List Nat :=
  (List.range 256).filter fun g => (List.range 16).any fun i => groupWord a (g * 16 + i) != groupWord b (g * 16 + i)

/-- This member holds a copy of a shard of a table (R118). -/
def Module.holds (m : Module) (t : PlacementRec) : Bool := decide (0 < t.copies m.guildSize m.member)

/-- Nothing of a partition runs that a draft activation waits for: instances and collectives (R94, R427). -/
def Module.quiet (m : Module) (p : Nat) : Bool :=
  !(m.insts.any fun i => i.ptn == p) && !(m.rwk.colls.any fun c => c.ptn == p && c.ended.isNone)

/-- An edition of a table by number. -/
def Table.edition (t : Table) (e : Nat) : Option Edition := t.editions.find? fun x => x.num == e

/-- The number of the CURRENT edition of a table. -/
def Table.currentNum (x : Table) : Nat := ((x.editions.find? fun e => e.state == .current).map (·.num)).getD 0

/-- The tables that a flip of a table flips: itself, and the other tables of the guild graph whose offsets it holds (R284). -/
def Module.flipTables (m : Module) (t : Nat) : List Nat :=
  match (m.ptns.flatMap (·.ggraphs)).find? fun g => g.offs == t with
  | none => [t]
  | some g => g.tables

/-- The edition of a table that a flip makes CURRENT: the one named, and of a table that follows it its SEALED one (R284). -/
def Table.flipTo (x : Table) (t e : Nat) : Option Edition :=
  if x.place.table = t then x.edition e else x.editions.find? fun y => y.state == .sealed

/-- Why a member does not report READY for a flip (R169, R284): 3 no such edition, 1 one that is not SEALED, 2 a RETIRING
edition. A member without a copy has nothing to check. -/
def Module.flipFault (m : Module) (t e : Nat) : Option Nat :=
  let xs := (m.flipTables t).filterMap fun n => (m.table n).filter fun x => m.holds x.place
  if xs.any fun x => x.place.table == t && (x.edition e).isNone then some 3
  else if xs.any fun x => ((x.flipTo t e).map (·.state)) != some .sealed then some 1
  else if xs.any fun x => x.editions.any fun y => y.state == .retiring then some 2
  else none

/-- A table of which a member holds a copy has a BUILDING edition here (R443). -/
def Module.building (m : Module) (k : Nat) : Bool :=
  m.tables.any fun x => decide (0 < x.place.copies m.guildSize k) && x.editions.any fun e => e.state == .building

/-- A source of a rebuild tells the warden once its first pass is over and no table of the member is being built: no page
is left but those marked since, fewer than 64 (R443 step 3). -/
def Module.checkRebuilds (m : Module) : Module :=
  m.guild.rebuilds.foldl (fun (m : Module) r =>
    if r.told || m.building r.member || decide (64 ≤ r.marks.length) then m
    else
      (m.setGuild fun g => { g with rebuilds := updWhere (fun x => x.member == r.member) (fun x => { x with told := true }) g.rebuilds }).toWarden
        (.rebuildReady r.member)) m

/-- The condition of a member's READY (R94, R169, R414). -/
def Module.agreeDone (m : Module) : Agreement → Bool
  | .draftActivate p => m.quiet p.val
  | .draftUnload p => m.quiet p.val
  | .flip t e => (m.flipFault t e).isNone
  | .group t =>
    let ch := changedGroups m.rwk.inForce t
    !(m.rwk.colls.any fun c => c.ended.isNone && ch.contains c.grp)
  | .charter _ => true
  | .join k _ _ => !m.building k.val

/-- A member that waits to report READY does so once nothing keeps it (R94 step 7, R169 step 3, R414). -/
def Module.checkReady (m : Module) : Module :=
  match m.guild.agr with
  | none => m
  | some a =>
    if a.reported.isNone && a.done.isNone && m.agreeDone a.agr then
      (m.setGuild fun g => { g with agr := some { a with reported := some true } }).toWarden (.report a.epoch .ready)
    else m

end Sys2Proof.Machine
end

