-- ==== Sys2Proof/Machine/Deltas.lean ====
section
/-! DEFINITION. Pending deltas of the combining buffers as every reader sees them (R150, R151, R310). -/
namespace Sys2Proof.Machine

/-- A delta of a combining entry as a value: fp32, or int64 for integer rows (R150). -/
def deltaVal (type : Nat) (w : Word) : Val := if isInt type then .int w.toInt else .flt (f32Of (w.setWidth 32))

/-- A delta as it is kept (R150): saturated to its own type. -/
def deltaWord (type : Nat) (v : Val) : Word :=
  if isInt type then BitVec.ofNat 64 (v.toCode 0x14 .even).1 else (f32Code v.num).setWidth 64

/-- The sum of two values of one class. -/
def plusVal : Val → Val → Val
  | .int a, .int b => .int (a + b)
  | a, b => .flt (a.num.add b.num)

/-- The bytes of a line with deltas added, each element rounded once to nearest even to the row type, with the number of
elements that saturated (R151). -/
def addDeltas (type : Nat) (bytes : List Byte) (deltas : List Word) : List Byte × Nat :=
  let w := typeBits type / 8
  let cs := deltas.zipIdx.map fun (d, i) =>
    (plusVal (decodeElem type (fieldAt bytes (i * w) w)) (deltaVal type d)).toCode type .even
  (cs.flatMap fun c => leBytes w c.1, cs.countP fun c => c.2.1)

def Module.combOf (m : Module) (line : Nat) : Option CombEntry := m.querns.findSome? fun q => q.comb.find? fun e => e.line == line

/-- A line as every reader sees it: as the write-back of a pending delta would leave it (R151, R310). -/
def Module.lineView (m : Module) (line : Nat) : List Byte :=
  let raw := m.mem.readN (line * 128) 128
  match m.combOf line with
  | some e => (addDeltas e.type raw e.deltas).1
  | none => raw

/-- Bytes of memory as every reader sees them. -/
def Module.view (m : Module) (key n : Nat) : List Byte :=
  if m.querns.all fun q => q.comb.isEmpty then m.mem.readN key n
  else
    let l0 := key / 128
    ((List.range ((key + n - 1) / 128 - l0 + 1)).flatMap fun i => m.lineView (l0 + i)).drop (key % 128) |>.take n

/-- The module as a node reads it: every line with its pending delta applied (R310). -/
def Module.opened (m : Module) : Module :=
  { m with mem := (m.querns.flatMap (·.comb)).foldl (fun mm e =>
      mm.writeN (e.line * 128) (addDeltas e.type (m.mem.readN (e.line * 128) 128) e.deltas).1) m.mem }

/-- What a node that read `m.opened` left behind (R310): a line that it did not write keeps its pending delta; one that
it wrote was written back first. -/
def Module.closed (m : Module) (after : Module) : Module :=
  let m0 := m.opened
  (m.querns.flatMap (·.comb)).foldl (fun (x : Module) e =>
    let k := e.line * 128
    if x.mem.readN k 128 = m0.mem.readN k 128 then { x with mem := x.mem.writeN k (m.mem.readN k 128) }
    else { x with querns := x.querns.map fun q => { q with comb := q.comb.filter fun y => y.line != e.line } }) after

end Sys2Proof.Machine
end

