-- ==== Sys2Proof/Machine/Cache.lean ====
section
/-! DEFINITION. The memory path below the streams: where a key lies and how a stack maps it (R303), the regulators (R311–R313), the
caches over a stack (R143, R144, R305, R310) and accesses of the channel path (R305–R311, R315). -/
namespace Sys2Proof.Machine

/-! ### Where a key lies -/

/-- The region allocation that a key belongs to (log entry 3, DESIGN CHOICE). -/
def Module.regionOfKey (m : Module) (key : Nat) : Option RegionSt :=
  if 2 ^ 50 ≤ key ∧ key < 2 ^ 90 then m.allRegions.find? fun g => g.serial == (key - 2 ^ 50) / 2 ^ 41 else none

/-- The local address of a key (R104). -/
def Module.keyAddr (m : Module) (key : Nat) : Nat :=
  match m.regionOfKey key with
  | some g =>
    let off := (key - 2 ^ 50) % 2 ^ 41
    g.pageAddr (off / 2 ^ g.info.shift) + off % 2 ^ g.info.shift
  | none => key

/-- The stack of a key. -/
def Module.stackOfKey (m : Module) (key : Nat) : Nat := m.keyAddr key / 2 ^ 36

/-- The partition that owns the page of a key (R311). -/
def Module.ownerOfKey (m : Module) (key : Nat) : Option Nat :=
  if 2 ^ 50 ≤ key ∧ key < 2 ^ 90 then
    (List.range 8).find? fun p => let x := m.ptn p
      (x.regions ++ x.stagedRegions ++ x.candRegions).any fun g => g.serial == (key - 2 ^ 50) / 2 ^ 41
  else none

/-- The keys of a page of a region. -/
def RegionSt.pageKey (g : RegionSt) (page : Nat) : Nat := regionKey g.serial (page * 2 ^ g.info.shift)

/-- The lines of a byte range. -/
def linesOf (key len : Nat) : List Nat := (List.range ((key + len - 1) / 128 - key / 128 + 1)).map (key / 128 + ·)

/-- A line lies in a range of keys. -/
def lineIn (lo hi line : Nat) : Bool := decide (lo < line * 128 + 128 ∧ line * 128 < hi)

/-- The keyed hash H of bits [35:14] of a stack offset (R303). -/
def Module.offsetHash (m : Module) (s off : Nat) : Nat := Config.offsetHash m.asy.hashKey s (off / 2 ^ 14 % 2 ^ 22)

/-- The pseudo-channel of a stack offset: bits [13:8] XOR the low six bits of H (R303). -/
def Module.channelOf (m : Module) (s off : Nat) : Nat := (off / 2 ^ 8 % 64) ^^^ (m.offsetHash s off % 64)

/-- The DRAM row of a stack offset: its pseudo-channel, and the bank and row that the rest of H gives (R303). -/
def Module.rowOf (m : Module) (s off : Nat) : Nat := m.channelOf s off + 64 * (m.offsetHash s off / 64)

/-! ### Regulators (R311–R313) -/

/-- The share of its bandwidth that a throttle step leaves a stack, in 256ths (R509). -/
def stepFrac : Nat → Nat
  | 0 => 256
  | 1 => 192
  | 2 => 128
  | _ => 64

/-- The charge of one DRAM access (R311). -/
def chargeOf (bytes : Nat) : Nat :=
  if 2048 ≤ bytes then bytes
  else if 256 ≤ bytes then ceilDiv (23 * bytes) 10
  else if 128 < bytes then 588
  else if 64 < bytes then 294
  else if 32 < bytes then 155
  else 88

def Draft.regulator (d : Draft) (s : Nat) : Option RegulatorRec := d.regulators.find? fun r => r.stack == s

/-- Bytes in 256ths of a byte for each nanosecond that a record's bucket fills by (R312, R313). -/
def Module.fillRate (m : Module) (s : Nat) (r : RegulatorRec) : Nat := r.rate * stepFrac (m.quern s).step

/-- The tokens of a partition's bucket now: it fills at RATE, up to BURST (R312). -/
def Module.tokensNow (m : Module) (s p : Nat) : Nat :=
  match (m.draft p).regulator s with
  | none => 0
  | some r =>
    let q := m.quern s
    min (r.burst * 1024) (q.tokens.getD p 0 + m.fillRate s r * (m.ltime - q.fillAt) / 256)

/-- Bring every bucket of a stack up to the present. -/
def Module.refill (m : Module) (s : Nat) : Module :=
  m.setQuern s fun q => { q with tokens := (List.range 8).map (m.tokensNow s), fillAt := m.ltime }

/-- Charge an access to the partition that owns the page (R311, R312): a bucket that holds the charge pays it; one that
is short waits for it under CAP, and otherwise the access is served without. -/
def Module.charge (m : Module) (s p n : Nat) : Module :=
  let all := (m.quern s).chargeRem.getD p 0 + n
  let m := m.count (qrnR s (0x180 + 8 * p)) 0 64 (all / 1024)
  let m := m.setQuern s fun q => { q with chargeRem := q.chargeRem.set p (all % 1024) }
  match (m.draft p).regulator s with
  | none => m
  | some r =>
    let m := m.refill s
    let have_ := (m.quern s).tokens.getD p 0
    let pay (m : Module) : Module :=
      m.setQuern s fun q => { q with tokens := q.tokens.set p (q.tokens.getD p 0 - n) }
    if n ≤ have_ then pay m
    else if r.cap = 1 then
      pay ((m.until_ (m.ltime + ceilDiv ((n - have_) * 256) (max 1 (m.fillRate s r)))).refill s)
    else m

/-- Charge an access to a key, where a partition owns it. -/
def Module.chargeKey (m : Module) (s key bytes : Nat) : Module :=
  match m.ownerOfKey key with
  | some p => m.charge s p (chargeOf bytes)
  | none => m

/-- A poisoned sector lies in a range of keys (R319). -/
def Module.poisonedIn (m : Module) (key len : Nat) : Bool :=
  m.querns.any fun q => q.poisoned.any fun s => decide (s * 32 < key + len ∧ key < s * 32 + 32)

/-- A 64-bit word of tile SRAM within a range of keys has a double-bit error (R317). -/
def Module.tileBroken (m : Module) (lo hi : Nat) : Bool := m.tileBad.any fun w => decide (w * 8 < hi ∧ lo < w * 8 + 8)

/-- A write clears the poison of every sector that it covers whole (R319), and codes every word of tile SRAM anew that it covers
whole (R317). -/
def Module.clearPoison (m : Module) (key len : Nat) : Module :=
  { m with tileBad := m.tileBad.filter fun w => !decide (key ≤ w * 8 ∧ w * 8 + 8 ≤ key + len)
           querns := m.querns.map fun q =>
      { q with poisoned := q.poisoned.filter fun s => !decide (key ≤ s * 32 ∧ s * 32 + 32 ≤ key + len) } }

/-! ### Combining entries written back (R151, R152) -/

/-- Write a combining entry back and free it (R151, R152); a poisoned sector keeps its poison and the deltas of the line
are discarded (R319). -/
def Module.writeBack (m : Module) (s line : Nat) : Module :=
  match (m.quern s).comb.find? fun e => e.line == line with
  | none => m
  | some e =>
    let m := m.setQuern s fun q => { q with comb := q.comb.filter (·.line != line) }
    let m := (m.count (qrnR s 0x050) 0 32).charge s e.ptn 588
    if m.poisonedIn (line * 128) 128 then m
    else
      let r := addDeltas e.type (m.mem.readN (line * 128) 128) e.deltas
      (m.store (line * 128) r.1).count (qrnR s 0x058) 0 32 r.2

/-! ### Caches over a stack (R143, R144, R305) -/

/-- The way mask of a partition in a pair of mask registers (R144, R305). -/
def Module.wayMask (m : Module) (r0 p : Nat) : Nat := m.fld (r0 + p / 4 * 8) (p % 4 * 16) 16

/-- Install a line: a way with RRV 3 within the mask, an empty way counting as one, after every way of the set within
the mask has aged as often as it takes (R143). The pick among several is free. The replaced line is given back. -/
def installLine (ls : List CacheLine) (set mask line : Nat) (dirty : Bool) (pick : Nat) :
    List CacheLine × Option CacheLine :=
  let ways := bitsSet 16 mask
  if ways.isEmpty then (ls, none)
  else
    let at_ (w : Nat) : Option CacheLine := ls.find? fun c => c.set == set && c.way == w
    let rrvOf (w : Nat) : Nat := ((at_ w).map (·.rrv)).getD 3
    let age := 3 - (ways.map rrvOf).foldl max 0
    let full := ways.filter fun w => rrvOf w + age == 3
    let w := full.getD (pick % full.length) 0
    let aged := ls.map fun c => if c.set = set ∧ mask.testBit c.way then { c with rrv := c.rrv + age } else c
    ((aged.filter fun c => !(c.set == set && c.way == w)) ++ [{ set := set, way := w, line := line, rrv := 2, dirty := dirty }],
     at_ w)

/-- A hit sets the re-reference value that its hint asks for (R143, R305). -/
def touchLine (ls : List CacheLine) (line hint : Nat) : List CacheLine :=
  updWhere (fun c => c.line == line)
    (fun c => { c with rrv := if hint = 1 then 0 else if hint = 2 then 3 else c.rrv }) ls

/-- Write back and count the dirty lines of a hall cache that a test picks; they stay valid and clean (R307, R308, R311). -/
def Module.cleanCache (m : Module) (h : Nat) (p : CacheLine → Bool) : Module :=
  let ls := (m.hall h).cache.filter fun c => c.dirty && p c
  let m := ls.foldl (fun (m : Module) c => m.chargeKey (m.stackOfKey (c.line * 128)) (c.line * 128) 128) m
  (m.setHall h fun x => { x with cache := updWhere p (fun c => { c with dirty := false }) x.cache }).count
    (halR h 0x1B0) 0 32 ls.length

/-- Drop the lines of a hall cache that a test picks. -/
def Module.dropCache (m : Module) (h : Nat) (p : CacheLine → Bool) : Module :=
  m.setHall h fun x => { x with cache := x.cache.filter fun c => !p c }

/-- A fill tracks a line. -/
def Fill.has (f : Fill) (line : Nat) : Bool := decide (f.line ≤ line ∧ line < f.line + f.count)

/-- A stack controller sends an invalidation of a line to the owning hall's cache, and counts it; a fill outstanding is delivered and
not installed (R310). -/
def Module.snoop (m : Module) (s line : Nat) : Module :=
  let h := s / 5
  let m := m.setHall h fun x =>
    { x with cache := x.cache.filter (·.line != line)
             fills := updWhere (fun f => f.has line) (fun f => { f with snooped := f.snooped ++ [line] }) x.fills }
  m.count (halR h 0x1B0) 32 32

/-- A row of an open segment covers a line: the segment is attached to its window entry (R139). -/
def SegRow.lines (r : SegRow) (b : Nat) : List Nat :=
  (List.range ((r.key + b - 1) / 128 - r.key / 128 + 1)).map (r.key / 128 + ·)

def Module.attached (m : Module) (s line : Nat) : Bool :=
  (m.quern s).segs.any fun g => g.isOpen && g.rows.any fun r =>
    (r.lines (((m.table g.table).map fun t => t.place.rowBytes).getD 1)).contains line

/-- A write to a line of a table page, or an accepted add, invalidates hot-row lines and retired window entries, and
marks attached window entries stale (R151, R310). -/
def Module.staleLine (m : Module) (s line : Nat) (hrc : Bool) : Module :=
  let keep := m.attached s line
  m.setQuern s fun q =>
    { q with hrc := if hrc then q.hrc.filter (·.line != line) else q.hrc
             win := if keep then updWhere (fun w => w.line == line) (fun w => { w with stale := true }) q.win
                    else q.win.filter (·.line != line) }

/-- What a write of a range of keys by a node invalidates beside its stack: hot-row lines and window entries of a table page (R310). -/
def Module.staleSpan (m : Module) (lo hi : Nat) : Module :=
  if hi ≤ lo then m
  else match m.regionOfKey lo, m.ownerOfKey lo with
    | some g, some p =>
      if m.isTableRegion p g.info.rgn then
        (linesOf lo (hi - lo)).foldl (fun (m : Module) l => m.staleLine (m.stackOfKey (l * 128)) l true) m
      else m
    | _, _ => m

/-- Every hot-row line and retired window entry that covers a range of keys is invalidated (R146). -/
def Module.dropRows (m : Module) (lo hi : Nat) : Module :=
  (List.range 20).foldl (fun (m : Module) s => m.setQuern s fun q =>
    { q with hrc := q.hrc.filter fun c => !lineIn lo hi c.line
             win := q.win.filter fun w => !lineIn lo hi w.line || m.attached s w.line }) m

/-- Install a line in a hall cache of 32,768 sets, within the partition's way mask; a dirty line that it replaces is written
back first (R305). -/
def Module.install (m : Module) (h p line : Nat) (dirty : Bool) : Module :=
  let x := m.pick 16
  let m := x.2
  let mask := m.wayMask (halR h 0x188) p
  let r := installLine (m.hall h).cache (Config.cacheSet line % 32768) mask line dirty x.1
  let m := m.setHall h fun y => { y with cache := r.1 }
  match r.2 with
  | some old =>
    if old.dirty then (m.chargeKey (m.stackOfKey (old.line * 128)) (old.line * 128) 128).count (halR h 0x1B0) 0 32 else m
  | none => m

/-- A line is in a hall cache. -/
def Module.cached (m : Module) (h line : Nat) : Bool := (m.hall h).cache.any (·.line == line)

/-- An access finds its line in the cache: counted, with the re-reference value that its hint asks for (R305). -/
def Module.cacheHit (m : Module) (h line hint : Nat) : Module :=
  (m.setHall h fun x => { x with cache := touchLine x.cache line hint }).count (halR h 0x1A0) 0 64

/-- The bytes of `[key, key + len)` that lie in a line. -/
def partOf (key len line : Nat) : Nat := min (key + len) (line * 128 + 128) - max key (line * 128)

/-! ### Accesses of the channel path (R305–R311, R315) -/

/-- The hint that a hall cache follows: stream-through while it is off (R307). -/
def Module.hintAt (m : Module) (h hint : Nat) : Nat := if m.fld (halR h 0x180) 0 1 = 0 then 0 else hint

/-- A miss of a partition under a hint is installed: under keep, unless the partition's way mask is zero (R305). -/
def Module.keeps (m : Module) (h p hint : Nat) : Bool := m.hintAt h hint == 1 && m.wayMask (halR h 0x188) p != 0

/-- The lines of an access that a test picks, as DRAM requests of contiguous lines (R306). -/
def lineRuns (p : Nat → Bool) : List Nat → List (List Nat)
  | [] => []
  | l :: ls =>
    if p l then
      match lineRuns p ls with
      | (x :: r) :: rest => if x = l + 1 then (l :: x :: r) :: rest else [l] :: (x :: r) :: rest
      | _ => [[l]]
    else lineRuns p ls

/-- The DRAM requests of an access that take a miss register: the lines that a read misses, and under keep the lines that a write misses
and covers only in part (R305, R306). -/
def Module.missRuns (m : Module) (p key len hint : Nat) (table write : Bool) : List (List Nat) :=
  let h := m.stackOfKey key / 5
  let miss (l : Nat) : Bool := !m.cached h l
  if !write then lineRuns miss (linesOf key len)
  else if table || !m.keeps h p hint then []
  else lineRuns (fun l => miss l && decide (partOf key len l < 128)) (linesOf key len)

/-- Request tags of a stack in use: the channel path holds one for each fill outstanding, the quern one for each fetch of its window
(R315). -/
def Module.channelTags (m : Module) (s : Nat) : Nat := (m.hall (s / 5)).fills.countP fun f => m.stackOfKey (f.line * 128) == s
def Module.quernTags (m : Module) (s : Nat) : Nat := (m.quern s).win.countP fun w => !w.fetched && !w.fromHrc

/-- A side of a stack controller can take `n` more tags: 8,192 are its own, and 8,192 shared with the other side, whose own 8,192 it
never takes (R315). -/
def tagsFree (mine other n : Nat) : Bool := decide (mine + n ≤ 8192 + (8192 - (other - 8192)))

/-- An access need not be held back: the miss registers of the owning hall and the tags of the stack suffice for its misses (R306,
R315). -/
def Module.canAccess (m : Module) (p key len hint : Nat) (table write : Bool) : Bool :=
  let s := m.stackOfKey key
  let n := (m.missRuns p key len hint table write).length
  n == 0 || (decide ((m.hall (s / 5)).fills.length + n ≤ 4096) && tagsFree (m.channelTags s) (m.quernTags s) n)

/-- A fill returns: each of its lines is installed, unless an invalidation has met it or the cache is off; what a write left in a line
that is not installed goes to DRAM (R305, R306, R310). -/
def Module.landFill (m : Module) (h : Nat) (f : Fill) : Module :=
  ((List.range f.count).map (f.line + ·)).foldl (fun (m : Module) l =>
    if f.install && !f.snooped.contains l && !m.cached h l && m.fld (halR h 0x180) 0 1 == 1 then m.install h f.ptn l f.dirty
    else if f.dirty then m.chargeKey (m.stackOfKey (l * 128)) (l * 128) 128 else m) m

/-- A DRAM request for contiguous lines is issued: its lines count as misses and are charged. It holds a miss register until it
returns, and returns at once where the access is complete with the step (`now`). A line under a pending delta is not installed (R305,
R306, R310, R311). -/
def Module.startFill (m : Module) (s p : Nat) (ls : List Nat) (install dirty now : Bool) : Module :=
  let h := s / 5
  let f : Fill := { line := ls.headD 0, count := ls.length, ptn := p, install := install, dirty := dirty
                    snooped := ls.filter fun l => (m.combOf l).isSome }
  let m := (m.count (halR h 0x1A8) 0 64 ls.length).chargeKey s (f.line * 128) (128 * ls.length)
  if now then m.landFill h f else m.setHall h fun x => { x with fills := x.fills ++ [f] }

/-- One access of the channel path within a 2 KiB span: what it does to the owning hall's cache under its hint, and the charge of the
bytes that it moves to or from DRAM (R305, R306, R310, R311). A write to a table page goes through; any other updates its line in the
cache. -/
def Module.access (m : Module) (hall p key len hint : Nat) (table write now : Bool) : Module :=
  if len = 0 then m
  else
    let s := m.stackOfKey key
    let h := s / 5
    let ls := linesOf key len
    let hits := ls.filter (m.cached h)
    let runs := m.missRuns p key len hint table write
    let keep := m.keeps h p hint
    let m := if h = hall then m else m.count (halR h 0x1B8) 0 64 ls.length
    let m := hits.foldl (fun (m : Module) l => m.cacheHit h l (m.hintAt h hint)) m
    if !write then runs.foldl (fun (m : Module) r => m.startFill s p r keep false now) m
    else if table then m.chargeKey s key len
    else
      let m := m.setHall h fun x => { x with cache := updWhere (fun c => hits.contains c.line) (fun c => { c with dirty := true }) x.cache }
      if keep then
        let m := runs.foldl (fun (m : Module) r => m.startFill s p r true true now) m
        (ls.filter fun l => !hits.contains l && partOf key len l == 128).foldl (fun (m : Module) l => m.install h p l true) m
      else
        (lineRuns (fun l => !hits.contains l) ls).foldl (fun (m : Module) r =>
          m.chargeKey s (r.headD 0 * 128) (r.map (partOf key len)).sum) m

/-- A range of keys as its parts in aligned 2 KiB spans (R306). -/
def spanCuts (key len : Nat) : List (Nat × Nat) :=
  if len = 0 then []
  else (List.range ((key + len - 1) / 2048 - key / 2048 + 1)).map fun i =>
    let lo := max key ((key / 2048 + i) * 2048)
    (lo, min (key + len) ((key / 2048 + i + 1) * 2048) - lo)

/-- The key of a region address. -/
def Module.raKey (m : Module) (p ra : Nat) : Option Nat := (m.regionAt p ra).map fun g => regionKey g.serial (ra - g.info.base)

/-- A region address lies in a table's region. -/
def Module.tableAt (m : Module) (p ra : Nat) : Bool := ((m.regionAt p ra).map fun g => m.isTableRegion p g.info.rgn).getD false

/-- Accesses that move `len` bytes at a region address whole within the step, one for each 2 KiB span (R305, R306). -/
def Module.accessAll (m : Module) (hall p ra len hint : Nat) (write : Bool) : Module :=
  match m.raKey p ra with
  | some key => (spanCuts key len).foldl (fun (m : Module) x => m.access hall p x.1 x.2 hint (m.tableAt p ra) write true) m
  | none => m

end Sys2Proof.Machine
end

