-- ==== Sys2Proof/Machine/Firing.lean ====
section
/-! DEFINITION. A firing under way: its tensors and where they lie (R48, R105, R207, R325, R326), how it ends or halts
(R59, R61, R206, R337), and the streams it reserves (R327–R330). -/
namespace Sys2Proof.Machine

/-- A firing with its instance, graph and node. -/
structure Firing where
  e : MatchEntry
  i : Inst
  g : Graph
  n : Node
  deriving DecidableEq, Repr, Inhabited

def Firing.ptn (f : Firing) : Nat := f.i.ptn
def Firing.key (f : Firing) : FKey := f.e.key
/-- The bench that runs the firing (device-wide). -/
def Firing.bench (f : Firing) : Nat := f.e.bench.getD 0

/-- The firing of a match entry. -/
def Module.firing (m : Module) (k : FKey) : Option Firing := do
  let e ← m.entry k
  let (i, g, n) ← m.nodeOf k
  some { e := e, i := i, g := g, n := n }

/-- A firing holds while the clock of one of its benches is stopped, or of a bench of its chain or fused group (R444, R511). -/
def Module.holdsFor (m : Module) (k : FKey) : Bool :=
  let ks := k :: m.groups.flatMap fun g => if g.prod == k || g.cons == k then [g.prod, g.cons] else []
  ks.any fun x => match m.entry x with
    | some e => (e.bench.toList ++ e.benches).any m.benchStopped
    | none => false

/-- A firing of a class that executes, has launched and has not yet run, and is not halted or held. -/
def Module.running (m : Module) (k : FKey) (op : Nat) : Option Firing :=
  (m.firing k).filter fun f =>
    f.n.op == op && !m.holdsFor k && f.e.state == .executing && f.e.launched && !f.e.ran && f.e.haltAt.isNone &&
      ((f.e.bench.map fun b => (m.bench b).busy == some k).getD true)

/-! ### The node's fields and tensors -/

def Node.par (n : Node) (lo w : Nat) : Nat := bitsOf n.param lo w

/-- The ports of a MATMUL node's preload and epilogue tensors (R180). -/
def prePort (n : Node) : Option Nat := if n.par 4 2 = 1 ∨ n.par 4 2 = 2 then some 2 else none
def epiPort (n : Node) : Option Nat := if n.par 6 2 = 0 then none else some (if (prePort n).isSome then 3 else 2)

/-- The tensor of a static port. -/
def Graph.staticTensor (g : Graph) (n : Node) (p : Nat) : Option Tensor :=
  if p < n.nports ∧ !n.dyn.testBit p then g.tensors[n.opnd.getD p 0xFFFF]? else none

def Graph.resTensor (g : Graph) (n : Node) (r : Nat) : Option Tensor :=
  let x := n.res.getD r 0xFFFF
  if x = 0xFFFF then none else g.tensors[x]?

/-- The token that a firing holds at a port. -/
def MatchEntry.token (e : MatchEntry) (p : Nat) : Option Token := (e.tokens.find? fun t => t.1 == p).map fun t => t.2.1

def tokKind (t : Token) : Nat := t.pk.toNat / 8 % 4
def tokPort (t : Token) : Nat := t.pk.toNat % 8

/-- The tensor that a port names for a firing: static, or by a DATA token (R522). -/
def Firing.tensor (f : Firing) (p : Nat) : Option Tensor :=
  if f.n.dyn.testBit p then
    match f.e.token p with
    | some t => if tokKind t = 0 then f.g.tensors[t.value.toNat]? else none
    | none => none
  else f.g.staticTensor f.n p

def Firing.res (f : Firing) (r : Nat) : Option Tensor := f.g.resTensor f.n r

/-- Every tensor of a firing, with its port number, or 8 + result number (R332). -/
def Firing.allTensors (f : Firing) : List (Nat × Tensor) :=
  ((List.range f.n.nports).filterMap fun p => (f.tensor p).map fun t => (p, t)) ++
    (List.range 2).filterMap fun r => (f.res r).map fun t => (8 + r, t)

/-- Byte offsets in the graph image of a field of a node and of a tensor (R53). -/
def Graph.nodeAt (g : Graph) (n : Node) (off : Nat) : Nat := fieldAt g.image 0x20 8 + 64 * n.index + off
def Graph.tensorAt (g : Graph) (x off : Nat) : Nat := fieldAt g.image 0x28 8 + 32 * x + off

/-- One rule of a class: whether it holds, and the image offset that GRAPH_REFUSED reports where it does not. -/
abbrev Rule := Bool × Nat

/-- A class's rules on a node, over the tensors that are known (R523): at graph load those of static ports. -/
structure RuleEnv where
  g  : Graph
  n  : Node
  d  : Draft
  op : Nat → Option Tensor

/-- The known tensor of a result. -/
def RuleEnv.res (x : RuleEnv) (r : Nat) : Option Tensor := x.g.resTensor x.n r

/-- A rule on a port's tensor, at one of the tensor's fields; it holds where the tensor is not known. -/
def RuleEnv.onPort (x : RuleEnv) (p off : Nat) (ok : Tensor → Bool) : Rule :=
  (((x.op p).map ok).getD true, x.g.tensorAt (x.n.opnd.getD p 0) off)

def RuleEnv.onRes (x : RuleEnv) (r off : Nat) (ok : Tensor → Bool) : Rule :=
  (((x.res r).map ok).getD true, x.g.tensorAt (x.n.res.getD r 0) off)

/-- A rule on the node itself. -/
def RuleEnv.onNode (x : RuleEnv) (off : Nat) (ok : Bool) : Rule := (ok, x.g.nodeAt x.n off)

/-- Two known tensors agree; it holds where either is not known. -/
def both (a b : Option Tensor) (ok : Tensor → Tensor → Bool) : Bool :=
  match a, b with
  | some x, some y => ok x y
  | _, _ => true

/-- The rule environment of a firing, with every port's tensor. -/
def Firing.env (f : Firing) (d : Draft) : RuleEnv := { g := f.g, n := f.n, d := d, op := f.tensor }

/-! ### Where a tensor lies -/

/-- Why an access stops a firing: a status with the translation fault it records and the memory loss behind it (R440),
or a halt at an absent page (R337). -/
inductive Stop where
  | fault (status : Nat) (x : Option (Nat × Nat × Nat)) (lost : Nat)
  | halt (page port : Nat)
  deriving DecidableEq, Repr, Inhabited

/-- FAULT_ADDRESS with nothing more. -/
def Stop.addr : Stop := .fault stFaultAddress none 0

/-- The region address of the first byte of an instance's arena (R325). -/
def Module.arenaRa (m : Module) (i : Inst) : Nat :=
  ((m.regionNo i.ptn (m.draft i.ptn).part.arenaRgn).map (·.info.base)).getD 0 + i.arenaBase

/-- The ACC view rule of R207 on a tensor in SPACE TILE. -/
def accOk (t : Tensor) : Bool :=
  let area := t.addr / 0x4000
  t.layout == 0 && t.pitch == 0 && t.dim0 == 32 && within t.dim1 32 128 && t.dim1 % 32 == 0 && t.dim2 == 1 &&
    ((within t.addr 0x5F8000 0x5FBFFF && (t.type == 0x01 || t.type == 0x13)) ||
      (within t.addr 0x5FC000 0x5FFFFF && (t.type == 0x20 || t.type == 0x13))) &&
    (t.addr + t.extent - 1) / 0x4000 == area

/-- A tensor in SPACE TILE is addressable by a work graph: not the stream area (R326), the ACC view only under R207,
nothing beyond 6 MiB (R48). -/
def tileOk (t : Tensor) (len : Nat) : Bool :=
  if t.addr + len ≤ 0x4F8000 then true
  else if t.addr < 0x5F8000 then false
  else accOk t

/-- The region address and length that a streamed tensor covers, where it lies in a region. -/
def Module.tensorRa (m : Module) (f : Firing) (t : Tensor) : Option Nat :=
  match t.space with
  | 0 => some t.addr
  | 2 => some (m.arenaRa f.i + t.addr)
  | _ => none

/-- The key of the hand-over tensor on a weave pipe: what a producer without WB writes and a consumer reads (R344). -/
def Module.pipeKey (m : Module) (k : FKey) (port : Nat) : Option Nat :=
  (m.groups.find? fun g => ((g.cons == k && port == 0) || (g.prod == k && port == 8 && !g.wb))).map
    fun g => bufKey g.buf 0

/-- A producer with WB passes the tensor down the pipe besides writing it (R344). -/
def Module.pipeCopy (m : Module) (k : FKey) (key off len : Nat) : Module :=
  match m.groups.find? fun g => g.prod == k && g.wb with
  | some g => { m with mem := m.mem.copy (key + off) (bufKey g.buf off) len }
  | none => m

/-- Place `len` bytes of a tensor of a firing for reading or writing (`perm`), on the bench `b` (R48, R104, R105); a read of
tile SRAM with a double-bit error ends the firing (R317). -/
def Module.place (m : Module) (f : Firing) (b port : Nat) (t : Tensor) (len perm : Nat) : Except Stop Placed :=
  let M := streamMaster (f.e.hall)
  let region (ra : Nat) : Except Stop Placed :=
    match m.translate f.ptn M ra len perm with
    | .ok key _ =>
      if perm = permRead ∧ m.poisonedIn key len then .error (.fault stFaultAddress none 2)
      else .ok { t := t, key := key }
    | .fault st cause => .error (.fault st (some (ra, cause, perm)) (if cause = 4 then 1 else 0))
    | .halt page => .error (.halt page port)
  match m.pipeKey f.key port with
  | some key => .ok { t := t, key := key }
  | none =>
  match t.space with
  | 0 => region t.addr
  | 1 =>
    let key := tileBase b + t.addr
    let read := if t.layout < 4 ∧ len = t.extent then t.spans 0 else [(0, len)]
    if !tileOk t len || (perm == permRead && read.any fun s => m.tileBroken (key + s.1) (key + s.2)) then .error .addr
    else .ok { t := t, key := key, short := decide (0x5FC000 ≤ t.addr) }
  | 2 => if t.addr + len ≤ f.g.arena then region (m.arenaRa f.i + t.addr) else .error .addr
  | 4 | 5 =>
    let bufs := if t.space = 4 then f.i.inBufs else f.i.outBufs
    match bufs[t.addr % 256]? with
    | some (buf, size) =>
      let off := t.addr / 256 % 2 ^ 32
      if off + len ≤ size ∧ (perm = permRead ∨ t.space = 5) then .ok { t := t, key := bufKey buf off } else .error .addr
    | none => .error .addr
  | _ => .error .addr

/-- The tensor moved on by a byte offset, within its space. -/
def Tensor.at_ (t : Tensor) (off : Nat) : Tensor :=
  { t with addr := if t.space = 4 ∨ t.space = 5 then t.addr + off * 256 else t.addr + off }

/-- Why the first `len` bytes of a tensor do not lie in its space, or in one region of it (R105). -/
def Module.extentStop (m : Module) (f : Firing) (port : Nat) (t : Tensor) (len perm : Nat) : Option Stop :=
  match m.place f f.bench port t len perm with
  | .error (.fault st none 0) => some (.fault st none 0)
  | .error (.fault st (some x) lost) => if x.2.1 ≤ 2 then some (.fault st (some x) lost) else none
  | _ => none

/-- Place a range of bytes of a tensor, which lies whole where the tensor does (R105). -/
def Module.placeAt (m : Module) (f : Firing) (port : Nat) (t : Tensor) (off len perm : Nat) : Except Stop Placed :=
  match m.extentStop f port t (off + len) perm with
  | some e => .error e
  | none => m.place f f.bench port (t.at_ off) len perm

/-- Place the tensor of a port, by its own extent. -/
def Module.placePort (m : Module) (f : Firing) (p : Nat) : Except Stop Placed :=
  match f.tensor p with
  | some t => m.place f f.bench p t t.extent permRead
  | none => .error .addr

/-- Place a result tensor. -/
def Module.placeRes (m : Module) (f : Firing) (r : Nat) : Except Stop Placed :=
  match f.res r with
  | some t => m.place f f.bench (8 + r) t t.extent permWrite
  | none => .error .addr

/-- Place the tensor of a port where the node has it. -/
def Module.placeOpt (m : Module) (f : Firing) (p : Option Nat) : Except Stop (Option Placed) :=
  match p with
  | none => .ok none
  | some p => (m.placePort f p).map some

/-- Bytes whose content the spec leaves open, written as free values (R206). -/
def Module.unspecified (m : Module) (key len : Nat) : Module :=
  let s := m.draw
  { s.2 with mem := m.mem.writeN key ((List.range len).map fun i => BitVec.ofNat 8 (s.1 i)) }

/-- The benches whose tile a tensor of a firing may lie in, by its port or 8 + result number: on a chain A and B are read on every
bench, the preload on the first, and E and the results lie on the last (R211). -/
def Firing.benchesOf (f : Firing) (p : Nat) : List Nat :=
  if f.e.benches.isEmpty then [f.bench]
  else if p < 2 then f.e.benches
  else if prePort f.n = some p then [f.e.benches.headD 0]
  else [f.e.benches.getLastD 0]

/-- The byte keys that a tensor of a firing covers in memory or in the tile of bench `b`. -/
def Module.spansOf (m : Module) (f : Firing) (b p : Nat) (t : Tensor) : List (Nat × Nat) :=
  match m.place f b p t (if t.layout < 4 then t.extent else 1) (if p < 8 then permRead else permWrite) with
  | .ok q => (t.spans (m.mem.num (q.key + t.aux + 8 * t.dim1) 8)).map fun s => (q.key + s.1, q.key + s.2)
  | .error _ => []

/-- The bytes that two ranges share. -/
def meet (a b : Nat × Nat) : Option (Nat × Nat) := if max a.1 b.1 < min a.2 b.2 then some (max a.1 b.1, min a.2 b.2) else none

/-- The bytes among those written for the result on port `r` that an operand or the other result of the firing shares. -/
def Module.shared (m : Module) (f : Firing) (r : Nat) (keys : List (Nat × Nat)) : List (Nat × Nat) :=
  let others := (f.allTensors.filter (·.1 != r)).flatMap fun (p, t) => (f.benchesOf p).flatMap fun b => m.spansOf f b p t
  keys.flatMap fun s => others.filterMap (meet s)

/-- Bytes that the spec leaves open in several ranges. -/
def Module.unspecifiedAll (m : Module) (keys : List (Nat × Nat)) : Module :=
  keys.foldl (fun m s => m.unspecified s.1 (s.2 - s.1)) m

/-- Bytes of a result that overlap an operand or the other result of its firing are not specified (R186, R259). -/
def Module.blur (m : Module) (f : Firing) (r : Nat) (keys : List (Nat × Nat)) : Module := m.unspecifiedAll (m.shared f r keys)

/-- Note what a write of `spans` of a placed result left: unspecified bytes where it overlaps, the spans of a result buffer that it
covered (R373), no poison where it covered whole sectors (R319), no hot-row line or window entry of a table line that it met (R310), and
the tensor on the pipe (R344). -/
def Module.wrote (m : Module) (f : Firing) (r : Nat) (p : Placed) (spans : List (Nat × Nat)) : Module :=
  let m := m.blur f r (spans.map fun s => (p.key + s.1, p.key + s.2))
  let m := spans.foldl (fun (m : Module) s => ((m.clearPoison (p.key + s.1) (s.2 - s.1)).staleSpan (p.key + s.1) (p.key + s.2)).pipeCopy f.key p.key s.1 (s.2 - s.1)) m
  if p.t.space = 5 then
    match f.i.outBufs[p.t.addr % 256]? with
    | some (buf, _) =>
      let off := p.t.addr / 256 % 2 ^ 32
      m.setInst f.i.num fun i =>
        { i with wrote := assocSet buf (spans.foldl (fun l s => addSpan (off + s.1) (off + s.2) l) ((assocGet buf i.wrote).getD [])) i.wrote }
    | none => m
  else m

/-- The byte ranges that a write of some elements of a result covers, with the padding of its tiles (R50, R263). -/
def Tensor.spansAt (t : Tensor) (on : Nat × Nat × Nat → Bool) : List (Nat × Nat) :=
  if t.layout = 0 ∨ t.layout = 1 then
    let ps := t.positions.filter fun q => on q || !t.inside q
    let scales := if t.isMx then ps.foldl (fun l q => addSpan (t.scaleAt q.1 q.2.1 q.2.2) (t.scaleAt q.1 q.2.1 q.2.2 + 1) l) [] else []
    ps.foldl (fun l q =>
      let b := t.elemBit q.1 q.2.1 q.2.2
      addSpan (b / 8) ((b + t.bits + 7) / 8) l) scales
  else t.spans 0

/-- The result bytes of a firing that ends without a valid result are not specified (R206). -/
def Module.spoil (m : Module) (p : Placed) : Module :=
  m.unspecifiedAll ((p.t.spans 0).map fun s => (p.key + s.1, p.key + s.2))

/-- The slices of K of a firing of `len` benches (R211). -/
def slices (kdim len : Nat) : List (Nat × Nat) :=
  if len ≤ 1 then [(0, kdim)]
  else
    let w := roundUp (ceilDiv kdim len) 32
    (List.range len).map fun i => (min kdim (i * w), if i + 1 = len then kdim else min kdim ((i + 1) * w))

/-! ### The bytes that streams move (R325, R327, R330) -/

/-- A tensor that reaches its user through a stream (R325). -/
def Tensor.streamed (t : Tensor) : Bool := t.space == 0 || t.space == 2 || t.space == 4 || t.space == 5

/-- The entries of a CSR or CSC tensor as its offsets end, none where they cannot be read. -/
def Module.entriesOf (m : Module) (f : Firing) (t : Tensor) : Nat :=
  if t.layout = 4 ∨ t.layout = 5 then
    match m.place f f.bench 16 (t.at_ (t.aux + 8 * t.dim1)) 8 permRead with
    | .ok p => m.mem.num p.key 8
    | .error _ => 0
  else 0

/-- The stored bytes of a tensor: its values and side data, as its layout defines them (R327). -/
def Module.stored (m : Module) (f : Firing) (t : Tensor) : Nat := ((t.spans (m.entriesOf f t)).map fun s => s.2 - s.1).sum

/-- Part of the bytes of a list of ranges: `n` of them from the byte `at_` on. -/
def cutSpans : List (Nat × Nat) → Nat → Nat → List (Nat × Nat)
  | [], _, _ => []
  | s :: ss, at_, n =>
    let len := s.2 - s.1
    if len ≤ at_ then cutSpans ss (at_ - len) n
    else
      let k := min n (len - at_)
      if k = 0 then [] else (s.1 + at_, s.1 + at_ + k) :: cutSpans ss 0 (n - k)

/-- The region addresses of the stored bytes of a tensor from position `at_` on, in the order of its layout. -/
def Module.streamRanges (m : Module) (f : Firing) (t : Tensor) (at_ n : Nat) : List (Nat × Nat) :=
  match m.tensorRa f t with
  | some a => (cutSpans (t.spans (m.entriesOf f t)) at_ n).map fun s => (a + s.1, a + s.2)
  | none => []

/-- The part of a tensor's stored bytes that the stream of bench `b` moves, as first byte and length: on a chain, its slice of K of A
and B (R211; log entry 178, DESIGN CHOICE), and everywhere else the whole. -/
def Firing.streamPart (f : Firing) (b p n : Nat) : Nat × Nat :=
  let k := ((f.tensor 0).map (·.dim0)).getD 0
  match (slices k f.e.benches.length)[f.e.benches.idxOf b]? with
  | some (lo, hi) => if p < 2 ∧ 0 < k then (n * lo / k, n * hi / k - n * lo / k) else (0, n)
  | none => (0, n)

/-- The accesses of a stream that moves `n` stored bytes of a tensor from position `at_` on (R305, R311). -/
def Module.moveStream (m : Module) (f : Firing) (p : Nat) (t : Tensor) (at_ n : Nat) : Module :=
  (m.streamRanges f t at_ n).foldl (fun (m : Module) s =>
    m.accessAll f.e.hall f.ptn s.1 (s.2 - s.1) t.hint (decide (8 ≤ p))) m

/-- The tensors of a firing that a bench uses and that do not come over a pipe. -/
def Module.tensorsOn (m : Module) (f : Firing) (b : Nat) : List (Nat × Tensor) :=
  f.allTensors.filter fun x => x.2.streamed && (f.benchesOf x.1).contains b && (m.pipeKey f.key x.1).isNone

/-- What the streams of a firing have not moved when it ends, they move: rings from where they stand, light-path tensors whole
(R330, R335). -/
def Module.moveRest (m : Module) (f : Firing) : Module :=
  let x := m.hall f.e.hall
  let rings := x.contexts.filter fun c => c.key == f.key && c.kind != 2
  let m := rings.foldl (fun (m : Module) c =>
    match f.allTensors.find? fun t => t.1 == c.port with
    | some (p, t) =>
      m.moveStream f p t ((f.streamPart c.bench p (m.stored f t)).1 + c.done) (c.total - c.done)
    | none => m) m
  let light := x.held.filter fun y => y.key == f.key && decide (0 < y.light ∧ y.bench ≠ 0xFF)
  light.foldl (fun (m : Module) y =>
    (m.tensorsOn f y.bench).foldl (fun (m : Module) t =>
      let n := m.stored f t.2
      if n ≤ 256 then m.moveStream f t.1 t.2 0 n else m) m) m

/-! ### Ends and halts -/

/-- The contexts of a firing in its hall, changed. -/
def Module.setCtxs (m : Module) (h : Nat) (p : Context → Bool) (f : Context → Context) : Module :=
  m.setHall h fun x => { x with contexts := updWhere p f x.contexts }

/-- The composition number that BCH_VCSTAT shows for a firing (R280). -/
def Node.vcComp (n : Node) : Nat := if n.op = 0x30 then n.par 1 5 else if n.op = 0x31 then n.par 7 5 else 0

/-- BCH_MXSTAT and BCH_VCSTAT show the status of a bench's last firing; one without a valid result leaves no flag byte (R216,
R280). -/
def Module.showStatus (m : Module) (f : Firing) (st : Nat) : Module :=
  let benches := if f.e.benches.isEmpty then [f.bench] else f.e.benches
  if f.n.op = 0x20 then
    benches.foldl (fun m b =>
      let m := m.setFld (bchR b 0x010) 20 8 st
      if resultValid st then m else m.setFld (bchR b 0x010) 12 8 0) m
  else if within f.n.op 0x30 0x32 then
    m.setReg (bchR f.bench 0x148) (BitVec.ofNat 64 (f.n.op * 2 + f.n.vcComp * 2 ^ 9 + st % 256 * 2 ^ 14))
  else m

/-- The work of a firing is over: its status, combined with its tokens' (R59), in the bench's status register too, and its streams
move whole where it has a valid result (R330); without one they stop where they stand. -/
def Module.finish (m : Module) (f : Firing) (st : Nat) : Module :=
  let h := f.e.hall
  let ok := resultValid st
  let mine := (m.hall h).contexts.filter fun c => c.key == f.key
  let m := if ok then (m.moveRest f).count (halR h 0x210) 0 64 ((mine.map fun c => c.total - c.done).sum) else m
  let m := m.setCtxs h (fun c => c.key == f.key) fun c =>
    { c with state := 3, status := st, done := if ok then c.total else c.done, fill := 0 }
  let st := if resultValid st then worse st f.e.status else st
  (m.showStatus f st).setEntry f.key fun e => { e with ran := true, status := st, haltAt := none }

/-- The residency code of R110 at a region address. -/
def Module.residencyCode (m : Module) (p ra : Nat) : Nat :=
  match m.regionAt p ra with
  | none => 0
  | some g =>
    match m.residency g ((ra - g.info.base) / 2 ^ g.info.shift) with
    | .present => 0
    | .building => 1
    | .evicted => 2
    | .lost => 3

/-- The first fields of a PAGE notice's detail (R347). -/
def Module.pageDetail (m : Module) (p ra : Nat) (k : FKey) : List Byte :=
  leBytes 8 ra ++ leBytes 1 (((m.regionAt p ra).map (·.info.rgn)).getD 0) ++ leBytes 1 (m.residencyCode p ra) ++
    leBytes 4 k.inst.toNat ++ leBytes 2 k.node.toNat

/-- A stream halts at an absent page (R337): the context, the counter, HAL_SHALT and the first notice for the page. -/
def Module.haltAt (m : Module) (h p : Nat) (k : FKey) (port page : Nat) : Module :=
  let mine : Context → Bool := fun c => c.key == k && c.port == port && c.state == 1
  let idx := (((m.hall h).contexts.find? mine).map (·.idx)).getD 0
  let n := max 1 ((m.hall h).contexts.countP mine)
  let m := m.setCtxs h mine fun c => { c with state := 2, status := stPageHalt, haltAt := m.ltime }
  let m := (m.count (halR h 0x228) 0 32 n).count (ptnR p 0x88) 32 32
  let m := if m.fld (halR h 0x238) 63 1 = 1 then m
    else m.setReg (halR h 0x238) (BitVec.ofNat 64 (page % 2 ^ 41 + p % 8 * 2 ^ 41 + idx % 256 * 2 ^ 44 + 2 ^ 63))
  let m := m.setEntry k fun e => { e with haltAt := some page }
  if (m.ptn p).pagesSaid.contains page then m
  else (m.setPtn p fun x => { x with pagesSaid := x.pagesSaid ++ [page] }).post 0x0501 (some p) k.inst.toNat
    (m.pageDetail p page k ++ leBytes 2 n)

/-- A firing stops: it ends without a result, or it halts. -/
def Module.stopFiring (m : Module) (f : Firing) : Stop → Module
  | .fault st x lost =>
    let m := match x with
      | some (ra, cause, perm) => m.xfault f.ptn (streamMaster f.e.hall) ra cause perm
      | none => m
    let m := if lost = 0 then m else m.setInst f.i.num fun i => { i with lostCause := lost }
    ({ m with gathers := m.gathers.filter (·.key != f.key) } : Module).finish f st
  | .halt page port => m.haltAt f.e.hall f.ptn f.key port page

/-- Run the work of a firing of a class: nothing where it is not running; its stop, or its effect on memory as every
reader sees it (R310). -/
def Module.work (m : Module) (k : FKey) (op : Nat) (act : Module → Firing → Except Stop Module) : Module :=
  match m.running k op with
  | none => m
  | some f =>
    match act m.opened f with
    | .ok m' => m.closed m'
    | .error s => m.stopFiring f s

/-- R523 at firing: every rule of the class holds, or the node ends with FAULT_ADDRESS. -/
def Firing.checked (f : Firing) (d : Draft) (rules : RuleEnv → List Rule) : Except Stop Unit :=
  if (rules (f.env d)).all (·.1) then .ok () else .error .addr

/-- The draws of the bench's generator for one firing (R267). -/
def Module.draws (m : Module) (b : Nat) (i : Nat) : Nat := Config.vcDraw (m.bench b).seed (pair m.free i)

/-- The generator moves on after a firing. -/
def Module.spend (m : Module) : Module := { m with free := m.free + 1 }

/-! ### Streams of a firing (R325–R329) -/

/-- What a firing needs of one bench: rings as (port, write, bytes, ring bytes), light-path slots, landing bytes. -/
structure Need where
  rings : List (Nat × Bool × Nat × Nat)
  light : Nat
  area  : Nat
  deriving DecidableEq, Repr, Inhabited

/-- The need of a set of tensors, each with its stored bytes, with a landing buffer (R327). -/
def needOf (ts : List (Nat × Nat)) (landing : Nat) : Need :=
  let light := ts.countP fun t => decide (t.2 ≤ 256)
  let rings := (ts.filter fun t => decide (256 < t.2)).map fun (p, n) =>
    (p, decide (8 ≤ p), n, min (if 8 ≤ p then 32768 else 65536) (roundUp n 2048))
  { rings := rings, light := light, area := light * 256 + (rings.map fun r => r.2.2.2).sum + landing }

/-- Landing bytes of a class (R148, R244, R297): 64 KiB for GATHER, 64 × N × 4 for a possible hub owner. -/
def Firing.landing (f : Firing) : Nat :=
  match f.n.op with
  | 0x10 => 65536
  | 0x21 => if f.n.par 3 1 = 1 then 0 else min 131072 (256 * (((f.res 0).map (·.dim0)).getD 0))
  | 0x13 => min 131072 (256 * (((f.res 0).map (·.dim0)).getD 0))
  | _ => 0

/-- Free context numbers for a partition: its floor, then the shared pool (R329). -/
def Hall.freeCtxs (h : Hall) (p : Nat) : List Nat :=
  let used := h.contexts.map (·.idx)
  (((List.range 16).map (16 * p + ·)) ++ (List.range 128).map (128 + ·)).filter fun c => !used.contains c

/-- Stream-area bytes in use on a bench, and light-path slots in use in the hall. -/
def Hall.areaUsed (h : Hall) (b : Nat) : Nat := ((h.held.filter (·.bench == b)).map (·.area)).sum
def Hall.lightUsed (h : Hall) : Nat := (h.held.map (·.light)).sum

/-- An admission can be had whole (R328). -/
def Hall.fits (h : Hall) (a : Admission) : Bool :=
  decide (a.rings.length ≤ (h.freeCtxs a.ptn).length ∧ h.lightUsed + (a.held.map (·.light)).sum ≤ 1024) &&
    a.held.all fun x => decide (h.areaUsed x.bench + ((a.held.filter (·.bench == x.bench)).map (·.area)).sum ≤ 0x100000)

/-- What a firing asks of a bench (R327): the tensors that it uses there, but those on the ports of `skip`, which reach it over a weave
pipe, and its landing and receive buffers, `extra` bytes (R344). -/
def Module.needOn (m : Module) (f : Firing) (b : Nat) (skip : List Nat) (extra : Nat) : Need :=
  let ts := f.allTensors.filter fun t => t.2.streamed && (f.benchesOf t.1).contains b && !skip.contains t.1
  needOf (ts.map fun t => (t.1, m.stored f t.2)) (f.landing + extra)

/-- What a firing asks for on its benches (R327, R328): one context for each ring of each bench. -/
def Module.asks (m : Module) (f : Firing) (benches skip : List Nat) (extra : Nat) : Admission × Module :=
  let f := if benches.length < 2 then { f with e := { f.e with bench := benches.head?, benches := [] } }
    else { f with e := { f.e with benches := benches } }
  let s := m.draw
  let ring (b : Nat) (r : Nat × Bool × Nat × Nat) (j : Nat) : Context :=
    let ra := ((f.allTensors.find? fun t => t.1 == r.1).bind fun t => m.tensorRa f t.2).getD 0
    let off := 0x4F8000 + s.1 (2 * j) % 512 * 2048
    { idx := 0, state := 1, kind := if r.2.1 then 1 else 0, ptn := f.ptn, status := 0, key := f.key, bench := b
      port := r.1, ring := r.2.2.2 / 1024, src := if r.2.1 then off else ra, dst := if r.2.1 then ra else off
      total := (f.streamPart b r.1 r.2.2.1).2, rate := s.1 (2 * j + 1) % 512 + 1 }
  let need (b : Nat) : Need := m.needOn f b skip extra
  let rings := benches.zipIdx.flatMap fun (b, i) => (need b).rings.zipIdx.map fun (r, j) => ring b r (i * 16 + j)
  let held : List Held := benches.map fun b => { key := f.key, bench := b, light := (need b).light, area := (need b).area }
  ({ keys := [f.key], ptn := f.ptn, rings := rings, held := held }, s.2)

/-- The admission of a firing (R328). -/
def Module.admission (m : Module) (f : Firing) (benches : List Nat) : Admission × Module := m.asks f benches [] 0

/-- Two admissions as one (R328). -/
def Admission.with (a b : Admission) : Admission :=
  { a with keys := a.keys ++ b.keys, rings := a.rings ++ b.rings, held := a.held ++ b.held }

/-- The dry time of a stream: when its ring runs dry or full, or for a copy BGAGE µs after its admission (R333). -/
def Module.dryTime (m : Module) (h : Nat) (c : Context) : Nat :=
  let cycles (bytes : Nat) : Nat := bytes * 4 / (5 * max 1 c.rate)
  m.ltime + match c.kind with
    | 0 => cycles c.fill
    | 1 => cycles (c.ring * 1024 - c.fill)
    | _ => m.fld (halR h 0x200) 32 16 * 1000

/-- Reserve an admission (R328): contexts of the floor first (R329), light-path slots and stream area; light-path
requests are counted (R335). -/
def Module.reserve (m : Module) (h : Nat) (a : Admission) : Module :=
  let free := (m.hall h).freeCtxs a.ptn
  let cs := (a.rings.zip free).map fun (c, i) => { c with idx := i, dt := m.dryTime h c }
  (m.setHall h fun x => { x with contexts := x.contexts ++ cs, held := x.held ++ a.held }).count (halR h 0x220) 32 32
    (a.held.map (·.light)).sum

/-- A firing that has its streams may run. -/
def Module.launch (m : Module) (k : FKey) : Module := m.setEntry k fun e => { e with launched := true }

/-- An admission succeeds. -/
def Module.admitted (m : Module) (h : Nat) (a : Admission) : Module := a.keys.foldl Module.launch (m.reserve h a)

/-- Bring an admission to the engine: reserved at once when the queue is empty and all parts can be had; otherwise it
waits and is counted (R328). -/
def Module.offer (m : Module) (h : Nat) (a : Admission) : Module :=
  if (m.hall h).admq.isEmpty ∧ (m.hall h).fits a then m.admitted h a
  else (m.setHall h fun x => { x with admq := x.admq ++ [a] }).count (halR h 0x218) 0 32

/-- Ask for the streams of a firing. -/
def Module.takeIn (m : Module) (f : Firing) (benches : List Nat) : Module :=
  let (a, m) := m.admission f benches
  m.offer f.e.hall a

/-- An admission without one of its firings. -/
def Admission.without (a : Admission) (k : FKey) : Admission :=
  { a with keys := a.keys.filter (· != k), rings := a.rings.filter (·.key != k), held := a.held.filter (·.key != k) }

/-- A firing's contexts, slots and area return to the pool (R330). -/
def Module.freeStreams (m : Module) (h : Nat) (k : FKey) : Module :=
  m.setHall h fun x =>
    { x with contexts := x.contexts.filter (·.key != k), held := x.held.filter (·.key != k)
             admq := (x.admq.map fun a => a.without k).filter fun a => !a.keys.isEmpty }

/-- The hand-over of a fused group has passed whole where the firing is its consumer (R344). -/
def Module.pipePassed (m : Module) (k : FKey) : Bool :=
  m.groups.all fun g => !(g.cons == k) || decide (g.tiles ≤ g.sentTiles)

end Sys2Proof.Machine
end

