-- ==== Sys2Proof/Machine/Ready.lean ====
section
/-! DEFINITION. Where the nodes of a graph live (R46, R62), what the slots and ready entries of a hall hold (R66, R67), and what a
free bench takes: nodes, chains, fused groups and hub segments, by partition, step and age (R62, R63, R79, R213, R243, R343). -/
namespace Sys2Proof.Machine

/-! ### Where a node lives -/

/-- A hall in which a draft gives quotas (R46, R53). -/
def Draft.hasQuota (d : Draft) (h : Nat) : Bool :=
  nth d.part.livemax h != 0 && nth d.part.slots h != 0 && nth d.part.readys h != 0

def Draft.set (d : Draft) (n : Nat) : Option BenchSetRec := d.sets.find? fun s => s.set == n

/-- The WEAVE record of a chain, and of a pipe (R80). -/
def Draft.chain (d : Draft) (c : Nat) : Option WeaveRec := d.weaves.find? fun w => w.kind == 2 && w.id == c
def Draft.pipe (d : Draft) (c : Nat) : Option WeaveRec := d.weaves.find? fun w => w.kind == 1 && w.id == c

/-- The hall of a node (R46, R62). -/
def Draft.nodeHall (d : Draft) (n : Node) : Nat :=
  if n.bset = 0xFFFF then
    if n.par 2 1 = 1 then n.par 0 2 else ((List.range 4).find? d.hasQuota).getD 0
  else ((d.set n.bset).map (·.hall)).getD 0

/-- The halls that hold nodes of a graph. -/
def Draft.graphHalls (d : Draft) (g : Graph) : List Nat := (List.range 4).filter fun h => g.nodes.any fun n => d.nodeHall n == h

/-- Executed by a bench under R62. -/
def benchClass (op : Nat) : Bool := within op 0x10 0x13 || op == 0x20 || op == 0x21 || within op 0x30 0x32

def Node.isChain (n : Node) : Bool := n.op == 0x20 && n.par 16 1 == 1

/-- A FUSE node (R340). -/
def Node.isFuse (n : Node) : Bool := n.op == 0x40 && n.par 0 2 == 1

/-- A FUSE node of the graph names the node as PROD or CONS. -/
def Graph.isFused (g : Graph) (n : Node) : Bool := g.nodes.any fun x => x.isFuse && (x.par 16 16 == n.index || x.par 32 16 == n.index)

/-! ### Slots and ready entries (R66, R67) -/

/-- Live instances with nodes in a hall, with their graphs. -/
def Module.liveIn (m : Module) (h : Nat) : List (Inst × Graph) :=
  m.insts.filterMap fun i => do
    let g ← m.graph i.ptn i.handle
    if ((m.draft i.ptn).graphHalls g).contains h then some (i, g) else none

def Hall.tokensAt (h : Hall) (p : Place) (inst : Option (BitVec 32)) : Nat :=
  (((h.entries.filter fun e => inst.all fun i => e.key.inst == i)).map fun e => e.tokens.countP fun t => t.2.2 == p).sum

/-- The entry holds a ready entry of its hall. -/
def MatchEntry.isReady (e : MatchEntry) : Bool := e.state == .ready

def Hall.readyAt (h : Hall) (p : Place) (inst : Option (BitVec 32)) : Nat :=
  h.entries.countP fun e => e.isReady && e.place == p && inst.all fun i => e.key.inst == i

/-- A slot for a token that does not complete its node (R66). -/
def Module.slotFor (m : Module) (h : Nat) (i : Inst) (g : Graph) : Option Place :=
  let x := m.hall h
  if x.tokensAt .slotReserved (some i.num) < g.slotq then some .slotReserved
  else if ((m.liveIn h).map fun y => y.2.slotq).sum + x.tokensAt .slotGeneral none < 61440 then some .slotGeneral
  else none

/-- A ready entry (R67). -/
def Module.readyFor (m : Module) (h : Nat) (i : Inst) (g : Graph) : Option Place :=
  let x := m.hall h
  if x.readyAt .readyReserved (some i.num) < g.readyq then some .readyReserved
  else if ((m.liveIn h).map fun y => y.2.readyq).sum + x.readyAt .readyGeneral none < 16384 then some .readyGeneral
  else none

/-! ### Affinity (R62, R63) -/

def Hall.affinityOf (h : Hall) (handle node : Nat) : Option Nat :=
  (h.affinity.find? fun a => a.1 == handle && a.2.1 == node).map fun a => a.2.2

/-! ### Chains and fused groups (R213, R342, R343) -/

/-- The chain of a READY chain node, with its benches device-wide. -/
def Module.chainOf (m : Module) (k : FKey) : Option (Firing × List Nat) := do
  let f ← m.firing k
  if f.n.isChain then
    let w ← (m.draft f.ptn).chain (f.n.par 17 8)
    some (f, w.bench.map (w.hall * 64 + ·))
  else none

/-- The FUSE nodes of a graph. -/
def Graph.fuses (g : Graph) : List Node := g.nodes.filter Node.isFuse
def Node.prod (x : Node) : Nat := x.par 16 16
def Node.cons (x : Node) : Nat := x.par 32 16

/-- The nodes that FUSE nodes link to a node, the node among them. -/
def Graph.fusedWith (g : Graph) (n : Nat) : List Nat :=
  go g.fuses.length [n]
where
  go : Nat → List Nat → List Nat
    | 0, l => l
    | k + 1, l => go k ((l ++ g.fuses.flatMap fun x =>
        (if l.contains x.prod then [x.cons] else []) ++ (if l.contains x.cons then [x.prod] else [])).eraseDups)

/-- The links of a group. -/
def Graph.links (g : Graph) (group : List Nat) : List Node := g.fuses.filter fun x => group.contains x.prod

/-- The bench of the hall on which a node of a group runs: its pipe's end (R342, R343). -/
def Graph.pipeBench (g : Graph) (d : Draft) (n : Nat) : List Nat :=
  (g.fuses.filterMap fun x => (d.pipe (x.par 8 8)).bind fun w =>
    if x.prod = n then w.bench[0]? else if x.cons = n then w.bench[1]? else none).eraseDups

/-- The group of a READY fused node, from its lowest node on: each firing with its bench. -/
def Module.fusedGroup (m : Module) (k : FKey) : Option (List (Firing × Nat) × List Node × Graph) := do
  let (i, g, n) ← m.nodeOf k
  if !g.isFused n then none
  let d := m.draft i.ptn
  let group := g.fusedWith ((g.fusedWith n.index).foldl min n.index)
  let fs ← group.mapM fun j => do
    let f ← m.firing { k with node := BitVec.ofNat 16 j }
    let b ← (g.pipeBench d j)[0]?
    let w ← (g.fuses.find? fun x => x.prod == j || x.cons == j).bind fun x => d.pipe (x.par 8 8)
    if f.e.state == .ready then some (f, w.hall * 64 + b) else none
  some (fs, g.links group, g)

/-- A READY chain node, or the first node of a READY fused group: the entries that start together and their benches, the first
its affinity bench (R213, R343; that the group's lowest node stands for it is log entry 148, DESIGN CHOICE). -/
def Module.team (m : Module) (e : MatchEntry) : Option (List FKey × List Nat) :=
  if e.state != .ready then none
  else match m.chainOf e.key with
    | some x => some ([e.key], x.2)
    | none =>
      match m.fusedGroup e.key with
      | some x => if (x.1.head?.map (·.1.key)) == some e.key then some (x.1.map (·.1.key), x.1.map (·.2)) else none
      | none => none

/-! ### What a free bench takes (R62, R63, R79) -/

/-- A HOLD barrier keeps the entry from dispatch (R345). -/
def Module.barred (m : Module) (e : MatchEntry) : Bool :=
  m.halls.any fun h => h.barriers.any fun b => b.hold && (if b.scopePtn then b.ptn == e.ptn else b.key.inst == e.key.inst)

/-- A producer's token is held back, so that its bench stalls (R66). -/
def Module.benchStalled (m : Module) (b : Nat) : Bool := m.tokens.any fun t => t.src == .bench b && t.since.isSome

/-- A bench is in service and idle, for work of these entries where it holds itself free (R62, R66, R213, R438). -/
def Module.idleFor (m : Module) (keys : List FKey) (b : Nat) : Bool :=
  let x := m.bench b
  (m.pwr.mode == .joined || m.pwr.mode == .draining) && x.busy.isNone && (x.heldFor.all fun k => keys.contains k) &&
    !(m.hall (b / 64)).oos.toNat.testBit x.phys && !m.benchStopped b && !m.benchStalled b

/-- A bench is in service and idle. -/
def Module.benchIdle (m : Module) (b : Nat) : Bool := m.idleFor [] b

/-- How the order of R62 ranks an entry for a bench: 1 to 4, none where the bench does not take it. At the moment at which a hold
expires, an affinity bench that is free takes the node (R63). -/
def Module.rank (m : Module) (h b : Nat) (e : MatchEntry) : Option Nat := do
  let (i, g, n) ← m.nodeOf e.key
  let set ← (m.draft i.ptn).set n.bset
  if !(e.state == .ready && benchClass n.op && !n.isChain && !g.isFused n && set.hall == h && set.mask.testBit (b % 64)
      && !m.barred e) then none
  else
    let aff := (m.hall h).affinityOf i.handle n.index
    let expired := e.lapsed || (e.holdTill.map fun t => decide (t ≤ m.ltime)).getD false
    let open_ := m.fld (halR h 0x000) 32 1 == 0 || n.noaff || (match aff with
      | none => true
      | some a => !(a / 64 == set.hall && set.mask.testBit (a % 64)) ||
          (expired && !(e.holdTill == some m.ltime && m.benchIdle a)))
    if aff = some b then some (if n.prio then 1 else 2)
    else if open_ then some (if n.prio then 3 else 4)
    else none

/-- What a job is: a node alone, a chain or fused group by its first node, or a hub segment by row and number. -/
inductive JobKind where
  | node
  | team
  | segment (row seg : Nat)
  deriving DecidableEq, Repr, Inhabited

/-- Something that a free bench can take: its step of R62 (5 where the bench is one of a team's but not its affinity bench), its
partition, its age, and its firing, or its owner's. -/
structure Job where
  rank : Nat
  ptn  : Nat
  age  : Nat
  key  : FKey
  kind : JobKind
  deriving DecidableEq, Repr, Inhabited

/-- The job of a team that can start now, for a bench (R213, R343): every bench of it is idle, or holds itself free for it. -/
def Module.teamJob (m : Module) (b : Nat) (e : MatchEntry) : Option Job := do
  let (keys, bs) ← m.team e
  let (_, _, n) ← m.nodeOf e.key
  if bs.contains b && bs.all (m.idleFor keys) && (keys.all fun k => ((m.entry k).map fun x => !m.barred x).getD false) then
    some { rank := if bs.head? != some b then 5 else if n.prio then 1 else 2
           ptn := e.ptn, age := e.readyAt, key := e.key, kind := .team }
  else none

/-- The job of a hub segment for a bench of its set: steps 3 and 4 of R62, with the node's PRIO (R243). -/
def Module.segmentJob (m : Module) (h b : Nat) (s : HubSegment) : Option Job := do
  let set ← (m.draft s.ptn).set s.set
  if s.bench.isNone && set.hall == h && set.mask.testBit (b % 64) then
    some { rank := if s.prio then 3 else 4, ptn := s.ptn, age := s.age, key := s.owner, kind := .segment s.row s.seg }
  else none

/-- What a bench may take now. -/
def Module.jobs (m : Module) (h b : Nat) : List Job :=
  let x := m.hall h
  (x.entries.filterMap fun e => (m.rank h b e).map fun r => { rank := r, ptn := e.ptn, age := e.readyAt, key := e.key, kind := .node }) ++
    x.entries.filterMap (m.teamJob b) ++ x.hubq.filterMap (m.segmentJob h b)

/-- The partitions that have something ready for a bench. -/
def Module.jobPtns (m : Module) (h b : Nat) : List Nat := ((m.jobs h b).map (·.ptn)).eraseDups

/-- The weight of a partition on a bench (R79). -/
def Draft.weightOn (d : Draft) (b : Nat) : Nat :=
  ((d.sets.filter fun s => s.share == 1 && s.benches.contains b).map (·.weight)).foldl max 1

/-- The partition that a bench serves next (R79): a real-time one first, else the one whose weighted turn is due
(log entry 10, DESIGN CHOICE). -/
def Module.turnOf (m : Module) (h b : Nat) (ps : List Nat) : Option Nat :=
  match ps.find? fun p => (m.draft p).part.mode == 1 with
  | some p => some p
  | none =>
    let served (p : Nat) : Nat := (assocGet (b * 8 + p) (m.hall h).turn).getD 0
    let due (p q : Nat) : Bool := decide ((served p + 1) * (m.draft q).weightOn b < (served q + 1) * (m.draft p).weightOn b)
    ps.foldl (fun best p => match best with
      | none => some p
      | some q => if due p q then some p else some q) none

/-- A dispatch uses a turn; a partition that shares the bench and had nothing ready gives its own up. -/
def Module.useTurn (m : Module) (h b p : Nat) (ps : List Nat) : Module :=
  let served (q : Nat) : Nat := (assocGet (b * 8 + q) (m.hall h).turn).getD 0
  let mine := served p + 1
  let idle := (List.range 8).filter fun q => !ps.contains q && (m.draft q).sets.any fun s => s.benches.contains b
  let next (t : List (Nat × Nat)) : List (Nat × Nat) :=
    idle.foldl (fun t q => assocSet (b * 8 + q) (max (served q) (mine * (m.draft q).weightOn b / (m.draft p).weightOn b)) t)
      (assocSet (b * 8 + p) mine t)
  m.setHall h fun x => { x with turn := next x.turn }

/-- The first job in the order of R62, the oldest first within a step. -/
def Job.first : List Job → Option Job
  | [] => none
  | j :: l => match Job.first l with
    | some k => if k.rank < j.rank ∨ (k.rank = j.rank ∧ k.age < j.age) then some k else some j
    | none => some j

/-- The job that a bench takes: the partition of R79, then the order of R62. -/
def Module.best (m : Module) (h b : Nat) : Option Job :=
  (m.turnOf h b (m.jobPtns h b)).bind fun p => Job.first ((m.jobs h b).filter fun j => j.ptn == p)

/-- The entry that a bench takes alone, with the partitions that have something ready; none where a team or a hub segment
comes first. -/
def Module.chosen (m : Module) (h b : Nat) : Option (MatchEntry × List Nat) := do
  let j ← m.best h b
  if j.kind = .node then (m.entry j.key).map fun e => (e, m.jobPtns h b) else none

/-- A team may start (R79, R213): its turn has come on every bench and it comes first on its affinity bench, or its benches
have held themselves free for it. -/
def Module.teamMay (m : Module) (key : FKey) (p : Nat) (held : Bool) (bs : List Nat) : Bool :=
  held || ((((bs.head?).bind fun b => m.best (b / 64) b).map fun j => j.key == key && j.kind == .team).getD false &&
    bs.all fun b => m.turnOf (b / 64) b (m.jobPtns (b / 64) b) == some p)

/-- A team uses a turn on each of its benches. -/
def Module.teamTurns (m : Module) (p : Nat) (bs : List Nat) : Module :=
  bs.foldl (fun (m : Module) b => m.useTurn (b / 64) b p (m.jobPtns (b / 64) b)) m

/-- Benches that hold themselves free for these entries do so no longer. -/
def Module.unhold (m : Module) (keys : List FKey) : Module :=
  { m with benches := m.benches.map fun b => if b.heldFor.any keys.contains then { b with heldFor := none } else b }

end Sys2Proof.Machine
end

