-- ==== Sys2Proof/Machine/Match.lean ====
section
/-! DEFINITION. The matching store (R51–R69), dispatch (R62, R63, R79), the store-executed classes
(R45), and the end of a firing and of an instance (R54, R58, R59). -/
namespace Sys2Proof.Machine

/-! ### Ready entries (R63, R67) -/

/-- An entry becomes READY in a ready entry, to which all its tokens move (R57); its affinity hold begins while its affinity bench
is busy (R63). -/
def Module.makeReady (m : Module) (h : Nat) (k : FKey) (place : Place) : Module :=
  let hold : Option Nat := do
    let (i, _, n) ← m.nodeOf k
    let b ← (m.hall h).affinityOf i.handle n.index
    if m.fld (halR h 0x000) 32 1 = 1 ∧ !n.noaff ∧ (m.bench b).busy.isSome then some (m.ltime + m.fld (halR h 0x000) 0 16)
    else none
  let m := m.setEntry k fun e =>
    { e with state := .ready, place := place, tokens := e.tokens.map fun x => (x.1, x.2.1, place)
             readyAt := m.stamp, readySince := m.ltime, holdTill := hold }
  { m with stamp := m.stamp + 1 }

/-- A ready entry has freed: the oldest node that waits for one takes it where its instance may (R67). -/
def Module.promote (m : Module) (h : Nat) : Module :=
  let waiting := (m.hall h).entries.filter fun e => e.state == .waitReady
  match waiting.findSome? fun e => do
      let (i, g, _) ← m.nodeOf e.key
      let p ← m.readyFor h i g
      some (e.key, p) with
  | some (k, p) => m.makeReady h k p
  | none => m

/-- Ready entries have freed in every hall: every node that waits and may have one takes it. -/
def Module.promoteAll (m : Module) : Module :=
  (List.range 4).foldl (fun (m : Module) h => ((m.hall h).entries.filter fun e => e.state == .waitReady).foldl
    (fun (m : Module) _ => m.promote h) m) m

/-! ### Tokens arrive (R57, R60, R66, R67) -/

/-- A generation is ahead of another by how much, modulo 65,536 (R60). -/
def genAhead (a b : BitVec 16) : Nat := (a - b).toNat

/-- The oldest live generation of a node of an instance (R60). R60 compares modulo 65,536 and does not say which of two generations
is then the older: the one that is less than 32,768 behind the other (log entry 149, DESIGN CHOICE). -/
def Hall.oldestGen (h : Hall) (inst : BitVec 32) (node : BitVec 16) : Option (BitVec 16) :=
  let gs := (h.entries.filter fun e => e.key.inst == inst && e.key.node == node).map (·.key.gen)
  gs.find? fun g => gs.all fun x => decide (genAhead x g < 32768)

def Module.flagInst (m : Module) (i : BitVec 32) (st : Nat) : Module := m.setInst i fun x => { x with status := worse x.status st }

/-- The port of the entry is filled already, or its firing is under way (R57). -/
def Hall.filled (h : Hall) (k : FKey) (port : Nat) : Bool :=
  h.entries.any fun e => e.key == k && (e.tokens.any (fun x => x.1 == port) || e.state == .executing)

/-- The token is MAXGEN or more ahead of the oldest live generation of its node (R60). -/
def Hall.early (h : Hall) (t : Token) (maxgen : Nat) : Bool :=
  match h.oldestGen t.inst t.node with
  | some o => decide (maxgen ≤ genAhead t.gen o ∧ genAhead t.gen o < 32768)
  | none => false

/-- The match entry that a token is for. -/
def tokKey (t : Token) : FKey := { inst := t.inst, node := t.node, gen := t.gen }

/-- What the store of a hall does with a token (R57, R60, R66, R67): it discards it as one of an instance that has ended, of a
missing or static port, or of a filled one; it holds its producer back; it takes it as one more token of its node, or as the
last, in a ready entry or in the completion reserve. -/
inductive Fate where
  | stale (h : Nat)
  | missing (h : Nat)
  | dup (h : Nat)
  | hold (h : Nat)
  | part (h ptn : Nat) (place : Place)
  | last (h ptn : Nat) (place : Option Place)
  deriving DecidableEq, Repr, Inhabited

/-- Where a token may stand that is neither early nor to be discarded (R66, R67). -/
def Module.seat (m : Module) (h : Nat) (i : Inst) (g : Graph) (n : Node) (t : Token) : Fate :=
  let have_ := (((m.hall h).entries.find? fun e => e.key == tokKey t).map fun e => e.tokens.length).getD 0
  if have_ + 1 = popcount 8 n.dyn then
    match m.readyFor h i g with
    | some p => .last h i.ptn (some p)
    | none => if 4096 ≤ (m.hall h).tokensAt .completion none then .hold h else .last h i.ptn none
  else match m.slotFor h i g with
    | some p => .part h i.ptn p
    | none => .hold h

/-- The node that a token names lives in this hall; a token that names none is taken in the first hall of its graph, and one that
names no live instance in hall H0 (log entry 9, DESIGN CHOICE). -/
def Module.hallFor (m : Module) (t : Token) : Nat :=
  match (m.inst t.inst).bind fun i => (m.graph i.ptn i.handle).map fun g => (m.draft i.ptn, g) with
  | none => 0
  | some (d, g) => ((g.nodes[t.node.toNat]?).map d.nodeHall).getD ((d.graphHalls g).headD 0)

/-- What becomes of a token now (R57). A token of a cancelled instance is stale whatever node it names, the first row of R57's table
that fits (log entry 150, DESIGN CHOICE). An instance is live on the member that admits it: no message of the spec tells another
member the graph of an instance, so a token of an instance that another member admitted is stale here (R51, log entry 151,
DESIGN CHOICE). -/
def Module.fate (m : Module) (t : Token) : Fate :=
  let h := m.hallFor t
  match m.inst t.inst with
  | none => .stale h
  | some i =>
    if i.cancelled then .stale h
    else match m.graph i.ptn i.handle with
      | none => .stale h
      | some g =>
        match g.nodes[t.node.toNat]? with
        | none => .missing h
        | some n =>
          if !(decide (tokPort t < n.nports) && n.dyn.testBit (tokPort t)) then .missing h
          else if (m.hall h).filled (tokKey t) (tokPort t) then .dup h
          else if (m.hall h).early t g.maxgen then .hold h
          else m.seat h i g n t

/-- A token enters its match entry; the first one makes the entry. -/
def Module.addToken (m : Module) (h ptn : Nat) (t : Token) (place : Place) (st : EntryState) : Module :=
  if (m.hall h).entries.any fun e => e.key == tokKey t then
    m.setEntry (tokKey t) fun e => { e with state := st, tokens := e.tokens ++ [(tokPort t, t, place)] }
  else m.setHall h fun x => { x with entries := x.entries ++
    [{ key := tokKey t, ptn := ptn, hall := h, state := st, tokens := [(tokPort t, t, place)] }] }

/-- The store takes or discards a token (R57). -/
def Module.settleToken (m : Module) (t : Token) : Fate → Module
  | .stale h => m.count (halR h 0x018) 32 32
  | .missing h => (m.count (halR h 0x028) 0 32).flagInst t.inst stFlagged
  | .dup h => (m.count (halR h 0x018) 0 32).flagInst t.inst stFlagged
  | .hold _ => m
  | .part h p place => m.addToken h p t place .filling
  | .last h p (some place) => (m.addToken h p t place .waitReady).makeReady h (tokKey t) place
  | .last h p none => (m.addToken h p t .completion .waitReady).count (halR h 0x020) 32 32

/-- No token before this one is still to arrive over the same path: from the same source to the same hall (R28). One that has
arrived and is held back lets later ones pass (log entry 152, DESIGN CHOICE). -/
def Module.inOrder (m : Module) (j : Nat) (x : Flight) : Bool :=
  (m.tokens.take j).all fun y => y.since.isSome || y.src != x.src || m.hallFor y.tok != m.hallFor x.tok

/-- The flight of a token that can arrive now, with its place among the tokens on their way. -/
def Module.arrival (m : Module) (t : Token) : Option (Flight × Nat) :=
  m.tokens.zipIdx.find? fun x => x.1.tok == t && m.inOrder x.2 x.1

/-- A token that is on its way reaches the matching store (R57). A producer that is held back is counted once (R66, R69). -/
def Module.tokenArrive (m : Module) (t : Token) : Module :=
  match m.arrival t with
  | none => m
  | some (x, j) =>
    match m.fate t with
    | .hold h =>
      if x.since.isSome then m
      else { m.count (halR h 0x020) 0 32 with tokens := m.tokens.set j { x with since := some m.ltime } }
    | f => ({ m with tokens := m.tokens.eraseIdx j } : Module).settleToken t f

def execTokenArrive (t : Token) (s : State) : Host.Outcome State Fault Refusal := s.on fun m => m.tokenArrive t

/-- The TOKEN packet of a member's flows that holds a token and is not acknowledged: its flow, number, time and tokens (R52). -/
def Module.undelivered (m : Module) (t : Token) : Option (Flow × Nat × Nat × List Token) :=
  m.fab.flows.findSome? fun f => f.unacked.findSome? fun x => match x.2.2 with
    | .tokens _ ts => if ts.contains t then some (f, x.1, x.2.1, ts) else none
    | _ => none

/-- A late token is discarded and counted (R52, R57): by the hall, where it names no live instance; by its source, with its TOKEN
packet, 1 s after it was sent. A token that is neither stays. -/
def Module.discardLate (m : Module) (t : Token) : Module :=
  match m.arrival t, m.fate t with
  | some (_, j), .stale h => ({ m with tokens := m.tokens.eraseIdx j } : Module).settleToken t (.stale h)
  | some _, _ => m
  | none, _ =>
    match m.undelivered t with
    | none => m
    | some (f, n, at_, ts) =>
      let m := (m.until_ (at_ + 1000000000)).setFlow { f with unacked := f.unacked.filter fun x => x.1 != n }
      m.count (halR 0 0x018) 32 32 ts.length

def execStaleTokenDiscard (t : Token) (s : State) : Host.Outcome State Fault Refusal := s.on fun m => m.discardLate t

/-- The tokens of the packets that a flow has not delivered. -/
def Flow.lostTokens (f : Flow) : Nat := (f.unacked.map fun x => match x.2.2 with
  | .tokens _ ts => ts.length
  | _ => 0).sum

/-- Flows end: their undelivered packets are discarded, and the tokens in them counted as stale in hall H0 (R52, R393). -/
def Module.dropFlows (m : Module) (p : Flow → Bool) : Module :=
  let lost := ((m.fab.flows.filter p).map Flow.lostTokens).sum
  (m.setFab fun x => { x with flows := x.flows.filter fun f => !p f }).count (halR 0 0x018) 32 32 lost

/-- Since when a producer of an instance is held back: with a token on its way, or as a store-executed node that waits (R66). -/
def Module.heldSince (m : Module) (inst : BitVec 32) : Option Nat :=
  ((m.tokens.filter fun t => t.tok.inst == inst).findSome? (·.since)).orElse fun _ =>
    (m.halls.flatMap (·.entries)).findSome? fun e => if e.key.inst == inst then e.heldAt.map (·.2) else none

/-- The tokens of an instance that no firing of it holds are discarded and counted (R54, R56, R69): those of its match entries that do
not execute, and those with which a producer is held back, which goes on. Benches that held themselves free for it do so no longer.
Those on their way are discarded as they arrive. -/
def Module.discardTokens (m : Module) (inst : BitVec 32) : Module :=
  let idle (e : MatchEntry) : Bool := e.key.inst == inst && e.state != .executing
  let held (t : Flight) : Bool := t.tok.inst == inst && t.since.isSome
  let keys := ((m.halls.flatMap (·.entries)).filter idle).map (·.key)
  let stale (h : Nat) : Nat := (((m.hall h).entries.filter idle).map fun e => e.tokens.length).sum +
    m.tokens.countP fun t => held t && m.hallFor t.tok == h
  let n := (List.range 4).map stale
  let m := (List.range 4).foldl (fun (m : Module) h => m.count (halR h 0x018) 32 32 (n.getD h 0)) m
  ({ m with halls := m.halls.map fun x => { x with entries := x.entries.filter fun e => !idle e }
            tokens := m.tokens.filter fun t => !held t } : Module).unhold keys

/-! ### Rounds end (R356–R358) -/

/-- A request of a round has completed; the round may be complete, and late (R357). -/
def Module.roundDone (m : Module) (p r : Nat) : Module :=
  match (m.ptn p).rounds.due.find? fun x => x.1 == r with
  | none => m
  | some (_, due, left, total) =>
    if 1 < left then
      m.setPtn p fun x => { x with rounds := { x.rounds with
        due := x.rounds.due.map fun y => if y.1 == r then (y.1, y.2.1, left - 1, total) else y } }
    else
      let m := m.setPtn p fun x => { x with rounds := { x.rounds with due := x.rounds.due.filter fun y => y.1 != r } }
      if m.ltime ≤ due then m
      else
        let excess := m.ltime - due
        let m := m.setPtn p fun x => { x with rounds := { x.rounds with owed := x.rounds.owed + excess } }
        let m := m.setFld (ptnR p 0xC8) 32 32 (min (2 ^ 32 - 1) (max (m.fld (ptnR p 0xC8) 32 32) (excess / 1000)))
        if (m.draft p).part.mode = 1 then
          m.post 0x0303 (some p) r (leBytes 4 r ++ leBytes 4 (excess / 1000) ++ leBytes 2 total)
        else m

/-! ### Instances end (R54, R56, R170, R440) -/

/-- The editions that no instance of this member is bound to any more are reported DRAINED (R170). -/
def Module.checkDrained (m : Module) : Module :=
  m.tables.foldl (fun (m : Module) (t : Table) =>
    t.editions.foldl (fun (m : Module) (e : Edition) =>
      if e.state == .retiring && !e.reported && !(m.insts.any fun i => i.bindings.contains (t.place.table, e.num)) then
        let m : Module := { m with tables := m.tables.map fun x =>
          if x.place.table = t.place.table then
            { x with editions := x.editions.map fun y => if y.num = e.num then { y with reported := true } else y }
          else x }
        m.toWarden (.drained t.place.table e.num)
      else m) m) m

/-- The bytes of a result list as the graph wrote them (R373). -/
def Module.resultPieces (m : Module) (i : Inst) : List (List (Nat × List Byte)) :=
  i.outBufs.map fun (buf, _) =>
    ((assocGet buf i.wrote).getD []).map fun (lo, hi) => (lo, m.mem.readN (bufKey buf lo) (hi - lo))

/-- A request for one more execution (R440): a read-only one on the next JOINED member, or here where this is the only
one; an effectful one on the tally twin. -/
def Module.reexecute (m : Module) (r : Request) (e : TallyEntry) (i : Inst) : Module :=
  let hall := ((m.qp r.qp).map (·.port)).getD 0
  let m := m.count (halR hall 0x318) 32 32
  let m := m.degradeAll 0x020A (some r.ptn) r.reqid.toNat
    (leBytes 8 r.reqid.toNat ++ leBytes 1 i.lostCause ++ leBytes 1 0)
  let g := m.guildSize
  let next := ((List.range g).map fun j => (m.member + 1 + j) % g).find? fun x =>
    m.isJoined x && (x != m.member || !(m.ptn r.ptn).impaired)
  let target := if e.effectful then m.tallyTwin m.member else next
  match target with
  | none => m.recordDone r.ptn r.reqid stFaultAddress 0
  | some t =>
    if t = m.member then
      m.setPtn r.ptn fun x => { x with requests := x.requests ++
        [{ r with state := .waiting, reexec := true, forLost := false }] }
    else
      let m := m.sendTo t 1 (.command ((m.ltime - e.arrival) / 1000 + e.elapsed) r.capsule
        (r.inputs.flatMap fun (b, n) => m.mem.readN (bufKey b 0) n))
      let m := m.setPtn r.ptn fun x => { x with tally := x.tally.filter fun y => y.reqid != r.reqid }
      m.setCtr fun c => { c with forwarded := c.forwarded ++
        [{ origin := { own := e.own, recv := e.recv, capsule := r.capsule }, waits := [t] }] }

/-- The staged inputs of a request are freed (R456). -/
def Module.dropInputs (m : Module) (r : Request) : Module :=
  let mem := r.inputs.foldl (fun (mm : Memory) x => Memory.zero mm (bufKey x.1 0) (bufKey x.1 x.2)) m.mem
  ({ m with mem := mem } : Module).setCtr fun c => { c with stagedBytes := c.stagedBytes - r.staged }

/-- An executed RUN ends: once more under R440, or its completion is recorded with its results. -/
def Module.finishRun (m : Module) (i : Inst) (st : Nat) (results : List (List (Nat × List Byte))) : Module :=
  match (m.ptn i.ptn).requests.find? fun r => r.reqid == i.reqid with
  | none => m.recordDone i.ptn i.reqid st 0 results
  | some r =>
    let m := m.setPtn i.ptn fun x => { x with requests := x.requests.filter fun y => y.reqid != i.reqid }
    let lost := (st == stFaultAddress && i.lostCause != 0) || (i.lostCause == 3 && !i.cancelled)
    let m := match m.tallyOf i.ptn i.reqid with
      | none => m
      | some e =>
        if lost && !i.launched && !r.reexec then m.reexecute r e i
        else
          let m := m.recordDone i.ptn i.reqid st 0 (if resultValid st then results else [])
          if lost && i.launched then
            m.degradeAll 0x020A (some i.ptn) i.reqid.toNat (leBytes 8 i.reqid.toNat ++ leBytes 1 i.lostCause ++ leBytes 1 1)
          else m
    if (m.ptn i.ptn).requests.any fun y => y.reqid == i.reqid then m else (m.dropInputs r).roundDone i.ptn r.round

/-- A draining member whose records are copied and which has no instance left tells the warden, once (R442 step 4). -/
def Module.checkDrain (m : Module) : Module :=
  let left := !m.insts.isEmpty || m.ptns.any fun p => p.requests.any fun r => r.dest == m.member
  if m.pwr.mode != .draining || m.pwr.drainAt.isNone || m.pwr.drainCopy || left then m
  else (m.setPwr fun p => { p with drainAt := none }).toWarden .drainDone

/-- The instance completes with a status (R54 step 6): its tokens are discarded and counted, its entries, buffers,
bindings and reservations released, and its request finished. -/
def Module.completeInst (m : Module) (i : Inst) (st : Nat) : Module :=
  let results := m.resultPieces i
  let m := m.discardTokens i.num
  let m : Module := { m with halls := m.halls.map fun x =>
    { x with entries := x.entries.filter fun e => e.key.inst != i.num
             barriers := x.barriers.filter fun b => b.key.inst != i.num } }
  let mem := i.outBufs.foldl (fun mm (b, n) => Memory.zero mm (bufKey b 0) (bufKey b n)) m.mem
  let m : Module := { m with
    mem := mem
    insts := m.insts.filter fun x => x.num != i.num
    instLog := (m.instLog.filter fun x => x.1 != i.num.toNat % 2 ^ 18 + i.num.toNat / 2 ^ 24 * 2 ^ 18) ++
      [(i.num.toNat % 2 ^ 18 + i.num.toNat / 2 ^ 24 * 2 ^ 18, m.ltime)]
    gathers := m.gathers.filter fun x => x.key.inst != i.num
    scatters := m.scatters.filter fun x => x.key.inst != i.num
    samples := m.samples.filter fun x => x.key.inst != i.num }
  let m := if ((m.graph i.ptn i.handle).map (·.arena)).getD 0 = 0 then m
    else m.setPtn i.ptn fun x => { x with arenaUsed := x.arenaUsed.filter fun a => a.1 != i.arenaBase }
  let m := if m.insts.any fun x => x.ptn == i.ptn && x.handle == i.handle then m else m.setPtn i.ptn fun x =>
    { x with graphs := x.graphs.filter fun g => !(g.handle == i.handle && x.unloaded.contains g.handle)
             unloaded := x.unloaded.filter fun h => h != i.handle }
  (((m.promoteAll.checkDrained).finishRun i st results).checkReady).checkDrain

/-- The instance is complete once its EXIT firings have occurred, or it is cancelled, and no node of it is executing
(R54, R56). -/
def Module.checkInst (m : Module) (inst : BitVec 32) : Module :=
  match m.inst inst with
  | none => m
  | some i =>
    let busy := m.halls.any fun h => h.entries.any fun e => e.key.inst == inst && e.state == .executing
    if busy then m
    else if i.cancelled then m.completeInst i stAborted
    else match m.graph i.ptn i.handle with
      | none => m
      | some g => if g.exits ≤ i.exitsDone then m.completeInst i i.status else m

/-! ### A firing ends (R57–R59) -/

/-- The token toward a destination (R43, R51). -/
def Module.tokenFor (m : Module) (i : Inst) (d : Dest) (gen : BitVec 16) (kind st value : Nat) : Token :=
  { inst := i.num, node := BitVec.ofNat 16 d.node, gen := gen, pk := BitVec.ofNat 8 (d.port + 8 * kind)
    status := BitVec.ofNat 8 st, ptn := BitVec.ofNat 8 i.ptn, member := BitVec.ofNat 8 (if d.remote then d.member else m.member)
    value := BitVec.ofNat 32 value }

/-- A token leaves its producer: to a hall here, or in a TOKEN packet to the member that it names; for a member that has been
removed it is discarded and counted (R51, R52). -/
def Module.sendToken (m : Module) (src : TokenSrc) (t : Token) : Module :=
  let dst := t.member.toNat
  if dst = m.member then { m with tokens := m.tokens ++ [{ tok := t, src := src }] }
  else if m.isJoined dst then m.sendTo dst 1 (.tokens t.ptn.toNat [t])
  else m.count (halR 0 0x018) 32 32

def Module.sendTokens (m : Module) (src : TokenSrc) (ts : List Token) : Module :=
  ts.foldl (fun (m : Module) t => m.sendToken src t) m

/-- What the tokens of a firing come from: the ropewalk, its bench, or the units of its hall that executed it. -/
def Firing.src (f : Firing) : TokenSrc :=
  if f.n.op = 0x50 then .ropewalk else (f.e.bench.map TokenSrc.bench).getD (.hall f.e.hall)

/-- The DATA and CONTROL tokens of a firing (R43, R59); an ALLREDUCE sends its CHUNK tokens apart (R423). -/
def Module.results (m : Module) (f : Firing) (st : Nat) : List Token :=
  (f.n.dest.filter (·.valid)).filterMap fun d =>
    if d.sel = 2 then (if f.n.op = 0x50 then none else some (m.tokenFor f.i d f.key.gen 2 st 0))
    else some (m.tokenFor f.i d f.key.gen 0 st (f.n.res.getD d.sel 0))

/-- The entry of a firing leaves the store: EXIT is counted with the status (R57, R59), barriers no longer wait for it,
and its instance may be complete. -/
def Module.leave (m : Module) (f : Firing) (st : Nat) : Module :=
  let m : Module := { m with halls := m.halls.map fun h =>
    { h with entries := h.entries.filter fun e => e.key != f.key
             barriers := h.barriers.map fun b => { b with waits := b.waits.filter (· != f.key) } } }
  let m := if f.n.exit && !f.i.cancelled then
    m.setInst f.i.num fun i => { i with exitsDone := i.exitsDone + 1, status := worse i.status st } else m
  m.checkInst f.i.num

/-- Zero the accumulator banks of a bench (R209, R210). -/
def Module.zeroAcc (m : Module) (b : Nat) : Module :=
  ({ m with mem := m.mem.zero (tileBase b + 0x5F8000) (tileBase b + 0x600000) } : Module).setBench b fun x => { x with clearDue := false }

/-- The accumulator clears that wait for the end of the firings of some benches take effect (R216). -/
def Module.clearAccs (m : Module) (ended : Bench → Bool) : Module :=
  ((List.range 256).filter fun b => (m.bench b).clearDue && ended (m.bench b)).foldl Module.zeroAcc m

/-- The benches of a firing are free; a pre-admitted firing takes its bench (R336). -/
def Module.freeBenches (m : Module) (k : FKey) : Module :=
  let m := m.clearAccs fun b => b.busy == some k
  { m with benches := m.benches.map fun b =>
      if b.busy == some k then { b with busy := b.next, next := none }
      else if b.next == some k then { b with next := none } else b }

/-- What the end of a firing means to the fused hand-overs it belongs to (R344): closed once both its firings have ended;
a producer without a valid result ends its consumer with its status. -/
def Module.endHandOver (m : Module) (f : Firing) : Module :=
  let closed (g : GroupSt) : Bool :=
    (g.cons == f.key && (m.entry g.prod).isNone) || (g.prod == f.key && (m.entry g.cons).isNone)
  let mem := (m.groups.filter closed).foldl (fun (mm : Memory) g => Memory.zero mm (bufKey g.buf 0) (bufKey g.buf (2 ^ 32))) m.mem
  let m : Module := { m with mem := mem, groups := m.groups.filter fun g => !closed g }
  if resultValid f.e.status then m
  else match m.groups.find? fun g => g.prod == f.key with
    | some g => m.setEntry g.cons fun e => if e.ran then e else { e with ran := true, launched := true, status := f.e.status, haltAt := none }
    | none => m

/-- A firing that has run ends: its streams return, its tokens leave, its EXIT counts (R57, R58, R330). Tokens of a
cancelled instance are discarded (R56). -/
def Module.endFiring (m : Module) (f : Firing) : Module :=
  let m := ((m.endHandOver f).freeStreams f.e.hall f.key).freeBenches f.key
  let m : Module := { m with
    chains := m.chains.filter (·.key != f.key)
    hubs := m.hubs.filter (·.key != f.key)
    gathers := m.gathers.filter (·.key != f.key)
    scatters := m.scatters.filter (·.key != f.key)
    samples := m.samples.filter (·.key != f.key) }
  let m := if f.i.cancelled then m.count (halR f.e.hall 0x018) 32 32 (f.n.dest.countP (·.valid))
    else m.sendTokens f.src (m.results f f.e.status)
  m.leave f f.e.status

/-- A producer holds its end until its consumer has taken every tile, or has ended (R344). -/
def Module.tilesLeft (m : Module) (f : Firing) : Bool :=
  resultValid f.e.status && m.groups.any fun g =>
    g.prod == f.key && decide (g.sentTiles < g.tiles) && ((m.entry g.cons).map fun e => !e.ran).getD false

def execNodeFiringEnd (k : FKey) (s : State) : Host.Outcome State Fault Refusal :=
  s.on fun m =>
    match m.firing k with
    | some f => if f.e.state == .executing && f.e.ran && f.e.haltAt.isNone && !m.tilesLeft f then m.endFiring f else m
    | none => m

/-! ### Store-executed classes (R45, R46, R59) -/

/-- The statuses of an entry's tokens by port. -/
def MatchEntry.statuses (e : MatchEntry) : List (Nat × Nat) := e.tokens.map fun t => (t.1, t.2.1.status.toNat)

/-- A READY store-executed node of a class. -/
def Module.storeFiring (m : Module) (k : FKey) (op : Nat) : Option Firing :=
  (m.firing k).filter fun f => f.n.op == op && f.e.state == .ready

/-- The status a store-executed node's tokens carry (R59). -/
def storeStatus (e : MatchEntry) : Nat :=
  match tokensStatus e.statuses with
  | .inl s => s
  | .inr s => s

/-- The port-0 token, or a CONTROL token, toward one destination (R45). -/
def Module.passed (m : Module) (f : Firing) (gen : BitVec 16) (st : Nat) (d : Dest) : Option Token :=
  (f.e.token 0).map fun t =>
    if d.sel = 2 then m.tokenFor f.i d gen 2 st 0 else m.tokenFor f.i d gen (tokKind t) st t.value.toNat

/-- The hall of this member in which the store holds back one of these tokens (R66). -/
def Module.holding (m : Module) (ts : List Token) : Option Nat :=
  ts.findSome? fun t => if t.member.toNat = m.member then (match m.fate t with
    | .hold h => some h
    | _ => none) else none

/-- Execute a store node: its ready entry frees, its tokens leave, and it is gone. While the store holds one of them back the node
waits in its ready entry, which is counted once (R66). -/
def Module.storeRun (m : Module) (f : Firing) (st : Nat) (ts : List Token) : Module :=
  match m.holding ts with
  | some h =>
    if f.e.heldAt.isSome then m
    else (m.count (halR h 0x020) 0 32).setEntry f.key fun e => { e with heldAt := some (h, m.ltime) }
  | none =>
    (((m.setEntry f.key fun e => { e with state := .executing }).sendTokens (.hall f.e.hall) ts).promote f.e.hall).leave f st

def execRelay (k : FKey) (s : State) : Host.Outcome State Fault Refusal :=
  s.on fun m =>
    match m.storeFiring k 0x01 with
    | none => m
    | some f => m.storeRun f (storeStatus f.e) ((f.n.dest.filter (·.valid)).filterMap (m.passed f k.gen (storeStatus f.e)))

def execJoin (k : FKey) (s : State) : Host.Outcome State Fault Refusal :=
  s.on fun m =>
    match m.storeFiring k 0x02 with
    | none => m
    | some f => m.storeRun f (storeStatus f.e)
        ((f.n.dest.filter (·.valid)).map fun d => m.tokenFor f.i d k.gen 2 (storeStatus f.e) 0)

/-- The status of a STEER that executes: FAULT_ADDRESS where port 1 holds no SCALAR token (R522). -/
def steerStatus (e : MatchEntry) : Nat :=
  match tokensStatus e.statuses with
  | .inl s => s
  | .inr s => if ((e.token 1).map fun t => tokKind t == 1).getD false then s else stFaultAddress

/-- STEER: a non-zero scalar sends the port-0 token to DEST[0] and DEST[1] one generation on; a zero one, or a status
without a valid result, to DEST[2] and DEST[3] (R45, R59). -/
def execSteer (k : FKey) (s : State) : Host.Outcome State Fault Refusal :=
  s.on fun m =>
    match m.storeFiring k 0x03 with
    | none => m
    | some f =>
      let st := steerStatus f.e
      let on := resultValid st && ((f.e.token 1).map fun t => t.value != 0).getD false
      let dests := if on then f.n.dest.take 2 else (f.n.dest.drop 2).take 2
      m.storeRun f st ((dests.filter (·.valid)).filterMap (m.passed f (if on then k.gen + 1 else k.gen) st))

/-! ### Dispatch (R62, R63, R79, R328) -/

/-- The outcome of a node's operand tokens (R59, R522): it executes, with OK or OK_FLAGGED, or it ends with a status. -/
def Firing.operands (f : Firing) : Nat ⊕ Nat :=
  match tokensStatus f.e.statuses with
  | .inl s => .inl s
  | .inr s =>
    if (List.range f.n.nports).all fun p => !f.n.dyn.testBit p || (f.tensor p).isSome then .inr s else .inl stFaultAddress

/-- An entry goes to EXECUTING on its benches and its ready entry frees. A node whose operands do not let it execute has
run at once, with the status of R59 or R522; the answer says whether it still asks for streams. -/
def Module.begin_ (m : Module) (f : Firing) (benches : List Nat) (chain : List Nat) : Module × Bool :=
  let h := f.e.hall
  let m := m.setEntry f.key fun e => { e with state := .executing, bench := benches.head?, benches := chain }
  let m := match benches.head? with
    | none => m
    | some b =>
      let aff := (m.hall h).affinityOf f.i.handle f.n.index
      let m := if aff.isSome ∧ aff != some b then m.count (halR h 0x028) 32 32 else m
      let m := m.setHall h fun x => { x with affinity :=
        (x.affinity.filter fun (a : Nat × Nat × Nat) => !(a.1 == f.i.handle && a.2.1 == f.n.index)) ++ [(f.i.handle, f.n.index, b)] }
      m.setInst f.i.num fun i => { i with benchesRan := if i.benchesRan.contains b then i.benchesRan else i.benchesRan ++ [b] }
  let m := m.promote h
  match f.operands with
  | .inl st =>
    let f : Firing := { f with e := { f.e with bench := benches.head?, benches := chain } }
    ((m.showStatus f st).setEntry f.key fun e => { e with ran := true, launched := true, status := st }, false)
  | .inr st => (m.setEntry f.key fun e => { e with status := st }, true)

/-- An entry goes to EXECUTING, and its streams are asked for. -/
def Module.start (m : Module) (f : Firing) (benches : List Nat) (chain : List Nat) : Module :=
  let x := m.begin_ f benches chain
  if x.2 then x.1.takeIn f (if chain.isEmpty then benches else chain) else x.1

/-- An entry whose word of the matching store has a double-bit error takes its bench and ends with FAULT_ADDRESS, as a node that reads an
uncorrected sector (R317, R319). -/
def Module.loseEntry (m : Module) (f : Firing) (b : Nat) : Module :=
  let x := m.begin_ f [b] []
  if x.2 then (x.1.launch f.key).stopFiring { f with e := { f.e with bench := some b } } Stop.addr else x.1

/-- A bench takes the node chosen for it (R62); `o` is how its entry reads back from the matching store (R317). -/
def Module.dispatch (m : Module) (b : Nat) (o : SectorOutcome) : Module :=
  if !m.benchIdle b then m
  else
    let h := b / 64
    match m.chosen h b with
    | none => m
    | some (e, ps) =>
      match m.firing e.key with
      | none => m
      | some f =>
        let m := m.useTurn h b e.ptn ps
        let m := m.setBench b fun x => { x with busy := some e.key }
        if o = .uncorrectable then m.loseEntry f b else m.start f [b] []

def execBenchDispatch (bench : Reading BenchId) (s : State) : Host.Outcome State Fault Refusal :=
  s.on fun m => m.dispatch bench.what.val bench.outcome

/-- The hold of a READY node ends at its time (R63). -/
def execAffinityHoldExpire (k : FKey) (s : State) : Host.Outcome State Fault Refusal :=
  s.on fun m =>
    match (m.entry k).bind (·.holdTill) with
    | some t => (m.until_ t).setEntry k fun e => { e with lapsed := true }
    | none => m

/-- A producer of an instance is held back past HOLDLIM: HAL_MSTAT.STALL and HAL_MSTALL_INST follow from the held
tokens, and the notice is posted once per instance (R69). -/
def execMatchStall (hall : HallId) (inst : BitVec 32) (s : State) : Host.Outcome State Fault Refusal :=
  s.on fun m =>
    match m.inst inst, m.heldSince inst with
    | some i, some since =>
      let m := m.until_ (since + m.fld (halR hall 0x000) 16 16 * 1000 + 1)
      if i.stallSaid then m
      else (m.setInst inst fun x => { x with stallSaid := true }).post 0x0102 (some i.ptn) inst.toNat
        (leBytes 4 inst.toNat ++ leBytes 1 hall.val)
    | _, _ => m

end Sys2Proof.Machine
end

