-- ==== Sys2Proof/Machine/Stack.lean ====
section
/-! DEFINITION. The stack controllers: the combining buffer (R150–R153), withdrawal (R441), and check codes and poison
(R318–R322). -/
namespace Sys2Proof.Machine

/-! ### The combining buffer (R150–R153) -/

/-- Element types that the adders accept (R150). -/
def addType (t : Nat) : Bool := t == 0x01 || t == 0x02 || t == 0x03 || t == 0x13 || t == 0x14

/-- Write back every combining entry that a test picks (R152). -/
def Module.writeBackAll (m : Module) (s : Nat) (p : CombEntry → Bool) : Module :=
  ((m.quern s).comb.filter p).foldl (fun (m : Module) e => m.writeBack s e.line) m

/-- Lines with a pending delta under a range that a node writes are written back first (R310). -/
def Module.settle (m : Module) (key len : Nat) : Module :=
  (List.range 20).foldl (fun (m : Module) s => m.writeBackAll s fun e => lineIn key (key + len) e.line) m

/-- An engine that works on its own, at the stack, reads or writes bytes at a region address, with its tensor's HINT and charge (R305,
R311). -/
def Module.engineRead (m : Module) (p key ra len hint : Nat) : Module := m.accessAll (m.stackOfKey key / 5) p ra len hint false

def Module.engineWrite (m : Module) (p key ra hint : Nat) (bs : List Byte) : Module :=
  ((((m.settle key bs.length).store key bs).clearPoison key bs.length).staleSpan key (key + bs.length)).accessAll
    (m.stackOfKey key / 5) p ra bs.length hint true

/-- Merge deltas into the combining entry of a line; a new entry starts from zero, and takes the place of the least
recently updated one when all 24,576 are in use (R150, R152, R310). With CBEN 0 the line is read, added to, rounded and
written (R153). -/
def Module.accept (m : Module) (s p type line : Nat) (deltas : List Word) : Module :=
  let m := m.staleLine s line false
  if m.fld (qrnR s 0x008) 1 1 = 0 then
    if m.poisonedIn (line * 128) 128 then m
    else
      let r := addDeltas type (m.mem.readN (line * 128) 128) deltas
      (((m.store (line * 128) r.1).count (qrnR s 0x058) 0 32 r.2).snoop s line).charge s p 588
  else
    let merge (e : CombEntry) : CombEntry :=
      { e with lastAdd := m.stamp, addAt := m.ltime
               deltas := (e.deltas.zip deltas).map fun (a, b) =>
                 deltaWord type (plusVal (deltaVal type a) (deltaVal type b)) }
    if (m.quern s).comb.any (·.line == line) then
      { m.setQuern s fun q => { q with comb := updWhere (fun e => e.line == line) merge q.comb } with stamp := m.stamp + 1 }
    else
      let oldest := (m.quern s).comb.foldl (fun (b : Option CombEntry) e => match b with
        | none => some e
        | some x => if e.lastAdd < x.lastAdd then some e else some x) none
      let m := match oldest with
        | some e => if 24576 ≤ (m.quern s).comb.length then (m.writeBack s e.line).count (qrnR s 0x050) 32 32 else m
        | none => m
      let fresh : CombEntry := { line := line, type := type, ptn := p, deltas := deltas, lastAdd := m.stamp, addAt := m.ltime }
      { ((m.setQuern s fun q => { q with comb := q.comb ++ [fresh] }).snoop s line) with stamp := m.stamp + 1 }

/-- The combining entries of a range of keys are discarded (R152). -/
def Module.dropDeltas (m : Module) (lo hi : Nat) : Module :=
  { m with querns := m.querns.map fun q => { q with comb := q.comb.filter fun e => !lineIn lo hi e.line } }

/-- A page is released: its hot-row and window lines, its combining entries, its poison and its hall cache lines go, and
its bytes read as zero (R85, R146, R152, R319). -/
def Module.releaseKeys (m : Module) (lo hi : Nat) : Module :=
  let m := (m.dropRows lo hi).dropDeltas lo hi
  let m := (List.range 4).foldl (fun (m : Module) h => m.dropCache h fun c => lineIn lo hi c.line) m
  { m with mem := m.mem.zero lo hi
           querns := m.querns.map fun q => { q with poisoned := q.poisoned.filter fun x => !decide (lo ≤ x * 32 ∧ x * 32 < hi) } }

/-! ### Withdrawal (R441) -/

/-- Non-table pages of a partition lie on the stack. -/
def Module.hasPages (m : Module) (p s : Nat) : Bool :=
  (m.ptn p).regions.any fun g => !m.isTableRegion p g.info.rgn && decide (0 < g.info.pagesOn s)

/-- Firings halted at a page that has become LOST end with FAULT_ADDRESS, cause LOST (R339). -/
def Module.endLostHalts (m : Module) : Module :=
  (m.halls.flatMap (·.entries)).foldl (fun (m : Module) e =>
    match e.haltAt, m.firing e.key with
    | some page, some f =>
      if m.residencyCode f.ptn page = 3 ∧ f.n.op ≠ 0x50 then
        let ctx := (((m.hall f.e.hall).contexts.find? fun c => c.key == f.key && c.state == 2).map (·.idx)).getD 0
        let m := m.stopFiring f (.fault stFaultAddress (some (page, 4, permRead)) 1)
        m.post 0x0503 (some f.ptn) f.key.inst.toNat (m.pageDetail f.ptn page f.key ++ leBytes 1 ctx)
      else m
    | _, _ => m) m

/-- A stack is withdrawn at run time: the steps of R441 in order. -/
def Module.withdraw (m : Module) (s cause : Nat) : Module :=
  if (m.quern s).withdrawn then m
  else
    let h := s / 5
    let hit := (List.range 8).filter fun p => m.hasPages p s && !(m.ptn p).impaired
    let m := hit.foldl (fun (m : Module) p => m.setPtn p fun x => { x with impaired := true }) m
    let m := m.writeBackAll s fun _ => true
    let onStack (c : CacheLine) : Bool := m.stackOfKey (c.line * 128) == s
    let m := (m.cleanCache h onStack).dropCache h onStack
    let pages := (m.allRegions.map fun g => g.info.pagesOn s).sum
    let m := m.setQuern s fun q => { q with withdrawn := true, wdcause := cause, hrc := [] }
    let m := m.endLostHalts
    let m := m.degrade h (s % 5) 0x0202 none s 0 (leBytes 1 s ++ leBytes 1 cause ++ leBytes 4 pages)
    hit.foldl (fun (m : Module) p => m.degrade h (s % 5) 0x0209 (some p) p 0 (leBytes 1 p ++ leBytes 1 s)) m

/-! ### Check codes (R318–R322) -/

/-- Record a sector in QRN_ECCLOG while it is free (R319). -/
def Module.eccLog (m : Module) (s sector kind src : Nat) : Module :=
  let a := qrnR s 0x118
  if m.fld a 63 1 = 1 then m
  else m.setReg a (BitVec.ofNat 64 (m.keyAddr (sector * 32) % 2 ^ 36 + kind * 2 ^ 36 + src * 2 ^ 38 + 2 ^ 63))

/-- A sector is found uncorrectable: poisoned, counted, recorded and reported once (R319); the sixteenth in a scrub
period withdraws the stack (R441). -/
def Module.poison (m : Module) (s sector src : Nat) : Module :=
  if (m.quern s).poisoned.contains sector then m
  else
    let m := m.setQuern s fun q => { q with poisoned := q.poisoned ++ [sector], ueScrub := q.ueScrub + 1 }
    let m := (m.count (qrnR s 0x110) 32 32).eccLog s sector 2 src
    let pool := m.poolAddr (m.keyAddr (sector * 32))
    let m := m.degrade (s / 5) (s % 5) 0x0201 none s pool (leBytes 1 s ++ leBytes 8 pool ++ leBytes 1 src)
    if 16 ≤ (m.quern s).ueScrub then m.withdraw s 3 else m

/-- A sector is corrected: counted and recorded; a row that yields SRTHR of them in a scrub period is repaired
(R318, R322). -/
def Module.corrected (m : Module) (s sector src : Nat) : Module :=
  let m := (m.count (qrnR s 0x110) 0 32).eccLog s sector 1 src
  let row := m.rowOf s (m.keyAddr (sector * 32) % 2 ^ 36)
  let n := (assocGet row (m.quern s).rowCe).getD 0 + 1
  let thr := m.fld (qrnR s 0x100) 9 4
  if thr ≠ 0 ∧ thr ≤ n then
    m.setQuern s fun q => { q with soft := q.soft + 1, rowCe := q.rowCe.filter fun (x : Nat × Nat) => x.1 != row }
  else m.setQuern s fun q => { q with rowCe := assocSet row n q.rowCe }

/-- The check code's outcome on an access: one free sector of it is corrected or found uncorrectable. -/
def Module.ecc (m : Module) (s key len src : Nat) : SectorOutcome → Module
  | .clean => m
  | o =>
    let n := (key + len - 1) / 32 - key / 32 + 1
    let (i, m) := m.pick (max 1 n)
    match o with
    | .corrected => m.corrected s (key / 32 + i) src
    | _ => m.poison s (key / 32 + i) src

end Sys2Proof.Machine
end

