-- ==== Sys2Proof/Machine/Channels.lean ====
section
/-! DEFINITION. The channel path: hall caches, single accesses and their order at the stack controller, and the patrol scrub
(R305–R310, R320). -/
namespace Sys2Proof.Machine

/-- One access of the channel path that translation allows and nothing holds back (R305, R309, R310). A line that it reads from the
cache with a double-bit error is an uncorrected error of that line (R317). -/
def Module.channelDo (m : Module) (a : ChanAcc) (key : Nat) (table : Bool) : Module :=
  let s := m.stackOfKey key
  let ls := linesOf key a.len
  let hits := ls.filter (m.cached (s / 5))
  match a.kind with
  | .read =>
    let m := m.access a.hall a.ptn key a.len a.hint table false false
    if hits.length < ls.length then m.ecc s key a.len 1 a.outcome
    else if a.outcome = .uncorrectable then (m.dropCache (s / 5) fun c => hits.contains c.line).ecc s key a.len 1 a.outcome
    else m
  | .write data =>
    let fills := !(m.missRuns a.ptn key a.len a.hint table true).isEmpty
    let m := if table then ls.foldl (fun (m : Module) l => (m.writeBack s l).staleLine s l true) m else m
    let m := m.access a.hall a.ptn key a.len a.hint table true false
    let m := if fills then m.ecc s key a.len 1 a.outcome else m
    (m.store key (slice data 0 a.len)).clearPoison key a.len

/-- A read or write on the channel path, of at most 16 lines in one 2 KiB span (R306). It is checked as R104 has it; a page that halts
it, and a want of miss registers or tags, hold it back (R306, R315). -/
def Module.channelAccess (m : Module) (a : ChanAcc) : Module :=
  let write := a.kind != .read
  let perm := if write then permWrite else permRead
  let table := m.tableAt a.ptn a.ra
  let held : Module := { m with heldAcc := m.heldAcc ++ [a] }
  if a.len = 0 ∨ a.ra / 2048 ≠ (a.ra + a.len - 1) / 2048 then m
  else match m.translate a.ptn a.master a.ra a.len perm with
  | .fault _ cause => m.xfault a.ptn a.master a.ra cause perm
  | .halt _ => held
  | .ok key _ =>
    if m.canAccess a.ptn key a.len a.hint table write then (m.cacheXlat (.hall a.hall) a.ptn a.ra a.len).channelDo a key table else held

/-- The accesses held back try again, in their order: a miss register has come free, or a page has become PRESENT (R306, R338). -/
def Module.retryAccesses (m : Module) : Module := m.heldAcc.foldl Module.channelAccess { m with heldAcc := [] }

/-- CHANNEL_ACCESS. -/
def execChannelAccess (master : BitVec 12) (hall : HallId) (ptn : PtnId) (ra len : Nat) (hint : Nat) (a : AccessKind)
    (o : SectorOutcome) (s : State) : Host.Outcome State Fault Refusal :=
  s.on fun m => m.channelAccess
    { master := master.toNat, hall := hall.val, ptn := ptn.val, ra := ra, len := len, hint := hint, kind := a, outcome := o }

/-- HALL_CACHE_FILL_DONE: the fill of a line returns and frees its miss register (R306, R310). -/
def execHallCacheFillDone (hall : HallId) (line : Nat) (s : State) : Host.Outcome State Fault Refusal :=
  s.on fun m =>
    let h := hall.val
    match (m.hall h).fills.find? fun f => f.has line with
    | none => m
    | some f => ((m.setHall h fun x => { x with fills := x.fills.erase f }).landFill h f).retryAccesses

/-- The sectors of a stack. -/
abbrev stackSectors : Nat := 2 ^ 31

/-- SCRUB_READ: the patrol scrub reads the next sector of the stack; the last one ends a scrub period (R320). -/
def execScrubRead (stack : StackId) (o : SectorOutcome) (st : State) : Host.Outcome State Fault Refusal :=
  st.on fun m =>
    let s := stack.val
    let q := m.quern s
    if m.fld (qrnR s 0x100) 0 1 = 0 ∨ !q.trained ∨ q.withdrawn then m
    else
      let sector := m.dramKey (s * 2 ^ 36 + q.scrubAt * 32) / 32
      let m := match o with
        | .clean => m
        | .corrected => m.corrected s sector 2
        | .uncorrectable => m.poison s sector 2
      if q.scrubAt + 1 < stackSectors then m.setQuern s fun x => { x with scrubAt := q.scrubAt + 1 }
      else m.setQuern s fun x => { x with scrubAt := 0, ueScrub := 0, rowCe := [] }

/-! ### Register actions of a hall cache (R307) -/

/-- Write back every dirty line, and invalidate every line. -/
def Module.invalidateCache (m : Module) (h : Nat) : Module := (m.cleanCache h fun _ => true).dropCache h fun _ => true

/-- HAL_CCTL.FLUSH writes back every dirty line; the lines stay valid. -/
def execHalCctlFlush (hall : HallId) (s : State) : Host.Outcome State Fault Refusal :=
  s.on fun m => m.cleanCache hall.val fun _ => true

/-- HAL_CCTL.INV. -/
def execHalCctlInv (hall : HallId) (s : State) : Host.Outcome State Fault Refusal := s.on fun m => m.invalidateCache hall.val

/-- HAL_CCTL.EN: clearing it writes back and invalidates every line. -/
def Module.setCacheEn (m : Module) (h : Nat) (en : Bool) : Module :=
  let m := m.setFld (halR h 0x180) 0 1 en.toNat
  if en then m else m.invalidateCache h

def execHalCctlEn (hall : HallId) (en : Bool) (s : State) : Host.Outcome State Fault Refusal := s.on fun m => m.setCacheEn hall.val en

end Sys2Proof.Machine
end

