-- ==== Sys2Proof/Machine/Vector.lean ====
section
/-! DEFINITION. The vector chain: its stages (R246–R255), the rules that tensors of bench nodes share (R12, R49, R219,
R222, R231), masks (R261–R263) and the VECTOR node (R256–R260). -/
namespace Sys2Proof.Machine

/-! ### Stages -/

/-- The element type of a working type code (R246). -/
def wtType (wt : Nat) : Nat :=
  match wt with
  | 0 => 0x01
  | 1 => 0x02
  | 2 => 0x03
  | 3 => 0x13
  | 4 => 0x12
  | _ => 0x10

/-- An element on its way through the chain: its type, value and events; `stop` marks an index out of range of a table with OOBX
(R250). -/
structure Strm where
  ty  : Nat
  v   : Val
  sat : Bool := false
  nan : Bool := false
  oob : Nat := 0
  stop : Bool := false
  deriving DecidableEq, Repr, Inhabited

/-- What the stages of one element read: side-operand elements, LUT entries with the type they enter as (none out of
range), the ports whose tables have OOBX, free choices for the function stages, and stochastic draws. -/
structure StageEnv where
  side   : Nat → Val
  lut    : Nat → Int → Nat × Option Val
  oobx   : Nat → Bool
  choice : Nat → Nat
  draw   : Nat → Nat

/-- An element of a stream type: rounded once to nearest even, or saturated (R251, R252). -/
def Strm.put (s : Strm) (v : Val) : Strm :=
  let c := v.toType s.ty .even
  { s with v := c.1, sat := s.sat || c.2.1, nan := s.nan || c.2.2 }

/-- A side operand or constant in the type of the stream (R247). -/
def Strm.side (s : Strm) (v : Val) : Val × Strm :=
  let c := v.toType s.ty .even
  (c.1, { s with sat := s.sat || c.2.1, nan := s.nan || (isInt s.ty && c.2.2) })

/-- The immediate of a stage (R250). -/
def immOf (ty param : Nat) : Val :=
  if isInt ty then .int (signedOf 16 param) else .flt (bf16.decode (param % 65536))

/-- A binary operation on two elements of one class. -/
def binOp (f : Num → Num → Num) (g : Int → Int → Int) : Val → Val → Val
  | .int a, .int b => .int (g a b)
  | a, b => .flt (f a.num b.num)

/-- MAX and MIN: a NaN operand is returned; equal values return x (R251). -/
def pickOp (less : Bool) (x s : Val) : Val :=
  if x.num.isNan then x
  else if s.num.isNan then s
  else if (if less then s.num.lt x.num else x.num.lt s.num) then s else x

/-- |v|, −v. -/
def Val.absV : Val → Val
  | .int n => .int n.natAbs
  | .flt x => .flt x.abs
def Val.negV : Val → Val
  | .int n => .int (-n)
  | .flt x => .flt x.negate

def Val.addV : Val → Val → Val := binOp Num.add (· + ·)
def Val.subV (a b : Val) : Val := binOp (fun x y => x.add y.negate) (· - ·) a b
def Val.mulV : Val → Val → Val := binOp Num.mul (· * ·)

/-- A function stage at fp32, rounded on to a narrower stream (R253, R254). -/
def Strm.fn (s : Strm) (choice code : Nat) : Strm :=
  let r := fnStage choice code s.v.num
  let s := { s with sat := s.sat || r.sat }
  s.put (.flt r.v)

/-- One stage of the catalogue of R249. -/
def Strm.stage (e : StageEnv) (s : Strm) (i : Nat) (st : VStage) : Strm :=
  let c := s.side (immOf s.ty st.param)
  let p := s.side (e.side (st.param % 4))
  let q := p.2.side (e.side (st.param / 4 % 4))
  match st.code with
  | 0x01 => s.put (s.v.addV c.1)
  | 0x02 => s.put (s.v.mulV c.1)
  | 0x03 => s.put (pickOp false s.v c.1)
  | 0x04 => s.put (pickOp true s.v c.1)
  | 0x05 => if s.v.num.isNan ∨ s.v.num.lt Num.zero then s.put (s.v.mulV c.1) else s.put s.v
  | 0x06 => s.put (pickOp true (pickOp false s.v c.1.absV.negV) c.1.absV)
  | 0x08 => p.2.put (s.v.addV p.1)
  | 0x09 => p.2.put (s.v.subV p.1)
  | 0x0A => p.2.put (s.v.mulV p.1)
  | 0x0B => p.2.put (pickOp false s.v p.1)
  | 0x0C => p.2.put (pickOp true s.v p.1)
  | 0x0D => q.2.put ((s.v.mulV p.1).addV q.1)
  | 0x0E =>
    let t := s.side (e.side (st.param / 4 % 4))
    if (e.side (st.param % 4)).nonZero then s.put s.v else t.2.put t.1
  | 0x10 => s.put s.v.absV
  | 0x11 => s.put s.v.negV
  | 0x12 => s.put (pickOp false s.v (zeroVal s.ty))
  | 0x13 => s.put (s.v.mulV s.v)
  | 0x30 =>
    match s.v with
    | .int n => s.put (.int (roundInt .even (decide (n < 0)) n.natAbs (-(st.param % 32 : Nat))))
    | v => s.put v
  | 0x31 => s.put (s.v.mulV (.int (2 ^ (st.param % 32))))
  | 0x38 => { s with ty := 0x01 }.put (.flt s.v.num)
  | 0x39 =>
    let r := s.v.toInt 0x13 (rndOf st.param e.draw i)
    { s with ty := 0x13, v := .int r.1, sat := s.sat || r.2.1, nan := s.nan || r.2.2 }
  | 0x40 =>
    match s.v with
    | .int n =>
      match e.lut (st.param % 4) n with
      | (ty, some v) => { s with ty := ty }.put v
      | (ty, none) => { s with ty := ty, v := zeroVal ty, oob := s.oob + 1, stop := s.stop || e.oobx (st.param % 4) }
    | _ => s
  | code => if within code 0x20 0x28 then s.fn (e.choice i) code else s

/-- An element through a whole composition, in slot order (R255). -/
def runChain (e : StageEnv) (stages : List VStage) (s : Strm) : Strm :=
  stages.zipIdx.foldl (fun s (st, i) => s.stage e i st) s

/-- An element enters a firing: converted to the working type (R247). -/
def enter (ty : Nat) (v : Val) : Strm :=
  let c := v.toType ty .even
  { ty := ty, v := c.1, sat := c.2.1, nan := isInt ty && c.2.2 }

/-- The stage environment of a composition without side operands (R255). -/
def plainEnv (choice draw : Nat → Nat) : StageEnv :=
  { side := fun _ => .int 0, lut := fun _ _ => (0x13, none), oobx := fun _ => false, choice := choice, draw := draw }

/-! ### Class rules of a composition (R248, R249, R255) -/

/-- The types that a stream may have after a stage, none where the stage is not accepted there. A LUT table whose type is not known
leaves both (R247, R255). -/
def stageType (lutType : Nat → Option Nat) (ty : Nat) (st : VStage) : List Nat :=
  let flt := !isInt ty
  let w32 := typeBits ty == 32
  if st.code = 0x05 ∨ within st.code 0x20 0x28 then (if flt then [ty] else [])
  else if st.code = 0x30 ∨ st.code = 0x31 then (if flt then [] else [ty])
  else if st.code = 0x38 then (if !flt && w32 then [0x01] else [])
  else if st.code = 0x39 then (if flt && w32 then [0x13] else [])
  else if st.code = 0x40 then
    (if !flt && w32 then
      match lutType (st.param % 4) with
      | some t => [if isInt t then 0x13 else 0x01]
      | none => [0x13, 0x01]
     else [])
  else [ty]

def chainTypes (lutType : Nat → Option Nat) (ty : Nat) (stages : List VStage) : List Nat :=
  stages.foldl (fun l st => (l.flatMap fun t => stageType lutType t st).eraseDups) [ty]

/-- Ports that a stage names as side operands, and as a LUT. -/
def VStage.ports (st : VStage) : List Nat :=
  match stageFmt st.code with
  | some .port => [st.param % 4]
  | some .port2 => [st.param % 4, st.param / 4 % 4]
  | _ => []

def Draft.comp (d : Draft) (c : Nat) : Option (List VStage) := (d.chains.find? fun x => x.comp == c).map (·.stages)

/-! ### Rules that tensors share -/

/-- TYPE and layout of a bench tensor in layouts 0x0 to 0x3 (R12, R49, R219, R222, R231). -/
def Tensor.formOk (t : Tensor) : Bool :=
  (typeKnown t.type || (t.type == 0x20 && t.space == 1 && decide (0x5F8000 ≤ t.addr))) && t.space != 3 &&
  (!t.isMx || (t.dim0 % 32 == 0 && t.aux != 0)) &&
  (match t.layout with
   | 0 => true
   | 1 => true
   | 2 => t.dim0 % 32 == 0 && t.type != 0x12 && t.type != 0x14 && t.type != 0x20
   | 3 => (t.bits == 8 || t.bits == 16 || t.bits == 32) && !t.isMx && t.type != 0x20 && t.pitch == 0 &&
       decide (0 < t.aux ∧ t.tiles * 1024 * (t.bits / 8) ≤ t.aux)
   | _ => false)

/-- Layout 0x2 and 0x3 tensors do not lie in the ACC view (R218). -/
def Tensor.plain (t : Tensor) : Bool := t.layout ≤ 1

/-- In each dimension the extent of another tensor or 1. -/
def Tensor.broadcasts (s y : Tensor) : Bool :=
  (s.dim0 == y.dim0 || s.dim0 == 1) && (s.dim1 == y.dim1 || s.dim1 == 1) && (s.dim2 == y.dim2 || s.dim2 == 1)

/-- A mask (R261). -/
def Tensor.maskOk (k y : Tensor) : Bool := (k.type == 0x10 || k.type == 0x11) && k.plain && k.broadcasts y

/-- A mask element selects (R261); without a mask every element does. -/
def active (mem : Memory) (mask : Option Placed) (d0 d1 d2 : Nat) : Bool :=
  match mask with
  | none => true
  | some p => (p.elemB mem d0 d1 d2).nonZero

/-- The counters of KEEP_TOP2 for the operands of a firing (R226), and whether any element was dropped. -/
def Module.countDrops (m : Module) (b : Nat) (ps : List Placed) : Bool × Module :=
  let tiles := ps.flatMap fun p => p.dropTiles m.mem fun _ => true
  (!tiles.isEmpty, (m.count (bchR b 0x108) 0 32 tiles.length).count (bchR b 0x108) 32 32 (tiles.map (·.2)).sum)

/-- A pattern fault: counted, the result not specified, FAULT_PATTERN (R206, R227, R228, R233). -/
def Module.patternFault (m : Module) (f : Firing) (results : List Placed) : Module :=
  let m := m.count (bchR f.bench 0x110) 0 32
  let m := results.foldl (fun m p => m.spoil p) m
  m.finish f stFaultPattern

/-- Events of a result write, counted (R230, R232, R251). -/
def Module.countWrite (m : Module) (b : Nat) (w : WriteEv) : Module :=
  ((((m.count (bchR b 0x158) 0 32 w.sat).count (bchR b 0x158) 32 32 w.nan).count (bchR b 0x120) 0 32 w.cmpDrop).count
    (bchR b 0x120) 32 32 w.zTiles)

/-! ### The VECTOR node -/

/-- The composition of a VECTOR node. -/
def vectorStages (d : Draft) (n : Node) : Option (List VStage) := if n.par 0 1 = 1 then d.comp (n.par 1 5) else some []

/-- A LUT table (R250). -/
def Tensor.lutOk (t : Tensor) : Bool :=
  t.space == 1 && t.dim1 == 1 && t.dim2 == 1 && decide (t.extent ≤ 65536) &&
    [0x01, 0x02, 0x03, 0x10, 0x11, 0x12, 0x13].contains t.type && ((t.layout == 0 && t.pitch == 0) || t.layout == 1)

/-- The rules of R255–R257 and R263. -/
def vectorRules (x : RuleEnv) : List Rule :=
  let n := x.n
  let stages := (vectorStages x.d n).getD []
  let mport := n.par 11 2
  let luts := (stages.filter fun s => s.code == 0x40).map fun s => s.param % 4
  let sides := ((stages.filter fun s => s.code != 0x40).flatMap VStage.ports).eraseDups
  let y := x.res 0
  [x.onNode 0x30 (n.par 15 49 == 0 && decide (n.par 6 3 ≤ 5 ∧ n.par 9 2 ≤ 2) && (n.par 0 1 == 1 || n.par 1 5 == 0)),
   x.onNode 0x30 (vectorStages x.d n).isSome,
   x.onNode 0x04 (within n.nports 1 4),
   x.onNode 0x30 (mport == 0 || decide (mport < n.nports)),
   x.onNode 0x04 ((List.range n.nports).all fun p => p == 0 || p == mport || sides.contains p || luts.contains p),
   x.onNode 0x30 ((sides ++ luts).all fun p => decide (p < n.nports) && p != mport),
   x.onNode 0x30 !(chainTypes (fun p => (x.op p).map (·.type)) (wtType (n.par 6 3)) stages).isEmpty,
   x.onNode 0x18 y.isSome, x.onNode 0x1A (n.res.getD 1 0 == 0xFFFF),
   x.onRes 0 0 (·.formOk),
   x.onRes 0 1 fun t => n.par 13 1 == 1 || (t.layout != 2 && t.layout != 3 && !t.isMx),
   x.onPort 0 0 (·.formOk),
   x.onPort 0 4 fun t => ((y.map fun r => t.dim0 == r.dim0 && t.dim1 == r.dim1 &&
     (if n.par 14 1 = 1 then r.dim2 == 1 else r.dim2 == t.dim2)).getD true)] ++
  sides.flatMap (fun p => [x.onPort p 0 (·.formOk), x.onPort p 4 fun t => (y.map t.broadcasts).getD true]) ++
  luts.map (fun p => x.onPort p 1 (·.lutOk)) ++
  (if mport = 0 then [] else [x.onPort mport 0 fun t => (y.map t.maskOk).getD true])

/-- The environment of one element of a VECTOR firing. -/
def vectorEnv (mem : Memory) (ports : Nat → Option Placed) (choice draw : Nat → Nat) (d0 d1 d2 : Nat) : StageEnv :=
  { side := fun p => ((ports p).map fun q => q.elemB mem d0 d1 d2).getD (.int 0)
    lut := fun p x =>
      match ports p with
      | none => (0x13, none)
      | some q =>
        (if isInt q.t.type then 0x13 else 0x01,
          if decide (0 ≤ x) && decide (x < q.t.dim0) then some (q.elem mem x.toNat 0 0) else none)
    oobx := fun p => ((ports p).map (·.t.oobx)).getD false
    choice := choice, draw := draw }

/-- The element that enters stage 0: X's, or under SUMD2 the sum over DIM2 (R258). -/
def vectorIn (mem : Memory) (x : Placed) (sum : Bool) (codes : Nat → Nat) (d0 d1 d2 : Nat) : Elem :=
  if !sum then { v := x.elem mem d0 d1 d2 }
  else
    let xs := (List.range x.t.dim2).map fun i => x.elem mem d0 d1 i
    if isInt x.t.type then
      let s : Int := (xs.map fun v => match v with
        | .int n => n
        | _ => 0).sum
      if decide (-(2 ^ 63) ≤ s) && decide (s < 2 ^ 63) then { v := .int s } else { v := .int (signedOf 64 (codes 0)) }
    else
      let fs := xs.map fun v => fp32.round .even v.num
      let r := sumFree codes Num.zero (fs.map (·.v))
      { v := .flt r.v, sat := r.sat || fs.any (·.sat) }

/-- The work of a VECTOR firing (R246–R265). -/
def Module.vectorWork (m : Module) (f : Firing) : Except Stop Module := do
  let d := m.draft f.ptn
  f.checked d vectorRules
  let n := f.n
  let stages := (vectorStages d n).getD []
  let x ← m.placePort f 0
  let p1 ← m.placeOpt f (if 1 < n.nports then some 1 else none)
  let p2 ← m.placeOpt f (if 2 < n.nports then some 2 else none)
  let p3 ← m.placeOpt f (if 3 < n.nports then some 3 else none)
  let y ← m.placeRes f 0
  let ports : Nat → Option Placed := fun p => match p with
    | 1 => p1
    | 2 => p2
    | 3 => p3
    | _ => none
  let mask := if n.par 11 2 = 0 then none else ports (n.par 11 2)
  let read := x :: ([p1, p2, p3].filterMap id)
  if read.any fun p => p.patternBad m.mem false fun _ => true then
    return m.patternFault f [y]
  let free := m.draw
  let wt := wtType (n.par 6 3)
  let number (d0 d1 d2 : Nat) : Nat := pair d0 (pair d1 d2)
  let out (d0 d1 d2 : Nat) : Strm :=
    let q := number d0 d1 d2
    let e := vectorIn m.mem x (n.par 14 1 == 1) (sub free.1 (pair 0 q)) d0 d1 d2
    let s := enter wt e.v
    runChain (vectorEnv m.mem ports (sub free.1 (pair 1 q)) (fun i => m.draws f.bench (pair 1 (pair i q))) d0 d1 d2) stages
      { s with sat := s.sat || e.sat }
  let onto (d0 d1 d2 : Nat) : Option Elem :=
    if active m.mem mask d0 d1 d2 then
      let s := out d0 d1 d2
      some { v := s.v, sat := s.sat, nan := s.nan }
    else if n.par 13 1 = 1 then some { v := zeroVal y.t.type }
    else none
  let inside := y.t.positions.filter y.t.inside
  let on := inside.filter fun q => active m.mem mask q.1 q.2.1 q.2.2
  let oob := (on.map fun q => (out q.1 q.2.1 q.2.2).oob).sum
  let oobx := on.any fun q => (out q.1 q.2.1 q.2.2).stop
  let (drop, m1) := free.2.countDrops f.bench read
  let m1 := (m1.count (bchR f.bench 0x150) 0 64 on.length).count (bchR f.bench 0x160) 0 32 oob
  let m1 := m1.count (bchR f.bench 0x160) 32 32 (inside.length - on.length)
  if oobx then return (m1.spoil y).finish f stFaultOob
  let w := writeResult m.mem y (rndOf (n.par 9 2) fun i => m.draws f.bench (pair 0 i)) onto
  let m2 := { m1 with mem := w.1 }.countWrite f.bench w.2
  let m2 := (m2.wrote f 8 y (if n.par 13 1 = 1 ∨ mask.isNone then y.t.spans 0 else
    y.t.spansAt fun q => active m.mem mask q.1 q.2.1 q.2.2)).spend
  return m2.finish f (flagIf (decide (0 < w.2.sat) || drop || decide (0 < oob)) stOk)

def execVector (k : FKey) (s : State) : Host.Outcome State Fault Refusal :=
  s.on fun m => if m.pipePassed k then m.work k 0x30 Module.vectorWork else m

end Sys2Proof.Machine
end

