-- ==== Sys2Proof/Machine/Reduce.lean ====
section
/-! DEFINITION. The reduction unit: REDUCE (R269–R273) and TOPK (R274–R277). -/
namespace Sys2Proof.Machine

/-- The composition of a REDUCE node. -/
def reduceStages (d : Draft) (n : Node) : Option (List VStage) := if n.par 6 1 = 1 then d.comp (n.par 7 5) else some []

/-- The type of the elements that are reduced (R246, R270). -/
def reduceType (stages : List VStage) (vc : Bool) (t : Nat) : Option Nat :=
  let wt := if isInt t then 0x13 else 0x01
  if vc then (chainTypes (fun _ => none) wt stages).head? else some t

/-- The types that a MAX-like value may take (R270). -/
def maxTypes (vc : Bool) (xt ct : Nat) : List Nat := (if isInt ct then 0x13 else 0x01) :: (if vc then [] else [xt])

/-- Elements of a line under an AXIS. -/
def lineLen (axis : Nat) (t : Tensor) : Nat :=
  match axis with
  | 0 => t.dim0
  | 1 => t.dim1
  | 2 => t.dim2
  | _ => t.dim0 * t.dim1 * t.dim2

/-- The result extents of a reduction. -/
def reducedDims (axis : Nat) (t : Tensor) : Nat × Nat × Nat :=
  (if axis = 0 ∨ axis = 3 then 1 else t.dim0, if axis = 1 ∨ axis = 3 then 1 else t.dim1,
    if axis = 2 ∨ axis = 3 then 1 else t.dim2)

/-- The rules of R255, R269 and R270. -/
def reduceRules (x : RuleEnv) : List Rule :=
  let n := x.n
  let opr := n.par 0 4
  let axis := n.par 4 2
  let vc := n.par 6 1 == 1
  let stages := (reduceStages x.d n).getD []
  let ty (t : Tensor) : Option Nat := reduceType stages vc t.type
  let floats := [0x01, 0x02, 0x03]
  let dimsOk (t r : Tensor) : Bool := (r.dim0, r.dim1, r.dim2) == reducedDims axis t
  let typeOk (t r : Tensor) : Bool :=
    match ty t with
    | none => true
    | some c =>
      match opr with
      | 0 | 1 => if isInt c then r.type == 0x13 || r.type == 0x14 else floats.contains r.type
      | 2 | 3 => (maxTypes vc t.type c).contains r.type
      | 4 | 5 => (r.type == 0x13 && decide (lineLen axis t ≤ 2147483647)) || r.type == 0x14
      | _ => !isInt c && floats.contains r.type
  [x.onNode 0x30 (n.par 16 48 == 0 && decide (opr ≤ 7 ∧ n.par 12 2 ≤ 2) && (vc || n.par 7 5 == 0)),
   x.onNode 0x30 (reduceStages x.d n).isSome,
   x.onNode 0x30 ((stages.flatMap VStage.ports).isEmpty),
   x.onNode 0x04 (n.nports == 1 + n.par 15 1),
   x.onNode 0x18 (x.res 0).isSome,
   x.onNode 0x1A (if opr = 7 then (x.res 1).isSome else if opr = 4 ∨ opr = 5 then true else n.res.getD 1 0 == 0xFFFF),
   x.onPort 0 0 (·.formOk),
   x.onPort 0 0 fun t => (ty t).isSome,
   x.onRes 0 1 fun r => r.formOk && r.plain, x.onRes 1 1 fun r => r.formOk && r.plain,
   x.onRes 0 4 fun r => both (x.op 0) (some r) dimsOk,
   x.onRes 0 0 fun r => both (x.op 0) (some r) typeOk,
   x.onRes 1 4 fun r => both (x.op 0) (some r) dimsOk,
   x.onRes 1 0 fun r => both (x.op 0) (some r) fun t _ =>
     if opr = 7 then floats.contains r.type
     else match ty t with
       | some c => (maxTypes vc t.type c).contains r.type
       | none => true] ++
  (if n.par 15 1 = 1 then [x.onPort 1 0 fun k => both (x.op 0) (some k) fun t _ => k.maskOk t] else [])

/-- A line's elements: for a result position, the positions of X in walk order, each with its position number along the
line (R270). -/
def lineOf (axis : Nat) (t : Tensor) (r : Nat × Nat × Nat) : List (Nat × Nat × Nat × Nat) :=
  match axis with
  | 0 => (List.range t.dim0).map fun i => (i, i, r.2.1, r.2.2)
  | 1 => (List.range t.dim1).map fun i => (i, r.1, i, r.2.2)
  | 2 => (List.range t.dim2).map fun i => (i, r.1, r.2.1, i)
  | _ => (List.range t.dim2).flatMap fun d2 => (List.range t.dim1).flatMap fun d1 => (List.range t.dim0).map fun d0 =>
      (d0 + t.dim0 * (d1 + t.dim1 * d2), d0, d1, d2)

/-- An fp32 value of an element. -/
def Val.f32 (v : Val) : Num := (fp32.round .even v.num).v

/-- The fp32 quotient of two fp32 values, rounded once. -/
def quot (a b : Num) : Res :=
  match a, b with
  | .fin na ma ea, .fin nb mb eb =>
    if mb = 0 then { v := .nan }
    else
      match divNum ma ea mb eb with
      | .fin _ m e => fp32.round .even (.fin (na != nb) m e) (decide (m * mb * 2 ^ 0 ≠ ma * 2 ^ (300 + Nat.log2 mb)))
      | y => { v := y }
  | .nan, _ => { v := .nan }
  | _, .nan => { v := .nan }
  | .inf n, b => { v := .inf (n != b.isNeg) }
  | a, .inf n => { v := .fin (a.isNeg != n) 0 0 }

/-- A float and its saturation become an element. -/
def Res.elem (r : Res) : Elem := { v := .flt r.v, sat := r.sat }

/-- SUM of a line in int64 or fp32 (R271); an int64 sum saturates. -/
def sumLine (codes : Nat → Nat) (isI : Bool) (vs : List Val) : Elem :=
  if isI then
    let s : Int := (vs.map fun v => match v with
      | .int n => n
      | _ => 0).sum
    let c := clampInt (intLimits 0x14).1 (intLimits 0x14).2 s
    { v := .int c.1, sat := c.2 }
  else (sumFree codes Num.zero (vs.map Val.f32)).elem

/-- Squares for SUMSQ: fp32 rounded, or exact (R271). -/
def squareOf (isI : Bool) (v : Val) : Elem :=
  if isI then { v := v.mulV v } else (fp32.mul v.f32 v.f32).elem

/-- MEAN: S' × m, with m the fp32 value nearest to 1 ÷ n (R271). -/
def meanLine (codes : Nat → Nat) (vs : List Val) : Elem :=
  if vs.isEmpty then { v := .flt Num.zero }
  else
    let s := sumFree codes Num.zero (vs.map Val.f32)
    let m := quot (.fin false 1 0) (.fin false vs.length 0)
    let r := fp32.mul s.v m.v
    { v := .flt r.v, sat := s.sat || r.sat }

/-- MEANVAR in one pass, shifted by the first active element (R272). -/
def meanVar (codes : Nat → Nat) (sample : Bool) (vs : List Val) : Elem × Elem :=
  match vs with
  | [] => ({ v := .flt Num.zero }, { v := .flt Num.zero })
  | k :: _ =>
    let n : Num := .fin false vs.length 0
    let k := k.f32
    let ds := vs.map fun v => fp32.add v.f32 k.negate
    let qs := ds.map fun d => fp32.mul d.v d.v
    let s1 := sumFree (sub codes 0) Num.zero (ds.map (·.v))
    let s2 := sumFree (sub codes 1) Num.zero (qs.map (·.v))
    let q := quot s1.v n
    let mean := fp32.add k q.v
    let sq := fp32.mul s1.v s1.v
    let t := quot sq.v n
    let w := fp32.add s2.v t.v.negate
    let dn := if sample then vs.length - 1 else vs.length
    let var := if dn = 0 then { v := Num.zero : Res } else quot w.v (.fin false dn 0)
    let sat := (ds ++ qs ++ [s1, s2, mean]).any (·.sat)
    ({ v := .flt mean.v, sat := sat },
     { v := .flt (if var.v.lt Num.zero then Num.zero else var.v), sat := sat || sq.sat || w.sat || var.sat })

/-- `a` wins over `b` under MAX or MIN: a NaN wins over every number (R273). -/
def wins (max : Bool) (a b : Val) : Bool :=
  if a.num.isNan then !b.num.isNan
  else if b.num.isNan then false
  else if max then b.num.lt a.num else a.num.lt b.num

/-- The winner of a line with its position; among equals the lowest position. -/
def bestOf (max : Bool) (vs : List (Nat × Val)) : Option (Nat × Val) :=
  vs.foldl (fun b x => match b with
    | none => some x
    | some y => if wins max x.2 y.2 then some x else some y) none

/-- What an empty line gives under MAX and MIN (R273). -/
def emptyBest (max : Bool) (ty : Nat) : Val :=
  if isInt ty then .int (if max then (intLimits ty).1 else (intLimits ty).2) else .flt (.inf max)

/-- The two results of one line (R271–R273). -/
def reduceLine (opr : Nat) (sample : Bool) (ty : Nat) (codes : Nat → Nat) (vs : List (Nat × Val)) : Elem × Elem :=
  let isI := isInt ty
  let xs := vs.map (·.2)
  match opr with
  | 0 => (sumLine codes isI xs, default)
  | 1 =>
    let qs := xs.map (squareOf isI)
    let r := sumLine codes isI (qs.map (·.v))
    ({ r with sat := r.sat || qs.any (·.sat) }, default)
  | 2 | 3 =>
    match bestOf (opr == 2) vs with
    | some b => ({ v := b.2 }, default)
    | none => ({ v := emptyBest (opr == 2) ty }, default)
  | 4 | 5 =>
    match bestOf (opr == 4) vs with
    | some b => ({ v := .int b.1 }, { v := b.2 })
    | none => ({ v := .int (-1) }, { v := emptyBest (opr == 4) ty })
  | 6 => (meanLine codes xs, default)
  | _ => meanVar codes sample xs

/-- The work of a REDUCE firing. -/
def Module.reduceWork (m : Module) (f : Firing) : Except Stop Module := do
  let d := m.draft f.ptn
  f.checked d reduceRules
  let n := f.n
  let x ← m.placePort f 0
  let mask ← m.placeOpt f (if n.par 15 1 = 1 then some 1 else none)
  let r0 ← m.placeRes f 0
  let r1 ← (match f.res 1 with
    | some _ => (m.placeRes f 1).map some
    | none => .ok none)
  let read := x :: mask.toList
  if read.any fun p => p.patternBad m.mem false fun _ => true then
    return m.patternFault f (r0 :: r1.toList)
  let vc := n.par 6 1 == 1
  let stages := (reduceStages d n).getD []
  let ty := (reduceType stages vc x.t.type).getD x.t.type
  let axis := n.par 4 2
  let free := m.draw
  let strm (q : Nat × Nat × Nat × Nat) : Strm :=
    let v := x.elem m.mem q.2.1 q.2.2.1 q.2.2.2
    if vc then
      runChain (plainEnv (sub free.1 (pair 1 q.1)) fun i => m.draws f.bench (pair 1 (pair i q.1))) stages
        (enter (if isInt x.t.type then 0x13 else 0x01) v)
    else { ty := ty, v := v, sat := [0, 1, 6, 7].contains (n.par 0 4) && !isInt ty && (fp32.round .even v.num).sat }
  let line (r : Nat × Nat × Nat) : List (Nat × Strm) :=
    ((lineOf axis x.t r).filter fun q => active m.mem mask q.2.1 q.2.2.1 q.2.2.2).map fun q => (q.1, strm q)
  let result (r : Nat × Nat × Nat) : Elem × Elem :=
    reduceLine (n.par 0 4) (n.par 14 1 == 1) ty (sub free.1 (pair 0 (pair r.1 (pair r.2.1 r.2.2))))
      ((line r).map fun s => (s.1, s.2.v))
  let spots := r0.t.positions.filter r0.t.inside
  let all := spots.flatMap fun r => (line r).map (·.2)
  let (drop, m1) := free.2.countDrops f.bench read
  let m1 := if vc then m1.count (bchR f.bench 0x150) 0 64 all.length else m1
  let m1 := (m1.count (bchR f.bench 0x158) 0 32 (all.countP (·.sat))).count (bchR f.bench 0x158) 32 32 (all.countP (·.nan))
  let m1 := m1.count (bchR f.bench 0x160) 32 32 (x.t.rows * x.t.dim0 - (spots.map fun r => (line r).length).sum)
  let rnd := rndOf (n.par 12 2)
  let w0 := writeResult m.mem r0 (rnd fun i => m.draws f.bench (pair 0 i)) fun a b c => some (result (a, b, c)).1
  let m2 := ({ m1 with mem := w0.1 }.countWrite f.bench w0.2).wrote f 8 r0 (r0.t.spans 0)
  let (m3, sat1) := match r1 with
    | some p =>
      let w := writeResult m2.mem p (rnd fun i => m.draws f.bench (pair 2 i)) fun a b c => some (result (a, b, c)).2
      (({ m2 with mem := w.1 }.countWrite f.bench w.2).wrote f 9 p (p.t.spans 0), w.2.sat)
    | none => (m2, 0)
  return (m3.spend).finish f
    (flagIf (drop || all.any (·.sat) || decide (0 < w0.2.sat + sat1)) stOk)

def execReduce (k : FKey) (s : State) : Host.Outcome State Fault Refusal := s.on fun m => m.work k 0x31 Module.reduceWork

/-! ### TOPK -/

def topkTypes : List Nat := [0x01, 0x02, 0x03, 0x04, 0x05, 0x10, 0x11, 0x12, 0x13]

/-- The rules of R274 and R276. -/
def topkRules (x : RuleEnv) : List Rule :=
  let n := x.n
  let k := n.par 0 8
  let dims (r : Tensor) : Bool := both (x.op 0) (some r) fun t r => r.dim0 == k && r.dim1 == t.dim1 && r.dim2 == t.dim2
  [x.onNode 0x30 (n.par 10 6 == 0 && n.par 28 36 == 0 && within k 1 64 && decide (n.par 16 12 + k ≤ 4096)),
   x.onNode 0x04 (n.nports == 1 + n.par 9 1), x.onNode 0x18 (x.res 0).isSome,
   x.onPort 0 0 fun t => t.formOk && topkTypes.contains t.type && decide (t.dim0 ≤ 2147483647),
   x.onRes 0 0 fun r => r.formOk && r.plain && r.type == 0x13, x.onRes 0 4 dims,
   x.onRes 1 0 fun r => r.formOk && r.plain && both (x.op 0) (some r) fun t r => r.type == t.type || r.type == 0x01,
   x.onRes 1 4 dims] ++
  (if n.par 9 1 = 1 then [x.onPort 1 0 fun q => both (x.op 0) (some q) fun t _ => q.maskOk t] else [])

/-- `a` ranks before `b` (R275). -/
def ranksBefore (small : Bool) (a b : Nat × Val) : Bool :=
  wins (!small) a.2 b.2 || (!wins (!small) b.2 a.2 && decide (a.1 < b.1))

/-- Insert into a rank-ordered list, keeping at most 64; whether the element entered. -/
def rankInsert (small : Bool) (x : Nat × Val) (l : List (Nat × Val)) : List (Nat × Val) × Bool :=
  let before := l.takeWhile fun y => ranksBefore small y x
  if before.length < 64 then ((before ++ [x] ++ l.drop before.length).take 64, true) else (l, false)

/-- One pass over a line: the first 64 ranks after `last`, and the entries (R277). -/
def rankPass (small : Bool) (last : Option (Nat × Val)) (line : List (Nat × Val)) : List (Nat × Val) × Nat :=
  line.foldl (fun acc x =>
    if last.all fun y => ranksBefore small y x then
      let r := rankInsert small x acc.1
      (r.1, acc.2 + r.2.toNat)
    else acc) ([], 0)

/-- The first `passes` × 64 ranks of a line, and the entries of all passes. -/
def rankLine (small : Bool) : Nat → Option (Nat × Val) → List (Nat × Val) → List (Nat × Val) × Nat
  | 0, _, _ => ([], 0)
  | p + 1, last, line =>
    let r := rankPass small last line
    if r.1.length < 64 then r
    else
      let t := rankLine small p r.1.getLast? line
      (r.1 ++ t.1, r.2 + t.2)

/-- The work of a TOPK firing (R274–R277). -/
def Module.topkWork (m : Module) (f : Firing) : Except Stop Module := do
  let d := m.draft f.ptn
  f.checked d topkRules
  let n := f.n
  let x ← m.placePort f 0
  let mask ← m.placeOpt f (if n.par 9 1 = 1 then some 1 else none)
  let r0 ← m.placeRes f 0
  let r1 ← (match f.res 1 with
    | some _ => (m.placeRes f 1).map some
    | none => .ok none)
  let read := x :: mask.toList
  if read.any fun p => p.patternBad m.mem false fun _ => true then
    return m.patternFault f (r0 :: r1.toList)
  let k := n.par 0 8
  let skip := n.par 16 12
  let small := n.par 8 1 == 1
  let passes := ceilDiv (skip + k) 64
  let line (d1 d2 : Nat) : List (Nat × Val) :=
    ((List.range x.t.dim0).filter fun i => active m.mem mask i d1 d2).map fun i => (i, x.elem m.mem i d1 d2)
  let ranks (d1 d2 : Nat) : List (Nat × Val) × Nat := rankLine small passes none (line d1 d2)
  let at_ (d0 d1 d2 : Nat) : Option (Nat × Val) := (ranks d1 d2).1[skip + d0]?
  let rows := (List.range x.t.dim2).flatMap fun d2 => (List.range x.t.dim1).map fun d1 => (d1, d2)
  let (drop, m1) := m.countDrops f.bench read
  let m1 := (m1.count (bchR f.bench 0x168) 0 32 ((rows.map fun r => (ranks r.1 r.2).2).sum)).count
    (bchR f.bench 0x168) 32 32 (rows.length * passes)
  let m1 := m1.count (bchR f.bench 0x160) 32 32 ((rows.map fun r => x.t.dim0 - (line r.1 r.2).length).sum)
  let w0 := writeResult m.mem r0 (fun _ => .even) fun a b c =>
    some { v := .int (((at_ a b c).map fun y => (y.1 : Int)).getD (-1)) }
  let m2 := { m1 with mem := w0.1 }.wrote f 8 r0 (r0.t.spans 0)
  let m3 := match r1 with
    | none => m2
    | some p =>
      let empty : Val := if isInt x.t.type then .int (if small then (intLimits x.t.type).2 else (intLimits x.t.type).1)
        else .flt (.inf !small)
      let code (a b c : Nat) : Nat :=
        match at_ a b c with
        | some y => if p.t.type = x.t.type then x.codeAt m.mem y.1 b c else (y.2.toCode p.t.type .even).1
        | none => (empty.toCode p.t.type .even).1
      let cs : Coded := p.t.positions.map fun q => (q, some (if p.t.inside q then code q.1 q.2.1 q.2.2 else 0))
      { m2 with mem := (writeCoded m2.mem p cs).1 }.wrote f 9 p (p.t.spans 0)
  return m3.finish f (flagIf drop stOk)

def execTopk (k : FKey) (s : State) : Host.Outcome State Fault Refusal := s.on fun m => m.work k 0x32 Module.topkWork

end Sys2Proof.Machine
end

