-- ==== Sys2Proof/Machine/Quern.lean ====
section
/-! DEFINITION. The querns: rows and where they lie (R116–R122, R161), entries and segments (R139, R140), the coalescing
window (R141), the hot-row cache (R143–R146) and pooled partials (R130, R133). -/
namespace Sys2Proof.Machine

/-! ### Rows (R117, R119, R161) -/

/-- Lines that a row slot covers (R139). -/
def PlacementRec.lines (t : PlacementRec) : Nat := ceilDiv t.stride 128

/-- Where a row lies: its shard, shard page, stack and byte within the page (R117, R119). -/
structure RowAt where
  shard : Nat
  page  : Nat
  stack : Nat
  off   : Nat
  deriving DecidableEq, Repr, Inhabited

def PlacementRec.rowAt (t : PlacementRec) (r : Nat) : RowAt :=
  let l := r / t.shards
  { shard := r % t.shards, page := l / t.rpp, stack := t.stackOf (l / t.rpp), off := l % t.rpp * t.stride }

/-- The edition map of the copy of a shard that this member holds. -/
def Module.copyMap (m : Module) (t : PlacementRec) (e : Edition) (shard : Nat) : Option (List Nat) :=
  if t.primaryOf m.member = some shard then e.primary
  else if t.twinOf m.guildSize m.member = some shard then e.twin
  else none

/-- What a quern finds when it looks a row up in a bound edition (R104, R137, R161). -/
inductive RowFind where
  | found (key : Nat)
  | noEdition
  | lost
  | denied
  deriving DecidableEq, Repr, Inhabited

/-- The byte key of a row slot in a page of a table's region, when the owner's grants allow the quern `perm`. -/
def Module.rowKey (m : Module) (t : Table) (map : Option (List Nat)) (r : RowAt) (perm : Nat) : RowFind :=
  match map, m.regionNo t.ptn t.place.rgn with
  | some pages, some g =>
    let page := pages.getD r.page 0
    if !m.allowed tcRegion t.place.rgn t.ptn (quernMaster r.stack) perm then .denied
    else if m.residency g page == .lost then .lost
    else .found (g.pageKey page + r.off)
  | _, _ => .noEdition

/-- A gather entry's row: the edition it names is SEALED, CURRENT or RETIRING on this member (R161). -/
def Module.findRow (m : Module) (table edition r : Nat) : RowFind :=
  match m.table table with
  | none => .noEdition
  | some t =>
    match t.edition edition with
    | none => .noEdition
    | some e =>
      if e.state == .building then .noEdition
      else m.rowKey t (m.copyMap t.place e (t.place.rowAt r).shard) (t.place.rowAt r) permRead

/-- The region address of a row slot in an edition of a table (R119). -/
def Module.rowRa (m : Module) (t : Table) (edition r : Nat) : Nat :=
  match (t.edition edition).bind fun e => m.copyMap t.place e (t.place.rowAt r).shard, m.regionNo t.ptn t.place.rgn with
  | some pages, some g => g.info.base + pages.getD (t.place.rowAt r).page 0 * 2 ^ g.info.shift + (t.place.rowAt r).off
  | _, _ => 0

/-- A quern's translation of a row slot faults: the fault counts for the table's owner (R106, R137, R489). -/
def Module.rowFault (m : Module) (table edition r cause perm : Nat) : Module :=
  match m.table table with
  | some t => m.xfault t.ptn (quernMaster (t.place.rowAt r).stack) (m.rowRa t edition r) cause perm
  | none => m

/-- An entry refused under R161 is counted, in the partition of the entry and not of the table's owner (log entry 163, DESIGN
CHOICE). -/
def Module.countNoEd (m : Module) (p : Nat) : Module := m.count (ptnR p 0xA8) 42 22

/-- Element `i` of a row as stored, with its block scale, rounded to fp32 where it is a float (R116, R130, R133). -/
def PlacementRec.elem (t : PlacementRec) (row : List Byte) (i : Nat) : Elem :=
  let w := typeBits t.type
  let code := fieldAt row (i * w / 8) ((i * w % 8 + w + 7) / 8) / 2 ^ (i * w % 8) % 2 ^ w
  match decodeElem t.type code with
  | .int n => { v := .int n }
  | .flt x =>
    if isMx t.type then
      (fp32.round .even (x.mul (e8m0 (fieldAt row (ceilDiv (t.dim * w) 8 + i / 32) 1)))).elem
    else { v := .flt x }

/-! ### Partials (R130, R133, R147) -/

/-- fp32 terms summed in a free order, the first being the start (R130). -/
def sumTerms (codes : Nat → Nat) (l : List Num) : Res :=
  match permute codes l with
  | [] => { v := Num.zero, sat := false }
  | x :: t => sumF32 x t

/-- The element-wise fp32 sum of two vectors, with the elements that saturated. -/
def addVecs (a b : List (BitVec 32)) : List (BitVec 32) × Nat :=
  let rs := (a.zip b).map fun (x, y) => fp32.add (f32Of x) (f32Of y)
  (rs.map fun r => f32Code r.v, rs.countP (·.sat))

/-- A partial reaches the pool merger of a quern's hall. -/
def Module.toMerger (m : Module) (h : Nat) (p : PoolPartial) : Module :=
  m.setHall h fun x => { x with arriving := x.arriving ++ [p] }

/-- An entry answered without a row (R137, R138, R161). -/
def Module.failEntries (m : Module) (s : Nat) (e : QEntry) (slots : List Nat) (status : Nat) : Module :=
  m.toMerger (s / 5) { key := e.key, src := e.src, ptn := e.ptn, bag := e.bag, covered := slots.length, slots := slots
                       member := m.member, hall := s / 5, status := status, vals := [] }

/-- The pooled partial of the rows of a segment: weights of one row first, then one product per row and element, then
the sum over rows, each in a free order (R130). The count that goes with it is of every saturating operation: a weight sum, an MX
conversion, a product or a sum, one element perhaps more than once (R133; log entry 159, DESIGN CHOICE). -/
def poolRows (codes : Nat → Nat) (t : PlacementRec) (rows : List (List (BitVec 32) × List Byte)) :
    List (BitVec 32) × Nat :=
  let ws := rows.zipIdx.map fun (r, i) => (sumTerms (sub (sub codes 0) i) (r.1.map f32Of), r.2)
  let cols := (List.range t.dim).map fun j =>
    let ts := ws.map fun (w, row) =>
      let x := t.elem row j
      let p := fp32.mul w.v x.v.num
      (p, x.sat)
    let s := sumTerms (sub (sub codes 1) j) (ts.map fun y => y.1.v)
    (f32Code s.v, (ts.countP fun y => y.1.sat) + (ts.countP fun y => y.2) + s.sat.toNat)
  (cols.map (·.1), (cols.map (·.2)).sum + ws.countP fun w => w.1.sat)

/-! ### Segments (R139, R140) -/

/-- Window entries that are not free to reserve: those reserved, and those in use whose reservation has been returned (R140). -/
def Module.windowTaken (m : Module) (s : Nat) : Nat :=
  let q := m.quern s
  (q.segs.map (·.reserve)).sum + q.win.countP fun w => m.attached s w.line && !(q.segs.any fun g => g.isOpen && some g.id == w.seg)

/-- A segment opens once it can reserve its entries × L window entries. -/
def Module.openSegment (m : Module) (s id : Nat) : Module :=
  match (m.quern s).segs.find? fun g => g.id == id with
  | none => m
  | some g =>
    let n := g.entries.length * ((m.table g.table).map fun t => t.place.lines).getD 1
    if m.windowTaken s + n ≤ 4096 then
      m.setQuern s fun q => { q with segs := updWhere (fun x => x.id == id) (fun x => { x with isOpen := true, reserve := n }) q.segs }
    else m

/-- The next segment: the entries of the first bag in the input queue, in bag order, at most E of them. -/
def Module.formSegment (m : Module) (s : Nat) : Module :=
  match (m.quern s).inq with
  | [] => m
  | e :: _ =>
    let limit := 4096 / ((m.table e.table).map fun t => t.place.lines).getD 1
    let same (x : QEntry) : Bool := x.key == e.key && x.src == e.src && x.bag == e.bag
    let taken := ((m.quern s).inq.filter same).take limit
    let rest := ((m.quern s).inq.foldl (fun (acc : Nat × List QEntry) x =>
      if same x && decide (acc.1 < limit) then (acc.1 + 1, acc.2) else (acc.1, acc.2 ++ [x])) (0, [])).2
    let id := (m.quern s).nextSeg
    let g : Segment := { id := id, key := e.key, src := e.src, ptn := e.ptn, bag := e.bag, isOpen := false, entries := taken
                         table := e.table, none_ := e.none_ }
    let m := m.setQuern s fun q => { q with inq := rest, segs := q.segs ++ [g], nextSeg := id + 1 }
    let m := m.openSegment s id
    if (m.quern s).segs.any fun x => x.id == id && !x.isOpen then m.count (qrnR s 0x060) 0 32 else m

/-- SEGMENT_OPEN: the first segment that waits (R140). -/
def execSegmentOpen (stack : StackId) (st : State) : Host.Outcome State Fault Refusal :=
  st.on fun m =>
    match (m.quern stack.val).segs.find? fun g => !g.isOpen with
    | some g => m.openSegment stack.val g.id
    | none => m

/-! ### The coalescing window and the hot-row cache (R141, R143–R145) -/

/-- The window needs space: an entry with no open segment retires, of several the one that has been there longest (log entry 160,
DESIGN CHOICE), and its line is offered to the hot-row cache (R141, R143). -/
def Module.retireOne (m : Module) (s : Nat) : Module :=
  match (m.quern s).win.find? fun w => !m.attached s w.line with
  | none => m
  | some w =>
    let m := m.setQuern s fun q => { q with win := q.win.filter fun x => x.id != w.id }
    let on := m.fld (qrnR s 0x008) 0 1 = 1
    let present := (m.quern s).hrc.any (·.line == w.line)
    if on ∧ present ∧ w.fromHrc ∧ w.hint = 2 then
      m.setQuern s fun q => { q with hrc := touchLine q.hrc w.line 2 }
    else if on ∧ !present ∧ w.hint = 1 ∧ !w.stale ∧ w.fetched then
      let (i, m) := m.pick 16
      let mask := m.wayMask (qrnR s 0x018) w.ptn
      m.setQuern s fun q => { q with hrc := (installLine q.hrc (Config.cacheSet w.line % 16384) mask w.line false i).1 }
    else m

/-- The window entry that an entry can attach to: the one of the line that is not stale (R141, R310). -/
def Quern.current (q : Quern) (line : Nat) : Option WinLine := q.win.find? fun w => w.line == line && !w.stale

/-- A line of an accepted entry: attached to the window entry present, or to a new one whose fetch begins (R141). The HINT of the entry
that makes the fetch governs it, whatever hint others bring that attach to it (R143; log entry 161, DESIGN CHOICE). -/
def Module.attachLine (m : Module) (s id line : Nat) (e : QEntry) : Module :=
  if ((m.quern s).current line).isSome then m
  else
    let m := if 4096 ≤ (m.quern s).win.length then m.retireOne s else m
    let hit := m.fld (qrnR s 0x008) 0 1 == 1 && (m.quern s).hrc.any (·.line == line)
    let data := m.lineView line
    m.setQuern s fun q => { q with
      win := q.win ++ [{ id := q.nextWin, seg := some id, line := line, fetched := false, data := data, hint := e.hint, ptn := e.ptn, fromHrc := hit }]
      nextWin := q.nextWin + 1 }

/-- The rows of a segment all have their lines, and its entries are all accepted. -/
def Segment.complete (g : Segment) : Bool := g.isOpen && g.entries.isEmpty && g.rows.all fun r => r.bad || r.need.isEmpty

/-- A segment closes and sends its partial (R140); rows that cannot be read are answered as lost (R319). -/
def Module.closeSegment (m : Module) (s id : Nat) : Module :=
  match (m.quern s).segs.find? fun g => g.id == id && g.complete with
  | none => m
  | some g =>
    let m := m.setQuern s fun q => { q with segs := q.segs.filter fun x => x.id != id }
    match m.table g.table with
    | none => m
    | some t =>
      let b := t.place.rowBytes
      let entry : QEntry := { (default : QEntry) with key := g.key, src := g.src, ptn := g.ptn, bag := g.bag }
      let m := (g.rows.filter (·.bad)).foldl (fun (m : Module) r => m.failEntries s entry r.slots 0x10) m
      let good := g.rows.filter fun r => !r.bad
      let bytes (r : SegRow) : List Byte :=
        (((r.got.map fun x => (x.1, x.2)).foldl (fun (acc : List (Nat × List Byte)) x => assocSet x.1 x.2 acc) []) |> fun got =>
          ((r.lines b).flatMap fun l => (assocGet l got).getD (List.replicate 128 0)).drop (r.key % 128) |>.take b)
      if good.isEmpty then m
      else
        let slots := good.flatMap (·.slots)
        let p : PoolPartial := { key := g.key, src := g.src, ptn := g.ptn, bag := g.bag, covered := slots.length, slots := slots
                                 member := m.member, hall := s / 5, status := 0, vals := [] }
        if g.none_ then m.toMerger (s / 5) { p with row := ((good.head?).map bytes).getD [] }
        else
          let free := m.draw
          let r := poolRows free.1 t.place (good.map fun x => (x.weights, bytes x))
          (free.2.count (qrnR s 0x058) 32 32 r.2).toMerger (s / 5)
            { p with vals := r.1, status := if r.2 = 0 then 0 else 1 }

/-- Every segment of a quern that is complete closes. -/
def Module.closeSegments (m : Module) (s : Nat) : Module :=
  ((m.quern s).segs.map (·.id)).foldl (fun (m : Module) id => m.closeSegment s id) m

/-- The row of a segment that an entry joins: the one of its index whose window entries are those that it attaches to (R139, R141). -/
def SegRow.joins (r : SegRow) (index : Nat) (wins : List Nat) : Bool := r.index == index && r.wins == wins

/-- Change a segment of a quern. -/
def Module.setSegment (m : Module) (s id : Nat) (f : Segment → Segment) : Module :=
  m.setQuern s fun q => { q with segs := updWhere (fun g => g.id == id) f q.segs }

/-- A row of a segment takes the window entries of its lines as they stand, with their data (R141). -/
def SegRow.attach (q : Quern) (poisoned : Bool) (lines : List Nat) (r : SegRow) : SegRow :=
  let ws := lines.filterMap q.current
  { r with wins := ws.map (·.id), need := (ws.filter fun w => !w.fetched).map (·.id), got := ws.map fun w => (w.line, w.data)
           bad := ws.any (·.fetched) && poisoned }

/-- An accepted entry attaches its lines; those present return their reservation at once. Entries of a segment that share an index
and their window entries share one row (R139–R141). The row stands in its segment before its lines attach, so that none of them
retires for another. -/
def Module.attachEntry (m : Module) (s id : Nat) (e : QEntry) (key : Nat) (t : PlacementRec) : Module :=
  let fresh : SegRow := { index := e.index, weights := [e.weight], slots := [e.slot], key := key, wins := [], need := [] }
  let lines := fresh.lines t.rowBytes
  let here := lines.filterMap (m.quern s).current
  let ids := here.map (·.id)
  let m := m.setSegment s id fun g => { g with reserve := g.reserve - here.length }
  let m := if here.length = lines.length then m.count (qrnR s 0x030) 0 64 else m
  if ((m.quern s).segs.find? fun g => g.id == id).any fun g => g.rows.any fun r => r.joins e.index ids then
    let join (r : SegRow) : SegRow := { r with weights := r.weights ++ [e.weight], slots := r.slots ++ [e.slot] }
    m.setSegment s id fun g => { g with rows := updWhere (fun r => r.joins e.index ids) join g.rows }
  else
    let m := m.setSegment s id fun g => { g with rows := g.rows ++ [fresh] }
    let m := lines.foldl (fun (m : Module) l => m.attachLine s id l e) m
    let row := fresh.attach (m.quern s) (m.poisonedIn key t.rowBytes) lines
    m.setSegment s id fun g => { g with rows := g.rows.dropLast ++ [row] }

/-- A fetched window entry that an accepted entry would attach to reads back with a double-bit error: an uncorrected error of its line,
and nothing attaches to it any more (R317, R319). -/
def Module.windowError (m : Module) (s key len : Nat) (o : SectorOutcome) : Module :=
  if o = .uncorrectable then
    match (linesOf key len).find? fun l => ((m.quern s).current l).any (·.fetched) with
    | some l => (m.setQuern s fun q => { q with win := updWhere (fun w => w.line == l) (fun w => { w with stale := true }) q.win }).ecc
        s (l * 128) 128 0 o
    | none => m
  else m

/-- A lane accepts one entry of an open segment (R139–R141): it is counted, and attaches or is answered without a
row. -/
def Module.acceptEntry (m : Module) (s : Nat) (g : Segment) (e : QEntry) (o : SectorOutcome) : Module :=
  let m := m.count (qrnR s 0x028) 0 64
  let m := m.setSegment s g.id fun x => { x with entries := x.entries.drop 1 }
  let m := match m.findRow e.table e.edition e.index, m.table e.table with
    | .found key, some t =>
      ((m.cacheXlat (.quern s) t.ptn (m.rowRa t e.edition e.index) t.place.rowBytes).windowError s key t.place.rowBytes o).attachEntry
        s g.id e key t.place
    | .denied, _ => (m.rowFault e.table e.edition e.index 3 permRead).failEntries s e [e.slot] stFaultAccess
    | .lost, _ => (m.rowFault e.table e.edition e.index 4 permRead).failEntries s e [e.slot] 0x10
    | _, _ => (m.countNoEd e.ptn).failEntries s e [e.slot] 0x10
  m.closeSegments s

/-- QUERN_ENTRY_ACCEPT: the next entry of an open segment; with none, the next segment of the input queue forms, and
its first entry is accepted if it opens. Behind a segment that waits, nothing opens (R140). -/
def execQuernEntryAccept (stack : Reading StackId) (st : State) : Host.Outcome State Fault Refusal :=
  st.on fun m =>
    let s := stack.what.val
    let ready (m : Module) : Option Segment := (m.quern s).segs.find? fun g => g.isOpen && !g.entries.isEmpty
    let go (m : Module) : Module :=
      match ready m with
      | some g => match g.entries with
        | e :: _ => m.acceptEntry s g e stack.outcome
        | [] => m
      | none => m
    if (ready m).isSome then go m
    else if (m.quern s).segs.any fun g => !g.isOpen then m
    else go (m.formSegment s)

/-- A line has been read: every row that waits on its window entry has its data, or is answered as lost where its bytes are poisoned
or its stack is withdrawn (R141, R319, R441). A hot-row line that reads back with a double-bit error is an uncorrected error of the line
(R317). -/
def Module.lineDone (m : Module) (s line : Nat) (o : SectorOutcome) : Module :=
  match (m.quern s).win.find? fun w => w.line == line && !w.fetched with
  | none => m
  | some w =>
    let row (t : Nat) : Nat := ((m.table t).map fun x => x.place.rowBytes).getD 1
    let stride := (((m.quern s).segs.find? fun g => g.rows.any fun r => r.need.contains w.id).bind fun g =>
      (m.table g.table).map fun t => min 128 t.place.stride).getD 128
    let hit := w.fromHrc && (m.quern s).hrc.any (·.line == line)
    let m := if hit then
        let m := m.count (qrnR s 0x038) 0 64
        if o = .uncorrectable then (m.setQuern s fun q => { q with hrc := q.hrc.filter (·.line != line) }).ecc s (line * 128) 128 0 o
        else if w.hint = 1 then m.setQuern s fun q => { q with hrc := touchLine q.hrc line 1 } else m
      else ((m.count (qrnR s 0x040) 0 64).chargeKey s (line * 128) stride).ecc s (line * 128) 128 0 o
    let gone := (m.quern s).withdrawn
    let done (t : Nat) (r : SegRow) : SegRow :=
      if r.need.contains w.id then
        { r with need := r.need.filter (· != w.id), bad := r.bad || gone || ((!hit || o == .uncorrectable) && m.poisonedIn r.key (row t)) }
      else r
    let m := m.setQuern s fun q =>
      { q with segs := q.segs.map fun g => { g with rows := g.rows.map (done g.table) }
               win := if gone then q.win.filter (·.line != line)
                      else updWhere (fun x => x.id == w.id) (fun x => { x with fetched := true }) q.win }
    m.closeSegments s

def execLineFetchDone (stack : StackId) (line : Nat) (o : SectorOutcome) (st : State) : Host.Outcome State Fault Refusal :=
  st.on fun m => m.lineDone stack.val line o

/-- BANK_FALLBACK: a hot-row hit that cannot reach its bank is read from DRAM instead (R145). -/
def execBankFallback (stack : StackId) (line : Nat) (st : State) : Host.Outcome State Fault Refusal :=
  st.on fun m =>
    let s := stack.val
    let waits (w : WinLine) : Bool := w.line == line && !w.fetched && w.fromHrc
    if (m.quern s).win.any waits then
      (m.setQuern s fun q => { q with win := updWhere waits (fun w => { w with fromHrc := false }) q.win }).count (qrnR s 0x060) 32 32
    else m

/-! ### Register actions on a quern (R146, R152) -/

/-- QRN_CTL.FLUSH writes every combining entry back (R152). -/
def Module.flushQuern (m : Module) (s : Nat) : Module := m.writeBackAll s fun _ => true

def execQrnFlush (stack : StackId) (st : State) : Host.Outcome State Fault Refusal := st.on fun m => m.flushQuern stack.val

/-- QRN_CTL.HRCINV invalidates every hot-row line (R146). -/
def Module.dropHotRows (m : Module) (s : Nat) : Module := m.setQuern s fun q => { q with hrc := [] }

def execQrnHrcinv (stack : StackId) (st : State) : Host.Outcome State Fault Refusal := st.on fun m => m.dropHotRows stack.val

/-- A combining entry that has had no add for CBAGE µs is written back; its read of the line meets the check code (R152, R319). -/
def execCbAgeWriteback (stack : StackId) (line : Nat) (o : SectorOutcome) (st : State) : Host.Outcome State Fault Refusal :=
  st.on fun m =>
    let s := stack.val
    let age := m.fld (qrnR s 0x008) 4 16
    match (m.quern s).comb.find? fun e => e.line == line with
    | none => m
    | some e =>
      if age = 0 then m
      else ((m.until_ (e.addAt + age * 1000)).ecc s (line * 128) 128 3 o).writeBack s line

end Sys2Proof.Machine
end

