-- ==== Sys2Proof/Machine/Gather.lean ====
section
/-! DEFINITION. The GATHER node (R126–R138), the hall pool merger (R147–R149) and remote gather (R396, R397). -/
namespace Sys2Proof.Machine

/-! ### Rules of the class (R126–R128, R171) -/

/-- The indices, offsets and weights of a bag list do not overlap (R127). -/
def Tensor.bagApart (t : Tensor) : Bool :=
  let arrays := [(0, t.dim0 * t.idxBytes)] ++ (if t.aux = 0 then [] else [(t.aux, t.aux + (t.dim1 + 1) * t.idxBytes)]) ++
    (if t.pitch = 0 then [] else [(t.pitch, t.pitch + 4 * t.dim0)])
  decide (arrays.Pairwise fun a b => a.2 ≤ b.1 ∨ b.2 ≤ a.1)

/-- The rules of a bag list (R127). -/
def Tensor.bagOk (t : Tensor) : Bool :=
  t.layout == 6 && (t.type == 0x13 || t.type == 0x14) && decide (1 ≤ t.dim0) && within t.dim1 1 1048576 && t.dim2 == 1 &&
    t.aux % t.idxBytes == 0 && t.pitch % 4 == 0 && (t.aux != 0 || t.dim0 % t.dim1 == 0) && t.bagApart && t.space != 3

/-- The table that a tensor in SPACE TABLE names. -/
def Tensor.tableId (t : Tensor) : Nat := t.addr % 2 ^ 32

/-- The placement behind a port in SPACE TABLE. -/
def RuleEnv.placed (x : RuleEnv) (tb : Nat → Option PlacementRec) (p : Nat) : Option PlacementRec :=
  ((x.op p).filter fun t => t.space == 3).bind fun t => tb t.tableId

/-- Row types that SUM and MEAN pool (R128). -/
def poolType (t : Nat) : Bool := t != 0x13 && t != 0x14 && typeKnown t

def gatherRules (tb : Nat → Option PlacementRec) (x : RuleEnv) : List Rule :=
  let n := x.n
  let pool := n.par 0 2
  let l := x.op 0
  let rows (f : PlacementRec → Bool) : Bool := ((x.placed tb 1).map f).getD true
  let out (t : Tensor) (r : PlacementRec) : Bool :=
    t.type == 0x01 || t.type == 0x02 || t.type == 0x03 || (pool == 2 && t.type == r.type)
  [x.onNode 0x30 (n.par 4 60 == 0 && decide (pool ≤ 2 ∧ n.par 2 2 ≤ 2) &&
     rows fun r => pool == 2 || poolType r.type),
   x.onNode 0x04 (n.nports == 2), x.onNode 0x18 (x.res 0).isSome, x.onNode 0x1A (n.res.getD 1 0 == 0xFFFF),
   x.onPort 0 0 Tensor.bagOk, x.onPort 1 2 fun t => t.space == 3,
   x.onRes 0 0 fun t => (t.layout == 0 || t.layout == 1) && t.dim2 == 1 && t.formOk &&
     rows fun r => out t r && (poolType r.type || t.type == r.type),
   x.onRes 0 4 fun t => rows fun r => t.dim0 == r.dim,
   x.onRes 0 8 fun t => both l (some t) fun b t => t.dim1 == (if pool = 2 then b.dim0 else b.dim1)]

def Module.places (m : Module) (t : Nat) : Option PlacementRec := (m.table t).map (·.place)

/-- A partition's graph may reach a table in a node of a class (R90): the owner always, another partition by its bit of
READERS or ADDERS. -/
def Table.reach (t : Table) (p op : Nat) : Bool :=
  t.ptn == p || (if op = 0x11 then t.place.adders.testBit p else (op == 0x10 || op == 0x12) && t.place.readers.testBit p)

/-- The rules of a tensor in SPACE TABLE (R48, R90). -/
def Module.tableRules (m : Module) (p : Nat) (x : RuleEnv) : List Rule :=
  let tb (t : Tensor) (ok : Table → Bool) : Bool := t.space != 3 || ((m.table t.tableId).map ok).getD false
  (List.range x.n.nports).flatMap fun i =>
    [x.onPort i 0x00 fun t => t.space != 3 || ((m.table t.tableId).map fun r => t.type == r.place.type).getD true,
     x.onPort i 0x04 fun t => t.space != 3 || t.dim0 == 0, x.onPort i 0x08 fun t => t.space != 3 || t.dim1 == 0,
     x.onPort i 0x0C fun t => t.space != 3 || t.dim2 == 0, x.onPort i 0x10 fun t => t.space != 3 || t.pitch == 0,
     x.onPort i 0x14 fun t => t.space != 3 || t.aux == 0, x.onPort i 0x18 fun t => tb t fun r => r.reach p x.n.op]

/-! ### Bag lists (R127, R129) -/

/-- A bag list in place. -/
structure BagList where
  t    : Tensor
  idx  : Nat
  offs : Option Nat
  wgt  : Option Nat
  deriving DecidableEq, Repr, Inhabited

def BagList.off (mem : Memory) (b : BagList) (i : Nat) : Nat :=
  match b.offs with
  | some k => mem.num (k + b.t.idxBytes * i) b.t.idxBytes
  | none => i * (b.t.dim0 / b.t.dim1)

/-- The offsets array passes (R129). -/
def BagList.ok (mem : Memory) (b : BagList) : Bool :=
  let w := 8 * b.t.idxBytes
  b.off mem 0 == 0 && b.off mem b.t.dim1 == b.t.dim0 &&
    (List.range b.t.dim1).all fun i => decide (signedOf w (b.off mem i) ≤ signedOf w (b.off mem (i + 1)))

def BagList.index (mem : Memory) (b : BagList) (e : Nat) : Int :=
  signedOf (8 * b.t.idxBytes) (mem.num (b.idx + b.t.idxBytes * e) b.t.idxBytes)

/-- The fp32 weight of an entry, as stored; 1.0 without a weights array. -/
def BagList.weight (mem : Memory) (b : BagList) (e : Nat) : BitVec 32 :=
  match b.wgt with
  | some k => BitVec.ofNat 32 (mem.num (k + 4 * e) 4)
  | none => 0x3F800000

/-- The entries of a list with their bags, in bag-list order. -/
def BagList.entries (mem : Memory) (b : BagList) : List (Nat × Nat) :=
  (List.range b.t.dim1).flatMap fun g =>
    (List.range (b.off mem (g + 1) - b.off mem g)).map fun i => (g, b.off mem g + i)

/-- An index is in range of a table (R135). -/
def PlacementRec.inRange (t : PlacementRec) (i : Int) : Bool := decide (0 ≤ i) && decide (i < t.rows)

/-- Bytes from a bag list's start to the end of its last array (R127). -/
def Tensor.bagExtent (t : Tensor) : Nat :=
  max (t.dim0 * t.idxBytes) (max (if t.aux = 0 then 0 else t.aux + (t.dim1 + 1) * t.idxBytes)
    (if t.pitch = 0 then 0 else t.pitch + t.dim0 * 4))

/-- Place a bag list: its whole extent is checked before its arrays are read (R105, R127). -/
def Module.readBags (m : Module) (f : Firing) (port : Nat) (t : Tensor) : Except Stop BagList := do
  if let some e := m.extentStop f port t t.bagExtent permRead then throw e
  let i ← m.placeAt f port t 0 (t.dim0 * t.idxBytes) permRead
  let b : BagList := { t := t, idx := i.key, offs := none, wgt := none }
  let b ← if t.aux = 0 then pure b else do
    let o ← m.placeAt f port t t.aux ((t.dim1 + 1) * t.idxBytes) permRead
    pure { b with offs := some o.key }
  if t.pitch = 0 then return b
  let w ← m.placeAt f port t t.pitch (t.dim0 * 4) permRead
  return { b with wgt := some w.key }

/-! ### The result rows (R132–R134) -/

/-- The elements of a bag's final value: its pooled sum, its mean, or its row (R132, R134). -/
def finalElems (t : PlacementRec) (pool : Nat) (b : BagSt) : List Elem :=
  if pool = 2 then
    (List.range t.dim).map fun i => if b.n = 0 then { v := zeroVal t.type } else t.elem b.row i
  else
    let mean := (quot (.fin false 1 0) (.fin false b.n 0)).v
    (List.range t.dim).map fun i =>
      if b.n = 0 then { v := .flt Num.zero }
      else
        let x := f32Of (b.acc.getD i 0)
        if pool = 1 then (fp32.mul x mean).elem else { v := .flt x }

/-- A row as stored, copied bit for bit into a result of the table's own type (R134). -/
def copyRow (mem : Memory) (p : Placed) (t : PlacementRec) (bag : Nat) (row : List Byte) : Memory :=
  let w := typeBits t.type
  let mem := (List.range t.dim).foldl (fun mm i =>
    storeElem mm p (p.t.elemBit i bag 0)
      (fieldAt row (i * w / 8) ((i * w % 8 + w + 7) / 8) / 2 ^ (i * w % 8) % 2 ^ w)) mem
  if isMx t.type then
    (List.range (t.dim / 32)).foldl (fun mm j =>
      mm.write (p.key + p.t.scaleAt (32 * j) bag 0) ((slice row (ceilDiv (t.dim * w) 8 + j) 1).headD 0)) mem
  else mem

/-- The final value of a bag is formed once, in hall `h`, and written; every bag closed ends the node (R132, R138). The write is
translated as it is made: at an absent page the node halts with the bag open (R112, R337). -/
def Module.closeBag (m : Module) (g : GatherSt) (bag h : Nat) : Module :=
  match m.table g.table, (m.firing g.key).filter (·.e.haltAt.isNone), g.bags.find? fun b => b.bag == bag with
  | some t, some f, some b =>
    match m.place f g.bench 8 g.result g.result.extent permWrite with
    | .error e => m.stopFiring f e
    | .ok p =>
      let m := m.settle p.key p.t.extent
      let es := finalElems t.place g.pool b
      let copy := g.pool == 2 && g.result.type == t.place.type && b.n != 0
      let w : Memory × WriteEv :=
        if copy then (copyRow m.mem p t.place bag b.row, {})
        else writeResult m.mem p (rndOf g.rnd fun i => m.draws g.bench (pair 1 i)) fun d0 d1 _ =>
          if d1 = bag then some (es.getD d0 { v := zeroVal t.place.type }) else none
      let m := (({ m with mem := w.1 } : Module).wrote f 8 p (p.t.spansAt fun q => q.2.1 == bag)).spend
      let m := (m.count (halR h 0x118) 0 32 w.2.sat).count (bchR g.bench 0x158) 0 32 w.2.conv
      let g : GatherSt := { g with flagged := g.flagged || decide (0 < w.2.sat)
                                   bags := g.bags.map fun x => if x.bag = bag then { x with closed := true } else x }
      if g.bags.all (·.closed) then
        ({ m with gathers := m.gathers.filter (·.key != g.key) } : Module).finish f (flagIf g.flagged stOk)
      else { m with gathers := updWhere (fun x => x.key == g.key) (fun _ => g) m.gathers }
  | _, _, _ => m

/-- Every bag of a gather whose entries are all covered closes (R132, R138). -/
def Module.closeReady (m : Module) (k : FKey) : Module :=
  match m.gathers.find? fun g => g.key == k with
  | none => m
  | some g =>
    (g.bags.filter fun b => !b.closed && b.covered == b.n).foldl (fun (m : Module) b =>
      match m.gathers.find? fun y => y.key == k with
      | some y => m.closeBag y b.bag y.hall
      | none => m) m

/-! ### Issue (R122, R136, R396) -/

/-- The members that may serve a shard, in the order of R122: the primary's, then the twin's; none that is not JOINED,
and not this member where its own copy's page is LOST. -/
def Module.servers (m : Module) (t : Table) (r : Nat) : List Nat :=
  let a := t.place.rowAt r
  let ms := a.shard :: (if t.place.twin then [t.place.twinMember m.guildSize a.shard] else [])
  ms.filter fun x => m.isJoined x

/-- The page of a row of this member's own copy is LOST. -/
def Module.ownLost (m : Module) (table edition r : Nat) : Bool :=
  match m.findRow table edition r with
  | .lost => true
  | _ => false

/-- The wire form of a request's header (R396). -/
def gatherHeader (g : GatherSt) (bags : Nat) : List Byte :=
  leBytes 4 g.table ++ leBytes 4 g.edition ++ leBytes 4 g.key.inst.toNat ++ leBytes 2 g.key.node.toNat ++
    leBytes 2 g.key.gen.toNat ++ leBytes 1 g.bench ++
    leBytes 1 (1 + 2 * (g.hint % 4) + (if g.pool = 2 then 8 else 0)) ++ leBytes 2 bags ++ leBytes 12 0

/-- The bag groups of a request, weights present (R396). -/
def gatherGroups (es : List Issued) : List Byte :=
  let bags := (es.map (·.bag)).eraseDups
  bags.flatMap fun b =>
    let mine := es.filter (·.bag == b)
    leBytes 4 b ++ leBytes 2 mine.length ++ leBytes 2 0 ++
      mine.flatMap fun e => leBytes 8 e.index ++ leBytes 4 e.weight.toNat

/-- One more entry of a bag goes to a hall's querns (R147). -/
def Hall.moreQuota (h : Hall) (key : FKey) (src bench bag : Nat) : Hall :=
  let hit (q : MergerQuota) : Bool := q.key == key && q.src == src && q.bag == bag
  if h.quotas.any hit then { h with quotas := updWhere hit (fun q => { q with count := q.count + 1 }) h.quotas }
  else { h with quotas := h.quotas ++ [{ key := key, src := src, bench := bench, bag := bag, count := 1 }] }

/-- Entries leave for the querns that hold their rows: this member's own, or another member's over VC1 (R136). -/
def Module.issue (m : Module) (g : GatherSt) (es : List Issued) : Module :=
  match m.table g.table with
  | none => m
  | some t =>
    let here := es.filter (·.member == m.member)
    let m := here.foldl (fun (m : Module) e =>
      let a := t.place.rowAt e.index
      let q : QEntry := { key := g.key, src := m.member, ptn := g.ptn, bag := e.bag, slot := e.slot, index := e.index
                          weight := e.weight, table := g.table, edition := g.edition, hint := g.hint, none_ := g.pool == 2 }
      (m.setHall (a.stack / 5) fun h => h.moreQuota g.key m.member g.bench e.bag).setQuern a.stack fun x =>
        { x with inq := x.inq ++ [q] }) m
    ((es.map (·.member)).eraseDups.filter (· != m.member)).foldl (fun (m : Module) k =>
      let mine := es.filter (·.member == k)
      m.sendTo k 1 (.payload 0x10 g.ptn (gatherHeader g (mine.map (·.bag)).eraseDups.length ++ gatherGroups mine))) m

/-- SHARD_DARK: neither copy of a row answers (R436). -/
def Module.shardDark (m : Module) (p : Nat) (t : Table) (edition r : Nat) : Module :=
  m.degradeAll 0x0208 (some p) t.place.table
    (leBytes 4 t.place.table ++ leBytes 2 (t.place.rowAt r).shard ++ leBytes 4 edition)

/-- The node of a gather ends without a result. -/
def Module.endGather (m : Module) (g : GatherSt) (st : Nat) : Module :=
  let m : Module := { m with gathers := m.gathers.filter (·.key != g.key) }
  match m.firing g.key with
  | some f => m.finish f st
  | none => m

/-! ### The GATHER firing -/

/-- Every stack that a table's rows may lie on (R119). -/
def PlacementRec.stackList (t : PlacementRec) : List Nat :=
  match t.mode with
  | 0 => List.range 20
  | 1 => (List.range 5).map (5 * t.wh + ·)
  | _ => [t.wh]

/-- The first quern of a table whose access table denies a bench (R137). -/
def Module.quernDenied (m : Module) (f : Firing) (t : PlacementRec) (perm : Nat) : Option Nat :=
  if t.copies m.guildSize m.member = 0 then none
  else t.stackList.find? fun s => !m.allowed tcQuern s f.ptn (benchMaster f.bench) perm

def Module.denyQuern (m : Module) (f : Firing) (s perm : Nat) : Module := m.deny f.ptn (benchMaster f.bench) tcQuern s perm

/-- The edition that a request's instance is bound to (R168). -/
def Firing.edition (f : Firing) (table : Nat) : Nat := (assocGet table f.i.bindings).getD 0

/-- The entries that a gather issues, each with the member chosen for it (R122); `none` where no copy can serve one. -/
def Module.chooseAll (m : Module) (t : Table) (edition : Nat) (es : List (Nat × Nat × Nat × BitVec 32)) :
    Option (List Issued) :=
  es.foldr (fun (e : Nat × Nat × Nat × BitVec 32) acc =>
    let (bag, slot, r, w) := e
    let ss := (m.servers t r).filter fun k => k != m.member || !m.ownLost t.place.table edition r
    match ss, acc with
    | k :: _, some l =>
      some ({ slot := slot, bag := bag, index := r, weight := w, member := k, hall := (t.place.rowAt r).stack / 5
              triedTwin := k != (t.place.rowAt r).shard } :: l)
    | _, _ => none) (some [])

def Module.gatherWork (m : Module) (f : Firing) : Except Stop Module := do
  if m.gathers.any (·.key == f.key) then return m
  f.checked (m.draft f.ptn) fun x => m.tableRules f.ptn x ++ gatherRules m.places x
  let lt ← match f.tensor 0 with | some t => pure t | none => throw Stop.addr
  let tt ← match f.tensor 1 with | some t => pure t | none => throw Stop.addr
  let t ← match m.table tt.tableId with | some t => pure t | none => throw Stop.addr
  let b ← m.readBags f 0 lt
  let r ← m.placeRes f 0
  let h := f.e.hall
  if !b.ok m.mem then return ((m.count (halR h 0x100) 32 32).finish f stFaultOob)
  match m.quernDenied f t.place permRead with
  | some s => return ((m.denyQuern f s permRead).finish f stFaultAccess)
  | none =>
    let pool := f.n.par 0 2
    let all := b.entries m.mem
    let ok (e : Nat × Nat) : Bool := t.place.inRange (b.index m.mem e.2)
    let sent := if lt.oobx then all.takeWhile ok else all.filter ok
    let bad := all.countP fun e => !ok e
    let stop := lt.oobx && decide (0 < bad)
    let bagOf (e : Nat × Nat) : Nat := if pool = 2 then e.2 else e.1
    match m.chooseAll t (f.edition t.place.table) (sent.map fun e =>
      (bagOf e, e.2, (b.index m.mem e.2).toNat, b.weight m.mem e.2)) with
    | none =>
      let dark := ((sent.map fun e => (b.index m.mem e.2).toNat).find? fun r => (m.servers t r).isEmpty).getD 0
      return ((m.shardDark f.ptn t (f.edition t.place.table) dark).finish f stFaultAddress)
    | some es =>
      let bags := (List.range r.t.dim1).map fun i => ({ bag := i, n := es.countP fun e => e.bag == i } : BagSt)
      let g : GatherSt := { key := f.key, ptn := f.ptn, hall := h, bench := f.bench, table := t.place.table
                            edition := f.edition t.place.table, pool := pool, rnd := f.n.par 2 2, hint := tt.hint
                            result := r.t, issued := es, bags := bags, flagged := decide (0 < bad) }
      if stop then return (((m.issue g es).count (halR h 0x100) 0 32).finish f stFaultOob)
      else
        let m := ({ m with gathers := m.gathers ++ [g] } : Module).count (halR h 0x100) 0 32 bad
        return (m.issue g es).closeReady f.key

def execGather (k : FKey) (s : State) : Host.Outcome State Fault Refusal := s.on fun m => m.work k 0x10 Module.gatherWork

/-! ### Partials at the gathering bench (R138, R149) -/

/-- Entries that a copy could not answer go to the other copy; with none left the shard is dark (R138, R161, R436). -/
def Module.resend (m : Module) (g : GatherSt) (slots : List Nat) : Module :=
  match m.table g.table with
  | none => m.endGather g stFaultAddress
  | some t =>
    let back := g.issued.filter fun e => slots.contains e.slot && !e.done
    let other (e : Issued) : Option Nat := if e.triedTwin then none else (m.servers t e.index).find? (· != e.member)
    match back.find? fun e => (other e).isNone with
    | some e => (m.shardDark g.ptn t g.edition e.index).endGather g stFaultAddress
    | none =>
      let moved := back.map fun e => { e with member := (other e).getD 0, triedTwin := true }
      let g : GatherSt := { g with issued := (g.issued.filter fun e => !(slots.contains e.slot && !e.done)) ++ moved }
      let m : Module := { m with gathers := updWhere (fun x => x.key == g.key) (fun _ => g) m.gathers }
      (m.count (halR g.hall 0x108) 32 32 moved.length).issue g moved

/-- A partial is added into its bag, which closes when its entries are covered; each entry counts once (R138, R149). -/
def Module.addPartial (m : Module) (g : GatherSt) (p : PoolPartial) (h : Nat) : Module :=
  if p.status = stFaultAccess then m.endGather g stFaultAccess
  else if p.status = 0x10 then m.resend g p.slots
  else if g.issued.any fun e => e.done && p.slots.contains e.slot then m
  else
    let add (b : BagSt) : BagSt :=
      let acc := if b.acc.isEmpty then p.vals else (addVecs b.acc p.vals).1
      { b with covered := b.covered + p.covered, acc := acc, row := if p.row.isEmpty then b.row else p.row }
    let sat := match g.bags.find? fun b => b.bag == p.bag with
      | some b => if b.acc.isEmpty then 0 else (addVecs b.acc p.vals).2
      | none => 0
    let m := m.count (halR h 0x118) 0 32 sat
    let g : GatherSt := { g with
      flagged := g.flagged || p.status == 1 || decide (0 < sat)
      issued := g.issued.map fun e => if p.slots.contains e.slot then { e with done := true } else e
      bags := updWhere (fun b => b.bag == p.bag) add g.bags }
    let m : Module := { m with gathers := updWhere (fun x => x.key == g.key) (fun _ => g) m.gathers }
    match g.bags.find? fun b => b.bag == p.bag with
    | some b => if !b.closed && b.covered == b.n then m.closeBag g p.bag h else m
    | none => m

/-- GATHER_PARTIAL: the next partial that reached the gathering bench. -/
def execGatherPartial (k : FKey) (s : State) : Host.Outcome State Fault Refusal :=
  s.on fun m =>
    match m.gathers.find? fun g => g.key == k with
    | none => m
    | some g =>
      match g.arriving with
      | [] => m
      | p :: rest =>
        let g : GatherSt := { g with arriving := rest }
        ({ m with gathers := updWhere (fun x => x.key == k) (fun _ => g) m.gathers } : Module).addPartial g p g.hall

/-! ### The hall pool merger (R147–R149) -/

/-- The wire form of partials for the bench of another member (R397). -/
def partialPayload (q : MergerQuota) (p : PoolPartial) : List Byte :=
  leBytes 4 q.key.inst.toNat ++ leBytes 2 q.key.node.toNat ++ leBytes 2 q.key.gen.toNat ++ leBytes 1 q.bench ++ leBytes 7 0 ++
    leBytes 4 p.bag ++ leBytes 4 p.covered ++ leBytes 1 p.member ++ leBytes 1 p.hall ++ leBytes 1 p.status ++ leBytes 5 0 ++
    (if p.row.isEmpty then p.vals.flatMap fun v => leBytes 4 v.toNat else p.row)

/-- A merged partial leaves for its gathering bench, on this member or another. -/
def Module.toBench (m : Module) (q : MergerQuota) (p : PoolPartial) : Module :=
  if p.src = m.member then
    { m with gathers := updWhere (fun g => g.key == p.key) (fun g => { g with arriving := g.arriving ++ [p] }) m.gathers }
  else m.sendTo p.src 1 (.payload 0x11 p.ptn (partialPayload q p))

/-- A slot's sum as a partial. -/
def MergerSlot.out (s : MergerSlot) (member hall : Nat) : PoolPartial :=
  { key := s.key, src := s.src, ptn := s.ptn, bag := s.bag, covered := s.covered, slots := s.slots, member := member
    hall := hall, status := s.flagged.toNat, vals := s.vals, row := s.row }

/-- Units of 256 bytes of a slot (R147); a slot of a NONE gather, whose row travels as stored, takes as many as the row has (log entry
162, DESIGN CHOICE). -/
def MergerSlot.units (s : MergerSlot) : Nat := if s.row.isEmpty then ceilDiv s.vals.length 64 else ceilDiv s.row.length 256

def Hall.slotOf (h : Hall) (key : FKey) (src bag : Nat) : Option MergerSlot :=
  h.merger.find? fun s => s.key == key && s.src == src && s.bag == bag
def Hall.quotaOf (h : Hall) (key : FKey) (src bag : Nat) : Option MergerQuota :=
  h.quotas.find? fun q => q.key == key && q.src == src && q.bag == bag

/-- Free the slot of a bag. -/
def Module.dropSlot (m : Module) (h : Nat) (key : FKey) (src bag : Nat) : Module :=
  m.setHall h fun x => { x with merger := x.merger.filter fun s => !(s.key == key && s.src == src && s.bag == bag) }

/-- Entries that the bag's quota no longer waits for. -/
def Module.lessQuota (m : Module) (h : Nat) (key : FKey) (src bag n : Nat) : Module :=
  m.setHall h fun x => { x with quotas := (updWhere (fun q => q.key == key && q.src == src && q.bag == bag)
    (fun q => { q with count := q.count - n }) x.quotas).filter fun q => q.count != 0 }

/-- The oldest open slot is spilled to its bench (R148). -/
def Module.spill (m : Module) (h : Nat) : Module :=
  match (m.hall h).merger with
  | [] => m
  | s :: _ =>
    let q := ((m.hall h).quotaOf s.key s.src s.bag).getD default
    let m := (m.dropSlot h s.key s.src s.bag).lessQuota h s.key s.src s.bag s.covered
    (m.toBench q (s.out m.member h)).count (halR h 0x108) 0 32

/-- Spill until a slot and `n` units are free. -/
def Module.makeRoom (m : Module) (h n : Nat) : Nat → Module
  | 0 => m
  | k + 1 =>
    let x := m.hall h
    if x.merger.length < 16384 ∧ (x.merger.map MergerSlot.units).sum + n ≤ 16384 then m else (m.spill h).makeRoom h n k

/-- A bag's slot that covers its quota leaves: this merger forms the final value when the whole bag came through it, and
otherwise the bench takes the sum (R147). -/
def Module.checkSlot (m : Module) (h : Nat) (q : MergerQuota) : Module :=
  match (m.hall h).slotOf q.key q.src q.bag, (m.hall h).quotaOf q.key q.src q.bag with
  | some s, some q' =>
    if s.covered < q'.count then m
    else
      let m := (m.dropSlot h q.key q.src q.bag).lessQuota h q.key q.src q.bag q'.count
      let p := s.out m.member h
      match (m.gathers.find? fun g => g.key == q.key && q.src == m.member).bind fun g =>
        (g.bags.find? fun b => b.bag == q.bag).map fun b => (g, b) with
      | some (g, b) => if b.n = s.covered then m.addPartial g p h else m.toBench q p
      | none => m.toBench q p
  | _, _ => m

/-- MERGER_PARTIAL: the next partial that reached the merger of a hall. Where the slot that it would merge into reads back with a
double-bit error, the entries of that slot are answered as lost (R317, R319), and the partial waits. -/
def execMergerPartial (hall : Reading HallId) (s : State) : Host.Outcome State Fault Refusal :=
  s.on fun m =>
    let h := hall.what.val
    match (m.hall h).arriving with
    | [] => m
    | p :: rest =>
      let q := ((m.hall h).quotaOf p.key p.src p.bag).getD default
      let slot := (m.hall h).slotOf p.key p.src p.bag
      if hall.outcome = .uncorrectable ∧ slot.isSome then
        let s := slot.getD default
        let lost : PoolPartial := { p with covered := s.covered, slots := s.slots, status := 0x10, vals := [], row := [] }
        let m := m.setHall h fun x => { x with merger := x.merger.filter (· != s) }
        (((m.toBench q lost).lessQuota h p.key p.src p.bag s.covered).checkSlot h q)
      else
      let m := m.setHall h fun x => { x with arriving := rest }
      if p.status = stFaultAccess ∨ p.status = 0x10 then
        ((m.toBench q p).lessQuota h p.key p.src p.bag p.covered).checkSlot h q
      else
        match (m.hall h).slotOf p.key p.src p.bag with
        | some s =>
          let r := addVecs s.vals p.vals
          let merged : MergerSlot :=
            { s with covered := s.covered + p.covered, slots := s.slots ++ p.slots, vals := r.1
                     flagged := s.flagged || p.status == 1 || decide (0 < r.2) }
          let m := m.setHall h fun x => { x with merger := updWhere (· == s) (fun _ => merged) x.merger }
          (m.count (halR h 0x118) 0 32 r.2).checkSlot h q
        | none =>
          let fresh : MergerSlot :=
            { key := p.key, src := p.src, ptn := p.ptn, bag := p.bag, covered := p.covered, slots := p.slots
              flagged := p.status == 1, vals := p.vals, row := p.row }
          let m := m.makeRoom h fresh.units (m.hall h).merger.length
          (m.setHall h fun x => { x with merger := x.merger ++ [fresh] }).checkSlot h q

/-! ### Remote gather (R149, R396, R397) -/

/-- The entries of a request: bag, index and weight (R396). -/
def requestEntries (pl : List Byte) (w : Bool) : Nat → Nat → List (Nat × Nat × BitVec 32)
  | 0, _ => []
  | groups + 1, off =>
    let n := fieldAt pl (off + 4) 2
    let sz := if w then 12 else 8
    ((List.range n).map fun i =>
      let o := off + 8 + i * sz
      (fieldAt pl off 4, fieldAt pl o 8, if w then BitVec.ofNat 32 (fieldAt pl (o + 8) 4) else 0x3F800000)) ++
      requestEntries pl w groups (off + 8 + n * sz)

/-- GATHER_REQ: each entry is checked against the quern's access table under the sender's master ID, and enters the
quern's input queue; a denied one is answered (R137, R397). -/
def execGatherReq (src : MemberId) (ptn : PtnId) (payload : List Byte) (s : State) : Host.Outcome State Fault Refusal :=
  s.on fun m =>
    let table := fieldAt payload 0 4
    let key : FKey := { inst := BitVec.ofNat 32 (fieldAt payload 8 4), node := BitVec.ofNat 16 (fieldAt payload 0x0C 2)
                        gen := BitVec.ofNat 16 (fieldAt payload 0x0E 2) }
    let flags := fieldAt payload 0x11 1
    let es := requestEntries payload (flags.testBit 0) (fieldAt payload 0x12 2) 0x20
    es.foldl (fun (m : Module) (e : Nat × Nat × BitVec 32) =>
      let st := match m.table table with
        | some t => (t.place.rowAt e.2.1).stack
        | none => 0
      let q : QEntry := { key := key, src := src.val, ptn := ptn.val, bag := e.1, slot := 0, index := e.2.1, weight := e.2.2
                          table := table, edition := fieldAt payload 4 4, hint := bitsOf flags 1 2, none_ := flags.testBit 3 }
      let m := m.setHall (st / 5) fun h => h.moreQuota key src.val (fieldAt payload 0x10 1) e.1
      let M := remoteMaster src.val ptn.val
      if m.allowed tcQuern st ptn.val M permRead then m.setQuern st fun x => { x with inq := x.inq ++ [q] }
      else (m.deny ptn.val M tcQuern st permRead).failEntries st q [0] stFaultAccess) m

/-- The partials of a PARTIAL payload: bag, covered, member, hall, status and the bytes that follow (R397). -/
def partialGroups (pl : List Byte) (len : Nat) : List (List Byte × List Byte) :=
  (List.range ((pl.length - 16) / (16 + len))).map fun i =>
    (slice pl (16 + i * (16 + len)) 16, slice pl (32 + i * (16 + len)) len)

/-- PARTIAL: each partial takes the entries it covers from those outstanding to its member and hall, and reaches the
bench; one whose entries have been sent again is discarded (R138). -/
def execPartialPkt (src : MemberId) (_ptn : PtnId) (payload : List Byte) (s : State) : Host.Outcome State Fault Refusal :=
  s.on fun m =>
    let key : FKey := { inst := BitVec.ofNat 32 (fieldAt payload 0 4), node := BitVec.ofNat 16 (fieldAt payload 4 2)
                        gen := BitVec.ofNat 16 (fieldAt payload 6 2) }
    match m.gathers.find? fun g => g.key == key with
    | none => m
    | some g =>
      let t := ((m.table g.table).map (·.place)).getD default
      let first := fieldAt payload (16 + 0x0A) 1
      let len := if 0x10 ≤ first then 0 else if g.pool = 2 then t.rowBytes else 4 * t.dim
      (partialGroups payload len).foldl (fun (m : Module) (hd : List Byte × List Byte) =>
        match m.gathers.find? fun g => g.key == key with
        | none => m
        | some g =>
          let bag := fieldAt hd.1 0 4
          let covered := fieldAt hd.1 4 4
          let waits := g.arriving.flatMap (·.slots)
          let mine := ((g.issued.filter fun e => e.bag == bag && e.member == src.val && e.hall == fieldAt hd.1 9 1 && !e.done &&
            !waits.contains e.slot).map (·.slot)).take covered
          if mine.length < covered then m
          else
            let vals := if g.pool = 2 then [] else (List.range t.dim).map fun i => BitVec.ofNat 32 (fieldAt hd.2 (4 * i) 4)
            let p : PoolPartial := { key := key, src := m.member, ptn := g.ptn, bag := bag, covered := covered, slots := mine
                                     member := src.val, hall := fieldAt hd.1 9 1, status := fieldAt hd.1 0x0A 1
                                     vals := vals, row := if g.pool = 2 then hd.2 else [] }
            let took (x : GatherSt) : GatherSt := { x with arriving := x.arriving ++ [p] }
            { m with gathers := updWhere (fun x => x.key == key) took m.gathers }) m

end Sys2Proof.Machine
end

