-- ==== Sys2Proof/Machine/Matrix.lean ====
section
/-! DEFINITION. The MATMUL node (R179–R215): its rules, the arithmetic of runs and accumulators, tile flags, the ACC view's
banks and running-sum chains. -/
namespace Sys2Proof.Machine

/-! ### Rules (R179–R185, R210, R211, R218, R224) -/

/-- The input groups of R183: 1 BF, 2 FH, 3 F8, 4 MX, 5 INT. -/
def matGroup (t : Nat) : Nat :=
  match t with
  | 0x02 => 1
  | 0x03 => 2
  | 0x04 | 0x05 => 3
  | 0x10 | 0x11 | 0x15 => 5
  | t => if isMx t then 4 else 0

/-- The (M, N) that a result admits (R181). -/
def resultForms (r : Tensor) : List (Nat × Nat) :=
  (r.dim1, r.dim0) :: (if r.layout = 0 ∧ r.pitch = 0 ∧ r.dim1 = 1 then [(r.dim0, 1)] else [])

/-- The (M, K) of A and the (K, N) of B. -/
def dimsA (n : Node) (t : Tensor) : Nat × Nat := if n.par 1 1 = 0 then (t.dim1, t.dim0) else (t.dim0, t.dim1)
def dimsB (n : Node) (t : Tensor) : Nat × Nat := if n.par 0 1 = 0 then (t.dim1, t.dim0) else (t.dim0, t.dim1)

/-- The forms that A and B leave. -/
def liveForms (n : Node) (a b r : Option Tensor) : List (Nat × Nat) :=
  ((r.map resultForms).getD []).filter fun (mm, nn) =>
    ((a.map fun t => (dimsA n t).1 == mm).getD true) && ((b.map fun t => (dimsB n t).2 == nn).getD true)

def floatOut : List Nat := [0x01, 0x02, 0x03, 0x04, 0x05]
def floatSide : List Nat := [0x01, 0x02, 0x03]


/-- The set of a node holds every bench of a weave record. -/
def Draft.setHolds (d : Draft) (n : Node) (w : WeaveRec) : Bool :=
  ((d.set n.bset).map fun s => s.hall == w.hall && w.bench.all fun b => s.mask.testBit b).getD false

def matmulStages (d : Draft) (n : Node) : Option (List VStage) := if n.par 10 1 = 1 then d.comp (n.par 11 5) else some []

/-- The rules of a MATMUL node. Where A and B are both dynamic, the result's type says whether the group is INT (R183): no other group
has an int32 result. -/
def matmulRules (x : RuleEnv) : List Rule :=
  let n := x.n
  let a := x.op 0
  let b := x.op 1
  let r := x.res 0
  let pre := n.par 4 2
  let ch := n.par 16 1
  let stages := (matmulStages x.d n).getD []
  let forms := liveForms n a b r
  let group := (a.map fun t => matGroup t.type).orElse fun _ => b.map fun t => matGroup t.type
  let int := group == some 5 || (group.isNone && (r.map (·.type)) == some 0x13)
  let accT := if int then 0x13 else 0x01
  let depth (t : Tensor) : Bool := (r.map fun y => t.dim2 == y.dim2 || t.dim2 == 1).getD true
  let formed (t : Tensor) (ok : Nat → Nat → Bool) : Bool := r.isNone || (forms.any fun (mm, nn) => ok mm nn) && depth t
  let side (t : Tensor) : Bool := t.formOk && t.plain && (if int then t.type == 0x13 else floatSide.contains t.type)
  [x.onNode 0x30 (n.par 25 39 == 0 && decide (n.par 2 2 ≤ 2 ∧ n.par 6 2 ≤ 2 ∧ n.par 8 2 ≤ 2) &&
     (n.par 10 1 == 1 || n.par 11 5 == 0) && (ch == 1 || n.par 17 8 == 0)),
   x.onNode 0x04 (n.nports == 2 + (prePort n).isSome.toNat + (epiPort n).isSome.toNat),
   x.onNode 0x18 r.isSome,
   x.onNode 0x30 (matmulStages x.d n).isSome,
   x.onNode 0x30 ((stages.flatMap VStage.ports).isEmpty),
   x.onNode 0x30 ((chainTypes (fun _ => none) accT stages).any fun t => isInt t == isInt accT),
   x.onNode 0x30 (pre != 3 || (ch == 0 && (r.map fun t => decide (t.tiles ≤ 4 ∨
     (liveForms n a b r).any fun (mm, nn) => decide (ceilDiv mm 32 * ceilDiv nn 32 * t.dim2 ≤ 4))).getD true)),
   x.onNode 0x30 (ch == 0 || (x.d.chain (n.par 17 8)).isSome),
   x.onNode 0x06 (ch == 0 || ((x.d.chain (n.par 17 8)).map (x.d.setHolds n)).getD true),
   x.onPort 0 0 fun t => t.formOk && matGroup t.type != 0 && (matGroup t.type != 4 || (n.par 1 1 == 0 && t.dim0 % 32 == 0)),
   x.onPort 0 1 fun t => t.layout != 2 || n.par 1 1 == 0,
   x.onPort 0 4 fun t => formed t fun mm _ => (dimsA n t).1 == mm,
   x.onPort 1 0 fun t => t.formOk && matGroup t.type != 0 && (matGroup t.type != 4 || (n.par 0 1 == 1 && t.dim0 % 32 == 0)) &&
     ((a.map fun s => matGroup s.type == matGroup t.type).getD true),
   x.onPort 1 1 fun t => (t.layout != 2 || n.par 0 1 == 1) && !(t.layout == 2 && (a.map (·.layout)) == some 2),
   x.onPort 1 4 fun t => (formed t fun _ nn => (dimsB n t).2 == nn) && ((a.map fun s => (dimsA n s).2 == (dimsB n t).1).getD true),
   x.onRes 0 0 fun t => t.formOk && (if int then t.type == 0x13 else floatOut.contains t.type),
   x.onRes 0 4 fun t => decide (1 ≤ t.dim2),
   x.onRes 1 0 fun t => t.formOk && t.type == 0x11 && t.layout == 0,
   x.onRes 1 4 fun t => (r.map fun y => t.dim2 == y.dim2).getD true &&
     forms.any fun (mm, nn) => t.dim0 == ceilDiv nn 32 && t.dim1 == ceilDiv mm 32] ++
  (match prePort n with
   | some p => [x.onPort p 0 side, x.onPort p 4 fun t => formed t fun mm nn => t.dim0 == nn && (if pre = 1 then t.dim1 == 1 else t.dim1 == mm)]
   | none => []) ++
  (match epiPort n with
   | some p => [x.onPort p 0 side, x.onPort p 4 fun t => formed t fun mm nn => t.dim0 == nn && (t.dim1 == mm || t.dim1 == 1)]
   | none => [])

/-! ### Runs and accumulators (R191–R198) -/

/-- A long accumulator: fp32, or int32 for group INT, and whether anything saturated. -/
structure Acc where
  v   : Val
  sat : Bool := false
  deriving DecidableEq, Repr, Inhabited

/-- One run into the short accumulator (R192). -/
def runF (prods : List Num) : Res :=
  prods.foldl (fun acc p => let r := fp20.add acc.v p; { v := r.v, sat := acc.sat || r.sat }) { v := Num.zero }

/-- Products per run (R193, R196). -/
def promotion (n : Node) (int : Bool) : Nat :=
  let pi := match n.par 2 2 with
    | 0 => 8
    | 1 => 4
    | _ => 16
  if int then min pi 8 else pi

/-- The long sum of promoted runs and the preload, in a free order (R200, R201). It starts at zero where nothing is preloaded, and
takes the preload's place in the order where something is (R202). -/
def promoteF (codes : Nat → Nat) (runs : List Res) (pre : Option Num) : Acc :=
  let l := permute codes (runs.map (·.v) ++ pre.toList)
  let r := match pre, l with
    | some _, x :: rest =>
      let first := fp32.round .even x
      let r := sumF32 first.v rest
      { r with sat := r.sat || first.sat }
    | _, _ => sumF32 Num.zero l
  { v := .flt r.v, sat := r.sat || runs.any (·.sat) }

/-- The int32 long sum, saturating at each promotion (R196). -/
def promoteI (codes : Nat → Nat) (runs : List Int) (pre : Option Int) : Acc :=
  let r := (permute codes (runs ++ pre.toList)).foldl (fun (acc : Int × Bool) x =>
    let c := clampInt (intLimits 0x13).1 (intLimits 0x13).2 (acc.1 + x)
    (c.1, acc.2 || c.2)) (0, false)
  { v := .int r.1, sat := r.2 }

/-- The operands of a MATMUL firing on one bench, with its slice of K (R211). -/
structure MatOps where
  a  : Placed
  b  : Placed
  t0 : Bool
  t1 : Bool
  lo : Nat
  hi : Nat
  deriving DecidableEq, Repr, Inhabited

/-- Batch item of a broadcast operand. -/
def batch (t : Tensor) (d2 : Nat) : Nat := if t.dim2 = 1 then 0 else d2

/-- Position of A's element (m, k) and of B's element (k, n). -/
def MatOps.atA (o : MatOps) (i k d2 : Nat) : Nat × Nat × Nat :=
  if o.t0 then (i, k, batch o.a.t d2) else (k, i, batch o.a.t d2)
def MatOps.atB (o : MatOps) (k j d2 : Nat) : Nat × Nat × Nat :=
  if o.t1 then (k, j, batch o.b.t d2) else (j, k, batch o.b.t d2)

/-- The K coordinate, and the row of A or column of B, of a position of an operand. -/
def MatOps.kOfA (o : MatOps) (p : Nat × Nat × Nat) : Nat := if o.t0 then p.2.1 else p.1
def MatOps.rowOfA (o : MatOps) (p : Nat × Nat × Nat) : Nat := if o.t0 then p.1 else p.2.1
def MatOps.kOfB (o : MatOps) (p : Nat × Nat × Nat) : Nat := if o.t1 then p.1 else p.2.1
def MatOps.colOfB (o : MatOps) (p : Nat × Nat × Nat) : Nat := if o.t1 then p.2.1 else p.1

/-- A's tile of (m, k) is skipped (R234). -/
def MatOps.skips (mem : Memory) (o : MatOps) (i k d2 : Nat) : Bool :=
  o.a.t.layout == 3 &&
    (let p := o.atA i k d2
     o.a.zbMap mem (o.a.t.tileOf p.1 p.2.1 p.2.2))

/-- Positions of A that the bench reads: those of its slice. A tile whose map bit is set is read for its consistency (log entry 167,
DEDUCED). -/
def MatOps.readsA (o : MatOps) (p : Nat × Nat × Nat) : Bool := decide (o.lo ≤ o.kOfA p ∧ o.kOfA p < o.hi)

/-- Positions of B that the bench reads: those of its slice that meet a tile of A that is not skipped (R227, R234). -/
def MatOps.readsB (mem : Memory) (o : MatOps) (mdim depth : Nat) (p : Nat × Nat × Nat) : Bool :=
  decide (o.lo ≤ o.kOfB p ∧ o.kOfB p < o.hi) &&
    (o.a.t.layout != 3 || (List.range depth).any fun d2 => batch o.b.t d2 == p.2.2 &&
      (List.range (ceilDiv mdim 32)).any fun mb => !o.skips mem (mb * 32) (o.kOfB p) d2)

/-- The element of A at (m, k), and of B at (k, n), without block scale: zero in the rows and columns of an edge tile beyond the
operand (R187). -/
def MatOps.valA (mem : Memory) (o : MatOps) (i k d2 : Nat) : Val :=
  let p := o.atA i k d2
  if o.a.t.inside p then o.a.raw mem p.1 p.2.1 p.2.2 else zeroVal o.a.t.type
def MatOps.valB (mem : Memory) (o : MatOps) (k j d2 : Nat) : Val :=
  let p := o.atB k j d2
  if o.b.t.inside p then o.b.raw mem p.1 p.2.1 p.2.2 else zeroVal o.b.t.type

/-- The exact product at one K position, without block scales (R192, R195). -/
def MatOps.product (mem : Memory) (o : MatOps) (i j k d2 : Nat) : Val := (o.valA mem i k d2).mulV (o.valB mem k j d2)

/-- The product of the two block scales at a K position (R195). -/
def MatOps.scale (mem : Memory) (o : MatOps) (i j k d2 : Nat) : Num :=
  let at_ (x : Placed) (p : Nat × Nat × Nat) : Num := if x.t.inside p then x.scale mem p.1 p.2.1 p.2.2 else .fin false 1 0
  (at_ o.a (o.atA i k d2)).mul (at_ o.b (o.atB k j d2))

/-- The long accumulator of one output element over the bench's slice of K, with its preload (R192–R196, R202). -/
def MatOps.long (mem : Memory) (o : MatOps) (n : Node) (codes : Nat → Nat) (i j d2 : Nat) (pre : Option Val) : Acc :=
  let int := isInt o.a.t.type
  let pi := promotion n int
  let ks := ((List.range (o.hi - o.lo)).map (o.lo + ·)).filter fun k => !o.skips mem i k d2
  let runsOf (tag : Nat) (ks : List Nat) : List (List Val) :=
    chunks pi (permute (sub codes (pair 1 tag)) (ks.map fun k => o.product mem i j k d2))
  if int then
    promoteI (sub codes 0) ((runsOf 0 ks).map fun r => (r.map fun v => match v with
      | .int x => x
      | _ => 0).sum) (pre.map fun v => match v with
      | .int x => x
      | _ => 0)
  else if o.a.t.isMx then
    let blocks := (List.range (ceilDiv o.hi 32)).filter fun b => ks.any fun k => k / 32 == b
    promoteF (sub codes 0) (blocks.flatMap fun b =>
      (runsOf b (ks.filter fun k => k / 32 == b)).map fun r =>
        let s := runF (r.map Val.num)
        { s with v := s.v.mul (o.scale mem i j (b * 32) d2) }) (pre.map Val.num)
  else promoteF (sub codes 0) ((runsOf 0 ks).map fun r => runF (r.map Val.num)) (pre.map Val.num)

/-- The epilogue of a long value (R203). -/
def epilogue (n : Node) (v : Val) (e : Option Val) : Elem :=
  match e with
  | none => { v := v }
  | some e =>
    let r := if n.par 6 2 = 1 then v.addV e else v.mulV e
    let c := r.toType (match v with
      | .int _ => 0x13
      | .flt _ => 0x01) .even
    { v := c.1, sat := c.2.1 }

/-- Multiply-adds per cell per cycle of a type (R33). -/
def rateOf (t : Nat) : Nat :=
  match t with
  | 0x02 | 0x03 => 1
  | 0x0A => 4
  | _ => 2

/-- The running sums of one output element, bench by bench along the chain: each adds the sum it receives to its own, in a free place
among its additions (R200, R211). -/
def runningSums (mem : Memory) (n : Node) (ops : List MatOps) (codes : Nat → Nat) (i j d2 : Nat) (pre : Option Val) : List Acc :=
  ops.zipIdx.foldl (fun (acc : List Acc) (o, b) =>
    let before := acc.getLast?
    let own := o.long mem n (sub codes b) i j d2 (match before with
      | some r => some r.v
      | none => pre)
    acc ++ [{ own with sat := own.sat || (before.map (·.sat)).getD false }]) []

/-- One output element: the long value of each bench, the element before its final conversion with its flags (R198, R203, R204), and
whether the composition saturated it (R251, R252). -/
structure OutElem where
  longs : List Acc
  e     : Elem
  vcSat : Bool
  deriving DecidableEq, Repr, Inhabited

/-- What a MATMUL firing computes over. -/
structure MatRun where
  n     : Node
  ops   : List MatOps
  pre   : Option Placed
  epi   : Option Placed
  bank  : Option Nat
  stages : List VStage
  mdim  : Nat
  ndim  : Nat

/-- The preload of a cell (R202): a bank's word under ACC; zero beyond the edge of a preload tensor. -/
def MatRun.preload (mem : Memory) (r : MatRun) (int : Bool) (tile i j d2 : Nat) : Option Val :=
  let zero : Val := if int then .int 0 else .flt Num.zero
  match r.n.par 4 2 with
  | 1 => r.pre.map fun p => if j < r.ndim then p.elem mem j 0 (batch p.t d2) else zero
  | 2 => r.pre.map fun p => if i < r.mdim ∧ j < r.ndim then p.elem mem j i (batch p.t d2) else zero
  | 3 => r.bank.map fun base =>
      decodeElem (if int then 0x13 else 0x01) (mem.num (base + tile % 4 * 0x1000 + (i % 32 * 32 + j % 32) * 4) 4)
  | _ => none

/-- The output tile that holds an element, in the order of R187. -/
def MatRun.tile (r : MatRun) (i j d2 : Nat) : Nat := j / 32 + ceilDiv r.ndim 32 * (i / 32 + ceilDiv r.mdim 32 * d2)

def MatRun.elem (mem : Memory) (r : MatRun) (choice draw : Nat → Nat) (i j d2 : Nat) : OutElem :=
  let q := pair i (pair j d2)
  let int := ((r.ops.head?).map fun o => isInt o.a.t.type).getD false
  let longs := runningSums mem r.n r.ops (sub choice (pair 0 q)) i j d2 (r.preload mem int (r.tile i j d2) i j d2)
  let last := longs.getLast?.getD { v := if int then .int 0 else .flt Num.zero }
  let e := epilogue r.n last.v (r.epi.map fun p => p.elem mem j (if p.t.dim1 = 1 then 0 else i) (batch p.t d2))
  let s := runChain (plainEnv (sub choice (pair 1 q)) fun x => draw (pair 1 (pair x q))) r.stages
    { ty := if int then 0x13 else 0x01, v := e.v }
  { longs := longs, e := { v := s.v, sat := s.sat || e.sat || last.sat, nan := s.nan }, vcSat := s.sat }

/-! ### The firing -/

/-- An element as it is written: its code, what it adds to the tile flags (R198, R199, R251), and whether it counts as a saturated
element (R251, R252, R265). -/
structure FinalElem where
  code  : Nat
  sat   : Bool
  nan   : Bool
  satEl : Bool
  deriving DecidableEq, Repr, Inhabited

/-- The final conversion of an element (R198, R205). An ∞ that comes from an input becomes the largest E4M3 value without a tile flag
(R198) and counts as saturated (R265). -/
def finalElem (t : Nat) (rnd : Rnd) (x : OutElem) : FinalElem :=
  let rnd := if t = 0x01 ∨ t = 0x13 then .even else rnd
  let c := x.e.v.toCode t rnd
  let inf : Bool := match x.e.v with
    | .flt (.inf _) => true
    | _ => false
  { code := c.1, sat := x.e.sat || (c.2.1 && !inf), nan := x.e.nan || c.2.2, satEl := x.vcSat || c.2.1 }

/-- Operand tiles of a bench that lost an element, with how many (R226). -/
structure Drops where
  o : MatOps
  a : List (Nat × Nat)
  b : List (Nat × Nat)

def MatOps.drops (mem : Memory) (o : MatOps) (mdim depth : Nat) : Drops :=
  { o := o, a := o.a.dropTiles mem o.readsA, b := o.b.dropTiles mem (o.readsB mem mdim depth) }

/-- An output tile reads a dropped operand tile (R199, R226); one of B only where A's tile against it is not skipped (R234). -/
def Drops.feeds (mem : Memory) (d : Drops) (mb nb d2 : Nat) : Bool :=
  (d.a.any fun (i, _) =>
    let p := d.o.a.t.tileAt i
    d.o.rowOfA p / 32 == mb && p.2.2 == batch d.o.a.t d2) ||
  (d.b.any fun (i, _) =>
    let p := d.o.b.t.tileAt i
    d.o.colOfB p / 32 == nb && p.2.2 == batch d.o.b.t d2 && !d.o.skips mem (mb * 32) (d.o.kOfB p) d2)

/-- Multiply-adds per cell per cycle of a firing (R33, R183), doubled by a pair-of-four operand (R190). -/
def MatOps.rate (o : MatOps) : Nat :=
  min (rateOf o.a.t.type) (rateOf o.b.t.type) * (if o.a.t.layout = 2 ∨ o.b.t.layout = 2 then 2 else 1)

/-- Array steps of a bench (R187, R189, R234): one pass over the bench's slice of K for each output tile, less the steps of its skipped
tiles of A. In vector mode a pass serves up to 32 tiles side by side, and saves the steps of a K position that all of them skip (log
entry 168, DEDUCED). -/
def MatOps.steps (mem : Memory) (o : MatOps) (mdim ndim depth : Nat) : Nat :=
  let q := o.rate
  let rows := List.range (ceilDiv mdim 32)
  let groups := if ndim = 1 then chunks 32 rows else rows.map fun r => [r]
  let across := if mdim = 1 then ceilDiv (ceilDiv ndim 32) 32 else ceilDiv ndim 32
  let blocks := ((List.range (ceilDiv (o.hi - o.lo) 32)).map fun b => o.lo + 32 * b)
  ((List.range depth).map fun d2 => (groups.map fun g =>
    let skipped := blocks.countP fun k => g.all fun mb => o.skips mem (mb * 32) k d2
    across * (ceilDiv (o.hi - o.lo) q - skipped * ceilDiv 32 q)).sum).sum

/-- The most stalls on a full finished-tile queue (R278): none where the array takes at least 16 cycles for a tile and nothing is
composed, and none for the first four tiles, which the banks hold (log entry 185, DEDUCED). -/
def MatOps.maxStalls (o : MatOps) (vc : Bool) (tiles : Nat) : Nat :=
  if 16 ≤ ceilDiv (o.hi - o.lo) o.rate ∧ !vc then 0 else tiles - 4

/-- A free word of the short area (R12, R192): 20 bits, a NaN canonical. -/
def shortWord (int : Bool) (x : Nat) : Nat :=
  let c := x % 2 ^ 20
  if !int && (fp20.decode c).isNan then fp20.nanCode else c

/-- The banks after a firing: the long values of each tile, edge cells included, and short accumulators zero, with at most four tiles;
not specified otherwise (R187, R209). -/
def Module.leaveBanks (m : Module) (benches : List Nat) (tiles : List (Nat × List (Nat × Nat × List (BitVec 32)))) (known int : Bool) :
    Module :=
  if known then
    tiles.foldl (fun m (t, cells) =>
      cells.foldl (fun m (i, j, words) =>
        (benches.zip words).foldl (fun m (b, w) =>
          let off := t % 4 * 0x1000 + (i % 32 * 32 + j % 32) * 4
          (m.store (tileBase b + 0x5F8000 + off) (leBytes 4 w.toNat)).store (tileBase b + 0x5FC000 + off) [0, 0, 0, 0]) m) m) m
  else benches.foldl (fun m b =>
    let s := (m.unspecified (tileBase b + 0x5F8000) 0x4000).draw
    { s.2 with mem := s.2.mem.writeN (tileBase b + 0x5FC000) ((List.range 4096).flatMap fun i => leBytes 4 (shortWord int (s.1 i))) }) m

/-- The 32-bit word of a long accumulator (R207). -/
def Acc.word (a : Acc) : BitVec 32 :=
  match a.v with
  | .int x => BitVec.ofInt 32 x
  | .flt x => f32Code x

/-- Place a tensor of a port on a given bench. -/
def Module.placeOn (m : Module) (f : Firing) (b p : Nat) : Except Stop Placed :=
  match f.tensor p with
  | some t => m.place f b p t t.extent permRead
  | none => .error .addr

/-- The end of a MATMUL firing with its tile flags in BCH_MXSTAT (R216). -/
def Module.mxDone (m : Module) (f : Firing) (benches : List Nat) (flags st : Nat) : Module :=
  (benches.foldl (fun m b => m.setFld (bchR b 0x010) 12 8 flags) m).finish f st

/-- The work of a MATMUL firing (R179–R211). -/
def Module.matmulWork (m : Module) (f : Firing) : Except Stop Module := do
  let d := m.draft f.ptn
  let n := f.n
  let benches := if f.e.benches.isEmpty then [f.bench] else f.e.benches
  let first := benches.headD 0
  let last := benches.getLastD 0
  if !((matmulRules (f.env d)).all (·.1)) then
    return (m.count (bchR first 0x028) 32 32).finish f stFaultAddress
  let kdim : Nat := (dimsA n ((f.tensor 0).getD default)).2
  let ops ← (benches.zip (slices kdim benches.length)).mapM fun (b, s) => do
    let a ← m.placeOn f b 0
    let bb ← m.placeOn f b 1
    return ({ a := a, b := bb, t0 := n.par 1 1 == 1, t1 := n.par 0 1 == 1, lo := s.1, hi := s.2 } : MatOps)
  let pre ← (match prePort n with
    | some p => (m.placeOn f first p).map some
    | none => .ok none)
  let epi ← (match epiPort n with
    | some p => (m.placeOn f last p).map some
    | none => .ok none)
  let rt := (f.res 0).getD default
  let r ← m.place f last 8 rt rt.extent permWrite
  let fl ← (match f.res 1 with
    | some t => (m.place f last 9 t t.extent permWrite).map some
    | none => .ok none)
  let o := ops.headD default
  let mdim : Nat := (dimsA n o.a.t).1
  let ndim := (dimsB n o.b.t).2
  let depth := rt.dim2
  let vc := n.par 10 1 == 1
  let bad (x : Nat × MatOps) : Bool :=
    x.2.a.patternBad m.mem false x.2.readsA || x.2.b.patternBad m.mem true (x.2.readsB m.mem mdim depth)
  if let some x := (benches.zip ops).find? bad then
    return ((m.count (bchR x.1 0x110) 0 32).spoil r).finish f stFaultPattern
  let free := m.draw
  let run : MatRun := { n := n, ops := ops, pre := pre, epi := epi
                        bank := some (tileBase first + 0x5F8000), stages := (matmulStages d n).getD [], mdim := mdim, ndim := ndim }
  let draw := fun i => m.draws last i
  let out (i j d2 : Nat) : OutElem := run.elem m.mem free.1 draw i j d2
  let alt := decide ((rt.dim1, rt.dim0) ≠ (mdim, ndim))
  let rnd (i j d2 : Nat) : Rnd := rndOf (n.par 8 2) draw (pair 0 (pair i (pair j d2)))
  let final (i j d2 : Nat) : FinalElem := finalElem rt.type (rnd i j d2) (out i j d2)
  let cs : Coded := rt.positions.map fun q =>
    (q, some (if rt.inside q then (if alt then final q.1 0 q.2.2 else final q.2.1 q.1 q.2.2).code else 0))
  let w := writeCoded m.mem r cs
  let drops : List Drops := ops.map fun o => o.drops m.mem mdim depth
  let tiles : List (Nat × Nat × Nat) := (List.range depth).flatMap fun d2 => (List.range (ceilDiv mdim 32)).flatMap fun mb =>
    (List.range (ceilDiv ndim 32)).map fun nb => (mb, nb, d2)
  let cells (t : Nat × Nat × Nat) : List (Nat × Nat) :=
    (List.range 32).flatMap fun i => (List.range 32).map fun j => (t.1 * 32 + i, t.2.1 * 32 + j)
  let elems (t : Nat × Nat × Nat) : List FinalElem :=
    ((cells t).filter fun c => decide (c.1 < mdim ∧ c.2 < ndim)).map fun c => final c.1 c.2 t.2.2
  let es : List FinalElem := tiles.flatMap elems
  let fs : List TileFlags := tiles.map fun t =>
    { sat := (elems t).any (·.sat), nan := (elems t).any (·.nan), pdrop := drops.any fun d => d.feeds m.mem t.1 t.2.1 t.2.2 }
  let all := fs.foldl TileFlags.or {}
  let m1 : Module := ({ free.2 with mem := w.1 } : Module).wrote f 8 r (rt.spans 0)
  let m1 : Module := match fl with
    | some p =>
      ({ m1 with mem := (tiles.zip fs).foldl (fun (mm : Memory) y =>
          mm.write (p.key + p.t.elemBit y.1.2.1 y.1.1 y.1.2.2 / 8) (BitVec.ofNat 8 y.2.byte)) m1.mem } : Module).wrote f 9 p (p.t.spans 0)
    | none => m1
  let m1 := m1.leaveBanks benches
    (tiles.zipIdx.map fun (t, i) => (i, ((cells t).map fun (c : Nat × Nat) => (c.1, c.2, (out c.1 c.2 t.2.2).longs.map Acc.word))))
    (decide (tiles.length ≤ 4)) (isInt o.a.t.type)
  let m1 := (m1.count (bchR last 0x020) 0 32 tiles.length).count (bchR last 0x020) 32 32 (fs.countP (·.sat))
  let m1 := m1.count (bchR last 0x028) 0 32 (fs.countP (·.nan))
  let m1 := (benches.zip drops).foldl (fun (x : Module) (b, d) =>
    let dropped := d.a ++ d.b
    let x := x.count (bchR b 0x018) 0 64 (d.o.steps m.mem mdim ndim depth)
    let x := (x.count (bchR b 0x108) 0 32 dropped.length).count (bchR b 0x108) 32 32 (dropped.map (·.2)).sum
    x.count (bchR b 0x118) 0 32 (if d.o.a.t.layout = 3 then
      (List.range d.o.a.t.tiles).countP fun i => d.o.readsA (d.o.a.t.tileAt i) && d.o.a.zbMap m.mem i else 0)) m1
  let m1 := (m1.count (bchR last 0x120) 0 32 w.2.cmpDrop).count (bchR last 0x120) 32 32 w.2.zTiles
  let m1 := if vc then (m1.count (bchR last 0x150) 0 64 es.length).count (bchR last 0x158) 32 32 (es.countP (·.nan)) else m1
  let m1 := m1.count (bchR last 0x158) 0 32 (es.countP (·.satEl))
  let full := m1.draw
  let m1 := full.2.count (bchR last 0x170) 32 32 (full.1 0 % ((ops.getLastD default).maxStalls vc tiles.length + 1))
  return m1.mxDone f benches all.byte (flagIf (all.sat || all.pdrop || es.any (·.satEl)) stOk)

/-- A MATMUL firing: where it stops with a fault, its result bytes are not specified (R206). -/
def Module.matmulAct (m : Module) (f : Firing) : Except Stop Module :=
  match m.matmulWork f with
  | .error (.fault st x lost) =>
    let rt := (f.res 0).getD default
    let m := match m.place f (f.e.benches.getLastD f.bench) 8 rt rt.extent permWrite with
      | .ok r => m.spoil r
      | .error _ => m
    .ok (m.stopFiring f (.fault st x lost))
  | y => y

/-- A chain firing has passed every running sum to its last bench (R211). -/
def Module.sumsPassed (m : Module) (k : FKey) : Bool :=
  match m.chains.find? fun c => c.key == k with
  | some c => (c.got.drop 1).all fun g => decide (c.tiles ≤ g)
  | none => true

def execMatmul (k : FKey) (s : State) : Host.Outcome State Fault Refusal :=
  s.on fun m => if m.sumsPassed k && m.pipePassed k then m.work k 0x20 Module.matmulAct else m

/-! ### Chains (R211–R214) -/

/-- A chain firing takes every bench of its chain at once, once all are free and its turn has come (R79, R213). Benches that hold
themselves free for it count as free. -/
def execChainFiring (k : FKey) (s : State) : Host.Outcome State Fault Refusal :=
  s.on fun m =>
    match m.chainOf k with
    | none => m
    | some (f, bs) =>
      if f.e.state == .ready && bs.all (m.idleFor [k]) && !m.barred f.e && m.teamMay k f.e.ptn f.e.chainHold bs then
        let tiles := ((f.res 0).map (·.tiles)).getD 0
        let m := bs.foldl (fun m b => m.setBench b fun x => { x with busy := some k }) ((m.teamTurns f.e.ptn bs).unhold [k])
        let m : Module := { m with chains := m.chains ++ [({ key := k, benches := bs, tiles := tiles, got := bs.map fun _ => 0 } : ChainSt)] }
        m.start f bs bs
      else m

/-- A running-sum tile reaches position `pos` of the chain and is added (R211, R212): counted where it is sent and where
it is received. A bench sends the sum of a tile only after it has its own. No sum passes while the firing is halted or held (R214). -/
def execChainSumArrive (k : FKey) (pos tile : Nat) (s : State) : Host.Outcome State Fault Refusal :=
  s.on fun m =>
    match (m.running k 0x20).bind fun _ => m.chains.find? fun c => c.key == k with
    | none => m
    | some c =>
      let got := c.got.getD pos 0
      if 1 ≤ pos ∧ pos < c.benches.length ∧ tile = got ∧ got < c.tiles ∧ (pos = 1 ∨ got < c.got.getD (pos - 1) 0) then
        let m : Module := { m with chains := updWhere (fun x => x.key == k) (fun x => { x with got := x.got.set pos (got + 1) }) m.chains }
        (m.count (bchR (c.benches.getD pos 0) 0x030) 0 32).count (bchR (c.benches.getD (pos - 1) 0) 0x030) 32 32
      else m

end Sys2Proof.Machine
end

