-- ==== Sys2Proof/Machine/Sparse.lean ====
section
/-! DEFINITION. CSR and CSC operands (R237, R238), the SPMM_CSR node (R239–R242) and hub splitting (R243, R244, R297). -/
namespace Sys2Proof.Machine

/-! ### CSR and CSC tensors -/

/-- A CSR or CSC tensor with its three arrays in place (R237). -/
structure Csr where
  t      : Tensor
  idx    : Nat
  offs   : Nat
  vals   : Option Nat
  deriving DecidableEq, Repr, Inhabited

/-- Offset `i` of the offsets array. -/
def Csr.off (mem : Memory) (c : Csr) (i : Nat) : Nat := mem.num (c.offs + 8 * i) 8

/-- The offsets array passes R129 with its own last offset as the entry count (R238). -/
def Csr.offsOk (mem : Memory) (c : Csr) : Bool :=
  c.off mem 0 == 0 && (List.range c.t.dim1).all fun i =>
    decide (signedOf 64 (c.off mem i) ≤ signedOf 64 (c.off mem (i + 1)))

def Csr.entries (mem : Memory) (c : Csr) : Nat := c.off mem c.t.dim1

/-- The index and the value of entry `e`; every value is 1.0 without a values array (R237). -/
def Csr.index (mem : Memory) (c : Csr) (e : Nat) : Int := signedOf 32 (mem.num (c.idx + 4 * e) 4)
def Csr.value (mem : Memory) (c : Csr) (e : Nat) : Num :=
  match c.vals with
  | none => .fin false 1 0
  | some v => (decodeElem c.t.type (mem.bitsAt v (e * c.t.bits) c.t.bits)).num

/-- Entries of a line, and those in range (R238). -/
def Csr.line (mem : Memory) (c : Csr) (i : Nat) : List Nat :=
  (List.range (c.off mem (i + 1) - c.off mem i)).map (c.off mem i + ·)
def Csr.inRange (mem : Memory) (c : Csr) (e : Nat) : Bool :=
  decide (0 ≤ c.index mem e) && decide (c.index mem e < c.t.dim0)

/-- The rules of a CSR or CSC descriptor (R237). -/
def Tensor.csrOk (t : Tensor) : Bool :=
  (t.type == 0x01 || t.type == 0x02 || t.type == 0x03) && t.dim2 == 1 && t.aux % 8 == 0 && t.space != 3 &&
    (t.pitch * 8) % t.bits == 0

/-- What reading a CSR tensor's structure gives: in place; its offsets refused (FAULT_OOB); or a stop (R105, R238). -/
inductive CsrRead where
  | ok (c : Csr)
  | bad
  deriving DecidableEq, Repr, Inhabited

/-- Place the offsets, check them, then place the other arrays sized by them (R105, R238). -/
def Module.readCsr (m : Module) (f : Firing) (port : Nat) (t : Tensor) : Except Stop CsrRead := do
  let o ← m.placeAt f port t t.aux (8 * (t.dim1 + 1)) permRead
  let c : Csr := { t := t, idx := 0, offs := o.key, vals := none }
  if !c.offsOk m.mem then return .bad
  let n := c.entries m.mem
  if n = 0 then return .ok c
  let i ← m.placeAt f port t 0 (4 * n) permRead
  if t.pitch = 0 then return .ok { c with idx := i.key }
  let v ← m.placeAt f port t t.pitch (n * t.bits / 8) permRead
  return .ok { c with idx := i.key, vals := some v.key }

/-! ### Rules of SPMM_CSR (R239) -/

def spmmRules (x : RuleEnv) : List Rule :=
  let n := x.n
  let s := x.op 0
  let b := x.op 1
  let dense (t : Tensor) : Bool := t.formOk && t.plain && floatSide.contains t.type
  [x.onNode 0x30 (n.par 4 60 == 0 && decide (n.par 0 2 ≤ 2)), x.onNode 0x04 (n.nports == 2),
   x.onNode 0x18 (x.res 0).isSome, x.onNode 0x1A (n.res.getD 1 0 == 0xFFFF),
   x.onPort 0 0 fun t => t.csrOk && t.layout == 4,
   x.onPort 1 0 fun t => dense t && within t.dim0 1 512 && t.dim2 == 1,
   x.onPort 1 8 fun t => both s (some t) fun s t => t.dim1 == s.dim0,
   x.onRes 0 0 dense,
   x.onRes 0 4 fun t => within t.dim0 1 512 && both b (some t) fun b t => t.dim0 == b.dim0,
   x.onRes 0 8 fun t => t.dim2 == 1 && both s (some t) fun s t => t.dim1 == s.dim1]

/-! ### Hub segments (R243, R244) -/

/-- The hub threshold of a bench (R245). -/
def Module.hubThr (m : Module) (b : Nat) : Nat := m.fld (bchR b 0x100) 4 20

/-- Lines longer than the threshold, with their entry counts. -/
def Csr.hubs (mem : Memory) (c : Csr) (thr : Nat) : List (Nat × Nat) :=
  ((List.range c.t.dim1).map fun i => (i, c.off mem (i + 1) - c.off mem i)).filter fun x => decide (thr < x.2)

/-- Segments of 8,192 entries of a hub row: first entry and count. -/
def segmentsOf (first n : Nat) : List (Nat × Nat) :=
  (List.range (ceilDiv n 8192)).map fun i => (first + i * 8192, min 8192 (n - i * 8192))

/-- Post segments of the open hub row, at most 64 outstanding for a row, and `room` more in the hall's hub queue of the set. -/
def Module.postSegments (m : Module) (f : Firing) (row : Nat) (segs : List (Nat × Nat)) (blocks room : Nat) : Module :=
  let h := f.e.hall
  let mine := (m.hall h).hubq.countP fun s => s.owner == f.key && s.row == row
  let done := ((m.hubs.find? fun x => x.key == f.key).map fun x => x.merged.countP fun y => y.1 == row).getD 0
  let all := segs.flatMap fun s => (List.range blocks).map fun b => (s, b)
  let fresh := (all.zipIdx.drop (mine + done)).take (min (64 - mine) room)
  let m := m.setHall h fun x => { x with hubq := x.hubq ++ fresh.map fun ((s, block), i) =>
    { owner := f.key, ptn := f.ptn, set := f.n.bset, prio := f.n.prio, row := row, seg := i, block := block
      first := s.1, count := s.2, age := m.stamp } }
  { m with stamp := m.stamp + 1 }

/-- The hub row that is open: the first whose segments are not all merged. -/
def HubSt.open_ (h : HubSt) : Option (Nat × Nat × Nat) :=
  h.rows.find? fun r => decide (h.merged.countP (fun x => x.1 == r.1) < ceilDiv r.2.2 8192 * h.blocks)

/-- Room in the hub queue of a firing's bench set, which holds 256 descriptors (R243). -/
def Module.hubRoom (m : Module) (f : Firing) : Nat :=
  256 - (m.hall f.e.hall).hubq.countP fun s => s.ptn == f.ptn && s.set == f.n.bset && s.bench.isNone

/-- The owner opens its next hub row, or posts more segments of the open one. -/
def Module.feedHub (m : Module) (f : Firing) (room : Nat) : Module :=
  match m.hubs.find? fun x => x.key == f.key with
  | none => m
  | some h =>
    match h.open_ with
    | none => m
    | some (row, first, n) => m.postSegments f row (segmentsOf first n) h.blocks room

/-- Room in the hub queues has come up: every owner of a hall posts what it may. -/
def Module.feedHubs (m : Module) (h : Nat) : Module :=
  m.hubs.foldl (fun (m : Module) x => match m.firing x.key with
    | some f => if f.e.hall = h then m.feedHub f (m.hubRoom f) else m
    | none => m) m

/-- A hub row's first segments are posted. -/
def Module.openHub (m : Module) (f : Firing) (st : HubSt) : Module :=
  let m : Module := { m with hubs := m.hubs ++ [st] }
  m.feedHub f (m.hubRoom f)

/-- A bench runs a segment: `act` gives the segment's partial and its effect (R243). -/
def Module.runSegment (m : Module) (b : Nat) (s : HubSegment)
    (act : Module → Firing → HubSegment → List HubVal × Module) : Module :=
  match m.firing s.owner with
  | none => m
  | some f =>
    let x := act m f s
    let taken (l : List HubSegment) : List HubSegment :=
      updWhere (fun y => y.owner == s.owner && y.row == s.row && y.seg == s.seg)
        (fun y => { y with bench := some b, partials := x.1 }) l
    let m := x.2.setHall (b / 64) fun x => { x with hubq := taken x.hubq }
    let m := if (m.bench b).busy.isNone then m.setBench b fun x => { x with busy := some s.owner } else m
    ((m.count (bchR b 0x130) 32 32).spend).feedHubs (b / 64)

/-- The segment that the owner of a hub row runs itself, after its lanes: its first one in the hub queue, or, where the queue has no
room for it, its next one (R244). -/
def Module.ownSegment (m : Module) (f : Firing) : Option HubSegment × Module :=
  let next (m : Module) : Option HubSegment := (m.hall f.e.hall).hubq.find? fun s => s.owner == f.key && s.bench.isNone
  match next m with
  | some s => (some s, m)
  | none => let m' := m.feedHub f 1; (next m', m')

/-- A free bench takes a segment in its turn, by steps 3 and 4 of R62 (R243); an owner whose segments are out runs one itself
(R244). -/
def Module.takeSegment (m : Module) (b : Nat) (act : Module → Firing → HubSegment → List HubVal × Module) : Module :=
  let h := b / 64
  match (m.bench b).busy.bind m.firing with
  | some f =>
    if f.e.bench == some b && !((m.hall h).hubq.any fun s => s.bench == some b) then
      match m.ownSegment f with
      | (some s, m) => m.runSegment b s act
      | (none, _) => m
    else m
  | none =>
    if !m.benchIdle b then m
    else match m.best h b with
      | some { kind := .segment row seg, key := k, ptn := p, .. } =>
        match (m.hall h).hubq.find? fun s => s.owner == k && s.row == row && s.seg == seg with
        | some s => (m.useTurn h b p (m.jobPtns h b)).runSegment b s act
        | none => m
      | _ => m

/-- A segment's partial reaches the owner's landing buffer and is merged; the segment's bench is free (R244). -/
def Module.mergeSegment (m : Module) (k : FKey) (row seg : Nat) : Module :=
  match m.firing k, m.hubs.find? fun x => x.key == k with
  | some f, some _ =>
    match (m.hall f.e.hall).hubq.find? fun s => s.owner == k && s.row == row && s.seg == seg && s.bench.isSome with
    | none => m
    | some s =>
      let b := s.bench.getD 0
      let m := m.setHall f.e.hall fun x => { x with hubq := x.hubq.filter fun y => !(y.owner == k && y.row == row && y.seg == seg) }
      let m := if f.e.bench != some b then m.setBench b fun x => { x with busy := none } else m
      let merge (x : HubSt) : HubSt := { x with merged := x.merged ++ [(row, seg, s.partials)] }
      let m : Module := { m with hubs := updWhere (fun x => x.key == k) merge m.hubs }
      m.feedHubs f.e.hall
  | _, _ => m

/-! ### The SPMM_CSR firing (R240, R241) -/

/-- The fp32 products of a list of entries in one column (R240). -/
def spmmTerms (mem : Memory) (c : Csr) (b : Placed) (es : List Nat) (j : Nat) : List Res :=
  (es.filter (c.inRange mem)).map fun e => fp32.mul (c.value mem e) (b.elem mem j (c.index mem e).toNat 0).num

/-- A column sum over entries. -/
def spmmSum (codes : Nat → Nat) (terms : List Res) : Elem :=
  let r := sumFree codes Num.zero (terms.map (·.v))
  { v := .flt r.v, sat := r.sat || terms.any (·.sat) }

/-- A sum of fp32 partials (R243, R244). -/
def partSum (codes : Nat → Nat) (parts : List Elem) : Elem :=
  let r := sumFree codes Num.zero (parts.map (·.v.num))
  { v := .flt r.v, sat := r.sat || parts.any (·.sat), nan := parts.any (·.nan) }

/-- The entries of a segment by lane, 128 each (R243). -/
def laneEntries (s : HubSegment) : List (List Nat) :=
  (List.range (ceilDiv s.count 128)).map fun l => (List.range (min 128 (s.count - 128 * l))).map fun e => s.first + 128 * l + e

/-- A value of a partial: an fp32 code or an integer. -/
def Elem.hub (e : Elem) : HubVal :=
  { val := match e.v with
      | .int n => n
      | .flt x => ((f32Code x).toNat : Int)
    sat := e.sat, nan := e.nan }

def HubVal.elem (int : Bool) (h : HubVal) : Elem :=
  { v := if int then .int h.val else .flt (f32Of (BitVec.ofInt 32 h.val)), sat := h.sat, nan := h.nan }

/-- The operands of an SPMM_CSR firing. -/
def Module.spmmOps (m : Module) (f : Firing) : Except Stop (CsrRead × Placed × Placed) := do
  let c ← m.readCsr f 0 ((f.tensor 0).getD default)
  let b ← m.placePort f 1
  let r ← m.placeRes f 0
  return (c, b, r)

/-- A refused offsets array, or an out-of-range index under OOBX: FAULT_OOB, counted once, nothing written (R238). -/
def Module.csrRefused (m : Module) (f : Firing) : Module := (m.count (bchR f.bench 0x110) 32 32).finish f stFaultOob

/-- The N fp32 sums of one segment of a hub row: each lane's entries, then the lane partials (R243). -/
def Module.spmmPartial (m : Module) (f : Firing) (s : HubSegment) : List HubVal :=
  match m.spmmOps f with
  | .ok (.ok c, b, _) =>
    let codes := sub (Config.choice m.free) 7
    (List.range b.t.dim0).map fun j =>
      let code := sub codes j
      (partSum (sub code 64) ((laneEntries s).zipIdx.map fun (es, l) => spmmSum (sub code l) (spmmTerms m.mem c b es j))).hub
  | _ => []

/-! ### Lanes (R241, R242) -/

/-- A lane of the bench: when it is through with its rows so far, the rows of its block that it has not started, and whether it has
found nothing to steal. -/
structure Lane where
  at_  : Nat
  rest : List Nat
  idle : Bool := false
  deriving DecidableEq, Repr, Inhabited

/-- The lane that lane `l` steals from: the next one around the bench with two rows not yet started. -/
def victim (lanes : List Lane) (l : Nat) : Option Nat :=
  ((List.range 63).map fun j => (l + 1 + j) % 64).find? fun v => decide (2 ≤ (lanes.getD v default).rest.length)

/-- The lanes go on, one start, theft or idling at a time, the earliest lane first and a free one among those at the same time; `dur`
is how long a row takes. The number of thefts. -/
def thefts (dur : Nat → Nat) (codes : Nat → Nat) : Nat → List Lane → Nat
  | 0, _ => 0
  | fuel + 1, lanes =>
    let on := lanes.zipIdx.filter fun x => !x.1.idle
    let first := on.foldl (fun (t : Option Nat) x => some (min x.1.at_ (t.getD x.1.at_))) none
    let ties := on.filter fun x => some x.1.at_ == first
    match ties[codes fuel % max 1 ties.length]? with
    | none => 0
    | some (x, l) =>
      match x.rest, victim lanes l with
      | r :: rs, _ => thefts dur codes fuel (lanes.set l { x with at_ := x.at_ + dur r, rest := rs })
      | [], none => thefts dur codes fuel (lanes.set l { x with idle := true })
      | [], some v =>
        let y := lanes.getD v default
        let keep := y.rest.length - y.rest.length / 2
        1 + thefts dur codes fuel ((lanes.set v { y with rest := y.rest.take keep }).set l { x with rest := y.rest.drop keep })

/-- The thefts of a firing (R241): the rows that are no hub rows in 64 blocks of ⌈M ÷ 64⌉; a row of n entries takes n × N cycles with B
in the tile (R242), and a free time more where B is not resident. -/
def spmmThefts (rows : List Nat) (m n : Nat) (entries : Nat → Nat) (resident : Bool) (codes : Nat → Nat) : Nat :=
  let w := max 1 (ceilDiv m 64)
  let lanes : List Lane := (List.range 64).map fun l => { at_ := 0, rest := (rows.drop (l * w)).take w }
  thefts (fun r => entries r * n + (if resident then 0 else codes (pair 1 r))) (fun i => codes (pair 0 i)) (2 * rows.length + 64) lanes

/-- The work of an SPMM_CSR firing: at first its hub rows go to the hub queue; once all their segments are merged, the
result is written. -/
def Module.spmmWork (m : Module) (f : Firing) : Except Stop Module := do
  if !((spmmRules (f.env (m.draft f.ptn))).all (·.1)) then
    return (m.count (bchR f.bench 0x028) 32 32).finish f stFaultAddress
  let (cr, b, r) ← m.spmmOps f
  match cr with
  | .bad => return m.csrRefused f
  | .ok c =>
    let n := f.n
    let all := List.range (c.entries m.mem)
    let oob := all.countP fun e => !c.inRange m.mem e
    if c.t.oobx && decide (0 < oob) then return m.csrRefused f
    let hubs := if n.par 3 1 = 1 then [] else c.hubs m.mem (m.hubThr f.bench)
    match m.hubs.find? fun x => x.key == f.key with
    | none =>
      if !hubs.isEmpty then
        let st : HubSt := { key := f.key, bench := f.bench, rows := hubs.map fun (i, k) => (i, c.off m.mem i, k) }
        return (m.count (bchR f.bench 0x130) 0 32 hubs.length).openHub f st
      else return finishSpmm m f c b r [] oob
    | some st =>
      if st.open_.isSome then return m
      else return finishSpmm m f c b r st.merged oob
where
  finishSpmm (m : Module) (f : Firing) (c : Csr) (b r : Placed) (merged : List (Nat × Nat × List HubVal)) (oob : Nat) :
      Module :=
    let free := m.draw
    let hub (i : Nat) : Bool := merged.any fun x => x.1 == i
    let out (d0 d1 _d2 : Nat) : Option Elem :=
      let codes := sub free.1 (pair 0 (pair d0 d1))
      some (if hub d1 then
        partSum codes ((merged.filter fun x => x.1 == d1).map fun x => ((x.2.2[d0]?).getD default).elem false)
      else spmmSum codes (spmmTerms m.mem c b (c.line m.mem d1) d0))
    let rnd := rndOf (f.n.par 0 2) fun i => m.draws f.bench (pair 0 i)
    let w := writeResult m.mem r rnd out
    let steal := f.n.par 2 1 == 0 && m.fld (bchR f.bench 0x100) 1 1 == 1
    let m1 := (free.2.count (bchR f.bench 0x110) 32 32 oob).count (bchR f.bench 0x138) 0 32
      (if steal then spmmThefts ((List.range c.t.dim1).filter fun i => !hub i) c.t.dim1 b.t.dim0
        (fun i => (c.line m.mem i).length) (b.t.space == 1) (sub free.1 (pair 1 0)) else 0)
    let m2 := (({ m1 with mem := w.1 } : Module).wrote f 8 r (r.t.spans 0)).spend
    m2.finish f (flagIf (decide (0 < oob) || decide (0 < w.2.sat)) stOk)

def execSpmmCsr (k : FKey) (s : State) : Host.Outcome State Fault Refusal := s.on fun m => m.work k 0x21 Module.spmmWork

end Sys2Proof.Machine
end

