-- ==== Sys2Proof/Machine/Segment.lean ====
section
/-! DEFINITION. The SEGMENT_REDUCE node (R295–R297). -/
namespace Sys2Proof.Machine

def segmentRules (x : RuleEnv) : List Rule :=
  let n := x.n
  let y := x.res 0
  let xt := x.op 0
  let unif := n.par 6 24
  let int (t : Tensor) : Bool := t.type == 0x13
  [x.onNode 0x30 (n.par 30 34 == 0 && decide (n.par 0 3 ≤ 3 ∧ n.par 3 2 ≤ 2) && (n.nports != 2 || unif == 0)),
   x.onNode 0x04 (within n.nports 1 2), x.onNode 0x18 y.isSome, x.onNode 0x1A (n.res.getD 1 0 == 0xFFFF),
   x.onPort 0 0 fun t => t.formOk && t.plain && (floatSide.contains t.type || int t) && t.dim2 == 1 &&
     !(int t && n.par 0 3 == 1),
   x.onPort 0 8 fun t => n.nports == 2 || both (some t) y fun t y => unif != 0 && t.dim1 == y.dim1 * unif,
   x.onRes 0 0 fun t => t.formOk && t.plain && t.dim2 == 1 && both xt (some t) fun s t =>
     if int s then t.type == 0x13 || t.type == 0x14 else floatSide.contains t.type,
   x.onRes 0 4 fun t => both xt (some t) fun s t => s.dim0 == t.dim0] ++
  (if n.nports = 2 then
    [x.onPort 1 0 fun t => (t.csrOk && (t.layout == 4 || t.layout == 5)) || (t.type == 0x14 && t.layout == 0 && t.space != 3),
     x.onPort 1 4 fun t => if t.layout = 0 then both (some t) y fun t y => t.dim0 == y.dim1 + 1
       else both (some t) xt fun t s => t.dim0 == s.dim1,
     x.onPort 1 8 fun t => t.layout == 0 || both (some t) y fun t y => t.dim1 == y.dim1]
   else [])

/-- How the segments of a firing are given. -/
inductive SegSrc where
  | unif (l : Nat)
  | runs (offs : List Nat)
  | csr (c : Csr)
  deriving DecidableEq, Repr, Inhabited

/-- The first entry and the entry count of a segment. -/
def SegSrc.span (mem : Memory) (s : SegSrc) (i : Nat) : Nat × Nat :=
  match s with
  | .unif l => (i * l, l)
  | .runs o => (nth o i, nth o (i + 1) - nth o i)
  | .csr c => (c.off mem i, c.off mem (i + 1) - c.off mem i)

/-- The row and weight of an entry; none out of range (R238, R296). -/
def SegSrc.entry (mem : Memory) (s : SegSrc) (e : Nat) : Option (Nat × Num) :=
  match s with
  | .csr c => if c.inRange mem e then some ((c.index mem e).toNat, c.value mem e) else none
  | _ => some (e, .fin false 1 0)

/-- The fp32 or int64 term of an entry for SUM and MEAN (R296). -/
def segTerm (mem : Memory) (x : Placed) (d0 : Nat) (r : Nat × Num) : Elem :=
  match x.elem mem d0 r.1 0 with
  | .int n =>
    let p : Val := .flt ((Num.ofInt n).mul r.2)
    let c := p.toInt 0x14 .even
    { v := .int c.1, sat := c.2.1, nan := c.2.2 }
  | .flt v => (fp32.mul (fp32.round .even v).v r.2).elem

/-- The SUM, MAX or MIN of a list of entries in one feature (R296). -/
def segFold (mem : Memory) (x : Placed) (opr d0 : Nat) (codes : Nat → Nat) (es : List (Nat × Num)) : Elem :=
  let int := isInt x.t.type
  if opr ≤ 1 then
    let ts := es.map (segTerm mem x d0)
    let s := sumLine codes int (ts.map (·.v))
    { s with sat := s.sat || ts.any (·.sat), nan := ts.any (·.nan) }
  else
    { v := ((bestOf (opr == 2) (es.zipIdx.map fun (r, i) => (i, x.elem mem d0 r.1 0))).map (·.2)).getD (emptyBest (opr == 2) x.t.type) }

/-- Merge the partials of a hub segment's lanes or pieces (R243, R297). -/
def segMerge (opr : Nat) (int : Bool) (ty : Nat) (codes : Nat → Nat) (ps : List Elem) : Elem :=
  let e : Elem := if opr ≤ 1 then sumLine codes int (ps.map (·.v))
    else { v := ((bestOf (opr == 2) (ps.zipIdx.map fun (e, i) => (i, e.v))).map (·.2)).getD (emptyBest (opr == 2) ty) }
  { e with sat := e.sat || ps.any (·.sat), nan := e.nan || ps.any (·.nan) }

/-- The operands of a SEGMENT_REDUCE firing; none where the offsets fail (R129, R238). -/
def Module.segmentOps (m : Module) (f : Firing) : Except Stop (Option SegSrc × Placed × Placed × Bool) := do
  f.checked (m.draft f.ptn) segmentRules
  let x ← m.placePort f 0
  let y ← m.placeRes f 0
  if f.n.nports = 1 then return (some (.unif (f.n.par 6 24)), x, y, false)
  let t := (f.tensor 1).getD default
  if t.layout = 0 then
    let o ← m.placePort f 1
    let offs := (List.range t.dim0).map fun i => m.mem.num (o.key + 8 * i) 8
    let ok := nth offs 0 == 0 && nth offs (t.dim0 - 1) == x.t.dim1 &&
      (List.range (t.dim0 - 1)).all fun i => decide (signedOf 64 (nth offs i) ≤ signedOf 64 (nth offs (i + 1)))
    return (if ok then some (.runs offs) else none, x, y, t.oobx)
  else
    let c ← m.readCsr f 1 t
    return (match c with
      | .ok c => some (.csr c)
      | .bad => none, x, y, t.oobx)

/-- One segment piece of a hub: the partial over its entries in its block of features, each lane's entries first (R243, R297). A lane or
piece without an entry in range brings nothing. -/
def Module.segmentPartial (m : Module) (f : Firing) (s : HubSegment) : List HubVal :=
  match m.segmentOps f with
  | .ok (some src, x, _, _) =>
    let lanes := ((laneEntries s).map fun es => es.filterMap (src.entry m.mem)).filter fun es => !es.isEmpty
    let lo := s.block * 512
    let codes := sub (Config.choice m.free) 7
    let opr := f.n.par 0 3
    (List.range (min 512 (x.t.dim0 - lo))).map fun j =>
      let code := sub codes j
      (segMerge opr (isInt x.t.type) x.t.type (sub code 64)
        (lanes.zipIdx.map fun (es, l) => segFold m.mem x opr (lo + j) (sub code l) es)).hub
  | _ => []

def Module.segmentWork (m : Module) (f : Firing) : Except Stop Module := do
  let (src?, x, y, oobx) ← m.segmentOps f
  match src? with
  | none => return m.csrRefused f
  | some src =>
    let segs := y.t.dim1
    let spans := (List.range segs).map fun s => (s, src.span m.mem s)
    let oob := (spans.map fun s => ((List.range s.2.2).map (s.2.1 + ·)).countP fun e => (src.entry m.mem e).isNone).sum
    if oobx && decide (0 < oob) then return m.csrRefused f
    let thr := m.hubThr f.bench
    let hubs := if f.n.par 5 1 = 1 then [] else spans.filter fun s => decide (thr < s.2.2)
    match m.hubs.find? fun h => h.key == f.key with
    | none =>
      if hubs.isEmpty then return finishSegments m f src x y [] oob
      else
        let st : HubSt := { key := f.key, bench := f.bench, rows := hubs, blocks := ceilDiv x.t.dim0 512 }
        return (m.count (bchR f.bench 0x130) 0 32 hubs.length).openHub f st
    | some st =>
      if st.open_.isSome then return m else return finishSegments m f src x y st.merged oob
where
  finishSegments (m : Module) (f : Firing) (src : SegSrc) (x y : Placed) (merged : List (Nat × Nat × List HubVal)) (oob : Nat) :
      Module :=
    let free := m.draw
    let opr := f.n.par 0 3
    let int := isInt x.t.type
    let blocks := ceilDiv x.t.dim0 512
    let entries (s : Nat) : List (Nat × Num) :=
      let sp := src.span m.mem s
      ((List.range sp.2).map (sp.1 + ·)).filterMap (src.entry m.mem)
    let total (d0 s : Nat) : Elem :=
      let codes := sub free.1 (pair d0 s)
      let ps := merged.filter fun p => p.1 == s && p.2.1 % blocks == d0 / 512
      if ps.isEmpty then segFold m.mem x opr d0 codes (entries s)
      else segMerge opr int x.t.type codes (ps.map fun p => ((p.2.2[d0 % 512]?).getD default).elem int)
    let out (d0 d1 _d2 : Nat) : Option Elem :=
      let e := total d0 d1
      let n := (entries d1).length
      some (if opr = 1 then
        if n = 0 then { v := .flt Num.zero }
        else
          let r := fp32.mul e.v.num (quot (.fin false 1 0) (.fin false n 0)).v
          { v := .flt r.v, sat := e.sat || r.sat }
      else e)
    let w := writeResult m.mem y (rndOf (f.n.par 3 2) fun i => m.draws f.bench (pair 0 i)) out
    let m1 := (free.2.count (bchR f.bench 0x110) 32 32 oob).countWrite f.bench w.2
    let m2 := (({ m1 with mem := w.1 } : Module).wrote f 8 y (y.t.spans 0)).spend
    m2.finish f (flagIf (decide (0 < oob) || decide (0 < w.2.sat)) stOk)

def execSegmentReduce (k : FKey) (s : State) : Host.Outcome State Fault Refusal := s.on fun m => m.work k 0x13 Module.segmentWork

/-- A segment's partial reaches its owner (R244, R297). -/
def execHubPartialArrive (k : FKey) (row seg : Nat) (s : State) : Host.Outcome State Fault Refusal :=
  s.on fun m => m.mergeSegment k row seg

end Sys2Proof.Machine
end

