-- ==== Sys2Proof/Machine/Sample.lean ====
section
/-! DEFINITION. The SAMPLE node over guild graphs and local graphs (R281–R294), remote samples (R398), and the taking of
hub segments of every class (R243, R294, R297). -/
namespace Sys2Proof.Machine

/-! ### The node's fields (R286) -/

def Node.hops (n : Node) : Nat := n.par 0 2
def Node.fan (n : Node) (h : Nat) : Nat := n.par (2 + 8 * (h - 1)) 8
def Node.full (n : Node) : Bool := n.par 2 8 == 0
def Node.wout (n : Node) : Nat := n.par 28 2

/-- Slots of one seed down to hop `h`. -/
def Node.fanTo (n : Node) (h : Nat) : Nat := ((List.range h).map fun i => n.fan (i + 1)).foldl (· * ·) 1

/-- Bags and entries per bag of a result outside full mode (R287). -/
def Node.sampleShape (n : Node) (seeds : Nat) : Nat × Nat :=
  let p := n.fanTo n.hops
  if n.par 27 1 = 1 then (seeds * (p / max 1 (n.fan n.hops)), n.fan n.hops)
  else if n.par 26 1 = 1 then (seeds, ((List.range n.hops).map fun i => n.fanTo (i + 1)).sum)
  else (seeds, p)

/-- R286, R287 and R293 on the PARAM word. -/
def Node.sampleParam (n : Node) : Bool :=
  within n.hops 1 3 && n.par 46 18 == 0 && n.wout != 3 &&
    (if n.full then n.hops == 1 && n.par 26 2 == 0
     else !(n.par 26 2 == 3) && (List.range 3).all fun i => (n.fan (i + 1) != 0) == decide (i < n.hops))

/-- The rules of a SAMPLE node; `gg` says which tables are the OFFS table of a defined graph of the partition. -/
def sampleRules (gg : Nat → Bool) (x : RuleEnv) : List Rule :=
  let n := x.n
  let seeds := x.op 0
  let gt := x.op 1
  let guild (t : Tensor) : Bool := t.space == 3
  let bag (t : Tensor) : Bool := t.bagOk && ((gt.map fun g => !guild g || t.type == 0x14).getD true)
  let shape (f : Nat × Nat → Bool) : Bool := n.full || ((seeds.map fun s => f (n.sampleShape s.dim0)).getD true)
  [x.onNode 0x30 n.sampleParam,
   x.onNode 0x04 (n.nports == 2 || (n.nports == 3 && n.full)),
   x.onNode 0x18 (x.res 0).isSome, x.onNode 0x1A ((x.res 1).isSome == n.full),
   x.onPort 0 0 fun t => (t.type == 0x13 || t.type == 0x14) && t.layout == 0 && t.formOk && t.dim1 == 1 && t.dim2 == 1,
   x.onPort 1 0 fun t => if guild t then gg t.tableId
     else (t.layout == 4 || t.layout == 5) && t.csrOk && (n.hops == 1 || t.dim0 == t.dim1),
   x.onRes 0 0 bag,
   x.onRes 0 4 fun t => shape fun s => t.dim0 == s.1 * s.2,
   x.onRes 0 8 fun t => shape fun s => t.dim1 == s.1,
   x.onRes 0 0x10 fun t => if n.full then t.pitch != 0 else (t.pitch == 0) == (n.wout == 0),
   x.onRes 0 0x14 fun t => if n.full then t.aux != 0 else t.aux == 0] ++
  (if n.full then
    [x.onRes 1 0 fun t => t.bagOk && t.aux == 0 && t.pitch == 0 &&
       both (x.res 0) (some t) fun r t => t.type == r.type && t.dim0 == r.dim1 && t.dim1 == r.dim1] else []) ++
  (if n.nports = 3 then
    [x.onPort 2 0 fun t => t.type == 0x01 && t.layout == 0 && t.formOk,
     x.onPort 2 4 fun t => both seeds (some t) fun s t => t.dim0 == s.dim0] else [])

/-- The guild graph of an OFFS table that is defined in a partition (R282, R286). -/
def Module.ggraph (m : Module) (p offs : Nat) : Option GuildGraph := (m.ptn p).ggraphs.find? fun g => g.offs == offs

/-- A node of a partition may name a table as a guild graph's (R286); not one whose GRAPH_UNDEFINE is under way (R282). -/
def Module.isOffs (m : Module) (p t : Nat) : Bool := (m.ggraph p t).any fun g => g.going.isNone

/-! ### Draws (R288) -/

def insertNat (x : Nat) : List Nat → List Nat
  | [] => [x]
  | y :: t => if x < y then x :: y :: t else y :: insertNat x t

/-- The positions of `F` slots among `d` neighbours: F distinct ones in increasing order, or every one and then draws
with replacement. -/
def positions (code : Nat → Nat) (F d : Nat) : List Nat :=
  if d = 0 then []
  else if F ≤ d then
    (List.range F).foldl (fun acc i =>
      let j := d - F + i
      let t := code i % (j + 1)
      insertNat (if acc.contains t then j else t) acc) []
  else List.range d ++ (List.range (F - d)).map fun i => code i % d

/-! ### Lists of a guild graph (R281, R291) -/

/-- A parent's list: in place, broken, or not answered with a status of R398. -/
inductive ListRead where
  | ok (start deg : Nat)
  | broken
  | fail (status : Nat)
  deriving DecidableEq, Repr, Inhabited

/-- Read bytes of a row of a bound edition, or the status that answers instead (R137, R161, R319); the translation is kept, or its fault
counted (R106, R108). -/
def Module.rowBytesAt (m : Module) (p table edition r off len : Nat) : (Nat ⊕ (List Byte × Nat × Nat)) × Module :=
  match m.findRow table edition r, m.table table with
  | .found key, some t =>
    let s := (t.place.rowAt r).stack
    let m := m.cacheXlat (.quern s) t.ptn (m.rowRa t edition r) t.place.rowBytes
    if m.poisonedIn (key + off) len then (.inl 0x10, m) else (.inr (m.view (key + off) len, s, key + off), m)
  | .denied, _ => (.inl stFaultAccess, m.rowFault table edition r 3 permRead)
  | .lost, _ => (.inl 0x10, m.rowFault table edition r 4 permRead)
  | _, _ => (.inl 0x10, m.countNoEd p)

/-- A row served on the sampling path is counted by its quern, and its line goes through the coalescing window and the hot-row cache
under the HINT of the port-1 tensor, as a gather's does (R141, R143, R291): served from the window entry present, or read once and left
there with no segment attached. Where the window has no entry free it is read without one (log entry 173, DESIGN CHOICE). -/
def Module.serveRow (m : Module) (s p hint key stride : Nat) : Module :=
  let m := m.count (qrnR s 0x028) 0 64
  let line := key / 128
  match (m.quern s).current line with
  | some _ => m.count (qrnR s 0x030) 0 64
  | none =>
    let room := decide (m.windowTaken s < 4096)
    let m := if room && decide (4096 ≤ (m.quern s).win.length) then m.retireOne s else m
    let hit := m.fld (qrnR s 0x008) 0 1 == 1 && (m.quern s).hrc.any (·.line == line)
    let m := if hit then
        let m := m.count (qrnR s 0x038) 0 64
        if hint = 1 then m.setQuern s fun q => { q with hrc := touchLine q.hrc line 1 } else m
      else (m.count (qrnR s 0x040) 0 64).chargeKey s (line * 128) (min 128 stride)
    if !room then m
    else
      let data := m.lineView line
      m.setQuern s fun q =>
        { q with win := q.win ++ [{ id := q.nextWin, seg := none, line := line, fetched := true, data := data, hint := hint, ptn := p
                                    fromHrc := hit }]
                 nextWin := q.nextWin + 1 }

/-- Bytes of a row of a bound edition, served. -/
def Module.sampleRow (m : Module) (p hint table edition r off len : Nat) : (Nat ⊕ List Byte) × Module :=
  match m.rowBytesAt p table edition r off len with
  | (.inl st, m) => (.inl st, m)
  | (.inr (bs, s, key), m) => (.inr bs, m.serveRow s p hint key (((m.places table).map (·.stride)).getD 128))

def Module.readOffs (m : Module) (p hint : Nat) (g : GuildGraph) (edition u : Nat) : ListRead × Module :=
  match m.sampleRow p hint g.offs edition u 0 16 with
  | (.inl st, m) => (.fail st, m)
  | (.inr bs, m) =>
    let start := signedOf 64 (fieldAt bs 0 8)
    let deg := signedOf 64 (fieldAt bs 8 8)
    let room (t w : Nat) : Bool := match m.places t with
      | some p => decide (start + deg ≤ p.shrows * w)
      | none => false
    let ok := decide (deg = 0) || (decide (0 ≤ start ∧ 0 < deg) && room g.nbr 16 && (g.wgt == 0 || room g.wgt 32))
    ((if ok then .ok start.toNat deg.toNat else .broken), m)

/-- The edition of a graph's second or third table that goes with an OFFS edition: the same flip made both CURRENT (R284). -/
def GuildGraph.pairEdition (g : GuildGraph) (edition other : Nat) : Option Nat :=
  (g.sets.find? fun l => l.contains (g.offs, edition)).bind (assocGet other)

/-- The quern of a row of a table grants a remote master its read (R137); all do to the member's own bench, which was checked at
firing. -/
def Module.rowDenied (m : Module) (p table r : Nat) (M : Option Nat) : Option (Nat × Nat) :=
  match M, m.places table with
  | some M, some t => if m.allowed tcQuern (t.rowAt r).stack p M permRead then none else some ((t.rowAt r).stack, M)
  | _, _ => none

/-- Bytes of a row of the table that goes with an OFFS edition, for a local or a remote master. -/
def Module.pairRow (m : Module) (p hint : Nat) (M : Option Nat) (g : GuildGraph) (edition other r off len : Nat) :
    (Nat ⊕ List Byte) × Module :=
  match m.rowDenied p other r M, g.pairEdition edition other with
  | some (s, M), _ => (.inl stFaultAccess, m.deny p M tcQuern s permRead)
  | none, none => (.inl 0x10, m.countNoEd p)
  | none, some e => m.sampleRow p hint other e r off len

/-- Entry `e` of a shard: its neighbour and its edge weight, 1.0 without a WGT table (R281). -/
def Module.readNbr (m : Module) (p hint : Nat) (M : Option Nat) (g : GuildGraph) (edition shard e : Nat) (weigh : Bool) :
    (Nat ⊕ (Int × BitVec 32)) × Module :=
  let sh := ((m.places g.nbr).map (·.shards)).getD 1
  match m.pairRow p hint M g edition g.nbr (e / 16 * sh + shard) (e % 16 * 8) 8 with
  | (.inl st, m) => (.inl st, m)
  | (.inr bs, m) =>
    let v := signedOf 64 (fieldAt bs 0 8)
    if weigh && g.wgt != 0 then
      match m.pairRow p hint M g edition g.wgt (e / 32 * sh + shard) (e % 32 * 4) 4 with
      | (.inl st, m) => (.inl st, m)
      | (.inr ws, m) => (.inr (v, BitVec.ofNat 32 (fieldAt ws 0 4)), m)
    else (.inr (v, 0x3F800000), m)

/-- The fp32 value nearest to 1 ÷ d. -/
def invDeg (d : Nat) : BitVec 32 := f32Code (quot (.fin false 1 0) (.fin false d 0)).v

/-- The factor that a slot carries (R289, R398). -/
def slotWeight (wout d : Nat) (edge : BitVec 32) : BitVec 32 :=
  if wout = 1 then edge else if wout = 2 && d != 0 then invDeg d else 0x3F800000

/-! ### Parents and slots (R287, R289, R290) -/

/-- A new parent: out of range, it is dead and counted (R290). -/
def newParent (verts : Nat) (v : Int) (bag slot : Nat) (w : BitVec 32) (dead : Bool) : Parent × Bool :=
  let oob := !dead && !(decide (0 ≤ v) && decide (v < verts))
  ({ vertex := v, bag := bag, slot := slot, pathW := w, member := 0, dead := dead || oob, answered := dead || oob }, oob)

/-- The slots of an answered parent: neighbours with the products along their paths, or −1 with weight 0.0. -/
def Parent.slots (F : Nat) (p : Parent) : List (Int × BitVec 32 × Bool) :=
  if p.dead then List.replicate F (-1, 0, true)
  else p.got.map fun (v, w) => (v, f32Code (fp32.mul (f32Of p.pathW) (f32Of w)).v, false)

/-- The parents of the next hop, with the new out-of-range ones counted. -/
def nextParents (verts F : Nat) (ps : List Parent) : List Parent × Nat :=
  let rs := ps.flatMap fun p => ((p.slots F).zipIdx).map fun ((v, w, d), j) => newParent verts v p.bag (p.slot * F + j) w d
  (rs.map (·.1), rs.countP (·.2))

/-- The entries of every bag of a result outside full mode, in order (R287). -/
def sampleBags (n : Node) (seeds : Nat) (hops : List (List Parent)) : List (List (Int × BitVec 32)) :=
  let out (h : Nat) (p : Parent) : List (Int × BitVec 32) := (p.slots (n.fan h)).map fun (v, w, _) => (v, w)
  if n.par 27 1 = 1 then (hops.getLastD []).map (out n.hops)
  else (List.range seeds).map fun b =>
    hops.zipIdx.flatMap fun (ps, i) =>
      if n.par 26 1 = 1 ∨ i + 1 = hops.length then (ps.filter (·.bag == b)).flatMap (out (i + 1)) else []

/-! ### Writing the result (R287, R294) -/

/-- Store an array of a result bag list. -/
def Module.putArray (m : Module) (f : Firing) (r : Nat) (t : Tensor) (off : Nat) (bs : List Byte) : Except Stop Module := do
  let p ← m.placeAt f (8 + r) t off bs.length permWrite
  return ((m.settle p.key bs.length).store p.key bs).wrote f (8 + r) p [(0, bs.length)]

def idxBytesOf (t : Tensor) (v : Int) : List Byte := leBytes t.idxBytes (BitVec.ofInt 64 v).toNat

/-- One hop-structured result, written whole. -/
def Module.writeSample (m : Module) (f : Firing) (bags : List (List (Int × BitVec 32))) (flagged : Bool) :
    Except Stop Module := do
  let r := (f.res 0).getD default
  let es := bags.flatten
  let m ← m.putArray f 0 r 0 (es.flatMap fun e => idxBytesOf r e.1)
  let m ← if r.pitch = 0 then pure m else m.putArray f 0 r r.pitch (es.flatMap fun e => leBytes 4 e.2.toNat)
  return ({ m with samples := m.samples.filter (·.key != f.key) } : Module).finish f (flagIf flagged stOk)

/-- A list of a bag: neighbours with their weights. -/
abbrev Nbrs := List (Int × BitVec 32)

/-- Bags that a list of `n` entries takes: more than one where it is split (R294). -/
def pieceCount (thr n : Nat) : Nat := if thr < n then ceilDiv n 8192 else 1

/-- A list of `n` entries fits behind those that the walk has taken (R294): in the entries left, and in bags before the pad bag. -/
def fitsWalk (thr cap slots : Nat) (done : List Nat) (n : Nat) : Bool :=
  decide (done.sum + n ≤ cap ∧ (done.map (pieceCount thr)).sum + pieceCount thr n + 1 ≤ slots)

/-- The result of full mode: the lists of the seeds that the walk took, then empty bags, then the pad bag (R294). Pieces of split
lists go to the hub queue first, and the result is written once they are all back. -/
def Module.writeFull (m : Module) (f : Firing) (lists : List (Int × Nbrs)) (sink : Int) (trunc flagged : Bool) : Except Stop Module := do
  let r := (f.res 0).getD default
  let thr := m.hubThr f.bench
  let bags : List (Int × Nbrs) := lists.flatMap fun (v, l) => (if thr < l.length then chunks 8192 l else [l]).map fun x => (v, x)
  let split := lists.zipIdx.filter fun (l, _) => decide (thr < l.2.length)
  match m.hubs.find? fun h => h.key == f.key with
  | none =>
    if !split.isEmpty then
      let st : HubSt := { key := f.key, bench := f.bench, rows := split.map fun (l, i) => (i, 0, l.2.length) }
      let pieces := (split.map fun (l, _) => ceilDiv l.2.length 8192).sum
      return (m.count (halR f.e.hall 0x170) 0 32 pieces).openHub f st
    else write m r bags
  | some st => if st.open_.isSome then return m else write m r bags
where
  write (m : Module) (r : Tensor) (bags : List (Int × Nbrs)) : Except Stop Module := do
    let used := (bags.map fun b => b.2.length)
    let n := used.sum
    let pads := r.dim0 - n
    let offs := (List.range (r.dim1 + 1)).map fun i => if i = r.dim1 then r.dim0 else (used.take i).sum
    let es := bags.flatMap (·.2) ++ List.replicate pads (sink, 0)
    let m ← m.putArray f 0 r 0 (es.flatMap fun e => idxBytesOf r e.1)
    let m ← m.putArray f 0 r r.aux (offs.flatMap fun o => leBytes r.idxBytes o)
    let m ← m.putArray f 0 r r.pitch (es.flatMap fun e => leBytes 4 e.2.toNat)
    let src := (f.res 1).getD default
    let m ← m.putArray f 1 src 0 (((bags.map (·.1)) ++ List.replicate (r.dim1 - bags.length) sink).flatMap (idxBytesOf src))
    let m := m.count (halR f.e.hall 0x170) 32 32 trunc.toNat
    return ({ m with samples := m.samples.filter (·.key != f.key) } : Module).finish f (flagIf (flagged || trunc) stOk)

/-! ### Seeds (R286, R290, R294) -/

/-- The seeds of a firing, in order. -/
def seedsOf (mem : Memory) (p : Placed) : List Int :=
  (List.range p.t.dim0).map fun i => match p.elem mem i 0 0 with
    | .int n => n
    | .flt _ => 0

/-- Seeds with their ACT elements not greater than TOL are skipped (R294). -/
def activeSeed (tol : Nat) (a : Num) : Bool := (bf16.decode tol).lt a

/-- The seeds that a firing walks, each with whether ACT lets it. -/
def Module.walked (m : Module) (f : Firing) (seeds : List Int) : Except Stop (List (Int × Bool)) := do
  if f.n.nports = 3 then
    let a ← m.placePort f 2
    return seeds.zipIdx.map fun (v, i) => (v, activeSeed (f.n.par 10 16) (a.elem m.mem i 0 0).num)
  return seeds.map fun v => (v, true)

/-- Parents of hop 1, with the out-of-range ones counted. -/
def seedParents (verts : Nat) (seeds : List Int) : List Parent × Nat :=
  let rs := seeds.zipIdx.map fun (v, i) => newParent verts v i 0 0x3F800000 false
  (rs.map (·.1), rs.countP (·.2))

/-! ### Local graphs (R285) -/

/-- A parent of a local graph, answered. -/
def localAnswer (mem : Memory) (c : Csr) (n : Node) (reqid : Word) (hop : Nat) (p : Parent) : Parent :=
  if p.dead then p
  else
    let u := p.vertex.toNat
    let es := c.line mem u
    let edge (e : Nat) : Int × BitVec 32 := (c.index mem e, slotWeight n.wout es.length (f32Code (c.value mem e)))
    let got :=
      if n.full then es.map edge
      else if es.isEmpty then List.replicate (n.fan hop) (p.vertex, 0x3F800000)
      else (positions (Config.sampleDraw (n.par 30 16) reqid.toNat hop p.vertex p.slot) (n.fan hop) es.length).map fun i =>
        edge (es.getD i 0)
    { p with got := got, answered := true }

/-- An index of a CSR tensor is out of range (R238). -/
def Csr.escapes (c : Csr) (i : Int) : Bool := !(decide (0 ≤ i) && decide (i < c.t.dim0))

/-- Entries that a hop of a local sample reads. -/
def drawnOf (mem : Memory) (c : Csr) (ps : List Parent) : List (Int × BitVec 32) :=
  (ps.filter fun p => !p.dead && !(c.line mem p.vertex.toNat).isEmpty).flatMap (·.got)

/-- What the hops of a sample have counted: out-of-range parents, entries drawn, entries out of range. -/
structure SampleEv where
  oob  : Nat := 0
  draw : Nat := 0
  bad  : Nat := 0
  deriving DecidableEq, Repr, Inhabited

/-- Every hop of a local sample: the parents answered, and what it counts. A neighbour drawn at the last hop is checked like the
others (R290). -/
def localHops (mem : Memory) (c : Csr) (n : Node) (reqid : Word) : Nat → Nat → List Parent → List (List Parent) × SampleEv
  | 0, _, _ => ([], {})
  | k + 1, hop, ps =>
    let ps := ps.map (localAnswer mem c n reqid hop)
    let drawn := drawnOf mem c ps
    let next := nextParents c.t.dim1 (n.fan hop) ps
    let rest := localHops mem c n reqid k (hop + 1) next.1
    (ps :: rest.1, { oob := next.2 + rest.2.oob, draw := drawn.length + rest.2.draw
                     bad := drawn.countP (fun x => c.escapes x.1) + rest.2.bad })

/-- The seeds that a walk over a local graph takes, each answered, with the seeds that ACT skipped and whether it stopped (R294). -/
def localWalk (fits : List Nat → Nat → Bool) (answer : Int → Parent) : List (Int × Bool) → List Parent → List Parent × Nat × Bool
  | [], done => (done, 0, false)
  | (v, on) :: rest, done =>
    if !on then
      let r := localWalk fits answer rest done
      (r.1, r.2.1 + 1, r.2.2)
    else
      let p := answer v
      if fits (done.map (·.got.length)) p.got.length then localWalk fits answer rest (done ++ [p]) else (done, 0, true)

/-- The capacity of a full-mode result (R294). -/
def Module.fullFits (m : Module) (f : Firing) : List Nat → Nat → Bool :=
  let r := (f.res 0).getD default
  fitsWalk (m.hubThr f.bench) r.dim0 r.dim1

/-- A SAMPLE on a local graph (R285, R290, R294). Entries out of range count in BCH_SPCNT_FLT too, one for each slot drawn (R238, log
entry 174, DESIGN CHOICE). -/
def Module.sampleLocal (m : Module) (f : Firing) (c : Csr) (seeds : List (Int × Bool)) : Except Stop Module := do
  let h := f.e.hall
  let fresh := !(m.hubs.any fun x => x.key == f.key)
  let first (v : Int) : Parent × Bool := newParent c.t.dim1 v 0 0 0x3F800000 false
  let note (m : Module) (e : SampleEv) (skipped : Nat) : Module :=
    if fresh then
      (((m.count (halR h 0x160) 0 32 e.oob).count (halR h 0x168) 0 64 e.draw).count (bchR f.bench 0x110) 32 32 e.bad).count
        (halR h 0x178) 0 32 skipped
    else m
  if f.n.full then
    let w := localWalk (m.fullFits f) (fun v => localAnswer m.mem c f.n f.i.reqid 1 (first v).1) seeds []
    let drawn := drawnOf m.mem c w.1
    let e : SampleEv := { oob := w.1.countP (·.dead) + (nextParents c.t.dim1 0 w.1).2, draw := drawn.length
                          bad := drawn.countP fun x => c.escapes x.1 }
    let free := (note m e w.2.1).draw
    let rt := (f.res 0).getD default
    free.2.writeFull f (w.1.map fun p => (p.vertex, p.got)) (signedOf (8 * rt.idxBytes) (Config.choice 0 f.key.inst.toNat)) w.2.2
      (decide (0 < e.oob + e.bad))
  else
    let first := seedParents c.t.dim1 (seeds.map (·.1))
    let r := localHops m.mem c f.n f.i.reqid f.n.hops 1 first.1
    let e : SampleEv := { r.2 with oob := first.2 + r.2.oob }
    (note m e 0).writeSample f (sampleBags f.n seeds.length r.1) (decide (0 < e.oob + e.bad))

/-! ### Guild graphs (R291) -/

/-- The wire form of a hop's parents for another member (R398). -/
def sampleReq (f : Firing) (g : GuildGraph) (edition hint hop : Nat) (ps : List Parent) : List Byte :=
  leBytes 4 g.offs ++ leBytes 4 edition ++ leBytes 4 f.key.inst.toNat ++ leBytes 2 f.key.node.toNat ++ leBytes 2 f.key.gen.toNat ++
    leBytes 1 f.bench ++ leBytes 1 (hint % 4 + 4 * f.n.wout + 16 * f.n.full.toNat) ++ leBytes 2 ps.length ++
    leBytes 2 (f.n.par 30 16) ++ leBytes 1 (if f.n.full then 0 else f.n.fan hop) ++ leBytes 1 hop ++ leBytes 8 f.i.reqid.toNat ++
    leBytes 16 0 ++ ps.flatMap fun p => leBytes 8 (BitVec.ofInt 64 p.vertex).toNat ++ leBytes 4 p.bag ++ leBytes 4 p.slot

/-- Send parents to other members. -/
def Module.sendParents (m : Module) (f : Firing) (g : GuildGraph) (hop : Nat) (ps : List Parent) : Module :=
  let hint := ((f.tensor 1).map (·.hint)).getD 0
  let away := ps.filter fun p => !p.answered && p.member != m.member
  (away.map (·.member)).eraseDups.foldl (fun (m : Module) k =>
    m.sendTo k 1 (.payload 0x12 f.ptn (sampleReq f g (f.edition g.offs) hint hop (away.filter (·.member == k))))) m

/-- A sample ends without a result. -/
def Module.endSample (m : Module) (f : Firing) (st : Nat) : Module :=
  ({ m with samples := m.samples.filter (·.key != f.key) } : Module).finish f st

/-- Give each parent that must be asked the member that serves it (R122); none where no copy can. -/
def Module.assignParents (m : Module) (f : Firing) (t : Table) (ps : List Parent) : List Parent ⊕ Nat :=
  match ps.find? fun p => !p.dead && ((m.servers t p.vertex.toNat).filter fun k =>
      k != m.member || !m.ownLost t.place.table (f.edition t.place.table) p.vertex.toNat).isEmpty with
  | some p => .inr p.vertex.toNat
  | none => .inl (ps.map fun p =>
      if p.dead then p
      else
        let k := ((m.servers t p.vertex.toNat).find? fun k =>
          k != m.member || !m.ownLost t.place.table (f.edition t.place.table) p.vertex.toNat).getD 0
        { p with member := k, triedTwin := k != (t.place.rowAt p.vertex.toNat).shard })

/-- The result of an answered guild sample. -/
def Module.finishSample (m : Module) (f : Firing) (st : SampleSt) (g : GuildGraph) : Module :=
  let act : Except Stop Module :=
    if f.n.full then m.writeFull f (st.past.flatten.map fun p => (p.vertex, p.got)) (signedOf 64 g.sink) st.trunc st.flagged
    else m.writeSample f (sampleBags f.n (((f.tensor 0).map (·.dim0)).getD 0) st.past) st.flagged
  match act with
  | .ok m' => m'
  | .error s => m.stopFiring f s

/-- Put the state of a sample in its place. -/
def Module.putSample (m : Module) (f : Firing) (st : SampleSt) : Module :=
  { m with samples := (m.samples.filter (·.key != f.key)) ++ [st] }

/-- A hop is answered: its parents are kept, and those of the next hop, if `left` hops are, take their place. Out-of-range neighbours
count, those of the last hop too (R290). -/
def Module.advanceHop (m : Module) (f : Firing) (t : Table) (left : Nat) (st : SampleSt) : SampleSt × Module :=
  let n := nextParents t.place.rows (f.n.fan st.hop) st.parents
  let st : SampleSt := { st with past := st.past ++ [st.parents], flagged := st.flagged || decide (0 < n.2) }
  (if left = 0 then { st with parents := [] } else { st with hop := st.hop + 1, parents := n.1 }, m.count (halR f.e.hall 0x160) 0 32 n.2)

/-- Issue a hop, with how many hops are left; a hop whose parents are all answered already leads on to the next, and the
last to the result. -/
def Module.startHop (m : Module) (f : Firing) (g : GuildGraph) (t : Table) : Nat → SampleSt → Module
  | 0, st => (m.putSample f st).finishSample f st g
  | left + 1, st =>
    match m.assignParents f t st.parents with
    | .inr r => (m.shardDark f.ptn t (f.edition t.place.table) r).endSample f stFaultAddress
    | .inl ps =>
      let st : SampleSt := { st with parents := ps }
      if ps.all (·.answered) then
        let n := m.advanceHop f t left st
        n.2.startHop f g t left n.1
      else (m.putSample f st).sendParents f g st.hop ps

/-- The walk of full mode goes on (R294): seeds that ACT skips and seeds out of range are done with at once; the next other one leaves
for its quern; the walk stops where not even an empty list fits. -/
def Module.walkOn (m : Module) (f : Firing) (g : GuildGraph) (t : Table) : List (Int × Bool) → SampleSt → Module
  | [], st =>
    let st : SampleSt := { st with todo := [], parents := [] }
    (m.putSample f st).finishSample f st g
  | (v, on) :: rest, st =>
    if !on then (m.count (halR f.e.hall 0x178) 0 32).walkOn f g t rest st
    else
      let done := st.past.flatten
      if !m.fullFits f (done.map (·.got.length)) 0 then
        let st : SampleSt := { st with todo := [], parents := [], trunc := true }
        (m.putSample f st).finishSample f st g
      else
        let p := newParent t.place.rows v done.length 0 0x3F800000 false
        if p.2 then
          (m.count (halR f.e.hall 0x160) 0 32).walkOn f g t rest { st with past := [done ++ [p.1]], flagged := true }
        else
          match m.assignParents f t [p.1] with
          | .inr r => (m.shardDark f.ptn t (f.edition t.place.table) r).endSample f stFaultAddress
          | .inl ps => (m.putSample f { st with parents := ps, todo := rest }).sendParents f g st.hop ps

/-- A seed's list is back (R294): it is taken where it fits, and the walk goes on; where it does not, the walk stops, and the seed is
not processed. -/
def Module.walkTake (m : Module) (f : Firing) (g : GuildGraph) (t : Table) (st : SampleSt) : Module :=
  let done := st.past.flatten
  let got := (st.parents.map (·.got.length)).sum
  if m.fullFits f (done.map (·.got.length)) got then
    let n := (nextParents t.place.rows 0 st.parents).2
    (m.count (halR f.e.hall 0x160) 0 32 n).walkOn f g t st.todo
      { st with past := [done ++ st.parents], parents := [], flagged := st.flagged || decide (0 < n) }
  else
    let st : SampleSt := { st with todo := [], parents := [], trunc := true }
    (m.putSample f st).finishSample f st g

/-- Once every parent of the hop that is out has been answered, the sample goes on (R291). -/
def Module.checkHop (m : Module) (f : Firing) (st : SampleSt) (g : GuildGraph) (t : Table) : Module :=
  let m : Module := { m with samples := updWhere (fun x => x.key == f.key) (fun _ => st) m.samples }
  if !st.parents.isEmpty && st.parents.all (·.answered) then
    if f.n.full then m.walkTake f g t st
    else
      let left := f.n.hops - st.hop
      let n := m.advanceHop f t left st
      n.2.startHop f g t left n.1
  else m

/-- The SAMPLE firing: seeds are read and checked, and a local graph is sampled at once; over a guild graph the parents
of hop 1 leave for the querns (R286–R291). -/
def Module.sampleWork (m : Module) (f : Firing) : Except Stop Module := do
  let h := f.e.hall
  match m.samples.find? fun x => x.key == f.key with
  | some st =>
    match (f.tensor 1).bind fun t => m.ggraph f.ptn t.tableId with
    | some g => if st.parents.isEmpty then return m.finishSample f st g else return m
    | none => return m
  | none =>
    f.checked (m.draft f.ptn) fun x => m.tableRules f.ptn x ++ sampleRules (m.isOffs f.ptn) x
    let p ← m.placePort f 0
    let gt ← match f.tensor 1 with | some t => pure t | none => throw Stop.addr
    let seeds ← m.walked f (seedsOf m.mem p)
    let verts : Nat ← if gt.space = 3 then pure (((m.places gt.tableId).map (·.rows)).getD 0) else pure gt.dim1
    let escaped (v : Int) : Bool := !(decide (0 ≤ v) && decide (v < verts))
    if p.t.oobx && (seedsOf m.mem p).any escaped then return ((m.count (halR h 0x160) 0 32).finish f stFaultOob)
    if gt.space = 3 then
      match m.ggraph f.ptn gt.tableId, m.table gt.tableId with
      | some g, some t =>
        let tables := g.tables
        match tables.findSome? fun x => (m.places x).bind fun r => m.quernDenied f r permRead with
        | some s => return ((m.denyQuern f s permRead).finish f stFaultAccess)
        | none =>
          if f.n.full then
            return m.walkOn f g t seeds { key := f.key, ptn := f.ptn, hop := 1, parents := [] }
          else
            let first := seedParents verts (seeds.map (·.1))
            let m := m.count (halR h 0x160) 0 32 first.2
            return m.startHop f g t f.n.hops { key := f.key, ptn := f.ptn, hop := 1, parents := first.1, flagged := decide (0 < first.2) }
      | _, _ => throw Stop.addr
    else
      match ← m.readCsr f 1 gt with
      | .bad => return m.csrRefused f
      | .ok c =>
        if gt.oobx && (List.range (c.entries m.mem)).any fun e => !c.inRange m.mem e then return m.csrRefused f
        m.sampleLocal f c seeds

def execSample (k : FKey) (s : State) : Host.Outcome State Fault Refusal := s.on fun m => m.work k 0x12 Module.sampleWork

/-! ### Answers (R288, R290, R291, R398) -/

/-- What the querns of this member answer to one parent for a remote master: a status, its slots or, in full mode, its whole list, and
the positions drawn. -/
def Module.answerParent (m : Module) (p hint M : Nat) (g : GuildGraph) (edition : Nat) (full : Bool) (F wout key : Nat) (reqid : Word)
    (hop : Nat) (v : Int) (slot : Nat) : Nat × List (Int × BitVec 32) × Nat × Module :=
  match m.readOffs p hint g edition v.toNat with
  | (.fail st, m) => (st, [], 0, m)
  | (.broken, m) => (1, List.replicate F (-1, 0), 0, m)
  | (.ok start deg, m) =>
    let sh := v.toNat % ((m.places g.offs).map (·.shards)).getD 1
    if deg = 0 then (0, if full then [] else List.replicate F (v, 0x3F800000), 0, m)
    else
      let ps := if full then List.range deg else positions (Config.sampleDraw key reqid.toNat hop v slot) F deg
      let r := ps.foldl (fun (acc : Nat × List (Int × BitVec 32) × Module) i =>
        if acc.1 ≠ 0 then acc
        else match acc.2.2.readNbr p hint (some M) g edition sh (start + i) (wout == 1) with
          | (.inl st, m) => (st, [], m)
          | (.inr x, m) => (0, acc.2.1 ++ [(x.1, slotWeight wout deg x.2)], m)) (0, [], m)
      (r.1, r.2.1, if r.1 = 0 then ps.length else 0, r.2.2)

/-- A parent's answer on the sampling bench: answered, broken, denied, or lost and sent again to the twin (R290, R291). -/
def Module.takeAnswer (m : Module) (f : Firing) (st : SampleSt) (g : GuildGraph) (t : Table) (p : Parent) (status : Nat)
    (got : List (Int × BitVec 32)) (last : Bool) : Module :=
  let put (p' : Parent) (ps : List Parent) : List Parent := updWhere (fun x => x.bag == p.bag && x.slot == p.slot) (fun _ => p') ps
  if status = stFaultAccess then m.endSample f stFaultAccess
  else if status = 0x10 then
    match if p.triedTwin then none else (m.servers t p.vertex.toNat).find? (· != p.member) with
    | none => (m.shardDark f.ptn t (f.edition t.place.table) p.vertex.toNat).endSample f stFaultAddress
    | some k =>
      let p' : Parent := { p with member := k, triedTwin := true, got := [] }
      let again (x : SampleSt) : SampleSt := { x with parents := put p' x.parents }
      let m : Module := { m with samples := updWhere (fun x => x.key == f.key) again m.samples }
      (m.count (halR f.e.hall 0x178) 32 32).sendParents f g st.hop [p']
  else if status = 1 then
    let m := m.count (halR f.e.hall 0x160) 32 32
    m.checkHop f { st with flagged := true, parents := put { p with dead := true, answered := true, got := [] } st.parents } g t
  else m.checkHop f { st with parents := put { p with got := p.got ++ got, answered := last } st.parents } g t

/-- SAMPLE_NEIGHBOUR_RETURN: a quern of this member returns the next neighbour of the first parent it holds; a parent
without neighbours is answered whole (R291). Its OFFS row is read once, before the first. In full mode the list of a seed that does not
fit is not read: the walk stops at it (R294). -/
def execSampleNeighbourReturn (k : FKey) (s : State) : Host.Outcome State Fault Refusal :=
  s.on fun m =>
    match m.samples.find? fun x => x.key == k, m.firing k with
    | some st, some f =>
      match (f.tensor 1).bind fun t => m.ggraph f.ptn t.tableId, (f.tensor 1).bind fun t => m.table t.tableId,
          st.parents.find? fun p => !p.answered && p.member == m.member with
      | some g, some t, some p =>
        let hint := ((f.tensor 1).map (·.hint)).getD 0
        match m.readOffs f.ptn hint g (f.edition g.offs) p.vertex.toNat with
        | (.fail st', m) => m.takeAnswer f st g t p st' [] true
        | (.broken, m) => m.takeAnswer f st g t p 1 [] true
        | (.ok start deg, read) =>
          let m1 := if p.got.isEmpty then read else m
          let F := if f.n.full then deg else f.n.fan st.hop
          if f.n.full && !m1.fullFits f (st.past.flatten.map (·.got.length)) deg then
            m1.walkTake f g t { st with parents := [{ p with answered := true, got := List.replicate deg (0, 0) }] }
          else if deg = 0 then m1.takeAnswer f st g t p 0 (List.replicate (if f.n.full then 0 else F) (p.vertex, 0x3F800000)) true
          else
            let i := if f.n.full then p.got.length
              else (positions (Config.sampleDraw (f.n.par 30 16) f.i.reqid.toNat st.hop p.vertex p.slot) F deg).getD p.got.length 0
            match m1.readNbr f.ptn hint none g (f.edition g.offs) (p.vertex.toNat % t.place.shards) (start + i) (f.n.wout == 1) with
            | (.inl st', m2) => m2.takeAnswer f st g t p st' [] true
            | (.inr x, m2) =>
              (m2.count (halR ((t.place.rowAt p.vertex.toNat).stack / 5) 0x168) 0 64).takeAnswer f st g t p 0
                [(x.1, slotWeight f.n.wout deg x.2)] (decide (F ≤ p.got.length + 1))
      | _, _, _ => m
    | _, _ => m

/-- SAMPLE_REQ: each parent is checked against the querns' access tables, drawn and answered (R137, R398). -/
def execSampleReq (src : MemberId) (ptn : PtnId) (payload : List Byte) (s : State) : Host.Outcome State Fault Refusal :=
  s.on fun m =>
    let pl := payload
    let table := fieldAt pl 0 4
    let edition := fieldAt pl 4 4
    let flags := fieldAt pl 0x11 1
    let M := remoteMaster src.val ptn.val
    let F := fieldAt pl 0x16 1
    let answer (acc : List Byte × Module) (i : Nat) : List Byte × Module :=
      let o := 0x30 + 16 * i
      let v := signedOf 64 (fieldAt pl o 8)
      let slot := fieldAt pl (o + 12) 4
      let m := acc.2
      let r : Nat × List (Int × BitVec 32) × Module :=
        match m.ggraph ptn.val table, m.table table with
        | some g, some t =>
          let s := (t.place.rowAt v.toNat).stack
          if !m.allowed tcQuern s ptn.val M permRead then (stFaultAccess, [], m.deny ptn.val M tcQuern s permRead)
          else
            let r := m.answerParent ptn.val (flags % 4) M g edition (flags.testBit 4) F (bitsOf flags 2 2) (fieldAt pl 0x14 2)
              (BitVec.ofNat 64 (fieldAt pl 0x18 8)) (fieldAt pl 0x17 1) v slot
            (r.1, r.2.1, r.2.2.2.count (halR (s / 5) 0x168) 0 64 r.2.2.1)
        | _, _ => (0x10, [], m.countNoEd ptn.val)
      let group := leBytes 4 (fieldAt pl (o + 8) 4) ++ leBytes 4 slot ++ leBytes 4 0 ++ leBytes 2 r.2.1.length ++
        leBytes 1 r.1 ++ leBytes 1 1 ++ r.2.1.flatMap fun e =>
          leBytes 8 (BitVec.ofInt 64 e.1).toNat ++ leBytes 4 e.2.toNat ++ leBytes 4 0
      (acc.1 ++ group, r.2.2)
    let r := (List.range (fieldAt pl 0x12 2)).foldl answer ([], m)
    r.2.sendTo src.val 1 (.payload 0x13 ptn.val (slice pl 8 9 ++ leBytes 7 0 ++ r.1))

/-- The groups of a SAMPLE_ANS payload: bag, slot, start, status, last and slot entries (R398). -/
def answerGroups (pl : List Byte) : Nat → Nat → List (Nat × Nat × Nat × Nat × Bool × List (Int × BitVec 32))
  | 0, _ => []
  | fuel + 1, o =>
    if pl.length < o + 16 then []
    else
      let n := fieldAt pl (o + 12) 2
      (fieldAt pl o 4, fieldAt pl (o + 4) 4, fieldAt pl (o + 8) 4, fieldAt pl (o + 14) 1, (fieldAt pl (o + 15) 1).testBit 0,
       (List.range n).map fun i => (signedOf 64 (fieldAt pl (o + 16 + 16 * i) 8), BitVec.ofNat 32 (fieldAt pl (o + 24 + 16 * i) 4))) ::
        answerGroups pl fuel (o + 16 + 16 * n)

/-- SAMPLE_ANS: each group fills its parent in turn; an answer that the bench no longer waits for is discarded (R291). -/
def execSampleAns (src : MemberId) (_ptn : PtnId) (payload : List Byte) (s : State) : Host.Outcome State Fault Refusal :=
  s.on fun m =>
    let k : FKey := { inst := BitVec.ofNat 32 (fieldAt payload 0 4), node := BitVec.ofNat 16 (fieldAt payload 4 2)
                      gen := BitVec.ofNat 16 (fieldAt payload 6 2) }
    (answerGroups payload payload.length 16).foldl
      (fun (m : Module) (gr : Nat × Nat × Nat × Nat × Bool × List (Int × BitVec 32)) =>
        match m.samples.find? fun x => x.key == k, m.firing k with
        | some st, some f =>
          match (f.tensor 1).bind fun t => m.ggraph f.ptn t.tableId, (f.tensor 1).bind fun t => m.table t.tableId,
              st.parents.find? fun p => !p.answered && p.member == src.val && p.bag == gr.1 && p.slot == gr.2.1 &&
                p.got.length == gr.2.2.1 with
          | some g, some t, some p => m.takeAnswer f st g t p gr.2.2.2.1 gr.2.2.2.2.2 gr.2.2.2.2.1
          | _, _, _ => m
        | _, _ => m) m

/-! ### Hub segments (R243, R294, R297) -/

/-- HUB_SEGMENT_TAKE: the partial of a segment, by the class of its owner; a piece of a sampled list is copied with the
result and has none. -/
def execHubSegmentTake (bench : BenchId) (s : State) : Host.Outcome State Fault Refusal :=
  s.on fun m => m.takeSegment bench.val fun m f sg =>
    match f.n.op with
    | 0x21 => (m.opened.spmmPartial f sg, m)
    | 0x13 => (m.opened.segmentPartial f sg, m)
    | _ => ([], m)

end Sys2Proof.Machine
end

