-- ==== Sys2Proof/Machine/Scatter.lean ====
section
/-! DEFINITION. The SCATTER_ADD node, add batches and their receipts (R171–R176), and the adders' acceptance with
mirroring (R150, R151, R166, R175). -/
namespace Sys2Proof.Machine

/-! ### Rules of the class (R171) -/

def scatterRules (tb : Nat → Option PlacementRec) (x : RuleEnv) : List Rule :=
  let n := x.n
  let l := x.op 0
  let rows (f : PlacementRec → Bool) : Bool := ((x.placed tb 1).map f).getD true
  [x.onNode 0x30 (n.param == 0), x.onNode 0x04 (n.nports == 3),
   x.onNode 0x18 (n.res.getD 0 0xFFFF == 0xFFFF), x.onNode 0x1A (n.res.getD 1 0xFFFF == 0xFFFF),
   x.onPort 0 0 Tensor.bagOk, x.onPort 1 2 fun t => t.space == 3,
   x.onPort 1 0 fun t => addType t.type,
   x.onPort 2 0 fun t => (t.layout == 0 || t.layout == 1) && t.formOk && t.dim2 == 1 && t.space != 3 &&
     rows fun r => t.type == 0x01 || t.type == r.type,
   x.onPort 2 4 fun t => rows fun r => t.dim0 == r.dim,
   x.onPort 2 8 fun t => both l (some t) fun b t => t.dim1 == b.dim1]

/-! ### Acceptance (R150, R151, R166, R175) -/

/-- The delta of one element of a row, as the adders keep it. -/
def rowDelta (type : Nat) (delta : List Byte) (i : Nat) : Word :=
  let w := typeBits type / 8
  deltaWord type (decodeElem type (fieldAt delta (i * w) w))

/-- Zero as a delta. -/
def zeroDelta : Word := 0

/-- A row's add as deltas of the lines it covers: for each line, its number and one delta for each of its elements. -/
def lineDeltas (t : PlacementRec) (key : Nat) (delta : List Byte) : List (Nat × List Word) :=
  let w := typeBits t.type / 8
  let per := 128 / w
  let l0 := key / 128
  let first := key % 128 / w
  (List.range ((key % 128 + t.rowBytes + 127) / 128)).map fun j =>
    (l0 + j, (List.range per).map fun i =>
      let e := j * per + i
      if first ≤ e ∧ e - first < t.dim then rowDelta t.type delta (e - first) else zeroDelta)

/-- The pages of a shard page to which an add goes: the CURRENT edition's, and the private page of a DELTA edition that
is BUILDING or SEALED (R166, R175). -/
def Module.addMaps (m : Module) (t : Table) (a : RowAt) : List (Option (List Nat)) :=
  match t.editions.find? fun e => e.state == .current with
  | none => []
  | some c =>
    let cur := m.copyMap t.place c a.shard
    let page (x : Option (List Nat)) : Option Nat := x.bind fun l => l[a.page]?
    let next := (t.editions.find? fun e => (e.state == .building || e.state == .sealed) && !e.fresh).map fun e =>
      m.copyMap t.place e a.shard
    match next with
    | some b => if (page b).isSome && page b != page cur then [cur, b] else [cur]
    | none => [cur]

/-- The line deltas of the adds of a batch that find their pages on this member. -/
def Module.batchDeltas (m : Module) (t : Table) (adds : List AddEntry) : List (Nat × List Word) :=
  adds.flatMap fun e =>
    (m.addMaps t (t.place.rowAt e.index)).flatMap fun map =>
      match m.rowKey t map (t.place.rowAt e.index) permAtomic with
      | .found key => lineDeltas t.place key e.delta
      | _ => []

/-- Merge the deltas of one batch line by line, in the order given (R174 step 3). -/
def mergeDeltas (type : Nat) : List (Nat × List Word) → List (Nat × List Word)
  | [] => []
  | x :: t =>
    let r := mergeDeltas type t
    match assocGet x.1 r with
    | none => r ++ [x]
    | some d => assocSet x.1 ((x.2.zip d).map fun (a, b) => deltaWord type (plusVal (deltaVal type a) (deltaVal type b))) r

/-- The rebuild pages of a returning member that hold a row's page (R443): its copies of the shard, for every edition that
maps a changed page. -/
def Module.marksOf (m : Module) (k : Nat) (t : Table) (a : RowAt) : List RebuildMark :=
  let page (x : Option (List Nat)) : Option Nat := x.bind fun l => l[a.page]?
  let changed := (m.addMaps t a).filterMap page
  let eds := t.editions.filter fun e => ((page (m.copyMap t.place e a.shard)).map changed.contains).getD false
  let roles := (if t.place.primaryOf k = some a.shard then [false] else []) ++
    (if t.place.twinOf m.guildSize k = some a.shard then [true] else [])
  eds.flatMap fun e => roles.map fun tw => { table := t.place.table, edition := e.num, twin := tw, page := a.page }

/-- A source of a rebuild marks the pages that adds change after they were sent (R443 step 3). -/
def Module.markRebuilds (m : Module) (t : Table) (adds : List AddEntry) : Module :=
  let mark (r : RebuildSrc) : RebuildSrc :=
    { r with marks := (r.marks ++ adds.flatMap fun e => m.marksOf r.member t (t.place.rowAt e.index)).eraseDups }
  m.setGuild fun g => { g with rebuilds := g.rebuilds.map mark }

/-- At PREPARE of a JOIN, a source holds the add batches of the joining member's tables (R443 step 4). -/
def Module.joinHolds (m : Module) (table : Nat) : Bool :=
  match m.guild.agr with
  | some { agr := .join k _ _, done := none, .. } =>
    m.guild.rebuilds.any (fun r => r.member == k.val) && ((m.table table).map fun x => decide (0 < x.place.copies m.guildSize k.val)).getD false
  | _ => false

/-- Every add of a batch is accepted (R151, R174 step 4): merged into the combining entries, or singly when CBEN is 0. -/
def Module.acceptBatch (m : Module) (s : Nat) (t : Table) (adds : List AddEntry) : Module :=
  let free := m.draw
  let ds := free.2.batchDeltas t (permute free.1 adds)
  let single := m.fld (qrnR s 0x008) 1 1 == 0
  let lines := if single then ds else mergeDeltas t.place.type ds
  (lines.foldl (fun (m : Module) d => m.accept s t.ptn t.place.type d.1 d.2) (free.2.markRebuilds t adds)).count (qrnR s 0x048) 0 64 adds.length

/-! ### Receipts (R176) -/

/-- Record a receipt; a full store evicts its oldest, which is counted and reported when it is younger than 10 s. -/
def Module.putReceipt (m : Module) (p : Nat) (r : Receipt) : Module :=
  let old := (m.ptn p).receipts
  match old with
  | o :: rest =>
    if 1048576 ≤ old.length then
      let m := m.setPtn p fun x => { x with receipts := rest ++ [r] }
      if m.ltime < o.at_ + 10000000000 then
        (m.count (ptnR p 0xB8) 32 32).post 0x0806 (some p) o.table
          (leBytes 4 o.table ++ leBytes 4 0 ++ leBytes 1 p ++ leBytes 4 ((m.ltime - o.at_) / 1000000))
      else m
    else m.setPtn p fun x => { x with receipts := old ++ [r] }
  | [] => m.setPtn p fun x => { x with receipts := [r] }

def execReceiptExpire (ptn : PtnId) (tag : BatchTag) (s : State) : Host.Outcome State Fault Refusal :=
  s.on fun m =>
    match (m.ptn ptn.val).receipts.find? fun r => r.tag == tag with
    | none => m
    | some r => (m.until_ (r.at_ + 10000000000)).setPtn ptn.val fun x => { x with receipts := x.receipts.filter (·.tag != tag) }

/-! ### Acknowledgement (R174, R176, R398) -/

/-- The fields of a tag in a batch header or an acknowledgement, bytes 0x00–0x14 (R398). -/
def tagBytes (g : BatchTag) (table : Nat) : List Byte :=
  leBytes 8 g.reqid.toNat ++ leBytes 4 table ++ leBytes 2 g.node.toNat ++ leBytes 2 g.gen.toNat ++ leBytes 4 g.chunk.toNat ++
    leBytes 1 g.copy.toNat

/-- The node of a scatter sends its tokens once no batch is out (R176). -/
def Module.checkScatter (m : Module) (k : FKey) : Module :=
  match m.scatters.find? fun x => x.key == k, m.firing k with
  | some st, some f =>
    if st.out.isEmpty then
      ({ m with scatters := m.scatters.filter (·.key != k) } : Module).finish f (flagIf st.flagged stOk)
    else m
  | _, _ => m

/-- An acknowledgement reaches the sending bench: accepted and duplicate batches are done; a denied one ends the node. -/
def Module.ackBatch (m : Module) (member : Nat) (tag : BatchTag) (status : Nat) : Module :=
  match m.scatters.find? fun x => x.out.any fun o => o.1 == tag && o.2.1 == member with
  | none => m
  | some st =>
    if status = stFaultAccess then
      let m : Module := { m with scatters := m.scatters.filter (·.key != st.key) }
      match m.firing st.key with
      | some f => m.finish f stFaultAccess
      | none => m
    else
      let less (x : ScatterSt) : ScatterSt := { x with out := x.out.filter fun o => !(o.1 == tag && o.2.1 == member) }
      ({ m with scatters := updWhere (fun x => x.key == st.key) less m.scatters } : Module).checkScatter st.key

/-- Acknowledge a batch to its sender, and drop it. -/
def Module.finishBatch (m : Module) (s : Nat) (b : Batch) (status : Nat) : Module :=
  let m := m.setQuern s fun q => { q with batches := q.batches.filter fun x => !(x.tag == b.tag && x.src == b.src) }
  if b.src = m.member then m.ackBatch m.member b.tag status
  else m.sendTo b.src 3 (.payload 0x15 b.tag.ptn.val (tagBytes b.tag b.table ++ leBytes 1 status ++ leBytes 10 0))

/-! ### Batches at a quern (R174) -/

def Module.batch (m : Module) (s : Nat) (tag : BatchTag) : Option Batch := (m.quern s).batches.find? fun b => b.tag == tag

/-- Distinct lines of a batch: the pending entries that it reserves. -/
def Module.batchLines (m : Module) (b : Batch) : Nat :=
  match m.table b.table with
  | none => 0
  | some t =>
    ((b.adds.flatMap fun e =>
      let a := t.place.rowAt e.index
      (List.range t.place.lines).map fun j => (a.shard, a.page, a.off / 128 + j)).eraseDups).length

/-- Step 2 of R174: all pending entries or none. A batch held for a join holds nothing (R443). -/
def Module.reserveBatch (m : Module) (s : Nat) (b : Batch) : Module :=
  let used := (((m.quern s).batches.filter (·.reserved)).map m.batchLines).sum
  if b.reserved || m.joinHolds b.table || decide (8192 < used + m.batchLines b) then m
  else
    let mine (x : Batch) : Bool := x.tag == b.tag && x.src == b.src
    m.setQuern s fun q => { q with batches := updWhere mine (fun x => { x with reserved := true }) q.batches }

/-- The sender's bench or member may add at this quern (R90, R137, R174). -/
def Module.batchDenied (m : Module) (s : Nat) (b : Batch) : Bool :=
  b.src != m.member && !m.allowed tcQuern s b.tag.ptn.val (remoteMaster b.src b.tag.ptn.val) permAtomic

/-- ADD_BATCH_ARRIVE: a tag among the receipts is a duplicate; otherwise the batch reserves or waits (R174 steps 1, 2). -/
def execAddBatchArrive (stack : StackId) (tag : BatchTag) (s : State) : Host.Outcome State Fault Refusal :=
  s.on fun m =>
    match m.batch stack.val tag with
    | none => m
    | some b =>
      if b.reserved then m
      else if (m.ptn tag.ptn.val).receipts.any fun r => r.tag == tag then
        if b.ended then (m.count (ptnR tag.ptn.val 0xB8) 21 11).finishBatch stack.val b 1 else m
      else if m.batchDenied stack.val b then
        if b.ended then
          (m.deny tag.ptn.val (remoteMaster b.src tag.ptn.val) tcQuern stack.val permAtomic).finishBatch stack.val b stFaultAccess
        else m
      else m.reserveBatch stack.val b

def execAddBatchReserved (stack : StackId) (tag : BatchTag) (s : State) : Host.Outcome State Fault Refusal :=
  s.on fun m =>
    match m.batch stack.val tag with
    | none => m
    | some b => m.reserveBatch stack.val b

/-- The owner's draft denies the quern atomic permission on the table's region (R90, R137). -/
def Module.adderDenied (m : Module) (s : Nat) (t : Table) : Bool :=
  !m.allowed tcRegion t.place.rgn t.ptn (quernMaster s) permAtomic

/-- ADD_BATCH_END: the end marker merges the pending entries in one step; the receipt is recorded before the
acknowledgement (R174 step 4). -/
def execAddBatchEnd (stack : StackId) (tag : BatchTag) (s : State) : Host.Outcome State Fault Refusal :=
  s.on fun m =>
    let q := stack.val
    match m.batch q tag with
    | none => m
    | some b =>
      if !(b.reserved && b.ended) then m
      else
        match m.table b.table with
        | none => m.finishBatch q b 0
        | some t =>
          if m.adderDenied q t then
            let r := ((b.adds.head?).map (·.index)).getD 0
            let e := ((t.editions.find? fun e => e.state == .current).map (·.num)).getD 0
            (m.rowFault b.table e r 3 permAtomic).finishBatch q b stFaultAccess
          else
            ((m.acceptBatch q t b.adds).putReceipt tag.ptn.val { tag := tag, table := b.table, at_ := m.ltime }).finishBatch q b 0

/-! ### The SCATTER_ADD firing (R171–R174) -/

/-- The delta row that an entry adds: w × D[b] in fp32, then once to the table's type (R171). -/
def addRow (mem : Memory) (t : PlacementRec) (d : Placed) (bag : Nat) (w : BitVec 32) : List Byte :=
  (List.range t.dim).flatMap fun i =>
    let x := (fp32.round .even (d.elem mem i bag 0).num).v
    leBytes (typeBits t.type / 8) ((Val.flt (fp32.mul (f32Of w) x).v).toCode t.type .even).1

/-- The batches of a firing: for each chunk, copy, member and stack, the adds of the chunk (R174). -/
def Module.batchesOf (m : Module) (f : Firing) (t : Table) (adds : List (Nat × AddEntry)) :
    List (BatchTag × Nat × List AddEntry) :=
  let chunk := 4096 / t.place.lines
  let copies := if t.place.twin then [false, true] else [false]
  let target (copy : Bool) (e : AddEntry) : Nat × Nat :=
    let a := t.place.rowAt e.index
    (if copy then t.place.twinMember m.guildSize a.shard else a.shard, a.stack)
  ((adds.map fun a => a.1 / chunk).eraseDups).flatMap fun c =>
    copies.flatMap fun copy =>
      let mine := (adds.filter fun a => a.1 / chunk == c).map (·.2)
      ((mine.map (target copy)).eraseDups).map fun (k, s) =>
        ({ ptn := Fin.ofNat 8 f.ptn, reqid := f.i.reqid, node := f.key.node, gen := f.key.gen, chunk := BitVec.ofNat 32 c
           copy := copy, stack := Fin.ofNat 20 s }, k, mine.filter fun e => target copy e == (k, s))

/-- A batch leaves for its quern, with its end marker behind it; one whose member is not JOINED is not sent (R176). -/
def Module.sendBatch (m : Module) (table : Nat) (b : BatchTag × Nat × List AddEntry) : Module :=
  if b.2.1 = m.member then
    m.setQuern b.1.stack.val fun q => { q with batches := q.batches ++
      [{ tag := b.1, src := m.member, table := table, adds := b.2.2, ended := true }] }
  else
    let row (d : List Byte) : List Byte := slice d 0 (roundUp d.length 8)
    m.sendTo b.2.1 3 (.payload 0x14 b.1.ptn.val (tagBytes b.1 table ++ leBytes 1 1 ++ leBytes 2 b.2.2.length ++
      leBytes 1 b.1.stack.val ++ leBytes 7 0 ++ b.2.2.flatMap fun e => leBytes 8 e.index ++ row e.delta))

def Module.scatterWork (m : Module) (f : Firing) : Except Stop Module := do
  if m.scatters.any (·.key == f.key) then return m
  f.checked (m.draft f.ptn) fun x => m.tableRules f.ptn x ++ scatterRules m.places x
  let lt ← match f.tensor 0 with | some t => pure t | none => throw Stop.addr
  let tt ← match f.tensor 1 with | some t => pure t | none => throw Stop.addr
  let t ← match m.table tt.tableId with | some t => pure t | none => throw Stop.addr
  let b ← m.readBags f 0 lt
  let d ← m.placePort f 2
  let h := f.e.hall
  if !b.ok m.mem then return ((m.count (halR h 0x100) 32 32).finish f stFaultOob)
  let all := b.entries m.mem
  let ok (e : Nat × Nat) : Bool := t.place.inRange (b.index m.mem e.2)
  let bad := all.countP fun e => !ok e
  if lt.oobx && decide (0 < bad) then return ((m.count (halR h 0x100) 0 32).finish f stFaultOob)
  match m.quernDenied f t.place permAtomic with
  | some s => return ((m.denyQuern f s permAtomic).finish f stFaultAccess)
  | none =>
    let adds := (all.filter ok).map fun e =>
      (e.2, ({ index := (b.index m.mem e.2).toNat, delta := addRow m.mem t.place d e.1 (b.weight m.mem e.2) } : AddEntry))
    let bs := (m.batchesOf f t adds).filter fun x => m.isJoined x.2.1
    let st : ScatterSt := { key := f.key, ptn := f.ptn, out := bs, table := t.place.table, flagged := decide (0 < bad) }
    let m := ({ m with scatters := m.scatters ++ [st] } : Module).count (halR h 0x100) 0 32 bad
    return (bs.foldl (fun (m : Module) x => m.sendBatch t.place.table x) m).checkScatter f.key

def execScatterAdd (k : FKey) (s : State) : Host.Outcome State Fault Refusal := s.on fun m => m.work k 0x11 Module.scatterWork

/-! ### Remote batches (R398) -/

/-- The tag that a batch header or an acknowledgement carries. -/
def tagOf (ptn stack : Nat) (pl : List Byte) : BatchTag :=
  { ptn := Fin.ofNat 8 ptn, reqid := BitVec.ofNat 64 (fieldAt pl 0 8), node := BitVec.ofNat 16 (fieldAt pl 0x0C 2)
    gen := BitVec.ofNat 16 (fieldAt pl 0x0E 2), chunk := BitVec.ofNat 32 (fieldAt pl 0x10 4), copy := fieldAt pl 0x14 1 == 1
    stack := Fin.ofNat 20 stack }

/-- ADD_BATCH: part of a batch enters its quern's input queue; END marks the last packet. -/
def execAddBatch (src : MemberId) (ptn : PtnId) (payload : List Byte) (s : State) : Host.Outcome State Fault Refusal :=
  s.on fun m =>
    let stack := fieldAt payload 0x18 1
    let table := fieldAt payload 8 4
    let b := ((m.places table).map (·.rowBytes)).getD 0
    let sz := 8 + roundUp b 8
    let adds := (List.range (fieldAt payload 0x16 2)).map fun i =>
      ({ index := fieldAt payload (0x20 + i * sz) 8, delta := slice payload (0x28 + i * sz) b } : AddEntry)
    if stack ≥ 20 then m
    else
      let tag := tagOf ptn.val stack payload
      let fin := (fieldAt payload 0x15 1).testBit 0
      let mine (x : Batch) : Bool := x.tag == tag && x.src == src.val
      m.setQuern stack fun q =>
        if q.batches.any mine then
          { q with batches := updWhere mine (fun x => { x with adds := x.adds ++ adds, ended := x.ended || fin }) q.batches }
        else { q with batches := q.batches ++ [{ tag := tag, src := src.val, table := table, adds := adds, ended := fin }] }

/-- ADD_ACK names no stack: it acknowledges the batch out to its member with the header's tag, the lowest stack first
(R398). -/
def execAddAck (src : MemberId) (ptn : PtnId) (payload : List Byte) (s : State) : Host.Outcome State Fault Refusal :=
  s.on fun m =>
    let t := tagOf ptn.val 0 payload
    let like (o : BatchTag × Nat × List AddEntry) : Bool := o.2.1 == src.val && { o.1 with stack := 0 } == t
    match (m.scatters.flatMap (·.out)).filter like with
    | [] => m
    | o :: rest =>
      let tag := (rest.foldl (fun (a : BatchTag × Nat × List AddEntry) b => if b.1.stack < a.1.stack then b else a) o).1
      m.ackBatch src.val tag (fieldAt payload 0x15 1)

end Sys2Proof.Machine
end

