-- ==== Sys2Proof/Machine/Stream.lean ====
section
/-! DEFINITION. Streams, copies, fused commands and barriers (R325–R348): the STREAM node, the engine's admissions and
requests, halt and resume, and the BARRIER node. -/
namespace Sys2Proof.Machine

/-! ### COPY (R340, R341) -/

/-- The type and layout rules that a copied tensor carries. -/
def Tensor.copyOk (t : Tensor) : Bool :=
  t.streamed && (match t.layout with
    | 4 | 5 => t.csrOk
    | 6 => t.bagOk
    | _ => t.formOk)

def copyRules (x : RuleEnv) : List Rule :=
  let s := x.op 0
  [x.onNode 0x30 (x.n.param == 0), x.onNode 0x04 (x.n.nports == 1), x.onNode 0x18 (x.res 0).isSome,
   x.onNode 0x1A (x.n.res.getD 1 0 == 0xFFFF),
   x.onPort 0 0 Tensor.copyOk,
   x.onRes 0 0 fun t => t.copyOk && both s (some t) fun a b => a.type == b.type,
   x.onRes 0 1 fun t => both s (some t) fun a b => a.layout == b.layout,
   x.onRes 0 4 fun t => both s (some t) fun a b => a.dim0 == b.dim0,
   x.onRes 0 8 fun t => both s (some t) fun a b => a.dim1 == b.dim1,
   x.onRes 0 0xC fun t => both s (some t) fun a b => a.dim2 == b.dim2,
   x.onRes 0 0x10 fun t => both s (some t) fun a b => a.layout == 0 || a.pitch == b.pitch,
   x.onRes 0 0x14 fun t => both s (some t) fun a b => a.layout == 0 || a.aux == b.aux]

/-- A run of bits that a copy moves: its offset in the source, in the destination, and its length. -/
structure Run where
  src : Nat
  dst : Nat
  len : Nat
  deriving DecidableEq, Repr, Inhabited

/-- The bit at which a row of a row-major tensor starts (R47). -/
def Tensor.rowBit (t : Tensor) (r : Nat) : Nat := if t.pitch = 0 then r * t.dim0 * t.bits else r * t.pitch * 8

/-- What a copy moves, in order (R341): values, then side data; nothing of a pitch's gaps, and only the packed values of a
zero-bitmap slot. The counts say how many values each zero-bitmap tile holds, or how many entries a CSR tensor has. -/
def copyRuns (s d : Tensor) (count : Nat → Nat) : List Run :=
  let same (off len : Nat) : Run := { src := off * 8, dst := off * 8, len := len * 8 }
  let scales (a b : Nat) : List Run := if s.isMx then [{ src := a * 8, dst := b * 8, len := s.blocks * 8 }] else []
  let rows : List Run :=
    if s.pitch = 0 ∧ d.pitch = 0 then [{ src := 0, dst := 0, len := s.dim0 * s.rows * s.bits }]
    else (List.range s.rows).map fun r => { src := s.rowBit r, dst := d.rowBit r, len := s.dim0 * s.bits }
  match s.layout with
  | 1 => same 0 (s.tiles * 1024 * s.bits / 8) :: scales s.aux d.aux
  | 2 =>
    if s.compressed then
      ((List.range s.rows).map fun r => { src := s.p4Bit r 0, dst := d.p4Bit r 0, len := s.dim0 / 2 * s.bits : Run }) ++
        same s.aux s.p4Meta :: scales s.p4Scales d.p4Scales
    else rows ++ scales s.aux d.aux
  | 3 =>
    ((List.range s.tiles).map fun t =>
      { src := t * 1024 * s.bits, dst := t * 1024 * s.bits, len := count t * s.bits : Run }) ++
      [same s.aux (ceilDiv s.tiles 64 * 8), same s.zbCounts (s.tiles * 2), same s.zbBitmaps (s.tiles * 128)]
  | 4 | 5 =>
    [same 0 (4 * count 0), same s.aux (8 * (s.dim1 + 1))] ++
      if s.pitch = 0 then [] else [same s.pitch (count 0 * s.bits / 8)]
  | 6 =>
    same 0 (s.dim0 * s.idxBytes) :: ((if s.aux = 0 then [] else [same s.aux ((s.dim1 + 1) * s.idxBytes)]) ++
      if s.pitch = 0 then [] else [same s.pitch (4 * s.dim0)])
  | _ => rows ++ scales s.aux d.aux

/-- The part of a list of runs between two bit positions of their concatenation. -/
def sliceRuns : List Run → Nat → Nat → List Run
  | [], _, _ => []
  | r :: rs, lo, n =>
    if r.len ≤ lo then sliceRuns rs (lo - r.len) n
    else
      let k := min n (r.len - lo)
      if k = 0 then [] else { src := r.src + lo, dst := r.dst + lo, len := k } :: sliceRuns rs 0 (n - k)

/-- Bytes that a list of runs moves. -/
def runBytes (rs : List Run) : Nat := ceilDiv ((rs.map (·.len)).sum) 8

/-- Place a run of bits at an offset of a tensor. -/
def Module.placeRun (m : Module) (f : Firing) (port : Nat) (t : Tensor) (bit len perm : Nat) : Except Stop Placed :=
  m.placeAt f port t (bit / 8) ((bit % 8 + len + 7) / 8) perm

/-- The runs of a copy firing, or its stop: an extent that leaves its space (R105), or offsets refused (R238). -/
def Module.copyPlan (m : Module) (f : Firing) (s d : Tensor) : Except Stop (List Run) := do
  let count ← (match s.layout with
    | 3 => do
      let p ← m.placeAt f 0 s 0 s.extent permRead
      return fun t => min 1024 (p.zbCount m.mem t)
    | 4 | 5 => do
      match (← m.readCsr f 0 s) with
      | .ok c => return fun _ => c.entries m.mem
      | .bad => .error (.fault stFaultOob none 0)
    | _ => .ok fun _ => 0)
  return copyRuns s d count

/-- Why the whole extent of one of a copy's tensors does not lie in its space, or in one region of it (R105, R341). -/
def Module.copyExtents (m : Module) (f : Firing) (s d : Tensor) : Option Stop :=
  let reach (t : Tensor) : Nat := ((t.spans (m.entriesOf f s)).map (·.2)).foldl max 0
  (m.extentStop f 0 s (reach s) permRead).orElse fun _ => m.extentStop f 8 d (reach d) permWrite

/-- A request of a copy is of 2 KiB, or shorter where a page of the source or of the destination ends (R333): the bits of a list of runs
up to the first page end of either, after which nothing goes on. -/
def Module.runsInPage (m : Module) (f : Firing) (s d : Tensor) : List Run → Nat
  | [] => 0
  | r :: rs =>
    let left (t : Tensor) (bit : Nat) : Nat :=
      match (m.tensorRa f t).bind fun a => (m.regionAt f.ptn (a + bit / 8)).map fun g => (a + bit / 8 - g.info.base, 2 ^ g.info.shift) with
      | some (off, sz) => (sz - off % sz) * 8 - bit % 8
      | none => r.len
    let n := min (left s r.src) (left d r.dst)
    if r.len < n then r.len + m.runsInPage f s d rs else min r.len n

/-- The bytes of the request of a copy from a position on. -/
def Module.copyRequest (m : Module) (f : Firing) (s d : Tensor) (rs : List Run) (at_ : Nat) : Nat :=
  let n := min 2048 (runBytes rs - at_)
  min n (max 1 (m.runsInPage f s d (sliceRuns rs (at_ * 8) (n * 8)) / 8))

/-- Move a list of runs from one tensor to the other, bits unchanged (R236), each access with its tensor's HINT and charge (R305,
R311). -/
def Module.moveRuns (m : Module) (f : Firing) (s d : Tensor) (rs : List Run) : Except Stop Module := do
  let ps ← rs.mapM fun r => do
    let a ← m.placeRun f 0 s r.src r.len permRead
    let b ← m.placeRun f 8 d r.dst r.len permWrite
    return (r, a.key, b)
  let mem := ps.foldl (fun (mm : Memory) x =>
    mm.putBits x.2.2.key (x.1.dst % 8) x.1.len (m.mem.bitsAt x.2.1 (x.1.src % 8) x.1.len)) m.mem
  return ps.foldl (fun (acc : Module) x =>
    let bytes (bit : Nat) : Nat := (bit % 8 + x.1.len + 7) / 8
    let acc := acc.wrote f 8 x.2.2 [(0, bytes x.1.dst)]
    let acc := match m.tensorRa f s with
      | some a => (acc.cacheXlat (.hall f.e.hall) f.ptn (a + x.1.src / 8) (bytes x.1.src)).accessAll f.e.hall f.ptn (a + x.1.src / 8)
          (bytes x.1.src) s.hint false
      | none => acc
    match m.tensorRa f d with
    | some a => (acc.cacheXlat (.hall f.e.hall) f.ptn (a + x.1.dst / 8) (bytes x.1.dst)).accessAll f.e.hall f.ptn (a + x.1.dst / 8)
        (bytes x.1.dst) d.hint true
    | none => acc) { m with mem := mem }

/-- A dispatched COPY that has not moved everything, with its tensors and runs. -/
def Module.copying (m : Module) (k : FKey) : Option (Firing × Tensor × Tensor) := do
  let f ← m.running k 0x40
  if f.n.par 0 2 = 0 then
    let s ← f.tensor 0
    let d ← f.res 0
    some (f, s, d)
  else none

/-- One request of a copy, from a position on: its bytes move, and the copy ends when all have moved (R330, R333). One whose plan could
not be read before has its total from here on. -/
def Module.copyPart (m : Module) (f : Firing) (s d : Tensor) (at_ : Nat) (whole : Bool) : Module :=
  let h := f.e.hall
  let act (x : Module) : Except Stop (Module × Nat × Nat) := do
    let rs ← x.copyPlan f s d
    let n := if whole then runBytes rs else x.copyRequest f s d rs at_
    let y ← x.moveRuns f s d (sliceRuns rs (at_ * 8) (n * 8))
    return (y, n, runBytes rs)
  match act m.opened with
  | .ok (y, n, all) =>
    let m := ((m.closed y).count (halR h 0x210) 0 64 n).setCtxs h (fun c => c.key == f.key) fun c =>
      { c with total := all, done := at_ + n }
    if all ≤ at_ + n then m.finish f stOk else m
  | .error e => m.stopFiring f e

/-- The context of a copy (R332, R333). -/
def Module.copyCtx (m : Module) (f : Firing) (s d : Tensor) (n : Nat) : Context :=
  { idx := 0, state := 1, kind := 2, ptn := f.ptn, status := 0, key := f.key, bench := 0xFF, port := 0, ring := 0
    src := (m.tensorRa f s).getD 0, dst := (m.tensorRa f d).getD 0, total := n }

/-- The stream engine takes a READY copy: its tensors and their extents are checked, and its admission is offered (R105, R328, R341). A
copy of at most 256 bytes takes the light path (R335). One whose counts or offsets lie in an absent page has a context whatever its
length, and halts there once it is admitted (R337; log entry 179, DEDUCED). -/
def Module.takeCopy (m : Module) (f : Firing) : Module :=
  let x := m.begin_ f [] []
  if !x.2 then x.1
  else
    let m := x.1
    let f := (m.firing f.key).getD f
    match f.checked (m.draft f.ptn) copyRules, f.tensor 0, f.res 0 with
    | .ok _, some s, some d =>
      match m.copyExtents f s d with
      | some e => m.stopFiring f e
      | none =>
        let ring (n : Nat) : Admission := { keys := [f.key], ptn := f.ptn, rings := [m.copyCtx f s d n], held := [] }
        match m.opened.copyPlan f s d with
        | .error (.halt page port) =>
          let m := m.offer f.e.hall (ring 0)
          if ((m.entry f.key).map (·.launched)).getD false then m.haltAt f.e.hall f.ptn f.key port page else m
        | .error e => m.stopFiring f e
        | .ok rs =>
          let n := runBytes rs
          let light : List Held := [{ key := f.key, bench := 0xFF, light := 1, area := 0 }]
          m.offer f.e.hall (if n ≤ 256 then { keys := [f.key], ptn := f.ptn, rings := [], held := light } else ring n)
    | _, _, _ => m.stopFiring f Stop.addr

/-- A copy on the light path moves whole, once it has its slot. -/
def Module.lightCopy (m : Module) (k : FKey) : Module :=
  match m.copying k with
  | some (f, s, d) => if (m.hall f.e.hall).held.any fun x => x.key == k then m.copyPart f s d 0 true else m
  | none => m

/-- STREAM_COPY: the engine takes a READY copy node; one on the light path moves at once, or goes on after a halt. -/
def execStreamCopy (k : FKey) (s : State) : Host.Outcome State Fault Refusal :=
  s.on fun m =>
    match m.storeFiring k 0x40 with
    | some f => if f.n.par 0 2 = 0 ∧ !m.barred f.e then (m.takeCopy f).lightCopy k else m
    | none => m.lightCopy k

/-! ### Admissions and requests (R328–R336) -/

/-- The head of the admission queue is taken when all its parts can be had (R328). -/
def execStreamAdmit (hall : HallId) (s : State) : Host.Outcome State Fault Refusal :=
  s.on fun m =>
    match (m.hall hall).admq with
    | [] => m
    | a :: rest =>
      if (m.hall hall).fits a then (m.setHall hall fun x => { x with admq := rest }).admitted hall a else m

/-- A READY chain or fused node whose benches include a bench (R336). -/
def Module.wantedBy (m : Module) (h b : Nat) : Bool :=
  (m.hall h).entries.any fun e => e.state == .ready && ((m.nodeOf e.key).map fun (i, g, n) =>
    let d := m.draft i.ptn
    (n.isChain && ((d.chain (n.par 17 8)).map fun w => w.hall == h && w.bench.contains (b % 64)).getD false) ||
      g.nodes.any fun x => x.isFuse && (x.par 16 16 == n.index || x.par 32 16 == n.index) &&
        ((d.pipe (x.par 8 8)).map fun w => w.hall == h && w.bench.contains (b % 64)).getD false).getD false

/-- The remaining time of a firing on a bench, in ns, as its streams' TOTAL and RATE give it (R336). -/
def Module.remaining (m : Module) (h b : Nat) (k : FKey) : Nat :=
  (((m.hall h).contexts.filter fun c => c.key == k && c.bench == b).map fun c =>
    ceilDiv ((c.total - c.done) * 4) (5 * max 1 c.rate)).foldl max 0

/-- PREADMIT: a bench whose running firing nears its end takes its next one beside it (R336). -/
def execPreadmit (bench : BenchId) (s : State) : Host.Outcome State Fault Refusal :=
  s.on fun m =>
    let b := bench.val
    let h := b / 64
    let x := m.bench b
    match x.busy, m.chosen h b with
    | some k, some (e, ps) =>
      match m.firing e.key with
      | none => m
      | some f =>
        let need := ((m.asks f [b] [] 0).1.held.map (·.area)).sum
        if m.fld (halR h 0x200) 48 1 = 1 ∧ x.next.isNone ∧ x.heldFor.isNone ∧ !m.wantedBy h b ∧
            m.remaining h b k < m.fld (halR h 0x200) 0 16 ∧ (m.hall h).areaUsed b + need ≤ 0x100000 ∧
            (m.pwr.mode = .joined ∨ m.pwr.mode = .draining) then
          let m := (m.useTurn h b e.ptn ps).count (halR h 0x218) 32 32
          let m := (m.setBench b fun y => { y with next := some e.key }).setEntry e.key fun y => { y with preadm := true }
          m.start f [b] []
        else m
    | _, _ => m

/-- The context of a hall by number. -/
def Hall.ctx (h : Hall) (c : Nat) : Option Context := h.contexts.find? fun x => x.idx == c

/-- The ranges of region addresses of one request: as many as lie in the page of the first byte (R333). -/
def inPage (lo hi : Nat) : List (Nat × Nat) → List (Nat × Nat)
  | [] => []
  | s :: ss => if s.1 < lo ∨ hi ≤ s.1 then [] else if s.2 ≤ hi then s :: inPage lo hi ss else [(s.1, hi)]

/-- The page that holds a region address, as a range of region addresses. -/
def Module.pageSpan (m : Module) (p ra : Nat) : Nat × Nat :=
  match m.regionAt p ra with
  | some g =>
    let lo := g.info.base + (ra - g.info.base) / 2 ^ g.info.shift * 2 ^ g.info.shift
    (lo, lo + 2 ^ g.info.shift)
  | none => (ra, ra + 1)

/-- The engine serves a context in this cycle: it is among the first eight of the ACTIVE contexts that have bytes to move, in order of
their dry time and then of their number (R333; log entry 180, DEDUCED). -/
def Hall.served (h : Hall) (c : Context) : Bool :=
  decide ((h.contexts.countP fun x => x.state == 1 && (decide (x.done < x.total) || (x.kind == 2 && x.total == 0)) &&
    decide (x.dt < c.dt ∨ (x.dt = c.dt ∧ x.idx < c.idx))) < 8)

/-- One request of at most 2 KiB of a read or write stream completes (R333, R337): it carries its tensor's HINT, its position moves on,
or it halts or faults at a page. One for whose misses no miss register or tag is free is held back (R306, R315). What its ring then
holds is free. A sector of it that the check code cannot correct ends the node (R319). -/
def Module.request (m : Module) (h : Nat) (c : Context) (o : SectorOutcome) : Module :=
  match m.firing c.key with
  | none => m
  | some f =>
    let perm := if c.kind = 1 then permWrite else permRead
    let go (m : Module) (n : Nat) : Module :=
      let x := m.pick (min (c.ring * 1024) (c.fill + n) + 1)
      let m := x.2.count (halR h 0x210) 0 64 n
      let c' := { c with done := c.done + n, fill := x.1, state := if c.total ≤ c.done + n then 3 else 1 }
      m.setCtxs h (fun y => y.idx == c.idx) fun _ => { c' with dt := m.dryTime h c' }
    match f.allTensors.find? fun t => t.1 == c.port with
    | none => m
    | some (p, t) =>
      match m.streamRanges f t ((f.streamPart c.bench p (m.stored f t)).1 + c.done) (min 2048 (c.total - c.done)) with
      | [] => go m (min 2048 (c.total - c.done))
      | (a, b) :: rest =>
        let page := m.pageSpan f.ptn a
        let rs := inPage page.1 page.2 ((a, b) :: rest)
        let table := m.tableAt f.ptn a
        match m.translate f.ptn (streamMaster h) a (((rs.map (·.2)).foldl max a) - a) perm with
        | .ok key _ =>
          let cuts := rs.flatMap fun s => spanCuts (key + (s.1 - a)) (s.2 - s.1)
          if !(cuts.all fun x => m.canAccess f.ptn x.1 x.2 t.hint table (c.kind == 1)) then m
          else
            let m := m.cacheXlat (.hall h) f.ptn a (((rs.map (·.2)).foldl max a) - a)
            let m := cuts.foldl (fun (m : Module) x => m.access h f.ptn x.1 x.2 t.hint table (c.kind == 1) true) m
            let m := if c.kind = 1 then m else m.ecc (m.stackOfKey key) key ((rs.headD (a, b)).2 - a) 1 o
            if c.kind ≠ 1 ∧ rs.any fun s => m.poisonedIn (key + (s.1 - a)) (s.2 - s.1) then
              m.stopFiring f (.fault stFaultAddress none 2)
            else go m (rs.map fun s => s.2 - s.1).sum
        | .halt pg => m.haltAt h f.ptn c.key c.port pg
        | .fault st cause => m.stopFiring f (.fault st (some (a, cause, perm)) (if cause = 4 then 1 else 0))

/-- STREAM_REQUEST_COMPLETE: a request of an ACTIVE context completes, when the engine serves it; a copy moves its bytes with it. -/
def execStreamRequestComplete (hall : HallId) (ctx : Reading Byte) (s : State) : Host.Outcome State Fault Refusal :=
  s.on fun m =>
    match (m.hall hall).ctx ctx.what.toNat with
    | none => m
    | some c =>
      if c.state ≠ 1 ∨ !(m.hall hall).served c then m
      else if c.kind = 2 then
        match m.copying c.key with
        | some (f, s, d) => m.copyPart f s d c.done false
        | none => m
      else if c.total ≤ c.done then m
      else m.request hall c ctx.outcome

/-- STREAM_SLACK: a bench has waited on a stream for longer than SLACK (R334): counted once per stream, with a notice in a
real-time partition. -/
def execStreamSlack (hall : HallId) (ctx : Byte) (s : State) : Host.Outcome State Fault Refusal :=
  s.on fun m =>
    match (m.hall hall).ctx ctx.toNat with
    | none => m
    | some c =>
      if c.kind = 2 ∨ c.slackSaid then m
      else
        let m := (m.count (halR hall 0x220) 0 32).setCtxs hall (fun y => y.idx == c.idx) fun y => { y with slackSaid := true }
        if (m.draft c.ptn).part.mode = 1 then
          m.post 0x0302 (some c.ptn) c.key.inst.toNat
            (leBytes 4 c.key.inst.toNat ++ leBytes 2 c.key.node.toNat ++ leBytes 1 hall.val ++ leBytes 1 c.idx)
        else m

/-! ### Halt and resume (R337–R339) -/

/-- RESUME for the streams of a firing that is halted (R338): it goes on where it stopped. -/
def Module.resume (m : Module) (h : Nat) (k : FKey) : Module :=
  let mine (c : Context) : Bool := c.key == k && c.state == 2
  let n := max 1 ((m.hall h).contexts.countP mine)
  let m := m.setCtxs h mine fun c => { c with state := 1, status := 0 }
  ((m.count (halR h 0x228) 32 32 n).setEntry k fun e => { e with haltAt := none }).closeReady k

/-- The halted firings of a hall. -/
def Module.haltedIn (m : Module) (h : Nat) : List (FKey × Nat × Nat) :=
  (m.hall h).entries.filterMap fun e => e.haltAt.map fun page => (e.key, e.ptn, page)

/-- PAGE_RESUME: a page has become PRESENT, and every stream halted at it goes on, with the single accesses held back (R338). -/
def execPageResume (ptn : PtnId) (ra : Nat) (s : State) : Host.Outcome State Fault Refusal :=
  s.on fun m =>
    match m.regionAt ptn ra with
    | none => m
    | some g =>
      let page := g.info.base + (ra - g.info.base) / 2 ^ g.info.shift * 2 ^ g.info.shift
      if m.residencyCode ptn page ≠ 0 then m
      else
        let m := m.setPtn ptn fun x => { x with pagesSaid := x.pagesSaid.filter (· != page) }
        ((List.range 4).foldl (fun (m : Module) h =>
          (m.haltedIn h).foldl (fun (m : Module) x => if x.2.1 = ptn.val ∧ x.2.2 = page then m.resume h x.1 else m) m) m).retryAccesses

/-- A write of HAL_SRESUME: every stream of the masked partitions halted in the hall tries again; one whose page is still
absent halts again without a notice (R338). -/
def Module.sresume (m : Module) (hall mask : Nat) : Module :=
  (m.haltedIn hall).foldl (fun (m : Module) x =>
    if !mask.testBit x.2.1 then m
    else
      let port := (((m.hall hall).contexts.find? fun c => c.key == x.1 && c.state == 2).map (·.port)).getD 16
      let m := m.resume hall x.1
      if m.residencyCode x.2.1 x.2.2 = 0 then m else m.haltAt hall x.2.1 x.1 port x.2.2) m

/-- HAL_SRESUME. -/
def execHalSresume (hall : HallId) (mask : Byte) (s : State) : Host.Outcome State Fault Refusal :=
  s.on fun m => m.sresume hall.val mask.toNat

/-- HALT_LONG: a stream has stayed halted for HALTWARN ms; posted once per stream (R339). -/
def execHaltLong (hall : HallId) (ctx : Byte) (s : State) : Host.Outcome State Fault Refusal :=
  s.on fun m =>
    match (m.hall hall).ctx ctx.toNat with
    | none => m
    | some c =>
      let warn := m.fld (halR hall 0x200) 49 10
      match (m.entry c.key).bind (·.haltAt) with
      | some page =>
        if c.state ≠ 2 ∨ c.longSaid ∨ warn = 0 then m
        else
          let m := (m.until_ (c.haltAt + warn * 1000000)).setCtxs hall (fun y => y.idx == c.idx) fun y => { y with longSaid := true }
          m.post 0x0502 (some c.ptn) c.key.inst.toNat (m.pageDetail c.ptn page c.key ++ leBytes 1 c.idx)
      | none => m

/-! ### Fused commands (R342–R344) -/

/-- Nodes that a token path leads to from a node of the graph, without REMOTE destinations. -/
def Graph.reach (g : Graph) (n : Nat) : List Nat :=
  go g.nodes.length [] [n]
where
  next (l : List Nat) : List Nat :=
    (l.flatMap fun i => ((g.nodes[i]?).map fun x => (x.dest.filter fun d => d.valid && !d.remote).map (·.node)).getD [])
  go : Nat → List Nat → List Nat → List Nat
    | 0, seen, _ => seen
    | k + 1, seen, l =>
      let new := (next l).eraseDups.filter fun i => !seen.contains i
      if new.isEmpty then seen else go k (seen ++ new) new

/-- Bytes of one row of a tensor's tiles. -/
def Tensor.tileRow (t : Tensor) : Nat := ceilDiv t.dim0 32 * 1024 * t.bits / 8

/-- The receive buffer in tiles (R344). -/
def Tensor.recvTiles (t : Tensor) : Nat := if 2 * t.tileRow ≤ 262144 then 2 * ceilDiv t.dim0 32 else ceilDiv t.dim0 32

def Dest.isZero (d : Dest) : Bool := d.node == 0 && d.port == 0 && d.sel == 0 && d.member == 0 && !d.remote && !d.valid

/-- The rules of a FUSE node (R340, R342). -/
def fuseRules (x : RuleEnv) : List Rule :=
  let n := x.n
  let g := x.g
  let t := n.opnd.getD 0 0xFFFF
  let w := x.d.pipe (n.par 8 8)
  let p := g.nodes[n.prod]?
  let c := g.nodes[n.cons]?
  let at_ (q : Option Node) (e : Nat) : Bool := (q.map fun q => ((x.d.set q.bset).map fun s => (w.map fun w =>
    s.hall == w.hall && ((w.bench[e]?).map fun b => s.mask.testBit b).getD false).getD false).getD false).getD false
  let group := g.fusedWith n.prod
  let benches := group.flatMap (g.pipeBench x.d)
  [x.onNode 0x30 (n.par 2 6 == 0 && n.par 49 15 == 0), x.onNode 0x04 (n.nports == 1), x.onNode 0x05 (n.dyn == 0),
   (n.dest.all Dest.isZero, g.nodeAt n 0x20),
   x.onNode 0x30 w.isSome,
   x.onNode 0x30 ((p.map fun p => (p.op == 0x20 || p.op == 0x30) && p.res.getD 0 0xFFFF == t &&
     (p.op == 0x30 || (p.par 16 1 == 0 && p.par 4 2 != 3))).getD false && at_ p 0),
   x.onNode 0x30 ((c.map fun c => c.opnd.getD 0 0xFFFF == t && !c.dyn.testBit 0 && decide (1 ≤ c.nports) &&
     ((c.op == 0x20 && c.par 1 1 == 0 && c.par 16 1 == 0) || (c.op == 0x30 && c.par 14 1 == 0))).getD false && at_ c 1),
   x.onPort 0 1 fun t => t.layout == 1 || t.layout == 3,
   x.onPort 0 2 fun t => t.space == 0 || t.space == 2,
   x.onNode 0x30 (!(g.reach n.prod).contains n.cons),
   x.onPort 0 4 fun t => decide (t.tileRow ≤ 262144),
   x.onNode 0x30 (decide (group.length ≤ 8) && (g.links group).length + 1 == group.length &&
     benches.length == group.length && benches.eraseDups.length == benches.length),
   x.onNode 0x30 (g.fuses.countP (fun y => y.prod == n.prod) == 1 && g.fuses.countP (fun y => y.cons == n.cons) == 1)]

/-- FUSE: executed by the engine at once; it moves nothing and sends nothing (R342). -/
def execFuse (k : FKey) (s : State) : Host.Outcome State Fault Refusal :=
  s.on fun m =>
    match m.storeFiring k 0x40 with
    | some f => if f.n.par 0 2 = 1 then m.storeRun f (storeStatus f.e) [] else m
    | none => m

/-- The hand-over of one link. -/
def linkOf (g : Graph) (k : FKey) (x : Node) (buf : Nat) : GroupSt :=
  let t := (g.tensors[x.opnd.getD 0 0xFFFF]?).getD default
  { prod := { k with node := BitVec.ofNat 16 x.prod }, cons := { k with node := BitVec.ofNat 16 x.cons }
    pipe := x.par 8 8, credits := t.recvTiles, buffer := t.recvTiles, tiles := t.tiles, wb := x.par 48 1 == 1, buf := buf }

/-- FUSED_GROUP_DISPATCH: once every node of the group is READY at the generation, every bench is free and the group's turn has come,
the group is dispatched as one firing and its streams asked for in one admission (R79, R343, R328). -/
def execFusedGroupDispatch (k : FKey) (s : State) : Host.Outcome State Fault Refusal :=
  s.on fun m =>
    match m.fusedGroup k with
    | none => m
    | some (fs, links, g) =>
      let keys := fs.map (·.1.key)
      let bs := fs.map (·.2)
      let p := ((fs.head?).map (·.1.e.ptn)).getD 0
      let may := m.teamMay (keys.headD k) p (fs.any (·.1.e.chainHold)) bs
      if !(fs.all (fun f => m.idleFor keys f.2 && !m.barred f.1.e)) || !may then m
      else
        let h := ((fs.head?).map (·.1.e.hall)).getD 0
        let m := (m.teamTurns p bs).unhold keys
        let groups : List GroupSt := links.zipIdx.map fun (x, j) => linkOf g k x (m.nextBuf + j)
        let m : Module := { m with groups := m.groups ++ groups, nextBuf := m.nextBuf + groups.length }
        let m := m.count (halR h 0x230) 32 32
        let run := fs.foldl (fun (acc : Module × Option Admission) f =>
          let m := acc.1.setBench f.2 fun x => { x with busy := some f.1.key }
          let x := m.begin_ f.1 [f.2] []
          if !x.2 then (x.1, acc.2)
          else
            let skip := (groups.flatMap fun y => (if y.cons == f.1.key then [0] else []) ++
              (if y.prod == f.1.key && !y.wb then [8] else []))
            let recv := ((groups.find? fun y => y.cons == f.1.key).bind fun y =>
              (f.1.tensor 0).map fun t => y.buffer * 1024 * t.bits / 8).getD 0
            let a := x.1.asks f.1 [f.2] skip recv
            (a.2, some (match acc.2 with
              | some b => b.with a.1
              | none => a.1))) (m, none)
        match run.2 with
        | some a => run.1.offer h a
        | none => run.1

/-- A READY chain node or fused group, with its benches and the local time since which it has been READY. -/
def Module.waiting (m : Module) (k : FKey) : Option (List Nat × Nat) :=
  match m.chainOf k with
  | some (f, bs) => if f.e.state == .ready then some (bs, f.e.readySince) else none
  | none => (m.fusedGroup k).map fun g => (g.1.map (·.2), (g.1.map (·.1.e.readySince)).foldl max 0)

/-- A READY chain node or fused group has waited longer than HAL_XCTL.CHHOLD while one of its benches is busy: each of its benches
takes no other work until all are free (R213, R217, R343). -/
def execChainHoldExpire (k : FKey) (s : State) : Host.Outcome State Fault Refusal :=
  s.on fun m =>
    match m.waiting k with
    | none => m
    | some (bs, since) =>
      if bs.any fun b => (m.bench b).busy.isSome then
        let m := m.until_ (since + m.fld (halR (bs.headD 0 / 64) 0x140) 0 16 + 1)
        let m := bs.foldl (fun m b => m.setBench b fun x => { x with heldFor := some k }) m
        m.setEntry k fun e => { e with chainHold := true }
      else m

/-- Both ends of a hand-over may pass tiles: the producer has run with a valid result and neither is halted (R214, R337). -/
def Module.passing (m : Module) (g : GroupSt) : Bool :=
  ((m.entry g.prod).map fun e => e.ran && resultValid e.status).getD false &&
    ((m.entry g.cons).map fun e => e.launched && !e.ran && e.haltAt.isNone).getD false

/-- Zero-tile prediction at the consumer of a zero-bitmap tensor (R235). -/
def Module.predict (m : Module) (g : GroupSt) (tile : Nat) : Module :=
  match m.firing g.cons with
  | none => m
  | some f =>
    match f.tensor 0 with
    | none => m
    | some t =>
      if f.n.op = 0x20 ∧ t.layout = 3 ∧ m.fld (bchR f.bench 0x100) 0 1 = 1 then
        let p : Placed := { t := t, key := bufKey g.buf 0 }
        let w := ceilDiv t.dim0 32
        let guess := decide (w ≤ tile % (w * ceilDiv t.dim1 32)) && p.zbMap m.mem (tile - w)
        match guess, p.zbMap m.mem tile with
        | true, false => m.count (bchR f.bench 0x118) 32 32
        | false, true => m.count (bchR f.bench 0x128) 0 32
        | _, _ => m
      else m

/-- PIPE_TILE_ARRIVE: the next tile of a hand-over passes the pipe and takes a credit (R344). -/
def execPipeTileArrive (k : FKey) (tile : Nat) (s : State) : Host.Outcome State Fault Refusal :=
  s.on fun m =>
    match m.groups.find? fun g => g.cons == k with
    | none => m
    | some g =>
      if tile = g.sentTiles ∧ g.sentTiles < g.tiles ∧ 0 < g.credits ∧ m.passing g then
        let pass (y : GroupSt) : GroupSt := { y with credits := y.credits - 1, sentTiles := y.sentTiles + 1 }
        ({ m with groups := updWhere (fun y => y.cons == k) pass m.groups } : Module).predict g tile
      else m

/-- FUSE_CREDIT_RETURN: the consumer has finished with a tile (R344). -/
def execFuseCreditReturn (k : FKey) (s : State) : Host.Outcome State Fault Refusal :=
  s.on fun m =>
    let back (y : GroupSt) : GroupSt := { y with credits := y.credits + 1 }
    { m with groups := updWhere (fun y => y.cons == k && decide (y.credits < y.buffer)) back m.groups }

/-! ### Barriers (R345, R346) -/

def barrierRules (x : RuleEnv) : List Rule := [x.onNode 0x30 (x.n.par 2 62 == 0)]

/-- What a barrier waits for: every firing of its scope dispatched before, in any hall of the member, barriers apart. -/
def Module.scopeOf (m : Module) (f : Firing) : List FKey :=
  (m.halls.flatMap (·.entries)).filterMap fun e =>
    if e.state == .executing && (if f.n.par 0 1 = 1 then e.ptn == f.ptn else e.key.inst == f.key.inst) &&
        ((m.nodeOf e.key).map fun x => x.2.2.op != 0x41).getD false then some e.key else none

/-- BARRIER fires: it takes its set; operand tokens without a valid result end it at once (R59, R345). -/
def execBarrier (k : FKey) (s : State) : Host.Outcome State Fault Refusal :=
  s.on fun m =>
    match m.storeFiring k 0x41 with
    | none => m
    | some f =>
      let h := f.e.hall
      let waits := m.scopeOf f
      let m := (m.setEntry k fun e => { e with state := .executing, launched := true }).promote h
      match tokensStatus f.e.statuses with
      | .inl st => m.setEntry k fun e => { e with ran := true, status := st }
      | .inr st =>
        (m.setEntry k fun e => { e with status := st }).setHall h fun x => { x with barriers := x.barriers ++
          [{ key := k, ptn := f.ptn, hall := h, hold := f.n.par 1 1 == 1, scopePtn := f.n.par 0 1 == 1, waits := waits }] }

/-- BARRIER_RELEASE: every member of the set has ended, one of a cancelled instance counting as ended; the barrier's
tokens leave and its HOLD is lifted (R345). -/
def execBarrierRelease (k : FKey) (s : State) : Host.Outcome State Fault Refusal :=
  s.on fun m =>
    match m.firing k with
    | none => m
    | some f =>
      let h := f.e.hall
      match (m.hall h).barriers.find? fun b => b.key == k with
      | none => m
      | some b =>
        if b.waits.any fun w => !((m.inst w.inst).map (·.cancelled)).getD true then m
        else
          let m := (m.setHall h fun x => { x with barriers := x.barriers.filter (·.key != k) }).count (halR h 0x230) 0 32
          let m := m.setEntry k fun e => { e with ran := true }
          match m.firing k with
          | some f => m.endFiring f
          | none => m

end Sys2Proof.Machine
end

