-- ==== Sys2Proof/Machine/Serving.lean ====
section
/-! DEFINITION. Serving requests (R349–R377): capsules and their checks, the admitting member, the tally, rounds and
admission (R54, R168), CANCEL and QUERY, and the retentions. -/
namespace Sys2Proof.Machine

/-! ### Capsules (R349–R352) -/

/-- A list entry of a capsule (R350). -/
structure ListEntry where
  addr : Nat
  key  : Nat
  len  : Nat
  inl  : Bool
  deriving DecidableEq, Repr, Inhabited

def listEntry (bs : List Byte) : ListEntry :=
  { addr := fieldAt bs 0 8, key := fieldAt bs 8 4, len := fieldAt bs 12 4 % 2 ^ 31, inl := decide (2 ^ 31 ≤ fieldAt bs 12 4) }

/-- The offset in the capsule of list entry `i`, counted through both lists. -/
def listAt (c : Capsule) (i : Nat) : Nat := 64 + c.listoff.toNat + 16 * i
def listEntries (c : Capsule) (first n : Nat) : List ListEntry :=
  (List.range n).map fun i => listEntry (slice c.inl (c.listoff.toNat + 16 * (first + i)) 16)
def inputsOf (c : Capsule) : List ListEntry := listEntries c 0 c.nin.toNat
def outputsOf (c : Capsule) : List ListEntry := listEntries c c.nin.toNat c.nout.toNat
/-- The pin list: table and edition (R350). -/
def pinsOf (c : Capsule) : List (Nat × Nat) :=
  (List.range c.npin.toNat).map fun i =>
    (fieldAt c.inl (c.pinoff.toNat + 8 * i) 4, fieldAt c.inl (c.pinoff.toNat + 8 * i + 4) 4)

def isMailbox (c : Capsule) : Bool := c.flags.toNat.testBit 0
/-- The mailbox slot that a capsule names; none below 2^32 where it has no result entry. -/
def slotOf (c : Capsule) : Nat := ((outputsOf c).head?.map (·.addr)).getD (2 ^ 32)

/-- The delivery that a capsule asks for on a queue pair. -/
def deliveryOf (qp : Nat) (c : Capsule) : Delivery :=
  { qp := qp, cseq := c.cseq, flags := c.flags, slot := slotOf c
    outs := if isMailbox c then [] else (outputsOf c).map fun o => (o.addr, o.key, o.len) }

/-- The command codes of R351. -/
def opcKnown (o : Nat) : Bool :=
  within o 0x01 0x03 || o == 0x10 || o == 0x11 || within o 0x20 0x22 || o == 0x30 || o == 0x31 || within o 0x40 0x44 ||
    o == 0x50 || o == 0x51

/-- The operand bits that R351 names in each of the three operands. -/
def argBits (o : Nat) : Nat × Nat × Nat :=
  let all := 2 ^ 64 - 1
  match o with
  | 0x02 | 0x03 | 0x21 | 0x22 | 0x42 | 0x43 => (all, 0, 0)
  | 0x30 | 0x31 | 0x44 => (all, all, 0)
  | 0x40 => (2 ^ 40 - 1, 0, 0)
  | 0x41 => (all, all, all)
  | 0x50 => (all - (2 ^ 32 - 2 ^ 8), all, all)
  | 0x51 => (255, 0, 0)
  | _ => (0, 0, 0)

/-- No bit outside a mask. -/
def onlyBits (v mask : Nat) : Bool := v &&& mask == v

/-- The checks of R352's first four conditions, in order, each with the offset of its field: R6 and R13 on the header and
the list entries, the lists, REQID, NPIN. -/
def capsuleRules (c : Capsule) : List (Bool × Nat) :=
  let o := c.opc.toNat
  let run := o == 0x01
  let a := argBits o
  let nin := c.nin.toNat
  let nout := c.nout.toNat
  let drain := o == 0x21 || o == 0x22
  let ins := inputsOf c
  let outs := outputsOf c
  [(opcKnown o, 0x00), (decide (c.flags.toNat < 8), 0x01), (decide (c.ptn.toNat < 8), 0x02),
   (if run then decide (c.policy.toNat < 2) else c.policy == 0, 0x03),
   (decide (c.inlen.toNat ≤ 4096) && c.inlen.toNat % 16 == 0 && c.inl.length == c.inlen.toNat, 0x04),
   (decide (c.target.toNat < 64) || c.target == 0xFF, 0x06), (c.rsv07 == 0, 0x07),
   (run || o == 0x11 || c.handle == 0, 0x10),
   (decide (nin ≤ 64), 0x20), (decide (nout ≤ 64), 0x21), (c.listoff.toNat % 16 == 0, 0x22), (run || c.npin == 0, 0x24),
   (c.pinoff.toNat % 8 == 0, 0x26),
   (onlyBits c.arg0.toNat a.1 && (!drain || c.arg0 == 0 || within c.arg0.toNat 100 1000000), 0x28),
   (o != 0x40 || decide (c.arg0.toNat / 2 ^ 32 % 256 < 2), 0x2C),
   (onlyBits c.arg1.toNat a.2.1 && (o != 0x44 || decide (c.arg1.toNat ≤ 1000000)), 0x30), (onlyBits c.arg2.toNat a.2.2, 0x38),
   (decide (c.listoff.toNat + 16 * (nin + nout) ≤ c.inlen.toNat) || nin + nout == 0, 0x22)] ++
  (ins.zipIdx.flatMap fun (e, i) =>
    [(!e.inl || decide (e.addr + e.len ≤ c.inlen.toNat), listAt c i), (!e.inl || e.key == 0, listAt c i + 8)]) ++
  (outs.zipIdx.flatMap fun (e, i) =>
    [(!isMailbox c || i == 0 || e.addr == 0, listAt c (nin + i)), (!isMailbox c || e.key == 0, listAt c (nin + i) + 8),
     (!e.inl, listAt c (nin + i) + 12)]) ++
  [(decide (c.pinoff.toNat + 8 * c.npin.toNat ≤ c.inlen.toNat) || c.npin == 0, 0x26), (c.reqid != 0, 0x08),
   (c.npin == 0 || c.policy == 1, 0x24)]

/-- The first rule that fails. -/
def capsuleFault (c : Capsule) : Option Nat := ((capsuleRules c).find? fun r => !r.1).map (·.2)

/-- A graph is effectful (R173, R351). -/
def Graph.effectful (g : Graph) : Bool := g.nodes.any fun n => n.op == 0x11 || n.op == 0x50

/-- A command is effectful (R351). -/
def Module.effectful (m : Module) (c : Capsule) : Bool :=
  match c.opc.toNat with
  | 0x01 => ((m.loaded (c.ptn.toNat % 8) c.handle.toNat).map (·.effectful)).getD false
  | 0x02 => false
  | 0x03 => false
  | _ => true

/-- The digest of the fields that make two capsules the same command (R363). -/
def digestOf (c : Capsule) : List Byte :=
  leBytes 1 c.opc.toNat ++ leBytes 1 c.ptn.toNat ++ leBytes 8 c.handle.toNat ++ leBytes 1 c.nin.toNat ++
    leBytes 1 c.nout.toNat ++ leBytes 8 c.arg0.toNat ++ leBytes 8 c.arg1.toNat ++ leBytes 8 c.arg2.toNat

/-! ### The admitting member (R353, R441, R442) -/

/-- The member admits commands of a partition: JOINED, not DRAINING, and its partition not impaired. -/
def Module.admits (m : Module) (p : Nat) : Bool := m.pwr.mode == .joined && !(m.ptn p).impaired

/-- The next JOINED member, in member order, after this one. -/
def Module.nextMember (m : Module) : Option Nat :=
  let g := m.guildSize
  ((List.range g).map fun j => (m.member + 1 + j) % g).find? fun x => m.isJoined x && x != m.member

/-- The member that admits a command (R353): in QUARANTINE this one. -/
def Module.admitter (m : Module) (c : Capsule) (effectful : Bool) : Nat :=
  let t := c.target.toNat
  let ok (k : Nat) : Bool := m.isJoined k && (k != m.member || m.admits (c.ptn.toNat % 8))
  if m.pwr.mode = .quarantine then m.member
  else if effectful then
    let k := if c.target = 0xFF then c.reqid.toNat % max 1 m.guildSize else t
    if ok k then k else (m.tallyTwin k).getD m.member
  else if c.target ≠ 0xFF ∧ ok t then t
  else if ok m.member then m.member
  else (m.nextMember).getD m.member

/-! ### Refusals (R352) -/

/-- A refused capsule completes with ABORTED where it came from, with nothing executed; `dup` is the flag DUP of a duplicate (R364). -/
def Module.refuseTo (m : Module) (o : Origin) (dup : Nat := 0) : Module :=
  let c := o.capsule
  let a : Answer := { status := stAborted, flags := 0, reqid := c.reqid, opc := c.opc.toNat, ptn := c.ptn.toNat % 8
                      member := m.member, value := 0, elapsed := 0, results := [] }
  match o.own with
  | some d => m.enqueue d.qp (a.completion d dup 0 0)
  | none => m.sendTo o.recv 0 (.reply c (replyData { a with flags := 0x8000 + dup }) stAborted 0)

/-- The refusal of R352, with its notice. -/
def Module.refuse (m : Module) (o : Origin) (off : Nat) : Module :=
  let c := o.capsule
  ((m.refuseTo o).count (ctrR 0x078) 32 32).post 0x0105 (some (c.ptn.toNat % 8)) c.reqid.toNat
    (leBytes 8 c.reqid.toNat ++ leBytes 1 c.opc.toNat ++ leBytes 4 off)

/-- The conditions of R352 on the partition, on QUARANTINE and on the mailbox slot, for a request that no tally holds. -/
def Module.lateFault (m : Module) (o : Origin) : Option Nat :=
  let c := o.capsule
  let opc := c.opc.toNat
  if (m.ptn (c.ptn.toNat % 8)).draft.isNone && opc != 0x20 && opc != 0x21 && opc != 0x03 then some 0x02
  else if m.pwr.mode = .quarantine ∧ opc ≠ 0x20 ∧ opc ≠ 0x21 ∧ opc ≠ 0x10 ∧ opc ≠ 0x03 then some 0x00
  else match o.own with
    | none => none
    | some d =>
      let st := (((m.qp d.qp).bind fun q => q.slots[d.slot]?).map (·.state)).getD 0
      if isMailbox c && (st == 1 || st == 2) then some (listAt c c.nin.toNat) else none

/-! ### Duplicates (R364) -/

/-- A duplicate of a command that the tally holds; each that gets its completion is counted. -/
def Module.duplicate (m : Module) (p : Nat) (e : TallyEntry) (o : Origin) : Module :=
  let c := o.capsule
  if digestOf c ≠ e.digest then
    ((m.refuseTo o 4).count (ptnR p 0xD8) 32 32).post 0x0A02 (some p) c.reqid.toNat (leBytes 8 c.reqid.toNat ++ leBytes 1 e.opc ++ leBytes 1 c.opc.toNat)
  else if e.done then m.answerDup (m.answerOf p e) e e.retained o
  else if 8 ≤ e.attached.length then
    ((m.refuseTo o 4).count (ptnR p 0xD8) 32 32).post 0x0A03 (some p) c.reqid.toNat (leBytes 8 c.reqid.toNat)
  else m.setTally p c.reqid fun x => { x with attached := x.attached ++ [o] }

/-! ### The tally (R363, R365, R366) -/

/-- The partition's tally can take no entry: full, with every entry IN_FLIGHT (R365). -/
def Module.tallyStuck (m : Module) (p : Nat) : Bool :=
  decide (1048576 ≤ (m.ptn p).tally.length) && (m.ptn p).tally.all fun e => !e.done

/-- Evict the oldest DONE entry of a full tally (R365). -/
def Module.evictTally (m : Module) (p : Nat) : Module :=
  if (m.ptn p).tally.length < 1048576 then m
  else
    match ((m.ptn p).tally.filter (·.done)).foldl (fun (b : Option TallyEntry) e => match b with
        | none => some e
        | some x => if e.doneAt < x.doneAt then some e else some x) none with
    | none => m
    | some e =>
      let m := m.setPtn p fun x => { x with tally := x.tally.filter fun y => y.reqid != e.reqid }
      if e.doneAt + 10000000000 ≤ m.ltime then m
      else
        let m := (m.count (ptnR p 0xE0) 0 32).setPtn p fun x => { x with earlySince := x.earlySince + 1 }
        let due := ((m.ptn p).lastEarly.map fun t => decide (t + 100000000 ≤ m.ltime)).getD true
        if due then
          (m.post 0x0A01 (some p) e.reqid.toNat (leBytes 8 e.reqid.toNat ++ leBytes 4 ((m.ltime - e.doneAt) / 1000000) ++
            leBytes 4 (m.ptn p).earlySince)).setPtn p fun x => { x with lastEarly := some m.ltime, earlySince := 0 }
        else m

/-- Bytes of input staging that a capsule needs: its entries that are not inline (R456). -/
def stagingOf (c : Capsule) : Nat := if c.opc = 0x01 then (((inputsOf c).filter fun e => !e.inl).map (·.len)).sum else 0

/-- A command at its admitting member (R363–R366): a duplicate is answered from its record; a command that must wait for
an entry, for its twin or for staging waits holding nothing; any other is entered in the tally, and in the twin's where it
is effectful, and then runs. -/
def Module.enter (m : Module) (o : Origin) (arrival elapsed : Nat) (data : List Byte)
    (run : Module → Capsule → List Byte → Module) : Module :=
  let c := o.capsule
  let p := c.ptn.toNat % 8
  let eff := m.effectful c
  match m.tallyOf p c.reqid with
  | some e => m.duplicate p e o
  | none =>
    match m.lateFault o with
    | some off => m.refuse o off
    | none =>
      if m.tallyStuck p || (eff && m.guild.twinCopy) || (c.opc == 0x20 && (m.ptn p).cand.isSome) || decide (2 ^ 30 < m.ctr.stagedBytes + stagingOf c) then
        m.setPtn p fun x => { x with blocked := x.blocked ++ [{ origin := o, arrival := arrival, elapsed := elapsed, data := data }] }
      else
        let m := m.evictTally p
        let box := match o.own with
          | some d => if isMailbox c then some (d.qp, d.slot) else none
          | none => if isMailbox c then some (0, slotOf c) else none
        let e : TallyEntry :=
          { reqid := c.reqid, opc := c.opc.toNat, digest := digestOf c, budget := c.budget.toNat, elapsed := elapsed
            arrival := arrival, mailbox := box, own := o.own, effectful := eff, recv := o.recv, capsule := some c }
        let m := m.setPtn p fun x => { x with tally := x.tally ++ [e] }
        let m := match eff, m.tallyTwin m.member with
          | true, some t => m.sendTo t 3 (.bulk 2 p (tallyBytes e))
          | _, _ => m
        let m := match o.own with
          | some d =>
            let fill (s : Slot) : Slot := { reqid := c.reqid, state := 1, fills := s.fills }
            if isMailbox c then m.setQp d.qp fun q => { q with slots := q.slots.modify d.slot fill } else m
          | none => m
        run m c data

/-- A queue pair that takes capsules: open, of kind CMD, on a member that takes commands (R452, R466). -/
def Module.takesCapsules (m : Module) (qp : Nat) : Bool :=
  ((m.qp qp).map fun q => q.kind == 0 && !q.err).getD false &&
    (m.pwr.mode == .joined || m.pwr.mode == .quarantine || m.pwr.mode == .draining)

/-- The mailbox slot of a delivery. -/
def Module.slotAt (m : Module) (d : Delivery) : Option Slot := (m.qp d.qp).bind fun q => q.slots[d.slot]?

/-- A command that goes to another member (R353, R375): a slot that holds another request refuses it here; a free slot is
FILLING from now on (log entry 32, DEDUCED). -/
def Module.forward (m : Module) (o : Origin) (d : Delivery) (k : Nat) (send : Module → Module) : Module :=
  let c := o.capsule
  let st := ((m.slotAt d).map (·.state)).getD 0
  let busy := isMailbox c && (st == 1 || st == 2)
  if busy && ((m.slotAt d).map (·.reqid)) != some c.reqid then m.refuse o (listAt c c.nin.toNat)
  else
    let fill (s : Slot) : Slot := { reqid := c.reqid, state := 1, fills := s.fills }
    let m := if isMailbox c && !busy then m.setQp d.qp fun q => { q with slots := q.slots.modify d.slot fill } else m
    (send m).setCtr fun x => { x with forwarded := x.forwarded ++ [{ origin := o, waits := [k] }] }

/-- A capsule arrives on a queue pair with one command's code (R352, R353): it is checked, then entered here, or forwarded
to its admitting member. A code that no command has is refused; a capsule of another command is not this command's. -/
def Module.capsule (m : Module) (opc qp : Nat) (c : Capsule) (data : List Byte)
    (run : Module → Capsule → List Byte → Module) : Module :=
  if !m.takesCapsules qp || (c.opc.toNat != opc && opcKnown c.opc.toNat) then m
  else
    let m := m.count (ctrR 0x078) 0 32
    let o : Origin := { own := some (deliveryOf qp c), recv := m.member, capsule := c }
    match capsuleFault c with
    | some off => m.refuse o off
    | none =>
      let k := m.admitter c (m.effectful c)
      if k = m.member then m.enter o m.ltime 0 data run
      else
        m.forward o (deliveryOf qp c) k fun m => m.sendTo k 0 (.command 0 c data)

/-! ### RUN: fetching and forming (R350, R355) -/

/-- The contents of the input entries, in order: those inline from the capsule, the others as fetched, cut to LEN. -/
def inputBytes (c : Capsule) (fetched : List (List Byte)) : List (List Byte) :=
  go (inputsOf c) fetched
where
  go : List ListEntry → List (List Byte) → List (List Byte)
    | [], _ => []
    | e :: es, fs =>
      if e.inl then slice c.inl e.addr e.len :: go es fs
      else match fs with
        | f :: fs => slice f 0 e.len :: go es fs
        | [] => List.replicate e.len 0 :: go es []

/-- The RDMA READs for a capsule's inputs (R350). -/
def Module.fetchInputs (m : Module) (qp : Nat) (c : Capsule) : Module :=
  ((inputsOf c).filter fun e => !e.inl).foldl (fun (m : Module) e => m.send (.rdmaRead qp e.addr e.key e.len)) m

/-- A RUN that has its inputs joins the open window; while no window is open it waits for one (R355, R359). -/
def Module.joinWindow (m : Module) (p : Nat) (reqid : Word) : Module :=
  let x := m.ptn p
  let st := if x.rounds.isOpen then ReqState.window else ReqState.held
  m.setPtn p fun y => { y with requests := updWhere (fun r => r.reqid == reqid) (fun r => { r with state := st }) y.requests }

/-- Stage input bytes as buffers of the model. -/
def Module.stage (m : Module) (bs : List (List Byte)) : List (Nat × Nat) × Module :=
  bs.foldl (fun (acc : List (Nat × Nat) × Module) b =>
    (acc.1 ++ [(acc.2.nextBuf, b.length)],
      ({ acc.2 with nextBuf := acc.2.nextBuf + 1 } : Module).store (bufKey acc.2.nextBuf 0) b)) ([], m)

/-- A request of a RUN capsule. -/
def Module.request_ (m : Module) (qp : Nat) (c : Capsule) (dest : Nat) : Request :=
  let p := c.ptn.toNat % 8
  { reqid := c.reqid, ptn := p, qp := qp, capsule := c, arrival := m.ltime, deadline := none, state := .fetching
    staged := stagingOf c, dest := dest, recv := m.member }

/-- RUN on its admitting member: its inputs are fetched, or came with it from the receiving member (R350, R353). -/
def Module.runStart (m : Module) (c : Capsule) (data : List Byte) : Module :=
  let p := c.ptn.toNat % 8
  match m.tallyOf p c.reqid with
  | none => m
  | some e =>
    let qp := ((e.own).map (·.qp)).getD 0
    let r := m.request_ qp c m.member
    let r := { r with deadline := e.deadline, arrival := e.arrival, recv := e.recv }
    match e.own with
    | some _ =>
      let m := (m.setPtn p fun x => { x with requests := x.requests ++ [r] }).setCtr fun k =>
        { k with stagedBytes := k.stagedBytes + r.staged }
      m.fetchInputs qp c
    | none =>
      let lens := (inputsOf c).map (·.len)
      let parts := (lens.foldl (fun (acc : List (List Byte) × Nat) n => (acc.1 ++ [slice data acc.2 n], acc.2 + n)) ([], 0)).1
      let s := m.stage parts
      let m := (s.2.setPtn p fun x => { x with requests := x.requests ++ [{ r with inputs := s.1 }] }).setCtr fun k =>
        { k with stagedBytes := k.stagedBytes + r.staged }
      m.joinWindow p c.reqid

/-- RUN: checked, routed, and either entered here or, once its inputs are fetched, forwarded (R351–R353). -/
def execRun (qp : Nat) (c : Capsule) (s : State) : Host.Outcome State Fault Refusal :=
  s.on fun m =>
    let p := c.ptn.toNat % 8
    let k := m.admitter c (m.effectful c)
    if k = m.member ∨ (capsuleFault c).isSome ∨ (c.opc ≠ 0x01) ∨ !m.takesCapsules qp then m.capsule 0x01 qp c [] Module.runStart
    else
      let o : Origin := { own := some (deliveryOf qp c), recv := m.member, capsule := c }
      (m.count (ctrR 0x078) 0 32).forward o (deliveryOf qp c) k fun m =>
        (m.setPtn p fun x => { x with requests := x.requests ++ [m.request_ qp c k] }).fetchInputs qp c

/-- A RUN's inputs are all present: it joins the open window, or goes to its admitting member with the time already elapsed
(R354, R355). -/
def Module.inputsFetched (m : Module) (p : Nat) (reqid : Word) (inputs : List (List Byte)) : Module :=
  match (m.ptn p).requests.find? fun r => r.reqid == reqid && r.state == .fetching with
  | none => m
  | some r =>
    let bs := inputBytes r.capsule inputs
    if r.dest = m.member then
      let x := m.stage bs
      (x.2.setPtn p fun y => { y with requests := updWhere (fun q => q.reqid == reqid) (fun q => { q with inputs := x.1 }) y.requests }).joinWindow p reqid
    else
      (m.sendTo r.dest 1 (.command ((m.ltime - r.arrival) / 1000) r.capsule bs.flatten)).setPtn p fun y =>
        { y with requests := y.requests.filter fun q => q.reqid != reqid }

/-! ### Admission (R52, R54, R55, R76, R168) -/

/-- The tables that a graph reaches, each with the edition bound; none where a pin cannot be bound (R168, R284). -/
def Module.bindTables (m : Module) (p : Nat) (g : Graph) (pins : List (Nat × Nat)) (pinned : Bool) : Option (List (Nat × Nat)) :=
  let direct := ((g.tensors.filter (·.space == 3)).map Tensor.tableId).eraseDups
  let bound : Option (List (Nat × Nat)) := direct.mapM fun (t : Nat) => do
    let x : Table ← m.table t
    let want : Nat ← (if pinned then assocGet t pins else (x.editions.find? fun (e : Edition) => e.state == .current).map (·.num))
    let e : Edition ← x.edition want
    if e.state == .current || (pinned && e.state == .retiring && !e.reported) then some (t, want) else none
  bound.map fun bs => bs ++ bs.flatMap fun (t, e) =>
    match m.ggraph p t with
    | some gg => (gg.tables.drop 1).filterMap fun o =>
        if direct.contains o then none else (gg.pairEdition e o).map fun n => (o, n)
    | none => []

/-- The least offset at which an arena fits between those in use (R54). -/
def arenaFit (used : List (Nat × Nat)) (size total : Nat) : Option Nat :=
  ((0 :: used.map fun u => u.1 + u.2)).filter (fun o => decide (o + size ≤ total) &&
    used.all fun u => decide (o + size ≤ u.1 ∨ u.1 + u.2 ≤ o)) |>.foldl (fun (b : Option Nat) o => match b with
      | none => some o
      | some x => some (min x o)) none

/-- Every reservation of R54 step 2 can be had: within the partition's quotas, and within each hall's totals over all partitions
(R55). -/
def Module.canReserve (m : Module) (p : Nat) (g : Graph) : Bool :=
  let d := m.draft p
  (d.graphHalls g).all fun h =>
    let all := m.liveIn h
    let mine := all.filter fun x => x.1.ptn == p
    let fits (l : List (Inst × Graph)) (n slots readys : Nat) : Bool :=
      decide (l.length < n ∧ (l.map fun x => x.2.slotq).sum + g.slotq ≤ slots ∧ (l.map fun x => x.2.readyq).sum + g.readyq ≤ readys)
    fits mine (nth d.part.livemax h) (nth d.part.slots h) (nth d.part.readys h) && fits all 4096 61440 16384

/-- The instance number for a value of the 26-bit count (R51, R52). -/
def instNum (v member : Nat) : BitVec 32 := BitVec.ofNat 32 (v % 2 ^ 18 + member * 2 ^ 18 + v / 2 ^ 18 % 256 * 2 ^ 24)

/-- The next number that no instance has held within the last second (R52). -/
def Module.freshNum (m : Module) : Nat :=
  let ok (v : Nat) : Bool := !(m.insts.any fun i => i.num == instNum v m.member) &&
    ((assocGet v m.instLog).map fun t => decide (t + 1000000000 ≤ m.ltime)).getD true
  go ok (m.insts.length + m.instLog.length) (m.nextInst % 2 ^ 26)
where
  go (ok : Nat → Bool) : Nat → Nat → Nat
    | 0, v => v
    | n + 1, v => if ok v then v else go ok n ((v + 1) % 2 ^ 26)

/-- A node with no dynamic port goes to the ready list at GEN 0 (R54 step 4). Where no ready entry is free it waits for one as R67 says,
with no token and so with no slot of the completion reserve (log entry 153, DESIGN CHOICE). -/
def Module.placeStatic (m : Module) (i : Inst) (g : Graph) (n : Node) : Module :=
  let h := (m.draft i.ptn).nodeHall n
  let k : FKey := { inst := i.num, node := BitVec.ofNat 16 n.index, gen := 0 }
  let m' := m.setHall h fun x => { x with entries := x.entries ++
    [{ key := k, ptn := i.ptn, hall := h, state := .waitReady, tokens := [] }] }
  match m.readyFor h i g with
  | some p => m'.makeReady h k p
  | none => m'

/-- Create the instance of a request with its reservations and bindings (R54). -/
def Module.admitReq (m : Module) (r : Request) (g : Graph) (bs : List (Nat × Nat)) (arena : Nat) : Module :=
  let v := m.freshNum
  let outs := (outputsOf r.capsule).zipIdx.map fun (o, j) => (m.nextBuf + j, o.len)
  let i : Inst := { num := instNum v m.member, ptn := r.ptn, handle := g.handle, reqid := r.reqid, arenaBase := arena
                    inBufs := r.inputs, outBufs := outs, bindings := bs, startedAt := m.ltime, round := r.round, forLost := r.forLost }
  let m : Module := { m with insts := m.insts ++ [i], nextInst := (v + 1) % 2 ^ 26, nextBuf := m.nextBuf + outs.length }
  let m := m.setPtn r.ptn fun x =>
    let reqs := updWhere (fun q => q.reqid == r.reqid) (fun q : Request => { q with state := .executing }) x.requests
    { x with requests := reqs, arenaUsed := if g.arena = 0 then x.arenaUsed else x.arenaUsed ++ [(arena, g.arena)] }
  let m := (g.nodes.filter fun n => n.dyn == 0).foldl (fun m n => m.placeStatic i g n) m
  m.checkInst i.num

/-- What admission does with one request: `none` where its reservations fail (R356). -/
def Module.tryAdmit (m : Module) (r : Request) : Option Module :=
  let p := r.ptn
  let c := r.capsule
  let drop (m : Module) : Module :=
    ((m.setPtn p fun x => { x with requests := x.requests.filter fun q => q.reqid != r.reqid }).dropInputs r)
  match m.loaded p c.handle.toNat with
  | none =>
    let m := m.post 0x0101 (some p) c.reqid.toNat (leBytes 8 c.reqid.toNat ++ leBytes 4 0x10 ++ leBytes 8 c.handle.toNat)
    some (((drop m).recordDone p r.reqid stAborted 0).roundDone p r.round)
  | some g =>
    match m.bindTables p g (pinsOf c) (c.policy == 1) with
    | none => some (((drop m).recordDone p r.reqid stAborted 0).roundDone p r.round)
    | some bs =>
      let size := ((m.regionNo p (m.draft p).part.arenaRgn).map (·.info.size)).getD 0
      if m.canReserve p g then
        if g.arena = 0 then some (m.admitReq r g bs 0)
        else (arenaFit (m.ptn p).arenaUsed g.arena size).map fun a => m.admitReq r g bs a
      else none

/-- Admit what can be admitted of the requests that wait, in order; no request goes ahead of one of an earlier round
(R356). -/
def Module.admitWaiting (m : Module) (p : Nat) : Module :=
  if !(m.ptn p).admitting then m
  else
    (((m.ptn p).requests.filter fun r => r.state == .waiting).foldl (fun (acc : Module × Option Nat) r =>
      match acc.2 with
      | some stuck => if r.round = stuck then ((acc.1.tryAdmit r).getD acc.1, acc.2) else acc
      | none => match acc.1.tryAdmit r with
        | some m => (m, none)
        | none => (acc.1, some r.round)) (m, none)).1.checkDrain

/-! ### Rounds (R356–R358) -/

/-- The nominal period of a partition in ns (R75, R357). -/
def Module.period (m : Module) (p : Nat) : Nat :=
  let us := (m.draft p).part.roundUs
  (if us = 0 then 250 else us) * 1000

/-- A window opens (R357); at the floor it is counted, with a notice in a real-time partition (R358). Requests that waited
for it join it (R359). -/
def Module.openWindow (m : Module) (p : Nat) : Module :=
  let P := m.period p
  let owed := (m.ptn p).rounds.owed
  let w := max (P - owed) (P / 4)
  let m := m.setPtn p fun x =>
    let rd : Rounds := { x.rounds with isOpen := true, openedAt := m.ltime, width := w
                                       shortened := if w < P then x.rounds.shortened + 1 else x.rounds.shortened }
    { x with rounds := rd, requests := updWhere (fun r => r.state == .held) (fun r => { r with state := .window }) x.requests }
  if P - owed ≤ P / 4 then
    let m := m.count (ptnR p 0xD0) 32 32
    if (m.draft p).part.mode = 1 then
      m.post 0x0304 (some p) (m.ptn p).rounds.num (leBytes 4 (m.ptn p).rounds.num ++ leBytes 4 (owed / 1000))
    else m
  else m

/-- The open window closes: its requests form a round, and are admitted in arrival order (R356). -/
def Module.closeWindow (m : Module) (p : Nat) : Module :=
  let x := (m.ptn p).rounds
  let n := (m.ptn p).requests.countP fun r => r.state == .window
  let m := m.setPtn p fun y =>
    let rd : Rounds := { y.rounds with isOpen := false, num := x.num + 1, lastN := n
                                       due := if n = 0 then y.rounds.due else y.rounds.due ++ [(x.num, m.ltime + m.period p, n, n)] }
    let close (r : Request) : Request := { r with state := .waiting, round := x.num }
    { y with rounds := rd, requests := updWhere (fun r => r.state == .window) close y.requests }
  m.admitWaiting p

/-- ROUND_WINDOW_CLOSE: at its time the window closes, the lag falls by what the short window recovered, and the next
window opens (R356–R358). -/
def execRoundWindowClose (ptn : PtnId) (s : State) : Host.Outcome State Fault Refusal :=
  s.on fun m =>
    let p := ptn.val
    let x := (m.ptn p).rounds
    if !x.isOpen then m
    else
      let m := m.until_ (x.openedAt + x.width)
      let m := m.closeWindow p
      let owed := (m.ptn p).rounds.owed
      let left := owed - (m.period p - x.width)
      let m := m.setPtn p fun y => { y with rounds := { y.rounds with owed := left } }
      let m := if owed ≠ 0 ∧ left = 0 then
          let k := (m.ptn p).rounds.shortened
          let m := m.setPtn p fun y => { y with rounds := { y.rounds with shortened := 0 } }
          if (m.draft p).part.mode = 1 then m.post 0x0305 (some p) x.num (leBytes 4 x.num ++ leBytes 2 k) else m
        else m
      m.openWindow p

/-! ### CANCEL and QUERY (R56, R339, R371) -/

/-- Every EXIT firing of an instance has occurred (R54). -/
def Module.exited (m : Module) (i : Inst) : Bool :=
  ((m.graph i.ptn i.handle).map fun g => decide (g.exits ≤ i.exitsDone)).getD false

/-- Cancel an executing instance whose last EXIT firing has not occurred (R56): its tokens and its nodes that do not execute are gone
at once, and held producers resume (R69); its halted firings end at once, its barriers end with ABORTED and lift their HOLD (R339,
R345), and it completes when no node of it executes. An ALLREDUCE runs to the end of its collective (R427). -/
def Module.cancelInst (m : Module) (i : Inst) : Module :=
  if m.exited i then m
  else
    let m := ((m.setInst i.num fun x => { x with cancelled := true }).discardTokens i.num).promoteAll
    let mine := (m.halls.flatMap (·.entries)).filter fun e => e.key.inst == i.num && e.state == .executing
    let bars := (m.halls.flatMap (·.barriers)).filter fun b => b.key.inst == i.num
    let m : Module := { m with halls := m.halls.map fun h => { h with barriers := h.barriers.filter fun b => b.key.inst != i.num } }
    let coll (k : FKey) : Bool := ((m.nodeOf k).map fun x => x.2.2.op == 0x50).getD false
    let stop := (mine.filter fun e => e.haltAt.isSome && !coll e.key).map (·.key) ++ bars.map (·.key)
    let m := stop.foldl (fun (m : Module) k =>
      let m := m.setEntry k fun e => { e with ran := true, launched := true, haltAt := none, status := stAborted }
      match m.firing k with
      | some f => m.endFiring f
      | none => m) m
    m.checkInst i.num

/-- CANCEL on this member's own record of a request (R371). -/
def Module.cancel (m : Module) (p : Nat) (id : Word) : Module :=
  match (m.ptn p).blocked.find? fun b => b.origin.capsule.reqid == id with
  | some b => (m.setPtn p fun x => { x with blocked := x.blocked.filter fun y => y.origin.capsule.reqid != id }).refuseTo b.origin
  | none =>
    match (m.ptn p).requests.find? fun r => r.reqid == id && r.dest == m.member with
    | none => m
    | some r =>
      if r.state = .executing then
        match m.insts.find? fun i => i.ptn == p && i.reqid == id with
        | some i => m.cancelInst i
        | none => m
      else
        let m := (m.setPtn p fun x => { x with requests := x.requests.filter fun q => q.reqid != id }).dropInputs r
        let m := m.recordDone p id stAborted 0
        (if r.state = .waiting then m.roundDone p r.round else m).checkDrain

/-- QUERY of this member's own record: state, and status above it (R371). -/
def Module.query (m : Module) (p : Nat) (id : Word) : Nat :=
  match m.tallyOf p id with
  | none => if (m.ptn p).blocked.any fun b => b.origin.capsule.reqid == id then 2 else 0
  | some e =>
    if e.heldFor.isSome then 0
    else if e.done then 5 + 256 * e.status
    else
      match (m.ptn p).requests.find? fun r => r.reqid == id with
      | none => 3
      | some r =>
        match r.state with
        | .fetching => 1
        | .window => 1
        | .held => 2
        | .waiting => 2
        | .executing =>
          match m.insts.find? fun i => i.ptn == p && i.reqid == id with
          | none => 3
          | some i =>
            if (m.halls.flatMap (·.entries)).any fun e => e.key.inst == i.num && e.haltAt.isSome then 4 + 256 * stPageHalt
            else 3 + 256 * i.status

/-- Answer a command that no tally holds, where it came from. -/
def Module.answerDirect (m : Module) (o : Origin) (status value : Nat) : Module :=
  let c := o.capsule
  let a : Answer := { status := status, flags := 0, reqid := c.reqid, opc := c.opc.toNat, ptn := c.ptn.toNat % 8
                      member := m.member, value := value, elapsed := 0, results := [] }
  match o.own with
  | some d => m.deliver a d
  | none => m.sendTo o.recv 0 (.reply c (replyData a) status value)

/-- A CANCEL or QUERY capsule: it is carried out here and sent to every other member, and completes when each has
answered (R371). -/
def Module.toAll (m : Module) (opc qp : Nat) (c : Capsule) (act : Module → Module × Nat) : Module :=
  if !m.takesCapsules qp || (c.opc.toNat != opc && opcKnown c.opc.toNat) then m
  else
    let m := m.count (ctrR 0x078) 0 32
    let o : Origin := { own := some (deliveryOf qp c), recv := m.member, capsule := c }
    match (capsuleFault c).orElse fun _ => m.lateFault o with
    | some off => m.refuse o off
    | none =>
      let x := act m
      let m := x.1
      let others := if m.pwr.mode = .quarantine then [] else m.joinedList.filter (· != m.member)
      if others.isEmpty then m.answerDirect o stOk x.2
      else (m.sendAll others 0 (.command 0 c [])).setCtr fun k =>
        { k with forwarded := k.forwarded ++ [{ origin := o, waits := others, value := x.2 }] }

def execCancel (qp : Nat) (c : Capsule) (s : State) : Host.Outcome State Fault Refusal :=
  s.on fun m => m.toAll 0x02 qp c fun m => (m.cancel (c.ptn.toNat % 8) c.arg0, 0)

def execQuery (qp : Nat) (c : Capsule) (s : State) : Host.Outcome State Fault Refusal :=
  s.on fun m => m.toAll 0x03 qp c fun m => (m, m.query (c.ptn.toNat % 8) c.arg0)

/-! ### Retentions (R365, R370, R375) -/

/-- TALLY_ENTRY_EXPIRE: 10 s after it became DONE, an entry leaves the tally (R365). -/
def execTallyEntryExpire (ptn : PtnId) (reqid : Word) (s : State) : Host.Outcome State Fault Refusal :=
  s.on fun m =>
    match m.tallyOf ptn reqid with
    | some e =>
      if e.done then (m.until_ (e.doneAt + 10000000000)).setPtn ptn fun x => { x with tally := x.tally.filter fun y => y.reqid != reqid }
      else m
    | none => m

/-- The retention of results of a partition, in ns (R380). -/
def Module.retention (m : Module) (p : Nat) : Nat := m.fld (ptnR p 0xE8) 0 16 * 1000000

/-- A mailbox slot is released: a new capsule may name it, and its result is no longer retained (R370, R375). -/
def Module.releaseSlot (m : Module) (qp slot : Nat) : Module :=
  match (m.qp qp).bind fun q => (q.slots[slot]?).map fun s => (q, s) with
  | none => m
  | some (_, sl) =>
    let m := m.setQp qp fun x => { x with slots := x.slots.modify slot fun y => { y with state := 3 } }
    let clear (e : TallyEntry) : TallyEntry :=
      if e.reqid == sl.reqid && e.mailbox == some (qp, slot) then { e with mailbox := none } else e
    { m with ptns := m.ptns.map fun x => { x with tally := x.tally.map clear } }

/-- MAILBOX_RETENTION_EXPIRE: RETMS after READY the module releases the slot (R375). -/
def execMailboxRetentionExpire (qp slot : Nat) (s : State) : Host.Outcome State Fault Refusal :=
  s.on fun m =>
    match (m.qp qp).bind fun q => (q.slots[slot]?).map fun x => (q, x) with
    | some (q, sl) => if sl.state = 2 then (m.until_ (sl.readyAt + m.retention q.ptn)).releaseSlot qp slot else m
    | none => m

/-- PUSH_RETENTION_EXPIRE: RETMS after DONE a retained push result is kept no longer (R370). -/
def execPushRetentionExpire (ptn : PtnId) (reqid : Word) (s : State) : Host.Outcome State Fault Refusal :=
  s.on fun m =>
    match m.tallyOf ptn reqid with
    | some e =>
      if e.done && e.retained then
        (m.until_ (e.doneAt + m.retention ptn)).setTally ptn reqid fun x => { x with retained := false, results := [] }
      else m
    | none => m

end Sys2Proof.Machine
end

