-- ==== Sys2Proof/Machine/Parts.lean ====
section
/-! DEFINITION. Commands that several members carry out, or that the warden runs as an agreement (R94, R96, R162, R353):
their parts, what the admitting member waits for, and the outcome that ends them; and the pages that they allocate and
release (R85, R119, R163). -/
namespace Sys2Proof.Machine

/-! ### Pages of regions and editions -/

/-- A region's pages are released and read as zero (R85, R97). -/
def Module.freeRegion (m : Module) (g : RegionSt) : Module :=
  m.releaseKeys (regionKey g.serial 0) (regionKey g.serial g.info.size)

/-- Set the residency of a page of a region in force. -/
def Module.setResid (m : Module) (p rgn k : Nat) (r : Residency) : Module :=
  let put (g : RegionSt) : RegionSt :=
    let start := if g.info.flags % 2 = 1 then Residency.evicted else Residency.present
    { g with resid := if r = start then g.resid.filter (fun x => x.1 != k) else assocSet k r g.resid }
  m.setPtn p fun x => { x with regions := updWhere (fun g => g.info.rgn == rgn) put x.regions }

/-- What an edition map holds for a shard page whose rebuild page has not arrived (R443). -/
def unmapped : Nat := 2 ^ 40

/-- The pages that an edition maps on this member. -/
def Edition.pages (e : Edition) : List Nat := (e.primary.getD [] ++ e.twin.getD []).filter (· != unmapped)

/-- Pages of a table region that some edition maps or an EDITION_BEGIN has set aside. -/
def Module.takenPages (m : Module) (p rgn : Nat) : List Nat :=
  (m.tables.filter fun x => x.ptn == p && x.place.rgn == rgn).flatMap fun x =>
    x.editions.flatMap Edition.pages ++ ((x.aside.map fun a => a.2.pages).getD [])

/-- A free page of a region on a stack, apart from those taken (R119, R121). -/
def Module.allocPage (m : Module) (g : RegionSt) (taken : List Nat) (s : Nat) : Option Nat × Module :=
  let free := (List.range g.info.pages).filter fun k => g.info.stackOf k == s && !taken.contains k
  if free.isEmpty then (none, m)
  else
    let (i, m) := m.pick free.length
    (free[i]?, m)

/-- Free pages for one copy of every shard page in order; where one is missing, its stack and shard page. -/
def Module.allocCopy (m : Module) (g : RegionSt) (t : PlacementRec) (taken : List Nat) :
    Except (Nat × Nat) (List Nat) × Module :=
  (List.range t.shpages).foldl (fun (acc : Except (Nat × Nat) (List Nat) × Module) j =>
    match acc.1 with
    | .error e => (.error e, acc.2)
    | .ok ps =>
      let r := acc.2.allocPage g (taken ++ ps) (t.stackOf j)
      match r.1 with
      | some k => (.ok (ps ++ [k]), r.2)
      | none => (.error (t.stackOf j, j), r.2)) (.ok [], m)

/-- Free pages for every copy that this member holds: primary, then twin (R118, R119). -/
def Module.allocTable (m : Module) (g : RegionSt) (t : PlacementRec) (taken : List Nat) :
    Except (Nat × Nat) (Option (List Nat) × Option (List Nat)) × Module :=
  let copy (held : Bool) (m : Module) (taken : List Nat) : Except (Nat × Nat) (Option (List Nat)) × Module :=
    if held then
      let r := m.allocCopy g t taken
      (r.1.map some, r.2)
    else (.ok none, m)
  let a := copy (t.primaryOf m.member).isSome m taken
  match a.1 with
  | .error e => (.error e, a.2)
  | .ok prim =>
    let b := copy (t.twinOf m.guildSize m.member).isSome a.2 (taken ++ prim.getD [])
    (b.1.map fun tw => (prim, tw), b.2)

/-- Pages of a region are released within it: zeroed, and PRESENT again (R97, R162, R170). -/
def Module.freePages (m : Module) (p : Nat) (g : RegionSt) (ks : List Nat) : Module :=
  ks.foldl (fun (m : Module) k =>
    (m.releaseKeys (g.pageKey k) (g.pageKey k + 2 ^ g.info.shift)).setResid p g.info.rgn k .present) m

def Module.setTable (m : Module) (t : Nat) (f : Table → Table) : Module :=
  { m with tables := updWhere (fun x => x.place.table == t) f m.tables }

def Module.setEdition (m : Module) (t e : Nat) (f : Edition → Edition) : Module :=
  m.setTable t fun x => { x with editions := updWhere (fun y => y.num == e) f x.editions }

/-! ### What ends a command that other members share in -/

def editionTable (c : Capsule) : Nat := c.arg0.toNat % 2 ^ 32

/-- The outcome of an EDITION_BEGIN on a member that has set an edition aside for it: created on every holding member, or
released (R163). Under FRESH its pages are BUILDING. -/
def Module.decideBegin (m : Module) (reqid : Word) (ok : Bool) : Module :=
  match m.tables.findSome? fun x => x.aside.bind fun (a : Word × Edition) => if a.1 == reqid then some (x, a.2) else none with
  | none => m
  | some (x, e) =>
    let m := m.setTable x.place.table fun y => { y with aside := none }
    match m.regionNo x.ptn x.place.rgn with
    | none => m
    | some g =>
      if ok then
        let m := if e.fresh then e.pages.foldl (fun (m : Module) k => m.setResid x.ptn x.place.rgn k .building) m else m
        m.setTable x.place.table fun y => { y with highest := e.num, editions := y.editions ++ [e] }
      else if e.fresh then m.freePages x.ptn g e.pages
      else m

/-- The outcome of a DRAFT_LOAD: the new image replaces the draft staged earlier, or it alone is discarded (R94 step 4). -/
def Module.decideDraft (m : Module) (p : Nat) (ok : Bool) : Module :=
  let x := m.ptn p
  if x.cand.isNone then m
  else
    let m := (if ok then x.stagedRegions else x.candRegions).foldl Module.freeRegion m
    m.setPtn p fun y =>
      if ok then { y with staged := y.cand, stagedRegions := y.candRegions, cand := none, candRegions := [] }
      else { y with cand := none, candRegions := [] }

/-- What a member without a copy keeps of a table's editions: their numbers, kinds and states, as the outcomes of the commands tell
them (R158, R163, R169, R284; log entry 172, DESIGN CHOICE). -/
def Module.noteEdition (m : Module) (c : Capsule) : Module :=
  let num := c.arg0.toNat / 2 ^ 32
  match m.table (editionTable c) with
  | none => m
  | some x =>
    if m.holds x.place then m
    else if c.opc = 0x40 then
      m.setTable x.place.table fun y => { y with
        highest := y.highest + 1,
        editions := y.editions ++ [{ num := y.highest + 1, state := .building, fresh := num % 256 == 1, primary := none, twin := none }] }
    else if c.opc = 0x42 then m.setEdition x.place.table num fun e => { e with state := .sealed }
    else if c.opc = 0x43 then m.setTable x.place.table fun y => { y with editions := y.editions.filter fun e => e.num != num }
    else m

/-- The outcome of a GRAPH_UNDEFINE that this member has applied: the graph goes, or stays defined where a member refused (R282). -/
def Module.undefineDone (m : Module) (p graph : Nat) (ok : Bool) : Module :=
  let end_ (l : List GuildGraph) : List GuildGraph :=
    if ok then l.filter fun g => !(g.graph == graph && g.going.isSome)
    else updWhere (fun g => g.graph == graph) (fun g => { g with going := none }) l
  m.setPtn p fun x => { x with ggraphs := end_ x.ggraphs }

/-- A guild graph is no longer defined (R282). -/
def Module.undefine (m : Module) (p graph : Nat) : Module :=
  m.setPtn p fun x => { x with ggraphs := x.ggraphs.filter fun g => g.graph != graph }

/-- A graph is unloaded: no command may name it; it goes once no instance of it lives (log entry 28, DEDUCED). -/
def Module.unload (m : Module) (p handle : Nat) : Module :=
  if m.insts.any fun i => i.ptn == p && i.handle == handle then
    m.setPtn p fun x => { x with unloaded := if x.unloaded.contains handle then x.unloaded else x.unloaded ++ [handle] }
  else m.setPtn p fun x => { x with graphs := x.graphs.filter fun g => g.handle != handle, unloaded := x.unloaded.filter (· != handle) }

/-- The members that hold a copy of a table (R118). -/
def Module.holders (m : Module) (t : PlacementRec) : List Nat :=
  m.joinedList.filter fun k => decide (0 < t.copies m.guildSize k)

/-- The JOINED members that a command is spread to (R94, R162, R282, R351). -/
def Module.partsOf (m : Module) (c : Capsule) : List Nat :=
  if within c.opc.toNat 0x40 0x43 then ((m.table (editionTable c)).map fun x => m.holders x.place).getD []
  else m.joinedList

def Module.others (m : Module) (l : List Nat) : List Nat := if m.pwr.mode = .quarantine then [] else l.filter (· != m.member)

/-- The outcome of a command is applied here and told to the members that shared in it. -/
def Module.decide_ (m : Module) (p : Nat) (c : Capsule) (status : Nat) : Module :=
  let o := c.opc.toNat
  if o = 0x20 then (m.decideDraft p (status == 0)).sendAll (m.others m.joinedList) 0 (.reply c [] status 0)
  else if o = 0x40 then
    let m := m.decideBegin c.reqid (status == 0)
    (if status = 0 then m.noteEdition c else m).sendAll (m.others m.joinedList) 0 (.reply c [] status 0)
  else if (o = 0x42 ∨ o = 0x43) ∧ status = 0 then
    (m.noteEdition c).sendAll ((m.others m.joinedList).filter fun k => !(m.partsOf c).contains k) 0 (.reply c [] status 0)
  else if o = 0x10 ∧ status ≠ 0 then
    (m.unload p c.handle.toNat).sendAll (m.others m.joinedList) 0 (.reply c [] status 0)
  else if o = 0x50 ∧ status ≠ 0 then
    (m.undefine p (c.arg0.toNat % 256)).sendAll (m.others m.joinedList) 0 (.reply c [] status 0)
  else if o = 0x51 then
    (m.undefineDone p (c.arg0.toNat % 256) (status == 0)).sendAll (m.others m.joinedList) 0 (.reply c [] status 0)
  else m

/-- A command completes once this member's part has ended and every other member has answered (R94, R162). An EDITION_BEGIN
completes then, every holder having set its pages aside, and the outcome that creates the edition goes out with it (R163; log entry
165, DESIGN CHOICE). -/
def Module.settleCmd (m : Module) (p : Nat) (reqid : Word) : Module :=
  match (m.ptn p).waitCmds.find? fun x => x.capsule.reqid == reqid with
  | none => m
  | some x =>
    if x.mine || !x.waits.isEmpty then m
    else
      let m := m.setPtn p fun y => { y with waitCmds := y.waitCmds.filter fun z => z.capsule.reqid != reqid }
      ((m.decide_ p x.capsule x.status).complete p reqid x.status x.value)

def Module.setWait (m : Module) (p : Nat) (reqid : Word) (f : PendingCmd → PendingCmd) : Module :=
  m.setPtn p fun y => { y with waitCmds := updWhere (fun z => z.capsule.reqid == reqid) f y.waitCmds }

/-- The part of a command that another member carries out: images, edition commands and graph definitions travel over VC3
(R94, R162, R282, R391), the rest over VC0 (R353). -/
def Module.sendParts (m : Module) (c : Capsule) (data : List Byte) (dsts : List Nat) : Module :=
  let o := c.opc.toNat
  let body := headerBytes c ++ c.inl ++ data
  if o = 0x10 ∨ o = 0x20 then m.sendAll dsts 3 (.bulk 0 (c.ptn.toNat % 8) body)
  else if within o 0x40 0x43 ∨ o = 0x50 ∨ o = 0x51 then m.sendAll dsts 3 (.bulk 1 (c.ptn.toNat % 8) body)
  else m.sendAll dsts 0 (.command 0 c [])

/-- Spread a command whose part here has come to `status`; `mine` says that this member's own part is still to end. -/
def Module.spread (m : Module) (c : Capsule) (data : List Byte) (mine : Bool) (status value : Nat) : Module :=
  let p := c.ptn.toNat % 8
  let to_ := m.others (m.partsOf c)
  let x : PendingCmd := { capsule := c, mine := mine, waits := to_, status := status, value := value }
  ((m.sendParts c data to_).setPtn p fun y => { y with waitCmds := y.waitCmds ++ [x] }).settleCmd p c.reqid

/-- The statuses of a command's parts, combined: the first that is not OK stands. -/
def mergeStatus (a b : Nat) : Nat := if a = 0 then b else a

/-- A member has answered its part. -/
def Module.partDone (m : Module) (src : Nat) (c : Capsule) (status : Nat) : Module :=
  let p := c.ptn.toNat % 8
  (m.setWait p c.reqid fun x =>
    if x.waits.contains src then { x with waits := x.waits.filter (· != src), status := mergeStatus x.status status } else x).settleCmd p c.reqid

/-! ### The warden's queue (R96, R404) -/

/-- The warden takes the next agreement and sends PREPARE with a new epoch to every JOINED member (R94 step 6, R169). -/
def Module.wardenNext (m : Module) : Module :=
  match m.guild.current, if m.isWarden then m.guild.queue else [] with
  | none, a :: rest =>
    let e := m.newEpoch
    (m.setGuild fun g => { g with queue := rest, current := some { a with epoch := e, phase := 0 }, epochSeen := e }).toJoined
      (.prepare e a.agr a.drainUs)
  | _, _ => m

/-- The warden takes a request; it runs one agreement at a time, in the order in which it receives them (R96). -/
def Module.enqueueAgr (m : Module) (a : WardenAgr) : Module :=
  (m.setGuild fun g => { g with queue := g.queue ++ [a] }).wardenNext

/-- Ask the warden for an agreement on behalf of a command (R94 step 5, R169 step 1). -/
def Module.askWarden (m : Module) (c : Capsule) (a : Agreement) (drainUs : Nat) : Module :=
  let p := c.ptn.toNat % 8
  let x : PendingCmd := { capsule := c, mine := m.isWarden, waits := if m.isWarden then [] else [m.guild.warden] }
  let m := m.setPtn p fun y => { y with waitCmds := y.waitCmds ++ [x] }
  if m.isWarden then m.enqueueAgr { agr := a, drainUs := drainUs, origin := m.member, capsule := some c }
  else m.sendTo m.guild.warden 0 (.command 0 c [])

/-- The command that asked for an agreement completes where it came from. -/
def Module.answerAgr (m : Module) (a : WardenAgr) (status : Nat) : Module :=
  match a.capsule with
  | none => if a.taken then m.setGuild fun g => { g with resolved := g.resolved ++ [(a.agr, status == 0)] } else m
  | some c =>
    let p := c.ptn.toNat % 8
    if a.origin = m.member then (m.setWait p c.reqid fun x => { x with mine := false, status := status }).settleCmd p c.reqid
    else m.sendTo a.origin 0 (.reply c [] status 0)

/-- An agreement has ended: its command completes, and the next agreement begins. -/
def Module.endAgr (m : Module) (a : WardenAgr) (status : Nat) : Module :=
  ((m.setGuild fun g => { g with current := none }).answerAgr a status).wardenNext

end Sys2Proof.Machine
end

