-- ==== Sys2Proof/Machine/Ropewalk.lean ====
section
/-! DEFINITION. The ropewalk: groups (R414, R415), signatures (R417), trees (R420), the sums of the three levels (R418),
chunks and their packets (R421–R423), and how a collective ends (R413, R426, R427). -/
namespace Sys2Proof.Machine

/-! ### Names (log entry 23, DESIGN CHOICE) -/

def collName (ptn grp seq : Nat) : Nat := seq * 4096 + grp * 8 + ptn
def namePtn (n : Nat) : Nat := n % 8
def nameGrp (n : Nat) : Nat := n / 8 % 512
def nameSeq (n : Nat) : Nat := n / 4096

/-! ### Groups (R414, R415) -/

/-- The 128 bytes of an entry of a group table (R414). -/
def groupEntry (t : WordMap) (g : Nat) : List Byte := (List.range 16).flatMap fun i => leBytes 8 (groupWord t (g * 16 + i)).toNat

/-- An entry whose VALID bit is set obeys every rule of R414; `size` is the geometry's product. -/
def groupEntryOk (size g : Nat) (bs : List Byte) : Bool :=
  let n (o k : Nat) : Nat := fieldAt bs o k
  let flags := n 1 1
  let count := n 2 1
  let ranks := (List.range count).map fun i => n (0x10 + i) 1
  let lc := flags / 4 % 2 == 1
  let lcg := n 3 1
  n 0 1 == g && flags / 8 == 0 && within count 2 64 && (if lc then within lcg 2 8 else lcg == 0) &&
    (n 4 4 == 0 || within (n 4 4) 100 100000) && ranks.all (fun r => decide (r < size)) && ranks.eraseDups.length == count &&
    n 8 8 == (ranks.map fun r => 2 ^ r).sum && (List.range 64).all (fun i => decide (i < count) || n (0x10 + i) 1 == 0xFF) &&
    zeros bs 0x52 6 && zeros bs 0x68 24 &&
    (!lc || (ranks.contains (n 0x50 1) && decide (n 0x51 1 < lcg) &&
      (List.range 8).all fun i => (n (0x58 + 2 * i) 2 == 0xFFFF) == (i == n 0x51 1 || decide (lcg ≤ i))))

/-- A table that the warden may propose: every entry with VALID set is valid (R414). -/
def groupTableOk (size : Nat) (t : WordMap) : Bool :=
  (List.range 256).all fun g =>
    let bs := groupEntry t g
    fieldAt bs 1 1 % 2 == 0 || groupEntryOk size g bs

/-- A group as a collective uses it. -/
structure Group where
  ranks    : List Nat
  elastic  : Bool := false
  levelC   : Bool := false
  strag    : Nat := 0
  lcg      : Nat := 0
  lcmember : Nat := 0
  lcpos    : Nat := 0
  lcqp     : List Nat := []
  deriving DecidableEq, Repr, Inhabited

/-- The three extents of the guild (R382). -/
def Module.extents (m : Module) : Nat × Nat × Nat :=
  (m.fld (fabR 0x000) 6 2 + 1, m.fld (fabR 0x000) 8 2 + 1, m.fld (fabR 0x000) 10 2 + 1)

/-- The coordinates of a member (R382). -/
def coordsOf (e : Nat × Nat × Nat) (k : Nat) : Nat × Nat × Nat := (k % e.1, k / e.1 % e.2.1, k / e.1 / e.2.1)

/-- The run length of an axis for a code of GSPEC (R415). -/
def runLen (code extent : Nat) : Nat :=
  match code with
  | 0 => 1
  | 1 => 2
  | 2 => 4
  | _ => extent

/-- GSPEC fits the geometry (R415). -/
def specFits (e : Nat × Nat × Nat) (spec : Nat) : Bool :=
  e.1 % runLen (spec % 4) e.1 == 0 && e.2.1 % runLen (spec / 4 % 4) e.2.1 == 0 && e.2.2 % runLen (spec / 16 % 4) e.2.2 == 0

/-- The run of each axis in which a member lies (R415). -/
def runOf (e : Nat × Nat × Nat) (spec k : Nat) : Nat × Nat × Nat :=
  let c := coordsOf e k
  (c.1 / runLen (spec % 4) e.1, c.2.1 / runLen (spec / 4 % 4) e.2.1, c.2.2 / runLen (spec / 16 % 4) e.2.2)

/-- The group of a number: a list group, or 0x100 + GSPEC an axis group of this member (R414, R415, R417); none where it
is not valid. -/
def Module.groupOf (m : Module) (grp : Nat) : Option Group :=
  if grp < 256 then
    let bs := groupEntry m.rwk.inForce grp
    let n (o k : Nat) : Nat := fieldAt bs o k
    if n 1 1 % 2 = 0 then none
    else some {
      ranks := (List.range (n 2 1)).map fun i => n (0x10 + i) 1
      elastic := n 1 1 / 2 % 2 == 1
      levelC := n 1 1 / 4 % 2 == 1
      strag := n 4 4
      lcg := n 3 1
      lcmember := n 0x50 1
      lcpos := n 0x51 1
      lcqp := (List.range (n 3 1)).map fun i => n (0x58 + 2 * i) 2 }
  else
    let e := m.extents
    let spec := grp % 64
    if specFits e spec then some { ranks := (List.range m.guildSize).filter fun k => runOf e spec k == runOf e spec m.member }
    else none

/-- The straggler limit of a group, in µs (R414, R415). -/
def Module.stragLimit (m : Module) (g : Group) : Nat := if g.strag = 0 then m.fld (rwkR 0x000) 0 17 else g.strag

/-- A GROUP agreement under way changes the group, so that its launches wait (R414). -/
def Module.groupWaits (m : Module) (grp : Nat) : Bool :=
  match m.guild.agr with
  | some a => match a.agr with
    | .group t => a.done.isNone && (changedGroups m.rwk.inForce t).contains grp
    | _ => false
  | none => false

/-! ### Trees (R420) -/

/-- `build` of R420 on `len` positions from `lo`: each position with its parent. -/
def buildTree : Nat → Nat → Nat → Option Nat → List (Nat × Option Nat)
  | 0, _, _, _ => []
  | f + 1, lo, len, up =>
    if len = 0 then []
    else
      let mid := lo + len / 2
      (mid, up) :: (buildTree f lo (len / 2) (some mid) ++ buildTree f (mid + 1) (len - len / 2 - 1) (some mid))

/-- The edges of tree `t` over members in rank order: each member with its parent. -/
def treeOf (live : List Nat) (t : Nat) : List (Nat × Option Nat) :=
  let l := if t = 0 then live else live.reverse
  (buildTree (l.length + 1) 0 l.length none).map fun (k, up) => (l.getD k 0, up.map fun u => l.getD u 0)

def parentIn (tree : List (Nat × Option Nat)) (k : Nat) : Option Nat := (tree.find? fun x => x.1 == k).bind (·.2)
def kidsIn (tree : List (Nat × Option Nat)) (k : Nat) : List Nat := (tree.filter fun x => x.2 == some k).map (·.1)

/-- The mask in force for a collective, and its live ranks (R420, R426). -/
def Coll.mask (c : Coll) : Nat := c.masks.getLastD 0
def Coll.live (c : Coll) : List Nat := c.ranks.filter fun k => c.mask.testBit k
def Coll.tree (c : Coll) (chunk : Nat) : List (Nat × Option Nat) := treeOf c.live (chunk % 2)

/-! ### Collectives on this member -/

def Module.coll (m : Module) (id : Nat) : Option Coll := m.rwk.colls.find? fun c => c.id == id
def Module.setColl (m : Module) (id : Nat) (f : Coll → Coll) : Module :=
  m.setRwk fun r => { r with colls := updWhere (fun c => c.id == id) f r.colls }
def Coll.chunk (c : Coll) (n : Nat) : Option ChunkSt := c.chunks.find? fun k => k.num == n
def Module.setChunk (m : Module) (id n : Nat) (f : ChunkSt → ChunkSt) : Module :=
  m.setColl id fun c => { c with chunks := updWhere (fun k => k.num == n) f c.chunks }

/-- A collective that has not ended here. -/
def Module.liveColl (m : Module) (id : Nat) : Option Coll := (m.coll id).filter fun c => c.ended.isNone

/-- The signature of R417. -/
def signature (type ck ptn grp : Nat) (elastic levelC : Bool) (layout count seq : Nat) : Word :=
  BitVec.ofNat 64 (leNat ((sha3 (leBytes 1 0 ++ leBytes 1 type ++ leBytes 1 ck ++ leBytes 1 ptn ++ leBytes 2 grp ++
    leBytes 1 (elastic.toNat + 2 * levelC.toNat) ++ leBytes 1 layout ++ leBytes 8 count ++ leBytes 8 seq ++ leBytes 8 0)).take 8))

/-- Chunks of a collective (R421). -/
def chunkCount (count csize : Nat) : Nat := ceilDiv (4 * count) csize
/-- Elements of a chunk. -/
def Coll.elems (c : Coll) (n : Nat) : Nat := min (c.csize / 4) (c.count - n * (c.csize / 4))
/-- The chunk size that CK selects (R411). -/
def chunkBytes (ck : Nat) : Nat := if ck = 0 then 65536 else 8192 * 2 ^ ck
/-- The pass size Q (R421). -/
def passBytes (count csize rgbuf : Nat) : Nat := min (roundUp (4 * count) csize) (max csize (rgbuf / 4 / csize * csize))
/-- The reduction buffer of a partition in bytes (R75). -/
def Module.rgbuf (m : Module) (p : Nat) : Nat := (m.draft p).part.rgbuf * 2 ^ 20
/-- Bytes of a partition's share that are reserved (R421). -/
def Module.rgUsed (m : Module) (p : Nat) : Nat :=
  ((m.rwk.colls.filter fun c => c.ptn == p && c.reserved && c.ended.isNone).map fun c => 2 * c.qsize).sum

/-! ### The sums (R418) -/

def Coll.isInt (c : Coll) : Bool := c.type == 0x13

/-- The sum of carried values: fp32 in a free order with one rounding each, or an exact integer; and whether a float sum
saturated. -/
def sumVals (codes : Nat → Nat) (int : Bool) (l : List Int) : Int × Bool :=
  if int then (l.sum, false)
  else match permute codes (l.map fun v => f32Of (BitVec.ofInt 32 v)) with
    | [] => (0, false)
    | x :: xs => let r := sumF32 x xs; (((f32Code r.v).toNat : Int), r.sat)

/-- Add columns of values, element by element. -/
def sumColumns (codes : Nat → Nat) (int : Bool) (n : Nat) (ls : List (List Int)) : List Int × Nat :=
  let rs := (List.range n).map fun i => sumVals (sub codes i) int (ls.map fun l => l.getD i 0)
  (rs.map (·.1), rs.countP (·.2))

/-- The form in which a partial leaves a member, with how many elements saturate. -/
def carried (int : Bool) (l : List Int) : List Int × Nat :=
  if int then
    let rs := l.map (clampInt (-2147483648) 2147483647)
    (rs.map (·.1), rs.countP (·.2))
  else (l, 0)

/-- The position of element `i` in storage order (R50, R412). -/
def Tensor.elemPos (t : Tensor) (i : Nat) : Nat × Nat × Nat :=
  if t.layout = 1 then
    let n0 := ceilDiv t.dim0 32
    let n1 := ceilDiv t.dim1 32
    let tile := i / 1024
    (tile % n0 * 32 + i % 32, tile / n0 % n1 * 32 + i % 1024 / 32, tile / n0 / n1)
  else (i % t.dim0, i / t.dim0 % t.dim1, i / t.dim0 / t.dim1)

/-- The contribution of a tensor to element `i`, as it is carried (R412, R418). -/
def CollTensor.value (mem : Memory) (x : CollTensor) (i : Nat) : Int :=
  let d := x.t.elemPos i
  if x.t.inside d then
    match decodeElem x.t.type (mem.bitsAt x.key (x.t.elemBit d.1 d.2.1 d.2.2) x.t.bits) with
    | .int n => n
    | .flt v => (f32Code v).toNat
  else 0

/-- Count saturated elements and mark the chunk (R418). -/
def Module.saturate (m : Module) (id n k : Nat) : Module :=
  if k = 0 then m else (m.count (rwkR 0x118) 32 32 k).setChunk id n fun x => { x with sat := true }

/-! ### Packets (R422) -/

/-- The wire image of values. -/
def wireBytes (l : List Int) : List Byte := l.flatMap fun v => leBytes 4 (v % 2 ^ 32).toNat

/-- The values of a wire image. -/
def wireVals (int : Bool) (bs : List Byte) : List Int :=
  (List.range (bs.length / 4)).map fun i =>
    let v := fieldAt bs (4 * i) 4
    if int then signedOf 32 v else (v : Int)

/-- The packets of one chunk in one phase. -/
def chunkPackets (c : Coll) (n phase : Nat) (sat : Bool) (vals : List Int) : List (List Byte) :=
  let bs := wireBytes vals
  let k := max 1 (ceilDiv bs.length 4064)
  (List.range k).map fun i =>
    let data := (bs.drop (4064 * i)).take 4064
    let last := i + 1 == k
    leBytes 8 c.sig.toNat ++ leBytes 4 n ++ leBytes 2 c.grp ++
      leBytes 1 (n % 2 + 2 * phase + 4 * last.toNat + 8 * sat.toNat) ++ leBytes 1 c.rfm ++ leBytes 4 (4064 * i) ++
      leBytes 4 data.length ++ leBytes 8 (if last then (crc64 bs).toNat else 0) ++ data

/-- Send a chunk to a member on VC2 and keep it for a resend. -/
def Module.sendChunk (m : Module) (id n dst phase : Nat) (vals : List Int) : Module :=
  match m.coll id with
  | none => m
  | some c =>
    let sat := ((c.chunk n).map (·.sat)).getD false
    ((chunkPackets c n phase sat vals).foldl (fun (m : Module) p => m.sendTo dst 2 (.payload 0x20 c.ptn p)) m).setChunk id n
      fun k => { k with sent := k.sent ++ [(dst, phase, vals)] }

/-! ### Ends (R413, R426, R427, R429) -/

/-- A message to the members of a group but this one. -/
def Module.sendGroup (m : Module) (g : List Nat) (x : FabMsg) : Module := m.sendAll g 0 x

/-- The detail of a COLL notice begins with the group and the sequence number (R429). -/
def collDetail (grp seq : Nat) : List Byte := leBytes 2 grp ++ leBytes 8 seq

/-- Post ABORTED with its cause (R429). -/
def Module.postAborted (m : Module) (p grp seq cause member : Nat) : Module :=
  m.post 0x0403 (some p) 0 (collDetail grp seq ++ leBytes 1 cause ++ leBytes 1 member)

/-- Post MISMATCH: this member's own signature and the one that differs from it (R417, R429). -/
def Module.postMismatch (m : Module) (p grp seq : Nat) (own : Word) (a : EarlyAbort) : Module :=
  let other := if own = a.sigA then a.sigB else if own = a.sigB then a.sigA else a.sigB
  let m := m.setReg (rwkR 0x128) other
  (m.count (rwkR 0x108) 32 32).post 0x0401 (some p) 0
    (collDetail grp seq ++ leBytes 8 own.toNat ++ leBytes 8 other.toNat ++ leBytes 1 a.detector ++ leBytes 1 a.member)

/-- A node or a fall-back launch ends with a status. -/
def Module.endLaunch (m : Module) (key : Option FKey) (ptn : Nat) (reqid : Word) (st : Nat) : Module :=
  match key with
  | some k => match m.firing k with
    | some f => m.finish f st
    | none => m
  | none => m.recordDone ptn reqid st 0

/-- The bytes that another tensor of the collective shares with a span just written are not specified (R186, R412). -/
def Module.blurSpan (m : Module) (others : List CollTensor) (key len : Nat) : Module :=
  others.foldl (fun (m : Module) (x : CollTensor) =>
    let lo := max key x.key
    let hi := min (key + len) (x.key + x.t.extent)
    if lo < hi then m.unspecified lo (hi - lo) else m) m

/-- The collective ends here with a status: its reservation is released (R413 step 7), and a member that waits for it to
drain may report (R94, R414). -/
def Module.endColl (m : Module) (id st : Nat) : Module :=
  match m.liveColl id with
  | none => m
  | some c => ((m.setColl id fun c => { c with ended := some st, reserved := false }).endLaunch c.key c.ptn c.reqid st).checkReady

/-- The collective ends ABORTED here: Y is not specified, and the notice says why (R417, R426). Cause 0 stands for a
mismatch. -/
def Module.abortColl (m : Module) (id : Nat) (a : EarlyAbort) : Module :=
  match m.liveColl id with
  | none => m
  | some c =>
    let m := (m.unspecified c.y.key c.y.t.extent).count (rwkR 0x108) 0 32
    let m := if a.cause = 0 then m.postMismatch c.ptn c.grp c.seq c.sig a else m.postAborted c.ptn c.grp c.seq a.cause a.member
    m.endColl id stAborted

/-- Abort a collective on every member of its group (R417, R422, R426, R427). -/
def Module.abortAll (m : Module) (id cause member : Nat) (sigA sigB : Word) : Module :=
  match m.liveColl id with
  | none => m
  | some c =>
    let a : EarlyAbort := { name := id, cause := cause, detector := m.member, member := member, sigA := sigA, sigB := sigB }
    (m.sendGroup c.ranks (.collAbort c.ptn c.grp c.seq cause m.member member sigA sigB)).abortColl id a

/-! ### A chunk goes on (R420–R423, R425) -/

/-- The code of a result element (R418). -/
def Coll.code (c : Coll) (codes : Nat → Nat) (i : Nat) (v : Int) : Nat × Bool :=
  if c.type = 0x13 ∨ c.type = 0x01 then ((v % 2 ^ 32).toNat, false)
  else
    let r := (Val.flt (f32Of (BitVec.ofInt 32 v))).toCode c.type (rndOf c.rnd codes i)
    (r.1, r.2.1)

/-- Write a chunk's result into Y and its mask into M; then the chunk has completed, its CHUNK tokens leave (R423), and
the collective ends after its last chunk. -/
def Module.completeChunk (m : Module) (id n : Nat) (vals : List Int) (mask : Nat) : Module :=
  match m.liveColl id, (m.coll id).bind fun c => c.chunk n with
  | some c, some k =>
    if k.done then m
    else
      let s := m.draw
      let m := s.2
      let w := c.y.t.bits / 8
      let e0 := n * (c.csize / 4)
      let cs := vals.zipIdx.map fun (v, i) => if c.y.t.inside (c.y.t.elemPos (e0 + i)) then c.code s.1 i v else (0, false)
      let key := c.y.key + e0 * w
      let len := vals.length * w
      let m := (m.engineWrite c.ptn key (c.y.ra + e0 * w) c.y.t.hint (cs.flatMap fun x => leBytes w x.1)).blurSpan
        (c.xs ++ c.m.toList) key len
      let m := match c.m with
        | none => m
        | some x => (m.engineWrite c.ptn (x.key + 8 * n) (x.ra + 8 * n) x.t.hint (leBytes 8 mask)).blurSpan (c.xs ++ [c.y])
            (x.key + 8 * n) 8
      let sat := k.sat || cs.any (·.2)
      let m := (m.setChunk id n fun k => { k with done := true }).setColl id fun c => { c with flagged := c.flagged || sat }
      let m := match c.key.bind m.firing with
        | none => m
        | some f =>
          let ds : List Dest := f.n.dest.filter fun d => d.valid && d.sel == 2
          if f.i.cancelled then m.count (halR f.e.hall 0x018) 32 32 ds.length
          else ds.foldl (fun (m : Module) (d : Dest) =>
            m.sendToken .ropewalk (m.tokenFor f.i d (f.key.gen + BitVec.ofNat 16 n) 3 (if sat then stFlagged else stOk) n)) m
      match m.liveColl id with
      | some c =>
        if c.chunks.length = chunkCount c.count c.csize ∧ c.chunks.all (·.done) then
          m.endColl id (if c.flagged || c.rfm != 0 then stFlagged else stOk)
        else m
      | none => m
  | _, _ => m

/-- The mask that element M[c] takes where this member did not form the root sum: that of one of the re-forms it has
seen, since the packets do not carry it (R423, R426, log entry 24, DEDUCED). -/
def Module.seenMask (m : Module) (c : Coll) : Nat × Module :=
  match c.masks with
  | [x] => (x, m)
  | l => let k := m.pick l.length; (l.getD k.1 0, k.2)

/-- Pass the broadcast on to every tree neighbour but the one it came from, once for each re-form, and complete the
chunk (R420, R423). -/
def Module.broadcast (m : Module) (id n : Nat) (from_ : Option Nat) : Module :=
  match m.coll id with
  | none => m
  | some c =>
    match c.chunk n with
    | none => m
    | some k =>
      match k.total with
      | none => m
      | some vals =>
        let m := if k.fwdRfm == some c.rfm then m
          else
            let tree := c.tree n
            let near := (kidsIn tree m.member ++ (parentIn tree m.member).toList).filter fun d => some d != from_
            (near.foldl (fun (m : Module) d => m.sendChunk id n d 1 vals) m).setChunk id n fun k => { k with fwdRfm := some c.rfm }
        if k.root.isSome then m.completeChunk id n vals k.rootMask
        else
          let x := m.seenMask c
          x.2.completeChunk id n vals x.1

/-- The class number of a queue pair as an access target (R454). -/
def QueuePair.target (q : QueuePair) : Nat := 128 * q.ptn + q.aclass

/-- The queue pairs that carry level C, with the guild position of each (R414). -/
def Group.peers (g : Group) : List (Nat × Nat) := (g.lcqp.zipIdx.filter fun x => x.2 != g.lcpos).map fun x => (x.2, x.1)

/-- Level C on LCMEMBER: its own guild's sum leaves for the other guilds in carried form, rounded once to bf16 for float
types (R418). A peer's queue pair that this member may not use, or that is gone, is a peer lost (R426). -/
def Module.levelCSend (m : Module) (id n : Nat) (g : Group) (vals : List Int) : Module :=
  match m.coll id with
  | none => m
  | some c =>
    let x := carried c.isInt vals
    let own := if c.isInt then x.1 else x.1.map fun v => ((f32Code (bf16.round .even (f32Of (BitVec.ofInt 32 v))).v).toNat : Int)
    let m := m.saturate id n x.2
    let m := m.setChunk id n fun k => { k with levelC := k.levelC ++ [(g.lcpos, own)] }
    let lost := g.peers.any fun p => match m.qp p.2 with
      | none => true
      | some q => q.err || !m.allowed tcQueue q.target q.ptn ropewalkMaster permWrite
    if lost then m.abortAll id 4 m.member c.sig 0
    else g.peers.foldl (fun (m : Module) p => m.send (.levelC p.2 id n g.lcpos (own.map fun v => BitVec.ofInt 32 v))) m

/-- The level-C sum, once every guild's sum is here: to the tree root for the broadcast (R418, R420). -/
def Module.levelCDone (m : Module) (id n : Nat) (g : Group) : Module :=
  match (m.liveColl id).bind fun c => (c.chunk n).map fun k => (c, k) with
  | none => m
  | some (c, k) =>
    if k.levelC.length < g.lcg ∨ k.total.isSome then m
    else
      let s := m.draw
      let t := sumColumns s.1 c.isInt (c.elems n) (k.levelC.map (·.2))
      let x := carried c.isInt t.1
      let m := s.2.saturate id n (t.2 + x.2)
      match (c.tree n).find? fun e => e.2.isNone with
      | some (root, _) =>
        if root = m.member then (m.setChunk id n fun k => { k with total := some x.1 }).broadcast id n none
        else m.sendChunk id n root 1 x.1
      | none => m

/-- The sum of a chunk over this member's subtree, once every child's is here: to the parent, or, at the root, to level C
or to the broadcast (R418, R420). While a child is missing, HOLD goes to the neighbour that waits: the parent, or at the
root the other children (R425, log entry 25, DEDUCED). -/
def Module.advanceChunk (m : Module) (id n : Nat) : Module :=
  match (m.liveColl id).bind fun c => (c.chunk n).map fun k => (c, k) with
  | none => m
  | some (c, k) =>
    let tree := c.tree n
    let kids := kidsIn tree m.member
    if k.root.isSome || k.total.isSome || k.upRfm == some c.rfm then m
    else if kids.all fun d => k.kids.any fun x => x.1 == d then
      let s := m.draw
      let t := sumColumns s.1 c.isInt (c.elems n) (k.own :: (k.kids.filter fun x => kids.contains x.1).map (·.2))
      let m := s.2.saturate id n t.2
      match parentIn tree m.member with
      | some up =>
        let x := carried c.isInt t.1
        ((m.saturate id n x.2).setChunk id n fun k => { k with upRfm := some c.rfm }).sendChunk id n up 0 x.1
      | none =>
        let m := m.setChunk id n fun k => { k with root := some t.1, rootMask := c.mask }
        match (m.groupOf c.grp).filter (·.levelC) with
        | some g =>
          if g.lcmember = m.member then (m.levelCSend id n g t.1).levelCDone id n g
          else
            let x := carried c.isInt t.1
            (m.saturate id n x.2).sendChunk id n g.lcmember 0 x.1
        | none =>
          let x := carried c.isInt t.1
          ((m.saturate id n x.2).setChunk id n fun k => { k with total := some x.1 }).broadcast id n none
    else if k.saidHold then m
    else
      let to_ := match parentIn tree m.member with
        | some up => [up]
        | none => kids.filter fun d => k.kids.any fun x => x.1 == d
      (m.sendAll to_ 0 (.holdMsg id n)).setChunk id n fun k => { k with saidHold := true }

/-! ### A chunk arrives (R417, R422, R427) -/

/-- A whole chunk has arrived with a good CRC. -/
def Module.takeChunk (m : Module) (id n src phase : Nat) (sat : Bool) (vals : List Int) : Module :=
  match m.coll id with
  | none => m
  | some c =>
    let tree := c.tree n
    let m := m.setChunk id n fun k => { k with sat := k.sat || sat }
    let lc := (m.groupOf c.grp).filter (·.levelC)
    if phase = 0 then
      if (kidsIn tree m.member).contains src then
        (m.setChunk id n fun k => { k with kids := assocSet src vals k.kids }).advanceChunk id n
      else match lc with
        | some g => if g.lcmember = m.member ∧ c.ended.isNone then (m.levelCSend id n g vals).levelCDone id n g else m
        | none => m
    else
      let mine := ((c.chunk n).bind (·.root)).isSome
      (m.setChunk id n fun k => { k with total := k.total <|> some vals }).broadcast id n (if mine then none else some src)

/-- One packet of a chunk that is under way: a packet of an older re-form is discarded, one of a newer kept; the LAST one
brings the CRC (R422). -/
def Module.takePacket (m : Module) (id src : Nat) (p : List Byte) : Module :=
  match m.coll id with
  | none => m
  | some c =>
    let n := fieldAt p 8 4
    let flags := fieldAt p 0x0E 1
    let phase := flags / 2 % 2
    let m := m.setColl id fun c => { c with heard := if c.heard.contains src then c.heard else c.heard ++ [src] }
    if fieldAt p 0x0F 1 < c.rfm ∨ !c.ranks.contains src ∨ c.ended == some stAborted then m
    else
      match c.chunk n with
      | none => m.setRwk fun r => { r with packets := r.packets ++ [(src, c.ptn, p)] }
      | some k =>
        if c.rfm < fieldAt p 0x0F 1 then m.setRwk fun r => { r with packets := r.packets ++ [(src, c.ptn, p)] }
        else
          let mine : Nat × Nat × Nat × List Byte → Bool := fun x => x.1 == src && x.2.1 == phase
          let pieces := k.pieces ++ [(src, phase, fieldAt p 0x10 4, slice p 0x20 (fieldAt p 0x14 4))]
          if flags / 4 % 2 = 0 then m.setChunk id n fun k => { k with pieces := pieces }
          else
            let got := (pieces.filter mine).foldl (fun (bs : List Byte) x => slice bs 0 x.2.2.1 ++ x.2.2.2 ++ bs.drop (x.2.2.1 + x.2.2.2.length)) []
            let m := m.setChunk id n fun k => { k with pieces := pieces.filter fun x => !mine x }
            if got.length = 4 * c.elems n ∧ (crc64 got).toNat = fieldAt p 0x18 8 then
              m.takeChunk id n src phase (flags.testBit 3) (wireVals c.isInt got)
            else if k.nacked then m.abortAll id 3 src c.sig 0
            else (m.setChunk id n fun k => { k with nacked := true }).sendTo src 0 (.nack id n)

/-- The sender is a tree neighbour from which this member still expects the chunk in that phase. -/
def Coll.expects (c : Coll) (me src n phase : Nat) : Bool :=
  match c.chunk n with
  | none => decide (c.chunks.length ≤ n) && c.live.contains src
  | some k =>
    let tree := c.tree n
    if phase = 0 then (kidsIn tree me).contains src && !(k.kids.any fun x => x.1 == src)
    else parentIn tree me == some src && k.total.isNone

/-- A CHUNK packet: its master is checked (R427), its signature finds its collective, or differs from the one expected
(R417), or it waits for a collective that has not begun here (log entry 26, DEDUCED). -/
def Module.chunkPacket (m : Module) (src p : Nat) (bs : List Byte) : Module :=
  let sig : Word := BitVec.ofNat 64 (fieldAt bs 0 8)
  let grp := fieldAt bs 0x0C 2
  let mine := m.rwk.colls.filter fun c => c.ptn == p && c.grp == grp
  let hit := mine.find? fun c => c.sig == sig
  let open_ := mine.filter fun c => c.ended.isNone
  let first := open_.foldl (fun (b : Option Coll) c => match b with
    | none => some c
    | some x => if c.seq < x.seq then some c else some x) none
  if !m.allowed tcRopewalk 0 p (remoteMaster src p) permWrite then
    let m := m.deny p (remoteMaster src p) tcRopewalk 0 permWrite
    match (hit.filter fun c => c.ended.isNone) <|> first with
    | some c => m.abortAll c.id 5 src c.sig 0
    | none => m
  else match hit with
    | some c => m.takePacket c.id src bs
    | none =>
      match first with
      | some c =>
        if !c.heard.contains src && c.expects m.member src (fieldAt bs 8 4) (fieldAt bs 0x0E 1 / 2 % 2) then m.abortAll c.id 0 src c.sig sig
        else m.setRwk fun r => { r with packets := r.packets ++ [(src, p, bs)] }
      | none => m.setRwk fun r => { r with packets := r.packets ++ [(src, p, bs)] }

/-- The packets kept for a collective come again, in their order. -/
def Module.replay (m : Module) (id : Nat) : Module :=
  match m.coll id with
  | none => m
  | some c =>
    let due : Nat × Nat × List Byte → Bool := fun x => x.2.1 == c.ptn && fieldAt x.2.2 0x0C 2 == c.grp
    let kept := m.rwk.packets.filter due
    let m := m.setRwk fun r => { r with packets := r.packets.filter fun x => !due x }
    kept.foldl (fun (m : Module) x => m.chunkPacket x.1 x.2.1 x.2.2) m

end Sys2Proof.Machine
end

