-- ==== Sys2Proof/Machine/Collective.lean ====
section
/-! DEFINITION. ALLREDUCE nodes and fall-back launches (R411–R413, R424), passes (R421), stragglers, re-forms and aborts
(R425–R427), level C (R418, R420), and the staged group table (R414, R430). -/
namespace Sys2Proof.Machine

/-! ### The rules of an ALLREDUCE node (R411, R412) -/

/-- A type of R412. -/
def collType (t : Nat) : Bool := t == 0x01 || t == 0x02 || t == 0x03 || t == 0x13

/-- Stored elements of Y, padding included (R412). -/
def Tensor.storedElems (t : Tensor) : Nat := if t.layout = 1 then t.tiles * 1024 else t.dim0 * t.dim1 * t.dim2

/-- The group number that a node names under the draft's COLLGRP (R411, R417). -/
def Node.grp (n : Node) (d : Draft) : Nat := if d.part.collgrp = 0 then n.par 3 8 else 0x100 + n.par 11 6

def allreduceRules (e : Nat × Nat × Nat) (x : RuleEnv) : List Rule :=
  let n := x.n
  let y := x.res 0
  let s := chunkBytes (n.par 17 4)
  let rgbuf := x.d.part.rgbuf * 2 ^ 20
  let place (t : Tensor) : Bool := t.space == 0 || t.space == 2
  [x.onNode 0x30 (n.par 0 2 == 0 && decide (n.par 17 4 ≤ 7 ∧ n.par 21 2 ≤ 2) && n.par 23 41 == 0),
   x.onNode 0x30 (if x.d.part.collgrp = 0 then n.par 11 6 == 0 && n.par 2 1 == 0 else n.par 3 8 == 0 && specFits e (n.par 11 6)),
   x.onNode 0x30 (rgbuf != 0 && decide (2 * s ≤ rgbuf)),
   x.onNode 0x04 (within n.nports 1 4), x.onNode 0x18 y.isSome,
   x.onRes 0 0 fun t => collType t.type,
   x.onRes 0 1 fun t => t.layout == 1 || t.layout == 0,
   x.onRes 0 2 place,
   x.onRes 0 4 fun t => within t.storedElems 1 (2 ^ 38),
   x.onRes 0 0x10 fun t => t.layout == 1 || t.pitch == 0,
   x.onRes 1 0 fun t => t.type == 0x14, x.onRes 1 1 fun t => t.layout == 0, x.onRes 1 2 place,
   x.onRes 1 4 fun t => both y (some t) fun y t => t.dim0 == chunkCount y.storedElems s,
   x.onRes 1 8 fun t => t.dim1 == 1, x.onRes 1 0xC fun t => t.dim2 == 1] ++
  (List.range n.nports).flatMap fun p =>
    [x.onPort p 0 fun t => collType t.type && both y (some t) fun y t => t.type == y.type,
     x.onPort p 1 fun t => both y (some t) fun y t => t.layout == y.layout,
     x.onPort p 2 place,
     x.onPort p 4 fun t => both y (some t) fun y t => t.dim0 == y.dim0,
     x.onPort p 8 fun t => both y (some t) fun y t => t.dim1 == y.dim1,
     x.onPort p 0xC fun t => both y (some t) fun y t => t.dim2 == y.dim2]

/-! ### Launch (R413) -/

/-- What a node or a descriptor asks the ropewalk for. -/
structure Launch where
  key     : Option FKey := none
  reqid   : Word := 0
  ptn     : Nat
  grp     : Nat
  ck      : Nat
  rnd     : Nat
  elastic : Bool
  xs      : List (Tensor × Nat)
  y       : Tensor × Nat
  m       : Option (Tensor × Nat)
  masters : List Nat
  reexec  : Bool := false
  deriving DecidableEq, Repr, Inhabited

/-- A tensor at its region address, once its extent and the ropewalk's grant have been checked (R105, R413 step 2): the
key of its first byte, or the status of R104 with its cause. An absent page is no failure: it halts the pass (R337). -/
def Module.collTensor (m : Module) (p : Nat) (x : Tensor × Nat) (perm : Nat) : Except (Nat × Nat × Nat) CollTensor :=
  let key := ((m.regionAt p x.2).map fun g => regionKey g.serial (x.2 - g.info.base)).getD 0
  match m.translate p ropewalkMaster x.2 x.1.extent perm with
  | .fault st cause => .error (st, cause, perm)
  | _ => if perm = permRead ∧ m.poisonedIn key x.1.extent then .error (stFaultAddress, 0, perm) else .ok { t := x.1, ra := x.2, key := key }

/-- Every tensor of a launch, placed. -/
def Module.collTensors (m : Module) (l : Launch) : Except (Nat × Nat × Nat × Nat) (List CollTensor × CollTensor × Option CollTensor) := do
  let one (x : Tensor × Nat) (perm : Nat) : Except (Nat × Nat × Nat × Nat) CollTensor :=
    match m.collTensor l.ptn x perm with
    | .ok t => .ok t
    | .error e => .error (x.2, e)
  let xs ← l.xs.mapM fun x => one x permRead
  let y ← one l.y permWrite
  let k ← match l.m with
    | none => .ok none
    | some x => (one x permWrite).map some
  return (xs, y, k)

/-- Forget what has arrived for collectives of a partition and group whose sequence numbers are taken (R416). -/
def Ropewalk.forget (r : Ropewalk) (p grp seq : Nat) : Ropewalk :=
  let old (n : Nat) : Bool := namePtn n == p && nameGrp n == grp && decide (nameSeq n < seq)
  { r with
    reforms := r.reforms.filter fun x => !old x.1
    aborts := r.aborts.filter fun x => !old x.name
    holds := r.holds.filter fun x => !old x.1
    sums := r.sums.filter fun x => !old x.1
    colls := r.colls.filter fun c => !(c.ptn == p && c.grp == grp && c.ended.isSome && decide (c.seq + 2 < seq)) }

/-- A launch ends ABORTED before its collective forms (R413 steps 3 and 4). -/
def Module.launchAborted (m : Module) (l : Launch) (seq cause member : Nat) : Module :=
  ((m.count (rwkR 0x108) 0 32).postAborted l.ptn l.grp seq cause member).endLaunch l.key l.ptn l.reqid stAborted

/-- Reserve the buffer of a collective, all or nothing (R413 step 5, R421). -/
def Module.rgReserve (m : Module) (id : Nat) : Module :=
  match m.liveColl id with
  | none => m
  | some c =>
    if !c.reserved && decide (m.rgUsed c.ptn + 2 * c.qsize ≤ m.rgbuf c.ptn) then m.setColl id fun c => { c with reserved := true } else m

/-- Steps 3 to 5 of R413 for a launch whose tensors are placed. -/
def Module.formColl (m : Module) (l : Launch) (xs : List CollTensor) (y : CollTensor) (mt : Option CollTensor) : Module :=
  let key := l.grp * 8 + l.ptn
  let seq := (assocGet key m.rwk.seqs).getD 0
  match (m.groupOf l.grp).filter fun g => g.ranks.contains m.member with
  | none => m.launchAborted l seq 7 0xFF
  | some g =>
    if l.reexec then m.launchAborted l seq 6 0xFF
    else
      let name := collName l.ptn l.grp seq
      let elastic := if l.grp < 256 then g.elastic else l.elastic
      let count := l.y.1.storedElems
      let sig := signature l.y.1.type l.ck l.ptn l.grp elastic g.levelC l.y.1.layout count seq
      let full := (g.ranks.map fun k => 2 ^ k).sum
      let re := (m.rwk.reforms.find? fun x => x.1 == name).map (·.2)
      let mask := (re.map (·.1)).getD full
      let gone := m.rwk.aborts.find? fun a => a.name == name
      let early := m.rwk.holds
      let m := m.setRwk fun r => ({ r with seqs := assocSet key (seq + 1) r.seqs } : Ropewalk).forget l.ptn l.grp seq
      if !mask.testBit m.member then m.launchAborted l seq 8 m.member
      else match gone with
        | some a =>
          if a.cause = 0 then
            ((m.count (rwkR 0x108) 0 32).postMismatch l.ptn l.grp seq sig a).endLaunch l.key l.ptn l.reqid stAborted
          else m.launchAborted l seq a.cause a.member
        | none =>
          let c : Coll :=
            { id := name, key := l.key, reqid := l.reqid, ptn := l.ptn, grp := l.grp, seq := seq, sig := sig, type := l.y.1.type
              count := count, csize := chunkBytes l.ck, qsize := passBytes count (chunkBytes l.ck) (m.rgbuf l.ptn), rnd := l.rnd
              elastic := elastic, ranks := g.ranks, masks := if mask = full then [full] else [mask], rfm := (re.map (·.2)).getD 0
              xs := xs, y := y, m := mt }
          let m := m.setRwk fun r => { r with colls := r.colls ++ [c], holds := early }
          let m := match l.key with
            | some k => m.setInst k.inst fun i => { i with launched := true }
            | none => m
          ((m.setReg (rwkR 0x120) sig).count (rwkR 0x100) 0 32).rgReserve name

/-- Steps 1 to 5 of R413. -/
def Module.launchColl (m : Module) (l : Launch) : Module :=
  match l.masters.find? fun M => !m.allowed tcRopewalk 0 l.ptn M permWrite with
  | some M => (m.deny l.ptn M tcRopewalk 0 permWrite).endLaunch l.key l.ptn l.reqid stFaultAccess
  | none =>
    match m.collTensors l with
    | .error (ra, st, cause, perm) =>
      let m := if cause = 0 then m else m.xfault l.ptn ropewalkMaster ra cause perm
      let m := match l.key with
        | some k => if cause = 0 ∨ cause = 4 then m.setInst k.inst fun i => { i with lostCause := if cause = 0 then 2 else 1 } else m
        | none => m
      m.endLaunch l.key l.ptn l.reqid st
    | .ok (xs, y, k) => m.formColl l xs y k

/-- What an ALLREDUCE firing asks for. -/
def Module.launchOf (m : Module) (f : Firing) : Launch :=
  let d := m.draft f.ptn
  let at_ (t : Tensor) : Tensor × Nat := (t, (m.tensorRa f t).getD 0)
  { key := some f.key, ptn := f.ptn, grp := f.n.grp d, ck := f.n.par 17 4, rnd := f.n.par 21 2, elastic := f.n.par 2 1 == 1
    xs := ((List.range f.n.nports).filterMap f.tensor).map at_, y := at_ ((f.res 0).getD default), m := (f.res 1).map at_
    masters := ((d.set f.n.bset).map fun s => s.benches.map benchMaster).getD [], reexec := f.i.forLost }

/-- An ALLREDUCE node fires (R411, R413); while a GROUP agreement changes its group it waits, holding nothing (R414). -/
def execAllreduce (k : FKey) (s : State) : Host.Outcome State Fault Refusal :=
  s.on fun m =>
    match m.storeFiring k 0x50 with
    | none => m
    | some f =>
      if m.groupWaits (f.n.grp (m.draft f.ptn)) || m.barred f.e then m
      else
        let x := m.begin_ f [] []
        if !x.2 then x.1
        else
          let m := x.1.launch k
          match m.firing k with
          | none => m
          | some f =>
            if ((allreduceRules m.extents (f.env (m.draft f.ptn))).all (·.1)) then m.launchColl (m.launchOf f)
            else m.finish f stFaultAddress

def execRwkReserveRetry (coll : Nat) (s : State) : Host.Outcome State Fault Refusal := s.on fun m => m.rgReserve coll

/-! ### Passes (R421) -/

/-- The first absent page of a collective's tensors, with its port (R337). -/
def Module.collAbsent (m : Module) (c : Coll) : Option (Nat × Nat) :=
  let see (port perm : Nat) (x : CollTensor) : Option (Nat × Nat) :=
    match m.translate c.ptn ropewalkMaster x.ra x.t.extent perm with
    | .halt page => some (page, port)
    | _ => none
  ((c.xs.zipIdx.findSome? fun x => see x.2 permRead x.1) <|> see 8 permWrite c.y) <|> c.m.bind (see 9 permWrite)

/-- A page of a collective's tensors has become LOST (R114). -/
def Module.collLostPage (m : Module) (c : Coll) : Option Nat :=
  (c.xs ++ [c.y] ++ c.m.toList).findSome? fun x =>
    match m.translate c.ptn ropewalkMaster x.ra x.t.extent permRead with
    | .fault _ 4 => some x.ra
    | _ => none

/-- One chunk of a starting pass: its level-A sum (R418). -/
def Module.startChunk (m : Module) (id n : Nat) : Module :=
  match m.coll id with
  | none => m
  | some c =>
    let mem := m.opened.mem
    let s := m.draw
    let t := sumColumns s.1 c.isInt (c.elems n) (c.xs.map fun x => (List.range (c.elems n)).map fun i => x.value mem (n * (c.csize / 4) + i))
    let early := (m.rwk.holds.filter fun h => h.1 == id && h.2.1 == n).map (·.2.2)
    let byte (x : CollTensor) (i : Nat) : Nat := let d := x.t.elemPos i; x.t.elemBit d.1 d.2.1 d.2.2 / 8
    let lo (x : CollTensor) : Nat := byte x (n * (c.csize / 4))
    let hi (x : CollTensor) : Nat := byte x (n * (c.csize / 4) + c.elems n - 1) + x.t.bits / 8
    let m := c.xs.foldl (fun (m : Module) x =>
      m.engineRead c.ptn (x.key + lo x) (x.ra + lo x) (hi x - lo x) x.t.hint) s.2
    let m := m.setColl id fun c => { c with chunks := c.chunks ++ [{ num := n, own := t.1, since := m.ltime, holds := early }] }
    m.saturate id n t.2

/-- A pass starts once every chunk of the pass before has completed here (R421); at an absent page the firing halts first
(R337, R425), and a page that is LOST ends it (R339). -/
def Module.passStart (m : Module) (id : Nat) : Module :=
  match m.liveColl id with
  | none => m
  | some c =>
    let total := chunkCount c.count c.csize
    let halted := ((c.key.bind m.entry).bind (·.haltAt)).isSome
    if !c.reserved || !c.chunks.all (·.done) || decide (total ≤ c.chunks.length) then m
    else match m.collLostPage c with
      | some ra =>
        let m := match c.key with
          | some k => if halted then m.post 0x0503 (some c.ptn) k.inst.toNat (m.pageDetail c.ptn ra k ++ leBytes 1 0) else m
          | none => m
        let m := (m.xfault c.ptn ropewalkMaster ra 4 permRead).unspecified c.y.key c.y.t.extent
        let m := match c.key with
          | some k => m.setInst k.inst fun i => { i with lostCause := 1 }
          | none => m
        m.endColl id stFaultAddress
      | none => if halted then m else match m.collAbsent c with
        | some (page, port) =>
          match c.key.bind m.firing with
          | some f => m.haltAt f.e.hall f.ptn f.key port page
          | none =>
            if (m.ptn c.ptn).pagesSaid.contains page then m
            else (m.setPtn c.ptn fun x => { x with pagesSaid := x.pagesSaid ++ [page] }).post 0x0501 (some c.ptn) 0
              (m.pageDetail c.ptn page default ++ leBytes 2 1)
        | none =>
          let first := c.chunks.length
          let ns := (List.range (min (c.qsize / c.csize) (total - first))).map (first + ·)
          let m := (m.setColl id fun c => { c with pass := c.pass + 1 }).count (rwkR 0x100) 32 32
          let m := ns.foldl (fun (m : Module) n => m.startChunk id n) m
          let m := m.setRwk fun r => { r with holds := r.holds.filter fun h => !(h.1 == id && ns.contains h.2.1) }
          let m := ns.foldl (fun (m : Module) n => m.advanceChunk id n) m
          let sums := m.rwk.sums.filter fun x => x.1 == id && ns.contains x.2.1
          let m := m.setRwk fun r => { r with sums := r.sums.filter fun x => !(x.1 == id && ns.contains x.2.1) }
          let m := match (m.groupOf c.grp).filter (·.levelC) with
            | none => m
            | some g => sums.foldl (fun (m : Module) (x : Nat × Nat × Nat × List (BitVec 32)) =>
                (m.setChunk id x.2.1 fun k => { k with levelC := k.levelC ++
                  [(x.2.2.1, wireVals c.isInt (x.2.2.2.flatMap fun (v : BitVec 32) => leBytes 4 v.toNat))] }).levelCDone id x.2.1 g) m
          m.replay id

def execCollPassStart (coll : Nat) (s : State) : Host.Outcome State Fault Refusal := s.on fun m => m.passStart coll

/-! ### Packets and resends (R422) -/

/-- A CHUNK packet arrives (R391, R422). -/
def execChunk (src : MemberId) (ptn : PtnId) (payload : List Byte) (s : State) : Host.Outcome State Fault Refusal :=
  s.on fun m => m.chunkPacket src.val ptn.val payload

/-- A NACK: the chunk last sent to that member is sent again from the buffer (R422). -/
def execChunkNack (src : MemberId) (coll : Nat) (chunk : Nat) (s : State) : Host.Outcome State Fault Refusal :=
  s.on fun m =>
    match ((m.coll coll).bind fun c => c.chunk chunk).bind fun k => k.sent.reverse.find? fun x => x.1 == src.val with
    | none => m
    | some (_, phase, vals) => (m.count (rwkR 0x118) 0 32).sendChunk coll chunk src.val phase vals

/-! ### Stragglers and loss (R425, R426) -/

/-- HOLD: the neighbour that sends it waits on its own child, and is not late (R425). -/
def execHold (src : MemberId) (coll : Nat) (chunk : Nat) (s : State) : Host.Outcome State Fault Refusal :=
  s.on fun m =>
    if ((m.coll coll).bind fun c => c.chunk chunk).isSome then m.setChunk coll chunk fun k => { k with holds := k.holds ++ [src.val] }
    else m.setRwk fun r => { r with holds := r.holds ++ [(coll, chunk, src.val)] }

/-- The member that takes a LATE: the lowest live rank, or the next one where it is itself the late one (R425). -/
def coordinator (live : List Nat) (late : Nat) : Option Nat := (live.filter (· != late)).head?

/-- A tree neighbour has kept this member waiting past the limit (R425): a child that has sent neither its sum nor HOLD,
or the root of the tree that has sent its children neither the broadcast nor HOLD (log entry 25, DEDUCED). -/
def execStragglerExpire (coll : Nat) (chunk : Nat) (neighbour : MemberId) (s : State) : Host.Outcome State Fault Refusal :=
  s.on fun m =>
    match (m.liveColl coll).bind fun c => (c.chunk chunk).map fun k => (c, k) with
    | none => m
    | some (c, k) =>
      let tree := c.tree chunk
      let n := neighbour.val
      let child := (kidsIn tree m.member).contains n && !(k.kids.any fun x => x.1 == n) && k.root.isNone && k.total.isNone
      let root := parentIn tree m.member == some n && (parentIn tree n).isNone && k.upRfm == some c.rfm && k.total.isNone
      if !(child || root) || k.holds.contains n then m
      else match m.groupOf c.grp, coordinator c.live n with
        | some g, some d => (m.until_ (k.since + m.stragLimit g * 1000 + 1)).packet d 0 (.lateMsg coll n c.elastic)
        | _, _ => m

/-- Chunks of the current pass under a new mask (R426): a root sum already formed is broadcast again from the member that
formed it; every other chunk restarts its reduction. A chunk that has completed here restarts only where the member that
formed its sum is gone. -/
def Module.restartChunk (m : Module) (id n : Nat) (old : List Nat) : Module :=
  match (m.coll id).bind fun c => (c.chunk n).map fun k => (c, k) with
  | none => m
  | some (c, k) =>
    let formed := (((treeOf old (n % 2)).find? fun e => e.2.isNone).map (·.1)).getD m.member
    if k.root.isSome then m.broadcast id n none
    else if k.total.isSome && c.live.contains formed then m
    else (m.setChunk id n fun k => { k with kids := [], pieces := [], saidHold := false, total := none, since := m.ltime, holds := [] }).advanceChunk id n

/-- REFORM is applied (R426): trees and chunks under the new mask; a member left out ends with cause EXCLUDED; a
collective that has not begun here begins under the mask later (R413 step 4). -/
def Module.applyReform (m : Module) (name mask rfm : Nat) : Module :=
  match m.coll name with
  | none =>
    if nameSeq name < (assocGet (nameGrp name * 8 + namePtn name) m.rwk.seqs).getD 0 then m
    else m.setRwk fun r =>
      { r with reforms := if r.reforms.any fun x => x.1 == name && decide (rfm ≤ x.2.2) then r.reforms
                          else (r.reforms.filter fun x => x.1 != name) ++ [(name, mask, rfm)] }
  | some c =>
    if rfm ≤ c.rfm ∨ c.ended == some stAborted then m
    else
      let m := (m.count (rwkR 0x110) 0 32).count (rwkR 0x110) 32 32 (popcount 64 (c.mask - (c.mask &&& mask)))
      if !mask.testBit m.member then
        m.abortColl name { name := name, cause := 8, detector := m.member, member := m.member, sigA := c.sig, sigB := 0 }
      else
        let old := c.live
        let m := m.setColl name fun c => { c with masks := c.masks ++ [mask], rfm := rfm }
        let ns := (c.chunks.drop ((c.pass - 1) * (c.qsize / c.csize))).map (·.num)
        (ns.foldl (fun (m : Module) n => m.restartChunk name n old) m).replay name

/-- The coordinator's answer to the first LATE of a collective, or to the loss of a member (R426). -/
def Module.coordinate (m : Module) (name member cause : Nat) (elastic : Bool) : Module :=
  match m.groupOf (nameGrp name) with
  | none => m
  | some g =>
    let c := m.coll name
    let re := (m.rwk.reforms.find? fun x => x.1 == name).map (·.2)
    let full := (g.ranks.map fun k => 2 ^ k).sum
    let mask := match c with
      | some c => c.mask
      | none => (re.map (·.1)).getD full
    let rfm := match c with
      | some c => c.rfm
      | none => (re.map (·.2)).getD 0
    let live := g.ranks.filter fun k => mask.testBit k
    let past := c.isNone && decide (nameSeq name < (assocGet (nameGrp name * 8 + namePtn name) m.rwk.seqs).getD 0)
    if !live.contains member || coordinator live member != some m.member || ((c.bind (·.ended)).isSome) || past then m
    else
      let p := namePtn name
      let grp := nameGrp name
      let seq := nameSeq name
      let lc := g.levelC && g.lcmember == member
      if elastic && decide (3 ≤ live.length) && !lc then
        let next := mask - 2 ^ member
        let m := m.sendGroup g.ranks (.reform name next (rfm + 1))
        let m := m.post 0x0402 (some p) 0 (collDetail grp seq ++ leBytes 8 (2 ^ member) ++ leBytes 1 cause ++ leBytes 1 (rfm + 1))
        m.applyReform name next (rfm + 1)
      else
        let cause := if lc then 4 else cause
        let m := m.sendGroup g.ranks (.collAbort p grp seq cause m.member member 0 0)
        let a : EarlyAbort := { name := name, cause := cause, detector := m.member, member := member, sigA := 0, sigB := 0 }
        if c.isSome then m.abortColl name a else m.setRwk fun r => { r with aborts := r.aborts ++ [a] }

def execLate (coll : Nat) (member : MemberId) (elastic : Bool) (s : State) : Host.Outcome State Fault Refusal :=
  s.on fun m => m.coordinate coll member.val 1 elastic

def execReform (coll : Nat) (mask : Word) (rfm : Byte) (s : State) : Host.Outcome State Fault Refusal :=
  s.on fun m => m.applyReform coll mask.toNat rfm.toNat

/-- ABORT arrives (R417, R426): the collective ends here; one that has not begun ends at step 4 of R413. -/
def execCollAbort (ptn : PtnId) (grp : BitVec 16) (seq : Word) (cause : Byte) (detector member : MemberId) (sigA sigB : Word)
    (s : State) : Host.Outcome State Fault Refusal :=
  s.on fun m =>
    let name := collName ptn.val (grp.toNat % 512) seq.toNat
    let a : EarlyAbort := { name := name, cause := cause.toNat, detector := detector.val, member := member.val, sigA := sigA, sigB := sigB }
    if (m.coll name).isSome then m.abortColl name a
    else if seq.toNat < (assocGet (grp.toNat % 512 * 8 + ptn.val) m.rwk.seqs).getD 0 then m
    else m.setRwk fun r => { r with aborts := r.aborts ++ [a] }

/-- A member has left JOINED (R406, R426): the coordinator of each collective under way acts; without LCMEMBER level C
aborts on every member that detects it. -/
def Module.collMemberLost (m : Module) (member : Nat) : Module :=
  (m.rwk.colls.filter fun c => c.ended.isNone && c.live.contains member).foldl (fun (m : Module) c =>
    if ((m.groupOf c.grp).map fun g => g.levelC && g.lcmember == member).getD false then m.abortAll c.id 4 member c.sig 0
    else m.coordinate c.id member 2 c.elastic) m

/-! ### Level C (R418, R420) -/

/-- Level-C sums of a peer guild arrive at LCMEMBER on the queue pair of that guild (R414, R454): they are added, and the
sum returns to the tree root. -/
def execLevelCSumReceive (coll : Nat) (chunk : Nat) (guildPos : Nat) (sums : List (BitVec 32)) (s : State) :
    Host.Outcome State Fault Refusal :=
  s.on fun m =>
    match (m.groupOf (nameGrp coll)).filter fun g => g.levelC && g.lcmember == m.member with
    | none => m
    | some g =>
      match ((g.peers.find? fun p => p.1 == guildPos).bind fun p => m.qp p.2) with
      | none => m
      | some q =>
        if !m.allowed tcQueue q.target q.ptn ropewalkMaster permRead then m.deny q.ptn ropewalkMaster tcQueue q.target permRead
        else match (m.liveColl coll).bind fun c => (c.chunk chunk).map fun k => (c, k) with
          | none =>
            if (m.coll coll).isSome && ((m.coll coll).bind (·.ended)).isSome then m
            else m.setRwk fun r => { r with sums := r.sums ++ [(coll, chunk, guildPos, sums)] }
          | some (c, k) =>
            if k.levelC.any fun x => x.1 == guildPos then m
            else (m.setChunk coll chunk fun k => { k with levelC := k.levelC ++
                [(guildPos, wireVals c.isInt (sums.flatMap fun v => leBytes 4 v.toNat))] }).levelCDone coll chunk g

/-- The queue pair of a peer guild has closed: level C aborts (R426). -/
def Module.levelCPeerLost (m : Module) (qp : Nat) : Module :=
  (m.rwk.colls.filter fun c => c.ended.isNone && ((m.groupOf c.grp).map fun g =>
      g.levelC && g.lcmember == m.member && g.peers.any fun p => p.2 == qp).getD false).foldl
    (fun (m : Module) c => m.abortAll c.id 4 m.member c.sig 0) m

/-! ### Fall-back launches (R424) -/

/-- The descriptor as a command of the tally: OPC 0xF0, with the fields that make two descriptors the same command. -/
def fallbackCapsule (d : FallbackDesc) : Capsule :=
  { opc := 0xF0, flags := 0, ptn := d.ptn, policy := d.gkind, inlen := 0, target := 0xFF, rsv07 := 0, reqid := d.reqid
    handle := d.xaddr, budget := 0, cseq := d.cseq, nin := d.type, nout := d.flags, listoff := d.gsel, npin := 0, pinoff := 0
    arg0 := d.count, arg1 := d.yaddr, arg2 := d.maddr, inl := [] }

/-- The descriptor that a command of the tally stands for. -/
def capsuleFallback (c : Capsule) : FallbackDesc :=
  { reqid := c.reqid, ptn := c.ptn, type := c.nin, flags := c.nout, gkind := c.policy, gsel := c.listoff, rsv0E := 0
    count := c.arg0, xaddr := c.handle, yaddr := c.arg1, maddr := c.arg2, cseq := c.cseq, rsv34 := 0 }

/-- A descriptor runs (R6, R13, R424): its reserved fields and codes, its group kind, its queue's group and partition, and
the chunk size against RGBUF. -/
def Module.fallbackOk (m : Module) (q : QueuePair) (d : FallbackDesc) : Bool :=
  let fl := d.flags.toNat
  let p := d.ptn.toNat % 8
  let s := chunkBytes (fl / 16)
  d.reqid != 0 && decide (d.ptn.toNat < 8 ∧ fl / 8 % 2 = 0 ∧ fl / 16 ≤ 7 ∧ fl / 2 % 4 ≤ 2 ∧ d.gkind.toNat ≤ 1) && d.rsv0E == 0 && d.rsv34 == 0 &&
    collType d.type.toNat && within d.count.toNat 1 (2 ^ 38) && (m.ptn p).draft.isSome && q.ptn == p &&
    d.gkind.toNat == (m.draft p).part.collgrp && q.gkind == d.gkind.toNat && q.gsel == d.gsel.toNat &&
    (if d.gkind = 0 then decide (d.gsel.toNat < 256) else decide (d.gsel.toNat < 64) && specFits m.extents d.gsel.toNat) &&
    decide (m.rgbuf p ≠ 0 ∧ 2 * s ≤ m.rgbuf p)

def fallbackGrp (d : FallbackDesc) : Nat := if d.gkind = 0 then d.gsel.toNat % 256 else 0x100 + d.gsel.toNat % 64

/-- A row of elements at a region address. -/
def linear (type count : Nat) : Tensor :=
  { type := type, layout := 0, hint := 0, space := 0, pat := 0, oobx := false, dim0 := count, dim1 := 1, dim2 := 1, pitch := 0, aux := 0, addr := 0 }

/-- What a descriptor asks for. -/
def Module.launchFallback (m : Module) (x : FallbackWait) : Module :=
  let d := x.desc
  let fl := d.flags.toNat
  let p := d.ptn.toNat % 8
  let n := d.count.toNat
  let mt := if d.maddr = 0 then none else some (linear 0x14 (chunkCount n (chunkBytes (fl / 16))), d.maddr.toNat)
  m.launchColl
    { reqid := d.reqid, ptn := p, grp := fallbackGrp d, ck := fl / 16, rnd := fl / 2 % 4, elastic := fl.testBit 0
      xs := [(linear d.type.toNat n, d.xaddr.toNat)], y := (linear d.type.toNat n, d.yaddr.toNat), m := mt
      masters := [queueMaster p (((m.qp x.qp).map (·.aclass)).getD 0)], reexec := x.reexec }

/-- Launch the tallied descriptors in queue order, up to one whose group is being changed (R414, R424). -/
def Module.launchFallbacks (m : Module) : Module :=
  go m.rwk.fallbacks.length m
where
  go : Nat → Module → Module
    | 0, m => m
    | n + 1, m =>
      match m.rwk.fallbacks.find? fun x =>
          !(m.groupWaits (fallbackGrp x.desc)) && (m.rwk.fallbacks.find? fun y => y.qp == x.qp) == some x with
      | none => m
      | some x => go n ((m.setRwk fun r => { r with fallbacks := r.fallbacks.erase x }).launchFallback x)

/-- A tallied descriptor joins its queue. -/
def Module.fallbackRun (qp : Nat) (m : Module) (c : Capsule) (_ : List Byte) : Module :=
  (m.setRwk fun r => { r with fallbacks := r.fallbacks ++ [{ qp := qp, desc := capsuleFallback c }] }).launchFallbacks

/-- A descriptor arrives on a COMM queue pair (R424): refused with ABORTED, or tallied and run; one behind a descriptor of
its queue that waits for the tally waits too. -/
def execFallbackLaunch (qp : Nat) (d : FallbackDesc) (s : State) : Host.Outcome State Fault Refusal :=
  s.on fun m =>
    match (m.qp qp).filter fun q => q.kind == 1 && !q.err && (m.pwr.mode == .joined || m.pwr.mode == .draining) with
    | none => m
    | some q =>
      let c := fallbackCapsule d
      let o : Origin := { own := some (deliveryOf qp c), recv := m.member, capsule := c }
      let p := d.ptn.toNat % 8
      if !m.fallbackOk q d then m.refuseTo o
      else if (m.ptn p).blocked.any fun b => b.origin.capsule.opc == 0xF0 && (b.origin.own.map (·.qp)) == some qp then
        m.setPtn p fun x => { x with blocked := x.blocked ++ [{ origin := o, arrival := m.ltime, elapsed := 0, data := [] }] }
      else m.enter o m.ltime 0 [] (Module.fallbackRun qp)

/-! ### The staged group table (R414, R430) -/

/-- The bytes of a group table. -/
def tableBytes (t : WordMap) : List Byte := (List.range 256).flatMap (groupEntry t)

/-- RWK_GCOMMIT.COMMIT: the staged table goes to the warden, which runs a GROUP agreement or refuses it; a table that is
not valid is refused (log entry 27, DEDUCED). -/
def Module.gcommit (m : Module) : Module :=
  let ok := groupTableOk m.guildSize m.rwk.stagedT
  let m := m.setRwk fun r => if ok then { r with busy := true } else { r with result := 3 }
  m.packet m.guild.warden 3 (.bulk 3 0 (tableBytes m.rwk.stagedT))

def execRwkGcommitCommit (s : State) : Host.Outcome State Fault Refusal := s.on Module.gcommit

/-- RWK_GCOMMIT.DISCARD: the staged table becomes the table in force (R430). -/
def Module.gdiscard (m : Module) : Module := m.setRwk fun r => { r with stagedT := r.inForce }

def execRwkGcommitDiscard (s : State) : Host.Outcome State Fault Refusal := s.on Module.gdiscard

end Sys2Proof.Machine
end

