-- ==== Sys2Proof/Machine/Charter.lean ====
section
/-! DEFINITION. The charter and its comparison (R399, R400), the quote that goes with JOIN (R481, R482), and the routes
that the warden computes (R394). -/
namespace Sys2Proof.Machine

/-! ### The charter (R399, R400) -/

/-- The first 8 bytes of a digest (R399). -/
def digest8 (bs : List Byte) : List Byte := (sha3 bs).take 8

/-- The digest of a partition's draft: 64 zero bytes for an inactive partition. -/
def Partition.digest (x : Partition) : List Byte := ((x.draft.map (·.digest)).getD []) ++ List.replicate (64 - ((x.draft.map (·.digest)).getD []).length) 0

/-- Insert a table in increasing table ID. -/
def insertTable (x : Table) : List Table → List Table
  | [] => [x]
  | y :: t => if x.place.table ≤ y.place.table then x :: y :: t else y :: insertTable x t

/-- The placed tables in increasing table ID. -/
def sortTables : List Table → List Table
  | [] => []
  | x :: t => insertTable x (sortTables t)

/-- The edition digest's input: table ID, CURRENT edition and last flip epoch of every placed table. -/
def Module.editionBytes (m : Module) : List Byte :=
  (sortTables m.tables).flatMap fun x => leBytes 4 x.place.table ++ leBytes 4 x.currentNum ++ leBytes 8 x.flip

/-- GEOM of R399. -/
def Module.geom (m : Module) : Nat :=
  m.fld (fabR 0x000) 6 2 + 4 * m.fld (fabR 0x000) 8 2 + 16 * m.fld (fabR 0x000) 10 2

/-- The module's own charter record, as its state makes it (R399). -/
def Module.charter (m : Module) : List Byte :=
  let body := leBytes 4 0x48435A44 ++ leBytes 2 (m.fld (chipR 0) 32 16) ++ leBytes 1 m.geom ++ leBytes 1 m.member ++
    leBytes 8 (m.reg (fabR 0x008)).toNat ++ leBytes 8 m.guild.epoch ++ digest8 (m.asy.hallmarks.take 8).flatten ++
    digest8 (m.ptns.flatMap Partition.digest) ++ digest8 (tableBytes m.rwk.inForce) ++ digest8 m.editionBytes
  body ++ leBytes 4 (crc32c body).toNat ++ leBytes 4 0

/-- The fields that two charters must share, in the order of MISMATCH's mask: offset and size (R400, R409). -/
def charterFields : List (Nat × Nat) := [(0x04, 2), (0x06, 1), (0x08, 8), (0x18, 8), (0x20, 8), (0x28, 8), (0x30, 8)]

/-- The reserved bits of a charter are zero (R6, R399). -/
def charterOk (c : List Byte) : Bool := fieldAt c 6 1 < 64 && fieldAt c 0x3C 4 == 0

/-- The mask of the fields in which two charters differ (R400). -/
def charterDiff (a b : List Byte) : Nat :=
  (charterFields.zipIdx.filter fun f => fieldAt a f.1.1 f.1.2 != fieldAt b f.1.1 f.1.2).foldl (fun x f => setBit x f.2) 0

def charterEpoch (a : List Byte) : Nat := fieldAt a 0x10 8

/-- A charter that agrees with the guild's (R6, R400). -/
def agrees (theirs guild : List Byte) : Bool := charterOk theirs && charterDiff theirs guild == 0

/-- The warden's notice MISMATCH (R402, R409). A charter refused for a reserved field alone differs in no field of the mask: the notice
then carries mask 0 and no values (R6, log entry 155, DESIGN CHOICE). -/
def Module.mismatch (m : Module) (member : Nat) (theirs guild : List Byte) : Module :=
  let d := charterDiff theirs guild
  match charterFields[((List.range 7).find? d.testBit).getD 7]? with
  | none => if charterOk theirs then m else m.post 0x0901 none 0 (leBytes 1 member)
  | some (o, n) =>
    m.post 0x0901 none 0 (leBytes 1 member ++ leBytes 1 d ++ leBytes 8 (fieldAt theirs o n) ++ leBytes 8 (fieldAt guild o n))

/-! ### Quotes (R481, R482) -/

/-- Module states as R499 codes them. -/
def Mode.code : Mode → Nat
  | .off => 0
  | .boot => 1
  | .training => 2
  | .quarantine => 3
  | .joined => 4
  | .draining => 5
  | .faulted => 6

/-- A quote (R481): its fields, the selected hallmark registers, and the signature block of R74. -/
def Module.quoteFor (m : Module) (nonce : List Byte) (mask : Nat) : List Byte × Module :=
  let body := leBytes 4 0x51415A44 ++ leBytes 2 (m.fld (chipR 0) 32 16) ++ leBytes 2 mask ++ leBytes 8 (m.reg (chipR 0)).toNat ++
    leBytes 16 Config.serial.toNat ++ slice nonce 0 32 ++ leBytes 2 m.asy.running ++ leBytes 1 m.member ++
    leBytes 1 m.pwr.mode.code ++ leBytes 60 0 ++ (bitsSet 16 mask).flatMap fun i => m.asy.hallmarks.getD i []
  let m' := m.setAsy fun a => { a with drbg := a.drbg + 1 }
  (body ++ leBytes 2 4627 ++ leBytes 6 0 ++ slice (Config.mldsaSign m.asy.drbg body) 0 4627 ++ leBytes 5 0, m')

/-- The nonce of the quote that goes with a charter (R482). -/
def joinNonce (charter : List Byte) : List Byte := (sha3 charter).take 32

/-- Why the warden does not accept a joining member's quote, by the numbers of QUOTE_FAIL (R482). -/
def quoteFault (quote charter : List Byte) (linkSerial : BitVec 128) : Option Nat :=
  if !Config.quoteChainOk quote then some 1
  else if !Config.quoteSigOk quote then some 2
  else if slice quote 0x20 32 != joinNonce charter then some 3
  else if fieldAt quote 0x10 16 != linkSerial.toNat then some 4
  else none

/-- JOIN over VC0 to whatever warden there is (R402 step 2): the charter and the quote of registers 0–15. -/
def Module.sendJoin (m : Module) : Module :=
  let ch := m.charter
  let q := m.quoteFor (joinNonce ch) 0xFFFF
  let m := q.2.setGuild fun g => { g with joinAt := m.ltime }
  ((List.range m.guildSize).filter (· != m.member)).foldl (fun (m : Module) k => m.packet k 0 (.join ch q.1)) m

/-! ### Routes (R381, R394) -/

/-- What the warden knows of the torus: the extents, the members JOINED, and the ports reported down. -/
structure Torus where
  ext    : List Nat
  joined : List Nat
  spare  : Nat
  down   : List (Nat × Nat)
  deriving DecidableEq, Repr, Inhabited

def Module.torus (m : Module) (joined : List Nat) : Torus :=
  { ext := [m.fld (fabR 0x000) 6 2 + 1, m.fld (fabR 0x000) 8 2 + 1, m.fld (fabR 0x000) 10 2 + 1], joined := joined
    spare := m.fld (fabR 0x000) 12 2, down := m.guild.downLinks }

def Torus.extent (t : Torus) (axis : Nat) : Nat := t.ext.getD axis 1

/-- How far apart two members are in number along an axis. -/
def Torus.pitch (t : Torus) (axis : Nat) : Nat := ((t.ext.take axis).foldl (· * ·) 1)

def Torus.coord (t : Torus) (k axis : Nat) : Nat := k / t.pitch axis % t.extent axis

/-- The member at another coordinate of an axis. -/
def Torus.move (t : Torus) (k axis c : Nat) : Nat := k - t.coord k axis * t.pitch axis + c * t.pitch axis

/-- The next JOINED member in a direction of R381, itself apart. -/
def Torus.next (t : Torus) (k d : Nat) : Option Nat :=
  let axis := d / 2
  let n := t.extent axis
  let step (i : Nat) : Nat := t.move k axis ((t.coord k axis + (if d % 2 = 0 then i + 1 else n - (i + 1))) % n)
  ((List.range (n - 1)).map step).find? t.joined.contains

/-- The ports of a direction: five lanes, and the spare of its axis (R381, R383). -/
def Torus.ports (t : Torus) (d : Nat) : List Nat :=
  (List.range 5).map (fun l => 6 * l + d) ++ if t.spare = d / 2 then [30 + d % 2] else []

/-- Some link of a member in a direction has not been reported down by either end. -/
def Torus.usable (t : Torus) (k d : Nat) : Bool :=
  match t.next k d with
  | none => false
  | some n =>
    let back := d / 2 * 2 + (1 - d % 2)
    (List.range 6).any fun l =>
      match (t.ports d)[l]?, (t.ports back)[l]? with
      | some p, some q => !(t.down.contains (k, p)) && !(t.down.contains (n, q))
      | _, _ => false

/-- The hops around a ring in one direction from one member to another. -/
def Torus.walk (t : Torus) (d target : Nat) : Nat → Nat → Option (List Nat)
  | 0, k => if k = target then some [] else none
  | n + 1, k =>
    if k = target then some []
    else if !t.usable k d then none
    else (t.next k d).bind fun x => (t.walk d target n x).map (d :: ·)

/-- The hops along one axis: the shorter way around over live members, a tie going the + way (R394). -/
def Torus.along (t : Torus) (k axis target : Nat) : Option (List Nat) :=
  if k = target then some []
  else if !t.joined.contains target then none
  else match t.walk (2 * axis) target 4 k, t.walk (2 * axis + 1) target 4 k with
    | some a, some b => some (if b.length < a.length then b else a)
    | some a, none => some a
    | none, b => b

/-- The dimension-ordered path, X then Y then Z. -/
def Torus.ordered (t : Torus) (s d : Nat) : Option (List Nat) := do
  let a := t.move s 0 (t.coord d 0)
  let b := t.move a 1 (t.coord d 1)
  let x ← t.along s 0 a
  let y ← t.along a 1 b
  let z ← t.along b 2 d
  some (x ++ y ++ z)

/-- ROUTE of R390: direction codes from bit 0, and the hop count. -/
def routeWord (hops : List Nat) : Word :=
  BitVec.ofNat 64 ((hops.zipIdx.map fun (d, i) => d * 8 ^ i).sum + hops.length * 2 ^ 36)

/-- The route from one member to another (R394): the dimension-ordered path; where there is none, two such paths with one
turn against the order between them, through a member that the stream picks. None where no route of 12 hops exists. -/
def Torus.route (t : Torus) (pick : Nat) (s d : Nat) : Option Word :=
  match t.ordered s d with
  | some p => some (routeWord p)
  | none =>
    let ways := t.joined.filterMap fun w => do
      let a ← t.ordered s w
      let b ← t.ordered w d
      if a.length + b.length ≤ 12 then some (routeWord (a ++ b)) else none
    ways[pick % ways.length]?

/-- The route set over a membership, by source × 64 + destination (R394). -/
def Module.routeSet (m : Module) (joined : List Nat) : List (Nat × Word) × Module :=
  let t := m.torus joined
  let r := m.draw
  (joined.flatMap fun s => joined.filterMap fun d =>
    if s = d then none else (t.route (r.1 (s * 64 + d)) s d).map fun w => (s * 64 + d, w), r.2)

/-- The part of a route set that a member keeps: the routes on which it is the source. -/
def Module.takeRoutes (m : Module) (rs : List (Nat × Word)) : Module :=
  m.setFab fun f => { f with routes := (rs.filter fun r => r.1 / 64 == m.member).map fun r => (r.1 % 64, r.2) }

/-- Rings of extent 4 on an axis in which one live member is left, with that member (R385): the other coordinates. -/
def Torus.lone (t : Torus) : List (Nat × Nat × Nat × Nat) :=
  (List.range 3).flatMap fun axis =>
    if t.extent axis < 4 then []
    else t.joined.filterMap fun k =>
      let others := (List.range 3).filter (· != axis)
      if (t.next k (2 * axis)).isNone then some (axis, k, t.coord k (others.getD 0 0), t.coord k (others.getD 1 0)) else none

end Sys2Proof.Machine
end

