-- ==== Sys2Proof/Machine/Edition.lean ====
section
/-! DEFINITION. Edition commands (R158–R169), page commands (R111–R113), guild graphs (R281–R283), and RETIRE_SLOW (R170). -/
namespace Sys2Proof.Machine

/-! ### Parts of the edition commands (R162–R167) -/

/-- The notice BUILD_SPACE (R163, R165, R177). -/
def Module.buildSpace (m : Module) (p table edition stack page : Nat) : Module :=
  m.post 0x0805 (some p) table (leBytes 4 table ++ leBytes 4 edition ++ leBytes 1 stack ++ leBytes 4 page)

/-- A table has a BUILDING or SEALED edition, or one set aside (R160). -/
def Table.building (x : Table) : Bool :=
  (x.editions.any fun e => e.state == .building || e.state == .sealed) || x.aside.isSome

/-- EDITION_BEGIN on one member (R162, R163): the next edition is set aside with its map; under FRESH with zeroed pages. -/
def Module.beginPart (m : Module) (c : Capsule) (x : Table) : Module × Nat :=
  let t := x.place.table
  let drop := (x.aside.map fun a => a.1 == c.reqid).getD false
  let m := if drop then m.decideBegin c.reqid false else m
  let x := (m.table t).getD x
  if x.building then (m, stAborted)
  else
    let fresh := c.arg0.toNat / 2 ^ 32 % 256 == 1
    match m.regionNo x.ptn x.place.rgn, x.editions.find? fun e => e.state == .current with
    | some g, some cur =>
      if fresh then
        let r := m.allocTable g x.place (m.takenPages x.ptn x.place.rgn)
        match r.1 with
        | .error (s, j) => (r.2.buildSpace x.ptn t 0 s j, stAborted)
        | .ok (a, b) =>
          let e : Edition := { num := x.highest + 1, state := .building, fresh := true, primary := a, twin := b }
          ((r.2.freePages x.ptn g e.pages).setTable t fun y => { y with aside := some (c.reqid, e) }, stOk)
      else
        let e : Edition := { num := x.highest + 1, state := .building, fresh := false, primary := cur.primary, twin := cur.twin }
        (m.setTable t fun y => { y with aside := some (c.reqid, e) }, stOk)
    | _, _ => (m, stAborted)

/-- Another edition of the table maps the page too. -/
def Table.shares (x : Table) (num page : Nat) : Bool := x.editions.any fun e => e.num != num && e.pages.contains page

/-- Copy-on-write of shard page `j` of one copy (R164): a free page on the required stack; the source page's combining
entries written back; the content copied, poison with it, and the page BUILDING; the map entry repointed. -/
def Module.cowPage (m : Module) (x : Table) (g : RegionSt) (num : Nat) (twin : Bool) (j page : Nat) : Option Nat × Module :=
  let s := x.place.stackOf j
  let r := m.allocPage g (m.takenPages x.ptn x.place.rgn) s
  match r.1 with
  | none => (none, r.2)
  | some k =>
    let lo := g.pageKey page
    let dst := g.pageKey k
    let len := 2 ^ g.info.shift
    let m := (r.2.releaseKeys dst (dst + len)).writeBackAll s fun e => lineIn lo (lo + len) e.line
    let m : Module := { m with mem := m.mem.copy lo dst len }
    let bad := ((m.quern s).poisoned.filter fun z => decide (lo ≤ z * 32 ∧ z * 32 < lo + len)).map fun z => z - lo / 32 + dst / 32
    let m := (m.setQuern s fun q => { q with poisoned := q.poisoned ++ bad }).charge s x.ptn (2 * chargeOf len)
    let m := m.setResid x.ptn x.place.rgn k .building
    (some k, m.setEdition x.place.table num fun e =>
      if twin then { e with twin := e.twin.map fun l => l.set j k } else { e with primary := e.primary.map fun l => l.set j k })

/-- A write to a table page (R310): combining entries of its lines are written back first, hot-row and window lines of them
are invalidated; it clears the poison of whole sectors (R319) and is charged (R311). -/
def Module.writeTable (m : Module) (s key : Nat) (bs : List Byte) : Module :=
  let lines := (List.range ((key + bs.length - 1) / 128 - key / 128 + 1)).map (key / 128 + ·)
  let m := lines.foldl (fun (m : Module) l => (m.writeBack s l).staleLine s l true) m
  ((m.store key bs).clearPoison key bs.length).chargeKey s key bs.length

/-- One row of an EDITION_WRITE into one copy that this member holds; the stack and shard page where space lacks (R165).
A row on a LOST page of this member is not written: it is served from the other copy (R114). -/
def Module.writeRow (m : Module) (table num : Nat) (g : RegionSt) (twin : Bool) (r : RowAt) (bs : List Byte) :
    Option (Nat × Nat) × Module :=
  match m.table table with
  | none => (none, m)
  | some x =>
    match (x.edition num).bind fun e => (if twin then e.twin else e.primary).bind fun l => l[r.page]? with
    | none => (none, m)
    | some page =>
      let c := if x.shares num page then m.cowPage x g num twin r.page page else (some page, m)
      match c.1 with
      | none => (some (r.stack, r.page), c.2)
      | some k =>
        if c.2.residency g k == .lost then (none, c.2) else (none, c.2.writeTable r.stack (g.pageKey k + r.off) bs)

/-- EDITION_WRITE on one member (R162–R165): every row goes into each copy of its shard held here, in order; the first
page that finds no space ends it. An input shorter than the rows named is refused, and nothing written (log entry 164, DESIGN
CHOICE). -/
def Module.writePart (m : Module) (c : Capsule) (x : Table) (data : List Byte) : Module × Nat :=
  let t := x.place
  let num := c.arg0.toNat / 2 ^ 32
  let first := c.arg1.toNat
  let count := c.arg2.toNat
  let b := t.rowBytes
  if !(x.editions.any fun e => e.num == num && e.state == .building) || decide (t.rows < first + count) ||
      decide (data.length < count * b) then (m, stAborted)
  else
    match m.regionNo x.ptn t.rgn with
    | none => (m, stAborted)
    | some g =>
      let row (acc : Module × Option (Nat × Nat)) (i : Nat) : Module × Option (Nat × Nat) :=
        let r := t.rowAt (first + i)
        let bs := slice data (i * b) b
        let one (acc : Module × Option (Nat × Nat)) (held twin : Bool) : Module × Option (Nat × Nat) :=
          match acc.2 with
          | some _ => acc
          | none =>
            if held then
              let w := acc.1.writeRow t.table num g twin r bs
              (w.2, w.1)
            else acc
        one (one acc (t.primaryOf m.member == some r.shard) false) (t.twinOf m.guildSize m.member == some r.shard) true
      let done := (List.range count).foldl row (m, none)
      match done.2 with
      | some (s, j) => (done.1.buildSpace x.ptn t.table num s j, stAborted)
      | none => (done.1, stOk)

/-- EDITION_SEAL on one member: every private page PRESENT, the edition SEALED (R162). -/
def Module.sealPart (m : Module) (c : Capsule) (x : Table) : Module × Nat :=
  let num := c.arg0.toNat / 2 ^ 32
  match x.editions.find? fun e => e.num == num && e.state == .building with
  | none => (m, stAborted)
  | some e =>
    let m := (e.pages.filter fun k => !x.shares num k).foldl (fun (m : Module) k => m.setResid x.ptn x.place.rgn k .present) m
    ((m.setEdition x.place.table num fun y => { y with state := .sealed }).checkRebuilds.checkReady, stOk)

/-- An edition becomes NONE on this member: its pages that no other edition maps are released (R162, R170). The number of
pages freed goes with the module. -/
def Module.dropEdition (m : Module) (x : Table) (e : Edition) : Module × Nat :=
  let ks := e.pages.filter fun k => !x.shares e.num k
  let m := m.setTable x.place.table fun y => { y with editions := y.editions.filter fun z => z.num != e.num }
  match m.regionNo x.ptn x.place.rgn with
  | none => (m, 0)
  | some g => (m.freePages x.ptn g ks, ks.length)

/-- EDITION_DISCARD on one member (R162). -/
def Module.discardPart (m : Module) (c : Capsule) (x : Table) : Module × Nat :=
  let num := c.arg0.toNat / 2 ^ 32
  match x.editions.find? fun e => e.num == num && (e.state == .building || e.state == .sealed) with
  | none => (m, stAborted)
  | some e => ((m.dropEdition x e).1.checkRebuilds.checkReady, stOk)

/-- An edition command's part on this member: refused where the table is not placed in the command's partition (R163);
nothing to do on a member that holds no copy. -/
def Module.editionPart (m : Module) (c : Capsule) (data : List Byte) : Module × Nat :=
  match m.table (editionTable c) with
  | none => (m, stAborted)
  | some x =>
    if x.ptn ≠ c.ptn.toNat % 8 then (m, stAborted)
    else if !m.holds x.place then (m, stOk)
    else match c.opc.toNat with
      | 0x40 => m.beginPart c x
      | 0x41 => m.writePart c x data
      | 0x42 => m.sealPart c x
      | _ => m.discardPart c x

/-- The rows or image that input entry 0 brings: fetched, or inline (R350). -/
def payloadOf (c : Capsule) (data : List Byte) : List Byte :=
  match inputsOf c with
  | [] => []
  | e :: _ => if e.inl then slice c.inl e.addr e.len else data.take e.len

/-- An edition command on its admitting member: a refusal ends it here; otherwise every holding member does its part. A
SEAL's own part ends with EDITION_SEAL_DONE. -/
def Module.editionRun (m : Module) (c : Capsule) (data : List Byte) : Module :=
  let r := m.editionPart c (payloadOf c data)
  if r.2 ≠ 0 then r.1.complete (c.ptn.toNat % 8) c.reqid r.2
  else r.1.spread c (payloadOf c data) (c.opc == 0x42) stOk 0

def execEditionBegin (qp : Nat) (c : Capsule) (s : State) : Host.Outcome State Fault Refusal :=
  s.on fun m => m.capsule 0x40 qp c [] Module.editionRun

/-- The table's region denies the queue pair the write (R488). -/
def Module.rowsDenied (m : Module) (qp : Nat) (c : Capsule) : Option (Nat × Nat) :=
  match m.qp qp, m.table (editionTable c) with
  | some q, some x =>
    let M := queueMaster q.ptn q.aclass
    if x.ptn == c.ptn.toNat % 8 && !m.allowed tcRegion x.place.rgn x.ptn M permWrite then some (M, x.place.rgn) else none
  | _, _ => none

/-- EDITION_WRITE: rows are written under the grants of the queue pair they arrive on (log entry 21, DEDUCED). -/
def execEditionWrite (qp : Nat) (c : Capsule) (rows : List Byte) (s : State) : Host.Outcome State Fault Refusal :=
  s.on fun m =>
    match m.takesCapsules qp && c.opc == 0x41 && (capsuleFault c).isNone, m.rowsDenied qp c with
    | true, some (M, rgn) =>
      let p := c.ptn.toNat % 8
      ((m.count (ctrR 0x078) 0 32).deny p M tcRegion rgn permWrite).answerDirect
        { own := some (deliveryOf qp c), recv := m.member, capsule := c } stFaultAccess 0
    | _, _ => m.capsule 0x41 qp c rows Module.editionRun

def execEditionSeal (qp : Nat) (c : Capsule) (s : State) : Host.Outcome State Fault Refusal :=
  s.on fun m => m.capsule 0x42 qp c [] Module.editionRun

def execEditionDiscard (qp : Nat) (c : Capsule) (s : State) : Host.Outcome State Fault Refusal :=
  s.on fun m => m.capsule 0x43 qp c [] Module.editionRun

/-- The EDITION_WRITEs of a table that this member has admitted and that have not completed. -/
def Module.openWrites (m : Module) (p table : Nat) : List Word :=
  ((m.ptn p).waitCmds.filter fun y => y.capsule.opc == 0x41 && editionTable y.capsule == table).map (·.capsule.reqid)

/-- Another member's EDITION_SEAL: this member's part, at once or, where EDITION_WRITEs that it admitted before are not complete,
once they are (R167). -/
def Module.sealFor (m : Module) (src : Nat) (c : Capsule) : Module :=
  let p := c.ptn.toNat % 8
  let ws := m.openWrites p (editionTable c)
  if ws.isEmpty then
    let r := m.editionPart c []
    r.1.sendTo src 0 (.reply c [] r.2 0)
  else m.setPtn p fun x => { x with seals := x.seals ++ [(c, src, ws)] }

/-- EDITION_SEAL_DONE: this member's part of a seal ends once every EDITION_WRITE of the table that it admitted before it has
completed (R167): of its own seal, or of another member's. -/
def execEditionSealDone (ptn : PtnId) (reqid : Word) (s : State) : Host.Outcome State Fault Refusal :=
  s.on fun m =>
    match (m.ptn ptn).waitCmds.find? fun x => x.capsule.reqid == reqid && x.capsule.opc == 0x42 with
    | some x =>
      let before := (m.ptn ptn).waitCmds.takeWhile fun y => y.capsule.reqid != reqid
      if before.any fun y => y.capsule.opc == 0x41 && editionTable y.capsule == editionTable x.capsule then m
      else (m.setWait ptn reqid fun y => { y with mine := false }).settleCmd ptn reqid
    | none =>
      match (m.ptn ptn).seals.find? fun x => x.1.reqid == reqid with
      | none => m
      | some (c, src, ws) =>
        if ws.any (m.openWrites ptn (editionTable c)).contains then m
        else (m.setPtn ptn fun x => { x with seals := x.seals.filter fun y => y.1.reqid != reqid }).sealFor src c

/-! ### EDITION_FLIP (R169, R284) -/

/-- EDITION_FLIP on its admitting member: refused for a table that this partition does not place (R163) or that a guild
graph names as NBR or WGT (R284); otherwise it goes to the warden. -/
def Module.flipRun (m : Module) (c : Capsule) (_ : List Byte) : Module :=
  let p := c.ptn.toNat % 8
  let t := editionTable c
  let graphs := (m.ptn p).ggraphs.any fun g => (g.tables.drop 1).contains t
  let placed := ((m.table t).map fun x => x.ptn == p).getD false
  if !placed || graphs then m.complete p c.reqid stAborted
  else m.askWarden c (.flip t (c.arg0.toNat / 2 ^ 32)) c.arg1.toNat

def execEditionFlip (qp : Nat) (c : Capsule) (s : State) : Host.Outcome State Fault Refusal :=
  s.on fun m => m.capsule 0x44 qp c [] Module.flipRun

/-- RETIRE_SLOW: an edition still RETIRING 1 s after its flip; the warden posts it once (R170, R177). -/
def execRetireSlow (table : BitVec 32) (s : State) : Host.Outcome State Fault Refusal :=
  s.on fun m =>
    match m.table table.toNat with
    | none => m
    | some x =>
      match x.editions.find? fun e => e.state == .retiring with
      | none => m
      | some e =>
        if e.slowSaid || !m.isWarden then m
        else
          let m := (m.until_ (e.retiredAt + 1000000000)).setEdition table.toNat e.num fun y => { y with slowSaid := true }
          let left := m.joinedList.filter fun k => !(m.guild.drainedBy.contains (table.toNat, e.num, k))
          m.post 0x0804 (some x.ptn) table.toNat
            (leBytes 4 table.toNat ++ leBytes 4 e.num ++ leBytes 8 (left.foldl setBit 0))

/-! ### Page commands (R111–R113) -/

/-- The region and the pages that a page command names; none where it is refused (R113). -/
def Module.pagesNamed (m : Module) (c : Capsule) : Option (RegionSt × List Nat) := do
  let p := c.ptn.toNat % 8
  let ra := c.arg0.toNat
  let n := c.arg1.toNat
  let g ← m.regionAt p ra
  let sz := 2 ^ g.info.shift
  let k := (ra - g.info.base) / sz
  let ks := (List.range (min n g.info.pages)).map (k + ·)
  if n = 0 ∨ (ra - g.info.base) % sz ≠ 0 ∨ g.info.pages < k + n ∨ m.isTableRegion p g.info.rgn ∨
      ks.any (fun j => m.residency g j == .lost) then none
  else some (g, ks)

/-- Carry out the page commands of a partition that stand first, one at a time in the order admitted (R111): a refusal and
a PAGE_RESTORE end at once; a PAGE_EVICT marks its pages and waits for PAGE_EVICT_DRAINED. -/
def Module.pageNext (m : Module) (p : Nat) : Module :=
  go (m.ptn p).waitCmds.length m
where
  go : Nat → Module → Module
    | 0, m => m
    | n + 1, m =>
      match (m.ptn p).waitCmds.find? fun x => x.capsule.opc == 0x30 || x.capsule.opc == 0x31 with
      | none => m
      | some x =>
        if x.value = 1 then m
        else
          let id := x.capsule.reqid
          let ended (st : Nat) (m : Module) : Module :=
            (m.setWait p id fun y => { y with mine := false, status := st }).settleCmd p id
          match m.pagesNamed x.capsule with
          | none => go n (ended stAborted m)
          | some (g, ks) =>
            if x.capsule.opc = 0x31 then
              go n (ended stOk (ks.foldl (fun (m : Module) k => m.setResid p g.info.rgn k .present) m))
            else
              (ks.foldl (fun (m : Module) k => m.setResid p g.info.rgn k .evicted) m).setWait p id fun y => { y with value := 1 }

/-- A page command on its admitting member, whose own pages it names (log entry 22, DEDUCED). -/
def Module.pageRun (m : Module) (c : Capsule) (_ : List Byte) : Module :=
  let p := c.ptn.toNat % 8
  let x : PendingCmd := { capsule := c, mine := true, waits := [] }
  (m.setPtn p fun y => { y with waitCmds := y.waitCmds ++ [x] }).pageNext p

def execPageEvict (qp : Nat) (c : Capsule) (s : State) : Host.Outcome State Fault Refusal :=
  s.on fun m => m.capsule 0x30 qp c [] Module.pageRun

def execPageRestore (qp : Nat) (c : Capsule) (s : State) : Host.Outcome State Fault Refusal :=
  s.on fun m => m.capsule 0x31 qp c [] Module.pageRun

/-- PAGE_EVICT_DRAINED: every access translated before the mark has completed (R112). Every access here is translated and made within
one step, so none is open when this event comes. -/
def execPageEvictDrained (ptn : PtnId) (reqid : Word) (s : State) : Host.Outcome State Fault Refusal :=
  s.on fun m =>
    if (m.ptn ptn).waitCmds.any fun x => x.capsule.reqid == reqid && x.capsule.opc == 0x30 && x.value == 1 then
      ((m.setWait ptn reqid fun y => { y with mine := false, value := 0 }).settleCmd ptn reqid).pageNext ptn
    else m

/-! ### Guild graphs (R281–R283) -/

/-- A table fits a role of a guild graph (R281). -/
def roleOk (x : Table) (type dim : Nat) (off : PlacementRec) : Bool :=
  x.place.type == type && x.place.dim == dim && x.place.shards == off.shards && x.place.twin == off.twin

/-- The 64-byte descriptor that the module keeps of a graph (R283). -/
def GuildGraph.descriptor (g : GuildGraph) : List Byte :=
  leBytes 4 g.offs ++ leBytes 4 g.nbr ++ leBytes 4 g.wgt ++ leBytes 1 g.graph ++ leBytes 1 (g.ptn % 8) ++ leBytes 2 0 ++
    leBytes 8 g.verts ++ leBytes 8 g.sink ++ leBytes 8 g.ecap ++ leBytes 24 0

/-- GRAPH_DEFINE on one member: every check of R282, then the descriptor, with the editions that are CURRENT together (R284). -/
def Module.definePart (m : Module) (c : Capsule) : Module × Nat :=
  let p := c.ptn.toNat % 8
  let g : GuildGraph :=
    { graph := c.arg0.toNat % 256, offs := c.arg0.toNat / 2 ^ 32, nbr := c.arg1.toNat % 2 ^ 32, wgt := c.arg1.toNat / 2 ^ 32
      sink := c.arg2.toNat, ptn := p }
  let tabs := g.tables.filterMap fun t => (m.table t).filter fun x => x.ptn == p
  let clash := (m.ptn p).ggraphs.any fun h => h.graph == g.graph || g.tables.any h.tables.contains
  match tabs with
  | o :: rest =>
    let fits := o.place.type == 0x14 && o.place.dim == 2 && (match rest with
      | [n] => roleOk n 0x14 16 o.place
      | [n, w] => roleOk n 0x14 16 o.place && roleOk w 0x01 32 o.place
      | _ => false)
    if g.graph = 0 ∨ tabs.length ≠ g.tables.length ∨ g.tables.eraseDups.length ≠ g.tables.length ∨ clash ∨ !fits ∨ tabs.any Table.building ∨
        o.place.rows ≤ g.sink then (m, stAborted)
    else
      let g := { g with verts := o.place.rows, ecap := 16 * ((m.table g.nbr).map (·.place.shrows)).getD 0
                        sets := [tabs.map fun x => (x.place.table, x.currentNum)] }
      (m.setPtn p fun x => { x with ggraphs := x.ggraphs ++ [g] }, stOk)
  | [] => (m, stAborted)

/-- A loaded work graph holds a SAMPLE node that names a guild graph, by its OFFS table: in its static port 1, or in a tensor that its
dynamic port 1 may name (R282). -/
def Graph.samples (g : Graph) (offs : Nat) : Bool :=
  let names (t : Tensor) : Bool := t.space == 3 && t.tableId == offs
  g.nodes.any fun n => n.op == 0x12 && (if n.dyn.testBit 1 then g.tensors.any names else ((g.staticTensor n 1).map names).getD false)

/-- GRAPH_UNDEFINE on one member: the graph is no longer to be named, and goes once the outcome is known (R282). -/
def Module.undefinePart (m : Module) (c : Capsule) : Module × Nat :=
  let p := c.ptn.toNat % 8
  let n := c.arg0.toNat % 256
  match (m.ptn p).ggraphs.find? fun g => g.graph == n with
  | none => (m, stAborted)
  | some g =>
    if (m.ptn p).graphs.any fun w => w.samples g.offs then (m, stAborted)
    else (m.setPtn p fun x => { x with ggraphs := updWhere (fun g => g.graph == n) (fun g => { g with going := some c.reqid }) x.ggraphs }, stOk)

/-- The part of a graph definition on this member. -/
def Module.graphPart (m : Module) (c : Capsule) : Module × Nat := if c.opc = 0x50 then m.definePart c else m.undefinePart c

/-- A graph definition on its admitting member: applied here, then on every JOINED member (R282). -/
def Module.graphDefRun (m : Module) (c : Capsule) (_ : List Byte) : Module :=
  let r := m.graphPart c
  if r.2 ≠ 0 then r.1.complete (c.ptn.toNat % 8) c.reqid r.2 else r.1.spread c [] false stOk 0

def execGraphDefine (qp : Nat) (c : Capsule) (s : State) : Host.Outcome State Fault Refusal :=
  s.on fun m => m.capsule 0x50 qp c [] Module.graphDefRun

def execGraphUndefine (qp : Nat) (c : Capsule) (s : State) : Host.Outcome State Fault Refusal :=
  s.on fun m => m.capsule 0x51 qp c [] Module.graphDefRun

end Sys2Proof.Machine
end

