-- ==== Sys2Proof/Machine/GraphLoad.lean ====
section
/-! DEFINITION. Work graph images (R41–R49): how one is read, the load checks in their order (R53, R83, R90), and the
commands GRAPH_LOAD and GRAPH_UNLOAD (R351). -/
namespace Sys2Proof.Machine

/-! ### Reading an image (R41–R43, R47) -/

def parseDest (bs : List Byte) (o : Nat) : Dest :=
  let w := fieldAt bs o 4
  { node := bitsOf w 0 16, port := bitsOf w 16 3, sel := bitsOf w 19 2, member := bitsOf w 21 6, remote := w.testBit 27, valid := w.testBit 31 }

def parseNode (bs : List Byte) (o : Nat) : Node :=
  let fl := fieldAt bs (o + 3) 1
  { index := fieldAt bs o 2, op := fieldAt bs (o + 2) 1, exit := fl.testBit 0, noaff := fl.testBit 1, prio := fl.testBit 2
    nports := fieldAt bs (o + 4) 1 % 16, dyn := fieldAt bs (o + 5) 1, bset := fieldAt bs (o + 6) 2
    opnd := (List.range 8).map fun i => fieldAt bs (o + 8 + 2 * i) 2
    res := (List.range 2).map fun i => fieldAt bs (o + 0x18 + 2 * i) 2
    dest := (List.range 4).map fun i => parseDest bs (o + 0x20 + 4 * i)
    param := fieldAt bs (o + 0x30) 8 }

def parseTensor (bs : List Byte) (o : Nat) : Tensor :=
  let lh := fieldAt bs (o + 1) 1
  let sp := fieldAt bs (o + 2) 1
  { type := fieldAt bs o 1, layout := lh % 16, hint := bitsOf lh 4 2, space := sp % 16, pat := bitsOf sp 4 2, oobx := sp.testBit 6
    dim0 := fieldAt bs (o + 4) 4, dim1 := fieldAt bs (o + 8) 4, dim2 := fieldAt bs (o + 0xC) 4
    pitch := fieldAt bs (o + 0x10) 4, aux := fieldAt bs (o + 0x14) 4, addr := fieldAt bs (o + 0x18) 8 }

def nodeOff (bs : List Byte) (i : Nat) : Nat := fieldAt bs 0x20 8 + 64 * i
def tensorOff (bs : List Byte) (i : Nat) : Nat := fieldAt bs 0x28 8 + 32 * i

def parseGraph (bs : List Byte) (handle : Nat) : Graph :=
  { handle := handle, maxgen := fieldAt bs 6 1, exits := fieldAt bs 0xC 2, arena := fieldAt bs 0x10 8
    slotq := fieldAt bs 0x18 4, readyq := fieldAt bs 0x1C 4, tag := fieldAt bs 0x30 8
    nodes := (List.range (fieldAt bs 8 2)).map fun i => parseNode bs (nodeOff bs i)
    tensors := (List.range (fieldAt bs 0xA 2)).map fun i => parseTensor bs (tensorOff bs i)
    image := bs }

/-! ### The checks of R53, in order; each gives the offsets of its failing fields -/

/-- A check on one field. -/
def at_ (ok : Bool) (off : Nat) : List Nat := if ok then [] else [off]

def storeClass (op : Nat) : Bool := within op 1 3

/-- A class of R44. -/
def opKnown (op : Nat) : Bool :=
  storeClass op || within op 0x10 0x13 || op == 0x20 || op == 0x21 || within op 0x30 0x32 || op == 0x40 || op == 0x41 || op == 0x50

/-- Counts and ranges of R41. -/
def headerRanges (bs : List Byte) : List Nat :=
  let n (o k : Nat) : Nat := fieldAt bs o k
  at_ (within (n 6 1) 1 16) 0x06 ++ at_ (within (n 8 2) 1 16384) 0x08 ++ at_ (within (n 0xA 2) 1 32768) 0x0A ++
    at_ (within (n 0xC 2) 1 (n 8 2)) 0x0C ++ at_ (n 0x10 8 % 4096 == 0) 0x10 ++ at_ (decide (n 0x18 4 ≤ 61440)) 0x18 ++
    at_ (within (n 0x1C 4) 1 16384) 0x1C ++ at_ (n 0x20 8 % 64 == 0) 0x20 ++ at_ (n 0x28 8 % 32 == 0) 0x28

def headerArrays (bs : List Byte) : List Nat :=
  at_ (decide (fieldAt bs 0x20 8 + 64 * fieldAt bs 8 2 ≤ bs.length)) 0x20 ++
    at_ (decide (fieldAt bs 0x28 8 + 32 * fieldAt bs 0xA 2 ≤ bs.length)) 0x28

/-- Reserved bits and codes of PARAM for each class (R13, R46, R126, R171, R179, R239, R255, R269, R274, R286, R295, R340, R345, R411). -/
def paramReserved (n : Node) : Bool :=
  match n.op with
  | 0x01 | 0x02 | 0x03 => n.par 3 61 == 0
  | 0x10 => n.par 4 60 == 0 && n.par 0 2 != 3 && n.par 2 2 != 3
  | 0x21 => n.par 4 60 == 0 && n.par 0 2 != 3
  | 0x11 => n.param == 0
  | 0x12 => n.par 46 18 == 0 && n.par 0 2 != 0 && n.par 28 2 != 3
  | 0x13 => n.par 30 34 == 0 && decide (n.par 0 3 ≤ 3) && n.par 3 2 != 3
  | 0x20 => n.par 25 39 == 0 && n.par 2 2 != 3 && n.par 6 2 != 3 && n.par 8 2 != 3
  | 0x30 => n.par 15 49 == 0 && n.par 9 2 != 3
  | 0x31 => n.par 16 48 == 0 && decide (n.par 0 4 ≤ 7) && n.par 12 2 != 3
  | 0x32 => n.par 10 6 == 0 && n.par 28 36 == 0
  | 0x40 => n.par 2 6 == 0 && n.par 49 15 == 0 && decide (n.par 0 2 ≤ 1)
  | 0x41 => n.par 2 62 == 0
  | 0x50 => n.par 23 41 == 0 && n.par 0 2 == 0 && decide (n.par 17 4 ≤ 7) && n.par 21 2 != 3
  | _ => true

/-- Reserved fields and codes of a DEST entry (R43). -/
def destReserved (bs : List Byte) (o : Nat) : Bool :=
  let w := fieldAt bs o 4
  if w.testBit 31 then bitsOf w 28 3 == 0 && bitsOf w 19 2 != 3 else w == 0

def nodeReserved (bs : List Byte) (o : Nat) : List Nat :=
  let n := parseNode bs o
  at_ (opKnown n.op) (o + 2) ++ at_ (fieldAt bs (o + 3) 1 / 8 == 0) (o + 3) ++
    at_ (fieldAt bs (o + 4) 1 / 16 == 0 && decide (n.nports ≤ 8)) (o + 4) ++ at_ (zeros bs (o + 0x1C) 4) (o + 0x1C) ++
    (List.range 4).flatMap (fun i => at_ (destReserved bs (o + 0x20 + 4 * i)) (o + 0x20 + 4 * i)) ++
    at_ (paramReserved n) (o + 0x30) ++ at_ (zeros bs (o + 0x38) 8) (o + 0x38)

/-- Reserved fields and codes of a tensor; fp20 is one outside the ACC view (R11–R14, R47, R48). -/
def tensorReserved (bs : List Byte) (o : Nat) : List Nat :=
  let t := parseTensor bs o
  at_ (typeKnown t.type || (t.type == 0x20 && t.space == 1 && within t.addr 0x5F8000 0x5FFFFF)) o ++ at_ (decide (t.layout ≤ 6) && t.hint != 3 && fieldAt bs (o + 1) 1 / 64 == 0) (o + 1) ++
    at_ (decide (t.space ≤ 5) && t.pat != 3 && fieldAt bs (o + 2) 1 / 128 == 0) (o + 2) ++ at_ (zeros bs (o + 3) 1) (o + 3)

def reservedFields (bs : List Byte) (g : Graph) : List Nat :=
  at_ (zeros bs 7 1) 7 ++ at_ (zeros bs 0xE 2) 0xE ++ at_ (zeros bs 0x38 8) 0x38 ++
    (List.range g.nodes.length).flatMap (fun i => nodeReserved bs (nodeOff bs i)) ++
    (List.range g.tensors.length).flatMap fun i => tensorReserved bs (tensorOff bs i)

/-- A check on every node. -/
def eachNode (bs : List Byte) (g : Graph) (f : Node → Nat → List Nat) : List Nat :=
  g.nodes.zipIdx.flatMap fun (n, i) => f n (nodeOff bs i)

/-- OPND of static ports, of dynamic ports and of ports not used (R42, R45). -/
def opndCheck (g : Graph) (n : Node) (o : Nat) : List Nat :=
  (List.range 8).flatMap fun p =>
    let x := n.opnd.getD p 0xFFFF
    at_ (if p < n.nports ∧ !n.dyn.testBit p then decide (x < g.tensors.length) else x == 0xFFFF) (o + 8 + 2 * p)

def resCheck (g : Graph) (n : Node) (o : Nat) : List Nat :=
  (List.range 2).flatMap fun r =>
    let x := n.res.getD r 0xFFFF
    at_ (x == 0xFFFF || ((g.tensors[x]?).map fun t => t.space != 4).getD false) (o + 0x18 + 2 * r)

def bsetCheck (d : Draft) (n : Node) (o : Nat) : List Nat :=
  at_ (if storeClass n.op then n.bset == 0xFFFF else n.bset != 0xFFFF && (d.set n.bset).isSome) (o + 6)

def quotaCheck (d : Draft) (n : Node) (o : Nat) : List Nat :=
  at_ (n.bset == 0xFFFF || ((d.set n.bset).map fun s => d.hasQuota s.hall).getD true) (o + 6)

/-- Local destinations: an existing node, and a dynamic port of it (R53). -/
def destCheck (g : Graph) (n : Node) (o : Nat) : List Nat :=
  n.dest.zipIdx.flatMap fun (x, i) =>
    if !x.valid || x.remote then []
    else match g.nodes[x.node]? with
      | none => [o + 0x20 + 4 * i]
      | some y => at_ (decide (x.port < y.nports) && y.dyn.testBit x.port) (o + 0x20 + 4 * i)

/-- Where a tensor ends, so far as its descriptor says (R105, R127). -/
def Tensor.lastByte (t : Tensor) : Nat :=
  match t.layout with
  | 4 | 5 => max (t.aux + 8 * (t.dim1 + 1)) t.pitch
  | 6 => max (t.dim0 * t.idxBytes) (max (if t.aux = 0 then 0 else t.aux + (t.dim1 + 1) * t.idxBytes) (if t.pitch = 0 then 0 else t.pitch + 4 * t.dim0))
  | _ => t.extent

def arenaCheck (bs : List Byte) (g : Graph) : List Nat :=
  g.tensors.zipIdx.flatMap fun (t, i) => at_ (t.space != 2 || decide (t.addr + t.lastByte ≤ g.arena)) (tensorOff bs i + 0x18)

/-! ### Node by node (R45, R46, R48, R83, R90 and the classes' rules) -/

/-- The form of a store-executed node (R45). -/
def storeRules (x : RuleEnv) : List Rule :=
  let n := x.n
  let sel (d : Dest) : Bool := !d.valid || d.sel == 2 || (n.op != 2 && d.sel == 0)
  [x.onNode 0x04 (match n.op with | 1 => n.nports == 1 | 3 => n.nports == 2 | _ => within n.nports 1 8),
   x.onNode 0x05 (n.dyn == 2 ^ n.nports - 1),
   x.onNode 0x08 (n.opnd.all (· == 0xFFFF)), x.onNode 0x18 (n.res.all (· == 0xFFFF))] ++
  n.dest.zipIdx.map fun (d, i) => x.onNode (0x20 + 4 * i) (sel d)

/-- Where a store-executed node lives (R46). -/
def placeRules (x : RuleEnv) : List Rule :=
  [x.onNode 0x30 (if x.n.par 2 1 = 1 then x.d.hasQuota (x.n.par 0 2) else (List.range 4).any x.d.hasQuota)]

/-- Where static tensors in tile SRAM may lie (R218, R326): none in the stream area, and none of a sparse layout in the ACC view. -/
def tileRules (x : RuleEnv) : List Rule :=
  let ok (t : Tensor) : Bool := t.space != 1 || decide (0x5F8000 ≤ t.addr ∨ t.addr + t.lastByte ≤ 0x4F8000)
  let flat (t : Tensor) : Bool := t.space != 1 || !(t.layout == 2 || t.layout == 3) || decide (t.addr + t.lastByte ≤ 0x5F8000)
  (List.range x.n.nports).flatMap (fun p => [x.onPort p 1 flat, x.onPort p 0x18 ok]) ++
    (List.range 2).flatMap fun r => [x.onRes r 1 flat, x.onRes r 0x18 ok]

/-- The rules of a node's class. -/
def Module.classRules (m : Module) (p : Nat) (x : RuleEnv) : List Rule :=
  match x.n.op with
  | 0x10 => gatherRules m.places x
  | 0x11 => scatterRules m.places x
  | 0x12 => sampleRules (m.isOffs p) x
  | 0x13 => segmentRules x
  | 0x20 => matmulRules x
  | 0x21 => spmmRules x
  | 0x30 => vectorRules x
  | 0x31 => reduceRules x
  | 0x32 => topkRules x
  | 0x40 => if x.n.isFuse then fuseRules x else copyRules x
  | 0x41 => barrierRules x
  | 0x50 => allreduceRules m.extents x
  | _ => []

/-- The checks of one node, each with the offsets of its failing fields. -/
def Module.nodeChecks (m : Module) (p : Nat) (d : Draft) (g : Graph) (n : Node) : List (List Nat) :=
  let x : RuleEnv := { g := g, n := n, d := d, op := g.staticTensor n }
  let bad (l : List Rule) : List Nat := (l.filter fun r => !r.1).map (·.2)
  if storeClass n.op then [bad (storeRules x), bad (placeRules x)] else [bad (tileRules x), bad (m.tableRules p x), bad (m.classRules p x)]

/-- The byte offset that GRAPH_REFUSED reports for an image against a draft, none where it passes: the first check that
fails, and its lowest offset (R53). -/
def Module.graphFault (m : Module) (p : Nat) (d : Draft) (bs : List Byte) : Option Nat :=
  let first (cs : List (List Nat)) : Option Nat :=
    (cs.find? fun c => !c.isEmpty).map fun c => c.foldl min (c.headD 0)
  let head : List (List Nat) :=
    [at_ (decide (64 ≤ bs.length)) 0, at_ (fieldAt bs 0 4 == 0x46575A44) 0, at_ (fieldAt bs 5 1 == 1) 5, headerRanges bs, headerArrays bs,
     at_ (fieldAt bs 0x30 8 == 0 || fieldAt bs 0x30 8 == d.tag) 0x30]
  (first head) <|>
    (let g := parseGraph bs 0
     let each := eachNode bs g
     first ([reservedFields bs g, g.nodes.zipIdx.flatMap fun (n, i) => at_ (n.index == i) (nodeOff bs i),
        each fun n o => at_ (decide (n.dyn < 2 ^ n.nports)) (o + 5), each (opndCheck g), each (resCheck g), each (bsetCheck d),
        each (quotaCheck d), each (destCheck g), arenaCheck bs g,
        at_ (decide (g.exits ≤ g.nodes.countP (·.exit))) 0x0C] ++
      g.nodes.flatMap (m.nodeChecks p d g)))

/-! ### GRAPH_LOAD and GRAPH_UNLOAD (R53, R351) -/

def Module.graphRefused (m : Module) (p : Nat) (reqid : Word) (off handle : Nat) : Module :=
  m.post 0x0101 (some p) reqid.toNat (leBytes 8 reqid.toNat ++ leBytes 4 off ++ leBytes 8 handle)

/-- Load an image here under a handle: refused with its notice, or loaded. In QUARANTINE only a handle that the warden's
answer lists is taken (R401). -/
def Module.loadPart (m : Module) (c : Capsule) (bs : List Byte) : Module × Nat :=
  let p := c.ptn.toNat % 8
  let h := c.handle.toNat
  if 256 ≤ ((m.ptn p).graphs.filter fun g => !(m.ptn p).unloaded.contains g.handle).length then (m, stAborted)
  else if m.pwr.mode = .quarantine ∧ ¬ (((m.guild.answer.map (·.handles)).getD []).contains h) then (m, stAborted)
  else match m.graphFault p (m.draft p) bs with
    | some off => (m.graphRefused p c.reqid off 0, stAborted)
    | none => (m.setPtn p fun x => { x with graphs := x.graphs ++ [parseGraph bs h] }, stOk)

/-- The handle of a new graph: its partition, and a serial that no graph of the guild has had (R351, log entry 29, DESIGN CHOICE). On a
member in QUARANTINE the next handle that the warden's answer lists for the partition (R401). -/
def Module.newHandle (m : Module) (p : Nat) : Nat :=
  match if m.pwr.mode = .quarantine then
      (((m.guild.answer.map (·.handles)).getD []).find? fun h => h % 8 == p && !((m.ptn p).graphs.any fun g => g.handle == h))
    else none with
  | some h => h
  | none => m.member * 2 ^ 43 + m.nextHandle * 8 + p

/-- GRAPH_LOAD on its admitting member: checked and loaded here, then on every JOINED member (R351). -/
def Module.graphLoadRun (m : Module) (c : Capsule) (data : List Byte) : Module :=
  let p := c.ptn.toNat % 8
  let h := m.newHandle p
  let c := { c with handle := BitVec.ofNat 64 h }
  let bs := payloadOf c data
  let r := ({ m with nextHandle := m.nextHandle + 1 } : Module).loadPart c bs
  if r.2 ≠ 0 then r.1.complete p c.reqid r.2 else r.1.spread c bs false stOk h

def execGraphLoad (qp : Nat) (c : Capsule) (image : List Byte) (s : State) : Host.Outcome State Fault Refusal :=
  s.on fun m => m.capsule 0x10 qp c image Module.graphLoadRun

/-- GRAPH_UNLOAD on one member; a handle that is not loaded is refused (R97). -/
def Module.unloadPart (m : Module) (c : Capsule) : Module × Nat :=
  let p := c.ptn.toNat % 8
  let h := c.handle.toNat
  match m.loaded p h with
  | none => (m.graphRefused p c.reqid 0x10 h, stAborted)
  | some _ => (m.unload p h, stOk)

def Module.graphUnloadRun (m : Module) (c : Capsule) (_ : List Byte) : Module :=
  let r := m.unloadPart c
  if r.2 ≠ 0 then r.1.complete (c.ptn.toNat % 8) c.reqid r.2 else r.1.spread c [] false stOk 0

def execGraphUnload (qp : Nat) (c : Capsule) (s : State) : Host.Outcome State Fault Refusal :=
  s.on fun m => m.capsule 0x11 qp c [] Module.graphUnloadRun

end Sys2Proof.Machine
end

