-- ==== Sys2Proof/Machine/Drafts.lean ====
section
/-! DEFINITION. Drafts are loaded, staged, activated and unloaded (R93–R98), and what PREPARE, COMMIT and ABORT of their
agreements do on a member (R94, R97, R98, R359). -/
namespace Sys2Proof.Machine

/-! ### Loading (R93, R94 steps 1–4) -/

/-- A member refuses a draft: PTNp_REFUSE and the notices of R93. -/
def Module.refuseDraft (m : Module) (p off reason signer : Nat) : Module :=
  let m := m.setReg (ptnR p 0x28) (BitVec.ofNat 64 (reason + off % 2 ^ 32 * 2 ^ 8))
  let m := m.post 0x0103 (some p) 0 (leBytes 1 reason ++ leBytes 4 off)
  if reason = rSIGNATURE ∨ reason = rSIGNER then m.post 0x0601 (some p) 0 (leBytes 1 p ++ leBytes 1 reason ++ leBytes 8 signer) else m

/-- A new region of an image takes its frames; its bytes read as zero (R85, R109, R115). -/
def Module.addRegion (m : Module) (p : Nat) (r : RegionRec) : Module :=
  let d := m.draw
  let g : RegionSt := { info := r, serial := m.nextSerial, frames := m.newFrames r d.1 }
  ({ d.2 with nextSerial := m.nextSerial + 1 } : Module).setPtn p fun x => { x with candRegions := x.candRegions ++ [g] }

/-- A member checks an image, and allocates and zeroes its new regions (R85, R94 step 3). In QUARANTINE it takes only a
draft whose digest the warden's answer lists (R401). -/
def Module.draftPart (m : Module) (c : Capsule) (bs : List Byte) : Module × Nat :=
  let p := c.ptn.toNat % 8
  match checkDraft m p bs with
  | .error (off, reason) => (m.refuseDraft p off reason (fieldAt bs 0x20 8), stAborted)
  | .ok d =>
    if m.pwr.mode = .quarantine ∧ ¬ (((m.guild.answer.map (·.digests)).getD []).contains d.digest) then (m, stAborted)
    else if (m.ptn p).cand.isSome then (m, stAborted)
    else
      (((m.newRegions d).foldl (fun (m : Module) r => m.addRegion p r) m).setPtn p fun x => { x with cand := some d }, stOk)

/-- DRAFT_LOAD on the member that received it: every member gets the image and checks it (R94 steps 2–4). -/
def Module.draftLoadRun (m : Module) (c : Capsule) (data : List Byte) : Module :=
  let bs := payloadOf c data
  let r := m.draftPart c bs
  r.1.spread c bs false r.2 0

def execDraftLoad (qp : Nat) (c : Capsule) (image : List Byte) (s : State) : Host.Outcome State Fault Refusal :=
  s.on fun m => m.capsule 0x20 qp c image Module.draftLoadRun

/-! ### Into force and out of it (R97, R98) -/

/-- Extend a hallmark register with a digest (R475). -/
def Module.extendHallmark (m : Module) (i : Nat) (d : List Byte) : Module :=
  m.setAsy fun a => { a with hallmarks := a.hallmarks.modify i fun h => sha3 (h ++ d) }

/-- A table leaves force: its pages are released within its region (R97). -/
def Module.dropTable (m : Module) (t : Table) : Module :=
  let ks := (t.editions.flatMap Edition.pages ++ ((t.aside.map fun a => a.2.pages).getD [])).eraseDups
  let m : Module := { m with tables := m.tables.filter fun x => x.place.table != t.place.table }
  match m.regionNo t.ptn t.place.rgn with
  | none => m
  | some g => m.freePages t.ptn g ks

/-- The collectives' records of a partition begin anew when a draft comes into force (R416). -/
def Module.resetColls (m : Module) (p : Nat) : Module :=
  m.setRwk fun r =>
    { r with
      seqs := r.seqs.filter fun x => x.1 % 8 != p
      colls := r.colls.filter fun c => c.ptn != p
      reforms := r.reforms.filter fun x => namePtn x.1 != p
      aborts := r.aborts.filter fun x => namePtn x.name != p
      holds := r.holds.filter fun x => namePtn x.1 != p
      packets := r.packets.filter fun x => x.2.1 != p
      sums := r.sums.filter fun x => namePtn x.1 != p }

/-- Locked fields of HAL_MCTL take the record's values in every hall in which the partition has a bench set (R77). -/
def Module.applyLocks (m : Module) (d : Draft) : Module :=
  let r := d.part
  d.halls.foldl (fun (m : Module) h =>
    let m := if r.lock.testBit 0 then m.setFld (halR h 0x000) 0 16 r.affhold else m
    let m := if r.lock.testBit 1 then m.setFld (halR h 0x000) 16 16 r.holdlim else m
    if r.lock.testBit 2 then m.setFld (halR h 0x000) 32 1 r.affen else m) m

/-- A table that a draft first places starts with edition 1, CURRENT, on zeroed pages (R97, R158). -/
def Module.placeTable (m : Module) (p : Nat) (r : PlacementRec) : Module :=
  let maps : (Option (List Nat) × Option (List Nat)) × Module :=
    match m.regionNo p r.rgn with
    | none => ((none, none), m)
    | some g =>
      let x := m.allocTable g r (m.takenPages p r.rgn)
      match x.1 with
      | .ok ab => (ab, x.2)
      | .error _ => ((none, none), m)
  let e : Edition := { num := 1, state := .current, fresh := true, primary := maps.1.1, twin := maps.1.2 }
  { maps.2 with tables := maps.2.tables ++ [{ ptn := p, place := r, highest := 1, flip := 0, editions := [e] }] }

/-- The buckets of a partition are full when the draft that brings their records takes effect (R312). -/
def Module.fillBuckets (m : Module) (p : Nat) (d : Draft) : Module :=
  d.regulators.foldl (fun (m : Module) r =>
    m.setQuern r.stack fun q => { q with tokens := q.tokens.set p (r.burst * 1024) }) m

/-- The staged draft comes into force (R94 step 9, R97, R359); an outstanding lag that it clears is reported (R358). -/
def Module.applyDraft (m : Module) (p epoch : Nat) : Module :=
  match (m.ptn p).staged with
  | none => m
  | some d =>
    let x := m.ptn p
    let keep (g : RegionSt) : Bool := d.regions.contains g.info
    let m := (List.range 20).foldl Module.refill m
    let gone := m.tables.filter fun t => t.ptn == p && !(d.placements.any fun r => r.table == t.place.table)
    let m := gone.foldl Module.dropTable m
    let m := (x.regions.filter fun g => !keep g).foldl Module.freeRegion m
    let m := m.setPtn p fun y =>
      { y with active := 1, draft := some d, staged := none, regions := (y.regions.filter keep) ++ y.stagedRegions, stagedRegions := []
               epoch := epoch }
    let m := m.fillBuckets p d
    let kept : List Table := m.tables.map fun t =>
      if t.ptn = p then { t with place := (d.placements.find? fun r => r.table == t.place.table).getD t.place } else t
    let new := d.placements.filter fun r => !(kept.any fun t => t.place.table == r.table)
    let m := new.foldl (fun (m : Module) r => m.placeTable p r) { m with tables := kept }
    let m := (((m.applyLocks d).extendHallmark (8 + p) d.digest).resetColls p).dropXlat p
    let m := if x.rounds.owed = 0 ∨ d.part.mode ≠ 1 then m
      else m.post 0x0305 (some p) x.rounds.num (leBytes 4 x.rounds.num ++ leBytes 2 x.rounds.shortened)
    let good (m : Module) (g : Graph) : Bool := (m.graphFault p d g.image).isNone
    let m := m.setPtn p fun y =>
      { y with graphs := y.graphs.filter (good m), admitting := true, rounds := {}
               requests := updWhere (fun r => r.state == .waiting) (fun r : Request => { r with state := .held }) y.requests }
    m.openWindow p

/-- A partition becomes inactive (R98, R359). -/
def Module.applyUnload (m : Module) (p epoch : Nat) : Module :=
  let x := m.ptn p
  let m := (m.tables.filter fun t => t.ptn == p).foldl Module.dropTable m
  let m := (x.regions ++ x.stagedRegions).foldl Module.freeRegion m
  let waiting := x.requests.filter fun r => r.state != .executing
  let m := m.setPtn p fun y =>
    { y with active := 0, draft := none, staged := none, regions := [], stagedRegions := [], epoch := epoch, graphs := [], unloaded := []
             admitting := true, rounds := {}, requests := y.requests.filter fun r => r.state == .executing }
  let m := waiting.foldl (fun (m : Module) r => (m.dropInputs r).recordDone p r.reqid stAborted 0) m
  ((m.extendHallmark (8 + p) (List.replicate 64 0)).resetColls p).dropXlat p

/-- PREPARE of a draft agreement: the open window closes, and its requests form the last round; then the partition admits
nothing (R94 step 7, R359). -/
def Module.stopAdmitting (m : Module) (p : Nat) : Module :=
  let m := if (m.ptn p).rounds.isOpen then m.closeWindow p else m
  m.setPtn p fun x => { x with admitting := false }

/-- ABORT of a draft agreement: admission resumes, and a window opens where a draft is in force (R94 step 10, R359). -/
def Module.resumeAdmitting (m : Module) (p : Nat) : Module :=
  let m := m.setPtn p fun x => { x with admitting := true }
  if (m.ptn p).draft.isSome then (m.openWindow p).admitWaiting p else m

/-- A partition whose tables keep it from being unloaded (R98). -/
def Module.unloadBarred (m : Module) (p : Nat) : Bool := m.tables.any fun t => t.ptn == p && m.tableLive p t

/-! ### DRAFT_ACTIVATE and DRAFT_UNLOAD (R94 step 5, R98) -/

def drainOf (c : Capsule) : Nat := if c.arg0 = 0 then 100000 else c.arg0.toNat

/-- DRAFT_ACTIVATE: an agreement through the warden; in QUARANTINE the member applies its staged draft to itself alone
(R401), and its charter, which has changed, goes to the warden again (R402 step 4). -/
def Module.activateRun (m : Module) (c : Capsule) (_ : List Byte) : Module :=
  let p := c.ptn.toNat % 8
  if m.pwr.mode = .quarantine then
    if (m.ptn p).staged.isSome then ((m.stopAdmitting p).applyDraft p (m.ptn p).epoch).complete p c.reqid stOk |>.sendJoin
    else m.complete p c.reqid stAborted
  else m.askWarden c (.draftActivate ⟨p, Nat.mod_lt _ (by decide)⟩) (drainOf c)

def execDraftActivate (qp : Nat) (c : Capsule) (s : State) : Host.Outcome State Fault Refusal :=
  s.on fun m => m.capsule 0x21 qp c [] Module.activateRun

/-- DRAFT_UNLOAD: refused with reason LIVE_TABLE, or an agreement through the warden (R98). -/
def Module.unloadRun (m : Module) (c : Capsule) (_ : List Byte) : Module :=
  let p := c.ptn.toNat % 8
  if m.unloadBarred p then (m.refuseDraft p 0 rLIVE_TABLE 0).complete p c.reqid stAborted
  else m.askWarden c (.draftUnload ⟨p, Nat.mod_lt _ (by decide)⟩) (drainOf c)

def execDraftUnload (qp : Nat) (c : Capsule) (s : State) : Host.Outcome State Fault Refusal :=
  s.on fun m => m.capsule 0x22 qp c [] Module.unloadRun

end Sys2Proof.Machine
end

