-- ==== Sys2Proof/Machine/Guild.lean ====
section
/-! DEFINITION. The guild: agreements on a member and on the warden (R94, R169, R170, R404, R405), joining (R402, R403,
R443), the warden and its takeover (R407), and what PREPARE, READY, COMMIT, ABORT, DRAINED, RELEASE and the join events do.
Member loss is in `Machine/Loss.lean`. -/
namespace Sys2Proof.Machine

/-! ### Module states (R499, R505) -/

/-- PWR_STATE.STATE changes, with the in-band interrupt of R505. -/
def Module.enterMode (m : Module) (x : Mode) : Module :=
  if m.pwr.mode = x then m else (m.setPwr fun p => { p with mode := x }).send (.ibi 0x01)

/-- A change of state that is not a reset: none leaves OFF or FAULTED (R499). -/
def Module.setMode (m : Module) (x : Mode) : Module :=
  if m.pwr.mode = .off ∨ m.pwr.mode = .faulted then m else m.enterMode x

/-- Training ends once every stack is trained or withdrawn and a Lightway port is UP, or the guild is this member alone; a module
without a configuration stays in TRAINING. The member enters QUARANTINE and sends JOIN (R402, R500 step 6). -/
def Module.checkTrained (m : Module) : Module :=
  let up := m.guildSize == 1 || m.fab.ports.any fun x => x.state == 4
  if m.pwr.mode == .training && m.pwr.memoryUp && m.fld (fabR 0x000) 14 1 == 1 && up then
    (m.setMode .quarantine).sendJoin
  else m

/-- The module takes part in agreements. -/
def Module.inGuild (m : Module) : Bool := m.pwr.mode == .joined || m.pwr.mode == .draining

/-! ### Epochs (R405) -/

/-- The recorded outcome of an epoch: committed, or aborted. -/
def Module.outcome (m : Module) (e : Nat) : Option Bool := assocGet e m.guild.outcomes

/-- An epoch is applied: the outcomes of the last 256 are kept (R405). -/
def Module.recordEpoch (m : Module) (e : Nat) (ok : Bool) : Module :=
  m.setGuild fun g =>
    let l := g.outcomes ++ [(e, ok)]
    { g with outcomes := l.drop (l.length - 256), epoch := max g.epoch e, epochSeen := max g.epochSeen e
             agr := g.agr.map fun a => if a.epoch = e then { a with done := some ok } else a }

/-- An acknowledgement carries the member's charter (R400). -/
def Module.ackTo (m : Module) (warden e : Nat) : Module := m.packet warden 0 (.report e (.ack m.charter))

/-- A member reports on the agreement it has taken PREPARE for. -/
def Module.reportAgr (m : Module) (r : Report) : Module :=
  match m.guild.agr with
  | none => m
  | some a =>
    (m.setGuild fun g => { g with agr := some { a with reported := some (decide (r = .ready)) } }).toWarden (.report a.epoch r)

/-- A repeated message is answered with the recorded outcome, and changes nothing (R405). -/
def Module.answerOutcome (m : Module) (e : Nat) (ok : Bool) : Module :=
  if ok then m.ackTo m.guild.warden e else m.toWarden (.report e (.notReady 0))

/-! ### PREPARE and DRAIN_TIMEOUT on a member (R94 step 7, R169 step 3, R414, R443 step 4) -/

/-- The first page of a table's editions that is mapped alike: the edition from which another one shares it (R443). -/
def Module.sharesWith (m : Module) (x : Table) (e : Edition) (shard j : Nat) : Option Nat :=
  let page (y : Edition) : Option Nat := (m.copyMap x.place y shard).bind fun l => l[j]?
  let live := x.editions.filter fun y => y.state != .building
  match live.find? fun y => page y == page e with
  | some y => if y.num = e.num then none else some y.num
  | none => none

/-- A source sends one page of the other copy of a returning member's shard (R443 step 2): its combining entries are
written back first; a page that an edition shares with one sent before it goes as that edition's number. -/
def Module.sendPage (m : Module) (k : Nat) (r : RebuildMark) : Module :=
  match m.table r.table with
  | none => m
  | some x =>
    let shard := if r.twin then x.place.twinOf m.guildSize k else x.place.primaryOf k
    match shard, x.edition r.edition, m.regionNo x.ptn x.place.rgn with
    | some s, some e, some g =>
      match (m.copyMap x.place e s).bind fun l => l[r.page]? with
      | none => m
      | some page =>
        let lo := g.pageKey page
        let len := 2 ^ g.info.shift
        let at_ := r.page + (if r.twin then 2 ^ 32 else 0)
        match m.sharesWith x e s r.page with
        | some n => m.packet k 0 (.rebuildPage r.table r.edition at_ (leBytes 4 n))
        | none =>
          let m := m.writeBackAll (x.place.stackOf r.page) fun c => lineIn lo (lo + len) c.line
          m.packet k 0 (.rebuildPage r.table r.edition at_ (m.mem.readN lo len))
    | _, _, _ => m

/-- The pages that this member sends for a returning one: for each table, the SEALED, CURRENT and RETIRING editions of each
shard of which it holds the other copy. -/
def Module.rebuildPages (m : Module) (k : Nat) : List RebuildMark :=
  m.tables.flatMap fun x =>
    let roles := [(x.place.primaryOf k, false), (x.place.twinOf m.guildSize k, true)]
    roles.flatMap fun (shard, tw) =>
      match shard with
      | none => []
      | some s =>
        (x.editions.filter fun e => e.state != .building && (m.copyMap x.place e s).isSome).flatMap fun e =>
          (List.range x.place.shpages).map fun j => { table := x.place.table, edition := e.num, twin := tw, page := j }

/-- A source begins the rebuild of a member: every page is sent once (R443 step 2). -/
def Module.startRebuild (m : Module) (k : Nat) : Module :=
  let m := m.setGuild fun g => { g with rebuilds := g.rebuilds.filter (·.member != k) ++ [{ member := k, marks := [] }] }
  ((m.rebuildPages k).foldl (fun (m : Module) r => m.sendPage k r) m).checkRebuilds

/-- At PREPARE of its JOIN, the source sends the pages marked since (R443 step 4). -/
def Module.lastMarks (m : Module) (k : Nat) : Module :=
  match m.guild.rebuilds.find? fun r => r.member == k with
  | none => m
  | some r =>
    let clear (x : RebuildSrc) : RebuildSrc := if x.member = k then { x with marks := [] } else x
    (r.marks.foldl (fun (m : Module) p => m.sendPage k p) m).setGuild fun g => { g with rebuilds := g.rebuilds.map clear }

/-- What PREPARE does on a member before it reports. The sums of R76, R77, R79, R81, R86 and R89 are checked when an image is
loaded, against the drafts in force, and not again here or at COMMIT (log entry 156, DESIGN CHOICE). -/
def Module.begin_agr (m : Module) (a : Agreement) (drainUs : Nat) : Module :=
  match a with
  | .draftActivate p =>
    let m := m.stopAdmitting p.val
    if (m.ptn p.val).staged.isNone then m.reportAgr (.notReady 0) else m
  | .draftUnload p =>
    let m := m.stopAdmitting p.val
    if m.unloadBarred p.val then m.reportAgr (.notReady 0) else m
  | .flip t e =>
    match m.flipFault t e with
    | none => m
    | some r => if r = 2 ∧ drainUs ≠ 0 then m else m.reportAgr (.notReady r)
  | .group _ => m
  | .charter _ => m
  | .join k _ _ => m.lastMarks k.val

/-- A member takes PREPARE of an epoch. -/
def Module.takePrepare (m : Module) (e : Nat) (a : Agreement) (drainUs : Nat) : Module :=
  let m := m.setGuild fun g =>
    { g with epochSeen := max g.epochSeen e, agr := some { epoch := e, agr := a, since := m.ltime, drainUs := drainUs } }
  (m.begin_agr a drainUs).checkReady

/-- PREPARE: the member stops admitting where the agreement requires it, and reports READY once nothing keeps it. What a
new warden asks about an epoch taken before is answered with where this member stands (R405, R407). -/
def execPrepare (epoch : Word) (a : Agreement) (drainUs : Nat) (s : State) : Host.Outcome State Fault Refusal :=
  s.on fun m =>
    let e := epoch.toNat
    if !m.inGuild || decide (e < m.guild.floor) then m
    else match m.outcome e with
      | some ok => m.answerOutcome e ok
      | none =>
        match m.guild.agr.filter fun x => x.epoch == e with
        | some x => m.toWarden (.report e (if x.reported = some true then .ready else .notReady 0))
        | none => m.takePrepare e a drainUs

/-- How long a member drains before it reports NOT_READY, in µs: DRAIN_US, or the 100 ms of a GROUP agreement (R94, R169,
R414); no limit is given for a CHARTER or JOIN agreement. -/
def MemberAgr.limit (a : MemberAgr) : Option Nat :=
  match a.agr with
  | .group _ => some 100000
  | .charter _ => none
  | .join _ _ _ => none
  | .flip _ _ => some a.drainUs
  | .draftActivate _ => some a.drainUs
  | .draftUnload _ => some a.drainUs

/-- DRAIN_TIMEOUT: a member that has not reported reports NOT_READY. -/
def execDrainTimeout (epoch : Word) (s : State) : Host.Outcome State Fault Refusal :=
  s.on fun m =>
    match (m.guild.agr.filter fun a => a.epoch == epoch.toNat && a.reported.isNone && a.done.isNone).bind fun a => a.limit.map fun l => (a, l) with
    | none => m
    | some (a, l) =>
      let why := match a.agr with
        | .flip t e => (m.flipFault t e).getD 2
        | _ => 0
      (m.until_ (a.since + l * 1000)).reportAgr (.notReady why)

/-! ### COMMIT and ABORT on a member -/

/-- A flip comes into force between two admissions (R169 step 5, R284): the edition of each table becomes CURRENT, the old
one RETIRING, and the epoch is recorded. A member without a copy keeps the numbers alone. The editions of a guild graph that become
CURRENT together are noted as one set. -/
def Module.applyFlip (m : Module) (t e epoch : Nat) : Module :=
  let now := m.ltime
  let next (n : Nat) : Option Nat := if n = t then some e else ((m.table n).bind fun x => x.flipTo t e).map (·.num)
  let one (m : Module) (n : Nat) : Module :=
    match m.table n, next n with
    | some x, some num =>
      let have_ := x.editions.any fun y => y.num == num
      let turn (y : Edition) : Edition :=
        if y.num = num then { y with state := .current }
        else if y.state = .current then { y with state := .retiring, retiredAt := now, reported := false, slowSaid := false }
        else y
      let fresh : List Edition := if have_ then [] else [{ num := num, state := .current, fresh := false, primary := none, twin := none }]
      m.setTable n fun y => { y with editions := y.editions.map turn ++ fresh, flip := epoch, highest := max y.highest num }
    | _, _ => m
  let tables := m.flipTables t
  let set := tables.filterMap fun n => (next n).map fun num => (n, num)
  let m : Module := { m with ptns := m.ptns.map fun x =>
    { x with ggraphs := updWhere (fun g => g.offs == t) (fun g => { g with sets := g.sets ++ [set] }) x.ggraphs } }
  (tables.foldl one m).checkDrained

/-- A group table comes into force (R414, R416): every changed group begins again at sequence number 0. -/
def Module.applyGroup (m : Module) (t : WordMap) (epoch : Nat) : Module :=
  let ch := changedGroups m.rwk.inForce t
  m.setRwk fun r =>
    { r with
      inForce := t
      epoch := epoch
      seqs := r.seqs.filter fun x => !ch.contains (x.1 / 8)
      colls := r.colls.filter fun c => !ch.contains c.grp
      reforms := r.reforms.filter fun x => !ch.contains (nameGrp x.1)
      aborts := r.aborts.filter fun x => !ch.contains (nameGrp x.name)
      holds := r.holds.filter fun x => !ch.contains (nameGrp x.1)
      packets := if ch.isEmpty then r.packets else []
      sums := r.sums.filter fun x => !ch.contains (nameGrp x.1)
      stagedT := if r.busy && r.stagedT == t then t else r.stagedT
      result := if r.busy && r.stagedT == t then 1 else r.result
      busy := r.busy && r.stagedT != t }

/-- The JOINED member with the lowest serial number (R404). -/
def Module.lowestSerial (m : Module) (ks : List Nat) : Option Nat :=
  let ser (k : Nat) : Nat := ((assocGet k m.guild.serials).map BitVec.toNat).getD (2 ^ 128)
  ks.foldl (fun (b : Option Nat) k => match b with
    | none => some k
    | some x => if ser k < ser x then some k else some x) none

/-- The effectful records that this member holds as their admitting member (R368). -/
def Partition.effRecords (x : Partition) : List TallyEntry := x.tally.filter fun e => e.effectful && e.heldFor.isNone

/-- The tally twin of this member may have changed: every effectful record is copied to the new one, and effectful
commands wait until it has them (R368). A member alone has no twin. -/
def Module.checkTwin (m : Module) : Module :=
  let t := m.tallyTwin m.member
  if t = m.guild.lastTwin then m
  else match t with
    | none => ((m.setGuild fun g => { g with lastTwin := none, twinCopy := false }).setPwr fun x => { x with drainCopy := false }).checkDrain
    | some k =>
      if m.guild.lastTwin.isNone && m.ptns.all (fun x => x.effRecords.isEmpty) then
        m.setGuild fun g => { g with lastTwin := some k }
      else
        let n := (m.ptns.map fun x => x.effRecords.length).sum
        let m := m.ptns.zipIdx.foldl (fun (m : Module) (x : Partition × Nat) =>
          x.1.effRecords.foldl (fun (m : Module) e => m.sendTo k 3 (.bulk 2 x.2 (tallyBytes e))) m) m
        let old := (m.guild.lastTwin).getD m.member
        (m.sendTo k 3 (.bulk 4 0 (leBytes 1 old))).setGuild fun g => { g with lastTwin := some k, twinCopy := true, copied := n }

/-- The member at which a command would be admitted with every member JOINED (R353). -/
def Module.naturalHome (m : Module) (c : Capsule) : Nat := if c.target = 0xFF then c.reqid.toNat % max 1 m.guildSize else c.target.toNat

/-- The tally twin of a member that has joined copies back every effectful record that it admitted on its behalf, and says
when that is all (R443 step 6). -/
def Module.copyBack (m : Module) (k : Nat) : Module :=
  if m.tallyTwin k ≠ some m.member then m
  else
    let mine (e : TallyEntry) : Bool := e.effectful && e.heldFor.isNone && ((e.capsule.map m.naturalHome).getD k) == k
    (m.ptns.zipIdx.foldl (fun (m : Module) (x : Partition × Nat) =>
      (x.1.tally.filter mine).foldl (fun (m : Module) e => m.sendTo k 3 (.bulk 6 x.2 (tallyBytes e))) m) m).sendTo k 3 (.bulk 7 0 [])

/-- Edition states as R159 codes them; none for NONE and BUILDING, which a rebuild does not send. -/
def edStateOf (code : Nat) : Option EdState :=
  match code with
  | 2 => some .sealed
  | 3 => some .current
  | 4 => some .retiring
  | _ => none

/-- A copy of which some page never came has no live source: the member holds no edition of it (R443). -/
def wholeMap (l : Option (List Nat)) : Option (List Nat) := l.filter fun ps => !ps.contains unmapped

/-- A table takes the guild's editions: numbers, states, kinds and flip epoch from the answer, and the pages rebuilt (R443 step 5);
the next edition follows the guild's highest (R158). -/
def Module.takeEditions (m : Module) (a : JoinAnswer) (x : Table) : Module :=
  let mine := a.editions.filter fun e => e.1 == x.place.table
  if mine.isEmpty then m
  else
    let m := (x.editions.filter fun y => !(mine.any fun e => e.2.1 == y.num)).foldl (fun (m : Module) y =>
      match m.table x.place.table with
      | none => m
      | some x => (m.dropEdition x y).1) m
    let now := m.ltime
    let take (y : Table) (e : Nat × Nat × Nat × Nat) : Table :=
      let st := (edStateOf e.2.2.1).getD .sealed
      let kind := a.fresh.contains (x.place.table, e.2.1)
      let put (z : Edition) : Edition :=
        { z with state := st, fresh := kind, primary := wholeMap z.primary, twin := wholeMap z.twin, retiredAt := now, reported := false }
      let y := if y.editions.any fun z => z.num == e.2.1 then { y with editions := updWhere (fun z => z.num == e.2.1) put y.editions }
        else { y with editions := y.editions ++ [{ num := e.2.1, state := st, fresh := kind, primary := none, twin := none, retiredAt := now }] }
      { y with highest := max y.highest e.2.1, flip := if e.2.2.1 = 3 then e.2.2.2 else y.flip }
    m.setTable x.place.table fun y =>
      let y := mine.foldl take y
      { y with highest := max y.highest ((assocGet x.place.table a.highest).getD 0) }

/-- The joining member becomes JOINED (R402 step 6, R443 step 5): it takes the guild's membership, edition numbers and
epochs; effectful commands wait until its tally twin has copied its records back. -/
def Module.becomeJoined (m : Module) : Module :=
  let m := match m.guild.answer with
    | none => m
    | some a => (m.tables.foldl (fun (m : Module) x => m.takeEditions a x) m).setGuild fun g =>
        { g with joined := g.joined ||| a.joined, serials := a.serials.foldl (fun l (x : Nat × BitVec 128) => assocSet x.1 x.2 l) g.serials }
  let m := (m.setMode .joined).setGuild fun g => { g with quorum := true, noQuorumSaid := false }
  let m := (List.range 8).foldl (fun (m : Module) p =>
    (m.setPtn p fun x => { x with admitting := true }).admitWaiting p) m
  let twin := (m.tallyTwin m.member).isSome
  m.setGuild fun g => { g with twinCopy := twin, copyBack := twin, lastTwin := none, copied := 0 }

/-- The editions that this member has found DRAINED are reported to a new warden (R170, R407). -/
def Module.tellDrained (m : Module) : Module :=
  m.tables.foldl (fun (m : Module) t => (t.editions.filter fun e => e.state == .retiring && e.reported).foldl
    (fun (m : Module) e => m.toWarden (.drained t.place.table e.num)) m) m

/-- A member joins (R402 step 5, R443 steps 5, 6): the membership and the route set of its agreement. The joining member counts the
requests bound to a RETIRING edition anew (R170). -/
def Module.applyJoin (m : Module) (k : Nat) (serial : BitVec 128) (routes : List (Nat × Word)) (epoch : Nat) : Module :=
  let m := m.setGuild fun g =>
    { g with joined := BitVec.ofNat 64 (setBit g.joined.toNat k), serials := assocSet k serial g.serials
             rebuilds := g.rebuilds.filter (·.member != k), rebuilding := g.rebuilding.filter (·.member != k) }
  let m := m.takeRoutes routes
  let m := if k = m.member then m.becomeJoined else m
  let w := (m.lowestSerial m.joinedList).getD m.guild.warden
  let m := if w = m.guild.warden then m else (m.setGuild fun g => { g with warden := w, floor := epoch }).tellDrained
  if k = m.member then (m.setGuild fun g => { g with answer := none, lastTwin := m.tallyTwin m.member }).checkDrained
  else (m.checkTwin).copyBack k

/-- What COMMIT of an agreement does on a member. -/
def Module.applyAgr (m : Module) (a : Agreement) (epoch : Nat) : Module :=
  match a with
  | .draftActivate p => m.applyDraft p.val epoch
  | .draftUnload p => m.applyUnload p.val epoch
  | .flip t e => m.applyFlip t e epoch
  | .group t => m.applyGroup t epoch
  | .charter _ => m
  | .join k s rs => m.applyJoin k.val s rs epoch

/-- The guild charter as last agreed: what a CHARTER agreement carries, else the charter that the agreement has made (R410). -/
def Module.agreedCharter (m : Module) : Agreement → Module
  | .charter bs => m.setFab fun f => { f with gcharter := slice bs 0 64 }
  | _ => m.setFab fun f => { f with gcharter := m.charter }

/-- COMMIT: applied at most once, in an epoch not below those of a later warden, and acknowledged to the warden that runs
the agreement (R405). Collectives of a group that waited for a GROUP agreement then launch (R414). -/
def execCommit (epoch : Word) (a : Agreement) (s : State) : Host.Outcome State Fault Refusal :=
  s.on fun m =>
    let e := epoch.toNat
    let mine := match a with
      | .join k _ _ => k.val == m.member && m.pwr.mode == .quarantine
      | _ => false
    if !(m.inGuild || mine) || decide (e < m.guild.floor) then m
    else match m.outcome e with
      | some ok => m.answerOutcome e ok
      | none =>
        let w := m.guild.warden
        let m := ((m.applyAgr a e).recordEpoch e true).agreedCharter a
        (m.ackTo w e).launchFallbacks

/-- What ABORT of an agreement does on a member: admission resumes, or the edition stays SEALED, or the group table in
force stands. -/
def Module.undoAgr (m : Module) : Agreement → Module
  | .draftActivate p => m.resumeAdmitting p.val
  | .draftUnload p => m.resumeAdmitting p.val
  | .group t => m.setRwk fun r => if r.busy && r.stagedT == t then { r with busy := false, result := 2 } else r
  | .flip _ _ => m
  | .charter _ => m
  | .join _ _ _ => m

/-- ABORT: applied at most once (R405). -/
def execAbort (epoch : Word) (a : Agreement) (s : State) : Host.Outcome State Fault Refusal :=
  s.on fun m =>
    let e := epoch.toNat
    if !m.inGuild || decide (e < m.guild.floor) then m
    else match m.outcome e with
      | some ok => m.answerOutcome e ok
      | none => ((m.undoAgr a).recordEpoch e false).launchFallbacks

/-! ### The warden's side (R94 steps 6–10, R169, R404, R407) -/

/-- The state of the guild as the warden's answer to a JOIN gives it (R401, R402 step 4, R443 step 1). -/
def Module.joinAnswer (m : Module) : JoinAnswer :=
  let code : EdState → Nat := fun s => match s with
    | .building => 1
    | .sealed => 2
    | .current => 3
    | .retiring => 4
  { charter := m.charter
    digests := m.ptns.filterMap fun x => x.draft.map (·.digest)
    handles := m.ptns.flatMap fun x => x.graphs.map (·.handle)
    groups := m.rwk.inForce
    editions := m.tables.flatMap fun x => (x.editions.filter fun e => e.state != .building).map fun e =>
      (x.place.table, e.num, code e.state, x.flip)
    joined := m.guild.joined, serials := m.guild.serials
    fresh := m.tables.flatMap fun x => (x.editions.filter (·.fresh)).map fun e => (x.place.table, e.num)
    highest := m.tables.map fun x => (x.place.table, x.highest) }

/-- The members whose answers an agreement waits for. -/
def Module.voters (m : Module) : List Nat := m.joinedList.filter fun k => some k != m.guild.oldWarden

/-- What the warden runs at the moment. -/
def Module.setCurrent (m : Module) (a : Option WardenAgr) : Module := m.setGuild fun g => { g with current := a }

/-- LOST for a member has gone out, and the members are applying it. -/
def Module.declared (m : Module) (k : Nat) : Bool := m.guild.acks.any fun x => x.lost == some k

/-- Agreements that every member has applied end: each charter returned is compared with the guild's (R400). -/
def Module.compareCharters (m : Module) : Module :=
  let ended := m.guild.acks.filter (·.waits.isEmpty)
  ended.foldl (fun (m : Module) x => x.charters.foldl (fun (m : Module) c =>
    if agrees c.2 m.charter then m else m.mismatch c.1 c.2 m.charter) m)
    (m.setGuild fun g => { g with acks := g.acks.filter fun x => !x.waits.isEmpty })

/-- COMMIT goes to every JOINED member. A JOIN carries the route set over the new membership, and a joining member is first
told the membership (R402 steps 4–6). -/
def Module.sendCommit (m : Module) (a : WardenAgr) : Module :=
  let x : Agreement × Module := match a.agr with
    | .join k ser _ =>
      let r := m.routeSet ((List.range m.guildSize).filter fun x => m.isJoined x || x == k.val)
      (.join k ser r.1, r.2)
    | o => (o, m)
  let a : WardenAgr := { a with agr := x.1 }
  let joiner : List Nat := match a.agr with
    | .join k _ _ => if x.2.isJoined k.val then [] else [k.val]
    | _ => []
  let m := (x.2.setCurrent (some a)).setGuild fun g => { g with acks := g.acks ++ [{ epoch := a.epoch, waits := x.2.voters ++ joiner }] }
  let m := x.2.voters.foldl (fun (m : Module) k => m.packet k 0 (.commit a.epoch a.agr)) m
  match a.agr with
  | .join k _ _ =>
    let m := if k.val = m.member then m else m.packet k.val 0 (.joinAnswer m.joinAnswer)
    if m.isJoined k.val then m else m.packet k.val 0 (.commit a.epoch a.agr)
  | _ => m

/-- The notice that an agreement has been aborted (R93, R177, R417); that of a flip names the members that reported the first
reason. -/
def Module.abortNotice (m : Module) (a : WardenAgr) : Module :=
  let mask := (a.refused.map fun r => 2 ^ r.1).sum
  match a.agr with
  | .draftActivate p => m.post 0x0104 (some p.val) 0 (leBytes 8 a.epoch ++ leBytes 8 mask)
  | .draftUnload p => m.post 0x0104 (some p.val) 0 (leBytes 8 a.epoch ++ leBytes 8 mask)
  | .flip t e =>
    let first := ((a.refused.head?).map (·.2)).getD 0
    let mask := ((a.refused.filter fun r => r.2 == first).map fun r => 2 ^ r.1).sum
    m.post 0x0802 ((m.table t).map (·.ptn)) t
      (leBytes 4 t ++ leBytes 4 e ++ leBytes 8 a.epoch ++ leBytes 1 first ++ leBytes 8 mask)
  | .group _ => m.post 0x0404 none a.epoch (leBytes 2 0 ++ leBytes 8 0 ++ leBytes 8 a.epoch ++ leBytes 1 2 ++ leBytes 2 0)
  | .charter _ => m
  | .join _ _ _ => m

/-- The agreement is aborted. -/
def Module.abortAgr (m : Module) (a : WardenAgr) : Module :=
  let m := m.voters.foldl (fun (m : Module) k => m.packet k 0 (.abort a.epoch a.agr)) m
  (m.abortNotice a).endAgr a stAborted

/-- The notice that an agreement has been carried out (R177, R409, R417). -/
def Module.doneNotice (m : Module) (a : WardenAgr) (changed : Nat) : Module :=
  match a.agr with
  | .flip t e => m.post 0x0801 ((m.table t).map (·.ptn)) t (leBytes 4 t ++ leBytes 4 e ++ leBytes 8 a.epoch)
  | .group _ => m.post 0x0404 none a.epoch (leBytes 2 0 ++ leBytes 8 0 ++ leBytes 8 a.epoch ++ leBytes 1 1 ++ leBytes 2 changed)
  | .join k _ _ => m.post 0x0903 none 0 (leBytes 1 k.val ++ leBytes 8 a.epoch)
  | _ => m

/-- The warden declares a member lost (R406): LOST with a new epoch and the new route set goes to every other JOINED member
at once, with MEMBER_LOST and SHARD_SOLE (R436). A drained member is told when every member has applied it (R442). -/
def Module.declareLost (m : Module) (k cause : Nat) : Module :=
  let e := m.newEpoch
  let rest := m.joinedList.filter (· != k)
  let r := m.routeSet rest
  let m := r.2.setGuild fun g =>
    { g with epochSeen := e, probing := g.probing.filter (· != k), acks := g.acks ++ [{ epoch := e, waits := rest, lost := some k }]
             drainLost := if cause = 3 then g.drainLost ++ [{ epoch := e, member := k, waits := rest }] else g.drainLost }
  let m := rest.foldl (fun (m : Module) x => m.packet x 0 (.lost e k cause r.1)) m
  (m.post 0x0904 none 0 (leBytes 1 k ++ leBytes 8 e ++ leBytes 1 cause)).degradeAll 0x0207 none 0 (leBytes 1 k ++ leBytes 8 e)

/-- Every link of a member has been reported down by one end (R406). -/
def Module.allDown (m : Module) (k : Nat) : Bool :=
  let t := m.torus m.joinedList
  (List.range 6).all fun d => !t.usable k d

/-- A warden that has taken over declares the old one lost, once its open agreement is resolved (R407). -/
def Module.declareOld (m : Module) : Module :=
  match m.guild.oldWarden with
  | none => m
  | some o =>
    let m := (m.setGuild fun g => { g with oldWarden := none }).declareLost o (if m.allDown o then 1 else 2)
    m.post 0x0905 none 0 (leBytes 1 o ++ leBytes 1 m.member ++ leBytes 8 m.guild.epochSeen)

/-- The warden decides once every member has answered (R94 step 8, R96, R169 step 4, R407). A DRAFT, GROUP, CHARTER or JOIN
agreement with a member lost before its report is aborted. A flip that a new warden aborts after taking over, no member having
committed, gives reason 0 and an empty mask (R169, R177; log entry 166, DESIGN CHOICE). -/
def Module.decideAgr (m : Module) : Module :=
  match m.guild.current with
  | none => m
  | some a =>
    let vs := m.voters
    let told (k : Nat) : Bool := a.ready.contains k || a.refused.any (fun r => r.1 == k) || a.acked.contains k
    if a.phase = 0 then
      if a.lost then m.abortAgr a
      else if !vs.all told then m
      else if a.refused.isEmpty then
        let ch := match a.agr with
          | .group t => (changedGroups m.rwk.inForce t).length
          | _ => 0
        m.sendCommit { a with phase := 1, changed := ch }
      else m.abortAgr a
    else if a.phase = 2 then
      if !vs.all told then m
      else if a.acked.isEmpty then (m.abortAgr { a with refused := [] }).declareOld
      else (m.sendCommit { a with phase := 1, acked := [] }).declareOld
    else
      let all := match a.agr with
        | .join k _ _ => if vs.contains k.val then vs else vs ++ [k.val]
        | _ => vs
      if all.all a.acked.contains then (m.doneNotice a a.changed).endAgr a stOk else m

/-- The warden takes a request that a member forwards for a command: one that asks for an agreement taken over from a lost
warden is answered by what became of it; any other waits its turn. -/
def Module.takeRequest (m : Module) (a : WardenAgr) : Module :=
  match m.guild.current.filter fun x => x.taken && x.capsule.isNone && x.agr == a.agr with
  | some x => m.setCurrent (some { x with capsule := a.capsule, origin := a.origin })
  | none =>
    match m.guild.resolved.find? fun r => r.1 == a.agr with
    | some r => (m.setGuild fun g => { g with resolved := g.resolved.erase r }).answerAgr a (if r.2 then stOk else stAborted)
    | none => (m.enqueueAgr a).decideAgr

/-- READY: the warden takes a report. STAGED and its refusal are the parts of a DRAFT_LOAD, under its request ID (R94 step 4).
The charters of the ACKs are compared once every member has applied the agreement (R400). -/
def execReady (src : MemberId) (epoch : Word) (r : Report) (s : State) : Host.Outcome State Fault Refusal :=
  s.on fun m =>
    let load (st : Nat) : Module :=
      match (m.ptns.flatMap (·.waitCmds)).find? fun x => x.capsule.reqid == epoch && x.capsule.opc == 0x20 with
      | some x => m.partDone src.val x.capsule st
      | none => m
    let drained (m : Module) : Module :=
      let less (d : DrainLost) : DrainLost := if d.epoch = epoch.toNat then { d with waits := d.waits.filter (· != src.val) } else d
      let m := m.setGuild fun g => { g with drainLost := g.drainLost.map less }
      let applied := m.guild.drainLost.filter fun d => d.waits.isEmpty
      applied.foldl (fun (m : Module) d => m.packet d.member 0 (.lost d.epoch d.member 3 []))
        (m.setGuild fun g => { g with drainLost := g.drainLost.filter fun d => !d.waits.isEmpty })
    let agree (f : WardenAgr → WardenAgr) (m : Module) : Module :=
      match m.guild.current with
      | some a => if a.epoch = epoch.toNat then (m.setCurrent (some (f a))).decideAgr else m
      | none => m
    match r with
    | .staged => load stOk
    | .refused => load stAborted
    | .ready => agree (fun a => { a with ready := a.ready ++ [src.val] }) m
    | .notReady n => agree (fun a => if a.phase = 1 then a else { a with refused := a.refused ++ [(src.val, n)] }) m
    | .ack ch =>
      let took (x : AckWait) : AckWait :=
        if x.epoch = epoch.toNat then { x with waits := x.waits.filter (· != src.val), charters := x.charters ++ [(src.val, ch)] } else x
      let m := (m.setGuild fun g => { g with acks := g.acks.map took }).compareCharters
      drained (agree (fun a => { a with acked := a.acked ++ [src.val] }) m)

/-! ### Retirement (R170) -/

/-- RELEASE goes out with a new epoch once every JOINED member has reported DRAINED (R170 step 3). -/
def Module.checkRelease (m : Module) : Module :=
  if !m.isWarden then m
  else
    let keys := (m.guild.drainedBy.map fun d => (d.1, d.2.1)).eraseDups
    keys.foldl (fun (m : Module) (t, n) =>
      if m.joinedList.all fun k => m.guild.drainedBy.contains (t, n, k) then
        let e := m.newEpoch
        let rest (g : Guild) : Guild := { g with drainedBy := g.drainedBy.filter fun d => !(d.1 == t && d.2.1 == n), epochSeen := e }
        (m.setGuild rest).toJoined (.release e t n)
      else m) m

/-- DRAINED: the warden takes a member's report (R170). -/
def execDrained (src : MemberId) (table edition : BitVec 32) (s : State) : Host.Outcome State Fault Refusal :=
  s.on fun m =>
    let d := (table.toNat, edition.toNat, src.val)
    if !m.isWarden || m.guild.drainedBy.contains d then m
    else (m.setGuild fun g => { g with drainedBy := g.drainedBy ++ [d] }).checkRelease

/-- RELEASE: the RETIRING edition's pages that no other edition maps are freed, and it becomes NONE (R170 step 4). A flip
that waited for it may then be ready. -/
def execRelease (epoch : Word) (table edition : BitVec 32) (s : State) : Host.Outcome State Fault Refusal :=
  s.on fun m =>
    let e := epoch.toNat
    if !m.inGuild || decide (e < m.guild.floor) || (m.outcome e).isSome then m
    else
      let m := m.recordEpoch e true
      match (m.table table.toNat).bind fun x => (x.editions.find? fun y => y.num == edition.toNat && y.state == .retiring).map fun y => (x, y) with
      | none => m
      | some (x, y) =>
        let r := m.dropEdition x y
        (r.1.post 0x0803 (some x.ptn) x.place.table
          (leBytes 4 x.place.table ++ leBytes 4 y.num ++ leBytes 8 e ++ leBytes 4 r.2)).checkReady

/-! ### Joining (R402, R403, R443) -/

/-- The warden runs a JOIN agreement (R402 step 5). -/
def Module.runJoin (m : Module) (k : MemberId) (serial : BitVec 128) : Module :=
  (m.enqueueAgr { agr := .join k serial [], drainUs := 0, origin := m.member }).decideAgr

/-- The members that hold the other copy of some shard of a returning member (R443 step 2). -/
def Module.sourcesFor (m : Module) (k : Nat) : List Nat :=
  let g := m.guildSize
  (m.tables.flatMap fun x =>
    (match x.place.primaryOf k with
      | some s => if x.place.twin then [x.place.twinMember g s] else []
      | none => []) ++ (match x.place.twinOf g k with
      | some s => [s]
      | none => [])).eraseDups.filter m.isJoined

/-- The warden takes a JOIN (R402 steps 3–5, R443, R482): a bad quote keeps the member in QUARANTINE; a charter that differs
is answered; where only the editions differ, the sources rebuild the member's copies and the agreement follows; a charter
that agrees runs the JOIN agreement. -/
def Module.takeJoin (m : Module) (k : MemberId) (serial : BitVec 128) (charter quote : List Byte) (linkSerial : BitVec 128) : Module :=
  match quoteFault quote charter linkSerial with
  | some n => m.post 0x0607 none 0 (leBytes 1 k.val ++ leBytes 16 serial.toNat ++ leBytes 1 n)
  | none =>
    let busy := (m.guild.current.toList ++ m.guild.queue).any fun a => match a.agr with
      | .join j _ _ => j == k
      | _ => false
    let d := charterDiff charter m.charter
    if busy || m.isJoined k.val then m
    else if !charterOk charter then m.mismatch k.val charter m.charter
    else if d = 0 then m.runJoin k serial
    else
      let m := (m.packet k.val 0 (.joinAnswer m.joinAnswer)).mismatch k.val charter m.charter
      if d ≠ 2 ^ 6 ∨ m.guild.rebuilding.any (fun r => r.member == k.val) then m
      else
        let src := m.sourcesFor k.val
        let m := m.setGuild fun g => { g with rebuilding := g.rebuilding ++ [{ member := k.val, serial := serial, waits := src }] }
        if src.isEmpty then m.runJoin k serial else src.foldl (fun (m : Module) x => m.packet x 0 (.rebuildFor k.val)) m

/-- The warden's answer reaches a member in QUARANTINE (R401, R402 step 4): it takes the group table, and where its editions
are older it posts STALE_COPY. A charter that this changes is sent again. -/
def Module.takeJoinAnswer (m : Module) (a : JoinAnswer) : Module :=
  let before := m.charter
  let stale := m.tables.filterMap fun x =>
    (a.editions.find? fun e => e.1 == x.place.table && e.2.2.1 == 3 && e.2.2.2 != x.flip).map fun e => (x, e.2.1, e.2.2.2)
  let first := m.guild.answer.isNone
  let m := (m.setRwk fun r => { r with inForce := a.groups, stagedT := a.groups }).setGuild fun g =>
    { g with answer := some a, serials := a.serials.foldl (fun l (x : Nat × BitVec 128) => assocSet x.1 x.2 l) g.serials }
  let m := match m.lowestSerial (bitsSet 64 a.joined.toNat) with
    | some w => m.setGuild fun g => { g with warden := w }
    | none => m
  let m := if first then stale.foldl (fun (m : Module) (x, n, e) =>
      m.post 0x0807 (some x.ptn) x.place.table
        (leBytes 4 x.place.table ++ leBytes 4 n ++ leBytes 8 e ++ leBytes 8 x.flip)) m else m
  let m := m.setFab fun f => { f with gcharter := slice a.charter 0 64 }
  if charterDiff before m.charter = 0 then m else m.sendJoin

/-- JOIN_REQUEST: at the warden, a member asks to join; at the member in QUARANTINE that it names, the warden's answer. -/
def execJoinRequest (member : MemberId) (serial : BitVec 128) (charter quote : List Byte) (linkSerial : BitVec 128)
    (answer : JoinAnswer) (s : State) : Host.Outcome State Fault Refusal :=
  s.on fun m =>
    if member.val = m.member then (if m.pwr.mode = .quarantine then m.takeJoinAnswer answer else m)
    else if m.inGuild && m.isWarden && decide (member.val < m.guildSize) then m.takeJoin member serial charter quote linkSerial
    else m

/-- How many charters of a list agree with one. -/
def votesFor (chs : List (List Byte)) (c : List Byte) : Nat := chs.countP fun x => agrees x c

/-- The guild charter of a forming guild: the one that the most members hold; the warden's where a tie includes it, else
the first of those held most often (R403). -/
def mostHeld (chs : List (List Byte)) (warden : List Byte) : List Byte :=
  let top := (chs.map (votesFor chs)).foldl max 0
  if votesFor chs warden = top then warden else ((chs.find? fun c => votesFor chs c == top).getD warden)

/-- JOIN_WAIT_EXPIRE: no warden has answered (R403). The members reached, with their serial numbers and charters in rising
member order, form the guild when they and this one are more than half of it: the one with the lowest serial number takes
the warden's role and joins every member that holds the guild charter; the others wait for it. -/
def execJoinWaitExpire (reachable : Word) (serials : List (BitVec 128)) (charters : List (List Byte)) (s : State) :
    Host.Outcome State Fault Refusal :=
  s.on fun m =>
    if m.pwr.mode ≠ .quarantine ∨ m.guild.answer.isSome then m
    else
      let m := m.until_ (m.guild.joinAt + m.fld (fabR 0x028) 20 12 * 1000)
      let peers := (bitsSet 64 reachable.toNat).filter fun k => k != m.member && decide (k < m.guildSize)
      let mine := m.charter
      let all := (m.member, Config.serial, mine) :: (peers.zip (serials.zip charters)).map fun x => (x.1, x.2.1, x.2.2)
      if all.length * 2 ≤ m.guildSize then
        if m.guild.noQuorumSaid then m
        else (m.setGuild fun g => { g with noQuorumSaid := true }).post 0x0907 none 0 (leBytes 8 (peers.foldl setBit 0))
      else
        let m := m.setGuild fun g => { g with serials := all.foldl (fun l (x : Nat × BitVec 128 × List Byte) => assocSet x.1 x.2.1 l) g.serials }
        let w := (m.lowestSerial (all.map (·.1))).getD m.member
        let m := m.setGuild fun g => { g with warden := w }
        if w ≠ m.member then m
        else
          let top := (all.map fun x => charterEpoch x.2.2).foldl max 0
          let gc := mostHeld (all.map (·.2.2)) mine
          let m := (m.setGuild fun g => { g with epochSeen := max g.epochSeen top, quorum := true }).setFab fun f => { f with gcharter := gc }
          let in_ := all.filter fun x => agrees x.2.2 gc
          let out := all.filter fun x => !agrees x.2.2 gc
          let m := in_.foldl (fun (m : Module) x => m.runJoin (Fin.ofNat 64 x.1) x.2.1) m
          out.foldl (fun (m : Module) x => m.mismatch x.1 x.2.2 gc) m

/-- The map of one copy with a page of it set. -/
def mapPut (l : Option (List Nat)) (pages j k : Nat) : Option (List Nat) := some ((l.getD (List.replicate pages unmapped)).set j k)

/-- REBUILD_PAGE: a returning member in QUARANTINE takes a page of one of its editions (R443): bytes 0–31 of `page` number
the shard page, bit 32 the twin copy; data of 4 bytes name the edition that the page is shared with. -/
def execRebuildPage (src : MemberId) (table edition : BitVec 32) (page : Nat) (data : List Byte) (s : State) :
    Host.Outcome State Fault Refusal :=
  s.on fun m =>
    let n := edition.toNat
    let kind := (m.guild.answer.map fun a => a.fresh.contains (table.toNat, n)).getD false
    let listed := (m.guild.answer.map fun a => a.editions.any fun e => e.1 == table.toNat && e.2.1 == n).getD false
    match m.table table.toNat with
    | none => m
    | some x =>
      match m.regionNo x.ptn x.place.rgn with
      | none => m
      | some g =>
        let tw := page.testBit 32
        let j := page % 2 ^ 32
        let sp := x.place.shpages
        if m.pwr.mode ≠ .quarantine ∨ !listed ∨ sp ≤ j ∨ src.val = m.member then m
        else
          let m := if (x.edition n).isSome then m else m.setTable table.toNat fun y =>
            { y with editions := y.editions ++ [{ num := n, state := .building, fresh := kind, primary := none, twin := none }] }
          let cur (m : Module) (n : Nat) : Option Nat :=
            (((m.table table.toNat).bind fun y => y.edition n).bind fun e => (if tw then e.twin else e.primary).bind fun l => l[j]?).filter (· != unmapped)
          let put (k : Nat) (m : Module) : Module := m.setEdition table.toNat n fun e =>
            if tw then { e with twin := mapPut e.twin sp j k } else { e with primary := mapPut e.primary sp j k }
          let m := if data.length = 4 then
              match cur m (leNat data) with
              | some k => put k m
              | none => m
            else
              match cur m n with
              | some k => m.writeTable (x.place.stackOf j) (g.pageKey k) (data.take (2 ^ g.info.shift))
              | none =>
                let r := m.allocPage g (m.takenPages x.ptn x.place.rgn) (x.place.stackOf j)
                match r.1 with
                | none => r.2
                | some k => (put k r.2).writeTable (x.place.stackOf j) (g.pageKey k) (data.take (2 ^ g.info.shift))
          let mark : RebuildMark := { table := table.toNat, edition := n, twin := tw, page := j }
          m.setGuild fun y =>
            { y with rebuildAt := if y.rebuildGot.isEmpty then m.ltime else y.rebuildAt
                     rebuildGot := if y.rebuildGot.any fun r => r.1 == mark then updWhere (fun r => r.1 == mark) (fun r : RebuildMark × Nat => (r.1, r.2 + 1)) y.rebuildGot
                       else y.rebuildGot ++ [(mark, 1)] }

end Sys2Proof.Machine
end

