-- ==== Sys2Proof/Machine/Loss.lean ====
section
/-! DEFINITION. Member loss and failover (R138, R291, R369, R406, R426, R433), fencing and the warden's takeover (R407), the
end of a drain (R442), and route changes (R394). -/
namespace Sys2Proof.Machine

/-! ### Executing again on the tally twin (R369) -/

/-- The meaning of a command by its code, once it is in the tally (R351, R424). -/
def cmdRun (opc : Nat) : Module → Capsule → List Byte → Module :=
  match opc with
  | 0x01 => Module.runStart
  | 0x10 => Module.graphLoadRun
  | 0x11 => Module.graphUnloadRun
  | 0x20 => Module.draftLoadRun
  | 0x21 => Module.activateRun
  | 0x22 => Module.unloadRun
  | 0x30 => Module.pageRun
  | 0x31 => Module.pageRun
  | 0x44 => Module.flipRun
  | 0x50 => Module.graphDefRun
  | 0x51 => Module.graphDefRun
  | 0xF0 => Module.fallbackRun 0
  | _ => if within opc 0x40 0x43 then Module.editionRun else fun m _ _ => m

/-- A record runs again from its start (R369): a RUN as a request of a lost member, whose collectives end REEXEC (R427); a
fall-back launch likewise; any other command as it first ran. Inputs that are not inline are fetched again. -/
def Module.runAgain (m : Module) (p : Nat) (e : TallyEntry) (c : Capsule) : Module :=
  let outside := (inputsOf c).any fun x => !x.inl
  if e.opc = 0xF0 then
    (m.setRwk fun r => { r with fallbacks := r.fallbacks ++ [{ qp := 0, desc := capsuleFallback c, reexec := true }] }).launchFallbacks
  else if e.opc = 0x01 then
    let r : Request := { m.request_ (((e.own).map (·.qp)).getD 0) c m.member with deadline := e.deadline, recv := e.recv, forLost := true }
    if outside then
      let m := (m.setPtn p fun x => { x with requests := x.requests ++ [r] }).setCtr fun k => { k with stagedBytes := k.stagedBytes + r.staged }
      match e.own with
      | some d => m.fetchInputs d.qp c
      | none => m
    else
      let s := m.stage (inputBytes c [])
      (s.2.setPtn p fun x => { x with requests := x.requests ++ [{ r with inputs := s.1 }] }).joinWindow p c.reqid
  else if outside then m.setPtn p fun x => { x with refetch := x.refetch ++ [c.reqid] }
  else cmdRun e.opc m c []

/-- The tally twin of a lost member takes over the records that it holds for it (R369): DONE ones answer duplicates;
IN_FLIGHT ones run again, with the deadline counted from now. Where this member received the command, its completion goes
out here. -/
def Module.takeOver (m : Module) (k : Nat) : Module :=
  if m.tallyTwin k ≠ some m.member then m
  else
    m.ptns.zipIdx.foldl (fun (m : Module) (x : Partition × Nat) =>
      (x.1.tally.filter fun e => e.heldFor == some k).foldl (fun (m : Module) e =>
        let here := m.ctr.forwarded.find? fun f => f.origin.capsule.reqid == e.reqid && f.origin.capsule.ptn.toNat % 8 == x.2
        let own := if e.recv = m.member then here.bind (·.origin.own) else none
        let e : TallyEntry := { e with heldFor := none, arrival := if e.done then e.arrival else m.ltime, own := own }
        let m := m.setTally x.2 e.reqid fun _ => e
        if e.done then m
        else
          let m := if own.isNone then m
            else m.setCtr fun y => { y with forwarded := y.forwarded.filter fun f => f.origin.capsule.reqid != e.reqid }
          let m := m.count (ptnR x.2 0xE0) 32 32
          let m := match m.tallyTwin m.member with
            | some t => m.sendTo t 3 (.bulk 2 x.2 (tallyBytes e))
            | none => m
          match e.capsule with
          | some c => m.runAgain x.2 e c
          | none => m) m) m

/-! ### What the loss of a member means to work in flight -/

/-- Entries, parents and batches outstanding to the lost member go to the other copy, or are done (R138, R176, R291). -/
def Module.lostWork (m : Module) (k : Nat) : Module :=
  let m := m.gathers.foldl (fun (m : Module) g =>
    match m.gathers.find? fun x => x.key == g.key with
    | none => m
    | some g =>
      let here := g.arriving.flatMap (·.slots)
      let slots := (g.issued.filter fun e => e.member == k && !e.done && !here.contains e.slot).map (·.slot)
      if slots.isEmpty then m else m.resend g slots) m
  let m := m.samples.foldl (fun (m : Module) st0 =>
    (st0.parents.filter fun p => p.member == k && !p.answered).foldl (fun (m : Module) p0 =>
      match m.samples.find? fun x => x.key == st0.key, m.firing st0.key with
      | some st, some f =>
        match (f.tensor 1).bind fun t => m.ggraph f.ptn t.tableId, (f.tensor 1).bind fun t => m.table t.tableId,
            st.parents.find? fun p => p.bag == p0.bag && p.slot == p0.slot && p.member == k && !p.answered with
        | some g, some t, some p => m.takeAnswer f st g t p 0x10 [] true
        | _, _, _ => m
      | _, _ => m) m) m
  let m : Module := { m with scatters := m.scatters.map fun x => { x with out := x.out.filter fun o => o.2.1 != k } }
  let m := m.scatters.foldl (fun (m : Module) x => m.checkScatter x.key) m
  let m : Module := { m with querns := m.querns.map fun q => { q with batches := q.batches.filter fun b => !(b.src == k && !b.ended) } }
  m.collMemberLost k

/-- A command that this member received for a partition is sent on again, its first admitting member being lost (R353). -/
def Module.reroute (m : Module) (f : Forwarded) : Module :=
  let c := f.origin.capsule
  let p := c.ptn.toNat % 8
  let r := (m.ptn p).requests.find? fun x => x.reqid == c.reqid && x.dest != m.member
  let m := (m.setPtn p fun x => { x with requests := x.requests.filter fun y => !(y.reqid == c.reqid && y.dest != m.member) }).setCtr fun y =>
    { y with forwarded := y.forwarded.filter fun z => z.origin.capsule.reqid != c.reqid }
  match r with
  | none => m
  | some r =>
    let k := m.admitter c (m.effectful c)
    if k = m.member then m.enter f.origin r.arrival ((m.ltime - r.arrival) / 1000) [] (cmdRun c.opc.toNat)
    else (m.setPtn p fun x => { x with requests := x.requests ++ [{ r with dest := k }] }).setCtr fun y =>
      { y with forwarded := y.forwarded ++ [{ f with waits := [k] }] }

/-- Commands forwarded to the lost member (R369, R371): CANCEL and QUERY no longer wait for it; an effectful one is
answered by its tally twin; of a read-only one no record is left, and one whose inputs are still being fetched goes to
another member. -/
def Module.lostForwarded (m : Module) (k : Nat) : Module :=
  (m.ctr.forwarded.filter fun f => f.waits.contains k).foldl (fun (m : Module) f =>
    let c := f.origin.capsule
    let o := c.opc.toNat
    let set (g : Forwarded → Forwarded) (m : Module) : Module :=
      m.setCtr fun y => { y with forwarded := updWhere (fun z => z.origin.capsule.reqid == c.reqid) g y.forwarded }
    if o = 0x02 ∨ o = 0x03 then
      if f.waits.all (· == k) then
        (m.setCtr fun y => { y with forwarded := y.forwarded.filter fun z => z.origin.capsule.reqid != c.reqid }).answerDirect f.origin stOk f.value
      else set (fun z => { z with waits := z.waits.filter (· != k) }) m
    else if (m.ptn (c.ptn.toNat % 8)).requests.any fun x => x.reqid == c.reqid && x.dest == k then m.reroute f
    else if m.effectful c then set (fun z => { z with waits := (m.tallyTwin k).toList }) m
    else m.setCtr fun y => { y with forwarded := y.forwarded.filter fun z => z.origin.capsule.reqid != c.reqid }) m

/-- The agreement that a command asks the warden for (R94 step 5, R98, R169). -/
def agreementOf (c : Capsule) : Option (Agreement × Nat) :=
  let p : PtnId := ⟨c.ptn.toNat % 8, Nat.mod_lt _ (by decide)⟩
  match c.opc.toNat with
  | 0x21 => some (.draftActivate p, drainOf c)
  | 0x22 => some (.draftUnload p, drainOf c)
  | 0x44 => some (.flip (editionTable c) (c.arg0.toNat / 2 ^ 32), c.arg1.toNat)
  | _ => none

/-- Commands whose parts the lost member was to do: they no longer wait for it (R94, R162, R282). -/
def Module.lostParts (m : Module) (k : Nat) : Module :=
  (m.ptns.flatMap (·.waitCmds)).foldl (fun (m : Module) x =>
    if x.waits.contains k && (agreementOf x.capsule).isNone then m.partDone k x.capsule stOk else m) m

/-- What this member had asked a former warden is asked of the present one, and its DRAINED reports are sent again. -/
def Module.askAgain (m : Module) (old : Nat) : Module :=
  let m := (m.ptns.flatMap (·.waitCmds)).foldl (fun (m : Module) x =>
    match agreementOf x.capsule with
    | none => m
    | some (a, drain) =>
      if !(x.waits == [old] || (x.mine && old == m.member)) then m
      else
        let p := x.capsule.ptn.toNat % 8
        if m.isWarden then
          (m.setWait p x.capsule.reqid fun y => { y with mine := true, waits := [] }).takeRequest
            { agr := a, drainUs := drain, origin := m.member, capsule := some x.capsule }
        else (m.setWait p x.capsule.reqid fun y => { y with mine := false, waits := [m.guild.warden] }).sendTo m.guild.warden 0 (.command 0 x.capsule [])) m
  let m := m.tellDrained
  let m := if m.pwr.mode = .draining ∧ m.pwr.drainAt.isNone then m.toWarden .drainDone else m
  if m.rwk.busy then m.packet m.guild.warden 3 (.bulk 3 0 (tableBytes m.rwk.stagedT)) else m

/-! ### LOST and ROUTES on a member (R406) -/

/-- BYPASS_BREAK, once for each ring that the loss has left with one live member (R385). -/
def Module.checkBreaks (m : Module) : Module :=
  let now := (m.torus m.joinedList).lone
  let id (r : Nat × Nat × Nat × Nat) : Nat := r.1 * 16 + r.2.2.1 * 4 + r.2.2.2
  let new := now.filter fun r => !m.fab.breakSaid.contains (id r)
  (new.foldl (fun (m : Module) r =>
    m.post 0x0908 none 0 (leBytes 1 r.1 ++ leBytes 1 r.2.1 ++ leBytes 1 r.2.2.1 ++ leBytes 1 r.2.2.2)) m).setFab fun f => { f with breakSaid := now.map id }

/-- The warden's own records lose a member: its agreement goes on with the reduced membership, and what waited for it may be
complete (R96, R169, R170, R404, R443). -/
def Module.wardenLost (m : Module) (k : Nat) : Module :=
  if !m.isWarden then m
  else
    let drop (a : WardenAgr) : WardenAgr :=
      let joiner := match a.agr with
        | .join j _ _ => j.val == k
        | _ => false
      let early := match a.agr with
        | .flip _ _ => false
        | _ => !(a.ready.contains k)
      { a with lost := a.lost || (a.phase == 0 && early) || joiner
               ready := a.ready.filter (· != k), refused := a.refused.filter fun r => r.1 != k, acked := a.acked.filter (· != k) }
    let m := m.setGuild fun g =>
      { g with current := g.current.map drop
               downLinks := g.downLinks.filter fun d => d.1 != k
               drainedBy := g.drainedBy.filter fun d => d.2.2 != k
               drainLost := g.drainLost.map fun d => { d with waits := d.waits.filter (· != k) } }
    let m := m.setGuild fun g => { g with rebuilding := g.rebuilding.map fun r => { r with waits := r.waits.filter (· != k) } }
    let m := m.setGuild fun g =>
      { g with acks := g.acks.map fun x => { x with waits := x.waits.filter (· != k), charters := x.charters.filter fun c => c.1 != k } }
    (m.decideAgr.checkRelease).checkBreaks.compareCharters

/-- The module has left the guild for good: step 5 of R442. It is OFF, its Ethernet links stop, and its pairs go to THROUGH
(R384, R499). -/
def Module.finishDrain (m : Module) : Module :=
  (m.setMode .off).setCtr fun c => { c with link := [false, false, false, false], paused := [none, none, none, none] }

/-- LOST is applied (R406): the member leaves the membership, its packets are discarded, and its work fails over. -/
def Module.applyLost (m : Module) (e k cause : Nat) (routes : List (Nat × Word)) : Module :=
  let old := m.guild.warden
  let m := m.setGuild fun g =>
    { g with joined := BitVec.ofNat 64 (clearBit g.joined.toNat k), rebuilds := g.rebuilds.filter (·.member != k) }
  let m := (m.takeRoutes routes).dropFlows fun f => f.member == k
  let w := (m.lowestSerial m.joinedList).getD m.member
  let m := if w = old then m else m.setGuild fun g => { g with warden := w, floor := e }
  if k = m.member then (if cause = 3 then (m.recordEpoch e true).finishDrain else m)
  else
    let m := ((m.lostWork k).lostForwarded k).lostParts k
    let m := if old = k then m.askAgain old else m
    let m := (m.takeOver k).checkTwin
    let m := (m.recordEpoch e true).wardenLost k
    m.ackTo m.guild.warden e

def execLost (epoch : Word) (member : MemberId) (cause : Byte) (routes : List (Nat × Word)) (s : State) :
    Host.Outcome State Fault Refusal :=
  s.on fun m =>
    let e := epoch.toNat
    if !m.inGuild || decide (e < m.guild.floor) then m
    else match m.outcome e with
      | some ok => m.answerOutcome e ok
      | none => m.applyLost e member.val cause.toNat routes

/-- ROUTES: a new route set for a new epoch, acknowledged (R394, R406). -/
def execRoutes (epoch : Word) (routes : List (Nat × Word)) (s : State) : Host.Outcome State Fault Refusal :=
  s.on fun m =>
    let e := epoch.toNat
    if !m.inGuild || decide (e < m.guild.floor) then m
    else match m.outcome e with
      | some ok => m.answerOutcome e ok
      | none =>
        let m := (m.takeRoutes routes).recordEpoch e true
        m.ackTo m.guild.warden e

/-- PROBE_EXPIRE: a probed member has not answered within PROBE µs (R406). -/
def execProbeExpire (member : MemberId) (s : State) : Host.Outcome State Fault Refusal :=
  s.on fun m =>
    if m.isWarden && m.guild.probing.contains member.val then
      (m.until_ ((assocGet member.val m.guild.probeAt).getD m.ltime + m.fld (fabR 0x028) 8 12 * 1000)).declareLost member.val 2
    else m

/-! ### Fencing and takeover (R407) -/

/-- The members reached are more than half of the last agreed membership, or exactly half with the lowest serial among
them. -/
def Module.quorate (m : Module) (side : List Nat) : Bool :=
  let all := m.joinedList
  decide (all.length < 2 * side.length) ||
    (2 * side.length == all.length && ((m.lowestSerial all).map side.contains).getD false)

/-- A member cut off fences itself: QUARANTINE, its instances cancelled, no completion of an effectful command, and FENCED
(R407). -/
def Module.fence (m : Module) (side : List Nat) : Module :=
  let quiet (e : TallyEntry) : TallyEntry := if e.effectful && !e.done then { e with own := none, attached := [], recv := m.member } else e
  let m : Module := { m with ptns := m.ptns.map fun x => { x with admitting := false, tally := x.tally.map quiet } }
  let m := m.insts.foldl (fun (m : Module) i => m.cancelInst i) m
  let m := (m.setMode .quarantine).setGuild fun g =>
    { g with joined := 0, quorum := false, agr := none, current := none, queue := [], oldWarden := none, probing := []
             probeAt := [], acks := [], drainLost := [], answer := none, rebuilds := [], rebuilding := [], rebuildGot := [], noQuorumSaid := false }
  let m := (m.dropFlows fun _ => true).setFab fun f => { f with routes := [] }
  (m.post 0x0906 none 0 (leBytes 8 (side.foldl setBit 0))).sendJoin

/-- The next lowest serial takes over from a lost warden: it asks every JOINED member about the epoch left open, and
declares the old warden lost once it is resolved (R169, R407). -/
def Module.takeWarden (m : Module) : Module :=
  let old := m.guild.warden
  let m := m.setGuild fun g => { g with warden := m.member, oldWarden := some old, queue := [], current := none, acks := [] }
  match m.guild.agr.filter fun a => a.done.isNone || a.epoch == m.guild.epoch with
  | none => m.declareOld
  | some a =>
    let m := m.setGuild fun g =>
      { g with current := some { agr := a.agr, epoch := a.epoch, drainUs := a.drainUs, origin := m.member, phase := 2, taken := true } }
    m.voters.foldl (fun (m : Module) k => m.packet k 0 (.prepare a.epoch a.agr a.drainUs)) m

/-- FENCE_EXPIRE: for FENCE µs, counted from when one of its ports last left UP (log entry 182, DESIGN CHOICE), this member has
reached these members and no others. Without a side that may act it fences itself; with one, and the warden not in it, the lowest
serial takes over. -/
def execFenceExpire (reached : Word) (s : State) : Host.Outcome State Fault Refusal :=
  s.on fun m =>
    if !m.inGuild then m
    else
      let m := m.until_ (m.fab.downAt + m.fld (fabR 0x028) 20 12 * 1000)
      let side := m.joinedList.filter fun k => k == m.member || reached.toNat.testBit k
      if !m.quorate side then m.fence side
      else
        let m := m.setGuild fun g => { g with quorum := true }
        if side.contains m.guild.warden || m.lowestSerial side != some m.member then m else m.takeWarden

end Sys2Proof.Machine
end

