-- ==== Sys2Proof/Machine/Fabric.lean ====
section
/-! DEFINITION. The Lightway fabric: the bypass (R384, R385), bringing up a link (R386, R387, R389), link frames and port
failure (R388), packets and their sequenced delivery (R390, R391, R393, R394), and links that go down (R406). -/
namespace Sys2Proof.Machine

/-! ### Ports, directions and pairs (R381, R383, R384) -/

/-- The direction and the lane that a port faces; none for a spare that is not cabled. -/
def Module.facing (m : Module) (p : Nat) : Option (Nat × Nat) :=
  if p < 30 then some (p % 6, p / 6)
  else
    let ax := m.fld (fabR 0x000) 12 2
    if ax < 3 then some (2 * ax + p % 2, 5) else none

/-- A port is cabled: its axis has an extent above 1 (R383). -/
def Module.cabled (m : Module) (p : Nat) : Bool :=
  match m.facing p with
  | none => false
  | some (d, _) => decide (1 < (m.torus []).extent (d / 2))

/-- A pair is LOCAL from fabric training until the end of DRAINING, where its axis is cabled (R384, R499). -/
def Module.pairLocal (m : Module) (k : Nat) : Bool :=
  (m.pwr.mode == .training || m.pwr.mode == .quarantine || m.pwr.mode == .joined || m.pwr.mode == .draining) &&
    m.pwr.input && m.fld (fabR 0x000) 14 1 == 1 && m.cabled (2 * k)

/-- A port leaves UP or its training: its keys are zeroised (R388, R389). -/
def Port.reset (x : Port) (state : Nat) : Port :=
  { x with state := state, reason := 0, keyTx := [], keyRx := [], counter := 0, phase := false, discards := [], authFails := [] }

/-- PAIR_SWITCH_DONE: a pair has changed state as its module's state asks (R384): a THROUGH pair's ports are DARK, a LOCAL
pair's ports train. -/
def execPairSwitchDone (pair : Fin 16) (through : Bool) (s : State) : Host.Outcome State Fault Refusal :=
  s.on fun m =>
    let k := pair.val
    if through = m.pairLocal k then m
    else
      let m := m.setFab fun f => { f with through := BitVec.ofNat 16 (if through then setBit f.through.toNat k else clearBit f.through.toNat k) }
      let m := m.setPort (2 * k) fun x => x.reset (if through then 0 else 1)
      m.setPort (2 * k + 1) fun x => x.reset (if through then 0 else 1)

/-! ### Bringing up a link (R386, R387, R389) -/

/-- The peer stands 1, 2 or 3 steps along the port's direction, its other coordinates equal (R387). -/
def Module.positionOk (m : Module) (d : Nat) (x : PeerIdent) : Bool :=
  let t := m.torus []
  let axis := d / 2
  let n := t.extent axis
  let at_ (a : Nat) : Nat := t.coord m.member a
  let peer (a : Nat) : Nat := [x.x, x.y, x.z].getD a 0
  ((List.range 3).all fun a => a == axis || peer a == at_ a) &&
    [1, 2, 3].any fun s => peer axis == (at_ axis + (if d % 2 = 0 then s else 3 * n - s)) % n

/-- Why IDENT holds the port, by the reasons of R387; 0 where it passes. -/
def Module.identFault (m : Module) (p : Nat) (x : PeerIdent) : Nat :=
  if x.serial = Config.serial then 1
  else if x.handle ≠ m.reg (fabR 0x008) then 2
  else match m.facing p, m.facing x.port.val with
    | some (d, l), some (d', l') =>
      if !m.positionOk d x then 3
      else if d' / 2 = d / 2 ∧ d' % 2 ≠ d % 2 ∧ l' = l then 0
      else 4
    | _, _ => 4

/-- PORT_TRAIN: a cabled port of a LOCAL pair locks and identifies its peer (R386 steps 1–3): it goes on to KEY, or is HELD
with a reason (R387). A port whose module holds no configuration trains none (R382). -/
def execPortTrain (port : LPort) (peer : PeerIdent) (s : State) : Host.Outcome State Fault Refusal :=
  s.on fun m =>
    let p := port.val
    let ok := m.fld (fabR 0x000) 14 1 == 1 && m.cabled p && !(m.fab.through.toNat.testBit (p / 2)) && (m.port p).state ≤ 2
    if !ok then m
    else
      let r := m.identFault p peer
      let m := m.setPort p fun x =>
        { x with state := if r = 0 then 3 else 7, reason := r, peer := peer.member.toNat % 64, peerPort := peer.port.val
                 peerSerial := peer.serial, retryAt := m.ltime + 10000000000 }
      if 2 ≤ r ∧ r ≤ 4 then
        m.post 0x0902 none 0 (leBytes 1 p ++ leBytes 1 r ++ leBytes 16 peer.serial.toNat ++ leBytes 1 peer.x ++ leBytes 1 peer.y ++ leBytes 1 peer.z)
      else m

/-- HELD_RETRY: a HELD port trains again after 10 s (R387). -/
def execHeldRetry (port : LPort) (s : State) : Host.Outcome State Fault Refusal :=
  s.on fun m =>
    let x := m.port port.val
    if x.state = 7 then (m.until_ x.retryAt).setPort port.val fun y => y.reset 1 else m

/-- The keys and salts of the two directions, from the end with the lower serial first: 72 bytes of SHAKE256 (R389). -/
def linkBytes (secret : List Byte) (lo hi : BitVec 128) (plo phi : Nat) (handle : Word) : List Byte :=
  shake256 (secret ++ leBytes 16 lo.toNat ++ leBytes 16 hi.toNat ++ leBytes 1 plo ++ leBytes 1 phi ++ leBytes 8 handle.toNat) 72

/-- Take the keys that a secret gives a port: a key and its salt for each direction. -/
def Module.takeKeys (m : Module) (p : Nat) (secret : List Byte) (flip : Bool) (state : Nat) : Module :=
  let x := m.port p
  let h := m.reg (fabR 0x008)
  let low := decide (Config.serial.toNat < x.peerSerial.toNat)
  let k := if low then linkBytes secret Config.serial x.peerSerial p x.peerPort h else linkBytes secret x.peerSerial Config.serial x.peerPort p h
  let a := slice k 0 32 ++ slice k 64 4
  let b := slice k 32 32 ++ slice k 68 4
  m.setPort p fun y =>
    { y with state := state, keyTx := if low then a else b, keyRx := if low then b else a, counter := 0, phase := if flip then !y.phase else y.phase }

/-- Tell the warden of a link, in a guild (R406). -/
def Module.reportLink (m : Module) (x : FabMsg) : Module := if m.inGuild then m.toWarden x else m

/-- KEY_AGREE: both ends agree the link keys and the port is UP, a spare in STANDBY; a certificate or signature that fails
holds it with IDENTITY and LINK_AUTH (R386 step 4, R387, R389). -/
def execKeyAgree (port : LPort) (certOk sigOk : Bool) (secret : List Byte) (s : State) : Host.Outcome State Fault Refusal :=
  s.on fun m =>
    let p := port.val
    let x := m.port p
    if x.state ≠ 3 then m
    else if !certOk || !sigOk then
      (m.setPort p fun y => { y with state := 7, reason := 5, retryAt := m.ltime + 10000000000 }).post 0x0602 none 0
        (leBytes 1 p ++ leBytes 16 x.peerSerial.toNat ++ leBytes 1 (if certOk then 2 else 1))
    else ((m.takeKeys p secret false (if p < 30 then 4 else 5)).reportLink (.linkUp p)).checkTrained

/-- KEY_RENEW: new keys without a gap, selected by the key phase (R389). -/
def execKeyRenew (port : LPort) (secret : List Byte) (s : State) : Host.Outcome State Fault Refusal :=
  s.on fun m =>
    let x := m.port port.val
    if x.state = 4 ∨ x.state = 5 then m.takeKeys port.val secret true x.state else m

/-! ### Link frames and failure (R388) -/

/-- The ports of a direction that carry traffic. -/
def Module.upIn (m : Module) (d : Nat) : Nat := ((m.torus []).ports d).countP fun p => (m.port p).state == 4

/-- A spare no longer carries the traffic of the ports of its direction. -/
def Module.unspare (m : Module) (p : Nat) : Module :=
  if p < 30 then m
  else m.setFab fun f => { f with ports := f.ports.zipIdx.map fun (x, i) => if i % 2 = p % 2 then { x with spared := false } else x }

/-- A port leaves UP at this moment. -/
def Module.dropPort (m : Module) (p : Nat) (g : Port → Port) : Module :=
  ((m.setPort p g).setFab fun f => { f with downAt := m.ltime }).unspare p

/-- A port FAILS: it is taken out until the next boot (R388). One on the spare axis hands its traffic to the spare of its
direction in STANDBY, with PORT_SPARED; otherwise PORT_LOST tells what is left. Tags that failed are told in LINK_AUTH. -/
def Module.portFail (m : Module) (p : Nat) : Module :=
  let x := m.port p
  match m.facing p with
  | none => m
  | some (d, _) =>
    if x.state ≠ 4 ∧ x.state ≠ 5 then m
    else
      let sp := 30 + d % 2
      let spare := decide (p < 30 ∧ m.fld (fabR 0x000) 12 2 = d / 2 ∧ (m.port sp).state = 5)
      let m := if 16 ≤ x.authFails.length then m.post 0x0602 none 0 (leBytes 1 p ++ leBytes 16 x.peerSerial.toNat ++ leBytes 1 3) else m
      let m := (m.dropPort p fun y => { y.reset 6 with spared := spare }).reportLink (.linkDown p)
      if spare then
        (m.setPort sp fun y => { y with state := 4 }).degrade (p / 8) (p % 8) 0x0205 none 0 0
          (leBytes 1 p ++ leBytes 1 sp ++ leBytes 1 x.peer)
      else m.degrade (p / 8) (p % 8) 0x0206 none 0 0 (leBytes 1 p ++ leBytes 1 (m.upIn d) ++ leBytes 1 x.peer)

/-- A frame is discarded at this moment. The port fails on more than UERATE of them in a second, or on 16 that failed
authentication in a millisecond (R388). -/
def Module.discardFrame (m : Module) (p : Nat) (auth : Bool) : Module :=
  let now := m.ltime
  let m := m.setPort p fun y =>
    { y with discards := now :: y.discards.filter fun t => decide (now < t + 1000000000)
             authFails := (if auth then [now] else []) ++ y.authFails.filter fun t => decide (now < t + 1000000) }
  if m.fld (fabR 0x028) 40 16 < (m.port p).discards.length ∨ 16 ≤ (m.port p).authFails.length then m.portFail p else m

/-- LINK_FRAME_RECEIVE: corrected codewords are counted; a frame with an uncorrectable codeword or a bad tag is discarded
and counted, and the peer repeats it (R388, R410). -/
def execLinkFrameReceive (port : LPort) (codewordOk tagOk : Bool) (corrected : Nat) (s : State) : Host.Outcome State Fault Refusal :=
  s.on fun m =>
    let p := port.val
    let r := fabR (0x108 + 0x10 * p)
    let x := m.port p
    if x.state ≠ 4 ∧ x.state ≠ 5 then m
    else
      let m := m.count r 0 32 corrected
      if !codewordOk then (m.count r 32 16).discardFrame p false
      else if !tagOk then (m.count r 48 16).discardFrame p true
      else m.setPort p fun y => { y with counter := y.counter + 1 }

/-- PORT_FAIL: one wavelength has lost lock while the others keep it, or the other end has taken the port out (R388). -/
def execPortFail (port : LPort) (s : State) : Host.Outcome State Fault Refusal :=
  s.on fun m => m.portFail port.val

/-- LINK_DOWN: the peer has gone dark: keys zeroised, reported to the warden, and the port trains again (R388, R406). -/
def execLinkDown (port : LPort) (s : State) : Host.Outcome State Fault Refusal :=
  s.on fun m =>
    let p := port.val
    if (m.port p).state ≠ 4 ∧ (m.port p).state ≠ 5 then m
    else (m.dropPort p fun y => y.reset 1).reportLink (.linkDown p)

/-! ### The warden's view of links (R394, R406) -/

/-- The warden records a link down: with every link of the member behind it down it declares it lost at once, else it probes
it. -/
def Module.takeLinkDown (m : Module) (src port : Nat) : Module :=
  if !m.isWarden then m
  else
    let m := m.setGuild fun g => { g with downLinks := if g.downLinks.contains (src, port) then g.downLinks else g.downLinks ++ [(src, port)] }
    match (m.facing port).bind fun f => (m.torus m.joinedList).next src f.1 with
    | none => m
    | some k =>
      if m.declared k then m
      else if m.allDown k then m.declareLost k 1
      else if m.guild.probing.contains k || k == m.member then m
      else (m.setGuild fun g => { g with probing := g.probing ++ [k], probeAt := assocSet k m.ltime g.probeAt }).packet k 0 .probe

/-- The warden records a link up; where it opens a direction between members, ROUTES goes out with a new epoch. -/
def Module.takeLinkUp (m : Module) (src port : Nat) : Module :=
  if !m.isWarden || !(m.guild.downLinks.contains (src, port)) then m
  else
    let m' := m.setGuild fun g => { g with downLinks := g.downLinks.filter (· != (src, port)) }
    let open_ (x : Module) : Bool := ((x.facing port).map fun f => (x.torus x.joinedList).usable src f.1).getD false
    if open_ m || !open_ m' then m'
    else
      let e := m'.newEpoch
      let r := m'.routeSet m'.joinedList
      (r.2.setGuild fun g => { g with epochSeen := e, acks := g.acks ++ [{ epoch := e, waits := m'.joinedList }] }).toJoined (.routes e r.1)

/-- The warden hears that a source of a rebuild is through with its first pass; after the last, JOIN (R443 steps 3, 4). -/
def Module.takeRebuildReady (m : Module) (src k : Nat) : Module :=
  let less (r : RebuildFor) : RebuildFor := if r.member = k then { r with waits := r.waits.filter (· != src) } else r
  let m := m.setGuild fun g => { g with rebuilding := g.rebuilding.map less }
  match m.guild.rebuilding.find? fun r => r.member == k && r.waits.isEmpty with
  | some r => if m.isWarden then m.runJoin (Fin.ofNat 64 k) r.serial else m
  | none => m

/-- CONTROL messages that have no row of their own, by their first byte (log entry 31, DESIGN CHOICE): 1 link down, 2 send the rebuild pages
of a member, 3 drained, 4 probe, 5 the probe's answer, 6 link up, 7 rebuild ready. -/
def Module.control (m : Module) (src : Nat) (pl : List Byte) : Module :=
  let x := fieldAt pl 1 1
  match fieldAt pl 0 1 with
  | 1 => m.takeLinkDown src (x % 32)
  | 2 => m.startRebuild (x % 64)
  | 3 => if m.isWarden && m.isJoined src then m.declareLost src 3 else m
  | 4 => m.packet src 0 .probeAnswer
  | 5 => m.setGuild fun g => { g with probing := g.probing.filter (· != src) }
  | 6 => m.takeLinkUp src (x % 32)
  | 7 => m.takeRebuildReady src (x % 64)
  | _ => m

/-! ### Packets (R390, R391, R393, R394) -/

/-- The header in the layout of R390, with HOP taken as zero for the trailer's CRC. -/
def packetBytes (h : PacketHeader) (hop : Byte) : List Byte :=
  leBytes 1 h.kind.toNat ++ leBytes 1 h.vcc.toNat ++ leBytes 1 h.dst.toNat ++ leBytes 1 h.src.toNat ++ leBytes 2 h.len.toNat ++
    leBytes 2 h.flow.toNat ++ leBytes 4 h.pseq.toNat ++ leBytes 4 h.ack.toNat ++ leBytes 8 h.route.toNat ++ leBytes 1 h.ptn.toNat ++
    leBytes 1 hop.toNat ++ leBytes 6 h.rsv1A.toNat

/-- The packet kinds of R391. -/
def kindKnown (k : Nat) : Bool := within k 0x01 0x04 || within k 0x10 0x15 || k == 0x20 || k == 0x30 || k == 0x3F

/-- The direction of a packet's hop number `i` in its ROUTE. -/
def hopDir (h : PacketHeader) (i : Nat) : Nat := h.route.toNat / 8 ^ i % 8

/-- A packet for another member takes its next hop (R390, R394): HOP is rewritten, and it moves to buffer class 1 when it
crosses a wrap link or turns against dimension order. No route passes through a member that is not JOINED. -/
def Module.transit (m : Module) (h : PacketHeader) (payload : List Byte) : Module :=
  let i := h.hop.toNat
  let n := h.route.toNat / 2 ^ 36 % 16
  if !m.inGuild || decide (n ≤ i) then m
  else
    let d := hopDir h i
    let t := m.torus m.joinedList
    let here := t.coord m.member (d / 2)
    let wraps := ((t.next m.member d).map fun k => if d % 2 = 0 then decide (t.coord k (d / 2) < here) else decide (here < t.coord k (d / 2))).getD false
    let against := decide (0 < i) && decide (d / 2 < hopDir h (i - 1) / 2)
    let vcc := if wraps || against then BitVec.ofNat 8 (setBit h.vcc.toNat 2) else h.vcc
    m.send (.transit d { h with hop := h.hop + 1, vcc := vcc } payload)

/-- An acknowledgement from a member releases the packets it covers (R393). -/
def Module.takeAck (m : Module) (src vc ack : Nat) : Module :=
  let f := m.flow src vc
  if f.unacked.any fun x => decide (x.1 ≤ ack) then m.setFlow { f with unacked := f.unacked.filter fun x => decide (ack < x.1) } else m

/-- PACKET_RECEIVE: a packet for another member goes on; one whose trailer fails is answered with E2E; one of a reserved kind
is discarded and counted; the next in sequence of its source and channel is accepted and acknowledged, a duplicate is
acknowledged again, and one out of order is not accepted (R391, R393). In QUARANTINE only VC0 carries traffic (R401). The
content of an accepted packet comes as the command of its kind; CONTROL messages without a row act here. -/
def execPacketReceive (port : LPort) (h : PacketHeader) (payload : List Byte) (crc : BitVec 32) (s : State) :
    Host.Outcome State Fault Refusal :=
  s.on fun m =>
    let src := h.src.toNat % 64
    let vc := h.vcc.toNat % 4
    let up := decide ((m.port port.val).state = 4 ∨ src = m.member)
    if !up || (m.pwr.mode == .quarantine && vc != 0) then m
    else if h.dst.toNat % 64 ≠ m.member then m.transit h payload
    else if crc32c (packetBytes h 0 ++ payload) ≠ crc then m.send (.e2e src vc h.pseq.toNat)
    else if !kindKnown h.kind.toNat then m.count (fabR (0x108 + 0x10 * port.val)) 48 16
    else if src = m.member then (if h.kind = 0x01 then m.control src payload else m)
    else
      let m := m.takeAck src vc h.ack.toNat
      let f := m.flow src vc
      let n := h.pseq.toNat
      if n ≤ f.recv then m.send (.ack src vc f.recv)
      else if n ≠ f.recv + 1 then m
      else
        let m := (m.setFlow { f with recv := n }).send (.ack src vc n)
        if h.kind = 0x01 then m.control src payload else m

/-- A packet kept until it is acknowledged is sent again on its current route (R393). -/
def Module.sendAgain (m : Module) (dst vc pseq : Nat) : Module :=
  let f := m.flow dst vc
  match f.unacked.find? fun x => x.1 == pseq with
  | some x =>
    (m.setFlow { f with unacked := updWhere (fun y => y.1 == pseq) (fun y : Nat × Nat × FabMsg => (y.1, m.ltime, y.2.2)) f.unacked }).send
      (.fab dst vc pseq ((assocGet dst m.fab.routes).getD 0) x.2.2)
  | none => m

/-- E2E_TIMEOUT: not acknowledged within E2ETO µs. -/
def execE2eTimeout (dst : MemberId) (vc : Fin 4) (pseq : BitVec 32) (s : State) : Host.Outcome State Fault Refusal :=
  s.on fun m =>
    match (m.flow dst.val vc.val).unacked.find? fun x => x.1 == pseq.toNat with
    | some x => (m.until_ (x.2.1 + m.fld (fabR 0x028) 32 8 * 1000)).sendAgain dst.val vc.val pseq.toNat
    | none => m

/-- E2E: the destination found the trailer bad. -/
def execE2e (dst : MemberId) (vc : Fin 4) (pseq : BitVec 32) (s : State) : Host.Outcome State Fault Refusal :=
  s.on fun m => if dst.val = m.member then m else m.sendAgain dst.val vc.val pseq.toNat

/-! ### Tokens (R51, R391) -/

/-- A token of R51. -/
def tokenOf (bs : List Byte) : Token :=
  { inst := BitVec.ofNat 32 (fieldAt bs 0 4), node := BitVec.ofNat 16 (fieldAt bs 4 2), gen := BitVec.ofNat 16 (fieldAt bs 6 2)
    pk := BitVec.ofNat 8 (fieldAt bs 8 1), status := BitVec.ofNat 8 (fieldAt bs 9 1), ptn := BitVec.ofNat 8 (fieldAt bs 10 1)
    member := BitVec.ofNat 8 (fieldAt bs 11 1), value := BitVec.ofNat 32 (fieldAt bs 12 4) }

/-- TOKEN_PACKET: its tokens are on their way to their halls here; each arrives as TOKEN_ARRIVE. -/
def execTokenPacket (src : MemberId) (ptn : PtnId) (payload : List Byte) (s : State) : Host.Outcome State Fault Refusal :=
  s.on fun m =>
    if src.val = m.member then m
    else
      let ts := (List.range (payload.length / 16)).map fun i => { tokenOf (slice payload (16 * i) 16) with ptn := BitVec.ofNat 8 ptn.val }
      { m with tokens := m.tokens ++ ts.map fun t => { tok := t, src := .member src.val } }

end Sys2Proof.Machine
end

