-- ==== Sys2Proof/Machine/Commands.lean ====
section
/-! DEFINITION. Commands and bulk data between members (R353, R364, R366, R368, R371, R391, R443), and commands that waited
(R355, R356, R365, R456). -/
namespace Sys2Proof.Machine

/-! ### Commands that waited -/

/-- The meaning of a command on the queue pair it came on. -/
def rerun (o : Origin) : Module → Capsule → List Byte → Module :=
  if o.capsule.opc = 0xF0 then Module.fallbackRun (((o.own).map (·.qp)).getD 0) else cmdRun o.capsule.opc.toNat

/-- ADMISSION_RETRY: commands that waited for a tally entry, their twin or staging are tried again in order (R365, R368,
R456), and requests whose reservations failed are admitted as far as they now succeed (R356). -/
def execAdmissionRetry (ptn : PtnId) (s : State) : Host.Outcome State Fault Refusal :=
  s.on fun m =>
    let p := ptn.val
    let bs := (m.ptn p).blocked
    let m := m.setPtn p fun x => { x with blocked := [] }
    (bs.foldl (fun (m : Module) b => m.enter b.origin b.arrival b.elapsed b.data (rerun b.origin)) m).admitWaiting p

/-- INPUT_FETCH_DONE: the inputs of a RUN, or of a command that runs again on a tally twin (R369), are all present. -/
def execInputFetchDone (ptn : PtnId) (reqid : Word) (inputs : List (List Byte)) (s : State) : Host.Outcome State Fault Refusal :=
  s.on fun m =>
    let p := ptn.val
    if (m.ptn p).refetch.contains reqid then
      let m := m.setPtn p fun x => { x with refetch := x.refetch.filter (· != reqid) }
      match (m.tallyOf p reqid).bind (·.capsule) with
      | some c => cmdRun c.opc.toNat m c inputs.flatten
      | none => m
    else m.inputsFetched p reqid inputs

/-! ### COMMAND packets (R353, R371) -/

/-- The answer that a reply carries (log entry 7, DESIGN CHOICE). -/
def answerOfReply (c : Capsule) (src : Nat) (data : List Byte) (status value : Nat) : Answer :=
  { status := status, flags := fieldAt data 0 2, reqid := c.reqid, opc := c.opc.toNat, ptn := c.ptn.toNat % 8, member := src
    value := value, elapsed := fieldAt data 2 4, results := results (fieldAt data 6 1) (data.drop 7) }
where
  pieces : Nat → List Byte → List (Nat × List Byte) × List Byte
    | 0, bs => ([], bs)
    | n + 1, bs =>
      let len := fieldAt bs 4 4
      let r := pieces n (bs.drop (8 + len))
      ((fieldAt bs 0 4, slice bs 8 len) :: r.1, r.2)
  results : Nat → List Byte → List (List (Nat × List Byte))
    | 0, _ => []
    | n + 1, bs =>
      let r := pieces (fieldAt bs 0 2) (bs.drop 2)
      r.1 :: results n r.2

/-- A slot marked FILLING for a forwarded command that filled nothing is free again. -/
def Module.slotBack (m : Module) (c : Capsule) (d : Delivery) : Module :=
  let more := m.ctr.forwarded.any fun f => f.origin.capsule.reqid == c.reqid && f.origin.capsule.ptn == c.ptn
  let back (s : Slot) : Slot := if s.state = 1 ∧ s.reqid = c.reqid then { s with state := 3 } else s
  if isMailbox c && !more then m.setQp d.qp fun q => { q with slots := q.slots.modify d.slot back } else m

/-- A completion reaches the member that received its capsule, and is delivered on the capsule's queue pair (R353): a refusal
without effect, a duplicate's as R364 has it, any other in its own mode. A command that another member passed on is answered
there. -/
def Module.takeReply (m : Module) (f : Forwarded) (a : Answer) (data : List Byte) : Module :=
  let c := f.origin.capsule
  let m := m.setCtr fun y => { y with forwarded := y.forwarded.erase f }
  match f.origin.own with
  | none => m.sendTo f.origin.recv 0 (.reply c data a.status a.value)
  | some d =>
    if a.flags.testBit 15 then (m.slotBack c d).enqueue d.qp ({ a with flags := 0 }.completion d (a.flags % 0x8000) 0 0)
    else if a.flags.testBit 2 then
      let m := m.slotBack c d
      if a.flags.testBit 4 then
        let len := (((m.qp d.qp).bind fun q => q.slots[a.value]?).map (·.length)).getD 0
        m.enqueue d.qp (a.completion d a.flags len a.value)
      else m.deliverPush a d 0
    else m.deliver a d

/-- A reply: a part of a command spread to several members; an outcome told to them; or a completion (R94, R162, R353, R371). -/
def Module.commandReply (m : Module) (src : Nat) (c : Capsule) (data : List Byte) (status value : Nat) : Module :=
  let p := c.ptn.toNat % 8
  let o := c.opc.toNat
  if data.isEmpty then
    if (m.ptn p).waitCmds.any fun x => x.capsule.reqid == c.reqid && x.waits.contains src then m.partDone src c status
    else if o = 0x20 then m.decideDraft p (status == 0)
    else if o = 0x40 then
      let m := m.decideBegin c.reqid (status == 0)
      if status = 0 then m.noteEdition c else m
    else if (o = 0x42 ∨ o = 0x43) ∧ status = 0 then m.noteEdition c
    else if o = 0x10 ∧ status ≠ 0 then m.unload p c.handle.toNat
    else if o = 0x50 ∧ status ≠ 0 then m.undefine p (c.arg0.toNat % 256)
    else if o = 0x51 then m.undefineDone p (c.arg0.toNat % 256) (status == 0)
    else m
  else
    match m.ctr.forwarded.find? fun f => f.origin.capsule == c with
    | none => m
    | some f =>
      if o = 0x02 ∨ o = 0x03 then
        let f' : Forwarded := { f with waits := f.waits.filter (· != src), value := max f.value value }
        if f'.waits.isEmpty then
          (m.setCtr fun y => { y with forwarded := y.forwarded.erase f }).answerDirect f.origin stOk f'.value
        else m.setCtr fun y => { y with forwarded := updWhere (fun z => z == f) (fun _ => f') y.forwarded }
      else m.takeReply f (answerOfReply c src data status value) data

/-- The tally twin executes a record that its admitting member has moved to it (R440): it is answered through that member. -/
def Module.takeMoved (m : Module) (src elapsed : Nat) (c : Capsule) (data : List Byte) (e : TallyEntry) : Module :=
  let p := c.ptn.toNat % 8
  let e : TallyEntry := { e with heldFor := none, own := none, recv := src, elapsed := elapsed, arrival := m.ltime }
  let m := (m.setTally p c.reqid fun _ => e).count (ptnR p 0xE0) 32 32
  let m := match m.tallyTwin m.member with
    | some t => m.sendTo t 3 (.bulk 2 p (tallyBytes e))
    | none => m
  m.runStart c data

/-- A RUN that comes here although another member would take it in is executed once more under R440, and not again. -/
def Module.markAgain (m : Module) (c : Capsule) : Module :=
  m.setPtn (c.ptn.toNat % 8) fun x => { x with requests := updWhere (fun r => r.reqid == c.reqid) (fun r => { r with reexec := true }) x.requests }

/-- A command that another member has sent: CANCEL and QUERY act on this member's own record; a request for an agreement is
the warden's; a part of GRAPH_UNLOAD is done; any other is admitted here. -/
def Module.commandHere (m : Module) (src elapsed : Nat) (c : Capsule) (data : List Byte) : Module :=
  let p := c.ptn.toNat % 8
  let o := c.opc.toNat
  let from_ : Origin := { own := none, recv := src, capsule := c }
  let home := m.admitter c (m.effectful c) == m.member
  if !m.inGuild then m
  else if o = 0x02 then (m.cancel p c.arg0).answerDirect from_ stOk 0
  else if o = 0x03 then m.answerDirect from_ stOk (m.query p c.arg0)
  else if o = 0x01 then
    match (m.tallyOf p c.reqid).filter fun e => e.heldFor == some src && !e.done with
    | some e => (m.takeMoved src elapsed c data e).markAgain c
    | none =>
      let m := m.enter from_ m.ltime elapsed data Module.runStart
      if home then m else m.markAgain c
  else match agreementOf c, m.isWarden && !home with
    | some (a, drain), true => m.takeRequest { agr := a, drainUs := drain, origin := src, capsule := some c }
    | _, _ =>
      if o = 0x11 ∧ !home then
        let r := m.unloadPart c
        r.1.sendTo src 0 (.reply c [] r.2 0)
      else m.enter from_ m.ltime elapsed data (cmdRun o)

/-- COMMAND_PACKET: a capsule for this member to take in or to share in, or an answer to one of its own (R353). -/
def execCommandPacket (src : MemberId) (reply : Bool) (elapsed : Nat) (c : Capsule) (data : List Byte) (status : Byte)
    (value : Word) (s : State) : Host.Outcome State Fault Refusal :=
  s.on fun m =>
    if src.val = m.member then m
    else if reply then m.commandReply src.val c data status.toNat value.toNat
    else m.commandHere src.val elapsed c data

/-! ### BULK packets (R366, R368, R391, R443) -/

/-- A group table from its 32 KiB. -/
def tableOfBytes (bs : List Byte) : WordMap :=
  (List.range 4096).filterMap fun i =>
    let v := fieldAt bs (8 * i) 8
    if v = 0 then none else some (i, BitVec.ofNat 64 v)

/-- A record for which this member is the twin replaces the one it holds; a record of its own stands. -/
def Module.putRecord (m : Module) (p : Nat) (e : TallyEntry) : Module :=
  match m.tallyOf p e.reqid with
  | some x => if x.heldFor.isSome then m.setTally p e.reqid fun _ => e else m
  | none => (m.evictTally p).setPtn p fun x => { x with tally := x.tally ++ [e] }

/-- The member's records have been copied back: it admits effectful commands again, and a rebuilt one posts REBUILD_DONE (R443
step 6). -/
def Module.endCopyBack (m : Module) : Module :=
  if !m.guild.copyBack then m
  else
    let g := m.guild
    let m := m.setGuild fun x => { x with twinCopy := false, copyBack := false, rebuildGot := [], copied := 0 }
    if g.rebuildGot.isEmpty && g.copied == 0 then m
    else m.degradeAll 0x020B none 0 (leBytes 4 g.rebuildGot.length ++ leBytes 1 ((g.rebuildGot.map (·.2)).foldl max 0) ++
      leBytes 4 ((m.ltime - g.rebuildAt) / 1000000))

/-- BULK: 0 an image and 1 an edition or graph command for this member's part, 2 a record for its tally twin, 3 a staged group
table for the warden, 4 the end of a twin copy and 5 its receipt, 6 a record copied back and 7 the end of that (log entry 33, DESIGN CHOICE). -/
def execBulk (src : MemberId) (kind : Nat) (ptn : PtnId) (payload : List Byte) (s : State) : Host.Outcome State Fault Refusal :=
  s.on fun m =>
    let k := src.val
    let p := ptn.val
    let x := capsuleOf payload
    let c := x.1
    if !m.inGuild then m
    else match kind with
    | 0 =>
      if c.opc = 0x20 then
        let r := m.draftPart c x.2
        r.1.sendTo k 0 (.report c.reqid.toNat (if r.2 = 0 then .staged else .refused))
      else if c.opc = 0x10 then
        let r := m.loadPart c x.2
        r.1.sendTo k 0 (.reply c [] r.2 0)
      else m
    | 1 =>
      if c.opc = 0x42 then m.sealFor k c
      else
      let r := if within c.opc.toNat 0x40 0x43 then m.editionPart c x.2 else if within c.opc.toNat 0x50 0x51 then m.graphPart c else (m, stAborted)
      r.1.sendTo k 0 (.reply c [] r.2 0)
    | 2 => m.putRecord p (tallyOfBytes m.ltime k payload)
    | 3 =>
      if !m.isWarden then m
      else
        let t := tableOfBytes payload
        if groupTableOk m.guildSize t then m.takeRequest { agr := .group t, drainUs := 100000, origin := k }
        else m.post 0x0404 none m.rwk.epoch (leBytes 2 0 ++ leBytes 8 0 ++ leBytes 8 m.rwk.epoch ++ leBytes 1 3 ++ leBytes 2 0)
    | 4 => m.sendTo k 3 (.bulk 5 0 (payload.take 1))
    | 5 =>
      let m := if m.pwr.drainCopy ∧ m.guild.lastTwin = some k then (m.setPwr fun x => { x with drainCopy := false }).checkDrain else m
      if m.guild.twinCopy && m.guild.lastTwin == some k && !m.guild.copyBack then
        (m.setGuild fun g => { g with twinCopy := false }).post 0x0A04 none 0
          (leBytes 8 0 ++ leBytes 1 (fieldAt payload 0 1) ++ leBytes 1 k ++ leBytes 4 m.guild.copied)
      else m
    | 6 =>
      if (m.tallyOf p (BitVec.ofNat 64 (fieldAt payload 0 8))).isSome then m
      else
        let e : TallyEntry := { tallyOfBytes m.ltime k payload with heldFor := none }
        (m.putRecord p e).setGuild fun g => { g with copied := g.copied + 1 }
    | 7 => m.endCopyBack
    | _ => m

end Sys2Proof.Machine
end

