-- ==== Sys2Proof/Machine/Counter.lean ====
section
/-! DEFINITION. The counter: its Ethernet ports, queue pairs and their windows for mailboxes and doorbells, and the delivery of
notices (R448–R460, R462–R467). Access to regions and registers through a queue pair is in `Machine/Windows.lean`. -/
namespace Sys2Proof.Machine

/-! ### Ports (R448, R450, R460, R499) -/

/-- The Ethernet ports are not dark: their configuration is written, and the module's state lets them train or has them up
(R448, R499). -/
def Module.portsLive (m : Module) : Bool :=
  m.fld (ctrR 0x000) 34 1 == 1 &&
    (m.pwr.mode == .training || m.pwr.mode == .quarantine || m.pwr.mode == .joined || m.pwr.mode == .draining)

/-- Every queue pair of a port sends what it can. -/
def Module.pumpPort (m : Module) (h : Nat) : Module :=
  ((m.ctr.qps.filter fun q => q.port == h).map (·.num)).foldl (fun (m : Module) q => m.pump q) m

/-- LINK_STATE: a port's link comes up, with or without PFC, or goes down (R460, R467). A dark port has no link. -/
def execLinkState (port : EPort) (up pfc : Bool) (s : State) : Host.Outcome State Fault Refusal :=
  s.on fun m =>
    let h := port.val
    if (m.ctr.link.getD h false) == up || (up && !m.portsLive) then m
    else
      let m := m.setCtr fun c => { c with link := c.link.set h up, pfc := c.pfc.set h (up && pfc) }
      let but := if up then [] else (m.ctr.qps.filter fun q => q.port == h).map (·.num)
      (m.postBut but (if up then 1 else 2) 0x010A none 0 (leBytes 1 h ++ leBytes 1 up.toNat)).pumpPort h

/-- PAUSE_FRAME: a pause frame is counted; on RPRIO, with PFC on, it stops the port for its time, and a time of zero ends the
pause (R450). -/
def execPauseFrame (port : EPort) (prio : BitVec 3) (ns : Nat) (s : State) : Host.Outcome State Fault Refusal :=
  s.on fun m =>
    let h := port.val
    let m := m.count (ctrR (0x050 + 8 * h)) 0 32
    if m.fld (ctrR 0x020) 18 1 = 1 ∧ prio.toNat = m.fld (ctrR 0x020) 0 3 then
      (m.setCtr fun c => { c with paused := c.paused.set h (if ns = 0 then none else some (m.ltime + ns)) }).pumpPort h
    else m

/-- PFC_PAUSE_EXPIRE: the pause of a port ends (R450). -/
def execPfcPauseExpire (port : EPort) (s : State) : Host.Outcome State Fault Refusal :=
  s.on fun m =>
    match m.ctr.paused.getD port.val none with
    | none => m
    | some t => ((m.until_ t).setCtr fun c => { c with paused := c.paused.set port.val none }).pumpPort port.val

/-- ARP_REQUEST: each port answers for the member's IPv4 address, with its own MAC address (R448). -/
def execArpRequest (port : EPort) (ip : BitVec 32) (s : State) : Host.Outcome State Fault Refusal :=
  s.on fun m =>
    if m.ctr.link.getD port.val false && m.fld (ctrR 0x000) 32 1 == 1 && m.fld (ctrR 0x000) 0 32 == ip.toNat then
      m.send (.arp port.val (Config.mac.toNat + port.val))
    else m

/-- NEIGHBOUR_SOLICITATION: each port answers for the member's IPv6 address, whose bytes 0–7 are CTR_IPV6H and bytes 8–15
CTR_IPV6L; `ip` is the number that the sixteen bytes make (R448, R3). -/
def execNeighbourSolicitation (port : EPort) (ip : BitVec 128) (s : State) : Host.Outcome State Fault Refusal :=
  s.on fun m =>
    if m.ctr.link.getD port.val false && m.fld (ctrR 0x000) 33 1 == 1 &&
        (m.reg (ctrR 0x008)).toNat + (m.reg (ctrR 0x010)).toNat * 2 ^ 64 == ip.toNat then
      m.send (.neighbour port.val (Config.mac.toNat + port.val))
    else m

/-! ### Errors of a queue pair (R449, R453, R460) -/

/-- A queue pair that is open and not in the error state. -/
def Module.liveQp (m : Module) (q : Nat) : Option QueuePair := (m.qp q).filter fun x => !x.err

/-- A queue pair enters the error state: what waits on it is not delivered, and QP_ERROR goes to the other queue pairs
(R460). -/
def Module.qpError (m : Module) (q cause : Nat) : Module :=
  match m.liveQp q with
  | none => m
  | some x =>
    let m := (m.setQp q fun y => { y with err := true, outq := [], behind := [], lostN := 0, rnr := false }).count (ctrR 0x088) 32 32
    (m.levelCPeerLost q).postBut [q] 2 0x0106 none 0 (leBytes 4 q ++ leBytes 1 x.port ++ leBytes 1 cause)

/-- The codes of the NAKs that the module sends (R449, R453, R460). -/
abbrev nakInvalid : Nat := 1
abbrev nakAccess : Nat := 2
abbrev nakOperational : Nat := 3

/-- A request of the host is answered with a NAK and performs nothing. -/
def Module.nak (m : Module) (q code : Nat) : Module := (m.send (.nak q code)).count (ctrR 0x088) 0 32

/-- UNSUPPORTED_VERB: NAK Invalid Request, and the error state (R449). -/
def execUnsupportedVerb (qp : Nat) (s : State) : Host.Outcome State Fault Refusal :=
  s.on fun m => if (m.liveQp qp).isSome then (m.nak qp nakInvalid).qpError qp 3 else m

/-- ACK_TIMEOUT: the retries of a queue pair are exhausted (R460). -/
def execAckTimeout (qp : Nat) (s : State) : Host.Outcome State Fault Refusal := s.on fun m => m.qpError qp 1

/-- A RUN whose inputs could not be read executes nothing and completes ABORTED (R460). -/
def Module.fetchFailed (m : Module) (qp : Nat) (reqid : Word) : Option Module :=
  (List.range 8).findSome? fun p =>
    match (m.ptn p).requests.find? fun r => r.reqid == reqid && r.state == .fetching && r.qp == qp with
    | some r =>
      let m := m.setPtn p fun x => { x with requests := x.requests.filter fun y => y.reqid != reqid }
      if r.dest = m.member then some ((m.dropInputs r).recordDone p reqid stAborted 0).checkDrain
      else
        match m.ctr.forwarded.find? fun f => f.origin.capsule == r.capsule with
        | some f =>
          let m := m.setCtr fun c => { c with forwarded := c.forwarded.erase f }
          some (match f.origin.own with
            | some d => (m.slotBack r.capsule d).refuseTo f.origin
            | none => m)
        | none => some m
    | none =>
      if (m.ptn p).refetch.contains reqid then
        let m := m.setPtn p fun x => { x with refetch := x.refetch.filter (· != reqid) }
        some (m.recordDone p reqid stAborted 0)
      else none

/-- NAK_RECEIVE: the host refuses an operation of the module. A failed RDMA READ of an input (`op` 0) ends its request ABORTED
with INPUT_FETCH; a failed RDMA WRITE of a push result (1) leaves its completion recorded, with RESULT_WRITE; a failed SEND or
RDMA WRITE with immediate of an entry (2) puts the queue pair in the error state (R373, R460). -/
def execNakReceive (qp op : Nat) (reqid : Word) (entry : Byte) (s : State) : Host.Outcome State Fault Refusal :=
  s.on fun m =>
    if (m.liveQp qp).isNone then m
    else match op with
    | 0 =>
      match m.fetchFailed qp reqid with
      | some m => m.postBut [qp] 2 0x0107 none reqid.toNat (leBytes 8 reqid.toNat ++ leBytes 1 entry.toNat)
      | none => m
    | 1 =>
      let kept := (m.ptns.flatMap (·.tally)).any fun e => e.reqid == reqid && e.retained
      m.postBut [qp] 2 0x0108 none reqid.toNat (leBytes 8 reqid.toNat ++ leBytes 1 entry.toNat ++ leBytes 1 kept.toNat)
    | 2 => m.qpError qp 2
    | _ => m

/-- RNR_RETRY: the entry last sent, which the host had no buffer for, is sent again; while it is not taken, no later one is
sent (R457). -/
def execRnrRetry (qp : Nat) (taken : Bool) (s : State) : Host.Outcome State Fault Refusal :=
  s.on fun m =>
    match m.liveQp qp with
    | none => m
    | some x =>
      match x.lastSent with
      | none => m
      | some e =>
        if x.ringMode then m
        else ((m.send (.entry qp none e)).setQp qp fun y => { y with rnr := !taken }).pump qp

/-! ### Congestion (R450) -/

/-- ECN_MARKED_RECEIVE: at most one CNP per queue pair in each CNPGAP µs (R450). -/
def execEcnMarkedReceive (qp : Nat) (s : State) : Host.Outcome State Fault Refusal :=
  s.on fun m =>
    match m.liveQp qp with
    | none => m
    | some x =>
      let due : Bool := match x.lastCnp with
        | none => true
        | some t => decide (t + m.fld (ctrR 0x028) 0 16 * 1000 ≤ m.ltime)
      if m.fld (ctrR 0x020) 19 1 = 1 ∧ due = true then
        (m.send (.cnp qp)).setQp qp fun y => { y with lastCnp := some m.ltime }
      else m

/-- CNP_RECEIVE: the sending rate is halved, with a floor of 1 Gb/s (R450). -/
def execCnpReceive (qp : Nat) (s : State) : Host.Outcome State Fault Refusal :=
  s.on fun m =>
    match m.liveQp qp with
    | none => m
    | some x =>
      let m := m.count (ctrR (0x050 + 8 * x.port)) 32 32
      if m.fld (ctrR 0x020) 19 1 = 1 then
        m.setQp qp fun y => { y with rate := max 1000 (y.rate / 2), rateAt := m.ltime }
      else m

/-- RATE_INCREASE: RAITIME µs have passed without a CNP, and the rate rises by RAI × 100 Mb/s, up to the port rate (R450). -/
def execRateIncrease (qp : Nat) (s : State) : Host.Outcome State Fault Refusal :=
  s.on fun m =>
    match m.liveQp qp with
    | none => m
    | some x =>
      if m.fld (ctrR 0x020) 19 1 = 1 ∧ x.rate < 400000 then
        let m := m.until_ (x.rateAt + m.fld (ctrR 0x028) 16 16 * 1000)
        m.setQp qp fun y => { y with rate := min 400000 (y.rate + m.fld (ctrR 0x028) 32 16 * 100), rateAt := m.ltime }
      else m

/-! ### Notices (R464, R465) -/

/-- An entry is a notice. -/
def isNotice : QEvent → Bool
  | .notice _ _ => true
  | .completion _ => false

/-- Discard the oldest undelivered notice of a queue pair, counted (R465). -/
def Module.dropNotice (m : Module) (q : Nat) : Module :=
  match m.qp q with
  | none => m
  | some x =>
    let lost (f : QueuePair → QueuePair) : Module := (m.setQp q fun y => { f y with lostN := y.lostN + 1 }).count (ctrR 0x080) 32 32
    match x.outq.findIdx? isNotice with
    | some i => lost fun y => { y with outq := y.outq.eraseIdx i }
    | none => if x.behind.isEmpty then m else lost fun y => { y with behind := y.behind.drop 1 }

/-- A notice is about a request whose completion entry is still to go to the same queue pair (R459). -/
def Module.owes (m : Module) (q : Nat) (n : Notice) : Bool :=
  let mine (o : Option Delivery) : Bool := (o.map (·.qp)) == some q
  (n.code == 0x020A || n.code == 0x0301) &&
    ((((n.ptn.map fun p => (m.ptn p).tally).getD []).any fun e =>
        !e.done && e.reqid.toNat == n.obj && (mine e.own || e.attached.any fun o => mine o.own)) ||
      m.ctr.forwarded.any fun f =>
        f.origin.capsule.reqid.toNat == n.obj && n.ptn == some (f.origin.capsule.ptn.toNat % 8) && mine f.origin.own)

/-- Queue a notice on a queue pair, which holds at most 64 (R465). One about a request follows that request's completion entry
(R459). -/
def Module.queueNotice (m : Module) (q : Nat) (n : Notice) : Module :=
  let held := ((m.qp q).map fun x => x.outq.countP isNotice + x.behind.length).getD 0
  let m := if 64 ≤ held then m.dropNotice q else m
  if m.owes q n then m.setQp q fun x => { x with behind := x.behind ++ [n] }
  else (m.setQp q fun x => { x with outq := x.outq ++ [.notice n m.ltime] }).pump q

/-- The queue pairs of this member that take a notice (R464 step 1), but those it is not for (R460). -/
def Module.subscribers (m : Module) (n : Notice) (but : List Nat) : List Nat :=
  (m.ctr.qps.filter fun q => q.kind == 0 && !q.err && q.nmask.testBit (n.code / 256) && (n.ptn.isNone || n.ptn == some q.ptn) &&
    !but.contains q.num).map (·.num)

/-- Place a notice in the notice ring of 4,096 (R465). -/
def Module.ringNotice (m : Module) (n : Notice) : Module :=
  let full := decide (4096 ≤ m.ctr.ring.length)
  let m := if full then m.count (ctrR 0x098) 32 32 else m
  m.setCtr fun c =>
    { c with ring := if full then c.ring.set c.ringHead n else c.ring ++ [n], ringHead := (c.ringHead + 1) % 4096 }

/-- Deliver a notice on this member's own queue pairs; and whether any took it. -/
def Module.deliverOwn (m : Module) (n : Notice) (but : List Nat) : Module × Bool :=
  let qs := m.subscribers n but
  (qs.foldl (fun (m : Module) q => m.queueNotice q n) m, !qs.isEmpty)

/-- A notice that the warden sends about the guild (R464 step 3). -/
def Module.isGuildNotice (m : Module) (n : Notice) : Bool :=
  m.isWarden && n.member == m.member && (n.code / 256 == 0x09 || n.code / 256 == 0x08 || n.code / 256 == 0x04 || n.code == 0x0207)

/-- Deliver one notice (R464). Which other members have a subscribing queue pair is not known here: it is a free value
(log entry 34, DESIGN CHOICE). -/
def Module.deliverNotice (m : Module) (n : Notice) (but : List Nat) : Module :=
  let own := m.deliverOwn n but
  let m := own.1
  if !m.inGuild then (if own.2 then m else m.ringNotice n)
  else
    let others := m.joinedList.filter (· != m.member)
    if m.isGuildNotice n then
      let d := m.draw
      let dsts := (others.zipIdx.filter fun (x : Nat × Nat) => d.1 x.2 % 2 == 1).map (·.1)
      let m := d.2.sendAll dsts 0 (.notice n)
      if own.2 || !dsts.isEmpty then m else m.ringNotice n
    else if own.2 then m
    else
      let d := m.pick (others.length + 1)
      match others[d.1]? with
      | some k => d.2.sendTo k 0 (.notice n)
      | none => d.2.ringNotice n

/-- NOTICE_DELIVER: the oldest posted notice is delivered (R464). -/
def execNoticeDeliver (s : State) : Host.Outcome State Fault Refusal :=
  s.on fun m =>
    match m.ctr.posted with
    | [] => m
    | (n, but) :: rest => (m.setCtr fun c => { c with posted := rest }).deliverNotice n but

/-- Every posted notice goes to this member's own queue pairs at once: the module is about to close its ports (R499). -/
def Module.flushPosted (m : Module) : Module :=
  (m.ctr.posted).foldl (fun (m : Module) (x : Notice × List Nat) =>
    let r := m.deliverOwn x.1 x.2
    if r.2 then r.1 else r.1.ringNotice x.1) (m.setCtr fun c => { c with posted := [] })

/-- A notice from its 64 bytes (R462). -/
def noticeOfBytes (bs : List Byte) : Notice :=
  let p := fieldAt bs 5 1
  { sev := fieldAt bs 1 1, code := fieldAt bs 2 2, member := fieldAt bs 4 1, ptn := if p.testBit 7 then none else some (p % 8)
    nseq := BitVec.ofNat 16 (fieldAt bs 6 2), obj := fieldAt bs 8 8, ltime := fieldAt bs 0x10 8, detail := slice bs 0x18 40 }

/-- The 64 bytes of a notice (R462). -/
def noticeBytes (n : Notice) : List Byte :=
  leBytes 1 2 ++ leBytes 1 n.sev ++ leBytes 2 n.code ++ leBytes 1 n.member ++ leBytes 1 (ptnByte n.ptn) ++
    leBytes 2 n.nseq.toNat ++ leBytes 8 n.obj ++ leBytes 8 n.ltime ++ slice n.detail 0 40

/-- NOTICE_PACKET: a notice of another member is delivered here (R464 steps 2 and 3). -/
def execNoticePacket (src : MemberId) (payload : List Byte) (s : State) : Host.Outcome State Fault Refusal :=
  s.on fun m =>
    if !m.inGuild || src.val == m.member then m
    else
      let n := noticeOfBytes payload
      let r := m.deliverOwn n []
      if r.2 then r.1 else r.1.ringNotice n

/-- NOTICE_HOLD_EXPIRE: the oldest notice of a queue pair has waited NHOLD µs and is discarded (R465). -/
def execNoticeHoldExpire (qp : Nat) (s : State) : Host.Outcome State Fault Refusal :=
  s.on fun m =>
    match (((m.qp qp).map (·.outq)).bind fun l => l.find? isNotice : Option QEvent) with
    | some (.notice _ t) => (m.until_ (t + m.fld (ctrR 0x090) 0 16 * 1000)).dropNotice qp
    | _ => m

/-- CTR_NSEL.CLR empties the notice ring (R468). -/
def Module.clearRing (m : Module) : Module := m.setCtr fun c => { c with ring := [], ringHead := 0 }

/-- NRING_CLR. -/
def execNringClr (s : State) : Host.Outcome State Fault Refusal := s.on Module.clearRing

/-! ### Sessions (R479, R480) -/

/-- Why a message of a session is not authorised, as SESSION_FAIL reports it (R491). -/
inductive AuthFail where
  | unknown
  | counter
  | tag
  deriving DecidableEq, Repr

/-- Check a message of a session: the session lives, the counter is above the highest accepted, and the tag verifies (R480). -/
def Module.sessionFault (m : Module) (id : Word) (counter : Nat) (tag aad : List Byte) : Option AuthFail :=
  match m.asy.sessions.find? fun x => x.id == id with
  | none => some .unknown
  | some x =>
    if counter ≤ x.counter then some .counter
    else if Config.gcmTag x.key (leBytes 8 id.toNat ++ leBytes 4 counter) aad != tag then some .tag
    else none

/-- The message is accepted: its counter becomes the session's highest. -/
def Module.acceptCounter (m : Module) (id : Word) (counter : Nat) : Module :=
  m.setAsy fun a => { a with sessions := updWhere (fun x => x.id == id) (fun x => { x with counter := counter }) a.sessions }

/-- SESSION_FAIL (R491). The digest prefix of an unknown session and the code for a counter that is too low are not given: they
are free values (log entry 35, DESIGN CHOICE). -/
def Module.sessionFail (m : Module) (id : Word) (f : AuthFail) : Module :=
  let d := m.draw
  let pre := match m.asy.sessions.find? fun x => x.id == id with
    | some x => x.signer.take 8
    | none => leBytes 8 (d.1 0)
  let code := match f with
    | .unknown => 2
    | .counter => d.1 1 % 3 + 1
    | .tag => 3
  d.2.post 0x0604 none 0 (pre ++ leBytes 1 code)

/-- The role mask of a live session. -/
def Module.sessionRole (m : Module) (id : Word) : Nat := ((m.asy.sessions.find? fun x => x.id == id).map (·.role.toNat)).getD 0

/-! ### Opening a queue pair (R451–R455) -/

/-- The 64 bytes of a set-up record (R451). -/
def setupBytes (r : SetupRecord) : List Byte :=
  leBytes 4 r.magic.toNat ++ leBytes 1 r.kind.toNat ++ leBytes 1 r.ptn.toNat ++ leBytes 1 r.aclass.toNat ++ leBytes 1 r.cqmode.toNat ++
    leBytes 2 r.slots.toNat ++ leBytes 2 r.rsv0A.toNat ++ leBytes 4 r.slotcap.toNat ++ leBytes 2 r.nmask.toNat ++
    leBytes 2 r.gsel.toNat ++ leBytes 1 r.gkind.toNat ++ leBytes 3 r.rsv15.toNat ++ leBytes 8 r.ringaddr.toNat ++
    leBytes 4 r.ringkey.toNat ++ leBytes 4 r.ringlen.toNat ++ leBytes 8 r.session.toNat ++ leBytes 16 r.rsv30.toNat

/-- The set-up record keeps the fields, codes and ranges of R451. -/
def setupOk (r : SetupRecord) : Bool :=
  let n := r.slots.toNat
  let cap := r.slotcap.toNat
  let len := r.ringlen.toNat
  r.magic == 0x50515A44 && decide (r.kind.toNat ≤ 2 ∧ r.ptn.toNat < 8 ∧ r.aclass.toNat < 128 ∧ r.cqmode.toNat ≤ 1 ∧ n ≤ 4096) &&
  r.rsv0A == 0 && r.rsv15 == 0 && r.rsv30 == 0 && onlyBits r.nmask.toNat 0x7FE &&
  (r.kind != 2 || (r.ptn == 0 && r.aclass == 0)) && (r.kind == 0 || (r.slots == 0 && r.nmask == 0)) &&
  (if n = 0 then r.slotcap == 0 else decide (64 ≤ cap ∧ cap ≤ 1048576 ∧ cap % 64 = 0)) &&
  (if r.kind = 1 then decide (r.gkind.toNat ≤ 1 ∧ r.gsel.toNat < 256) else r.gsel == 0 && r.gkind == 0) &&
  (if r.cqmode = 1 then (List.range 11).any fun i => len == 64 * 2 ^ i else r.ringaddr == 0 && r.ringlen == 0)

/-- The open queue pairs that count against a partition, and those open of kind MGMT. -/
def Module.openOf (m : Module) (p : Nat) : Nat := m.ctr.qps.countP fun q => q.kind != 2 && q.ptn == p
def Module.openMgmt (m : Module) : Nat := m.ctr.qps.countP fun q => q.kind == 2

/-- Queue pairs that no draft reserves and that are not in use (R452): a partition's queue pairs use those that its draft
reserves first. -/
def Module.unreserved (m : Module) : Nat :=
  let ps := (List.range 8).map fun p => max (m.openOf p) (m.draft p).part.qpairs
  4096 - ps.sum - m.openMgmt

/-- The partition has a queue pair free (R452). -/
def Module.qpFree (m : Module) (p : Nat) : Bool :=
  if (m.ptn p).draft.isSome then decide (m.openOf p < (m.draft p).part.qpairs) else decide (0 < m.unreserved)

/-- Bytes of the mailbox areas allocated (R455). -/
def Module.mailboxBytes (m : Module) : Nat := (m.ctr.qps.map fun q => q.slots.length * (64 + q.slotcap)).sum

/-- The member's state takes a REQ of a kind (R452, R466). -/
def Module.takesReq (m : Module) (kind : Nat) : Bool := m.pwr.mode == .joined || (m.pwr.mode == .quarantine && kind != 1)

/-- A queue pair opens: its index is a free pick among those not in use, and the low half of each key is drawn (R453, R455).
The four keys are those of the MAILBOX, REGION, DOORBELL and MGMT windows, zero where not offered. -/
def Module.openQp (m : Module) (port : Nat) (r : SetupRecord) : Module :=
  let used := m.ctr.qps.map (·.num)
  let x := m.pick (4096 - used.length)
  let idx := (((List.range 4096).filter fun i => !used.contains i)[x.1]?).getD 0
  let d := x.2.draw
  let k := r.kind.toNat
  let key (w : Nat) (offered : Bool) : BitVec 32 :=
    if offered then BitVec.ofNat 32 (w * 2 ^ 28 + idx * 2 ^ 16 + d.1 w % 2 ^ 16) else 0
  let keys := [key 1 (k == 0 && r.slots != 0), key 2 (k != 2), key 3 (r.cqmode == 1), key 4 (k == 2)]
  let q : QueuePair :=
    { num := idx, port := port, kind := k, ptn := r.ptn.toNat, aclass := r.aclass.toNat, ringMode := r.cqmode == 1
      slotcap := r.slotcap.toNat, slots := List.replicate r.slots.toNat {}, nmask := r.nmask.toNat, gsel := r.gsel.toNat
      gkind := r.gkind.toNat, ringaddr := r.ringaddr.toNat, ringkey := r.ringkey, ringlen := r.ringlen.toNat, keys := keys
      rateAt := d.2.ltime }
  (d.2.setCtr fun c => { c with qps := c.qps ++ [q] }).send
    (.rep idx (if k = 2 then mgmtMaster else queueMaster q.ptn q.aclass) m.member keys)

/-- CM_REQ: the reasons of R452 in their order, or the queue pair opens. A REQ on a port without link does not arrive. -/
def execCmReq (port : EPort) (r : SetupRecord) (counter : BitVec 32) (tag : BitVec 128) (s : State) :
    Host.Outcome State Fault Refusal :=
  s.on fun m =>
    let h := port.val
    let mgmt := r.kind == 2
    let aad := setupBytes r ++ leBytes 4 counter.toNat
    let rej (m : Module) (reason : Nat) : Module := m.send (.rej h reason)
    if !(m.ctr.link.getD h false) then m
    else if !setupOk r then rej m 1
    else if !m.takesReq r.kind.toNat || (!mgmt && !m.qpFree r.ptn.toNat) then rej m 2
    else if 2 ^ 30 < m.mailboxBytes + r.slots.toNat * (64 + r.slotcap.toNat) then rej m 3
    else
      let fault := if r.session = 0 then none else m.sessionFault r.session counter.toNat (leBytes 16 tag.toNat) aad
      match fault with
      | some f => rej (m.sessionFail r.session f) 4
      | none =>
        let m := if r.session = 0 then m else m.acceptCounter r.session counter.toNat
        if mgmt && (r.session == 0 || !(m.sessionRole r.session).testBit 0) then rej m 4
        else if 4096 ≤ m.ctr.qps.length ∨ (mgmt ∧ (4 ≤ m.openMgmt ∨ m.unreserved = 0)) then rej m 5
        else m.openQp h r

/-- QP_CLOSE: the slots are released with the results in them, what waits is not delivered, and its requests run on (R455,
R460). -/
def execQpClose (qp : Nat) (s : State) : Host.Outcome State Fault Refusal :=
  s.on fun m =>
    match m.qp qp with
    | none => m
    | some q =>
      let m := (List.range q.slots.length).foldl (fun (m : Module) i => m.releaseSlot qp i) m
      let lo := mboxKey qp 0
      let m : Module := { m with mem := m.mem.zero lo (lo + q.slots.length * (64 + q.slotcap)) }
      (m.levelCPeerLost qp).setCtr fun c => { c with qps := c.qps.filter fun x => x.num != qp }

/-! ### MAILBOX and DOORBELL windows (R376, R377, R453, R457) -/

/-- A key names an offered window of a queue pair: 1 MAILBOX, 2 REGION, 3 DOORBELL, 4 MGMT (R453). -/
def QueuePair.window (q : QueuePair) (key : BitVec 32) : Option Nat :=
  if key = 0 then none else (q.keys.findIdx? fun k => k == key).map (· + 1)

/-- The 32 header bytes of a mailbox slot (R374); while it is FILLING every field but REQID and STATE is zero (R375). -/
def slotBytes (s : Slot) : List Byte :=
  leBytes 8 s.reqid.toNat ++ leBytes 1 s.state ++ leBytes 1 s.status ++ leBytes 2 s.flags ++ leBytes 4 s.length ++
    leBytes 4 s.cseq.toNat ++ leBytes 4 (if s.state = 1 then 0 else s.fills.toNat) ++ leBytes 4 s.crc.toNat ++ leBytes 4 0

/-- An RDMA WRITE to the mailbox area: 16 bytes at the header of a READY slot, with its REQID and STATE 3, release it; every
other one fails (R377). -/
def Module.mailboxWrite (m : Module) (q : QueuePair) (va : Nat) (data : List Byte) : Module :=
  let size := 64 + q.slotcap
  let i := va / size
  let ok : Bool := match q.slots[i]? with
    | some sl => sl.state == 2 && sl.reqid.toNat == fieldAt data 0 8
    | none => false
  if va % size = 0 ∧ data.length = 16 ∧ ok = true ∧ fieldAt data 8 1 = 3 then m.releaseSlot q.num i else m.nak q.num nakAccess

/-- SLOT_RELEASE (R377). -/
def execSlotRelease (qp : Nat) (key : BitVec 32) (va : Word) (data : List Byte) (s : State) : Host.Outcome State Fault Refusal :=
  s.on fun m =>
    match m.liveQp qp with
    | none => m
    | some q => if q.window key = some 1 then m.mailboxWrite q va.toNat data else m.nak qp nakAccess

/-- A write of the consumer index: one that lowers it, or raises it beyond the entries written, is ignored (R457). -/
def Module.ringDoorbell (m : Module) (q : QueuePair) (c : Nat) : Module :=
  let c : BitVec 32 := BitVec.ofNat 32 c
  if c - q.cons ≤ q.prod - q.cons then (m.setQp q.num fun y => { y with cons := c }).pump q.num else m

/-- DOORBELL_WRITE (R457). -/
def execDoorbellWrite (qp : Nat) (key : BitVec 32) (c : Word) (s : State) : Host.Outcome State Fault Refusal :=
  s.on fun m =>
    match m.liveQp qp with
    | none => m
    | some q => if q.window key = some 3 then m.ringDoorbell q c.toNat else m.nak qp nakAccess

end Sys2Proof.Machine
end

