-- ==== Sys2Proof/Machine/Depend.lean ====
section
/-! DEFINITION. Sparing of benches, the loss of a hall, withdrawal of a stack on command, draining, and the event log (R437–R442,
R447). -/
namespace Sys2Proof.Machine

/-! ### FAULTED (R439, R474, R483, R499, R511) -/

/-- Work in flight ends without completions (R483): instances, tokens, firings, collectives and requests are gone. -/
def Module.stopWork (m : Module) : Module :=
  let m := m.clearAccs fun _ => true
  let hall (h : Hall) : Hall :=
    { h with entries := [], contexts := [], held := [], admq := [], barriers := [], hubq := [], fills := [], merger := []
             quotas := [], arriving := [], copying := [] }
  let quern (q : Quern) : Quern := { q with inq := [], segs := [], win := [], batches := [] }
  { m with insts := [], tokens := [], gathers := [], scatters := [], samples := [], chains := [], hubs := [], groups := []
           halls := m.halls.map hall, querns := m.querns.map quern
           benches := m.benches.map fun b => { b with busy := none, next := none, heldFor := none }
           heldAcc := []
           rwk := { m.rwk with colls := [], fallbacks := [], reforms := [], aborts := [], holds := [], packets := [], sums := [] }
           ptns := m.ptns.map fun p => { p with requests := [], blocked := [], waitCmds := [] } }

/-- The module enters FAULTED: what it has posted goes out on its own Ethernet links first, which then go dark; it stops sending
frames, and its pairs return to THROUGH (R384, R499). -/
def Module.enterFaulted (m : Module) : Module :=
  let m := m.flushPosted.setMode .faulted
  let m := (m.setCtr fun c => { c with link := [false, false, false, false], pfc := [false, false, false, false]
                                       paused := [none, none, none, none] }).setFab fun f =>
    { f with ports := f.ports.map fun x => x.reset 0, flows := [], routes := [] }
  (m.stopWork).setGuild fun g => { g with joined := 0, quorum := false, agr := none, current := none, queue := [] }

/-! ### Bench sparing (R437–R439) -/

/-- The device-wide number that a physical bench of a hall carries, if any. -/
def Module.benchOf (m : Module) (h pb : Nat) : Option Nat :=
  ((List.range 64).map (h * 64 + ·)).find? fun b => (m.bench b).phys == pb

/-- The hall is lost: it needs a fifth spare (R439). With H0 go the assay block and the management path (R22). -/
def Module.hallLost (m : Module) (h pb : Nat) : Module :=
  let m := (m.degrade h pb 0x0204 none 0 0 (leBytes 1 h ++ leBytes 9 (m.hall h).oos.toNat)).enterFaulted
  if h = 0 then m.setAsy fun a => { a with down := true } else m

/-- A segment that runs on a bench which goes out of service is run again from its start, on another bench of the set (R244). -/
def Module.dropSegments (m : Module) (h b : Nat) : Module :=
  let back (s : HubSegment) : HubSegment := if s.bench == some b then { s with bench := none, partials := [] } else s
  let owners := ((m.hall h).hubq.filter fun s => s.bench == some b).map (·.owner)
  let m := m.setHall h fun x => { x with hubq := x.hubq.map back }
  m.setBench b fun x =>
    if x.busy.any owners.contains && ((x.busy.bind m.entry).map fun e => e.bench != some b).getD false then { x with busy := none } else x

/-- The lowest unused spare of a hall takes a bench's place, once it has its tile SRAM (R438 steps 1 and 2). -/
def Module.startCopy (m : Module) (h b pb : Nat) : Module :=
  match (m.hall h).spare with
  | [] => m.hallLost h pb
  | n :: rest => (m.dropSegments h b).setHall h fun x => { x with spare := rest, copying := x.copying ++ [(b, (m.bench b).phys, n)] }

/-- A physical bench goes out of service (R437, R438). -/
def Module.takeOut (m : Module) (h pb : Nat) : Module :=
  let x := m.hall h
  if 68 ≤ pb ∨ x.oos.toNat.testBit pb then m
  else
    let m := m.setHall h fun y => { y with oos := BitVec.ofNat 68 (setBit y.oos.toNat pb), spare := y.spare.filter (· != pb) }
    match x.copying.find? fun c => c.2.2 == pb with
    | some c => (m.setHall h fun y => { y with copying := y.copying.erase c }).startCopy h c.1 pb
    | none =>
      match m.benchOf h pb with
      | some b => m.startCopy h b pb
      | none => m

/-- A bench takes no orders while its module is not past training (R437). -/
def Module.benchesServe (m : Module) : Bool :=
  m.pwr.mode == .quarantine || m.pwr.mode == .joined || m.pwr.mode == .draining

/-- A 64-bit word of the tile SRAM of a bench has a double-bit error (R317); the second since boot takes the bench out of service
(R437). A word of the stream area is written anew before it is read. -/
def Module.tileError (m : Module) (h pb off : Nat) : Module :=
  match m.benchOf h pb with
  | none => m
  | some b =>
    let m := m.setBench b fun x => { x with dbe := x.dbe + 1 }
    let m : Module := if off < 0x4F8000 then { m with tileBad := m.tileBad ++ [tileBase b / 8 + off / 8] } else m
    if 2 ≤ (m.bench b).dbe then m.takeOut h pb else m

/-- BENCH_OUT_OF_SERVICE: a cause of R437, or a double-bit error in the word at an offset of the bench's tile SRAM, which is one when it is
the second. -/
def execBenchOutOfService (hall : HallId) (pbench : BenchFault) (s : State) : Host.Outcome State Fault Refusal :=
  s.on fun m =>
    if !m.benchesServe then m
    else match pbench.word with
      | none => m.takeOut hall.val pbench.pbench
      | some off => m.tileError hall.val pbench.pbench off

/-- BENCH_WATCHDOG: a firing that is neither halted nor held has made no progress for 10 ms (R437). -/
def execBenchWatchdog (bench : BenchId) (s : State) : Host.Outcome State Fault Refusal :=
  s.on fun m =>
    let b := bench.val
    match (m.bench b).busy.bind m.entry with
    | none => m
    | some e =>
      if e.haltAt.isSome || e.chainHold || m.holdsFor e.key then m else m.takeOut (b / 64) (m.bench b).phys

/-- A hub owner's work so far is given up (R438): its segments leave the hub queue and the benches that run them. -/
def Module.dropHub (m : Module) (k : FKey) (own : Option Nat) : Module :=
  if (m.hubs.all fun x => x.key != k) then m
  else
    { m with hubs := m.hubs.filter fun x => x.key != k
             halls := m.halls.map fun h => { h with hubq := h.hubq.filter fun s => s.owner != k }
             benches := m.benches.zipIdx.map fun (b, i) => if b.busy == some k && own != some i then { b with busy := none } else b }

/-- A firing starts again (R214, R260, R438, R444): its streams, its chain's sums, its hub segments and its fused hand-over begin
anew. -/
def Module.restart (m : Module) (k : FKey) : Module :=
  match m.entry k with
  | none => m
  | some e =>
    if e.ran || e.state != .executing then m
    else
      let ctx (c : Context) : Context := if c.key = k then { c with done := 0, fill := 0 } else c
      let ch (c : ChainSt) : ChainSt := if c.key = k then { c with got := c.got.map fun _ => 0 } else c
      let gr (g : GroupSt) : GroupSt := if g.prod = k ∨ g.cons = k then { g with credits := g.buffer, sentTiles := 0 } else g
      let m := m.dropHub k e.bench
      { m with halls := m.halls.map fun h => { h with contexts := h.contexts.map ctx }
               chains := m.chains.map ch, groups := m.groups.map gr }

/-- BENCH_COPY_DONE: the spare takes the number, and with it master ID, weave ports, chain places and affinity, which go by
number here; the firing on it starts again. Where the copy met an uncorrectable word, every live instance that ran a firing on
the bench is executed again (R438, R440); what the spare then holds there is not specified. -/
def execBenchCopyDone (hall : HallId) (clean : Bool) (s : State) : Host.Outcome State Fault Refusal :=
  s.on fun m =>
    let h := hall.val
    match (m.hall h).copying with
    | [] => m
    | (b, old, new) :: rest =>
      let m := m.setHall h fun x => { x with copying := rest }
      let lo := tileBase b
      let clean := clean && !m.tileBroken lo (lo + 0x600000)
      let m := (m.tileBad.filter fun w => decide (lo ≤ w * 8 ∧ w * 8 < lo + 0x600000)).foldl (fun (m : Module) w => m.unspecified (w * 8) 8) m
      let m := m.clearPoison lo 0x600000
      let m := (m.setBench b fun x => { x with phys := new, dbe := 0 }).count (halR h 0x318) 0 32
      let lost (i : Inst) : Inst := if !clean && i.benchesRan.contains b then { i with lostCause := 3 } else i
      let m : Module := { m with insts := m.insts.map lost }
      let m := m.degrade h old 0x0203 none 0 0
        (leBytes 1 b ++ leBytes 1 old ++ leBytes 1 new ++ leBytes 1 (m.hall h).spare.length ++ leBytes 1 clean.toNat)
      let on := ((m.hall h).entries.filter fun e => e.bench == some b || e.benches.contains b).map (·.key)
      on.foldl (fun (m : Module) k => m.restart k) m

/-- HAL_DCTL.OOS takes physical bench PBENCH out of service (R447). -/
def Module.dctlOos (m : Module) (h pb : Nat) : Module :=
  let m := m.setFld (halR h 0x300) 0 7 pb
  if m.benchesServe then m.takeOut h pb else m

def execHalDctlOos (hall : HallId) (pbench : BitVec 7) (s : State) : Host.Outcome State Fault Refusal :=
  s.on fun m => m.dctlOos hall.val pbench.toNat

/-! ### Withdrawal of a stack (R441) -/

/-- A stack is withdrawn at run time, and collectives that were halted at one of its pages go on to their end (R425, R441). -/
def Module.withdrawStack (m : Module) (s cause : Nat) : Module :=
  if (m.quern s).withdrawn then m
  else
    let m := m.withdraw s cause
    ((m.rwk.colls.filter fun c => c.ended.isNone).map (·.id)).foldl (fun (m : Module) id => m.passStart id) m

/-- STACK_WITHDRAW, with a cause coded as WDCAUSE (R441). -/
def execStackWithdraw (stack : StackId) (cause : Fin 8) (st : State) : Host.Outcome State Fault Refusal :=
  st.on fun m => if 1 ≤ cause.val ∧ cause.val ≤ 4 then m.withdrawStack stack.val cause.val else m

/-- HAL_DCTL.WD withdraws stack S(5h + STACK), cause 4 (R447). -/
def Module.dctlWd (m : Module) (h k : Nat) : Module :=
  let m := m.setFld (halR h 0x300) 8 3 k
  if k < 5 then m.withdrawStack (5 * h + k) 4 else m

def execHalDctlWd (hall : HallId) (stack : BitVec 3) (s : State) : Host.Outcome State Fault Refusal :=
  s.on fun m => m.dctlWd hall.val stack.toNat

/-! ### Draining (R442, R503) -/

/-- A drain begins: a JOINED member becomes DRAINING and copies every effectful record to its tally twin; one in QUARANTINE is in
no membership and drains at once. In any other state the request is ignored (R503). -/
def Module.drain (m : Module) : Module :=
  match m.pwr.mode with
  | .quarantine => (m.setMode .draining).finishDrain
  | .joined =>
    let m := (m.setMode .draining).setPwr fun x => { x with drainAt := some m.ltime }
    let m := match m.tallyTwin m.member with
      | none => m
      | some k =>
        let m := m.ptns.zipIdx.foldl (fun (m : Module) (x : Partition × Nat) =>
          x.1.effRecords.foldl (fun (m : Module) e => m.sendTo k 3 (.bulk 2 x.2 (tallyBytes e))) m) m
        ((m.setGuild fun g => { g with lastTwin := some k }).setPwr fun x => { x with drainCopy := true }).sendTo k 3 (.bulk 4 0 (leBytes 1 0xFF))
    m.checkDrain
  | _ => m

/-- DRAIN_FORCED: 1 s of draining has passed; what is left is cancelled and completes ABORTED (R442 step 3). -/
def execDrainForced (s : State) : Host.Outcome State Fault Refusal :=
  s.on fun m =>
    match m.pwr.drainAt with
    | none => m
    | some t =>
      let m := m.until_ (t + 1000000000)
      let n := m.insts.length
      let m := m.degradeAll 0x020C none 0 (leBytes 4 n)
      let reqs := m.ptns.zipIdx.flatMap fun (x : Partition × Nat) => (x.1.requests.filter fun r => r.state != .executing).map fun r => (x.2, r.reqid)
      let m := reqs.foldl (fun (m : Module) (r : Nat × Word) => m.cancel r.1 r.2) m
      let m := m.insts.foldl (fun (m : Module) i => m.cancelInst i) m
      let gone (k : Option FKey) : Option FKey := k.filter fun k => !m.insts.any fun i => i.num == k.inst
      let m := m.insts.foldl (fun (m : Module) i => if (m.inst i.num).isSome then m.completeInst i stAborted else m) m
      let m := m.clearAccs fun b => b.busy.isSome && (gone b.busy).isNone
      let m : Module := { m with benches := m.benches.map fun b => { b with busy := gone b.busy, next := gone b.next, heldFor := gone b.heldFor } }
      m.checkDrain

/-! ### The event log (R447) -/

/-- ELOG_CLR: the log is empty, HEAD and COUNT are 0. -/
def Module.clearLog (m : Module) (h : Nat) : Module := m.setHall h fun x => { x with elog := [], elogHead := 0 }

def execElogClr (hall : HallId) (s : State) : Host.Outcome State Fault Refusal := s.on fun m => m.clearLog hall.val

end Sys2Proof.Machine
end

