-- ==== Sys2Proof/Machine/Assay.lean ====
section
/-! DEFINITION. The assay block: the boot chain, its mailbox and operations, host sessions, attestation and zeroisation
(R469–R485, R492). -/
namespace Sys2Proof.Machine

/-! ### Zeroisation (R483–R485) -/

/-- The secrets go: generator state, sessions, link keys, stack-mapping keys and generator seeds; then every byte of DRAM, tile
SRAM, caches and combining buffers (R483). What is overwritten is coded anew, so no sector stays poisoned (R319). -/
def Module.wipe (m : Module) : Module :=
  let m := m.setAsy fun a => { a with drbg := 0, hashKey := 0, sessions := [] }
  let port (x : Port) : Port := { x with keyTx := [], keyRx := [], counter := 0, phase := false }
  let quern (q : Quern) : Quern := { q with hrc := [], win := [], comb := [], poisoned := [] }
  { m with mem := [], tileBad := [], fab := { m.fab with ports := m.fab.ports.map port }, querns := m.querns.map quern
           halls := m.halls.map fun h => { h with cache := [] }, benches := m.benches.map fun b => { b with seed := 0 } }

/-- Zeroisation of a KIND, 0 VOLATILE or 1 FULL, under a session or 0 (R483). -/
def Module.zeroiseAll (m : Module) (kind : Nat) (session : Word) : Module :=
  let m := (m.post 0x0606 none 0 (leBytes 1 kind ++ leBytes 8 session.toNat)).enterFaulted
  m.wipe.setAsy fun a => { a with zeroised := true, seedErased := a.seedErased || kind == 1 }

/-- TAMPER: noted, posted, and a VOLATILE zeroisation (R484). -/
def execTamper (sensor : Byte) (s : State) : Host.Outcome State Fault Refusal :=
  s.on fun m =>
    if !m.pwr.input then m
    else ((m.setAsy fun a => { a with tamper := true }).post 0x0605 none 0 (leBytes 1 sensor.toNat)).zeroiseAll 0 0

/-- ENTROPY_TEST_FAIL: a VOLATILE zeroisation (R485). -/
def execEntropyTestFail (s : State) : Host.Outcome State Fault Refusal :=
  s.on fun m => if m.pwr.input then m.zeroiseAll 0 0 else m

/-! ### The boot chain (R471–R475) -/

/-- A boot failure: the step and the cause are recorded, and the module enters FAULTED (R474). -/
def Module.bootFail (m : Module) (step fail : Nat) : Module :=
  (m.setAsy fun a => { a with bootstep := step, fail := fail }).enterFaulted

/-- The bytes of a boot package in the tile SRAM of hall H0, as the ROM holds it (R472, log entry 37, DESIGN CHOICE). -/
def packageBase : Nat := tileBase 0

/-- A directory entry: COMP, offset and length, or none where a reserved byte is set (R472). -/
def dirEntry (pkg : List Byte) (at_ : Nat) : Option (Nat × Nat × Nat) :=
  if fieldAt pkg (at_ + 1) 3 = 0 ∧ fieldAt pkg (at_ + 12) 4 = 0 then some (fieldAt pkg at_ 1, fieldAt pkg (at_ + 4) 4, fieldAt pkg (at_ + 8) 4)
  else none

/-- The images that a package names, by its directory; none where it breaks the layout, names a COMP twice or lacks one
(R472). -/
def directory (pkg : List Byte) : Option (List (Nat × Nat × Nat)) :=
  let keys := fieldAt pkg 4 1
  let len := fieldAt pkg 8 4
  let first := 64 + 2592 * keys
  let ok := fieldAt pkg 0 4 == 0x50425A44 && within keys 1 4 && fieldAt pkg 5 1 == 6 && fieldAt pkg 6 2 == 0 &&
    (slice pkg 12 52).all (· == 0) && decide (len ≤ 3145728 ∧ first + 96 ≤ len)
  let es := (List.range 6).filterMap fun i => dirEntry pkg (first + 16 * i)
  let comps := es.map (·.1)
  if ok && ((List.range 6).all fun i => comps.contains (i + 1)) && (es.all fun e => e.2.1 % 16 == 0 && decide (e.2.1 + e.2.2 ≤ len)) then some es
  else none

/-- The public keys of a package. -/
def packageKeys (pkg : List Byte) : List (List Byte) := (List.range (fieldAt pkg 4 1)).map fun i => slice pkg (64 + 2592 * i) 2592

/-- The FAIL code of an image, 0 where it verifies (R471): its header and signature block, its signer, its signature, its
security version. -/
def imageFault (comp : Nat) (img : List Byte) (keys : List (List Byte)) : Nat :=
  let len := fieldAt img 8 4
  let signer := slice img 0x10 8
  let ok := fieldAt img 0 4 == 0x57465A44 && fieldAt img 4 1 == comp && fieldAt img 5 1 == 0 && fieldAt img 0xC 4 == 0 &&
    (slice img 0x18 40).all (· == 0) && len % 16 == 0 && decide (64 ≤ len) && img.length == len + 4640 &&
    fieldAt img len 2 == 4627 && (slice img (len + 2) 6).all (· == 0) && (slice img (len + 8 + 4627) 5).all (· == 0)
  let named := ((List.range 4).map Config.signerSlot).filter fun s => s.1.take 8 == signer
  let live := named.filter fun s => !s.2
  if !ok || named.isEmpty then 2
  else if live.isEmpty then 5
  else match keys.find? fun k => live.any fun s => sha3 k == s.1 with
    | none => 2
    | some k =>
      if !Config.mldsaVerify k (slice img 0 len) (slice img (len + 8) 4627) then 2
      else if fieldAt img 6 2 < Config.fusedSvn.toNat then 3
      else 0

/-- Image `comp` of a package: its bytes. -/
def imageOf (pkg : List Byte) (es : List (Nat × Nat × Nat)) (comp : Nat) : List Byte :=
  match es.find? fun e => e.1 == comp with
  | some e => slice pkg e.2.1 e.2.2
  | none => []

/-- An image is measured: its hallmark register is extended with its digest (R473, R475). -/
def Module.measure (m : Module) (comp : Nat) (img : List Byte) : Module :=
  m.extendHallmark (comp - 1) (sha3 (slice img 0 (fieldAt img 8 4)))

/-- Step 3: the generator is seeded, and the stack-mapping key and the vector-chain seeds are drawn (R280, R303, R473). -/
def Module.drawSecrets (m : Module) : Module :=
  let d := m.draw
  let m := d.2.setAsy fun a => { a with drbg := d.1 0, hashKey := d.1 1 }
  { m with benches := m.benches.zipIdx.map fun (x : Bench × Nat) => { x.1 with seed := d.1 (x.2 + 2) } }

/-- Step 4: the images of COMP 2–6, each verified and measured. -/
def Module.measureRest (m : Module) (pkg : List Byte) (es : List (Nat × Nat × Nat)) : Module × Nat :=
  ([2, 3, 4, 5, 6] : List Nat).foldl (fun (acc : Module × Nat) comp =>
    if acc.2 ≠ 0 then acc
    else
      let img := imageOf pkg es comp
      let f := imageFault comp img (packageKeys pkg)
      if f = 0 then (acc.1.measure comp img, 0) else (acc.1, f)) (m, 0)

/-- The package is complete: steps 2 to 4 of R473, up to the key-set loads of step 5. In which of steps 2 and 4 a package that
breaks its layout fails is free (R472, log entry 38, DESIGN CHOICE). -/
def Module.bootPackage (m : Module) : Module :=
  let n := fieldAt (m.mem.readN packageBase 12) 8 4
  let pkg := m.mem.readN packageBase (min n 3145728)
  match (if m.asy.pkgLen < n then none else directory pkg) with
  | none =>
    let x := m.pick 2
    x.2.bootFail (if x.1 = 0 then 2 else 4) 2
  | some es =>
    let fw := imageOf pkg es 1
    let f := imageFault 1 fw (packageKeys pkg)
    if f ≠ 0 then m.bootFail 2 f
    else
      let m := ((m.measure 1 fw).setAsy fun a => { a with running := fieldAt fw 6 2, bootstep := 4 }).drawSecrets
      let r := m.measureRest pkg es
      if r.2 ≠ 0 then r.1.bootFail 4 r.2 else r.1.setAsy fun a => { a with bootstep := 5 }

/-- BOOT begins: the self-tests, then the wait for the package; without an identity seed the module halts at step 2 (R473,
R483). -/
def Module.bootStart (m : Module) (selfTestOk : Bool) : Module :=
  let m := m.enterMode .boot
  if !selfTestOk then m.bootFail 1 1
  else if m.asy.seedErased then m.bootFail 2 4
  else m.setAsy fun a => { a with bootstep := 2 }

/-- BOOT ends at step 5: the hallmarks are locked, and the module enters TRAINING (R473 step 6). -/
def Module.bootEnd (m : Module) : Module :=
  if m.pwr.mode = .boot ∧ m.asy.bootstep = 5 then (m.setAsy fun a => { a with bootstep := 6, locked := true }).setMode .training
  else m

/-- PWR_CMD_RELEASE (R500 step 5). -/
def execPwrCmdRelease (s : State) : Host.Outcome State Fault Refusal := s.on fun m => m.bootEnd

/-! ### The mailbox (R477, R478) -/

/-- The 8 KiB of the mailbox buffer. -/
def Module.mailbox (m : Module) : List Byte := (List.range 1024).flatMap fun i => leBytes 8 (m.reg (asyR (0x1000 + 8 * i))).toNat

/-- Write bytes at the start of the mailbox, in whole words; the rest of the buffer stands (log entry 39, DESIGN CHOICE). -/
def Module.putMailbox (m : Module) (bs : List Byte) : Module :=
  let old := m.mailbox
  let all := slice (bs ++ old.drop bs.length) 0 8192
  (List.range (ceilDiv bs.length 8)).foldl (fun (m : Module) i => m.setReg (asyR (0x1000 + 8 * i)) (BitVec.ofNat 64 (fieldAt all (8 * i) 8))) m

/-- Results of R478. -/
abbrev mbOk : Nat := 0
abbrev mbFormat : Nat := 1
abbrev mbState : Nat := 2
abbrev mbAuth : Nat := 3
abbrev mbDuplicate : Nat := 4
abbrev mbFull : Nat := 5

/-- A request in the mailbox: OP, FINAL, SESSION, header and operands. -/
structure MbReq where
  op       : Nat
  flags    : Nat
  session  : Word
  header   : List Byte
  operands : List Byte
  deriving DecidableEq, Repr

/-- The request in the mailbox; none where its length leaves the buffer or a reserved bit is set (R477). -/
def Module.mbRequest (m : Module) : Option MbReq :=
  let b := m.mailbox
  let len := fieldAt b 4 4
  if 16 + len ≤ 8192 ∧ fieldAt b 1 1 ≤ 1 ∧ fieldAt b 2 2 = 0 then
    some { op := fieldAt b 0 1, flags := fieldAt b 1 1, session := BitVec.ofNat 64 (fieldAt b 8 8), header := b.take 16, operands := slice b 16 len }
  else none

/-- What an operation leaves: the module, its result, and the answer's bytes. -/
abbrev MbDone := Module × Nat × List Byte

/-- BOOT is over. -/
def Module.booted (m : Module) : Bool := m.asy.locked

/-- CERTS: the certificate chain (R470). -/
def Module.opCerts (m : Module) (r : MbReq) : MbDone :=
  if r.operands.isEmpty then (m, mbOk, Config.certChain.take 8176) else (m, mbFormat, [])

/-- QUOTE: the quote of R481 over the nonce and the registers asked for. -/
def Module.opQuote (m : Module) (r : MbReq) : MbDone :=
  if !m.booted || m.asy.seedErased then (m, mbState, [])
  else if r.operands.length ≠ 34 then (m, mbFormat, [])
  else
    let q := m.quoteFor (r.operands.take 32) (fieldAt r.operands 32 2)
    (q.2, mbOk, q.1)

/-- SESSION_OPEN (R479): the signature of a role key over the encapsulation key and the serial number; then an identifier, an
encapsulation, and the session key. -/
def Module.opSessionOpen (m : Module) (r : MbReq) : MbDone :=
  let ek := slice r.operands 0 1568
  let pre := slice r.operands 1568 8
  let sig := slice r.operands 1576 4627
  if !m.booted || m.asy.seedErased then (m, mbState, [])
  else if r.operands.length ≠ 6203 then (m, mbFormat, [])
  else match m.asy.roles.find? fun k => (sha3 k.2).take 8 == pre && Config.mldsaVerify k.2 (ek ++ leBytes 16 Config.serial.toNat) sig with
    | none => (m.post 0x0604 none 0 (pre ++ leBytes 1 1), mbAuth, [])
    | some (mask, key) =>
      if 16 ≤ m.asy.sessions.length then (m, mbFull, [])
      else
        let d := m.draw
        let id : Word := BitVec.ofNat 64 (d.1 0 % (2 ^ 64 - 1) + 1)
        let kem := Config.mlkemEncaps (d.1 1) ek
        let ct := slice kem.1 0 1568
        let idb := leBytes 8 id.toNat
        let new : Session := { id := id, role := mask, signer := sha3 key
                               key := shake256 (kem.2 ++ leBytes 16 Config.serial.toNat ++ idb) 32 }
        let m := d.2.setAsy fun a => { a with drbg := a.drbg + 1, sessions := a.sessions.filter (·.id != id) ++ [new] }
        (m, mbOk, idb ++ ct ++ slice (Config.mldsaSign d.2.asy.drbg (idb ++ ct ++ ek)) 0 4627)

/-- A message that a session authorises, with `n` operand bytes before its counter (R480): accepted, or AUTH with
SESSION_FAIL. -/
def Module.authorised (m : Module) (r : MbReq) (n : Nat) : Option Module × Module :=
  let counter := fieldAt r.operands n 4
  match m.sessionFault r.session counter (slice r.operands (n + 4) 16) (r.header ++ r.operands.take (n + 4)) with
  | some f => (none, m.sessionFail r.session f)
  | none => (some (m.acceptCounter r.session counter), m)

/-- SESSION_CLOSE (R479, R480). -/
def Module.opSessionClose (m : Module) (r : MbReq) : MbDone :=
  if !m.booted then (m, mbState, [])
  else if r.operands.length ≠ 20 then (m, mbFormat, [])
  else match m.authorised r 0 with
    | (none, m) => (m, mbAuth, [])
    | (some m, _) => (m.setAsy fun a => { a with sessions := a.sessions.filter (·.id != r.session) }, mbOk, [])

/-- ZEROISE under a session that holds the role; the zeroisation follows (R483). -/
def Module.opZeroise (m : Module) (r : MbReq) : MbDone :=
  let kind := fieldAt r.operands 0 1
  if !m.booted then (m, mbState, [])
  else if r.operands.length ≠ 21 ∨ 1 < kind then (m, mbFormat, [])
  else match m.authorised r 1 with
    | (none, m) => (m, mbAuth, [])
    | (some m, _) => if (m.sessionRole r.session).testBit 1 then (m.zeroiseAll kind r.session, mbOk, []) else (m, mbAuth, [])

/-- The assay firmware takes key-set loads: BOOT, at step 5 (R473, R476). -/
def Module.takesKeys (m : Module) : Bool := m.pwr.mode == .boot && m.asy.bootstep == 5

/-- SIGNERS_LOAD: one draft-signer key, measured into hallmark 6 (R475, R476); the last load with FINAL ends BOOT. -/
def Module.opSigners (m : Module) (r : MbReq) : MbDone :=
  let k := r.operands
  if !m.takesKeys then (m, mbState, [])
  else if k.length ≠ 2592 then (m, mbFormat, [])
  else if m.asy.signers.any fun x => (sha3 x).take 8 == (sha3 k).take 8 then (m, mbDuplicate, [])
  else if 8 ≤ m.asy.signers.length then (m, mbFull, [])
  else
    let m := (m.setAsy fun a => { a with signers := a.signers ++ [k] }).extendHallmark 6 (sha3 k)
    (if r.flags = 1 then m.bootEnd else m, mbOk, [])

/-- ROLES_LOAD: one role key with its mask, measured into hallmark 7 (R475, R476, R479). -/
def Module.opRoles (m : Module) (r : MbReq) : MbDone :=
  let mask := fieldAt r.operands 0 1
  let k := r.operands.drop 1
  if !m.takesKeys then (m, mbState, [])
  else if r.operands.length ≠ 2593 ∨ 3 < mask then (m, mbFormat, [])
  else if m.asy.roles.any fun x => (sha3 x.2).take 8 == (sha3 k).take 8 then (m, mbDuplicate, [])
  else if 16 ≤ m.asy.roles.length then (m, mbFull, [])
  else
    let m := m.setAsy fun a => { a with roles := a.roles ++ [(BitVec.ofNat 8 mask, k)] }
    let m := (m.extendHallmark 7 (sha3 k)).extendHallmark 7 (leBytes 1 mask ++ leBytes 63 0)
    (if r.flags = 1 then m.bootEnd else m, mbOk, [])

/-- PACKAGE_LOAD: bytes of the boot package at an offset; FINAL ends step 2's wait (R472). -/
def Module.opPackage (m : Module) (r : MbReq) : MbDone :=
  let off := fieldAt r.operands 0 4
  let bs := r.operands.drop 4
  if m.pwr.mode ≠ .boot then (m, mbState, [])
  else if m.asy.pkgFinal ∨ r.operands.length < 4 ∨ 3145728 < off + bs.length then (m, mbFormat, [])
  else
    let m := (m.store (packageBase + off) bs).setAsy fun a => { a with pkgLen := max a.pkgLen (off + bs.length), pkgFinal := r.flags == 1 }
    (if r.flags = 1 then m.bootPackage else m, mbOk, [])

/-- The operation of a request (R478). -/
def Module.operate (m : Module) (r : MbReq) : MbDone :=
  match r.op with
  | 1 => m.opCerts r
  | 2 => m.opQuote r
  | 3 => m.opSessionOpen r
  | 4 => m.opSessionClose r
  | 5 => m.opZeroise r
  | 6 => m.opSigners r
  | 7 => m.opRoles r
  | 8 => m.opPackage r
  | _ => (m, mbFormat, [])

/-- GO: the request is processed, and its answer takes its place with the same header layout (R477). -/
def Module.mailboxGo (m : Module) : Module :=
  let old := m.mailbox
  let r := m.mbRequest
  let d : MbDone := match r with
    | some r => m.operate r
    | none => (m, mbFormat, [])
  let m := d.1.setAsy fun a => { a with mbResult := d.2.1, lastGo := m.ltime }
  m.putMailbox (old.take 1 ++ [0, 0, 0] ++ leBytes 4 d.2.2.length ++ slice old 8 8 ++ d.2.2)

/-- GO for one operation: the request in the mailbox is of that operation. Without hall H0 none is performed (R22). -/
def Module.goFor (m : Module) (op : Nat) : Module :=
  if m.pwr.input && !m.asy.down && fieldAt m.mailbox 0 1 == op then m.mailboxGo else m

def execCerts (s : State) : Host.Outcome State Fault Refusal := s.on fun m => m.goFor 1
def execQuote (s : State) : Host.Outcome State Fault Refusal := s.on fun m => m.goFor 2
def execSessionOpen (s : State) : Host.Outcome State Fault Refusal := s.on fun m => m.goFor 3
def execSessionClose (s : State) : Host.Outcome State Fault Refusal := s.on fun m => m.goFor 4
def execZeroise (s : State) : Host.Outcome State Fault Refusal := s.on fun m => m.goFor 5
def execSignersLoad (s : State) : Host.Outcome State Fault Refusal := s.on fun m => m.goFor 6
def execRolesLoad (s : State) : Host.Outcome State Fault Refusal := s.on fun m => m.goFor 7
def execPackageLoad (s : State) : Host.Outcome State Fault Refusal := s.on fun m => m.goFor 8

/-- A write of CLAIM: it takes the value only while it is zero, and zero always (R477). -/
def Module.setClaim (m : Module) (v : BitVec 16) : Module :=
  if v = 0 ∨ m.asy.claim = 0 then m.setAsy fun a => { a with claim := v } else m

/-- MBCTL_CLAIM (R477). -/
def execMbctlClaim (v : BitVec 16) (s : State) : Host.Outcome State Fault Refusal := s.on fun m => m.setClaim v

/-- CLAIM_EXPIRE: a claim left set for 10 s after the last GO clears itself (R477). -/
def execClaimExpire (s : State) : Host.Outcome State Fault Refusal :=
  s.on fun m => if m.asy.claim = 0 then m else (m.until_ (m.asy.lastGo + 10000000000)).setAsy fun a => { a with claim := 0 }

end Sys2Proof.Machine
end

