-- ==== Sys2Proof/Machine/Power.lean ====
section
/-! DEFINITION. Power, resets, start-up, and throttling for heat and power (R493–R495, R499, R500, R502, R503, R508–R514). -/
namespace Sys2Proof.Machine

/-! ### Resets (R493, R502) -/

/-- The module as a reset of every volatile state leaves it: the fuses stay, and the model's own fields (log entry 1, DESIGN CHOICE). -/
def Module.blank (m : Module) : Module :=
  { free := m.free, sent := m.sent, asy := { seedErased := m.asy.seedErased }
    querns := m.querns.map fun q => { hardUsed := q.hardUsed } }

/-- What a reset keeps of the power block: the pins and the input, the sideband address and the TAP, which have resets of their
own (log entry 40, DEDUCED). -/
def Power.kept (x : Power) (cause : Nat) : Power :=
  { input := x.input, pwrgd := x.pwrgd, rstLow := x.rstLow, mode := x.mode, rstCause := cause, vin := x.vin, iin := x.iin, pin_ := x.pin_
    extended := x.extended, dynAddr := x.dynAddr, tapIr := x.tapIr, cells := x.cells }

/-- A cold reset: every field, RWS included (R502). The bypass pairs stand until they have switched (R384). -/
def Module.coldReset (m : Module) (cause : Nat) : Module :=
  { m.blank with pwr := m.pwr.kept cause, ltime := m.ltime, fab := { through := m.fab.through } }

/-- The RWS bits of the register at an address (R10). -/
def rwsMask (a : Nat) : Nat :=
  match regLocate a with
  | some (b, _, off) => (regRow b off).rws
  | none => 0

/-- The registers that a warm reset keeps: their RWS fields (R502). -/
def Module.rwsKept (m : Module) : WordMap :=
  (m.regs.filter fun r => rwsMask r.1 != 0).foldl (fun (acc : WordMap) r =>
    let k := BitVec.ofNat 64 (rwsMask r.1)
    sparsePut regDefault acc r.1 ((r.2 &&& k) ||| (regDefault r.1 &&& ~~~k))) []

/-- A warm reset keeps RWS fields, CHIP_LTIME and the hall event logs (R502). -/
def Module.warmReset (m : Module) : Module :=
  let c := m.coldReset 3
  let log (x : Hall × Hall) : Hall := { x.1 with elog := x.2.elog, elogHead := x.2.elogHead }
  { c with regs := m.rwsKept, halls := (c.halls.zip m.halls).map log }

/-! ### Input power (R493, R494, R500) -/

/-- The input lies in the extended range, in mV (R494). -/
def inExtended (mv : Nat) : Bool := (decide (38000 ≤ mv) && decide (mv < 40000)) || (decide (50000 < mv) && decide (mv ≤ 52000))

/-- The input has entered the extended range: one notice for each excursion (R494, R514). -/
def Module.enterExtended (m : Module) (mv : Nat) : Module :=
  if m.pwr.extended then m
  else (m.setPwr fun x => { x with extended := true }).post 0x0708 none 0 (leBytes 1 0xFF ++ leBytes 2 mv)

/-- POWER_APPLIED: the rails come up, MOD_PWRGD is high, the module is OFF and local time starts at zero (R500 steps 1 and 2). -/
def execPowerApplied (mv : Nat) (s : State) : Host.Outcome State Fault Refusal :=
  s.on fun m =>
    if m.pwr.input ∨ mv < 38000 ∨ 52000 < mv then m
    else
      let m : Module := { m.blank with pwr := { input := true, pwrgd := true, rstLow := m.pwr.rstLow, vin := mv } }
      if inExtended mv then m.enterExtended mv else m

/-- Power is gone: every volatile state ends, and every pair is THROUGH (R493). -/
def Module.powerOff (m : Module) : Module := m.blank

/-- POWER_LOSS. -/
def execPowerLoss (s : State) : Host.Outcome State Fault Refusal := s.on Module.powerOff

/-- INPUT_RANGE: the input leaves the operating range: the module runs on in the extended range, and beyond it removes its power
as on loss of input (R494). -/
def execInputRange (mv : Nat) (s : State) : Host.Outcome State Fault Refusal :=
  s.on fun m =>
    if !m.pwr.input then m
    else if mv < 38000 ∨ 52000 < mv then m.powerOff
    else if inExtended mv then (m.setPwr fun x => { x with vin := mv }).enterExtended mv
    else m

/-- INPUT_IN_RANGE: the excursion ends (R494). -/
def execInputInRange (mv : Nat) (s : State) : Host.Outcome State Fault Refusal :=
  s.on fun m =>
    if m.pwr.input && decide (40000 ≤ mv ∧ mv ≤ 50000) then m.setPwr fun x => { x with extended := false, vin := mv } else m

/-! ### Reset pins and registers (R502, R515) -/

/-- MOD_RST_ASSERT: MOD_RST_N low for 10 µs is a cold reset into OFF (R498, R499, R502). -/
def execModRstAssert (s : State) : Host.Outcome State Fault Refusal :=
  s.on fun m =>
    let m := m.setPwr fun x => { x with rstLow := true }
    if m.pwr.input then (m.enterMode .off).coldReset 1 else m

/-- MOD_RST_RELEASE: BOOT begins, and local time restarts at zero where the pin had reset the module; at power-on it runs on from
power-good (R31, R473, R500, R502). -/
def execModRstRelease (selfTestOk : Bool) (s : State) : Host.Outcome State Fault Refusal :=
  s.on fun m =>
    let low := m.pwr.rstLow
    let m := m.setPwr fun x => { x with rstLow := false }
    if m.pwr.input && low then ({ m with ltime := if m.pwr.rstCause = 1 then 0 else m.ltime } : Module).bootStart selfTestOk else m

/-- A cold reset by register, which leaves OFF and FAULTED too; while MOD_RST_N is low nothing leaves OFF (R499, R502). What its
self-tests find is free (log entry 41, DESIGN CHOICE). -/
def Module.resetCold (m : Module) : Module :=
  if !m.pwr.input || m.pwr.rstLow then m
  else
    let x := m.pick 2
    ({ x.2.coldReset 2 with ltime := 0 } : Module).bootStart (x.1 == 0)

/-- PWR_RST_COLD. -/
def execPwrRstCold (s : State) : Host.Outcome State Fault Refusal := s.on Module.resetCold

/-- A warm reset by register; it does not leave OFF or FAULTED (R499, R502). -/
def Module.resetWarm (m : Module) : Module :=
  if m.pwr.mode = .off ∨ m.pwr.mode = .faulted then m
  else
    let x := m.pick 2
    x.2.warmReset.bootStart (x.1 == 0)

/-- PWR_RST_WARM. -/
def execPwrRstWarm (s : State) : Host.Outcome State Fault Refusal := s.on Module.resetWarm

/-- PWR_CMD_DRAIN (R503). -/
def execPwrCmdDrain (s : State) : Host.Outcome State Fault Refusal := s.on Module.drain

/-! ### Training (R321, R437, R500 step 6) -/

/-- The self-test of a hall numbers its benches: those out of service receive no number, and the spares fill their numbers in order
of physical bench (R437). -/
def numberBenches (bad : BitVec 68) : List Nat × List Nat :=
  let good := (List.range 68).filter fun i => !bad.toNat.testBit i
  let fill := good.filter fun i => decide (64 ≤ i)
  let holes := (List.range 64).filter fun i => bad.toNat.testBit i
  let at_ (i : Nat) : Nat :=
    if bad.toNat.testBit i then fill.getD (holes.findIdx fun x => x == i) i else i
  ((List.range 64).map at_, fill.drop holes.length)

/-- A stack's training ends: trained with its lane spares, or withdrawn with cause 1 (R321, R324). -/
def Module.stackTrained (m : Module) (s lanes : Nat) (ok : Bool) : Module :=
  m.setQuern s fun q =>
    if ok then { q with trained := true, lanesp := lanes % 256 } else { q with withdrawn := true, wdcause := 1, lanesp := lanes % 256 }

/-- TRAINING_DONE: stacks are trained or withdrawn and benches numbered; a hall with more than four bad benches is lost (R321,
R437, R439). The module then goes on to QUARANTINE when a port is UP (R500, R402). -/
def execTrainingDone (untrained : BitVec 20) (laneSpares : List Byte) (badBenches : List (BitVec 68)) (s : State) :
    Host.Outcome State Fault Refusal :=
  s.on fun m =>
    if m.pwr.mode ≠ .training ∨ m.pwr.memoryUp then m
    else
      let m := (List.range 20).foldl (fun (m : Module) s =>
        m.stackTrained s ((laneSpares.map (·.toNat)).getD s 0) (!untrained.toNat.testBit s)) m
      let m := (List.range 4).foldl (fun (m : Module) h =>
        let bad := badBenches.getD h 0
        let n := numberBenches bad
        let m := m.setHall h fun x => { x with oos := bad, spare := n.2 }
        (List.range 64).foldl (fun (m : Module) i => m.setBench (64 * h + i) fun b => { b with phys := n.1.getD i i, dbe := 0 }) m) m
      let m := m.setPwr fun x => { x with memoryUp := true }
      match (List.range 4).find? fun h => decide (4 < popcount 68 (badBenches.getD h 0).toNat) with
      | some h => m.hallLost h 0xFF
      | none => m.checkTrained

/-! ### Heat (R508–R511, R514) -/

/-- A temperature of 0.125 °C units reaches a threshold. -/
def hotter (t : BitVec 16) (units : Nat) : Bool := decide ((units : Int) ≤ t.toInt)

/-- Since when a temperature has stayed 3 °C below each threshold (R510). -/
def coolTimes (now : Nat) (t : BitVec 16) (thresholds : List Nat) (was : List (Option Nat)) : List (Option Nat) :=
  thresholds.zipIdx.map fun (x : Nat × Nat) =>
    if hotter t (x.1 - 24 + 1) then none
    else match was.getD x.2 none with
      | some t0 => some t0
      | none => some now

/-- The step after a sample: the highest whose threshold is reached, and, of the steps above nominal, one is left once 10 ms have
passed 3 °C below its threshold (R509, R510). -/
def nextStep (now : Nat) (t : BitVec 16) (thresholds : List Nat) (cool : List (Option Nat)) (step : Nat) : Nat :=
  let reached := thresholds.countP fun x => hotter t x
  if step < reached then reached else leave step step
where
  leave : Nat → Nat → Nat
    | 0, k => k
    | n + 1, k =>
      if k = 0 then 0
      else match cool.getD (k - 1) none with
        | some t0 => if t0 + 10000000 ≤ now then leave n (k - 1) else k
        | none => k

/-- The thresholds of R509: 95, 98 and 101 °C; 105 °C withdraws the stack. -/
def stackThresholds : List Nat := [760, 784, 808]
/-- The thresholds of R511: 100, 102, 104 and 105 °C. -/
def hallThresholds : List Nat := [800, 816, 832, 840]
/-- The clocks of R511, in MHz, by level. -/
def heatClock (level : Nat) : Nat := [1250, 1000, 750, 500, 0].getD level 0

/-- One sample of a stack's temperature (R508–R510). -/
def Module.sampleStack (m : Module) (s : Nat) (t : BitVec 16) : Module :=
  let q := m.quern s
  let m := m.setQuern s fun x => { x with temp := t }
  if q.withdrawn then m
  else if hotter t 840 then (m.post 0x0703 none 0 (leBytes 1 s ++ leBytes 2 t.toNat)).withdrawStack s 2
  else
    let cool := coolTimes m.ltime t stackThresholds q.coolAt
    let k := nextStep m.ltime t stackThresholds cool q.step
    let m := m.setQuern s fun x => { x with coolAt := cool }
    if k = q.step then m
    else
      let m := (m.refill s).setQuern s fun x => { x with step := k, throttledAt := if q.step = 0 then m.ltime else x.throttledAt }
      let m := m.count (pwrR 0x070) 0 32 (if q.step < k then 1 else q.step - k)
      if q.step < k then m.post 0x0701 none 0 (leBytes 1 s ++ leBytes 1 k ++ leBytes 2 t.toNat)
      else if k = 0 then m.post 0x0702 none 0 (leBytes 1 s ++ leBytes 4 ((m.ltime - q.throttledAt) / 1000000))
      else m

/-- Count the halls whose bench island clock has changed (R515). -/
def Module.countClocks (m : Module) (was : Module) : Module :=
  m.count (pwrR 0x070) 32 32 ((List.range 4).countP fun h => m.hallClock h != was.hallClock h)

/-- A hall trips: HALL_TRIP, and FAULTED as a member loss (R511, R514). -/
def Module.tripHall (m : Module) (h : Nat) (t : BitVec 16) : Module :=
  (m.post 0x0706 none 0 (leBytes 1 h ++ leBytes 2 t.toNat)).enterFaulted

/-- One sample of a hall's junction temperature (R508, R511). -/
def Module.sampleHall (m : Module) (h : Nat) (t : BitVec 16) : Module :=
  let x := m.hall h
  let hot := if hotter t 840 then some (x.hotAt.getD m.ltime) else none
  let m0 := m.setHall h fun y => { y with temp := t, hotAt := hot }
  let long := match hot with
    | some t0 => decide (t0 + 1000000000 ≤ m.ltime)
    | none => false
  if m.pwr.mode = .faulted ∨ m.pwr.mode = .off then m0
  else if hotter t 880 || long then m0.tripHall h t
  else
    let cool := coolTimes m.ltime t hallThresholds x.coolAt
    let k := nextStep m.ltime t hallThresholds cool x.level
    let m := m0.setHall h fun y => { y with coolAt := cool, level := k, clock := heatClock k
                                            throttledAt := if x.level = 0 && k != 0 then m.ltime else y.throttledAt }
    let m := m.countClocks m0
    if x.level < k then m.post 0x0704 none 0 (leBytes 1 h ++ leBytes 2 (heatClock k) ++ leBytes 2 t.toNat)
    else if k = 0 ∧ x.level ≠ 0 then m.post 0x0705 none 0 (leBytes 1 h ++ leBytes 4 ((m.ltime - x.throttledAt) / 1000000))
    else m

/-- THERMAL_SAMPLE: every stack and hall is sampled (R508). -/
def execThermalSample (temps : List (BitVec 16)) (halls : List (BitVec 16)) (s : State) : Host.Outcome State Fault Refusal :=
  s.on fun m =>
    if !m.pwr.input then m
    else
      let m := (temps.take 20).zipIdx.foldl (fun (m : Module) (x : BitVec 16 × Nat) => m.sampleStack x.2 x.1) m
      (halls.take 4).zipIdx.foldl (fun (m : Module) (x : BitVec 16 × Nat) => m.sampleHall x.2 x.1) m

/-- HALL_TRIP: a sample reads 110 °C or more, or the junction has stayed at 105 °C or above for 1 s (R511). -/
def execHallTrip (hall : HallId) (temp : BitVec 16) (s : State) : Host.Outcome State Fault Refusal :=
  s.on fun m =>
    let h := hall.val
    if m.pwr.mode = .faulted ∨ m.pwr.mode = .off then m
    else if hotter temp 880 then (m.setHall h fun x => { x with temp := temp }).tripHall h temp
    else match (m.hall h).hotAt with
      | some t => if hotter temp 840 then ((m.until_ (t + 1000000000)).setHall h fun x => { x with temp := temp }).tripHall h temp else m
      | none => m

/-! ### Power (R494, R512) -/

/-- The input lies over the cap, or over the current limit of the extended range, 67.5 A (R494, R512). -/
def Module.overCap (m : Module) (w : Nat) : Bool :=
  decide (m.fld (pwrR 0x020) 0 12 < w) || (m.pwr.extended && decide (675 * m.pwr.vin < 10000 * w))

/-- The input lies 5% below every limit. -/
def Module.underCap (m : Module) (w : Nat) : Bool :=
  decide (100 * w ≤ 95 * m.fld (pwrR 0x020) 0 12) && (!m.pwr.extended || decide (1000000 * w ≤ 95 * 675 * m.pwr.vin))

/-- POWER_CAP_STEP: the average of 1 ms is over the cap, and all bench clocks go down a step, with POWER_CAP at the first; or it
lies 5% below, and they go up one step in 10 ms (R512). -/
def execPowerCapStep (watts : Nat) (s : State) : Host.Outcome State Fault Refusal :=
  s.on fun m =>
    if !m.pwr.input then m
    else
      let k := m.pwr.capStep
      let m := m.setPwr fun x => { x with pin_ := watts, iin := watts * 100000 / max 1 x.vin }
      if m.overCap watts then
        if 4 ≤ k then m
        else
          let m' := (m.setPwr fun x => { x with capStep := k + 1, capLow := some m.ltime }).countClocks m
          if k = 0 then m'.post 0x0707 none 0 (leBytes 1 0xFF ++ leBytes 2 (m.fld (pwrR 0x020) 0 12) ++ leBytes 2 watts) else m'
      else if m.underCap watts && decide (0 < k) then
        let due := match m.pwr.capLow with
          | some t => decide (t + 10000000 ≤ m.ltime)
          | none => true
        if due then (m.setPwr fun x => { x with capStep := k - 1, capLow := some m.ltime }).countClocks m else m
      else m

/-! ### The IEEE 1500 ports (R322, R507) -/

/-- The port takes repair and test instructions (R507). -/
def Module.portOpen (m : Module) : Bool := m.pwr.mode == .boot || m.pwr.mode == .draining || m.pwr.mode == .faulted

/-- A word is shifted through the port of a stack. The spec gives the port's registers and instructions no coding: what is shifted
out, and how many hard repairs the word makes while the port takes them, are free (R322, R507, log entry 42, DESIGN CHOICE). -/
def Module.shiftPort (m : Module) (s : Nat) (_ : Word) : Module :=
  if s < 20 then
    let d := m.draw
    let n := if m.portOpen then d.1 1 else 0
    d.2.setQuern s fun q =>
      { q with shift1500 := BitVec.ofNat 64 (d.1 0), hardUsed := q.hardUsed + min n ((Config.hardLeft s).toNat - q.hardUsed) }
  else m

/-- PWR_T1500D_WRITE: the management path reaches the port of stack PWR_T1500.STACK (R507). -/
def execPwrT1500dWrite (v : Word) (s : State) : Host.Outcome State Fault Refusal :=
  s.on fun m => m.shiftPort (m.fld (pwrR 0x078) 0 5) v

end Sys2Proof.Machine
end

