-- ==== Sys2Proof/Machine/Status.lean ====
section
/-! DEFINITION. What a read of every register returns: the stored fields, with the read-only fields that follow from the state of
their blocks (R8–R10 and the register tables). Write-only fields, reserved bits and unlisted offsets read as zero. -/
namespace Sys2Proof.Machine

/-- A word made of fields: value and first bit. -/
def fields (l : List (Nat × Nat)) : Nat := (l.map fun x => x.1 * 2 ^ x.2).sum

/-- A flag as a bit. -/
def bit (b : Bool) : Nat := b.toNat

/-- The 64-bit word number `k` of a byte string. -/
def wordAt (bs : List Byte) (k : Nat) : Nat := fieldAt bs (8 * k) 8

/-! ### ASY (R488, R492) -/

/-- Targets of a class of access tables (R487). -/
def targetKnown (tclass target : Nat) : Bool :=
  match tclass with
  | 1 => decide (target < 256)
  | 2 => decide (target < 20)
  | 3 => true
  | 4 | 6 => target == 0
  | 5 => decide (target ≤ 6) || (decide (8 ≤ target) && decide (target ≤ 31))
  | _ => false

/-- ASY_ATDATA: the entry that ASY_ATSEL selects, zero beyond the table. -/
def Module.atData (m : Module) : Nat :=
  let c := m.fld (asyR 0x038) 0 4
  let t := m.fld (asyR 0x038) 4 10
  if targetKnown c t then (((m.accessTable c t)[m.fld (asyR 0x038) 14 8]?).map AEntry.word).getD 0 else 0

/-- A register of ASY. -/
def Module.readAsy (m : Module) (off : Nat) : Nat :=
  let a := m.asy
  match off with
  | 0x000 => Config.serial.toNat % 2 ^ 64
  | 0x008 => Config.serial.toNat / 2 ^ 64
  | 0x010 => fields [(a.bootstep, 0), (a.fail, 4), (bit a.locked, 8), (bit a.tamper, 9), (bit a.zeroised, 10), (a.sessions.length, 11)]
  | 0x018 => fields [(Config.fusedSvn.toNat, 0), (a.running, 16)]
  | 0x020 => fields [(a.signers.length, 0), (a.roles.length, 4)]
  | 0x040 => m.atData
  | 0x048 => fields [(a.mbResult, 8), (a.claim.toNat, 48)]
  | _ =>
    if 0x400 ≤ off ∧ off < 0x800 then wordAt (a.hallmarks.getD ((off - 0x400) / 0x40) []) ((off - 0x400) % 0x40 / 8)
    else (m.reg (asyR off)).toNat

/-! ### CTR (R468) -/

/-- A register of CTR. -/
def Module.readCtr (m : Module) (off : Nat) : Nat :=
  let c := m.ctr
  let kept := (m.reg (ctrR off)).toNat
  if 0x030 ≤ off ∧ off < 0x050 then
    let h := (off - 0x030) / 8
    fields [(bit (c.link.getD h false), 0), (bit (c.pfc.getD h false), 1), (c.qps.countP fun q => q.port == h, 2)]
  else if 0x0C0 ≤ off ∧ off < 0x100 then
    match c.ring[m.fld (ctrR 0x0A0) 0 12]? with
    | some n => wordAt (noticeBytes n) ((off - 0x0C0) / 8)
    | none => 0
  else match off with
  | 0x018 => Config.mac.toNat
  | 0x070 => fields [(c.qps.length, 0), (m.openMgmt, 13)]
  | 0x098 => kept + fields [(c.ringHead, 0), (c.ring.length, 12)]
  | 0x0A8 => fields [(m.mailboxBytes / 1024, 0), (c.stagedBytes / 1024, 21)]
  | _ => kept

/-! ### FAB (R410) -/

/-- A register of FAB. -/
def Module.readFab (m : Module) (off : Nat) : Nat :=
  let kept := (m.reg (fabR off)).toNat
  if 0x040 ≤ off ∧ off < 0x080 then wordAt m.fab.charter ((off - 0x040) / 8)
  else if 0x080 ≤ off ∧ off < 0x0C0 then wordAt m.fab.gcharter ((off - 0x080) / 8)
  else if 0x100 ≤ off ∧ off < 0x300 ∧ off % 16 = 0 then
    let x := m.port ((off - 0x100) / 16)
    fields [(x.state, 0), (x.reason, 3), (x.peer, 6), (x.peerPort, 12), (bit x.spared, 17)]
  else match off with
  | 0x010 => fields [(m.guild.warden, 0), (bit (m.inGuild && m.isWarden), 6), (bit m.guild.quorum, 7)]
  | 0x018 => m.guild.epoch
  | 0x020 => m.guild.joined.toNat
  | 0x038 => m.fab.through.toNat
  | _ => kept

/-! ### RWK (R430) -/

/-- The group table that RWK_GENT presents: the staged one, or the one in force. -/
def Module.shownTable (m : Module) : WordMap := if m.fld (rwkR 0x010) 8 1 = 1 then m.rwk.stagedT else m.rwk.inForce

/-- A register of RWK. -/
def Module.readRwk (m : Module) (off : Nat) : Nat :=
  let r := m.rwk
  if 0x040 ≤ off ∧ off < 0x0C0 then (groupWord m.shownTable (m.fld (rwkR 0x010) 0 8 * 16 + (off - 0x040) / 8)).toNat
  else match off with
  | 0x008 =>
    fields [(((List.range 8).map m.rgUsed).sum / 1024, 0), (r.colls.countP fun c => c.ended.isNone, 16)]
  | 0x020 => fields [(bit r.busy, 0), (r.result, 1)]
  | 0x028 => r.epoch
  | _ => (m.reg (rwkR off)).toNat

/-! ### HALh (R71, R157, R323, R348, R447) -/

/-- The instances whose producers a hall holds back, and since when: with a token on its way, or as a store-executed node that waits
(R66, R69). -/
def Module.heldIn (m : Module) (h : Nat) : List (BitVec 32 × Nat) :=
  (m.tokens.filterMap fun t => match t.since with
    | some at_ => if m.hallFor t.tok = h then some (t.tok.inst, at_) else none
    | none => none) ++
  (m.halls.flatMap (·.entries)).filterMap fun e => match e.heldAt with
    | some x => if x.1 = h then some (e.key.inst, x.2) else none
    | none => none

/-- The oldest of the held-back producers. -/
def oldestHeld : List (BitVec 32 × Nat) → Option (BitVec 32 × Nat)
  | [] => none
  | x :: l =>
    match oldestHeld l with
    | some y => if y.2 < x.2 then some y else some x
    | none => some x

/-- The 64 bytes of a stream context (R332). -/
def contextBytes (c : Context) : List Byte :=
  leBytes 1 c.state ++ leBytes 1 c.kind ++ leBytes 1 c.ptn ++ leBytes 1 c.status ++ leBytes 4 c.key.inst.toNat ++
    leBytes 2 c.key.node.toNat ++ leBytes 2 c.key.gen.toNat ++ leBytes 1 (if c.kind = 2 then 0xFF else c.bench % 64) ++
    leBytes 1 c.port ++ leBytes 2 c.ring ++ leBytes 8 c.src ++ leBytes 8 c.dst ++ leBytes 8 c.total ++ leBytes 8 c.done ++
    leBytes 4 c.fill ++ leBytes 4 c.rate ++ leBytes 8 c.dt

/-- The 32 bytes of an event log entry (R446). -/
def logBytes (e : LogEntry) : List Byte :=
  leBytes 2 e.code ++ leBytes 1 e.unit ++ leBytes 1 e.ptn ++ leBytes 4 0 ++ leBytes 8 e.ltime ++ leBytes 8 e.addr ++ slice e.detail 0 8

/-- A register of HALh. -/
def Module.readHal (m : Module) (h off : Nat) : Nat :=
  let x := m.hall h
  let kept := (m.reg (halR h off)).toNat
  if 0x280 ≤ off ∧ off < 0x2C0 then
    match x.ctx (m.fld (halR h 0x248) 0 8) with
    | some c => wordAt (contextBytes c) ((off - 0x280) / 8)
    | none => 0
  else if 0x330 ≤ off ∧ off < 0x350 then
    match x.elog[m.fld (halR h 0x328) 0 6]? with
    | some e => wordAt (logBytes e) ((off - 0x330) / 8)
    | none => 0
  else match off with
  | 0x008 =>
    let late := (m.heldIn h).any fun t => decide (t.2 + m.fld (halR h 0x000) 16 16 * 1000 < m.ltime)
    fields [(x.tokensAt .slotReserved none + x.tokensAt .slotGeneral none, 0), (x.tokensAt .completion none, 17),
            (x.readyAt .readyReserved none + x.readyAt .readyGeneral none, 30), ((m.liveIn h).length, 45), (bit late, 58)]
  | 0x010 => fields [((((m.liveIn h).map fun y => y.2.slotq).sum), 0), ((((m.liveIn h).map fun y => y.2.readyq).sum), 17)]
  | 0x030 =>
    match oldestHeld (m.heldIn h) with
    | some t => fields [(t.1.toNat, 0), ((((m.inst t.1).map (·.ptn)).getD 0), 32)]
    | none => 0
  | 0x110 => fields [(x.merger.length, 0), ((x.merger.map MergerSlot.units).sum, 15)]
  | 0x198 => fields [(x.fills.length, 0), (x.cache.countP (·.dirty), 13)]
  | 0x208 =>
    let held := (List.range 8).filter fun p => x.barriers.any fun b => b.hold && b.ptn == p
    fields [(x.contexts.length, 0), (x.contexts.countP fun c => decide (128 ≤ c.idx), 9), (x.lightUsed, 17),
            (x.contexts.countP fun c => c.state == 2, 28), (x.admq.length, 37), (bit (!x.barriers.isEmpty), 47),
            ((held.map fun p => 2 ^ p).sum, 48)]
  | 0x308 => x.oos.toNat % 2 ^ 64
  | 0x310 => fields [(x.oos.toNat / 2 ^ 64, 0), (x.spare.length, 8)]
  | 0x320 => kept + fields [(x.elogHead, 0), (x.elog.length, 6)]
  | _ => kept

/-! ### BCH (R216, R245, R280) -/

/-- The firing that runs on a bench, with its node. -/
def Module.runningOn (m : Module) (b : Nat) : Option Node :=
  ((m.bench b).busy.bind m.nodeOf).map fun x => x.2.2

/-- A register of the bench with a device-wide number. What a MATMUL under way holds in the array, the bank that receives products
and the depth of the finished-tile queue, is a free value: a firing's work is one command here (R216, R278, log entry 6, DESIGN CHOICE). -/
def Module.readBch (m : Module) (b off : Nat) : Nat :=
  let kept := (m.reg (bchR b off)).toNat
  let mm := (m.runningOn b).filter fun n => n.op == 0x20
  match off with
  | 0x000 => fields [(b, 0), ((m.bench b).phys, 8), (b / 64, 15)]
  | 0x010 =>
    match mm with
    | some n => kept + fields [(1, 0), (n.par 16 1, 1), (n.par 17 8, 2), (Config.choice m.free 0 % 4, 10)]
    | none => kept
  | 0x148 => kept + bit ((m.runningOn b).any fun n => within n.op 0x30 0x32)
  | 0x170 => if mm.isSome then kept + Config.choice m.free 0 % 5 else kept
  | _ => kept

/-! ### QRNs (R156, R324) -/

/-- A register of QRNs. -/
def Module.readQrn (m : Module) (s off : Nat) : Nat :=
  let q := m.quern s
  let kept := (m.reg (qrnR s off)).toNat
  if 0x140 ≤ off ∧ off < 0x180 then
    let p := (off - 0x140) / 8
    fields [(m.tokensNow s p, 0), (bit ((m.draft p).regulator s).isSome, 32)]
  else match off with
  | 0x000 => fields [(s, 0), (s / 5, 5)]
  | 0x010 =>
    fields [(q.win.length, 0), ((q.segs.map (·.reserve)).sum, 13), (q.comb.length, 26), (bit (q.step != 0), 43), (bit q.withdrawn, 44)]
  | 0x108 =>
    fields [(q.lanesp, 0), (bit q.trained, 8), (q.wdcause, 9), (if q.step = 0 then 0xFF else stepFrac q.step, 12)]
  | 0x120 => fields [(q.soft, 0), ((Config.hardLeft s).toNat - q.hardUsed, 16)]
  | _ => kept

/-! ### PTN (R91, R124, R125, R178, R380) -/

/-- A stack that training has withdrawn: its pages take no frame (R321). -/
def Module.untrained (m : Module) (s : Nat) : Bool := (m.quern s).withdrawn && (m.quern s).wdcause == 1

/-- Frames that regions hold (R321, R441). -/
def Module.framesHeld (m : Module) (gs : List RegionSt) : Nat :=
  (gs.map fun g => (((List.range 20).filter fun s => !m.untrained s).map g.info.framesOn).sum).sum

/-- Pages of a partition's regions in a residency state (R124). -/
def Module.pagesIn (m : Module) (p : Nat) (r : Residency) : Nat :=
  ((m.ptn p).regions.map fun g => (List.range g.info.pages).countP fun k => m.residency g k == r).sum

/-- The 64-byte descriptor of a table (R123). -/
def Module.descriptor (m : Module) (x : Table) : List Byte :=
  let t := x.place
  leBytes 4 t.table ++ leBytes 1 t.type ++ leBytes 1 t.mode ++ leBytes 1 t.wh ++ leBytes 1 t.twin.toNat ++ leBytes 8 t.rows ++
    leBytes 2 t.dim ++ leBytes 1 t.rgn ++ leBytes 1 x.ptn ++ leBytes 2 t.shards ++
    leBytes 2 ((t.primaryOf m.member).getD 0xFFFF) ++ leBytes 8 t.shrows ++ leBytes 4 t.stride ++ leBytes 4 t.rpp ++
    leBytes 4 t.shpages ++ leBytes 2 ((t.twinOf m.guildSize m.member).getD 0xFFFF) ++ leBytes 2 0 ++
    leBytes 4 (((x.editions.find? fun e => e.state == .current).map (·.num)).getD 0) ++ leBytes 12 0

/-- The table that PTN_TSEL selects, where a draft in force places it. -/
def Module.selTable (m : Module) : Option Table := m.table (m.fld (poolR 0x808) 0 32)

/-- A module-wide register of PTN. -/
def Module.readPool (m : Module) (off : Nat) : Nat :=
  if 0x840 ≤ off ∧ off < 0x880 then
    match m.selTable with
    | some x => wordAt (m.descriptor x) ((off - 0x840) / 8)
    | none => 0
  else match off with
  | 0x800 =>
    fields [(((List.range 20).map m.freeFrames).sum, 0), ((((List.range 20).filter fun s => !m.untrained s).map stackFrames).sum, 32)]
  | 0x810 => bit m.selTable.isSome
  | _ => (m.reg (poolR off)).toNat

/-- The table that PTNp_ESEL names, where the partition's draft in force places it (R178). -/
def Module.editionTable (m : Module) (p : Nat) : Option Table :=
  (m.table (m.fld (ptnR p 0x90) 0 32)).filter fun x => x.ptn == p

/-- The number of an edition, 0 for none. -/
def edNum (e : Option Edition) : Nat := (e.map (·.num)).getD 0

/-- The edition of a table that is BUILDING or SEALED, and the one RETIRING. -/
def Table.built (x : Table) : Option Edition := x.editions.find? fun e => e.state == .building || e.state == .sealed
def Table.retiring (x : Table) : Option Edition := x.editions.find? fun e => e.state == .retiring

/-- Pages that only one edition of a table names. -/
def Table.privatePages (x : Table) (e : Edition) : Nat := e.pages.countP fun k => !x.shares e.num k

/-- The registers 0x98 to 0xB0 of a partition, of the table selected. -/
def Module.readEdition (m : Module) (x : Table) (off : Nat) : Nat :=
  match off with
  | 0x98 => fields [(edNum (x.editions.find? fun e => e.state == .current), 0), (edNum x.retiring, 32)]
  | 0xA0 =>
    match x.built with
    | some e => fields [(e.num, 0), (if e.state = .building then 1 else 2, 32), (bit e.fresh, 35)]
    | none => 0
  | 0xA8 =>
    let priv := ((x.built.toList ++ x.retiring.toList).map x.privatePages).sum
    let bound := match x.retiring with
      | some e => m.insts.countP fun i => i.bindings.contains (x.place.table, e.num)
      | none => 0
    fields [(priv, 0), (bound, 21)]
  | _ => x.flip

/-- A register of the group of partition p. -/
def Module.readPtn (m : Module) (p off : Nat) : Nat :=
  let x := m.ptn p
  let d := m.draft p
  let kept := (m.reg (ptnR p off)).toNat
  let ed := ((m.editionTable p).map fun t => m.readEdition t off).getD 0
  if 0x40 ≤ off ∧ off < 0x80 then wordAt d.digest ((off - 0x40) / 8)
  else match off with
  | 0x00 => fields [(x.active, 0), (bit x.staged.isSome, 2), (d.part.mode, 3), (x.epoch % 2 ^ 32, 32)]
  | 0x08 => d.tag
  | 0x10 => d.serial
  | 0x20 => d.part.lock
  | 0x30 => fields [(m.framesHeld x.regions, 0), (m.framesHeld x.stagedRegions, 32)]
  | 0x38 => fields [(m.pagesIn p .evicted, 0), (m.pagesIn p .building, 21), (m.pagesIn p .lost, 42)]
  | 0x98 | 0xA0 | 0xB0 => ed
  | 0xA8 => if (m.editionTable p).isSome then kept + ed else 0
  | 0xB8 => kept + x.receipts.length
  | 0xC0 => fields [(x.rounds.num % 2 ^ 32, 0), (if x.rounds.isOpen then x.rounds.width / 1000 else 0, 32), (x.rounds.lastN, 48)]
  | 0xC8 => kept + x.rounds.owed / 1000
  | 0xD8 => kept + x.tally.length
  | 0xF0 => fields [((x.requests.countP fun r => r.state == .waiting || r.state == .held) + x.blocked.length, 0), (x.requests.countP fun r => r.state == .window, 16)]
  | _ => kept

/-! ### PWR/THM (R499, R515) -/

/-- The code of a module state (R499). -/
def modeCode : Mode → Nat
  | .off => 0
  | .boot => 1
  | .training => 2
  | .quarantine => 3
  | .joined => 4
  | .draining => 5
  | .faulted => 6

/-- A register of PWR/THM. -/
def Module.readPwr (m : Module) (off : Nat) : Nat :=
  let x := m.pwr
  if 0x038 ≤ off ∧ off < 0x060 then
    let j := (off - 0x038) / 8
    fields ((List.range 4).map fun i => ((m.quern (4 * j + i)).temp.toNat, 16 * i))
  else match off with
  | 0x000 => fields [(modeCode x.mode, 0), (x.rstCause, 3)]
  | 0x018 => fields [(x.vin % 2 ^ 16, 0), (x.iin % 2 ^ 16, 16), (x.pin_ % 2 ^ 16, 32)]
  | 0x030 => fields ((List.range 4).map fun h => ((m.hall h).temp.toNat, 16 * h))
  | 0x060 =>
    let stk := (List.range 20).filter fun s => (m.quern s).step != 0
    let hal := (List.range 4).filter fun h => m.hallClock h != 1250
    fields [((stk.map fun s => 2 ^ s).sum, 0), ((hal.map fun h => 2 ^ h).sum, 20), (bit (x.capStep != 0), 24),
            (bit (!stk.isEmpty || !hal.isEmpty || x.capStep != 0), 25)]
  | 0x068 => fields ((List.range 4).map fun h => (m.hallClock h, 16 * h))
  | 0x080 => (m.quern (m.fld (pwrR 0x078) 0 5)).shift1500.toNat
  | _ => (m.reg (pwrR off)).toNat

/-! ### Every register -/

/-- The word that a read of a register address returns (R8–R10, R519). -/
def Module.readReg (m : Module) (addr : Nat) : Word :=
  BitVec.ofNat 64 <|
    match regLocate addr with
    | some (.chip, _, 0x010) => m.ltime
    | some (.chip, _, off) => (m.reg (chipR off)).toNat
    | some (.asy, _, off) => m.readAsy off
    | some (.ctr, _, off) => m.readCtr off
    | some (.fab, _, off) => m.readFab off
    | some (.rwk, _, off) => m.readRwk off
    | some (.hal, h, off) => m.readHal h off
    | some (.bch, b, off) => m.readBch b off
    | some (.qrn, s, off) => m.readQrn s off
    | some (.ptng, p, off) => m.readPtn p off
    | some (.ptn, _, off) => m.readPool off
    | some (.pwr, _, off) => m.readPwr off
    | none => 0

end Sys2Proof.Machine
end

