-- ==== Sys2Proof/Machine/Registers.lean ====
section
/-! DEFINITION. Accesses to register space: the check of R489, the access codes of R10 with locks and clamps, and the actions of
write-only fields. -/
namespace Sys2Proof.Machine

/-! ### Who may access a register (R487, R489) -/

/-- The access-table target of a block (R487, R519): its class and number for reads, and for writes. The ASY registers are read,
and the mailbox is written, as class ASSAY; every other access is of class REGBLOCK (log entry 43, DEDUCED). -/
def blockTarget (b : Block) (unit off : Nat) (write : Bool) : Nat × Nat :=
  match b with
  | .chip => (tcRegblock, 0)
  | .asy => if !write || decide (0x1000 ≤ off) then (tcAssay, 0) else (tcRegblock, 1)
  | .ctr => (tcRegblock, 2)
  | .fab => (tcRegblock, 3)
  | .rwk => (tcRegblock, 4)
  | .hal => (tcRegblock, 8 + unit)
  | .bch => (tcRegblock, 8 + unit / 64)
  | .qrn => (tcRegblock, 12 + unit)
  | .ptng | .ptn => (tcRegblock, 5)
  | .pwr => (tcRegblock, 6)

/-- A write of the register needs configure permission (the register chapters). -/
def needsConfigure (b : Block) (off : Nat) : Bool :=
  match b with
  | .ctr => off == 0x020 || off == 0x028 || off == 0x090
  | .fab => off == 0x028 || off == 0x030
  | .rwk => off == 0x000 || off == 0x010 || off == 0x018 || (decide (0x040 ≤ off) && decide (off < 0x0C0))
  | .hal => off == 0x140 || off == 0x180 || off == 0x188 || off == 0x190 || off == 0x200 || off == 0x240 || off == 0x300
  | .bch => off == 0x008 || off == 0x100 || off == 0x140
  | .qrn => off == 0x008 || off == 0x018 || off == 0x020 || off == 0x100
  | .ptng => off == 0xE8
  | .pwr => off == 0x008 || off == 0x020 || off == 0x028
  | _ => false

/-- The permission that an access to a register needs. -/
def regPerm (b : Block) (off : Nat) (write : Bool) : Nat :=
  if !write then permRead else if needsConfigure b off then permConfigure else permWrite

/-- The partition of a master, where its number names one (R454, R486). -/
def masterPtn (M : Nat) : Option Nat :=
  if 0x200 ≤ M ∧ M ≤ 0x5FF then some ((M - 0x200) / 128) else if 0x800 ≤ M ∧ M ≤ 0xBFF then some ((M - 0x800) % 8) else none

/-- Record a denied register access (R489). The notice goes by partition: a master of none leaves the counter and the record
(log entry 43, DEDUCED). -/
def Module.denyReg (m : Module) (M tclass target perm : Nat) : Module :=
  match masterPtn M with
  | some p => m.deny p M tclass target perm
  | none =>
    let m := m.count (asyR 0x028) 0 32
    if m.fld (asyR 0x030) 63 1 = 1 then m
    else m.setReg (asyR 0x030)
      (BitVec.ofNat 64 (M % 4096 + tclass % 16 * 2 ^ 12 + target % 1024 * 2 ^ 16 + perm % 16 * 2 ^ 26 + 2 ^ 63))

/-- The check of an access to the register at an address: the target that denies it. -/
def Module.regDenied (m : Module) (M addr : Nat) (write : Bool) : Option (Nat × Nat × Nat) :=
  match regLocate addr with
  | none => none
  | some (b, u, off) =>
    let t := blockTarget b u off write
    let perm := regPerm b off write
    if m.allowed t.1 t.2 0 M perm then none else some (t.1, t.2, perm)

/-! ### Stored fields (R10) -/

/-- Bits of an address that a draft in force locks (R71, R75): AFFHOLD, HOLDLIM and AFFEN of a hall that it names. -/
def Module.lockedBits (m : Module) (h : Nat) : Nat :=
  let by_ (i : Nat) : Bool := (List.range 8).any fun p =>
    (m.ptn p).draft.isSome && (m.draft p).halls.contains h && (m.draft p).part.lock.testBit i
  (if by_ 0 then 0xFFFF else 0) + (if by_ 1 then 0xFFFF0000 else 0) + (if by_ 2 then 0x100000000 else 0)

/-- The value that a write leaves in the fields that store it, where the register's table names a limit. -/
def clampReg (b : Block) (off old v : Nat) : Nat :=
  let limit (lo w least most : Nat) : Nat :=
    v - bitsOf v lo w * 2 ^ lo + min most (max least (bitsOf v lo w)) * 2 ^ lo
  match b, off with
  | .qrn, 0x100 => limit 1 8 1 255
  | .bch, 0x100 => limit 4 20 8192 1048575
  | .rwk, 0x000 => limit 0 17 100 100000
  | .ptng, 0xE8 => limit 0 16 1 65535
  | .ptng, 0x18 => max old v
  | .pwr, 0x020 => limit 0 12 1200 2700
  | .fab, 0x030 =>
    [0, 8, 16].foldl (fun (x : Nat) lo => if bitsOf x lo 8 = 0 then x + 2 ^ lo else x) v
  | _, _ => v

/-- The registers that accept writes only while the module is in BOOT (R410, R468). -/
def bootOnly (b : Block) (off : Nat) : Bool :=
  match b with
  | .ctr => off == 0x000 || off == 0x008 || off == 0x010
  | .fab => off == 0x000 || off == 0x008
  | _ => false

/-- Store a write in the fields of a register that keep it; a 1 in a write-1-to-clear bit clears the record of its register. -/
def Module.storeReg (m : Module) (b : Block) (unit off addr v : Nat) : Module :=
  let r := regRow b off
  let old := (m.reg addr).toNat
  let locked := if b = .hal ∧ off = 0 then m.lockedBits unit else 0
  let mask : Word := BitVec.ofNat 64 (r.rw ||| r.rws ||| r.rwl) &&& ~~~(BitVec.ofNat 64 locked)
  if bootOnly b off && m.pwr.mode != .boot then m
  else if (BitVec.ofNat 64 v &&& BitVec.ofNat 64 r.w1c) ≠ 0 then m.setReg addr 0
  else if mask = 0 then m
  else
    let kept := (m.reg addr) &&& ~~~mask
    m.setReg addr (kept ||| BitVec.ofNat 64 (clampReg b off old (BitVec.ofNat 64 v &&& mask).toNat))

/-! ### Actions -/

/-- BCH_MXCTL.ACCCLR zeroes the short and long accumulators of all four banks, at once or at the end of the firing that uses them
(R209, R216). -/
def Module.accclr (m : Module) (b : Nat) : Module :=
  if ((m.runningOn b).any fun n => n.op == 0x20) then m.setBench b fun x => { x with clearDue := true } else m.zeroAcc b

/-- ACCCLR: it takes effect between firings. -/
def execAccclr (bench : BenchId) (s : State) : Host.Outcome State Fault Refusal := s.on fun m => m.accclr bench.val

/-- A write of BCH_VCSEED reseeds the stochastic generator of a bench (R267, R280). -/
def Module.reseed (m : Module) (b v : Nat) : Module := m.setBench b fun x => { x with seed := v }

/-- BCH_VCSEED. -/
def execBchVcseed (bench : BenchId) (seed : Word) (s : State) : Host.Outcome State Fault Refusal :=
  s.on fun m => m.reseed bench.val seed.toNat

/-- Do an action where a bit of the written word is set. -/
def Module.onBit (m : Module) (v i : Nat) (f : Module → Module) : Module := if v.testBit i then f m else m

/-- The actions that a write of a register performs. -/
def Module.regAction (m : Module) (b : Block) (unit off v : Nat) : Module :=
  match b, off with
  | .asy, 0x048 => (m.setClaim (BitVec.ofNat 16 (v / 2 ^ 48))).onBit v 0 Module.mailboxGo
  | .ctr, 0x0A0 => m.onBit v 12 Module.clearRing
  | .rwk, 0x018 => (m.onBit v 0 Module.gcommit).onBit v 1 Module.gdiscard
  | .hal, 0x180 =>
    ((m.setCacheEn unit (v.testBit 0)).onBit v 1 fun m => m.cleanCache unit fun _ => true).onBit v 2 fun m => m.invalidateCache unit
  | .hal, 0x240 => m.sresume unit (v % 256)
  | .hal, 0x300 => (m.onBit v 7 fun m => m.dctlOos unit (v % 128)).onBit v 11 fun m => m.dctlWd unit (v / 256 % 8)
  | .hal, 0x328 => m.onBit v 8 fun m => m.clearLog unit
  | .bch, 0x008 => m.onBit v 0 fun m => m.accclr unit
  | .bch, 0x140 => m.reseed unit v
  | .qrn, 0x008 => (m.onBit v 2 fun m => m.flushQuern unit).onBit v 3 fun m => m.dropHotRows unit
  | .pwr, 0x008 => if v.testBit 0 then m.resetCold else m.onBit v 1 Module.resetWarm
  | .pwr, 0x010 => (m.onBit v 0 Module.drain).onBit v 1 Module.bootEnd
  | .pwr, 0x080 => m.shiftPort (m.fld (pwrR 0x078) 0 5) (BitVec.ofNat 64 v)
  | _, _ => m

/-- A write of a word of RWK_GENT: it takes effect in the staged table, while RWK_GSEL.STAGED is 1 (R430). -/
def Module.writeEntry (m : Module) (k : Nat) (v : Word) : Module :=
  if m.fld (rwkR 0x010) 8 1 = 1 then
    m.setRwk fun r => { r with stagedT := sparsePut (fun _ => 0) r.stagedT (m.fld (rwkR 0x010) 0 8 * 16 + k) v }
  else m

/-- Write a register: its stored fields, and its actions (R10, R519). -/
def Module.writeReg (m : Module) (addr v : Nat) : Module :=
  match regLocate addr with
  | none => m
  | some (b, u, off) =>
    match b, off with
    | .rwk, _ =>
      if 0x040 ≤ off ∧ off < 0x0C0 then m.writeEntry ((off - 0x040) / 8) (BitVec.ofNat 64 v)
      else (m.storeReg b u off addr v).regAction b u off v
    | .asy, 0x048 | .pwr, 0x080 => m.regAction b u off v
    | _, _ => (m.storeReg b u off addr v).regAction b u off v

/-- Whether an access from outside reaches an address: in OFF, while MOD_RST_N is low, and once hall H0 with the management path is
lost, only the PWR/THM block answers (R22, R499, R504; that it still answers without H0 is log entry 154, DESIGN CHOICE). -/
def Module.reaches (m : Module) (addr : Nat) : Bool :=
  m.pwr.input && ((!m.pwr.rstLow && m.pwr.mode != .off && !m.asy.down) || decide (0x1FF0F000000 ≤ addr ∧ addr < 0x1FF0F001000))

/-- An access to register space that R8 does not perform. -/
def badRegAccess (addr len : Nat) : Bool :=
  decide (0x1FF00000000 ≤ addr ∧ addr < 0x20000000000) && (len != 8 || addr % 8 != 0)

/-- REGISTER_WRITE: a master writes the register at an aligned address (R10). -/
def execRegisterWrite (master : BitVec 12) (addr : Nat) (v : Word) (s : State) : Host.Outcome State Fault Refusal :=
  s.on fun m =>
    if !m.reaches addr || addr % 8 != 0 then m
    else match m.regDenied master.toNat addr true with
    | some (c, t, perm) => m.denyReg master.toNat c t perm
    | none => m.writeReg addr v.toNat

/-- REGISTER_BAD_ACCESS: a read returns all ones, a write has no effect, and a node that made it ends FAULT_ADDRESS (R8). The
management path makes no such access (R461). -/
def execRegisterBadAccess (master : BitVec 12) (addr len : Nat) (isWrite : Bool) (k : Option FKey) (s : State) :
    Host.Outcome State Fault Refusal :=
  s.on fun m =>
    if !m.reaches addr || !badRegAccess addr len || master.toNat == mgmtMaster then m
    else
      let m := if isWrite then m else m.send (.regRead (BitVec.allOnes 64))
      match k.bind m.firing with
      | some f => if f.e.ran then m else m.finish f stFaultAddress
      | none => m

end Sys2Proof.Machine
end

