-- ==== Sys2Proof/Machine/Windows.lean ====
section
/-! DEFINITION. The local address map as the management path reaches it, the windows that host software reads and writes by RDMA, the
sideband, and the test access port (R453, R461, R504–R507, R516–R518). -/
namespace Sys2Proof.Machine

/-! ### The local address map (R103, R516, R517) -/

/-- A byte of the local address map is mapped (R516). -/
def mapped (a : Nat) : Bool :=
  decide (a < 0x14000000000) ||
  (decide (0x18000000000 ≤ a ∧ a < 0x18080000000) && decide (a % 0x800000 < 0x600000)) ||
  decide (0x19000000000 ≤ a ∧ a < 0x19010000000) || decide (0x19100000000 ≤ a ∧ a < 0x19128000000) || (regLocate a).isSome

/-- A byte is reached: it is mapped, and not DRAM of a withdrawn stack (R517). -/
def Module.reachable (m : Module) (a : Nat) : Bool := mapped a && !(decide (a < 0x14000000000) && (m.quern (a / 2 ^ 36)).withdrawn)

/-- The words of an aligned extent. -/
def wordsOf (a len : Nat) : List Nat := (List.range (len / 8)).map fun i => a + 8 * i

/-- The management path performs an access: aligned, in whole words, and with every byte reached (R461, R517). The map changes at
8-byte boundaries only. -/
def Module.mgmtOk (m : Module) (a len : Nat) : Bool :=
  a % 8 == 0 && len % 8 == 0 && decide (len ≤ 4096) && (wordsOf a len).all fun w => m.reachable w && m.reaches w

/-- An address of the system carve-out (R103). -/
def inCarveOut (a : Nat) : Bool := decide (a < 0x14000000000 ∧ a / 2 ^ 36 % 5 = 4 ∧ 63 * 2 ^ 30 ≤ a % 2 ^ 36)

/-- A word of the data array of a cache of `sets` sets, at an offset of its window (R518). -/
def Module.cacheWord (m : Module) (cache : List CacheLine) (off : Nat) : Word :=
  match cache.find? fun c => c.set == off / 2048 && c.way == off / 128 % 16 with
  | some c => BitVec.ofNat 64 (m.mem.num (c.line * 128 + off % 128) 8)
  | none => 0

/-- One word read by the management path at a reached address (R461, R516–R518). The layout of the carve-out is not architected, so
what it reads as is a free value (log entry 45, DESIGN CHOICE). -/
def Module.readLocal (m : Module) (a : Nat) : Word :=
  if a < 0x14000000000 then
    if inCarveOut a then BitVec.ofNat 64 (Config.choice m.free a) else BitVec.ofNat 64 (leNat (m.view (m.dramKey a) 8))
  else if a < 0x18080000000 then BitVec.ofNat 64 (m.mem.num a 8)
  else if a < 0x19010000000 then
    let o := a - 0x19000000000
    m.cacheWord (m.hall (o / 0x4000000)).cache (o % 0x4000000)
  else if a < 0x19128000000 then
    let o := a - 0x19100000000
    m.cacheWord (m.quern (o / 0x2000000)).hrc (o % 0x2000000)
  else m.readReg a

/-- A read of the word meets a poisoned sector (R319, R517). -/
def Module.wordPoisoned (m : Module) (a : Nat) : Bool :=
  decide (a < 0x14000000000) && !inCarveOut a && m.poisonedIn (m.dramKey a) 8

/-- A write of bytes on the channel path, as one that carries no hint (R305, R310). -/
def Module.writeBytes (m : Module) (hall key : Nat) (bs : List Byte) : Module :=
  if bs.isEmpty then m
  else
    let table := match m.regionOfKey key, m.ownerOfKey key with
      | some g, some p => m.isTableRegion p g.info.rgn
      | _, _ => false
    (spanCuts key bs.length).foldl (fun (m : Module) x => m.channelDo
      { master := 0, hall := hall, ptn := (m.ownerOfKey key).getD 0, ra := 0, len := x.2, hint := 0
        kind := .write (slice bs (x.1 - key) x.2), outcome := .clean } x.1 table) m

/-- A read of bytes on the channel path, as one that carries no hint: hits and misses are counted, and misses are charged (R305,
R311). -/
def Module.touchBytes (m : Module) (hall key len : Nat) : Module :=
  (spanCuts key len).foldl (fun (m : Module) x => m.access hall ((m.ownerOfKey key).getD 0) x.1 x.2 0 false false true) m

/-- One word written by the management path at a reached address; each 32-bit word of the short accumulators keeps its bits [19:0]
(R208). The cache windows are not written (R518), and what a write of the
carve-out does is not given: it has no effect here (log entry 45, DESIGN CHOICE). -/
def Module.writeLocal (m : Module) (a : Nat) (v : Word) : Module :=
  if a < 0x14000000000 then
    if inCarveOut a then m else m.writeBytes (a / 2 ^ 36 / 5) (m.dramKey a) (leBytes 8 v.toNat)
  else if a < 0x18080000000 then
    let short := decide (0x5FC000 ≤ a % 0x800000)
    (m.store a (leBytes 8 (if short then v.toNat % 2 ^ 20 + v.toNat / 2 ^ 32 % 2 ^ 20 * 2 ^ 32 else v.toNat))).clearPoison a 8
  else if a < 0x19128000000 then m
  else m.writeReg a v.toNat

/-- The words of a byte string. -/
def bytesWords (bs : List Byte) : List Word := (List.range (bs.length / 8)).map fun i => BitVec.ofNat 64 (fieldAt bs (8 * i) 8)

/-- Write words from an address upward while a condition holds: a write of a register may end the session that carries it. -/
def Module.writeWords (m : Module) (on : Module → Bool) (a : Nat) : List Word → Module
  | [] => m
  | v :: vs => if on m then (m.writeLocal a v).writeWords on (a + 8) vs else m

/-! ### RDMA of host software (R449, R453, R460, R461) -/

/-- One byte of a mailbox area: the header of a slot, or its payload, which means something only while the slot is READY (R374,
R376). -/
def Module.mailboxByte (m : Module) (q : QueuePair) (free : Nat → Nat) (off : Nat) : Byte :=
  let size := 64 + q.slotcap
  let sl := q.slots.getD (off / size) {}
  let o := off % size
  if o < 64 then (slice (slotBytes sl) 0 64).getD o 0
  else if sl.state ≠ 2 then BitVec.ofNat 8 (free off)
  else if o - 64 < sl.length then m.mem.read (mboxKey q.num off)
  else Config.slotTail q.num (off / size) sl.fills.toNat (o - 64)

/-- The host's request is longer than the transport carries (R449). -/
def Module.tooLong (m : Module) (q : Nat) : Module := (m.nak q nakInvalid).qpError q 3

/-- HOST_RDMA_READ. -/
def execHostRdmaRead (qp : Nat) (key : BitVec 32) (va : Word) (len : Nat) (s : State) : Host.Outcome State Fault Refusal :=
  s.on fun m =>
    let a := va.toNat
    match m.liveQp qp with
    | none => m
    | some q =>
      if 2 ^ 30 < len then m.tooLong qp
      else match q.window key with
      | some 1 =>
        if a + len ≤ q.slots.length * (64 + q.slotcap) then
          let d := m.draw
          d.2.send (.readReply qp ((List.range len).map fun i => m.mailboxByte q d.1 (a + i)))
        else m.nak qp nakAccess
      | some 2 =>
        let M := queueMaster q.ptn q.aclass
        match m.translate q.ptn M a len permRead with
        | .ok key _ =>
          if len = 0 then m.send (.readReply qp [])
          else if m.poisonedIn key len then (m.nak qp nakOperational).qpError qp 2
          else ((m.cacheXlat (.port q.port) q.ptn a len).touchBytes q.port key len).send (.readReply qp (m.view key len))
        | .fault _ cause => (m.xfault q.ptn M a cause permRead).nak qp nakAccess
        | .halt _ => m
      | some 4 =>
        if !m.mgmtOk a len then m.nak qp nakAccess
        else if (wordsOf a len).any m.wordPoisoned then (m.nak qp nakOperational).qpError qp 2
        else m.spend.send (.readReply qp ((wordsOf a len).flatMap fun w => leBytes 8 (m.readLocal w).toNat))
      | _ => m.nak qp nakAccess

/-- HOST_RDMA_WRITE. -/
def execHostRdmaWrite (qp : Nat) (key : BitVec 32) (va : Word) (data : List Byte) (s : State) : Host.Outcome State Fault Refusal :=
  s.on fun m =>
    let a := va.toNat
    match m.liveQp qp with
    | none => m
    | some q =>
      if 2 ^ 30 < data.length then m.tooLong qp
      else match q.window key with
      | some 1 => m.mailboxWrite q a data
      | some 2 =>
        let M := queueMaster q.ptn q.aclass
        match m.translate q.ptn M a data.length permWrite with
        | .ok key _ => (m.cacheXlat (.port q.port) q.ptn a data.length).writeBytes q.port key data
        | .fault _ cause => (m.xfault q.ptn M a cause permWrite).nak qp nakAccess
        | .halt _ => m
      | some 3 => if a = 0 ∧ data.length = 8 then m.ringDoorbell q (leNat data) else m.nak qp nakAccess
      | some 4 =>
        if !m.mgmtOk a data.length then m.nak qp nakAccess
        else m.writeWords (fun x => (x.liveQp qp).isSome) a (bytesWords data)
      | _ => m.nak qp nakAccess

/-! ### The sideband (R504) -/

/-- An address and length, in words, that the sideband takes (R504). -/
def Module.sidebandOk (m : Module) (a words : Nat) : Bool := decide (1 ≤ words ∧ words ≤ 64) && m.mgmtOk a (8 * words)

/-- SIDEBAND_PRIVATE_WRITE: OP 0x01 sets up a read, OP 0x02 writes; anything else is refused (R504). -/
def execSidebandPrivateWrite (bytes : List Byte) (s : State) : Host.Outcome State Fault Refusal :=
  s.on fun m =>
    let a := fieldAt bytes 1 8
    let n := fieldAt bytes 9 2
    let op := fieldAt bytes 0 1
    let long := decide (11 ≤ bytes.length)
    let status (m : Module) (x : Nat) : Module := m.setPwr fun y => { y with setup := none, sbStatus := x }
    if !m.pwr.pwrgd then m
    else if op = 1 ∧ long = true ∧ bytes.length = 11 ∧ m.sidebandOk a n = true then
      m.setPwr fun y => { y with setup := some (a, n), sbStatus := 0 }
    else if op = 2 ∧ long = true ∧ bytes.length = 11 + 8 * n ∧ m.sidebandOk a n = true then
      (status m 0).writeWords (fun x => x.pwr.pwrgd && x.reaches a) a (bytesWords (bytes.drop 11))
    else status m 1

/-- SIDEBAND_PRIVATE_READ: the status byte, and after a read set-up the words read (R504). A poisoned sector refuses the read (log
entry 46). -/
def execSidebandPrivateRead (s : State) : Host.Outcome State Fault Refusal :=
  s.on fun m =>
    if !m.pwr.pwrgd then m
    else match m.pwr.setup with
    | none => m.send (.sideband m.pwr.sbStatus [])
    | some (a, n) =>
      if m.sidebandOk a n && !(wordsOf a (8 * n)).any m.wordPoisoned then
        m.spend.send (.sideband 0 ((wordsOf a (8 * n)).map m.readLocal))
      else m.send (.sideband 1 [])

/-- SETDASA: the tray controller assigns the dynamic address (R504). -/
def execSetdasa (addr : BitVec 7) (s : State) : Host.Outcome State Fault Refusal :=
  s.on fun m => if m.pwr.pwrgd then m.setPwr fun x => { x with dynAddr := some addr } else m

/-! ### The test access port (R506, R507) -/

/-- A TAP instruction is in force and its data register is shifted out. -/
def Module.tap (m : Module) (ir bits v : Nat) : Module := (m.setPwr fun x => { x with tapIr := ir }).send (.tap bits v)

/-- IDCODE reads 0xB964_013F. -/
def execIdcode (s : State) : Host.Outcome State Fault Refusal := s.on fun m => if m.pwr.pwrgd then m.tap 1 32 0xB964013F else m

/-- BYPASS selects the bypass register of one bit, which captures zero (log entry 47, PRESUMED). -/
def execBypass (s : State) : Host.Outcome State Fault Refusal := s.on fun m => if m.pwr.pwrgd then m.tap 0 1 0 else m

/-- SAMPLE/PRELOAD: the contacts are sampled, which are not state of the module, and the cells are preloaded (log entry 47, PRESUMED). -/
def execSamplePreload (cells : BitVec 120) (s : State) : Host.Outcome State Fault Refusal :=
  s.on fun m =>
    if m.pwr.pwrgd then
      let d := m.draw
      (d.2.setPwr fun x => { x with cells := cells }).tap 2 120 (d.1 0 % 2 ^ 120)
    else m

/-- EXTEST drives the digital contacts from the cells; it is accepted only in BOOT (R506). -/
def execExtest (s : State) : Host.Outcome State Fault Refusal :=
  s.on fun m => if m.pwr.pwrgd && m.pwr.mode == .boot then m.setPwr fun x => { x with tapIr := 3 } else m

/-- STACK1500 reaches the IEEE 1500 port of a stack, only while PWR_TEST.J1500 is 1 (R507). -/
def execStack1500 (stack : BitVec 5) (v : Word) (s : State) : Host.Outcome State Fault Refusal :=
  s.on fun m =>
    if m.pwr.pwrgd && m.fld (pwrR 0x028) 0 1 == 1 && decide (stack.toNat < 20) then
      let m := m.shiftPort stack.toNat v
      m.tap 4 64 (m.quern stack.toNat).shift1500.toNat
    else m

/-- TAP_RESET: TRST_N resets the TAP controller, whose instruction register then holds IDCODE (R506, log entry 47, PRESUMED). -/
def execTapReset (s : State) : Host.Outcome State Fault Refusal := s.on fun m => m.setPwr fun x => { x with tapIr := 1 }

end Sys2Proof.Machine
end

