-- ==== Sys2Proof/Machine/Dispatch.lean ====
section
/-! DEFINITION. The dispatch: each command of the table to its meaning. -/
namespace Sys2Proof.Machine

/-- The effect of a command on everything but the queue. -/
def exec (i : Instr) (s : State) : Host.Outcome State Fault Refusal :=
  match i with
  | .run qp c => Sys2Proof.Machine.execRun qp c s
  | .cancel qp c => Sys2Proof.Machine.execCancel qp c s
  | .query qp c => Sys2Proof.Machine.execQuery qp c s
  | .graphLoad qp c image => Sys2Proof.Machine.execGraphLoad qp c image s
  | .graphUnload qp c => Sys2Proof.Machine.execGraphUnload qp c s
  | .draftLoad qp c image => Sys2Proof.Machine.execDraftLoad qp c image s
  | .draftActivate qp c => Sys2Proof.Machine.execDraftActivate qp c s
  | .draftUnload qp c => Sys2Proof.Machine.execDraftUnload qp c s
  | .pageEvict qp c => Sys2Proof.Machine.execPageEvict qp c s
  | .pageEvictDrained ptn reqid => Sys2Proof.Machine.execPageEvictDrained ptn reqid s
  | .pageRestore qp c => Sys2Proof.Machine.execPageRestore qp c s
  | .editionBegin qp c => Sys2Proof.Machine.execEditionBegin qp c s
  | .editionWrite qp c rows => Sys2Proof.Machine.execEditionWrite qp c rows s
  | .editionSeal qp c => Sys2Proof.Machine.execEditionSeal qp c s
  | .editionSealDone ptn reqid => Sys2Proof.Machine.execEditionSealDone ptn reqid s
  | .editionDiscard qp c => Sys2Proof.Machine.execEditionDiscard qp c s
  | .editionFlip qp c => Sys2Proof.Machine.execEditionFlip qp c s
  | .graphDefine qp c => Sys2Proof.Machine.execGraphDefine qp c s
  | .graphUndefine qp c => Sys2Proof.Machine.execGraphUndefine qp c s
  | .inputFetchDone ptn reqid inputs => Sys2Proof.Machine.execInputFetchDone ptn reqid inputs s
  | .roundWindowClose ptn => Sys2Proof.Machine.execRoundWindowClose ptn s
  | .admissionRetry ptn => Sys2Proof.Machine.execAdmissionRetry ptn s
  | .tokenArrive t => Sys2Proof.Machine.execTokenArrive t s
  | .benchDispatch bench => Sys2Proof.Machine.execBenchDispatch bench s
  | .affinityHoldExpire k => Sys2Proof.Machine.execAffinityHoldExpire k s
  | .matchStall hall inst => Sys2Proof.Machine.execMatchStall hall inst s
  | .nodeFiringEnd k => Sys2Proof.Machine.execNodeFiringEnd k s
  | .relay k => Sys2Proof.Machine.execRelay k s
  | .join k => Sys2Proof.Machine.execJoin k s
  | .steer k => Sys2Proof.Machine.execSteer k s
  | .gather k => Sys2Proof.Machine.execGather k s
  | .scatterAdd k => Sys2Proof.Machine.execScatterAdd k s
  | .sample k => Sys2Proof.Machine.execSample k s
  | .segmentReduce k => Sys2Proof.Machine.execSegmentReduce k s
  | .matmul k => Sys2Proof.Machine.execMatmul k s
  | .chainFiring k => Sys2Proof.Machine.execChainFiring k s
  | .chainHoldExpire k => Sys2Proof.Machine.execChainHoldExpire k s
  | .chainSumArrive k pos tile => Sys2Proof.Machine.execChainSumArrive k pos tile s
  | .spmmCsr k => Sys2Proof.Machine.execSpmmCsr k s
  | .hubSegmentTake bench => Sys2Proof.Machine.execHubSegmentTake bench s
  | .hubPartialArrive k row seg => Sys2Proof.Machine.execHubPartialArrive k row seg s
  | .vector k => Sys2Proof.Machine.execVector k s
  | .reduce k => Sys2Proof.Machine.execReduce k s
  | .topk k => Sys2Proof.Machine.execTopk k s
  | .streamCopy k => Sys2Proof.Machine.execStreamCopy k s
  | .fuse k => Sys2Proof.Machine.execFuse k s
  | .fusedGroupDispatch k => Sys2Proof.Machine.execFusedGroupDispatch k s
  | .fuseCreditReturn k => Sys2Proof.Machine.execFuseCreditReturn k s
  | .barrier k => Sys2Proof.Machine.execBarrier k s
  | .barrierRelease k => Sys2Proof.Machine.execBarrierRelease k s
  | .allreduce k => Sys2Proof.Machine.execAllreduce k s
  | .rwkReserveRetry coll => Sys2Proof.Machine.execRwkReserveRetry coll s
  | .collPassStart coll => Sys2Proof.Machine.execCollPassStart coll s
  | .fallbackLaunch qp d => Sys2Proof.Machine.execFallbackLaunch qp d s
  | .streamAdmit hall => Sys2Proof.Machine.execStreamAdmit hall s
  | .preadmit bench => Sys2Proof.Machine.execPreadmit bench s
  | .streamRequestComplete hall ctx => Sys2Proof.Machine.execStreamRequestComplete hall ctx s
  | .pageResume ptn ra => Sys2Proof.Machine.execPageResume ptn ra s
  | .streamSlack hall ctx => Sys2Proof.Machine.execStreamSlack hall ctx s
  | .haltLong hall ctx => Sys2Proof.Machine.execHaltLong hall ctx s
  | .quernEntryAccept stack => Sys2Proof.Machine.execQuernEntryAccept stack s
  | .segmentOpen stack => Sys2Proof.Machine.execSegmentOpen stack s
  | .lineFetchDone stack line o => Sys2Proof.Machine.execLineFetchDone stack line o s
  | .bankFallback stack line => Sys2Proof.Machine.execBankFallback stack line s
  | .mergerPartial hall => Sys2Proof.Machine.execMergerPartial hall s
  | .gatherPartial k => Sys2Proof.Machine.execGatherPartial k s
  | .addBatchArrive stack tag => Sys2Proof.Machine.execAddBatchArrive stack tag s
  | .addBatchReserved stack tag => Sys2Proof.Machine.execAddBatchReserved stack tag s
  | .addBatchEnd stack tag => Sys2Proof.Machine.execAddBatchEnd stack tag s
  | .cbAgeWriteback stack line o => Sys2Proof.Machine.execCbAgeWriteback stack line o s
  | .channelAccess master hall ptn ra len hint a o => Sys2Proof.Machine.execChannelAccess master hall ptn ra len hint a o s
  | .hallCacheFillDone hall line => Sys2Proof.Machine.execHallCacheFillDone hall line s
  | .scrubRead stack o => Sys2Proof.Machine.execScrubRead stack o s
  | .receiptExpire ptn tag => Sys2Proof.Machine.execReceiptExpire ptn tag s
  | .tallyEntryExpire ptn reqid => Sys2Proof.Machine.execTallyEntryExpire ptn reqid s
  | .mailboxRetentionExpire qp slot => Sys2Proof.Machine.execMailboxRetentionExpire qp slot s
  | .pushRetentionExpire ptn reqid => Sys2Proof.Machine.execPushRetentionExpire ptn reqid s
  | .retireSlow table => Sys2Proof.Machine.execRetireSlow table s
  | .staleTokenDiscard t => Sys2Proof.Machine.execStaleTokenDiscard t s
  | .cmReq port r counter tag => Sys2Proof.Machine.execCmReq port r counter tag s
  | .qpClose qp => Sys2Proof.Machine.execQpClose qp s
  | .hostRdmaRead qp key va len => Sys2Proof.Machine.execHostRdmaRead qp key va len s
  | .hostRdmaWrite qp key va data => Sys2Proof.Machine.execHostRdmaWrite qp key va data s
  | .slotRelease qp key va data => Sys2Proof.Machine.execSlotRelease qp key va data s
  | .doorbellWrite qp key c => Sys2Proof.Machine.execDoorbellWrite qp key c s
  | .unsupportedVerb qp => Sys2Proof.Machine.execUnsupportedVerb qp s
  | .ackTimeout qp => Sys2Proof.Machine.execAckTimeout qp s
  | .ecnMarkedReceive qp => Sys2Proof.Machine.execEcnMarkedReceive qp s
  | .cnpReceive qp => Sys2Proof.Machine.execCnpReceive qp s
  | .rateIncrease qp => Sys2Proof.Machine.execRateIncrease qp s
  | .pauseFrame port prio ns => Sys2Proof.Machine.execPauseFrame port prio ns s
  | .linkState port up pfc => Sys2Proof.Machine.execLinkState port up pfc s
  | .noticeHoldExpire qp => Sys2Proof.Machine.execNoticeHoldExpire qp s
  | .noticeDeliver => Sys2Proof.Machine.execNoticeDeliver s
  | .portTrain port peer => Sys2Proof.Machine.execPortTrain port peer s
  | .heldRetry port => Sys2Proof.Machine.execHeldRetry port s
  | .keyAgree port certOk sigOk secret => Sys2Proof.Machine.execKeyAgree port certOk sigOk secret s
  | .keyRenew port secret => Sys2Proof.Machine.execKeyRenew port secret s
  | .linkFrameReceive port codewordOk tagOk corrected => Sys2Proof.Machine.execLinkFrameReceive port codewordOk tagOk corrected s
  | .portFail port => Sys2Proof.Machine.execPortFail port s
  | .linkDown port => Sys2Proof.Machine.execLinkDown port s
  | .packetReceive port h payload crc => Sys2Proof.Machine.execPacketReceive port h payload crc s
  | .e2eTimeout dst vc pseq => Sys2Proof.Machine.execE2eTimeout dst vc pseq s
  | .e2e dst vc pseq => Sys2Proof.Machine.execE2e dst vc pseq s
  | .tokenPacket src ptn payload => Sys2Proof.Machine.execTokenPacket src ptn payload s
  | .commandPacket src reply elapsed c data status value => Sys2Proof.Machine.execCommandPacket src reply elapsed c data status value s
  | .noticePacket src payload => Sys2Proof.Machine.execNoticePacket src payload s
  | .gatherReq src ptn payload => Sys2Proof.Machine.execGatherReq src ptn payload s
  | .partialPkt src ptn payload => Sys2Proof.Machine.execPartialPkt src ptn payload s
  | .sampleReq src ptn payload => Sys2Proof.Machine.execSampleReq src ptn payload s
  | .sampleAns src ptn payload => Sys2Proof.Machine.execSampleAns src ptn payload s
  | .addBatch src ptn payload => Sys2Proof.Machine.execAddBatch src ptn payload s
  | .addAck src ptn payload => Sys2Proof.Machine.execAddAck src ptn payload s
  | .chunk src ptn payload => Sys2Proof.Machine.execChunk src ptn payload s
  | .chunkNack src coll chunk => Sys2Proof.Machine.execChunkNack src coll chunk s
  | .bulk src kind ptn payload => Sys2Proof.Machine.execBulk src kind ptn payload s
  | .stragglerExpire coll chunk neighbour => Sys2Proof.Machine.execStragglerExpire coll chunk neighbour s
  | .hold src coll chunk => Sys2Proof.Machine.execHold src coll chunk s
  | .late coll member elastic => Sys2Proof.Machine.execLate coll member elastic s
  | .reform coll mask rfm => Sys2Proof.Machine.execReform coll mask rfm s
  | .collAbort ptn grp seq cause detector member sigA sigB => Sys2Proof.Machine.execCollAbort ptn grp seq cause detector member sigA sigB s
  | .prepare epoch a drainUs => Sys2Proof.Machine.execPrepare epoch a drainUs s
  | .ready src epoch r => Sys2Proof.Machine.execReady src epoch r s
  | .drainTimeout epoch => Sys2Proof.Machine.execDrainTimeout epoch s
  | .commit epoch a => Sys2Proof.Machine.execCommit epoch a s
  | .abort epoch a => Sys2Proof.Machine.execAbort epoch a s
  | .drained src table edition => Sys2Proof.Machine.execDrained src table edition s
  | .release epoch table edition => Sys2Proof.Machine.execRelease epoch table edition s
  | .joinRequest member serial charter quote linkSerial answer => Sys2Proof.Machine.execJoinRequest member serial charter quote linkSerial answer s
  | .joinWaitExpire reachable serials charters => Sys2Proof.Machine.execJoinWaitExpire reachable serials charters s
  | .probeExpire member => Sys2Proof.Machine.execProbeExpire member s
  | .lost epoch member cause routes => Sys2Proof.Machine.execLost epoch member cause routes s
  | .routes epoch routes => Sys2Proof.Machine.execRoutes epoch routes s
  | .fenceExpire reached => Sys2Proof.Machine.execFenceExpire reached s
  | .rebuildPage src table edition page data => Sys2Proof.Machine.execRebuildPage src table edition page data s
  | .benchOutOfService hall pbench => Sys2Proof.Machine.execBenchOutOfService hall pbench s
  | .benchWatchdog bench => Sys2Proof.Machine.execBenchWatchdog bench s
  | .benchCopyDone hall clean => Sys2Proof.Machine.execBenchCopyDone hall clean s
  | .stackWithdraw stack cause => Sys2Proof.Machine.execStackWithdraw stack cause s
  | .drainForced => Sys2Proof.Machine.execDrainForced s
  | .mbctlClaim v => Sys2Proof.Machine.execMbctlClaim v s
  | .claimExpire => Sys2Proof.Machine.execClaimExpire s
  | .certs => Sys2Proof.Machine.execCerts s
  | .quote => Sys2Proof.Machine.execQuote s
  | .sessionOpen => Sys2Proof.Machine.execSessionOpen s
  | .sessionClose => Sys2Proof.Machine.execSessionClose s
  | .zeroise => Sys2Proof.Machine.execZeroise s
  | .signersLoad => Sys2Proof.Machine.execSignersLoad s
  | .rolesLoad => Sys2Proof.Machine.execRolesLoad s
  | .packageLoad => Sys2Proof.Machine.execPackageLoad s
  | .tamper sensor => Sys2Proof.Machine.execTamper sensor s
  | .entropyTestFail => Sys2Proof.Machine.execEntropyTestFail s
  | .powerApplied mv => Sys2Proof.Machine.execPowerApplied mv s
  | .powerLoss => Sys2Proof.Machine.execPowerLoss s
  | .inputRange mv => Sys2Proof.Machine.execInputRange mv s
  | .modRstAssert => Sys2Proof.Machine.execModRstAssert s
  | .modRstRelease selfTestOk => Sys2Proof.Machine.execModRstRelease selfTestOk s
  | .trainingDone untrained laneSpares badBenches => Sys2Proof.Machine.execTrainingDone untrained laneSpares badBenches s
  | .thermalSample temps halls => Sys2Proof.Machine.execThermalSample temps halls s
  | .hallTrip hall temp => Sys2Proof.Machine.execHallTrip hall temp s
  | .powerCapStep watts => Sys2Proof.Machine.execPowerCapStep watts s
  | .pwrRstCold => Sys2Proof.Machine.execPwrRstCold s
  | .pwrRstWarm => Sys2Proof.Machine.execPwrRstWarm s
  | .pwrCmdDrain => Sys2Proof.Machine.execPwrCmdDrain s
  | .pwrCmdRelease => Sys2Proof.Machine.execPwrCmdRelease s
  | .pwrT1500dWrite v => Sys2Proof.Machine.execPwrT1500dWrite v s
  | .qrnFlush stack => Sys2Proof.Machine.execQrnFlush stack s
  | .qrnHrcinv stack => Sys2Proof.Machine.execQrnHrcinv stack s
  | .halCctlFlush hall => Sys2Proof.Machine.execHalCctlFlush hall s
  | .halCctlInv hall => Sys2Proof.Machine.execHalCctlInv hall s
  | .halCctlEn hall en => Sys2Proof.Machine.execHalCctlEn hall en s
  | .accclr bench => Sys2Proof.Machine.execAccclr bench s
  | .bchVcseed bench seed => Sys2Proof.Machine.execBchVcseed bench seed s
  | .halSresume hall mask => Sys2Proof.Machine.execHalSresume hall mask s
  | .halDctlOos hall pbench => Sys2Proof.Machine.execHalDctlOos hall pbench s
  | .halDctlWd hall stack => Sys2Proof.Machine.execHalDctlWd hall stack s
  | .elogClr hall => Sys2Proof.Machine.execElogClr hall s
  | .nringClr => Sys2Proof.Machine.execNringClr s
  | .rwkGcommitCommit => Sys2Proof.Machine.execRwkGcommitCommit s
  | .rwkGcommitDiscard => Sys2Proof.Machine.execRwkGcommitDiscard s
  | .registerWrite master addr v => Sys2Proof.Machine.execRegisterWrite master addr v s
  | .registerBadAccess master addr len isWrite k => Sys2Proof.Machine.execRegisterBadAccess master addr len isWrite k s
  | .sidebandPrivateWrite bytes => Sys2Proof.Machine.execSidebandPrivateWrite bytes s
  | .sidebandPrivateRead => Sys2Proof.Machine.execSidebandPrivateRead s
  | .setdasa addr => Sys2Proof.Machine.execSetdasa addr s
  | .idcode => Sys2Proof.Machine.execIdcode s
  | .bypass => Sys2Proof.Machine.execBypass s
  | .samplePreload cells => Sys2Proof.Machine.execSamplePreload cells s
  | .extest => Sys2Proof.Machine.execExtest s
  | .stack1500 stack v => Sys2Proof.Machine.execStack1500 stack v s
  | .pipeTileArrive k tile => Sys2Proof.Machine.execPipeTileArrive k tile s
  | .sampleNeighbourReturn k => Sys2Proof.Machine.execSampleNeighbourReturn k s
  | .levelCSumReceive coll chunk guildPos sums => Sys2Proof.Machine.execLevelCSumReceive coll chunk guildPos sums s
  | .pairSwitchDone pair through => Sys2Proof.Machine.execPairSwitchDone pair through s
  | .pfcPauseExpire port => Sys2Proof.Machine.execPfcPauseExpire port s
  | .arpRequest port ip => Sys2Proof.Machine.execArpRequest port ip s
  | .neighbourSolicitation port ip => Sys2Proof.Machine.execNeighbourSolicitation port ip s
  | .nakReceive qp op reqid entry => Sys2Proof.Machine.execNakReceive qp op reqid entry s
  | .rnrRetry qp taken => Sys2Proof.Machine.execRnrRetry qp taken s
  | .inputInRange mv => Sys2Proof.Machine.execInputInRange mv s
  | .tapReset => Sys2Proof.Machine.execTapReset s

end Sys2Proof.Machine
end

