-- ==== Sys2Proof/Machine/Idle.lean ====
section
/-! DEFINITION. What the block does on an empty queue. -/
namespace Sys2Proof.Machine

/-- Local time counts while input power is applied, and stands still without it (R31). -/
def idle (s : State) : Host.Outcome State Fault Refusal :=
  s.on fun m => if m.pwr.input then { m with ltime := m.ltime + 1 } else m

end Sys2Proof.Machine
end

