-- ==== Sys2Proof/Machine/Step.lean ====
section
/-! DEFINITION. One step: the command at the front of the queue runs; with none waiting, the block idles and, while it
is powered, local time moves on by one nanosecond (R31, log entry 2, DESIGN CHOICE). -/
namespace Sys2Proof.Machine

/-- Take the front command and run it with the rest of the queue; idle on an empty queue. -/
def step (s : State) : Host.Outcome State Fault Refusal :=
  match s.pending with
  | [] => idle s
  | c :: rest => exec c { s with pending := rest }

/-- The state with the command that a word spells at the front of the queue. The opcode table gives no row a bit
encoding, so no word spells a command and the state stands (log entry 5, DEDUCED). -/
def State.withFetchWord (s : State) (nbits w : Nat) : State :=
  match Sys2Proof.decodeTableWord nbits w with
  | some c => { s with pending := c :: s.pending }
  | none => s

end Sys2Proof.Machine
end

