-- ==== Sys2Proof/Safety.lean ====
section
/-! DEFINITION. What every state keeps, and what a command does, in the terms that the claims use. -/
namespace Sys2Proof.Machine

/-- The canonical forms (log entry 3, DESIGN CHOICE): memory, and the register map, list rising keys and no entry at its default. -/
abbrev Module.canonical (m : Module) : Prop := Memory.wf m.mem ∧ SparseWf regDefault m.regs

/-- The block has the units of R20–R26: four halls, 256 benches, twenty stacks and eight partitions. -/
abbrev Module.shaped (m : Module) : Prop :=
  m.halls.length = 4 ∧ m.benches.length = 256 ∧ m.querns.length = 20 ∧ m.ptns.length = 8

/-- On module `m`, exec of the command answers a next state whose queue is the same, and whose module meets `P`. -/
def Completes (c : Instr) (m : Module) (P : Module → Prop) : Prop :=
  ∀ q : List Instr, ∃ m' : Module, exec c { m := m, pending := q } = .next { m := m', pending := q } ∧ P m'

/-- On module `m`, exec of the command answers the next state whose queue is the same and whose module is `m'`. -/
def Leaves (c : Instr) (m m' : Module) : Prop :=
  ∀ q : List Instr, exec c { m := m, pending := q } = .next { m := m', pending := q }

/-- Between `m` and `m'` exactly one notice is posted, for every queue pair: its severity, code, partition, object and detail,
under the next NSEQ (R462). -/
def PostsOne (m m' : Module) (sev code : Nat) (ptn : Option Nat) (obj : Nat) (detail : List Byte) : Prop :=
  m'.ctr.posted = m.ctr.posted ++ [({ sev := sev, code := code, member := m.member, ptn := ptn, nseq := m.ctr.nseq, obj := obj,
                                      ltime := m.ltime, detail := slice detail 0 40 }, [])] ∧
  m'.ctr.nseq = m.ctr.nseq + 1

/-- Between `m` and `m'` exactly one notice is posted, for every queue pair but those listed (R460, R462). -/
def PostsBut (m m' : Module) (but : List Nat) (sev code : Nat) (ptn : Option Nat) (obj : Nat) (detail : List Byte) : Prop :=
  m'.ctr.posted = m.ctr.posted ++ [({ sev := sev, code := code, member := m.member, ptn := ptn, nseq := m.ctr.nseq, obj := obj,
                                      ltime := m.ltime, detail := slice detail 0 40 }, but)] ∧
  m'.ctr.nseq = m.ctr.nseq + 1

/-- Between `m` and `m'` exactly one thing is sent: this message, to a member on a channel (R393). -/
def Sends (m m' : Module) (dst vc : Nat) (x : FabMsg) : Prop := ∃ n r, m'.sent = m.sent ++ [.fab dst vc n r x]

/-- A message to a member on a channel is among what has been sent. -/
def Module.hasSent (m : Module) (dst vc : Nat) (x : FabMsg) : Prop := ∃ n r, Out.fab dst vc n r x ∈ m.sent

/-- Field `[lo, lo + w)` of the register at `a` counts one more, up to all ones, and every other register stands. -/
def Counts (m m' : Module) (a lo w : Nat) : Prop :=
  m'.fld a lo w = min (m.fld a lo w + 1) (2 ^ w - 1) ∧ ∀ b, b ≠ a → m'.reg b = m.reg b

/-- A request of the host is answered by one NAK, which CTR_NAKS counts, and performs nothing else (R453, R460). -/
def Naks (m m' : Module) (q code : Nat) : Prop :=
  m' = { m with regs := m'.regs, sent := m.sent ++ [.nak q code] } ∧ Counts m m' (ctrR 0x088) 0 32

/-- A queue pair goes into the error state: what waits on it is dropped, the counter counts it, and QP_ERROR with the cause is posted
for every other queue pair (R460, R467). -/
def QpFails (m m' : Module) (q : QueuePair) (cause : Nat) : Prop :=
  m'.ctr.qps = updWhere (fun x => x.num == q.num) (fun x => { x with err := true, outq := [], behind := [], lostN := 0, rnr := false }) m.ctr.qps ∧
  PostsBut m m' [q.num] 2 0x0106 none 0 (leBytes 4 q.num ++ leBytes 1 q.port ++ leBytes 1 cause) ∧
  m'.fld (ctrR 0x088) 32 32 = min (m.fld (ctrR 0x088) 32 32 + 1) (2 ^ 32 - 1) ∧ ∀ b, b ≠ ctrR 0x088 → m'.reg b = m.reg b

/-- No collective that has not ended waits at level C for a queue pair of this member (R411, R417). -/
def Module.noLevelC (m : Module) (q : Nat) : Prop :=
  ∀ c ∈ m.rwk.colls, c.ended = none → ∀ g, m.groupOf c.grp = some g →
    ¬ (g.levelC = true ∧ g.lcmember = m.member ∧ ∃ p ∈ g.peers, p.2 = q)

/-- The firing of a match entry has run, with a status; it still holds its entry (R57, R58). -/
def HasRun (m : Module) (k : FKey) (st : Nat) : Prop := ∃ e, m.entry k = some e ∧ e.ran = true ∧ e.status = st

/-- No combining entry is pending, so that memory is as every reader sees it (R310). -/
def Module.noDeltas (m : Module) : Prop := ∀ q ∈ m.querns, q.comb = []

/-- No hand-over of a fused group passes a tensor of this firing over a weave pipe (R344). -/
def Module.noPipe (m : Module) (k : FKey) : Prop := ∀ g ∈ m.groups, g.prod ≠ k ∧ g.cons ≠ k

/-- The byte keys written for the result on port `r` of a firing (8 or 9) meet no operand and no other result of it, wherever tables and
memory stand (R186, R259). -/
def Module.apartAt (m : Module) (f : Firing) (r : Nat) (keys : List (Nat × Nat)) : Prop :=
  ∀ mem regs free querns insts,
    ({ m with mem := mem, regs := regs, free := free, querns := querns, insts := insts } : Module).shared f r keys = []

/-- The byte keys of spans of a placed result. -/
def Placed.keys (p : Placed) (spans : List (Nat × Nat)) : List (Nat × Nat) := spans.map fun s => (p.key + s.1, p.key + s.2)

/-- A placed result overlaps no operand and no other result. -/
def Module.apart (m : Module) (f : Firing) (r : Nat) (p : Placed) : Prop := m.apartAt f r (p.keys (p.t.spans 0))

/-- What a firing may change besides its own results: registers, halls, querns, its instance's notes, broken words of its tile, notices
and the count of free values; time goes on where its accesses wait for a regulator (R312). Power, keys, fabric, guild, benches, tables,
tokens and collectives stand. -/
def FiringFrame (m m' : Module) : Prop :=
  m'.pwr = m.pwr ∧ m.ltime ≤ m'.ltime ∧ m'.asy = m.asy ∧ m'.guild = m.guild ∧ m'.benches = m.benches ∧ m'.rwk = m.rwk ∧
  m'.tables = m.tables ∧ m'.tokens = m.tokens

/-- The token that a firing sends to a destination (R51). -/
def Firing.tokenTo (f : Firing) (me : Nat) (d : Dest) (gen : BitVec 16) (kind st value : Nat) : Token :=
  { inst := f.i.num, node := BitVec.ofNat 16 d.node, gen := gen, pk := BitVec.ofNat 8 (d.port + 8 * kind), status := BitVec.ofNat 8 st
    ptn := BitVec.ofNat 8 f.i.ptn, member := BitVec.ofNat 8 (if d.remote then d.member else me), value := BitVec.ofNat 32 value }

/-- The valid destinations of a list on this member (R43). -/
def localDests (me : Nat) (ds : List Dest) : List Dest := ds.filter fun d => d.valid && (!d.remote || d.member % 256 == me)

/-- The operand bytes of the answer in the mailbox (R477). -/
def Module.mbAnswer (m : Module) : List Byte := slice m.mailbox 16 (fieldAt m.mailbox 4 4)

/-! ### Commands of the host (R349–R366) -/

/-- A capsule that arrived on a queue pair of this member. -/
def Module.originOf (m : Module) (qp : Nat) (c : Capsule) : Origin := { own := some (deliveryOf qp c), recv := m.member, capsule := c }

/-- A capsule of a known command code, taken by its queue pair and without a fault, is counted and checked no further (R352). -/
def Module.takes (m : Module) (opc qp : Nat) (c : Capsule) : Prop :=
  m.takesCapsules qp = true ∧ c.opc.toNat = opc ∧ capsuleFault c = none

/-- The module once it has counted a capsule. -/
def Module.received (m : Module) : Module := m.count (ctrR 0x078) 0 32

/-- This member admits the capsule now: it is without a fault, this is its admitting member, no record holds its request ID, and it
need not wait for a tally entry, for its twin or for staging (R352, R353, R363–R368, R456). -/
def Module.admitsHere (m : Module) (opc qp : Nat) (c : Capsule) : Prop :=
  m.takes opc qp c ∧ m.ptns.length = 8 ∧
  let p := c.ptn.toNat % 8
  let r := m.received
  m.admitter c (m.effectful c) = m.member ∧ r.admitter c (r.effectful c) = m.member ∧ m.tallyOf p c.reqid = none ∧
  r.lateFault (m.originOf qp c) = none ∧ (m.ptn p).tally.length < 1048576 ∧ (m.effectful c = true → m.guild.twinCopy = false) ∧
  (opc = 0x20 → (m.ptn p).cand = none) ∧ m.ctr.stagedBytes + stagingOf c ≤ 2 ^ 30 ∧
  (∀ x ∈ (m.ptn p).waitCmds, x.capsule.reqid ≠ c.reqid) ∧ ∀ x ∈ (m.ptn p).requests, x.reqid ≠ c.reqid

/-- The module once it has entered an admitted capsule in its tally, and in that of its twin where it is effectful (R363, R366). -/
def Module.tallied (m : Module) (qp : Nat) (c : Capsule) : Module :=
  m.received.enter (m.originOf qp c) m.ltime 0 [] fun m _ _ => m

/-- The tally holds the request as DONE with a status; a deadline that has passed makes OK LATE (R360, R363). -/
def Module.doneWith (m : Module) (p : Nat) (reqid : Word) (st : Nat) : Prop :=
  ∃ e, m.tallyOf p reqid = some e ∧ e.done = true ∧ (e.status = st ∨ (st = stOk ∧ e.status = stLate))

/-- A command that several members share in is DONE where it has no other member to wait for, and waits for those it has (R94, R162). -/
def Module.sharedWith (m : Module) (p : Nat) (reqid : Word) (others : List Nat) : Prop :=
  (others = [] → m.doneWith p reqid stOk) ∧
  (others ≠ [] → ∃ x ∈ (m.ptn p).waitCmds, x.capsule.reqid = reqid ∧ x.waits = others ∧ x.status = stOk)

/-- A completion entry of this kind has gone out on a queue pair, or waits on it (R457). -/
def Module.answered (m : Module) (qp : Nat) (P : Completion → Prop) : Prop :=
  ∃ x, P x ∧ ((∃ q, m.qp qp = some q ∧ QEvent.completion x ∈ q.outq) ∨ ∃ a, Out.entry qp a (.completion x) ∈ m.sent)

/-! ### Resets -/

/-- The commands by which a reset or a change of the input power can come: the power and reset events, and the writes that can
reach PWR_RST (R493, R502). -/
def mayReset (c : Instr) : Bool :=
  match c with
  | .powerApplied _ | .powerLoss | .inputRange _ | .modRstAssert | .modRstRelease _ | .pwrRstCold | .pwrRstWarm => true
  | .registerWrite _ _ _ | .hostRdmaWrite _ _ _ _ | .sidebandPrivateWrite _ => true
  | _ => false

end Sys2Proof.Machine
end

