-- ==== Sys2Proof/Certificates/Slice0/Obligations.lean ====
section
/-! DEFINITION. What is claimed of the block: one definition for each obligation. -/

open Sys2Proof Sys2Proof.Machine

/-! ### Power, resets and start-up (R493–R515) -/

/-- POWER_APPLIED with an input of 40.0 to 50.0 V on a module without power leaves a module whose every field is at its reset
value, but that the input and MOD_PWRGD are high, VIN holds the input, MOD_RST_N stands, and the fuses (identity seed erased, hard
repairs used) stand with the model's own fields (`free`, `sent`; log entry 1). In the extended range INPUT_RANGE is posted besides.
On a powered module the command leaves the module as it is. POWER_LOSS leaves every field at its reset value, but the fuses and
the model's own fields: every pair is THROUGH, and memory, registers, tally, keys and sessions are gone. -/
def Obligations.PowerOnAndPowerLoss : Prop :=
  ∀ (m : Module) (mv : Nat),
    (m.pwr.input = false → 40000 ≤ mv → mv ≤ 50000 →
      Leaves (.powerApplied mv) m
        { free := m.free, sent := m.sent, asy := { seedErased := m.asy.seedErased }
          querns := m.querns.map fun q => { hardUsed := q.hardUsed }
          pwr := { input := true, pwrgd := true, rstLow := m.pwr.rstLow, vin := mv } }) ∧
    (m.pwr.input = false → (38000 ≤ mv ∧ mv < 40000 ∨ 50000 < mv ∧ mv ≤ 52000) →
      Completes (.powerApplied mv) m fun m' =>
        m' = { free := m.free, sent := m.sent ++ [.ibi 0x02], asy := { seedErased := m.asy.seedErased }
               querns := m.querns.map fun q => { hardUsed := q.hardUsed }
               pwr := { input := true, pwrgd := true, rstLow := m.pwr.rstLow, vin := mv, extended := true }
               ctr := { posted := [({ sev := 2, code := 0x0708, member := 0, ptn := none, nseq := 0, obj := 0, ltime := 0
                                      detail := slice (leBytes 1 0xFF ++ leBytes 2 mv) 0 40 }, [])]
                        nseq := 1 } }) ∧
    (m.pwr.input = true → Leaves (.powerApplied mv) m m) ∧
    Leaves .powerLoss m
      { free := m.free, sent := m.sent, asy := { seedErased := m.asy.seedErased }
        querns := m.querns.map fun q => { hardUsed := q.hardUsed } }

/-- INPUT_RANGE on a powered module: in the extended range (38.0 to 40.0 V, 50.0 to 52.0 V) VIN holds the input and the module is
in an excursion; at the first such command of an excursion exactly one notice INPUT_RANGE (0x0708, SEV 2) with the input in mV is
posted, and at a later one none. Below 38.0 V or above 52.0 V the command does what POWER_LOSS does. INPUT_IN_RANGE with 40.0 to
50.0 V ends the excursion, and changes nothing but VIN. Without power neither changes anything. -/
def Obligations.InputRangeExcursion : Prop :=
  ∀ (m : Module) (mv : Nat),
    (m.pwr.input = true → (38000 ≤ mv ∧ mv < 40000 ∨ 50000 < mv ∧ mv ≤ 52000) →
      Completes (.inputRange mv) m fun m' =>
        m'.pwr = { m.pwr with vin := mv, extended := true } ∧
        (m.pwr.extended = true → m' = { m with pwr := m'.pwr }) ∧
        (m.pwr.extended = false →
          PostsOne m m' 2 0x0708 none 0 (leBytes 1 0xFF ++ leBytes 2 mv) ∧
          m' = { m with pwr := m'.pwr, ctr := { m.ctr with posted := m'.ctr.posted, nseq := m'.ctr.nseq }, sent := m.sent ++ [.ibi 0x02] })) ∧
    (m.pwr.input = true → (mv < 38000 ∨ 52000 < mv) → ∃ m' : Module, Leaves (.inputRange mv) m m' ∧ Leaves .powerLoss m m') ∧
    (m.pwr.input = true → 40000 ≤ mv → mv ≤ 50000 →
      Leaves (.inputInRange mv) m { m with pwr := { m.pwr with extended := false, vin := mv } }) ∧
    (m.pwr.input = false → Leaves (.inputRange mv) m m ∧ Leaves (.inputInRange mv) m m)

/-- MOD_RST_ASSERT on a powered module leaves OFF with RSTCAUSE 1, every register at its reset value, no memory content, the
fuses as they were, every other unit blank, and local time standing; a change of state raises the in-band interrupt 0x01. Without
power only the pin changes. MOD_RST_RELEASE on a powered module whose MOD_RST_N is low: with the self-tests passed and the
identity seed present it enters BOOT and waits at step 2, with local time zero where RSTCAUSE is 1, else standing (R31), and changes nothing else; with a failed self-test
it is FAULTED with BOOTSTEP 1 and FAIL 1, and without the seed it is FAULTED with BOOTSTEP 2 and FAIL 4. With MOD_RST_N high already,
or without power, it changes no more than the pin. -/
def Obligations.ModRstPinResets : Prop :=
  ∀ m : Module,
    (m.pwr.input = true →
      Completes .modRstAssert m fun m' =>
        m'.pwr.mode = .off ∧ m'.pwr.rstLow = true ∧ m'.pwr.rstCause = 1 ∧ m'.pwr.input = true ∧ m'.pwr.pwrgd = m.pwr.pwrgd ∧
        m'.regs = [] ∧ m'.mem = [] ∧ m'.ltime = m.ltime ∧ m'.asy = { seedErased := m.asy.seedErased } ∧
        m'.fab = { through := m.fab.through } ∧
        m'.querns = m.querns.map (fun q => { hardUsed := q.hardUsed }) ∧
        m'.sent = m.sent ++ (if m.pwr.mode = .off then [] else [.ibi 0x01]) ∧
        m' = { pwr := m'.pwr, ltime := m'.ltime, asy := m'.asy, fab := m'.fab, querns := m'.querns, sent := m'.sent, free := m.free }) ∧
    (m.pwr.input = false → Leaves .modRstAssert m { m with pwr := { m.pwr with rstLow := true } }) ∧
    (m.pwr.input = true → m.pwr.rstLow = true → m.pwr.mode = .off →
      (m.asy.seedErased = false →
        Leaves (.modRstRelease true) m
          { m with ltime := if m.pwr.rstCause = 1 then 0 else m.ltime, pwr := { m.pwr with rstLow := false, mode := .boot }, asy := { m.asy with bootstep := 2 }
                   sent := m.sent ++ [.ibi 0x01] }) ∧
      (m.asy.seedErased = true →
        Completes (.modRstRelease true) m fun m' => m'.pwr.mode = .faulted ∧ m'.asy = { m.asy with bootstep := 2, fail := 4 }) ∧
      Completes (.modRstRelease false) m fun m' => m'.pwr.mode = .faulted ∧ m'.asy = { m.asy with bootstep := 1, fail := 1 }) ∧
    (∀ ok : Bool, m.pwr.input = false ∨ m.pwr.rstLow = false →
      Leaves (.modRstRelease ok) m { m with pwr := { m.pwr with rstLow := false } })

/-- PWR_RST_COLD on a powered module with MOD_RST_N high leaves every register at its reset value, no memory content, local time
zero, RSTCAUSE 2 and the fuses, in BOOT at step 2, or, where its self-tests fail (free, log entry 41) or the identity seed is gone, in
FAULTED; without power or with MOD_RST_N low it changes nothing. PWR_RST_WARM in a state other than OFF and FAULTED keeps local time,
the RWS bits of every register (every other bit takes its reset value) and the event log of every hall, leaves no memory
content and RSTCAUSE 3, and leads through BOOT likewise; in OFF and FAULTED it changes nothing. The register map is in canonical form
(the invariant CanonicalFormsAreKept). -/
def Obligations.RegisterResetsKeepWhatR502Says : Prop :=
  ∀ m : Module, SparseWf regDefault m.regs →
    (m.pwr.input = true → m.pwr.rstLow = false →
      Completes .pwrRstCold m fun m' =>
        (m'.pwr.mode = .boot ∧ m'.asy.bootstep = 2 ∨ m'.pwr.mode = .faulted) ∧ (m.asy.seedErased = true → m'.pwr.mode = .faulted) ∧
        m'.pwr.rstCause = 2 ∧ m'.ltime = 0 ∧ m'.regs = [] ∧ m'.mem = [] ∧ m'.asy.seedErased = m.asy.seedErased ∧
        (∀ s, (m'.quern s).hardUsed = (m.quern s).hardUsed)) ∧
    (m.pwr.input = false ∨ m.pwr.rstLow = true → Leaves .pwrRstCold m m) ∧
    (m.pwr.mode ≠ .off → m.pwr.mode ≠ .faulted →
      Completes .pwrRstWarm m fun m' =>
        (m'.pwr.mode = .boot ∧ m'.asy.bootstep = 2 ∨ m'.pwr.mode = .faulted) ∧ (m.asy.seedErased = true → m'.pwr.mode = .faulted) ∧
        m'.pwr.rstCause = 3 ∧ m'.ltime = m.ltime ∧ m'.mem = [] ∧
        (∀ a, m'.reg a = (m.reg a &&& BitVec.ofNat 64 (rwsMask a)) ||| (regDefault a &&& ~~~BitVec.ofNat 64 (rwsMask a))) ∧
        (m.halls.length = 4 → ∀ h, h < 4 → (m'.hall h).elog = (m.hall h).elog ∧ (m'.hall h).elogHead = (m.hall h).elogHead) ∧
        m'.asy.seedErased = m.asy.seedErased ∧ ∀ s, (m'.quern s).hardUsed = (m.quern s).hardUsed) ∧
    (m.pwr.mode = .off ∨ m.pwr.mode = .faulted → Leaves .pwrRstWarm m m)

/-- PWR_CMD_DRAIN on a JOINED member with a live instance makes it DRAINING from the present local time on, with its instances
and local time as they were; in any state other than JOINED or QUARANTINE it changes nothing. PWR_CMD_RELEASE in BOOT with BOOTSTEP 5
enters TRAINING with BOOTSTEP 6 and the hallmarks locked, raises the in-band interrupt 0x01 and changes nothing else; at any
other step, or in any other state, it changes nothing. -/
def Obligations.PwrCmdDrainAndRelease : Prop :=
  ∀ m : Module,
    (m.pwr.mode = .joined → m.insts ≠ [] →
      Completes .pwrCmdDrain m fun m' =>
        m'.pwr.mode = .draining ∧ m'.pwr.drainAt = some m.ltime ∧ m'.insts = m.insts ∧ m'.ltime = m.ltime ∧ m'.mem = m.mem ∧
        m'.regs = m.regs ∧ .ibi 0x01 ∈ m'.sent) ∧
    (m.pwr.mode ≠ .joined → m.pwr.mode ≠ .quarantine → Leaves .pwrCmdDrain m m) ∧
    (m.pwr.mode = .boot → m.asy.bootstep = 5 →
      Leaves .pwrCmdRelease m
        { m with pwr := { m.pwr with mode := .training }, asy := { m.asy with bootstep := 6, locked := true }, sent := m.sent ++ [.ibi 0x01] }) ∧
    (m.pwr.mode ≠ .boot ∨ m.asy.bootstep ≠ 5 → Leaves .pwrCmdRelease m m)

/-- TRAINING_DONE in TRAINING, once: every stack of the operand's set is withdrawn with WDCAUSE 1 and every other one is
trained, each with its lane-spare byte; in every hall the out-of-service set is the operand's, and, where no hall has more than
four benches out of service, each enabled bench carries the physical bench of R437 (a good one its own number, a bad one the next good
spare); memory is up. The next state is QUARANTINE where a valid configuration and an UP port (or a guild of one) let training end,
else TRAINING. A hall with more than four bad benches makes the module FAULTED. In any other state nothing changes. -/
def Obligations.TrainingDoneTrainsOrWithdraws : Prop :=
  ∀ (m : Module) (untrained : BitVec 20) (lanes : List Byte) (bad : List (BitVec 68)),
    m.shaped → lanes.length = 20 → bad.length = 4 →
    (m.pwr.mode = .training → m.pwr.memoryUp = false → (∀ h, h < 4 → popcount 68 (bad.getD h 0).toNat ≤ 4) →
      Completes (.trainingDone untrained lanes bad) m fun m' =>
        m'.pwr.memoryUp = true ∧
        (m'.pwr.mode = (if m.fld (fabR 0x000) 14 1 = 1 ∧ (m.guildSize = 1 ∨ ∃ x ∈ m.fab.ports, x.state = 4) then .quarantine else .training)) ∧
        (∀ s, s < 20 →
          (m'.quern s).trained = (if untrained.toNat.testBit s then (m.quern s).trained else true) ∧
          (m'.quern s).withdrawn = (if untrained.toNat.testBit s then true else (m.quern s).withdrawn) ∧
          (untrained.toNat.testBit s = true → (m'.quern s).wdcause = 1) ∧
          (m'.quern s).lanesp = (lanes.getD s 0).toNat) ∧
        ∀ h, h < 4 → (m'.hall h).oos = bad.getD h 0 ∧
          ∀ i, i < 64 → (m'.bench (64 * h + i)).phys =
            if (bad.getD h 0).toNat.testBit i then
              ((List.range 68).filter fun x => decide (64 ≤ x) && !(bad.getD h 0).toNat.testBit x).getD
                ((List.range i).countP fun x => (bad.getD h 0).toNat.testBit x) i
            else i) ∧
    (m.pwr.mode = .training → m.pwr.memoryUp = false → (∃ h, h < 4 ∧ 4 < popcount 68 (bad.getD h 0).toNat) →
      Completes (.trainingDone untrained lanes bad) m fun m' => m'.pwr.mode = .faulted) ∧
    (m.pwr.mode ≠ .training ∨ m.pwr.memoryUp = true → Leaves (.trainingDone untrained lanes bad) m m)

/-- THERMAL_SAMPLE on a powered module, with no hall at 105 °C or above and the module neither OFF nor FAULTED: where no stack
reads 105 °C or above, every stack's and hall's temperature holds its sample; a stack that is not withdrawn is at a step no lower than
the number of its thresholds (95, 98, 101 °C) that the sample reaches, and exactly at that number where it exceeds the step it was
at, and a hall likewise (100, 102, 104 and 105 °C) with the clock 1,250, 1,000, 750, 500 MHz of its level. Memory, instances, local time
and the module state stand. Whatever the samples, a stack that reads 105 °C or above is withdrawn after the command, with WDCAUSE 2
where it was not withdrawn before. Without power nothing changes. HALL_TRIP in a state other than OFF and FAULTED, with a temperature of
110 °C or more, or of 105 °C or more while the hall has been that hot: the module is FAULTED and in no membership, no live instance and
no link is left, the hall's temperature holds the sample, no match entry of it is left, and the in-band interrupt 0x01 is raised. In OFF
and FAULTED it changes nothing. -/
def Obligations.ThermalSampleThrottles : Prop :=
  ∀ (m : Module) (temps halls : List (BitVec 16)), m.shaped → temps.length = 20 → halls.length = 4 →
    (m.pwr.input = true → m.pwr.mode ≠ .off → m.pwr.mode ≠ .faulted → (∀ t ∈ temps, t.toInt < 840) → (∀ t ∈ halls, t.toInt < 840) →
      Completes (.thermalSample temps halls) m fun m' =>
        (∀ s, s < 20 →
          (m'.quern s).temp = temps.getD s 0 ∧ (m'.quern s).withdrawn = (m.quern s).withdrawn ∧
          ((m.quern s).withdrawn = false →
            let reached := ([760, 784, 808] : List Int).countP fun x => decide (x ≤ (temps.getD s 0).toInt)
            reached ≤ (m'.quern s).step ∧ (m'.quern s).step ≤ max reached (m.quern s).step ∧
            ((m.quern s).step ≤ reached → (m'.quern s).step = reached))) ∧
        (∀ h, h < 4 →
          (m'.hall h).temp = halls.getD h 0 ∧
          let reached := ([800, 816, 832, 840] : List Int).countP fun x => decide (x ≤ (halls.getD h 0).toInt)
          reached ≤ (m'.hall h).level ∧ (m'.hall h).level ≤ max reached (m.hall h).level ∧
          ((m.hall h).level ≤ reached → (m'.hall h).level = reached) ∧
          (m'.hall h).clock = [1250, 1000, 750, 500, 0].getD (m'.hall h).level 0) ∧
        m'.mem = m.mem ∧ m'.insts = m.insts ∧ m'.ltime = m.ltime ∧ m'.pwr = m.pwr ∧ m'.benches = m.benches) ∧
    (m.pwr.input = true →
      Completes (.thermalSample temps halls) m fun m' =>
        ∀ s, s < 20 → 840 ≤ (temps.getD s 0).toInt →
          (m'.quern s).withdrawn = true ∧ ((m.quern s).withdrawn = false → (m'.quern s).wdcause = 2)) ∧
    (m.pwr.input = false → Leaves (.thermalSample temps halls) m m) ∧
    (∀ (h : HallId) (t : BitVec 16),
      (m.pwr.mode ≠ .off → m.pwr.mode ≠ .faulted → (880 ≤ t.toInt ∨ 840 ≤ t.toInt ∧ (m.hall h.val).hotAt.isSome = true) →
        Completes (.hallTrip h t) m fun m' =>
          m'.pwr.mode = .faulted ∧ m'.guild.joined = 0 ∧ m'.insts = [] ∧ m'.tokens = [] ∧ m'.ctr.posted = [] ∧
          m'.ctr.link = [false, false, false, false] ∧ (m'.hall h.val).temp = t ∧ (m'.hall h.val).entries = [] ∧ .ibi 0x01 ∈ m'.sent) ∧
      (m.pwr.mode = .off ∨ m.pwr.mode = .faulted → Leaves (.hallTrip h t) m m))

/-- POWER_CAP_STEP on a powered module outside the extended range, with the average in W: over PWR_CAP, and with a lower step left,
the cap step goes up by one, so that every hall runs at the lower of its own clock and 1,250, 1,000, 750, 500 or 250 MHz for
the step; POWER_CAP (0x0707) is posted exactly when throttling begins. Not over the cap but 5% or more below it, and 10 ms after the
last step, the cap step goes down by one. Otherwise the step stands. PIN holds the average in every case, and memory, instances, local
time, halls and benches stand. Without power nothing changes. -/
def Obligations.PowerCapStepsClocks : Prop :=
  ∀ (m : Module) (w : Nat),
    (m.pwr.input = true → m.pwr.extended = false →
      Completes (.powerCapStep w) m fun m' =>
        m'.pwr.pin_ = w ∧ m'.mem = m.mem ∧ m'.insts = m.insts ∧ m'.ltime = m.ltime ∧ m'.halls = m.halls ∧ m'.benches = m.benches ∧
        (m.fld (pwrR 0x020) 0 12 < w → m.pwr.capStep < 4 →
          m'.pwr.capStep = m.pwr.capStep + 1 ∧ m'.pwr.capLow = some m.ltime ∧
          (∀ h, m'.hallClock h = min (m.hall h).clock ([1250, 1000, 750, 500, 250].getD (m.pwr.capStep + 1) 250)) ∧
          (m.pwr.capStep = 0 →
            PostsOne m m' 2 0x0707 none 0 (leBytes 1 0xFF ++ leBytes 2 (m.fld (pwrR 0x020) 0 12) ++ leBytes 2 w)) ∧
          (m.pwr.capStep ≠ 0 → m'.ctr = m.ctr)) ∧
        (m.fld (pwrR 0x020) 0 12 < w → 4 ≤ m.pwr.capStep → m'.pwr.capStep = m.pwr.capStep ∧ m'.ctr = m.ctr) ∧
        (w ≤ m.fld (pwrR 0x020) 0 12 →
          m'.ctr = m.ctr ∧
          m'.pwr.capStep =
            if 100 * w ≤ 95 * m.fld (pwrR 0x020) 0 12 ∧ (∀ t, m.pwr.capLow = some t → t + 10000000 ≤ m.ltime) then m.pwr.capStep - 1
            else m.pwr.capStep)) ∧
    (m.pwr.input = false → Leaves (.powerCapStep w) m m)

/-- PWR_T1500D_WRITE with PWR_T1500.STACK naming stack s, and STACK1500 on a powered module with PWR_TEST.J1500 = 1 and stack s:
the shift word of stack s is a free value (log entry 42); the hard repairs used never fall, stay within those left as built where they
were, and stand outside BOOT, DRAINING and FAULTED; every other stack and every other unit stands. STACK1500 shifts the word out on the
TAP. With a stack number over 19, or, for STACK1500, J1500 0 or no power, nothing changes. -/
def Obligations.Ieee1500Ports : Prop :=
  ∀ (m : Module) (v : Word) (s : Nat),
    (m.fld (pwrR 0x078) 0 5 = s → s < 20 → m.querns.length = 20 →
      Completes (.pwrT1500dWrite v) m fun m' =>
        m' = { m with querns := m'.querns, free := m.free + 1 } ∧
        m'.querns = m.querns.modify s (fun q => { q with shift1500 := (m'.quern s).shift1500, hardUsed := (m'.quern s).hardUsed }) ∧
        (m.quern s).hardUsed ≤ (m'.quern s).hardUsed ∧
        ((m.quern s).hardUsed ≤ (Config.hardLeft s).toNat → (m'.quern s).hardUsed ≤ (Config.hardLeft s).toNat) ∧
        (m.pwr.mode ≠ .boot → m.pwr.mode ≠ .draining → m.pwr.mode ≠ .faulted → (m'.quern s).hardUsed = (m.quern s).hardUsed)) ∧
    (20 ≤ m.fld (pwrR 0x078) 0 5 → Leaves (.pwrT1500dWrite v) m m) ∧
    (∀ k : BitVec 5, k.toNat = s → s < 20 → m.pwr.pwrgd = true → m.fld (pwrR 0x028) 0 1 = 1 → m.querns.length = 20 →
      Completes (.stack1500 k v) m fun m' =>
        m' = { m with querns := m'.querns, free := m.free + 1, pwr := { m.pwr with tapIr := 4 }
                      sent := m.sent ++ [.tap 64 (m'.quern s).shift1500.toNat] } ∧
        m'.querns = m.querns.modify s (fun q => { q with shift1500 := (m'.quern s).shift1500, hardUsed := (m'.quern s).hardUsed }) ∧
        (m.quern s).hardUsed ≤ (m'.quern s).hardUsed ∧
        ((m.quern s).hardUsed ≤ (Config.hardLeft s).toNat → (m'.quern s).hardUsed ≤ (Config.hardLeft s).toNat) ∧
        (m.pwr.mode ≠ .boot → m.pwr.mode ≠ .draining → m.pwr.mode ≠ .faulted → (m'.quern s).hardUsed = (m.quern s).hardUsed)) ∧
    (∀ k : BitVec 5, m.pwr.pwrgd = false ∨ m.fld (pwrR 0x028) 0 1 = 0 ∨ 20 ≤ k.toNat → Leaves (.stack1500 k v) m m)

/-! ### Sideband, test access port and register space (R8–R10, R103, R489, R504–R507, R516–R520) -/

/-- With MOD_PWRGD high, IDCODE puts its instruction in force and shifts out 0xB964_013F, 32 bits; BYPASS puts its instruction in
force and shifts out one bit; SAMPLE/PRELOAD loads the boundary cells and shifts out 120 sampled bits; EXTEST is accepted in BOOT and
changes nothing in any other state. None of them, and no TAP_RESET (the reset of the controller, log entry 47), changes
anything but the TAP's instruction, its cells, what is shifted out and the model's count of free values: no assay state, key, fuse or
memory. SETDASA (R504) likewise only sets the dynamic address. Without MOD_PWRGD none but TAP_RESET changes anything. -/
def Obligations.TapAndSetdasa : Prop :=
  ∀ m : Module,
    (m.pwr.pwrgd = true →
      Leaves .idcode m { m with pwr := { m.pwr with tapIr := 1 }, sent := m.sent ++ [.tap 32 0xB964013F] } ∧
      Leaves .bypass m { m with pwr := { m.pwr with tapIr := 0 }, sent := m.sent ++ [.tap 1 0] } ∧
      (∀ cells : BitVec 120, Completes (.samplePreload cells) m fun m' =>
        ∃ v, v < 2 ^ 120 ∧
          m' = { m with pwr := { m.pwr with tapIr := 2, cells := cells }, sent := m.sent ++ [.tap 120 v], free := m.free + 1 }) ∧
      (m.pwr.mode = .boot → Leaves .extest m { m with pwr := { m.pwr with tapIr := 3 } }) ∧
      ∀ a : BitVec 7, Leaves (.setdasa a) m { m with pwr := { m.pwr with dynAddr := some a } }) ∧
    Leaves .tapReset m { m with pwr := { m.pwr with tapIr := 1 } } ∧
    (m.pwr.mode ≠ .boot → Leaves .extest m m) ∧
    (m.pwr.pwrgd = false →
      Leaves .idcode m m ∧ Leaves .bypass m m ∧ Leaves .extest m m ∧ (∀ cells, Leaves (.samplePreload cells) m m) ∧
      ∀ a, Leaves (.setdasa a) m m)

/-- With MOD_PWRGD high: OP 0x01 with an address and a length that the sideband takes sets a read up and changes nothing else; OP
0x02 with data, at tile SRAM addresses, stores the data there (in the short area bits [19:0] of each 32-bit word), ends the double-bit
errors of the words that it writes, and changes nothing else but the status 0x00; any other OP, a
misaligned address, or a length of 0 or over 64 words performs nothing and leaves status 0x01. After a read set-up of register words,
a private read returns status 0x00 and each register as it reads, and changes nothing; with none set up it returns the last status.
Without MOD_PWRGD nothing changes. -/
def Obligations.SidebandTransfers : Prop :=
  ∀ (m : Module) (a n : Nat) (data : List Byte), a < 2 ^ 64 → n < 2 ^ 16 →
    (m.pwr.pwrgd = true → m.sidebandOk a n = true →
      Leaves (.sidebandPrivateWrite (leBytes 1 1 ++ leBytes 8 a ++ leBytes 2 n)) m { m with pwr := { m.pwr with setup := some (a, n), sbStatus := 0 } }) ∧
    (m.pwr.pwrgd = true → m.sidebandOk a n = true → data.length = 8 * n → 0x18000000000 ≤ a → a + 8 * n ≤ 0x18080000000 →
      Leaves (.sidebandPrivateWrite (leBytes 1 2 ++ leBytes 8 a ++ leBytes 2 n ++ data)) m
        { m with mem := m.mem.writeN a ((List.range n).flatMap fun i =>
                   let w := fieldAt data (8 * i) 8
                   leBytes 8 (if 0x5FC000 ≤ (a + 8 * i) % 0x800000 then w % 2 ^ 20 + w / 2 ^ 32 % 2 ^ 20 * 2 ^ 32 else w))
                 tileBad := m.tileBad.filter fun w => !decide (a ≤ w * 8 ∧ w * 8 + 8 ≤ a + 8 * n)
                 pwr := { m.pwr with setup := none, sbStatus := 0 } }) ∧
    (∀ op : Byte, m.pwr.pwrgd = true → (op ≠ 1 ∧ op ≠ 2 ∨ a % 8 ≠ 0 ∨ n = 0 ∨ 64 < n) →
      Leaves (.sidebandPrivateWrite ([op] ++ leBytes 8 a ++ leBytes 2 n ++ data)) m
        { m with pwr := { m.pwr with setup := none, sbStatus := 1 } }) ∧
    (m.pwr.pwrgd = true → m.pwr.setup = some (a, n) → m.sidebandOk a n = true → 0x1FF00000000 ≤ a →
      Leaves .sidebandPrivateRead m
        { m with free := m.free + 1, sent := m.sent ++ [.sideband 0 ((List.range n).map fun i => m.readReg (a + 8 * i))] }) ∧
    (m.pwr.pwrgd = true → m.pwr.setup = none →
      Leaves .sidebandPrivateRead m { m with sent := m.sent ++ [.sideband m.pwr.sbStatus []] }) ∧
    (∀ bytes, m.pwr.pwrgd = false → Leaves (.sidebandPrivateWrite bytes) m m ∧ Leaves .sidebandPrivateRead m m)

/-- REGISTER_WRITE by a master that the access tables allow, on a module that the address reaches (R499, R504): CHIP_SCRATCH reads back
the whole word written; PWR_CAP holds the written 12 bits moved to the nearest of 1,200 to 2,700 W; PTNp_DFLOOR holds the larger
of the old and the written value; a write with bit 63 set clears HAL_SHALT, and one without leaves it; a CHIP offset other than
0x018 is not written; FAB_GCFG takes its 15 bits in BOOT and is not written in any other state. In each case no other register and no
other field of the module changes. A master of no partition that is denied leaves the register as it is, and changes registers of ASY only.
The register map is in canonical form (the invariant CanonicalFormsAreKept). -/
def Obligations.RegisterWritesFollowAccessCodes : Prop :=
  ∀ (m : Module) (M : BitVec 12) (v : Word), SparseWf regDefault m.regs →
    (∀ a, a % 8 = 0 → m.reaches a = true → m.regDenied M.toNat a true = none →
      (a = chipR 0x018 → Completes (.registerWrite M a v) m fun m' =>
        m'.reg a = v ∧ m'.readReg a = v ∧ (∀ b, b ≠ a → m'.reg b = m.reg b) ∧ m' = { m with regs := m'.regs }) ∧
      (a = pwrR 0x020 → Completes (.registerWrite M a v) m fun m' =>
        m'.fld a 0 12 = min 2700 (max 1200 (v.toNat % 4096)) ∧ (∀ b, b ≠ a → m'.reg b = m.reg b) ∧ m' = { m with regs := m'.regs }) ∧
      (∀ p, p < 8 → a = ptnR p 0x18 → Completes (.registerWrite M a v) m fun m' =>
        (m'.readReg a).toNat = max (m.reg a).toNat v.toNat ∧ (∀ b, b ≠ a → m'.reg b = m.reg b) ∧ m' = { m with regs := m'.regs }) ∧
      (∀ h, h < 4 → a = halR h 0x238 → Completes (.registerWrite M a v) m fun m' =>
        m'.reg a = (if v.getLsbD 63 then 0 else m.reg a) ∧ (∀ b, b ≠ a → m'.reg b = m.reg b) ∧ m' = { m with regs := m'.regs }) ∧
      (∀ off, off < 0x1000 → off ≠ 0x018 → a = chipR off → Leaves (.registerWrite M a v) m m) ∧
      (a = fabR 0x000 →
        (m.pwr.mode = .boot → Completes (.registerWrite M a v) m fun m' =>
          m'.fld a 0 15 = v.toNat % 2 ^ 15 ∧ (∀ b, b ≠ a → m'.reg b = m.reg b) ∧ m' = { m with regs := m'.regs }) ∧
        (m.pwr.mode ≠ .boot → Leaves (.registerWrite M a v) m m))) ∧
    (∀ a, a % 8 = 0 → m.reaches a = true → (m.regDenied M.toNat a true).isSome = true → masterPtn M.toNat = none →
      Completes (.registerWrite M a v) m fun m' =>
        (∀ b, b ≠ asyR 0x028 → b ≠ asyR 0x030 → m'.reg b = m.reg b) ∧ m' = { m with regs := m'.regs })

/-- REGISTER_BAD_ACCESS of a length other than 8 bytes, or at an address that is no multiple of 8, anywhere in register space, on
a module that the address reaches, by a master other than the management path (whose accesses are refused by NAK, R461): a read returns
0xFFFF_FFFF_FFFF_FFFF and a write sends nothing, and neither changes any field of the module; a write by REGISTER_WRITE to an
unaligned address changes nothing either. Where a firing that has not ended made the access, it has run with FAULT_ADDRESS; memory and
power, keys, guild, benches, tables and tokens stand, as does every register but those that show the status of a bench's last firing
(R216, R280). A register, and its value wherever it is read or written, is a word of 64 bits, by type. -/
def Obligations.UnalignedRegisterAccessesAreNotPerformed : Prop :=
  ∀ (m : Module) (M : BitVec 12) (a len : Nat),
    (a % 8 ≠ 0 → ∀ v, Leaves (.registerWrite M a v) m m) ∧
    (m.reaches a = true → 0x1FF00000000 ≤ a → a < 0x20000000000 → (len ≠ 8 ∨ a % 8 ≠ 0) → M.toNat ≠ mgmtMaster →
      Leaves (.registerBadAccess M a len false none) m { m with sent := m.sent ++ [.regRead (BitVec.allOnes 64)] } ∧
      Leaves (.registerBadAccess M a len true none) m m ∧
      ∀ k f write, m.firing k = some f → f.e.ran = false →
        Completes (.registerBadAccess M a len write (some k)) m fun m' =>
          HasRun m' k stFaultAddress ∧ m'.mem = m.mem ∧ FiringFrame m m' ∧ (∀ b, (∀ x, b ≠ bchR x 0x010 ∧ b ≠ bchR x 0x148) → m'.reg b = m.reg b) ∧
          m'.sent = m.sent ++ (if write then [] else [.regRead (BitVec.allOnes 64)]))

/-- HAL_CCTL.FLUSH leaves every line of the hall's cache valid and clean; HAL_CCTL.INV, and clearing HAL_CCTL.EN, leave no line;
setting EN keeps the lines; QRN_CTL.HRCINV drops every hot-row line of the stack. None of these changes memory or any other hall (write-backs are charged to the
regulators, which may move local time on; log entry 2).
QRN_CTL.FLUSH leaves no combining entry; where the entries' lines are distinct, each with the deltas of one line, and no sector is poisoned, every such line
holds its old bytes with the entry's deltas added once, and every byte of every other line stands. HAL_ELOGSEL.CLR empties the event log of its hall
and changes nothing else. -/
def Obligations.CacheAndBufferActions : Prop :=
  ∀ (m : Module) (h : HallId) (s : StackId), m.shaped → Memory.wf m.mem →
    (Completes (.halCctlFlush h) m fun m' =>
      m' = { m with halls := m.halls.modify h.val fun x => { x with cache := x.cache.map fun c => { c with dirty := false } }
                    querns := m'.querns, regs := m'.regs, ltime := m'.ltime }) ∧
    (Completes (.halCctlInv h) m fun m' =>
      m' = { m with halls := m.halls.modify h.val fun x => { x with cache := [] }, querns := m'.querns, regs := m'.regs, ltime := m'.ltime }) ∧
    (Completes (.halCctlEn h false) m fun m' =>
      m' = { m with halls := m.halls.modify h.val fun x => { x with cache := [] }, querns := m'.querns, regs := m'.regs, ltime := m'.ltime }) ∧
    (SparseWf regDefault m.regs →
      Completes (.halCctlEn h true) m fun m' =>
        m' = { m with regs := m'.regs } ∧ m'.fld (halR h.val 0x180) 0 1 = 1 ∧ ∀ b, b ≠ halR h.val 0x180 → m'.reg b = m.reg b) ∧
    Leaves (.qrnHrcinv s) m { m with querns := m.querns.modify s.val fun q => { q with hrc := [] } } ∧
    (Completes (.qrnFlush s) m fun m' =>
      (m'.quern s.val).comb = [] ∧ m' = { m with mem := m'.mem, querns := m'.querns, regs := m'.regs, ltime := m'.ltime } ∧
      (∀ a, (∀ e ∈ (m.quern s.val).comb, a / 128 ≠ e.line) → m'.mem.read a = m.mem.read a) ∧
      (((m.quern s.val).comb.map (·.line)).Pairwise (· ≠ ·) → (∀ q ∈ m.querns, q.poisoned = []) →
        (∀ e ∈ (m.quern s.val).comb, e.deltas.length * (typeBits e.type / 8) ≤ 128) →
        ∀ e ∈ (m.quern s.val).comb, ∀ i, i < 128 →
          m'.mem.read (e.line * 128 + i) = ((addDeltas e.type (m.mem.readN (e.line * 128) 128) e.deltas).1).getD i (m.mem.read (e.line * 128 + i)))) ∧
    Leaves (.elogClr h) m { m with halls := m.halls.modify h.val fun x => { x with elog := [], elogHead := 0 } }

/-- BCH_MXCTL.ACCCLR on a bench that runs no MATMUL makes every byte of its accumulator banks read zero, and changes no other byte
and no other state; while a MATMUL runs there it is kept for the end of that firing. BCH_VCSEED sets the generator state of its bench and
changes nothing else. CTR_NSEL.CLR empties the notice ring and changes nothing else. RWK_GCOMMIT.DISCARD puts the table in force
in place of the staged one and changes nothing else. RWK_GCOMMIT.COMMIT sends the staged table to the warden and sets BUSY where the table
is valid, and leaves RESULT 3 where it is not; the tables themselves stand (that an invalid table also goes out is the model's own
reading, log entry 27). -/
def Obligations.BenchAndTableActions : Prop :=
  ∀ (m : Module) (b : BenchId),
    ((∀ n, m.runningOn b.val = some n → n.op ≠ 0x20) →
      Completes (.accclr b) m fun m' =>
        (∀ a, tileBase b.val + 0x5F8000 ≤ a → a < tileBase b.val + 0x600000 → m'.mem.read a = 0) ∧
        (∀ a, (a < tileBase b.val + 0x5F8000 ∨ tileBase b.val + 0x600000 ≤ a) → m'.mem.read a = m.mem.read a) ∧
        m' = { m with mem := m'.mem, benches := m.benches.modify b.val fun x => { x with clearDue := false } }) ∧
    (∀ n, m.runningOn b.val = some n → n.op = 0x20 →
      Leaves (.accclr b) m { m with benches := m.benches.modify b.val fun x => { x with clearDue := true } }) ∧
    (∀ v : Word, Leaves (.bchVcseed b v) m { m with benches := m.benches.modify b.val fun x => { x with seed := v.toNat } }) ∧
    Leaves .nringClr m { m with ctr := { m.ctr with ring := [], ringHead := 0 } } ∧
    Leaves .rwkGcommitDiscard m { m with rwk := { m.rwk with stagedT := m.rwk.inForce } } ∧
    (Completes .rwkGcommitCommit m fun m' =>
      m' = { m with rwk := m'.rwk, fab := m'.fab, sent := m'.sent } ∧
      m'.rwk = (if groupTableOk m.guildSize m.rwk.stagedT then { m.rwk with busy := true } else { m.rwk with result := 3 }) ∧
      ∃ n route, m'.sent = m.sent ++ [.fab m.guild.warden 3 n route (.bulk 3 0 (tableBytes m.rwk.stagedT))])

/-! ### The assay block (R469–R485) -/

/-- A write of ASY_MBCTL.CLAIM takes the value where the claim is zero or the value is zero, and otherwise leaves the claim; nothing
else changes. A claim that expires becomes zero, at 10 s after the last GO or later, and nothing but it and local time changes (that local
time moves on to the due time is the model's own reading, log entry 2); with no claim set nothing changes. -/
def Obligations.MailboxClaim : Prop :=
  ∀ (m : Module) (v : BitVec 16),
    Leaves (.mbctlClaim v) m { m with asy := { m.asy with claim := if v = 0 ∨ m.asy.claim = 0 then v else m.asy.claim } } ∧
    (m.asy.claim ≠ 0 →
      Leaves .claimExpire m { m with asy := { m.asy with claim := 0 }, ltime := max m.ltime (m.asy.lastGo + 10000000000) }) ∧
    (m.asy.claim = 0 → Leaves .claimExpire m m)

/-- CERTS, with its request of no operands in the mailbox of a powered module, answers OK with the DER chain (as far as the mailbox holds
it), in any module state in which hall H0 is not lost. QUOTE, with a nonce of 32 bytes and a mask, after BOOT and with the identity seed present, answers OK
with a quote: its magic, the mask, CHIP_ID, the serial number, the nonce, the member number and state, then the selected
hallmark registers in increasing order, and a signature block of SIGLEN 4,627. Before BOOT ends QUOTE answers STATE. In every case
no register but those of the mailbox changes, and no state but ASY's. A module that has lost hall H0 performs no operation of the mailbox,
until a reset (R22). -/
def Obligations.CertificatesAndQuotes : Prop :=
  ∀ (m : Module) (r : MbReq), SparseWf regDefault m.regs → m.pwr.input = true → m.mbRequest = some r →
    (m.asy.down = true →
      Leaves .certs m m ∧ Leaves .quote m m ∧ Leaves .sessionOpen m m ∧ Leaves .sessionClose m m ∧ Leaves .zeroise m m ∧
      Leaves .signersLoad m m ∧ Leaves .rolesLoad m m ∧ Leaves .packageLoad m m) ∧
    (m.asy.down = false → r.op = 1 → r.operands = [] →
      Completes .certs m fun m' =>
        m'.asy.mbResult = 0 ∧ m'.mbAnswer = Config.certChain.take 8176 ∧
        m' = { m with regs := m'.regs, asy := { m.asy with mbResult := 0, lastGo := m.ltime } } ∧
        ∀ b, b < asyR 0x1000 ∨ asyR 0x3000 ≤ b → m'.reg b = m.reg b) ∧
    (m.asy.down = false → r.op = 2 → m.asy.locked = true → m.asy.seedErased = false → r.operands.length = 34 →
      (∀ x ∈ m.asy.hallmarks, x.length = 64) → m.asy.hallmarks.length = 16 →
      Completes .quote m fun m' =>
        let a := m'.mbAnswer
        let mask := fieldAt r.operands 32 2
        let marks := (bitsSet 16 mask).flatMap fun i => m.asy.hallmarks.getD i []
        m'.asy.mbResult = 0 ∧ a.take 4 = leBytes 4 0x51415A44 ∧ fieldAt a 6 2 = mask ∧ fieldAt a 8 8 = (m.reg (chipR 0)).toNat ∧
        fieldAt a 0x10 16 = Config.serial.toNat ∧ slice a 0x20 32 = r.operands.take 32 ∧ fieldAt a 0x42 1 = m.member ∧
        fieldAt a 0x43 1 = m.pwr.mode.code ∧ slice a 128 marks.length = marks ∧ fieldAt a (128 + marks.length) 2 = 4627 ∧
        a.length = 128 + marks.length + 4640 ∧
        m' = { m with regs := m'.regs, asy := { m.asy with mbResult := 0, lastGo := m.ltime, drbg := m.asy.drbg + 1 } } ∧
        ∀ b, b < asyR 0x1000 ∨ asyR 0x3000 ≤ b → m'.reg b = m.reg b) ∧
    (m.asy.down = false → r.op = 2 → m.asy.locked = false →
      Completes .quote m fun m' =>
        m' = { m with regs := m'.regs, asy := { m.asy with mbResult := 2, lastGo := m.ltime } } ∧
        ∀ b, b < asyR 0x1000 ∨ asyR 0x3000 ≤ b → m'.reg b = m.reg b)

/-- SESSION_OPEN after BOOT, with 6,203 operand bytes and the identity seed present, completes whatever its signature: signed by a key of
the role-key set, with fewer than 16 sessions, it answers OK and opens exactly one session, under a non-zero identifier that begins the
answer of 6,203 bytes, with the role mask of that key and counter 0; with 16 sessions it answers FULL; signed by no such key it answers
AUTH, opens none, and posts SESSION_FAIL. SESSION_CLOSE of 20 operand bytes completes whatever its counter and tag: where the session
authorises it (its counter above the last and its tag valid) it answers OK and ends that session alone; where the check fails it answers
AUTH, and every session stays. No register but the mailbox's changes. -/
def Obligations.HostSessions : Prop :=
  ∀ (m : Module) (r : MbReq), SparseWf regDefault m.regs → m.pwr.input = true → m.mbRequest = some r → m.asy.locked = true →
    m.asy.down = false →
    (r.op = 3 → m.asy.seedErased = false → r.operands.length = 6203 →
      Completes .sessionOpen m fun m' =>
        match m.asy.roles.find? fun k => (sha3 k.2).take 8 == slice r.operands 1568 8 &&
          Config.mldsaVerify k.2 (slice r.operands 0 1568 ++ leBytes 16 Config.serial.toNat) (slice r.operands 1576 4627) with
        | some k =>
          if m.asy.sessions.length < 16 then
            m'.asy.mbResult = 0 ∧ m'.mbAnswer.length = 6203 ∧
            (∃ x : Session, x.id ≠ 0 ∧ x.role = k.1 ∧ x.counter = 0 ∧ x.signer = sha3 k.2 ∧ m'.mbAnswer.take 8 = leBytes 8 x.id.toNat ∧
              m'.asy.sessions = (m.asy.sessions.filter fun y => y.id != x.id) ++ [x]) ∧
            m' = { m with regs := m'.regs, free := m'.free, asy := { m.asy with mbResult := 0, lastGo := m.ltime, drbg := m.asy.drbg + 1, sessions := m'.asy.sessions } }
          else m' = { m with regs := m'.regs, asy := { m.asy with mbResult := 5, lastGo := m.ltime } }
        | none =>
          m'.asy = { m.asy with mbResult := 3, lastGo := m.ltime } ∧ PostsOne m m' 3 0x0604 none 0 (slice r.operands 1568 8 ++ leBytes 1 1) ∧
          m' = { m with regs := m'.regs, asy := m'.asy, ctr := m'.ctr }) ∧
    (r.op = 4 → r.operands.length = 20 →
      Completes .sessionClose m fun m' =>
        if m.sessionFault r.session (fieldAt r.operands 0 4) (slice r.operands 4 16) (r.header ++ r.operands.take 4) = none then
          m' = { m with regs := m'.regs, asy := { m.asy with mbResult := 0, lastGo := m.ltime, sessions := m.asy.sessions.filter fun y => y.id != r.session } }
        else
          m'.asy = { m.asy with mbResult := 3, lastGo := m.ltime } ∧ m'.ctr.posted.length = m.ctr.posted.length + 1 ∧
          m' = { m with regs := m'.regs, asy := m'.asy, ctr := m'.ctr, free := m'.free })

/-- TAMPER and a failed entropy test on a powered module, and ZEROISE under a session that holds the role ZEROISE: no session, no link
key, no generator state, no stack-mapping key, no generator seed and no byte of memory is left, no cache or combining line is
left, no live instance is left, ASY_STATE.ZEROISED reads 1, and the module is FAULTED and in no membership (a module in OFF stays in OFF,
R499). TAMPER also sets ASY_STATE.TAMPER. The identity seed is erased by KIND 1, FULL, and by nothing else. ZEROISE of 21 operand bytes
completes whatever its session: under one that authorises it and holds the role it answers OK once it has wiped; under one without
the role, or whose check fails, it answers AUTH and wipes nothing. -/
def Obligations.ZeroisationWipesEverySecret : Prop :=
  let wiped (m m' : Module) (kind : Nat) : Prop :=
    m'.asy.sessions = [] ∧ m'.asy.drbg = 0 ∧ m'.asy.hashKey = 0 ∧ m'.asy.zeroised = true ∧
    m'.asy.seedErased = (m.asy.seedErased || kind == 1) ∧ m'.mem = [] ∧
    (∀ x ∈ m'.fab.ports, x.keyTx = [] ∧ x.keyRx = []) ∧ (∀ q ∈ m'.querns, q.hrc = [] ∧ q.win = [] ∧ q.comb = []) ∧
    (∀ h ∈ m'.halls, h.cache = [] ∧ h.entries = []) ∧ (∀ b ∈ m'.benches, b.seed = 0 ∧ b.busy = none) ∧
    m'.insts = [] ∧ m'.guild.joined = 0 ∧ m'.pwr.mode = (if m.pwr.mode = .off then .off else .faulted)
  ∀ m : Module,
    (∀ sensor : Byte, m.pwr.input = true → Completes (.tamper sensor) m fun m' => wiped m m' 0 ∧ m'.asy.tamper = true) ∧
    (m.pwr.input = true → Completes .entropyTestFail m fun m' => wiped m m' 0 ∧ m'.asy.tamper = m.asy.tamper) ∧
    (∀ sensor : Byte, m.pwr.input = false → Leaves (.tamper sensor) m m ∧ Leaves .entropyTestFail m m) ∧
    ∀ r : MbReq, m.pwr.input = true → m.asy.down = false → m.mbRequest = some r → r.op = 5 → m.asy.locked = true →
      r.operands.length = 21 → fieldAt r.operands 0 1 ≤ 1 →
      Completes .zeroise m fun m' =>
        if m.sessionFault r.session (fieldAt r.operands 1 4) (slice r.operands 5 16) (r.header ++ r.operands.take 5) = none then
          if (m.sessionRole r.session).testBit 1 then wiped m m' (fieldAt r.operands 0 1) ∧ m'.asy.mbResult = 0
          else m'.asy.mbResult = 3 ∧ m'.mem = m.mem ∧ m'.pwr = m.pwr ∧ m'.insts = m.insts ∧
            m'.asy.zeroised = m.asy.zeroised ∧ m'.asy.seedErased = m.asy.seedErased
        else m'.asy = { m.asy with mbResult := 3, lastGo := m.ltime } ∧ m'.mem = m.mem ∧ m'.pwr = m.pwr ∧ m'.insts = m.insts

/-- SIGNERS_LOAD at step 5 of BOOT, with a key of 2,592 bytes, completes: where the prefix of the key's digest is new and there are fewer
than 8 keys it answers OK, adds the key, and extends hallmark 6 with its digest under R475; a key whose prefix is there already answers
DUPLICATE, and a ninth key FULL, and neither changes a key set or a hallmark. ROLES_LOAD, with a mask and a key of 2,592 bytes, does
likewise with 16 keys: it adds the key with its mask and extends hallmark 7 twice. With FINAL the load ends BOOT as R473 step 6 says. Outside step 5 of BOOT either answers STATE. PACKAGE_LOAD in BOOT before FINAL stores its bytes at their offset in the
package and nowhere else, and answers OK; with FINAL, and nothing else to store, BOOT stands at step 5 or the module is FAULTED with a
FAIL code; outside BOOT it answers STATE. No register but the mailbox's changes. -/
def Obligations.KeySetAndPackageLoads : Prop :=
  ∀ (m : Module) (r : MbReq), SparseWf regDefault m.regs → Memory.wf m.mem → m.pwr.input = true → m.asy.down = false →
    m.mbRequest = some r → m.asy.locked = false →
    let known (l : List (List Byte)) (k : List Byte) : Bool := l.any fun x => (sha3 x).take 8 == (sha3 k).take 8
    let step5 : Prop := m.pwr.mode = .boot ∧ m.asy.bootstep = 5
    let ended (m' : Module) : Prop :=
      m'.pwr.mode = (if r.flags = 1 then .training else .boot) ∧ m'.asy.locked = decide (r.flags = 1) ∧ m'.asy.bootstep = (if r.flags = 1 then 6 else 5)
    let answers (m' : Module) (result : Nat) : Prop := m' = { m with regs := m'.regs, asy := { m.asy with mbResult := result, lastGo := m.ltime } }
    (r.op = 6 → step5 → r.operands.length = 2592 →
      Completes .signersLoad m fun m' =>
        if known m.asy.signers r.operands then answers m' 4
        else if 8 ≤ m.asy.signers.length then answers m' 5
        else
          m'.asy.mbResult = 0 ∧ m'.asy.signers = m.asy.signers ++ [r.operands] ∧ ended m' ∧
          m'.asy.hallmarks = m.asy.hallmarks.set 6 (sha3 (m.asy.hallmarks.getD 6 [] ++ sha3 r.operands)) ∧
          m'.mem = m.mem ∧ m'.asy.roles = m.asy.roles ∧ ∀ b, b < asyR 0x1000 ∨ asyR 0x3000 ≤ b → m'.reg b = m.reg b) ∧
    (r.op = 7 → step5 → r.operands.length = 2593 → fieldAt r.operands 0 1 ≤ 3 →
      Completes .rolesLoad m fun m' =>
        if known (m.asy.roles.map Prod.snd) (r.operands.drop 1) then answers m' 4
        else if 16 ≤ m.asy.roles.length then answers m' 5
        else
          m'.asy.mbResult = 0 ∧ m'.asy.roles = m.asy.roles ++ [(BitVec.ofNat 8 (fieldAt r.operands 0 1), r.operands.drop 1)] ∧ ended m' ∧
          m'.asy.hallmarks.getD 7 [] =
            (if 7 < m.asy.hallmarks.length then
              sha3 (sha3 (m.asy.hallmarks.getD 7 [] ++ sha3 (r.operands.drop 1)) ++ (leBytes 1 (fieldAt r.operands 0 1) ++ leBytes 63 0))
            else []) ∧
          m'.mem = m.mem ∧ m'.asy.signers = m.asy.signers ∧ ∀ b, b < asyR 0x1000 ∨ asyR 0x3000 ≤ b → m'.reg b = m.reg b) ∧
    (¬ step5 →
      (r.op = 6 → Completes .signersLoad m fun m' => answers m' 2) ∧
      (r.op = 7 → Completes .rolesLoad m fun m' => answers m' 2)) ∧
    (r.op = 8 → m.pwr.mode = .boot → m.asy.pkgFinal = false → 4 ≤ r.operands.length → fieldAt r.operands 0 4 + (r.operands.length - 4) ≤ 3145728 →
      (r.flags = 0 →
        Completes .packageLoad m fun m' =>
          m'.asy.mbResult = 0 ∧ (∀ i, i < r.operands.length - 4 → m'.mem.read (packageBase + fieldAt r.operands 0 4 + i) = r.operands.getD (4 + i) 0) ∧
          (∀ a, (a < packageBase + fieldAt r.operands 0 4 ∨ packageBase + fieldAt r.operands 0 4 + (r.operands.length - 4) ≤ a) →
            m'.mem.read a = m.mem.read a) ∧
          m'.asy.pkgLen = max m.asy.pkgLen (fieldAt r.operands 0 4 + (r.operands.length - 4)) ∧ m'.pwr = m.pwr ∧
          m' = { m with mem := m'.mem, asy := m'.asy, regs := m'.regs }) ∧
      (r.flags = 1 →
        Completes .packageLoad m fun m' =>
          m'.asy.mbResult = 0 ∧ m'.asy.pkgFinal = true ∧
          (m'.pwr.mode = .boot ∧ m'.asy.bootstep = 5 ∨ m'.pwr.mode = .faulted ∧ (m'.asy.bootstep = 2 ∨ m'.asy.bootstep = 4) ∧ m'.asy.fail ≠ 0))) ∧
    (r.op = 8 → m.pwr.mode ≠ .boot →
      Completes .packageLoad m fun m' => answers m' 2)

/-! ### Sparing, stack withdrawal and draining (R437–R442, R447) -/

/-- BENCH_OUT_OF_SERVICE without a word, and HAL_DCTL.OOS with the same physical bench, on a module past training, for a physical bench
that carries a device-wide number and is in service and not itself the target of a copy: it is marked out of service; with an unused spare
the lowest one leaves the spares and the copy of the bench to it is under way, the hub segments out on the bench go back to the queue to
run again (a bench that only ran them is idle), and nothing else changes (but the PBENCH field for the register); with none left the module
is FAULTED (HALL_LOST). BENCH_OUT_OF_SERVICE with the address of a word of its SRAM that has a double-bit error counts the error and
marks the word, if it lies in the tile's data; the second such error does besides what the command without a word does. BENCH_WATCHDOG
does the same to the physical bench of the bench whose firing is neither halted nor held, and nothing where no firing is busy or it is
halted or held. A bench out of service already, or a module not past training, is left as it is. -/
def Obligations.BenchOutOfServiceStartsSparing : Prop :=
  ∀ (m : Module) (h : HallId) (b pb : Nat), m.shaped → pb < 68 → m.benchOf h.val pb = some b →
    ((m.hall h.val).copying.all fun c => c.2.2 != pb) = true →
    let serving := m.pwr.mode = .quarantine ∨ m.pwr.mode = .joined ∨ m.pwr.mode = .draining
    let fresh := (m.hall h.val).oos.toNat.testBit pb = false
    let free := (m.hall h.val).spare.filter fun x => x != pb
    let onIt := (m.hall h.val).hubq.filter fun s => s.bench == some b
    let helps : Bool := onIt.any fun s => (m.bench b).busy == some s.owner && ((m.entry s.owner).map fun e => e.bench != some b) == some true
    let spared (n : Nat) : Module :=
      { m with halls := m.halls.modify h.val fun x =>
          { x with oos := BitVec.ofNat 68 (setBit x.oos.toNat pb), spare := free.tail, copying := x.copying ++ [(b, (m.bench b).phys, n)]
                   hubq := updWhere (fun s => s.bench == some b) (fun s => { s with bench := none, partials := [] }) x.hubq }
               benches := if helps then m.benches.modify b fun x => { x with busy := none } else m.benches }
    let broken (off : Nat) (x : Module) : Module :=
      { x with benches := x.benches.modify b fun y => { y with dbe := y.dbe + 1 }
               tileBad := if off < 0x4F8000 then m.tileBad ++ [tileBase b / 8 + off / 8] else m.tileBad }
    let pbench (v : BitVec 7) : Module := m.setFld (halR h.val 0x300) 0 7 v.toNat
    (serving → fresh → ∀ n, free.head? = some n →
      Leaves (.benchOutOfService h ⟨pb, none⟩) m (spared n) ∧
      (∀ off, (m.bench b).dbe ≠ 0 → Leaves (.benchOutOfService h ⟨pb, some off⟩) m (broken off (spared n))) ∧
      (∀ v : BitVec 7, v.toNat = pb → Leaves (.halDctlOos h v) m { spared n with regs := (pbench v).regs }) ∧
      ∀ (d : BenchId) (k : FKey) (e : MatchEntry), d.val = b → (m.bench b).phys = pb → (m.bench b).busy = some k → m.entry k = some e →
        (e.haltAt = none → e.chainHold = false → m.holdsFor k = false → Leaves (.benchWatchdog d) m (spared n)) ∧
        (e.haltAt ≠ none → Leaves (.benchWatchdog d) m m)) ∧
    (serving → ∀ off, (m.bench b).dbe = 0 → Leaves (.benchOutOfService h ⟨pb, some off⟩) m (broken off m)) ∧
    (serving → fresh → free = [] → Completes (.benchOutOfService h ⟨pb, none⟩) m fun m' => m'.pwr.mode = .faulted ∧ m'.insts = []) ∧
    (serving → ¬ fresh → Leaves (.benchOutOfService h ⟨pb, none⟩) m m) ∧
    (¬ serving → (∀ w, Leaves (.benchOutOfService h ⟨pb, w⟩) m m) ∧ ∀ v : BitVec 7, Leaves (.halDctlOos h v) m (pbench v)) ∧
    ∀ d : BenchId, (m.bench d.val).busy = none → Leaves (.benchWatchdog d) m m

/-- BENCH_COPY_DONE with a copy under way in the hall, on a bench that no firing occupies: the bench's physical number is the spare's, the
copy is over, exactly one notice BENCH_SPARED (0x0203) with bench, old and new physical bench, spares left and cleanness is
posted, and one entry of it is in the hall's event log. The copy is clean where the command says so and no word of the tile has a
double-bit error; the bytes of such words are then not specified, and every other byte of memory, queue pairs and partitions stand. After a
clean copy no instance changes, after an unclean one every instance that ran a firing on the bench is marked for re-execution (cause 3).
With no copy under way nothing changes. -/
def Obligations.BenchCopyHandsOverNumber : Prop :=
  ∀ (m : Module) (h : HallId) (clean : Bool), m.shaped →
    (∀ b old new rest, (m.hall h.val).copying = (b, old, new) :: rest → b < 256 → (m.hall h.val).elogHead < 64 →
      (∀ e ∈ (m.hall h.val).entries, e.bench ≠ some b ∧ b ∉ e.benches) →
      let inTile (w : Nat) : Bool := decide (tileBase b ≤ w * 8 ∧ w * 8 < tileBase b + 0x600000)
      let whole := clean && !m.tileBad.any inTile
      Completes (.benchCopyDone h clean) m fun m' =>
        (m'.bench b).phys = new ∧ (∀ c, c ≠ b → m'.bench c = m.bench c) ∧ (m'.hall h.val).copying = rest ∧
        PostsOne m m' 2 0x0203 none 0 (leBytes 1 b ++ leBytes 1 old ++ leBytes 1 new ++ leBytes 1 (m.hall h.val).spare.length ++ leBytes 1 whole.toNat) ∧
        (∃ e ∈ (m'.hall h.val).elog, e.code = 0x0203 ∧ e.unit = old ∧ e.ltime = m.ltime) ∧
        m'.insts = m.insts.map (fun i => if whole = false ∧ i.benchesRan.contains b = true then { i with lostCause := 3 } else i) ∧
        m'.tileBad = m.tileBad.filter (fun w => !inTile w) ∧
        (∀ a, (∀ w ∈ m.tileBad, inTile w = true → a / 8 ≠ w) → m'.mem.read a = m.mem.read a) ∧
        (m.tileBad = [] → m'.mem = m.mem ∧ m'.free = m.free) ∧
        m' = { m with mem := m'.mem, free := m'.free, tileBad := m'.tileBad, halls := m'.halls, benches := m'.benches, querns := m'.querns
                      insts := m'.insts, regs := m'.regs, ctr := m'.ctr }) ∧
    ((m.hall h.val).copying = [] → Leaves (.benchCopyDone h clean) m m)

/-- STACK_WITHDRAW with a cause of 1 to 4, on a stack in service, leaves it withdrawn with WDCAUSE the cause and its hot-row cache
empty, and posts STACK_WITHDRAWN (0x0202); the module state, local keys and benches stand. HAL_DCTL.WD does so with cause 4 for stack
5h + STACK. A withdrawn stack stays as it is, whatever the command. DRAIN_FORCED on a draining module moves local time to one second after
the drain began at least, posts DRAIN_FORCED (0x020C) with the number of live instances, and leaves none alive; on a module that
does not drain it changes nothing. -/
def Obligations.StackWithdrawalAndDrainForced : Prop :=
  ∀ m : Module, m.shaped →
    (∀ (s : StackId) (cause : Fin 8), 1 ≤ cause.val → cause.val ≤ 4 → (m.quern s.val).withdrawn = false →
      Completes (.stackWithdraw s cause) m fun m' =>
        (m'.quern s.val).withdrawn = true ∧ (m'.quern s.val).wdcause = cause.val ∧ (m'.quern s.val).hrc = [] ∧
        (∃ n ∈ m'.ctr.posted, n.1.code = 0x0202 ∧ n.1.obj = s.val) ∧ m'.pwr = m.pwr ∧ m'.asy = m.asy ∧ m'.benches = m.benches) ∧
    (∀ (s : StackId) (cause : Fin 8), (m.quern s.val).withdrawn = true → Leaves (.stackWithdraw s cause) m m) ∧
    (∀ (h : HallId) (k : BitVec 3), k.toNat < 5 → (m.quern (5 * h.val + k.toNat)).withdrawn = false →
      Completes (.halDctlWd h k) m fun m' =>
        (m'.quern (5 * h.val + k.toNat)).withdrawn = true ∧ (m'.quern (5 * h.val + k.toNat)).wdcause = 4 ∧ m'.pwr = m.pwr ∧ m'.asy = m.asy) ∧
    (∀ (h : HallId) (k : BitVec 3), (5 ≤ k.toNat ∨ (m.quern (5 * h.val + k.toNat)).withdrawn = true) →
      Leaves (.halDctlWd h k) m (m.setFld (halR h.val 0x300) 8 3 k.toNat)) ∧
    (∀ t, m.pwr.drainAt = some t →
      Completes .drainForced m fun m' =>
        m'.insts = [] ∧ max m.ltime (t + 1000000000) ≤ m'.ltime ∧ m'.asy = m.asy ∧
        ∃ n ∈ m'.ctr.posted, n.1.code = 0x020C ∧ n.1.detail = slice (leBytes 4 m.insts.length) 0 40) ∧
    (m.pwr.drainAt = none → Leaves .drainForced m m)

/-! ### The counter: Ethernet ports, queue pairs and notices (R448–R467) -/

/-- LINK_STATE changes the link of its port and nothing of another, with one LINK_STATE notice (severity 1 up, 2 down and not for the queue
pairs of the port); it does nothing where the link stands already or the port is dark. PAUSE_FRAME counts a frame and, on RPRIO with PFC on,
pauses the port for its time, a time of zero ending the pause; PFC_PAUSE_EXPIRE ends the pause at its time. Beyond these, only what waits on
the port's queue pairs may be sent: no other register group, memory, partition or hall changes. ARP_REQUEST and NEIGHBOUR_SOLICITATION for
the member's own address on a port whose link is up are answered with the port's MAC address; others change nothing. -/
def Obligations.EthernetPorts : Prop :=
  ∀ (m : Module) (h : EPort), SparseWf regDefault m.regs →
    (∀ up pfc, m.ctr.link.getD h.val false = up ∨ (up = true ∧ m.portsLive = false) → Leaves (.linkState h up pfc) m m) ∧
    (∀ up pfc, m.ctr.link.getD h.val false ≠ up → (up = true → m.portsLive = true) →
      Completes (.linkState h up pfc) m fun m' =>
        m'.ctr.link = m.ctr.link.set h.val up ∧ m'.ctr.pfc = m.ctr.pfc.set h.val (up && pfc) ∧ m'.ctr.paused = m.ctr.paused ∧
        m'.ctr.posted = m.ctr.posted ++
          [({ sev := if up then 1 else 2, code := 0x010A, member := m.member, ptn := none, nseq := m.ctr.nseq, obj := 0, ltime := m.ltime
              detail := slice (leBytes 1 h.val ++ leBytes 1 up.toNat) 0 40 },
            if up then [] else (m.ctr.qps.filter fun q => q.port == h.val).map (·.num))] ∧
        m' = { m with ctr := m'.ctr, regs := m'.regs, sent := m'.sent }) ∧
    (∀ prio ns, Completes (.pauseFrame h prio ns) m fun m' =>
      m'.fld (ctrR (0x050 + 8 * h.val)) 0 32 = min (m.fld (ctrR (0x050 + 8 * h.val)) 0 32 + 1) (2 ^ 32 - 1) ∧
      (if m.fld (ctrR 0x020) 18 1 = 1 ∧ prio.toNat = m.fld (ctrR 0x020) 0 3 then
        m'.ctr.paused = m.ctr.paused.set h.val (if ns = 0 then none else some (m.ltime + ns)) ∧ m'.ctr.link = m.ctr.link ∧
        m' = { m with ctr := m'.ctr, regs := m'.regs, sent := m'.sent }
      else m' = { m with regs := m'.regs } ∧ ∀ b, b ≠ ctrR (0x050 + 8 * h.val) → m'.reg b = m.reg b)) ∧
    (m.ctr.paused.getD h.val none = none → Leaves (.pfcPauseExpire h) m m) ∧
    (∀ t, m.ctr.paused.getD h.val none = some t → Completes (.pfcPauseExpire h) m fun m' =>
      m'.ctr.paused = m.ctr.paused.set h.val none ∧ m'.ltime = max m.ltime t ∧ m'.ctr.link = m.ctr.link ∧
      m' = { m with ctr := m'.ctr, regs := m'.regs, sent := m'.sent, ltime := m'.ltime }) ∧
    (∀ ip : BitVec 32,
      Leaves (.arpRequest h ip) m
        (if m.ctr.link.getD h.val false = true ∧ m.fld (ctrR 0x000) 32 1 = 1 ∧ m.fld (ctrR 0x000) 0 32 = ip.toNat then
          { m with sent := m.sent ++ [.arp h.val (Config.mac.toNat + h.val)] } else m)) ∧
    (∀ ip : BitVec 128,
      Leaves (.neighbourSolicitation h ip) m
        (if m.ctr.link.getD h.val false = true ∧ m.fld (ctrR 0x000) 33 1 = 1 ∧
            (m.reg (ctrR 0x008)).toNat + (m.reg (ctrR 0x010)).toNat * 2 ^ 64 = ip.toNat then
          { m with sent := m.sent ++ [.neighbour h.val (Config.mac.toNat + h.val)] } else m))

/-- On a live queue pair for which no level C collective waits: an unsupported verb is answered by NAK Invalid Request, and it, exhausted
retries, and a refused SEND (NAK_RECEIVE, operation 2) put the queue pair in the error state with causes 3, 1 and 2 (the cause of a refused SEND
is the model's own reading; see the assumption log); nothing else changes. A refused RDMA WRITE of a push result (operation 1) posts RESULT_WRITE
to the other queue pairs, saying whether the result is retained, and changes nothing else. A failed read of inputs (operation 0) that no request
awaits changes nothing. RNR_RETRY sends the last entry of a push-mode queue pair again, and holds later ones until it is taken. On a queue pair
that is closed or in the error state none of them does anything. -/
def Obligations.QueuePairErrors : Prop :=
  ∀ (m : Module) (n : Nat) (reqid : Word) (entry : Byte), SparseWf regDefault m.regs →
    (m.liveQp n = none →
      Leaves (.unsupportedVerb n) m m ∧ Leaves (.ackTimeout n) m m ∧ (∀ op, Leaves (.nakReceive n op reqid entry) m m) ∧
      ∀ t, Leaves (.rnrRetry n t) m m) ∧
    (∀ q, m.liveQp n = some q → m.noLevelC n →
      (Completes (.unsupportedVerb n) m fun m' =>
        m'.sent = m.sent ++ [.nak n 1] ∧ m'.fld (ctrR 0x088) 0 32 = min (m.fld (ctrR 0x088) 0 32 + 1) (2 ^ 32 - 1) ∧
        QpFails m m' q 3 ∧ m' = { m with ctr := m'.ctr, regs := m'.regs, sent := m'.sent }) ∧
      (Completes (.ackTimeout n) m fun m' => QpFails m m' q 1 ∧ m' = { m with ctr := m'.ctr, regs := m'.regs }) ∧
      (Completes (.nakReceive n 2 reqid entry) m fun m' => QpFails m m' q 2 ∧ m' = { m with ctr := m'.ctr, regs := m'.regs })) ∧
    (∀ q, m.liveQp n = some q →
      (Completes (.nakReceive n 1 reqid entry) m fun m' =>
        PostsBut m m' [n] 2 0x0108 none reqid.toNat (leBytes 8 reqid.toNat ++ leBytes 1 entry.toNat ++
          leBytes 1 (if ∃ P ∈ m.ptns, ∃ e ∈ P.tally, e.reqid = reqid ∧ e.retained = true then 1 else 0)) ∧
        m' = { m with ctr := { m.ctr with posted := m'.ctr.posted, nseq := m'.ctr.nseq } }) ∧
      ((∀ p, p < 8 → (∀ r ∈ (m.ptn p).requests, r.reqid = reqid → r.state ≠ .fetching ∨ r.qp ≠ n) ∧ reqid ∉ (m.ptn p).refetch) →
        Leaves (.nakReceive n 0 reqid entry) m m) ∧
      (q.lastSent = none ∨ q.ringMode = true → ∀ t, Leaves (.rnrRetry n t) m m) ∧
      (∀ e, q.lastSent = some e → q.ringMode = false →
        Leaves (.rnrRetry n false) m
          { m with ctr := { m.ctr with qps := updWhere (fun x => x.num == n) (fun x => { x with rnr := true }) m.ctr.qps }
                   sent := m.sent ++ [.entry n none e] } ∧
        (q.outq = [] → Leaves (.rnrRetry n true) m
          { m with ctr := { m.ctr with qps := updWhere (fun x => x.num == n) (fun x => { x with rnr := false }) m.ctr.qps }
                   sent := m.sent ++ [.entry n none e] })))

/-- On a live queue pair with ECN on: an ECN-marked packet sends one CNP unless one was sent within CNPGAP µs; a CNP counts one and halves the
rate, with a floor of 1,000 Mb/s; RATE_INCREASE below 400,000 Mb/s raises it by RAI × 100 Mb/s, at most to 400,000, no earlier than RAITIME µs after
its last change, and at that rate does nothing. With ECN off none changes a rate, and no CNP is sent. Nothing else changes. -/
def Obligations.CongestionControl : Prop :=
  ∀ (m : Module) (n : Nat) (q : QueuePair), SparseWf regDefault m.regs → m.liveQp n = some q →
    let upd (f : QueuePair → QueuePair) : Counter := { m.ctr with qps := updWhere (fun x => x.num == n) f m.ctr.qps }
    Leaves (.ecnMarkedReceive n) m
      (if m.fld (ctrR 0x020) 19 1 = 1 ∧ ∀ t, q.lastCnp = some t → t + m.fld (ctrR 0x028) 0 16 * 1000 ≤ m.ltime then
        { m with ctr := upd fun x => { x with lastCnp := some m.ltime }, sent := m.sent ++ [.cnp n] } else m) ∧
    (Completes (.cnpReceive n) m fun m' =>
      Counts m m' (ctrR (0x050 + 8 * q.port)) 32 32 ∧
      m' = { m with regs := m'.regs
                    ctr := if m.fld (ctrR 0x020) 19 1 = 1 then
                      upd fun x => { x with rate := max 1000 (x.rate / 2), rateAt := m.ltime } else m.ctr }) ∧
    Leaves (.rateIncrease n) m
      (if m.fld (ctrR 0x020) 19 1 = 1 ∧ q.rate < 400000 then
        let t := max m.ltime (q.rateAt + m.fld (ctrR 0x028) 16 16 * 1000)
        { m with ltime := t
                 ctr := upd fun x => { x with rate := min 400000 (x.rate + m.fld (ctrR 0x028) 32 16 * 100), rateAt := t } }
       else m)

/-- CM_REQ on a port without link changes nothing; a malformed record is rejected with reason 1, one that the member's state or the partition's
queue pairs cannot take with 2, one whose mailbox does not fit in 1 GiB with 3; otherwise, without a session, it opens a queue pair of an index not in use, in
the record's kind, partition and class, with empty slots, and answers with its master number and keys. QP_CLOSE removes the queue pair and
leaves its mailbox area reading zero and all other memory as it was. SLOT_RELEASE through the MAILBOX key, with the REQID of a READY slot and
state 3, sets that slot RELEASED; through another key it is answered by a NAK. DOORBELL_WRITE through the DOORBELL key takes a consumer index
between the old one and the producer index, ignores any other, and through another key is answered by a NAK. -/
def Obligations.QueuePairLife : Prop :=
  ∀ m : Module, SparseWf regDefault m.regs → Memory.wf m.mem →
    (∀ (h : EPort) (r : SetupRecord) c tag,
      (m.ctr.link.getD h.val false = false → Leaves (.cmReq h r c tag) m m) ∧
      (m.ctr.link.getD h.val false = true →
        (setupOk r = false → Leaves (.cmReq h r c tag) m { m with sent := m.sent ++ [.rej h.val 1] }) ∧
        (setupOk r = true → m.takesReq r.kind.toNat = false ∨ (r.kind ≠ 2 ∧ m.qpFree r.ptn.toNat = false) →
          Leaves (.cmReq h r c tag) m { m with sent := m.sent ++ [.rej h.val 2] }) ∧
        (setupOk r = true → m.takesReq r.kind.toNat = true → (r.kind ≠ 2 → m.qpFree r.ptn.toNat = true) →
          (2 ^ 30 < m.mailboxBytes + r.slots.toNat * (64 + r.slotcap.toNat) →
            Leaves (.cmReq h r c tag) m { m with sent := m.sent ++ [.rej h.val 3] }) ∧
          (m.mailboxBytes + r.slots.toNat * (64 + r.slotcap.toNat) ≤ 2 ^ 30 → r.session = 0 →
            (r.kind = 2 → Leaves (.cmReq h r c tag) m { m with sent := m.sent ++ [.rej h.val 4] }) ∧
            (r.kind ≠ 2 → 4096 ≤ m.ctr.qps.length → Leaves (.cmReq h r c tag) m { m with sent := m.sent ++ [.rej h.val 5] }) ∧
            (r.kind ≠ 2 → m.ctr.qps.length < 4096 → Completes (.cmReq h r c tag) m fun m' => ∃ q : QueuePair,
              q.num < 4096 ∧ (∀ x ∈ m.ctr.qps, x.num ≠ q.num) ∧ q.port = h.val ∧ q.kind = r.kind.toNat ∧ q.ptn = r.ptn.toNat ∧
              q.aclass = r.aclass.toNat ∧ q.slots = List.replicate r.slots.toNat {} ∧ q.slotcap = r.slotcap.toNat ∧
              q.nmask = r.nmask.toNat ∧ q.prod = 0 ∧ q.cons = 0 ∧ q.outq = [] ∧ q.err = false ∧ q.rate = 400000 ∧
              m' = { m with ctr := { m.ctr with qps := m.ctr.qps ++ [q] }, free := m.free + 2
                            sent := m.sent ++ [.rep q.num (queueMaster r.ptn.toNat r.aclass.toNat) m.member q.keys] }))))) ∧
    (∀ n, m.qp n = none → Leaves (.qpClose n) m m) ∧
    (∀ n q, m.qp n = some q → m.noLevelC n → Completes (.qpClose n) m fun m' =>
      m'.ctr = { m.ctr with qps := m.ctr.qps.filter fun x => x.num != n } ∧
      (∀ a, mboxKey n 0 ≤ a → a < mboxKey n 0 + q.slots.length * (64 + q.slotcap) → m'.mem.read a = 0) ∧
      (∀ a, (a < mboxKey n 0 ∨ mboxKey n 0 + q.slots.length * (64 + q.slotcap) ≤ a) → m'.mem.read a = m.mem.read a) ∧
      m' = { m with ctr := m'.ctr, mem := m'.mem, ptns := m'.ptns }) ∧
    (∀ n q key data, m.liveQp n = some q →
      (∀ i sl, q.window key = some 1 → q.slots[i]? = some sl → sl.state = 2 → i * (64 + q.slotcap) < 2 ^ 64 →
        data = leBytes 8 sl.reqid.toNat ++ leBytes 1 3 ++ leBytes 7 0 →
        Completes (.slotRelease n key (BitVec.ofNat 64 (i * (64 + q.slotcap))) data) m fun m' =>
          m'.ctr = { m.ctr with qps := updWhere (fun x => x.num == n) (fun x => { x with slots := x.slots.modify i fun y => { y with state := 3 } }) m.ctr.qps } ∧
          m' = { m with ctr := m'.ctr, ptns := m'.ptns }) ∧
      (∀ va, q.window key ≠ some 1 → Completes (.slotRelease n key va data) m fun m' => Naks m m' n 2) ∧
      (∀ c : Word, q.window key = some 3 →
        (q.prod - q.cons < c.setWidth 32 - q.cons → Leaves (.doorbellWrite n key c) m m) ∧
        (c.setWidth 32 - q.cons ≤ q.prod - q.cons → Completes (.doorbellWrite n key c) m fun m' =>
          (m'.qp n).map (·.cons) = some (c.setWidth 32) ∧ m' = { m with ctr := m'.ctr, regs := m'.regs, sent := m'.sent })) ∧
      (∀ c, q.window key ≠ some 3 → Completes (.doorbellWrite n key c) m fun m' => Naks m m' n 2))

/-- NOTICE_DELIVER takes the oldest posted notice and posts none; outside a guild, with no subscribing queue pair, it enters the notice ring. A
NOTICE_PACKET of another member goes to this member's subscribers, or into the ring, and outside a guild it changes nothing. NOTICE_HOLD_EXPIRE
drops the oldest notice of a queue pair, NHOLD µs after it was queued or later, and counts it. Where queue-pair numbers are distinct and none holds more
than 64 notices, with those that wait behind their request's completion (R459), that is so afterwards. Registers but the counters, memory, partitions, halls and tables stand. -/
def Obligations.NoticesAreDelivered : Prop :=
  ∀ m : Module, SparseWf regDefault m.regs →
    let held (m : Module) : Prop := (m.ctr.qps.map (·.num)).Pairwise (· ≠ ·) ∧ ∀ q ∈ m.ctr.qps, q.outq.countP isNotice + q.behind.length ≤ 64
    (m.ctr.posted = [] → Leaves .noticeDeliver m m) ∧
    (∀ n but rest, m.ctr.posted = (n, but) :: rest →
      (Completes .noticeDeliver m fun m' => m'.ctr.posted = rest ∧ (held m → held m') ∧
        m' = { m with ctr := m'.ctr, regs := m'.regs, fab := m'.fab, sent := m'.sent, free := m'.free }) ∧
      (m.inGuild = false → m.subscribers n but = [] → m.ctr.ring.length < 4096 →
        Leaves .noticeDeliver m
          { m with ctr := { m.ctr with posted := rest, ring := m.ctr.ring ++ [n], ringHead := (m.ctr.ringHead + 1) % 4096 } })) ∧
    (∀ (src : MemberId) payload,
      (m.inGuild = false ∨ src.val = m.member → Leaves (.noticePacket src payload) m m) ∧
      (m.inGuild = true → src.val ≠ m.member →
        (Completes (.noticePacket src payload) m fun m' => m'.ctr.posted = m.ctr.posted ∧ (held m → held m') ∧
          m' = { m with ctr := m'.ctr, regs := m'.regs, sent := m'.sent }) ∧
        (m.subscribers (noticeOfBytes payload) [] = [] → m.ctr.ring.length < 4096 →
          Leaves (.noticePacket src payload) m
            { m with ctr := { m.ctr with ring := m.ctr.ring ++ [noticeOfBytes payload], ringHead := (m.ctr.ringHead + 1) % 4096 } }))) ∧
    (∀ n q, m.qp n = some q →
      (q.outq.countP isNotice = 0 → Leaves (.noticeHoldExpire n) m m) ∧
      (∀ x t, q.outq.find? isNotice = some (.notice x t) → Completes (.noticeHoldExpire n) m fun m' =>
        m'.ltime = max m.ltime (t + m.fld (ctrR 0x090) 0 16 * 1000) ∧ Counts m m' (ctrR 0x080) 32 32 ∧ (held m → held m') ∧
        (m'.qp n).map (·.outq) = some (q.outq.eraseP isNotice) ∧ (m'.qp n).map (·.lostN) = some (q.lostN + 1) ∧
        m' = { m with ctr := m'.ctr, regs := m'.regs, ltime := m'.ltime }))

/-- On a live queue pair, for a request of at most 1 GiB. An RDMA READ through the MAILBOX key within the slots answers as many bytes as asked for, the header
of a slot being the bytes of its state; through the REGION key, where the partition's translation allows the extent and no sector is poisoned, it answers the
bytes there and changes no memory, and the port's engine holds the translations that it used (R108). Through MGMT it answers the words of an aligned, reached extent. An RDMA WRITE through REGION stores exactly its bytes where
the translation allows it (other bytes of a line change only by the deltas that a combining entry still holds for the line). A key of no window
of the queue pair, an extent that the window does not hold, and a translation fault perform nothing and are answered by NAK Remote Access Error. -/
def Obligations.HostRdma : Prop :=
  ∀ (m : Module) (n : Nat) (q : QueuePair) (key : BitVec 32) (va : Word), SparseWf regDefault m.regs → Memory.wf m.mem → m.liveQp n = some q →
    (∀ len, len ≤ 2 ^ 30 →
      (q.window key = none ∨ q.window key = some 3 →
        Completes (.hostRdmaRead n key va len) m fun m' => Naks m m' n 2) ∧
      (q.window key = some 1 → q.slots.length * (64 + q.slotcap) < va.toNat + len →
        Completes (.hostRdmaRead n key va len) m fun m' => Naks m m' n 2) ∧
      (q.window key = some 1 → va.toNat + len ≤ q.slots.length * (64 + q.slotcap) →
        Completes (.hostRdmaRead n key va len) m fun m' => ∃ bs : List Byte, bs.length = len ∧
          m' = { m with free := m.free + 1, sent := m.sent ++ [.readReply n bs] } ∧
          ∀ i, i < len → (va.toNat + i) % (64 + q.slotcap) < 64 →
            bs[i]? = some ((slice (slotBytes (q.slots.getD ((va.toNat + i) / (64 + q.slotcap)) {})) 0 64).getD ((va.toNat + i) % (64 + q.slotcap)) 0)) ∧
      (∀ k g, q.window key = some 2 → 0 < len → m.translate q.ptn (queueMaster q.ptn q.aclass) va.toNat len permRead = .ok k g →
        m.poisonedIn k len = false →
        Completes (.hostRdmaRead n key va len) m fun m' => m'.sent = m.sent ++ [.readReply n (m.view k len)] ∧
          m' = { m with sent := m'.sent, regs := m'.regs, halls := m'.halls, querns := m'.querns, ltime := m'.ltime
                        xlat := (m.cacheXlat (.port q.port) q.ptn va.toNat len).xlat }) ∧
      (q.window key = some 4 → m.mgmtOk va.toNat len = true → (∀ w ∈ wordsOf va.toNat len, m.wordPoisoned w = false) →
        Leaves (.hostRdmaRead n key va len) m
          { m with free := m.free + 1
                   sent := m.sent ++ [.readReply n ((wordsOf va.toNat len).flatMap fun w => leBytes 8 (m.readLocal w).toNat)] }) ∧
      (q.window key = some 4 → m.mgmtOk va.toNat len = false → Completes (.hostRdmaRead n key va len) m fun m' => Naks m m' n 2)) ∧
    (∀ data : List Byte, data.length ≤ 2 ^ 30 →
      (q.window key = none → Completes (.hostRdmaWrite n key va data) m fun m' => Naks m m' n 2) ∧
      (q.window key = some 4 → m.mgmtOk va.toNat data.length = false →
        Completes (.hostRdmaWrite n key va data) m fun m' => Naks m m' n 2) ∧
      (∀ k g, q.window key = some 2 → m.translate q.ptn (queueMaster q.ptn q.aclass) va.toNat data.length permWrite = .ok k g →
        Completes (.hostRdmaWrite n key va data) m fun m' =>
          (∀ i, i < data.length → m'.mem.read (k + i) = data.getD i 0) ∧
          (∀ a, (a < k ∨ k + data.length ≤ a) → (∀ s, ∀ e ∈ (m.quern s).comb, e.line ≠ a / 128) → m'.mem.read a = m.mem.read a) ∧
          m'.pwr = m.pwr ∧ m'.asy = m.asy ∧ m'.guild = m.guild ∧ m'.benches = m.benches ∧ m'.tables = m.tables ∧ m'.rwk = m.rwk ∧
          m'.tokens = m.tokens))

/-! ### The Lightway fabric (R384–R394, R406) -/

/-- PAIR_SWITCH_DONE to the state that the module's state asks for makes the two ports DARK or TRAINING, without keys, and leaves the other thirty. PORT_TRAIN on a
cabled port of a LOCAL pair takes it to KEY (state 3), or to HELD (7) with the reason of IDENT: 1 for a loopback, 2 for another guild handle; reasons 2 to 4
post one notice. HELD_RETRY trains the port again, 10 s after it was held or later. KEY_AGREE with a bad certificate or signature holds the port, posts LINK_AUTH and makes no key;
with good ones a port below 30 is UP and a spare in STANDBY, with a key and salt of 36 bytes for each direction and frame counter 0, and training ends where the
memory is up. KEY_RENEW changes keys and key phase and keeps the port's state. On a port in any other state none of the last three changes anything. Log entries name the
model's readings: the order of the two keys, and the frame counter after a renewal. -/
def Obligations.LinksComeUp : Prop :=
  ∀ m : Module, m.fab.ports.length = 32 →
    let stands (m' : Module) (p : Nat) : Prop := ∀ j, j ≠ p → m'.port j = m.port j
    (∀ (k : Fin 16) (t : Bool),
      (t = m.pairLocal k.val → Leaves (.pairSwitchDone k t) m m) ∧
      (t ≠ m.pairLocal k.val → Completes (.pairSwitchDone k t) m fun m' =>
        (∀ i, i < 16 → m'.fab.through.getLsbD i = if i = k.val then t else m.fab.through.getLsbD i) ∧
        (∀ j, j = 2 * k.val ∨ j = 2 * k.val + 1 → (m'.port j).state = (if t then 0 else 1) ∧ (m'.port j).keyTx = [] ∧ (m'.port j).keyRx = []) ∧
        (∀ j, j ≠ 2 * k.val → j ≠ 2 * k.val + 1 → m'.port j = m.port j) ∧
        m' = { m with fab := { m.fab with through := m'.fab.through, ports := m'.fab.ports } })) ∧
    (∀ (p : LPort) (x : PeerIdent), m.fld (fabR 0x000) 14 1 = 1 → m.cabled p.val = true → m.fab.through.getLsbD (p.val / 2) = false →
      (m.port p.val).state ≤ 2 → Completes (.portTrain p x) m fun m' =>
        (m'.port p.val).reason = m.identFault p.val x ∧ (m'.port p.val).state = (if m.identFault p.val x = 0 then 3 else 7) ∧
        (m'.port p.val).peerSerial = x.serial ∧ stands m' p.val ∧
        (x.serial = Config.serial → m.identFault p.val x = 1) ∧
        (x.serial ≠ Config.serial → x.handle ≠ m.reg (fabR 0x008) → m.identFault p.val x = 2) ∧
        (if 2 ≤ m.identFault p.val x ∧ m.identFault p.val x ≤ 4 then
          PostsOne m m' (sevOf 0x0902) 0x0902 none 0 (leBytes 1 p.val ++ leBytes 1 (m.identFault p.val x) ++ leBytes 16 x.serial.toNat ++
            leBytes 1 x.x ++ leBytes 1 x.y ++ leBytes 1 x.z)
         else m'.ctr = m.ctr) ∧
        m' = { m with fab := { m.fab with ports := m'.fab.ports }, ctr := m'.ctr, sent := m'.sent }) ∧
    (∀ p : LPort,
      ((m.port p.val).state ≠ 7 → Leaves (.heldRetry p) m m) ∧
      ((m.port p.val).state = 7 → Completes (.heldRetry p) m fun m' =>
        (m'.port p.val).state = 1 ∧ (m'.port p.val).keyTx = [] ∧ m'.ltime = max m.ltime (m.port p.val).retryAt ∧ stands m' p.val ∧
        m' = { m with ltime := m'.ltime, fab := { m.fab with ports := m'.fab.ports } })) ∧
    (∀ (p : LPort) (c g : Bool) secret,
      ((m.port p.val).state ≠ 3 → Leaves (.keyAgree p c g secret) m m) ∧
      ((m.port p.val).state = 3 → (c = false ∨ g = false) → Completes (.keyAgree p c g secret) m fun m' =>
        (m'.port p.val).state = 7 ∧ (m'.port p.val).reason = 5 ∧ (m'.port p.val).keyTx = (m.port p.val).keyTx ∧ stands m' p.val ∧
        PostsOne m m' (sevOf 0x0602) 0x0602 none 0
          (leBytes 1 p.val ++ leBytes 16 (m.port p.val).peerSerial.toNat ++ leBytes 1 (if c then 2 else 1)) ∧
        m' = { m with fab := { m.fab with ports := m'.fab.ports }, ctr := m'.ctr, sent := m'.sent }) ∧
      ((m.port p.val).state = 3 → Completes (.keyAgree p true true secret) m fun m' =>
        (m'.port p.val).state = (if p.val < 30 then 4 else 5) ∧ (m'.port p.val).keyTx.length = 36 ∧ (m'.port p.val).keyRx.length = 36 ∧
        (m'.port p.val).counter = 0 ∧ stands m' p.val ∧
        (m.pwr.mode ≠ .training → m' = { m with fab := m'.fab, sent := m'.sent }) ∧
        (m.pwr.mode = .training → p.val < 30 → m.pwr.memoryUp = true → m.fld (fabR 0x000) 14 1 = 1 → m'.pwr.mode = .quarantine))) ∧
    (∀ (p : LPort) secret,
      ((m.port p.val).state ≠ 4 → (m.port p.val).state ≠ 5 → Leaves (.keyRenew p secret) m m) ∧
      ((m.port p.val).state = 4 ∨ (m.port p.val).state = 5 → Completes (.keyRenew p secret) m fun m' =>
        (m'.port p.val).state = (m.port p.val).state ∧ (m'.port p.val).phase = !(m.port p.val).phase ∧
        (m'.port p.val).keyTx.length = 36 ∧ (m'.port p.val).keyRx.length = 36 ∧ stands m' p.val ∧
        m' = { m with fab := { m.fab with ports := m'.fab.ports } }))

/-- On an UP or STANDBY port all three complete. LINK_FRAME_RECEIVE counts corrected codewords, a discarded frame, or a failed tag (each up to its field's
maximum), and an accepted frame moves the frame counter on; nothing else changes, but where more frames than UERATE were discarded within the last second, or 16 tags
failed within the last millisecond: then the port is taken FAILED. PORT_FAIL takes the port FAILED with its keys zeroised; a port on the spare axis whose spare is in
STANDBY hands over to it with PORT_SPARED, and any other posts PORT_LOST; the event is entered in its hall's log. LINK_DOWN zeroises the keys and trains the port
again. When a spare itself goes, its axis's ports are spared no longer. In a guild, both report the link down to the warden (for PORT_FAIL the model's own reading,
see the assumption log). On a port in any other state they change nothing. -/
def Obligations.LinksFailAndGoDown : Prop :=
  ∀ (m : Module) (p : LPort), m.fab.ports.length = 32 → SparseWf regDefault m.regs →
    let x := m.port p.val
    let r := fabR (0x108 + 0x10 * p.val)
    let live : Prop := x.state = 4 ∨ x.state = 5
    (¬ live → (∀ a b n, Leaves (.linkFrameReceive p a b n) m m) ∧ Leaves (.portFail p) m m ∧ Leaves (.linkDown p) m m) ∧
    (live → ∀ (cw tag : Bool) n,
      let since (d : Nat) (l : List Nat) : List Nat := m.ltime :: l.filter fun u => decide (m.ltime < u + d)
      let discards := since 1000000000 x.discards
      let fails : List Nat := if cw then since 1000000 x.authFails else x.authFails.filter fun u => decide (m.ltime < u + 1000000)
      let crowded : Prop := m.fld (fabR 0x028) 40 16 < discards.length ∨ 16 ≤ fails.length
      Completes (.linkFrameReceive p cw tag n) m fun m' =>
        m'.fld r 0 32 = min (m.fld r 0 32 + n) (2 ^ 32 - 1) ∧
        m'.fld r 32 16 = (if cw then m.fld r 32 16 else min (m.fld r 32 16 + 1) (2 ^ 16 - 1)) ∧
        m'.fld r 48 16 = (if cw && !tag then min (m.fld r 48 16 + 1) (2 ^ 16 - 1) else m.fld r 48 16) ∧
        ((cw && tag) = true → m'.port p.val = { x with counter := x.counter + 1 }) ∧
        ((cw && tag) = false → ¬ crowded → m'.port p.val = { x with discards := discards, authFails := fails }) ∧
        ((cw && tag) = true ∨ ¬ crowded →
          (∀ b, b ≠ r → m'.reg b = m.reg b) ∧ (∀ j, j ≠ p.val → m'.port j = m.port j) ∧
          m' = { m with regs := m'.regs, fab := { m.fab with ports := m'.fab.ports } }) ∧
        ((cw && tag) = false → crowded → m.facing p.val ≠ none →
          (m'.port p.val).state = 6 ∧ (m'.port p.val).keyTx = [] ∧ (m'.port p.val).keyRx = [])) ∧
    (live → ∀ d l, m.facing p.val = some (d, l) →
      let sp := 30 + d % 2
      let spare : Prop := p.val < 30 ∧ m.fld (fabR 0x000) 12 2 = d / 2 ∧ (m.port sp).state = 5
      Completes (.portFail p) m fun m' =>
        (m'.port p.val).state = 6 ∧ (m'.port p.val).keyTx = [] ∧ (m'.port p.val).keyRx = [] ∧
        (spare → (m'.port p.val).spared = true ∧ (m'.port sp).state = 4 ∧
          (x.authFails.length < 16 → ∃ t, PostsOne m m' (sevOf 0x0205) 0x0205 none 0 t) ∧
          ∀ j, j ≠ p.val → j ≠ sp → m'.port j = m.port j) ∧
        (¬ spare → (m'.port p.val).spared = false ∧
          (x.authFails.length < 16 → ∃ t, PostsOne m m' (sevOf 0x0206) 0x0206 none 0 t) ∧
          ∀ j, j ≠ p.val → m'.port j =
            if 30 ≤ p.val ∧ j < 32 ∧ j % 2 = p.val % 2 then { m.port j with spared := false } else m.port j) ∧
        m'.fab.downAt = m.ltime ∧
        (m.inGuild = true → ∃ n w, .fab m.guild.warden 0 n w (.linkDown p.val) ∈ m'.sent) ∧
        m' = { m with regs := m'.regs, fab := m'.fab, ctr := m'.ctr, halls := m'.halls, sent := m'.sent }) ∧
    (live → Completes (.linkDown p) m fun m' =>
      (m'.port p.val).state = 1 ∧ (m'.port p.val).keyTx = [] ∧ (m'.port p.val).keyRx = [] ∧ m'.fab.downAt = m.ltime ∧
      (p.val < 30 → ∀ j, j ≠ p.val → m'.port j = m.port j) ∧ (∀ j, j ≠ p.val → (m'.port j).state = (m.port j).state) ∧
      (m.inGuild = true → ∃ n w, .fab m.guild.warden 0 n w (.linkDown p.val) ∈ m'.sent) ∧
      m' = { m with fab := m'.fab, sent := m'.sent })

/-- On an UP port, outside QUARANTINE or on VC0: a packet for another member changes no state, and in a guild with hops left goes on with HOP one higher and every
other field but the buffer class as it was; one whose trailer fails is answered by E2E alone; one of a reserved kind is counted and discarded. A packet of
another member and of a kind other than CONTROL releases the packets it acknowledges; the next in sequence of its source and channel is accepted and acknowledged, an
earlier one is acknowledged again without being accepted, and a later one is neither. E2E_TIMEOUT (at the end of the time that the register gives from the last sending) and E2E send
a packet that is not acknowledged again under its number, and its time starts anew; they change nothing where it is acknowledged. TOKEN_PACKET puts its tokens, in order, on the way to their halls. -/
def Obligations.PacketsInSequence : Prop :=
  ∀ m : Module, SparseWf regDefault m.regs →
    (∀ (p : LPort) (h : PacketHeader) payload crc,
      let src := h.src.toNat % 64
      let vc := h.vcc.toNat % 4
      let f := m.flow src vc
      let n := h.pseq.toNat
      let kept := f.unacked.filter fun x => decide (h.ack.toNat < x.1)
      ((m.port p.val).state ≠ 4 → src ≠ m.member → Leaves (.packetReceive p h payload crc) m m) ∧
      (m.pwr.mode = .quarantine → vc ≠ 0 → Leaves (.packetReceive p h payload crc) m m) ∧
      ((m.port p.val).state = 4 → (m.pwr.mode ≠ .quarantine ∨ vc = 0) →
        (h.dst.toNat % 64 ≠ m.member → Completes (.packetReceive p h payload crc) m fun m' =>
          m' = { m with sent := m'.sent } ∧
          (m.inGuild = false ∨ h.route.toNat / 2 ^ 36 % 16 ≤ h.hop.toNat → m'.sent = m.sent) ∧
          (m.inGuild = true → h.hop.toNat < h.route.toNat / 2 ^ 36 % 16 → ∃ v : Byte,
            (∀ i, i < 8 → i ≠ 2 → v.getLsbD i = h.vcc.getLsbD i) ∧
            m'.sent = m.sent ++ [.transit (h.route.toNat / 8 ^ h.hop.toNat % 8) { h with hop := h.hop + 1, vcc := v } payload])) ∧
        (h.dst.toNat % 64 = m.member →
          (crc32c (packetBytes h 0 ++ payload) ≠ crc →
            Leaves (.packetReceive p h payload crc) m { m with sent := m.sent ++ [.e2e src vc n] }) ∧
          (crc32c (packetBytes h 0 ++ payload) = crc → kindKnown h.kind.toNat = false →
            Completes (.packetReceive p h payload crc) m fun m' =>
              Counts m m' (fabR (0x108 + 0x10 * p.val)) 48 16 ∧ m' = { m with regs := m'.regs }) ∧
          (crc32c (packetBytes h 0 ++ payload) = crc → kindKnown h.kind.toNat = true → src ≠ m.member → h.kind ≠ 0x01 →
            Completes (.packetReceive p h payload crc) m fun m' =>
              m'.flow src vc = { f with unacked := kept, recv := if n = f.recv + 1 then n else f.recv } ∧
              (∀ k c, (k ≠ src ∨ c ≠ vc) → m'.flow k c = m.flow k c) ∧
              m'.sent = m.sent ++ (if n = f.recv + 1 then [.ack src vc n] else if n ≤ f.recv then [.ack src vc f.recv] else []) ∧
              m' = { m with fab := { m.fab with flows := m'.fab.flows }, sent := m'.sent })))) ∧
    (∀ (dst : MemberId) (vc : Fin 4) (n : BitVec 32),
      (∀ x, (m.flow dst.val vc.val).unacked.find? (fun x => x.1 == n.toNat) = some x →
        let again (now : Nat) (m' : Module) : Prop :=
          m'.ltime = now ∧
          m'.sent = m.sent ++ [Out.fab dst.val vc.val n.toNat ((assocGet dst.val m.fab.routes).getD 0) x.2.2] ∧
          m'.flow dst.val vc.val = { m.flow dst.val vc.val with
            unacked := (m.flow dst.val vc.val).unacked.map fun y => if y.1 == n.toNat then (y.1, now, y.2.2) else y } ∧
          (∀ k c, (k ≠ dst.val ∨ c ≠ vc.val) → m'.flow k c = m.flow k c) ∧
          m' = { m with ltime := m'.ltime, fab := { m.fab with flows := m'.fab.flows }, sent := m'.sent }
        Completes (.e2eTimeout dst vc n) m (again (max m.ltime (x.2.1 + m.fld (fabR 0x028) 32 8 * 1000))) ∧
        (dst.val ≠ m.member → Completes (.e2e dst vc n) m (again m.ltime))) ∧
      ((∀ x ∈ (m.flow dst.val vc.val).unacked, x.1 ≠ n.toNat) → Leaves (.e2eTimeout dst vc n) m m ∧ Leaves (.e2e dst vc n) m m)) ∧
    (∀ (src : MemberId) (p : PtnId) payload,
      (src.val = m.member → Leaves (.tokenPacket src p payload) m m) ∧
      (src.val ≠ m.member → Leaves (.tokenPacket src p payload) m
        { m with tokens := m.tokens ++ (List.range (payload.length / 16)).map fun i =>
            ({ tok := { tokenOf (slice payload (16 * i) 16) with ptn := BitVec.ofNat 8 p.val }, src := .member src.val } : Flight) }))

/-! ### The ropewalk: collectives (R411–R429) -/

/-- CHUNK, for a collective that its signature finds and a chunk of the current mask: a packet that is not the last is kept as a piece; the last one of a child's sum with
a good length and CRC brings the child's values, and while another child is missing and HOLD has been sent nothing else changes; the first one with a bad CRC is answered by
NACK, and the chunk stands. A packet for which no collective is under way is kept, as is HOLD for a chunk that has not begun. NACK
sends the chunk last sent to its sender again, packet for packet, and changes no memory. STRAGGLER_EXPIRE, for a child that has sent neither its sum nor HOLD, sends LATE to the
coordinator, and nothing after a HOLD. How HOLD reads and when a root is late are log entry 25; that an unknown packet is kept is log entry 26. -/
def Obligations.CollectiveMessages : Prop :=
  ∀ (m : Module) (c : Coll) (n : Nat) (k : ChunkSt), SparseWf regDefault m.regs → m.coll c.id = some c → c.chunk n = some k →
    let put (heard : List Nat) (f : ChunkSt → ChunkSt) : Ropewalk :=
      { m.rwk with
        colls := updWhere (fun x => x.id == c.id)
          (fun x => { x with heard := heard, chunks := updWhere (fun y => y.num == n) f x.chunks }) m.rwk.colls }
    (∀ (src : MemberId) (p : PtnId) (bs : List Byte),
      let heard := if c.heard.contains src.val then c.heard else c.heard ++ [src.val]
      let sig : Word := BitVec.ofNat 64 (fieldAt bs 0 8)
      let phase := fieldAt bs 0x0E 1 / 2 % 2
      let got := ((k.pieces ++ [(src.val, phase, fieldAt bs 0x10 4, slice bs 0x20 (fieldAt bs 0x14 4))]).filter
          fun x => x.1 == src.val && x.2.1 == phase).foldl
        (fun (b : List Byte) x => slice b 0 x.2.2.1 ++ x.2.2.2 ++ b.drop (x.2.2.1 + x.2.2.2.length)) []
      let rest := (k.pieces ++ [(src.val, phase, fieldAt bs 0x10 4, slice bs 0x20 (fieldAt bs 0x14 4))]).filter
          fun x => !(x.1 == src.val && x.2.1 == phase)
      m.allowed tcRopewalk 0 p.val (remoteMaster src.val p.val) permWrite = true →
      (m.rwk.colls.filter fun x => x.ptn == p.val && x.grp == fieldAt bs 0x0C 2).find? (fun x => x.sig == sig) = some c →
      fieldAt bs 8 4 = n → fieldAt bs 0x0F 1 = c.rfm → src.val ∈ c.ranks → c.ended ≠ some stAborted →
      (fieldAt bs 0x0E 1 / 4 % 2 = 0 →
        Leaves (.chunk src p bs) m { m with rwk := put heard fun y =>
          { y with pieces := k.pieces ++ [(src.val, phase, fieldAt bs 0x10 4, slice bs 0x20 (fieldAt bs 0x14 4))] } }) ∧
      (fieldAt bs 0x0E 1 / 4 % 2 = 1 → got.length = 4 * c.elems n → (crc64 got).toNat = fieldAt bs 0x18 8 → phase = 0 →
        src.val ∈ kidsIn (c.tree n) m.member → k.saidHold = true → c.ended = none → k.root = none → k.total = none → k.upRfm ≠ some c.rfm →
        (∃ d ∈ kidsIn (c.tree n) m.member, d ≠ src.val ∧ ∀ x ∈ k.kids, x.1 ≠ d) →
        Completes (.chunk src p bs) m fun m' =>
          ((m'.coll c.id).bind fun x => x.chunk n) =
            some { k with pieces := rest, sat := k.sat || (fieldAt bs 0x0E 1).testBit 3, kids := assocSet src.val (wireVals c.isInt got) k.kids } ∧
          m' = { m with rwk := m'.rwk }) ∧
      (fieldAt bs 0x0E 1 / 4 % 2 = 1 → (crc64 got).toNat ≠ fieldAt bs 0x18 8 → k.nacked = false →
        Completes (.chunk src p bs) m fun m' =>
          m'.rwk = put heard (fun y => { y with pieces := rest, nacked := true }) ∧ m' = { m with rwk := m'.rwk, fab := m'.fab, sent := m'.sent } ∧
          (src.val ≠ m.member → m.isJoined src.val = true → ∃ s w, m'.sent = m.sent ++ [.fab src.val 0 s w (.nack c.id n)]))) ∧
    (∀ (src : MemberId) (p : PtnId) (bs : List Byte), m.allowed tcRopewalk 0 p.val (remoteMaster src.val p.val) permWrite = true →
      (∀ x ∈ m.rwk.colls, x.ptn ≠ p.val ∨ x.grp ≠ fieldAt bs 0x0C 2) →
      Leaves (.chunk src p bs) m { m with rwk := { m.rwk with packets := m.rwk.packets ++ [(src.val, p.val, bs)] } }) ∧
    (∀ src : MemberId,
      Leaves (.hold src c.id n) m
        { m with rwk := { m.rwk with
          colls := updWhere (fun x => x.id == c.id)
            (fun x => { x with chunks := updWhere (fun y => y.num == n) (fun y => { y with holds := y.holds ++ [src.val] }) x.chunks })
            m.rwk.colls } } ∧
      (∀ id j, m.coll id = none → Leaves (.hold src id j) m { m with rwk := { m.rwk with holds := m.rwk.holds ++ [(id, j, src.val)] } }) ∧
      ((∀ x ∈ k.sent, x.1 ≠ src.val) → Leaves (.chunkNack src c.id n) m m) ∧
      (∀ x, k.sent.reverse.find? (fun x => x.1 == src.val) = some x → Completes (.chunkNack src c.id n) m fun m' =>
        Counts m m' (rwkR 0x118) 0 32 ∧ m' = { m with regs := m'.regs, rwk := m'.rwk, fab := m'.fab, sent := m'.sent } ∧
        (src.val ≠ m.member → m.isJoined src.val = true → ∀ pk ∈ chunkPackets c n x.2.1 k.sat x.2.2,
          ∃ s w, .fab src.val 2 s w (.payload 0x20 c.ptn pk) ∈ m'.sent))) ∧
    (∀ nb : MemberId,
      (nb.val ∈ k.holds → Leaves (.stragglerExpire c.id n nb) m m) ∧
      (∀ g d, c.ended = none → nb.val ∈ kidsIn (c.tree n) m.member → (∀ x ∈ k.kids, x.1 ≠ nb.val) → k.root = none → k.total = none →
        nb.val ∉ k.holds → m.groupOf c.grp = some g → coordinator c.live nb.val = some d →
        Completes (.stragglerExpire c.id n nb) m fun m' =>
          m'.ltime = max m.ltime (k.since + m.stragLimit g * 1000 + 1) ∧
          (∃ s w, m'.sent = m.sent ++ [.fab d 0 s w (.lateMsg c.id nb.val c.elastic)]) ∧
          m' = { m with ltime := m'.ltime, fab := m'.fab, sent := m'.sent }))

/-- COLL_ABORT, and a REFORM whose mask leaves this member out, end a collective that runs here with ABORTED and release its buffer; no other collective changes, and a node's collective
posts one COLL ABORTED notice with the cause (MISMATCH for cause 0). On an ended collective COLL_ABORT changes nothing, nor does an old REFORM. For a collective whose sequence number is not taken here both
are kept until it begins, and for one that is past neither changes anything. LATE at the coordinator of an elastic group of three or more, for a collective not begun, sends REFORM
without the late member and posts one notice; in a group that is not elastic it sends ABORT. Elsewhere it changes nothing. Level C sums for a
chunk that has not begun wait. -/
def Obligations.CollectiveReformsAndAborts : Prop :=
  ∀ m : Module, SparseWf regDefault m.regs →
    let taken (id : Nat) : Nat := (assocGet (nameGrp id * 8 + namePtn id) m.rwk.seqs).getD 0
    let ends (id : Nat) (m' : Module) : Prop :=
      m'.rwk = { m.rwk with colls := updWhere (fun x => x.id == id) (fun x => { x with ended := some stAborted, reserved := false }) m.rwk.colls }
    let stands (m' : Module) : Prop :=
      m'.pwr = m.pwr ∧ m'.ltime = m.ltime ∧ m'.asy = m.asy ∧ m'.benches = m.benches ∧ m'.querns = m.querns ∧ m'.tables = m.tables ∧
      m'.insts = m.insts ∧ m'.tokens = m.tokens
    (∀ (p : PtnId) (grp : BitVec 16) (seq : Word) (cause : Byte) (d k : MemberId) (sa sb : Word), grp.toNat < 512 →
      let id := collName p.val grp.toNat seq.toNat
      (∀ c, m.coll id = some c → c.ended = none → Completes (.collAbort p grp seq cause d k sa sb) m fun m' =>
        ends id m' ∧ stands m' ∧
        (c.key.isSome = true → cause ≠ 0 → PostsOne m m' (sevOf 0x0403) 0x0403 (some c.ptn) 0
          (collDetail c.grp c.seq ++ leBytes 1 cause.toNat ++ leBytes 1 k.val)) ∧
        (c.key.isSome = true → cause = 0 → ∃ detail, PostsOne m m' (sevOf 0x0401) 0x0401 (some c.ptn) 0 detail)) ∧
      (∀ c, m.coll id = some c → c.ended ≠ none → Leaves (.collAbort p grp seq cause d k sa sb) m m) ∧
      (m.coll id = none → seq.toNat < taken id → Leaves (.collAbort p grp seq cause d k sa sb) m m) ∧
      (m.coll id = none → taken id ≤ seq.toNat → Leaves (.collAbort p grp seq cause d k sa sb) m
        { m with rwk := { m.rwk with aborts := m.rwk.aborts ++
            [{ name := id, cause := cause.toNat, detector := d.val, member := k.val, sigA := sa, sigB := sb }] } })) ∧
    (∀ (id : Nat) (mask : Word) (r : Byte),
      (∀ c, m.coll id = some c → r.toNat ≤ c.rfm ∨ c.ended = some stAborted → Leaves (.reform id mask r) m m) ∧
      (∀ c, m.coll id = some c → c.rfm < r.toNat → c.ended = none → mask.getLsbD m.member = false →
        Completes (.reform id mask r) m fun m' => ends id m' ∧ stands m') ∧
      (m.coll id = none → nameSeq id < taken id → Leaves (.reform id mask r) m m) ∧
      (m.coll id = none → taken id ≤ nameSeq id → (∀ x ∈ m.rwk.reforms, x.1 ≠ id) →
        Leaves (.reform id mask r) m { m with rwk := { m.rwk with reforms := m.rwk.reforms ++ [(id, mask.toNat, r.toNat)] } })) ∧
    (∀ (id : Nat) (k : MemberId) (el : Bool),
      (m.groupOf (nameGrp id) = none → Leaves (.late id k el) m m) ∧
      (∀ g, m.groupOf (nameGrp id) = some g → m.coll id = none → taken id ≤ nameSeq id → (∀ x ∈ m.rwk.reforms, x.1 ≠ id) →
        let full := (g.ranks.map fun k => 2 ^ k).sum
        let live := g.ranks.filter fun k => full.testBit k
        (coordinator live k.val ≠ some m.member → Leaves (.late id k el) m m) ∧
        (k.val ∈ live → coordinator live k.val = some m.member → ¬ (g.levelC = true ∧ g.lcmember = k.val) →
          Completes (.late id k el) m fun m' =>
            if el = true ∧ 3 ≤ live.length then
              m'.rwk = { m.rwk with reforms := m.rwk.reforms ++ [(id, full - 2 ^ k.val, 1)] } ∧
              PostsOne m m' (sevOf 0x0402) 0x0402 (some (namePtn id)) 0
                (collDetail (nameGrp id) (nameSeq id) ++ leBytes 8 (2 ^ k.val) ++ leBytes 1 1 ++ leBytes 1 1) ∧
              (∀ d ∈ g.ranks, d ≠ m.member → m.isJoined d = true → ∃ s w, .fab d 0 s w (.reform id (full - 2 ^ k.val) 1) ∈ m'.sent) ∧
              m' = { m with rwk := m'.rwk, ctr := m'.ctr, fab := m'.fab, sent := m'.sent }
            else
              m'.rwk = { m.rwk with aborts := m.rwk.aborts ++
                [{ name := id, cause := 1, detector := m.member, member := k.val, sigA := 0, sigB := 0 }] } ∧
              (∀ d ∈ g.ranks, d ≠ m.member → m.isJoined d = true →
                ∃ s w, .fab d 0 s w (.collAbort (namePtn id) (nameGrp id) (nameSeq id) 1 m.member k.val 0 0) ∈ m'.sent) ∧
              m' = { m with rwk := m'.rwk, fab := m'.fab, sent := m'.sent }))) ∧
    (∀ (id n gp : Nat) (v : List (BitVec 32)),
      ((∀ g, m.groupOf (nameGrp id) = some g → g.levelC = false ∨ g.lcmember ≠ m.member) → Leaves (.levelCSumReceive id n gp v) m m) ∧
      (∀ g q p, m.groupOf (nameGrp id) = some g → g.levelC = true → g.lcmember = m.member → g.peers.find? (fun p => p.1 == gp) = some p →
        m.qp p.2 = some q → m.allowed tcQueue q.target q.ptn ropewalkMaster permRead = true → m.coll id = none →
        Leaves (.levelCSumReceive id n gp v) m { m with rwk := { m.rwk with sums := m.rwk.sums ++ [(id, n, gp, v)] } }))

/-- A READY ALLREDUCE node whose group no agreement changes, with valid operands, rules and grants, and a group that holds this member: the entry executes, the collective forms with the group's
ranks, the signature of R417 and the next sequence number of its partition and group, which moves on by one; no memory is changed. A node whose operand tokens do not let it execute has run with their status.
RWK_RESERVE_RETRY reserves twice the pass size or nothing. COLL_PASS_START on a reserved collective whose chunks are done and whose pages are
present starts the next chunks of a pass and counts the pass; otherwise, unreserved or whole, it changes nothing. A descriptor on no COMM queue pair changes nothing; one that R424
refuses completes without a tally entry; any other that is new is tallied, waits while an agreement changes its group, and else forms its collective. -/
def Obligations.CollectiveLaunch : Prop :=
  ∀ m : Module, SparseWf regDefault m.regs →
    let formed (l : Launch) (g : Group) (m' : Module) : Prop :=
      let key := l.grp * 8 + l.ptn
      let seq := (assocGet key m.rwk.seqs).getD 0
      let el := if l.grp < 256 then g.elastic else l.elastic
      let sig := signature l.y.1.type l.ck l.ptn l.grp el g.levelC l.y.1.layout l.y.1.storedElems seq
      (∃ c ∈ m'.rwk.colls, c.id = collName l.ptn l.grp seq ∧ c.key = l.key ∧ c.reqid = l.reqid ∧ c.seq = seq ∧ c.sig = sig ∧
        c.ranks = g.ranks ∧ c.count = l.y.1.storedElems ∧ c.chunks = [] ∧ c.pass = 0 ∧ c.ended = none) ∧
      assocGet key m'.rwk.seqs = some (seq + 1) ∧ (∀ j, j ≠ key → assocGet j m'.rwk.seqs = assocGet j m.rwk.seqs) ∧ m'.reg (rwkR 0x120) = sig
    let ready (l : Launch) (g : Group) : Prop :=
      let seq := (assocGet (l.grp * 8 + l.ptn) m.rwk.seqs).getD 0
      (∀ M ∈ l.masters, m.allowed tcRopewalk 0 l.ptn M permWrite = true) ∧ (∃ ts, m.collTensors l = .ok ts) ∧ m.groupOf l.grp = some g ∧
      m.member ∈ g.ranks ∧ ((g.ranks.map fun k => 2 ^ k).sum).testBit m.member = true ∧ l.reexec = false ∧
      (∀ x ∈ m.rwk.reforms, x.1 ≠ collName l.ptn l.grp seq) ∧ (∀ a ∈ m.rwk.aborts, a.name ≠ collName l.ptn l.grp seq)
    (∀ k, m.storeFiring k 0x50 = none → Leaves (.allreduce k) m m) ∧
    (∀ k f, m.storeFiring k 0x50 = some f → m.groupWaits (f.n.grp (m.draft f.ptn)) = false → m.barred f.e = false →
      (∀ st, f.operands = .inl st → Completes (.allreduce k) m fun m' =>
        (∃ e, m'.entry k = some e ∧ e.ran = true ∧ e.status = st) ∧ m' = { m with halls := m'.halls, stamp := m'.stamp }) ∧
      (∀ st g, f.operands = .inr st → ((allreduceRules m.extents (f.env (m.draft f.ptn))).all (·.1)) = true → ready (m.launchOf f) g →
        Completes (.allreduce k) m fun m' =>
          formed (m.launchOf f) g m' ∧ (∃ e, m'.entry k = some e ∧ e.state = .executing ∧ e.launched = true) ∧
          m' = { m with regs := m'.regs, halls := m'.halls, stamp := m'.stamp, rwk := m'.rwk, insts := m'.insts })) ∧
    (∀ id,
      (m.liveColl id = none → Leaves (.rwkReserveRetry id) m m ∧ Leaves (.collPassStart id) m m) ∧
      (∀ c, m.liveColl id = some c →
        Leaves (.rwkReserveRetry id) m
          (if c.reserved = false ∧ m.rgUsed c.ptn + 2 * c.qsize ≤ m.rgbuf c.ptn then
            { m with rwk := { m.rwk with colls := updWhere (fun x => x.id == id) (fun x => { x with reserved := true }) m.rwk.colls } }
           else m) ∧
        (c.reserved = false ∨ (∃ k ∈ c.chunks, k.done = false) ∨ chunkCount c.count c.csize ≤ c.chunks.length → Leaves (.collPassStart id) m m) ∧
        (c.reserved = true → (∀ k ∈ c.chunks, k.done = true) → c.chunks.length < chunkCount c.count c.csize → m.collLostPage c = none →
          m.collAbsent c = none → (∀ e, c.key.bind m.entry = some e → e.haltAt = none) → Completes (.collPassStart id) m fun m' =>
            (m'.coll id).map (fun x => (x.pass, x.chunks.map (·.num))) =
              some (c.pass + 1, c.chunks.map (·.num) ++
                (List.range (min (c.qsize / c.csize) (chunkCount c.count c.csize - c.chunks.length))).map (c.chunks.length + ·)) ∧
            m'.pwr = m.pwr ∧ m.ltime ≤ m'.ltime ∧ m'.benches = m.benches ∧ m'.tables = m.tables ∧ m'.insts = m.insts))) ∧
    (∀ n d,
      (m.qp n = none → Leaves (.fallbackLaunch n d) m m) ∧
      (∀ q, m.qp n = some q → (q.kind ≠ 1 ∨ q.err = true) → Leaves (.fallbackLaunch n d) m m) ∧
      (∀ q, m.qp n = some q → q.kind = 1 → q.err = false → m.pwr.mode = .joined ∨ m.pwr.mode = .draining →
        let p := d.ptn.toNat % 8
        (m.fallbackOk q d = false → Completes (.fallbackLaunch n d) m fun m' => m' = { m with ctr := m'.ctr, regs := m'.regs, sent := m'.sent }) ∧
        (m.fallbackOk q d = true → m.tallyOf p d.reqid = none → (∀ b ∈ (m.ptn p).blocked, b.origin.capsule.opc ≠ 0xF0) →
          (m.ptn p).tally.length < 1048576 → m.guild.twinCopy = false → m.ctr.stagedBytes ≤ 2 ^ 30 → m.rwk.fallbacks = [] →
          (m.groupWaits (fallbackGrp d) = true → Completes (.fallbackLaunch n d) m fun m' =>
            m'.rwk = { m.rwk with fallbacks := [{ qp := n, desc := capsuleFallback (fallbackCapsule d) }] } ∧
            m'.insts = m.insts ∧ m'.mem = m.mem ∧ m'.halls = m.halls) ∧
          (∀ g, m.groupWaits (fallbackGrp d) = false →
            let l : Launch :=
              { reqid := d.reqid, ptn := p, grp := fallbackGrp d, ck := d.flags.toNat / 16, rnd := d.flags.toNat / 2 % 4
                elastic := d.flags.toNat.testBit 0, xs := [(linear d.type.toNat d.count.toNat, d.xaddr.toNat)]
                y := (linear d.type.toNat d.count.toNat, d.yaddr.toNat)
                m := if d.maddr = 0 then none
                  else some (linear 0x14 (chunkCount d.count.toNat (chunkBytes (d.flags.toNat / 16))), d.maddr.toNat)
                masters := [queueMaster p q.aclass] }
            ready l g → Completes (.fallbackLaunch n d) m fun m' =>
              formed l g m' ∧ m'.rwk.fallbacks = [] ∧ m'.insts = m.insts ∧ m'.mem = m.mem ∧ m'.halls = m.halls))))

/-! ### Matching, dispatch and the end of firings (R51–R69, R79, R345, R346) -/

/-- TOKEN_ARRIVE takes the first flight of the token that no earlier one from its source to its hall keeps back off its way, and changes nothing where there is none. Of no live instance, it is counted as stale in hall H0 (that hall is log entry 9). Of a cancelled one, it is counted in its node's hall. For a port that is not dynamic, or filled, it is counted
and flags the instance. Otherwise, where its node's match entry holds other tokens and a slot is free, it joins them; the last one with a ready entry free makes the
entry READY with every token, and without one it waits in the completion reserve, counted; without a slot, or MAXGEN or more ahead, it waits at its producer, counted once. STALE_TOKEN_DISCARD drops and counts a stale token that has
arrived, and 1 s after it was sent a packet's that was not delivered; any other stays. AFFINITY_HOLD_EXPIRE lapses a hold no earlier than its time.
MATCH_STALL posts its notice once per instance. -/
def Obligations.TokenMatching : Prop :=
  ∀ (m : Module) (t : Token), SparseWf regDefault m.regs → m.halls.length = 4 →
    (m.arrival t = none → Leaves (.tokenArrive t) m m ∧ (m.undelivered t = none → Leaves (.staleTokenDiscard t) m m)) ∧
    (∀ f n at_ ts, m.arrival t = none → m.undelivered t = some (f, n, at_, ts) → Completes (.staleTokenDiscard t) m fun m' =>
      m'.fld (halR 0 0x018) 32 32 = min (m.fld (halR 0 0x018) 32 32 + ts.length) (2 ^ 32 - 1) ∧
      (∀ b, b ≠ halR 0 0x018 → m'.reg b = m.reg b) ∧ m'.ltime = max m.ltime (at_ + 1000000000) ∧
      m'.flow f.member f.vc = { f with unacked := f.unacked.filter fun x => x.1 != n } ∧
      m' = { m with ltime := m'.ltime, regs := m'.regs, fab := { m.fab with flows := m'.fab.flows } }) ∧
    (∀ x j, m.arrival t = some (x, j) →
      let rest := m.tokens.eraseIdx j
      let k : FKey := { inst := t.inst, node := t.node, gen := t.gen }
      let flagged (m' : Module) : Prop :=
        m'.insts = updWhere (fun x => x.num == t.inst) (fun x => { x with status := worse x.status stFlagged }) m.insts ∧
        m' = { m with tokens := rest, regs := m'.regs, insts := m'.insts }
      let holds (h : Nat) : Prop :=
        (x.since = none → Completes (.tokenArrive t) m fun m' =>
          Counts m m' (halR h 0x020) 0 32 ∧ m' = { m with tokens := m.tokens.set j { x with since := some m.ltime }, regs := m'.regs }) ∧
        (x.since ≠ none → Leaves (.tokenArrive t) m m) ∧ Leaves (.staleTokenDiscard t) m m
      (m.inst t.inst = none → ∀ c : Instr, c = .tokenArrive t ∨ c = .staleTokenDiscard t → Completes c m fun m' =>
        Counts m m' (halR 0 0x018) 32 32 ∧ m' = { m with tokens := rest, regs := m'.regs }) ∧
      (∀ i g n, m.inst t.inst = some i → m.graph i.ptn i.handle = some g → g.nodes[t.node.toNat]? = some n →
        let h := (m.draft i.ptn).nodeHall n
        let open_ : Bool := decide (tokPort t < n.nports) && n.dyn.testBit (tokPort t)
        let held := ((m.entry k).map (·.tokens)).getD []
        h < 4 →
        (i.cancelled = true → ∀ c : Instr, c = .tokenArrive t ∨ c = .staleTokenDiscard t → Completes c m fun m' =>
          Counts m m' (halR h 0x018) 32 32 ∧ m' = { m with tokens := rest, regs := m'.regs }) ∧
        (i.cancelled = false → open_ = false → Completes (.tokenArrive t) m fun m' => Counts m m' (halR h 0x028) 0 32 ∧ flagged m') ∧
        (i.cancelled = false → open_ = true → (m.hall h).filled k (tokPort t) = true → Completes (.tokenArrive t) m fun m' =>
          Counts m m' (halR h 0x018) 0 32 ∧ flagged m') ∧
        (i.cancelled = false → open_ = true → (m.hall h).filled k (tokPort t) = false → (m.hall h).early t g.maxgen = true → holds h) ∧
        (i.cancelled = false → open_ = true → (m.hall h).filled k (tokPort t) = false → (m.hall h).early t g.maxgen = false →
          ((m.hall h).entries.find? fun e => e.key == k) = m.entry k →
          (held.length + 1 ≠ popcount 8 n.dyn → ∀ p, m.slotFor h i g = some p → Completes (.tokenArrive t) m fun m' =>
            (m'.entry k).map (·.tokens) = some (held ++ [(tokPort t, t, p)]) ∧ m' = { m with tokens := rest, halls := m'.halls }) ∧
          (held.length + 1 = popcount 8 n.dyn → ∀ p, m.readyFor h i g = some p → Completes (.tokenArrive t) m fun m' =>
            (∃ e, m'.entry k = some e ∧ e.state = .ready ∧ e.place = p ∧ (∀ y ∈ e.tokens, y.2.2 = p) ∧
              e.tokens.map (fun x => (x.1, x.2.1)) = held.map (fun x => (x.1, x.2.1)) ++ [(tokPort t, t)]) ∧
            m' = { m with tokens := rest, halls := m'.halls, stamp := m'.stamp }) ∧
          (held.length + 1 = popcount 8 n.dyn → m.readyFor h i g = none → (m.hall h).tokensAt .completion none < 4096 →
            Completes (.tokenArrive t) m fun m' =>
              (∃ e, m'.entry k = some e ∧ e.state = .waitReady ∧ e.tokens = held ++ [(tokPort t, t, .completion)]) ∧
              Counts m m' (halR h 0x020) 32 32 ∧ m' = { m with tokens := rest, halls := m'.halls, regs := m'.regs }) ∧
          (held.length + 1 ≠ popcount 8 n.dyn → m.slotFor h i g = none → holds h)))) ∧
    (∀ k : FKey,
      ((m.entry k).bind (·.holdTill) = none → Leaves (.affinityHoldExpire k) m m) ∧
      (∀ e x, m.entry k = some e → e.holdTill = some x → Completes (.affinityHoldExpire k) m fun m' =>
        m'.entry k = some { e with lapsed := true } ∧ m'.ltime = max m.ltime x ∧ m' = { m with halls := m'.halls, ltime := m'.ltime })) ∧
    (∀ (h : HallId) (n : BitVec 32),
      (m.inst n = none ∨ m.heldSince n = none → Leaves (.matchStall h n) m m) ∧
      (∀ i x, m.inst n = some i → m.heldSince n = some x →
        let at_ : Module := { m with ltime := max m.ltime (x + m.fld (halR h.val 0x000) 16 16 * 1000 + 1) }
        (i.stallSaid = true → Leaves (.matchStall h n) m at_) ∧
        (i.stallSaid = false → Completes (.matchStall h n) m fun m' =>
          PostsOne at_ m' (sevOf 0x0102) 0x0102 (some i.ptn) n.toNat (leBytes 4 n.toNat ++ leBytes 1 h.val) ∧
          (m'.inst n).map (·.stallSaid) = some true ∧ m' = { at_ with ctr := m'.ctr, insts := m'.insts })))

/-- BENCH_DISPATCH on an idle bench makes it busy with the chosen entry, which executes there (and has ended FAULT_ADDRESS where its tokens could not be read); on another bench, or with nothing to take, it changes nothing. RELAY passes the port-0 token, JOIN sends control tokens, and STEER
sends the port-0 token one generation on to its first two destinations where the scalar is not zero, else to the last two at its own generation; each with the status of R59; then the entry is gone. While the store holds one of these tokens back
each waits, counted once. FUSE sends nothing. BARRIER takes
every executing firing of its scope, barriers apart, and BARRIER_RELEASE acts once each of these has ended or is cancelled. NODE_FIRING_END, for a firing that has run and is
not halted, sends a control or result token to each destination on this member, frees its benches and its contexts, and its entry is gone; for any other firing it changes nothing. Where the instance is complete with it,
the producers held back with its tokens go on without them. -/
def Obligations.FiringsDispatchAndEnd : Prop :=
  ∀ m : Module, SparseWf regDefault m.regs → m.halls.length = 4 → m.benches.length = 256 →
    let gone (m' : Module) (k : FKey) : Prop := m'.entry k = none ∧ m'.ltime = m.ltime ∧ m'.asy = m.asy ∧ m'.rwk = m.rwk
    let sends (m' : Module) (k : FKey) (ts : List Flight) : Prop :=
      (m'.inst k.inst ≠ none → m'.tokens = m.tokens ++ ts) ∧
      (m'.inst k.inst = none → m'.tokens = (m.tokens ++ ts).filter fun x => !(x.tok.inst == k.inst && x.since.isSome))
    let stored (c : Instr) (k : FKey) (f : Firing) (ts : List Flight) : Prop :=
      ((∀ x ∈ ts, ∀ h, m.fate x.tok ≠ .hold h) → Completes c m fun m' =>
        sends m' k ts ∧ (∀ b, (m'.bench b).busy = (m.bench b).busy) ∧ gone m' k) ∧
      ((∃ x ∈ ts, ∃ h, m.fate x.tok = .hold h) →
        (f.e.heldAt ≠ none → Leaves c m m) ∧
        (f.e.heldAt = none → Completes c m fun m' =>
          ∃ x ∈ ts, ∃ h, m.fate x.tok = .hold h ∧ Counts m m' (halR h 0x020) 0 32 ∧
            m'.entry k = some { f.e with heldAt := some (h, m.ltime) } ∧ m' = { m with regs := m'.regs, halls := m'.halls }))
    (∀ (b : BenchId) (o : SectorOutcome),
      (m.benchIdle b.val = false ∨ m.chosen (b.val / 64) b.val = none → Leaves (.benchDispatch ⟨b, o⟩) m m) ∧
      (∀ e ps f, m.benchIdle b.val = true → m.chosen (b.val / 64) b.val = some (e, ps) → m.firing e.key = some f →
        Completes (.benchDispatch ⟨b, o⟩) m fun m' =>
          (m'.bench b.val).busy = some e.key ∧ (∀ j, j ≠ b.val → m'.bench j = m.bench j) ∧
          (∃ x, m'.entry e.key = some x ∧ x.state = .executing ∧ x.bench = some b.val ∧
            (∀ st, f.operands = .inl st → x.ran = true ∧ x.status = st) ∧
            (∀ st, f.operands = .inr st → o = .uncorrectable → x.ran = true ∧ x.status = stFaultAddress)) ∧
          (o ≠ .uncorrectable → m' = { m with
            benches := m'.benches, halls := m'.halls, regs := m'.regs, insts := m'.insts, stamp := m'.stamp, free := m'.free }) ∧
          (o = .uncorrectable → m' = { m with
            benches := m'.benches, halls := m'.halls, regs := m'.regs, insts := m'.insts, stamp := m'.stamp, gathers := m'.gathers }))) ∧
    (∀ k : FKey,
      (m.storeFiring k 0x01 = none → Leaves (.relay k) m m) ∧ (m.storeFiring k 0x02 = none → Leaves (.join k) m m) ∧
      (m.storeFiring k 0x03 = none → Leaves (.steer k) m m) ∧ (m.storeFiring k 0x40 = none → Leaves (.fuse k) m m) ∧
      (m.storeFiring k 0x41 = none → Leaves (.barrier k) m m) ∧
      (∀ f t, m.storeFiring k 0x01 = some f → f.e.token 0 = some t →
        stored (.relay k) k f ((localDests m.member f.n.dest).map fun d =>
          { tok := if d.sel = 2 then f.tokenTo m.member d k.gen 2 (storeStatus f.e) 0
              else f.tokenTo m.member d k.gen (tokKind t) (storeStatus f.e) t.value.toNat
            src := .hall f.e.hall })) ∧
      (∀ f, m.storeFiring k 0x02 = some f →
        stored (.join k) k f ((localDests m.member f.n.dest).map fun d =>
          { tok := f.tokenTo m.member d k.gen 2 (storeStatus f.e) 0, src := .hall f.e.hall })) ∧
      (∀ f t, m.storeFiring k 0x03 = some f → f.e.token 0 = some t →
        let st := steerStatus f.e
        let on : Prop := resultValid st = true ∧ ∃ x, f.e.token 1 = some x ∧ x.value ≠ 0
        let sent (ds : List Dest) (gen : BitVec 16) : List Flight := (localDests m.member ds).map fun d =>
          { tok := if d.sel = 2 then f.tokenTo m.member d gen 2 st 0 else f.tokenTo m.member d gen (tokKind t) st t.value.toNat
            src := .hall f.e.hall }
        (on → stored (.steer k) k f (sent (f.n.dest.take 2) (k.gen + 1))) ∧
        (¬ on → stored (.steer k) k f (sent ((f.n.dest.drop 2).take 2) k.gen))) ∧
      (∀ f, m.storeFiring k 0x40 = some f →
        (f.n.par 0 2 = 1 → stored (.fuse k) k f []) ∧
        (f.n.par 0 2 ≠ 1 → Leaves (.fuse k) m m)) ∧
      (∀ f, m.storeFiring k 0x41 = some f → f.e.hall < 4 → Completes (.barrier k) m fun m' =>
        (∃ e, m'.entry k = some e ∧ e.state = .executing ∧ e.launched = true ∧
          (∀ st, tokensStatus f.e.statuses = .inl st → e.ran = true ∧ e.status = st) ∧
          ∀ st, tokensStatus f.e.statuses = .inr st → e.status = st) ∧
        (∀ st, tokensStatus f.e.statuses = .inl st → (m'.hall f.e.hall).barriers = (m.hall f.e.hall).barriers) ∧
        (∀ st, tokensStatus f.e.statuses = .inr st → (m'.hall f.e.hall).barriers = (m.hall f.e.hall).barriers ++
          [{ key := k, ptn := f.ptn, hall := f.e.hall, hold := f.n.par 1 1 == 1, scopePtn := f.n.par 0 1 == 1, waits := m.scopeOf f }]) ∧
        m' = { m with halls := m'.halls, stamp := m'.stamp }) ∧
      (m.firing k = none → Leaves (.barrierRelease k) m m ∧ Leaves (.nodeFiringEnd k) m m) ∧
      (∀ f, m.firing k = some f →
        ((∀ b ∈ (m.hall f.e.hall).barriers, b.key ≠ k) → Leaves (.barrierRelease k) m m) ∧
        (∀ b, (m.hall f.e.hall).barriers.find? (fun b => b.key == k) = some b →
          ((∃ w ∈ b.waits, ∃ i, m.inst w.inst = some i ∧ i.cancelled = false) → Leaves (.barrierRelease k) m m) ∧
          ((∀ w ∈ b.waits, ∀ i, m.inst w.inst = some i → i.cancelled = true) → Completes (.barrierRelease k) m fun m' =>
            (∀ x ∈ (m'.hall f.e.hall).barriers, x.key ≠ k) ∧ gone m' k)) ∧
        (f.e.state ≠ .executing ∨ f.e.ran = false ∨ f.e.haltAt ≠ none ∨ m.tilesLeft f = true → Leaves (.nodeFiringEnd k) m m) ∧
        (f.e.state = .executing → f.e.ran = true → f.e.haltAt = none → m.tilesLeft f = false → Completes (.nodeFiringEnd k) m fun m' =>
          (f.i.cancelled = true → sends m' k []) ∧
          (f.i.cancelled = false → sends m' k
            (((localDests m.member f.n.dest).filter fun d => !(d.sel == 2 && f.n.op == 0x50)).map fun d =>
              { tok := if d.sel = 2 then f.tokenTo m.member d k.gen 2 f.e.status 0
                  else f.tokenTo m.member d k.gen 0 f.e.status (f.n.res.getD d.sel 0)
                src := f.src })) ∧
          ((∀ b, (m.bench b).next ≠ some k) → ∀ b, (m'.bench b).busy ≠ some k) ∧
          (f.e.hall < 4 → ∀ c ∈ (m'.hall f.e.hall).contexts, c.key ≠ k) ∧ (∀ x ∈ m'.gathers, x.key ≠ k) ∧ (∀ x ∈ m'.chains, x.key ≠ k) ∧
          gone m' k)))

/-- FUSED_GROUP_DISPATCH, once every node of the group is READY, unbarred and every bench idle, and R62 and R79 give its benches to the group (or they are held for it), makes each bench busy with its node and opens one hand-over per
link, with all its credits; else it changes nothing. PIPE_TILE_ARRIVE for the next tile of
a hand-over that has a credit takes one and counts the tile; any other changes nothing. FUSE_CREDIT_RETURN gives a credit back up to the buffer. CHAIN_HOLD_EXPIRE for a READY chain or group one of whose benches is busy holds
each of its benches for it, no earlier than CHHOLD µs after it became READY. PREADMIT puts the next entry beside the running one where R336 allows it. None changes memory, tokens or tables, and only CHAIN_HOLD_EXPIRE moves time. -/
def Obligations.FusedCommands : Prop :=
  ∀ (m : Module) (k : FKey), SparseWf regDefault m.regs → m.halls.length = 4 → m.benches.length = 256 →
    (m.fusedGroup k = none → Leaves (.fusedGroupDispatch k) m m) ∧
    (∀ fs links g, m.fusedGroup k = some (fs, links, g) →
      let keys := fs.map (·.1.key)
      let bs := fs.map (·.2)
      let may := m.teamMay (keys.headD k) (((fs.head?).map (·.1.e.ptn)).getD 0) (fs.any (·.1.e.chainHold)) bs
      ((∃ f ∈ fs, m.idleFor keys f.2 = false ∨ m.barred f.1.e = true) ∨ may = false → Leaves (.fusedGroupDispatch k) m m) ∧
      ((∀ f ∈ fs, m.idleFor keys f.2 = true ∧ m.barred f.1.e = false) → may = true → bs.Pairwise (· ≠ ·) → (∀ f ∈ fs, f.2 < 256) →
        Completes (.fusedGroupDispatch k) m fun m' =>
          (∀ f ∈ fs, (m'.bench f.2).busy = some f.1.key) ∧ m'.groups.length = m.groups.length + links.length ∧
          (∀ x ∈ m'.groups.drop m.groups.length, x.sentTiles = 0 ∧ x.credits = x.buffer) ∧ m'.groups.take m.groups.length = m.groups ∧
          m'.nextBuf = m.nextBuf + links.length ∧ m'.mem = m.mem ∧ m'.tokens = m.tokens ∧ m'.tables = m.tables ∧ m'.ltime = m.ltime)) ∧
    (∀ tile, (∀ g ∈ m.groups, g.cons ≠ k) → Leaves (.pipeTileArrive k tile) m m) ∧
    (∀ tile g, m.groups.find? (fun g => g.cons == k) = some g →
      (tile ≠ g.sentTiles ∨ g.tiles ≤ g.sentTiles ∨ g.credits = 0 ∨ m.passing g = false → Leaves (.pipeTileArrive k tile) m m) ∧
      (tile = g.sentTiles → g.sentTiles < g.tiles → 0 < g.credits → m.passing g = true → Completes (.pipeTileArrive k tile) m fun m' =>
        m'.groups = updWhere (fun y => y.cons == k) (fun y => { y with credits := y.credits - 1, sentTiles := y.sentTiles + 1 }) m.groups ∧
        m' = { m with groups := m'.groups, regs := m'.regs })) ∧
    Leaves (.fuseCreditReturn k) m { m with
      groups := updWhere (fun y => y.cons == k && decide (y.credits < y.buffer)) (fun y => { y with credits := y.credits + 1 }) m.groups } ∧
    (m.chainOf k = none → m.fusedGroup k = none → Leaves (.chainHoldExpire k) m m) ∧
    (∀ f bs, m.chainOf k = some (f, bs) → f.e.state ≠ .ready → Leaves (.chainHoldExpire k) m m) ∧
    (∀ bs since, m.waiting k = some (bs, since) →
      ((∀ b ∈ bs, (m.bench b).busy = none) → Leaves (.chainHoldExpire k) m m) ∧
      ((∃ b ∈ bs, (m.bench b).busy ≠ none) → Completes (.chainHoldExpire k) m fun m' =>
        (∀ b, b < 256 → m'.bench b = if b ∈ bs then { m.bench b with heldFor := some k } else m.bench b) ∧
        m'.ltime = max m.ltime (since + m.fld (halR (bs.headD 0 / 64) 0x140) 0 16 + 1) ∧
        (m'.entry k).map (·.chainHold) = (m.entry k).map (fun _ => true) ∧
        m' = { m with benches := m'.benches, halls := m'.halls, ltime := m'.ltime })) ∧
    (∀ f bs, m.chainOf k = some (f, bs) → f.e.state = .ready → m.waiting k = some (bs, f.e.readySince)) ∧
    (∀ fs links g, m.chainOf k = none → m.fusedGroup k = some (fs, links, g) →
      m.waiting k = some (fs.map (·.2), (fs.map (·.1.e.readySince)).foldl max 0)) ∧
    (∀ b : BenchId,
      ((m.bench b.val).busy = none ∨ m.chosen (b.val / 64) b.val = none → Leaves (.preadmit b) m m) ∧
      (∀ x e ps f, (m.bench b.val).busy = some x → m.chosen (b.val / 64) b.val = some (e, ps) → m.firing e.key = some f →
        let h := b.val / 64
        m.fld (halR h 0x200) 48 1 = 1 → (m.bench b.val).next = none → (m.bench b.val).heldFor = none → m.wantedBy h b.val = false →
        m.remaining h b.val x < m.fld (halR h 0x200) 0 16 →
        (m.hall h).areaUsed b.val + ((m.asks f [b.val] [] 0).1.held.map (·.area)).sum ≤ 0x100000 → m.pwr.mode = .joined ∨ m.pwr.mode = .draining →
        Completes (.preadmit b) m fun m' =>
          (m'.bench b.val).next = some e.key ∧ (m'.bench b.val).busy = some x ∧ (∀ j, j ≠ b.val → m'.bench j = m.bench j) ∧
          (∃ y, m'.entry e.key = some y ∧ y.preadm = true ∧ y.state = .executing) ∧
          m'.mem = m.mem ∧ m'.tokens = m.tokens ∧ m'.tables = m.tables ∧ m'.ltime = m.ltime))

/-- STREAM_ADMIT takes the head of the queue once all its parts can be had: it reserves its contexts and holdings and launches its firings; before, it changes nothing. STREAM_REQUEST_COMPLETE for an active read or write stream that is
among the eight the engine serves (log entry 180) moves its position on by at most 2 KiB within its page, marks it done at its total, and leaves its ring within its size; at an absent page the stream halts (state 2) with its firing; an
uncorrectable error under a read ends the firing FAULT_ADDRESS. PAGE_RESUME of a page that is not present changes nothing; of a present one it
resumes every firing halted at it. HAL_SRESUME resumes the firings of the masked partitions whose page is present, and HALT_LONG and STREAM_SLACK each tell a stream once. STREAM_COPY of a row of at most 256 bytes that has its slot
moves its bytes, and memory outside the destination stands. -/
def Obligations.StreamEngine : Prop :=
  ∀ (m : Module) (h : HallId), SparseWf regDefault m.regs → Memory.wf m.mem → m.halls.length = 4 →
    ((m.hall h.val).admq = [] → Leaves (.streamAdmit h) m m) ∧
    (∀ a rest, (m.hall h.val).admq = a :: rest →
      ((m.hall h.val).fits a = false → Leaves (.streamAdmit h) m m) ∧
      ((m.hall h.val).fits a = true → Completes (.streamAdmit h) m fun m' =>
        (m'.hall h.val).admq = rest ∧ (m'.hall h.val).held = (m.hall h.val).held ++ a.held ∧
        (m'.hall h.val).contexts = (m.hall h.val).contexts ++
          (a.rings.zip ((m.hall h.val).freeCtxs a.ptn)).map (fun x => { x.1 with idx := x.2, dt := m.dryTime h.val x.1 }) ∧
        (∀ k ∈ a.keys, ∀ e, m.entry k = some e → m'.entry k = some { e with launched := true }) ∧
        m' = { m with halls := m'.halls, regs := m'.regs })) ∧
    (∀ (x : Byte) (o : SectorOutcome),
      ((m.hall h.val).ctx x.toNat = none →
        Leaves (.streamRequestComplete h ⟨x, o⟩) m m ∧ Leaves (.streamSlack h x) m m ∧ Leaves (.haltLong h x) m m) ∧
      (∀ c, (m.hall h.val).ctx x.toNat = some c →
        (c.state ≠ 1 ∨ (m.hall h.val).served c = false ∨ (c.kind ≠ 2 ∧ c.total ≤ c.done) → Leaves (.streamRequestComplete h ⟨x, o⟩) m m) ∧
        (∀ f p t, c.state = 1 → (m.hall h.val).served c = true → c.done < c.total → c.kind ≠ 2 → m.firing c.key = some f →
          f.allTensors.find? (fun t => t.1 == c.port) = some (p, t) →
          let moved (n : Nat) (m' : Module) : Prop :=
            (∃ y, (m'.hall h.val).ctx x.toNat = some y ∧ y.done = c.done + n ∧ y.state = (if c.total ≤ c.done + n then 3 else 1) ∧
              y.fill ≤ c.ring * 1024) ∧ m.ltime ≤ m'.ltime ∧ (∀ s, (m'.quern s).poisoned = (m.quern s).poisoned) ∧
            m' = { m with
              halls := m'.halls, regs := m'.regs, free := m'.free, ltime := m'.ltime, xlat := m'.xlat, querns := m'.querns }
          let ends (st : Nat) (m' : Module) : Prop := (m'.entry c.key).map (fun e => (e.ran, e.status)) = some (true, st)
          let part := m.streamRanges f t ((f.streamPart c.bench p (m.stored f t)).1 + c.done) (min 2048 (c.total - c.done))
          (part = [] → Completes (.streamRequestComplete h ⟨x, o⟩) m (moved (min 2048 (c.total - c.done)))) ∧
          (∀ a b rest, part = (a, b) :: rest →
            let rs := inPage (m.pageSpan f.ptn a).1 (m.pageSpan f.ptn a).2 part
            let perm := if c.kind = 1 then permWrite else permRead
            let went := m.translate f.ptn (streamMaster h.val) a ((rs.map (·.2)).foldl max a - a) perm
            (∀ key r, went = .ok key r →
              let cuts := rs.flatMap fun s => spanCuts (key + (s.1 - a)) (s.2 - s.1)
              let free := cuts.all fun y => m.canAccess f.ptn y.1 y.2 t.hint (m.tableAt f.ptn a) (c.kind == 1)
              (free = false → Leaves (.streamRequestComplete h ⟨x, o⟩) m m) ∧
              (free = true → (c.kind = 1 ∨ (o ≠ .uncorrectable ∧ ∀ s ∈ rs, m.poisonedIn (key + (s.1 - a)) (s.2 - s.1) = false)) →
                Completes (.streamRequestComplete h ⟨x, o⟩) m (moved (rs.map fun s => s.2 - s.1).sum)) ∧
              (free = true → c.kind ≠ 1 → a < b → m.querns.length = 20 → m.stackOfKey key < 20 → o = .uncorrectable →
                Completes (.streamRequestComplete h ⟨x, o⟩) m (ends stFaultAddress))) ∧
            (∀ page, went = .halt page → Completes (.streamRequestComplete h ⟨x, o⟩) m fun m' =>
              ((m'.hall h.val).ctx x.toNat).map (·.state) = some 2 ∧
              (m'.entry c.key).map (·.haltAt) = some (some page) ∧
              m' = { m with halls := m'.halls, regs := m'.regs, ptns := m'.ptns, ctr := m'.ctr }) ∧
            (∀ st cause, went = .fault st cause → resultValid st = false →
              Completes (.streamRequestComplete h ⟨x, o⟩) m (ends st)))) ∧
        (c.kind = 2 ∨ c.slackSaid = true → Leaves (.streamSlack h x) m m) ∧
        (c.kind ≠ 2 → c.slackSaid = false → Completes (.streamSlack h x) m fun m' =>
          ((m'.hall h.val).ctx x.toNat).map (·.slackSaid) = some true ∧ Counts m m' (halR h.val 0x220) 0 32 ∧
          (if (m.draft c.ptn).part.mode = 1 then ∃ t, PostsOne m m' (sevOf 0x0302) 0x0302 (some c.ptn) c.key.inst.toNat t else m'.ctr = m.ctr) ∧
          m' = { m with halls := m'.halls, regs := m'.regs, ctr := m'.ctr }) ∧
        (∀ page, (m.entry c.key).bind (·.haltAt) = some page →
          (c.state ≠ 2 ∨ c.longSaid = true ∨ m.fld (halR h.val 0x200) 49 10 = 0 → Leaves (.haltLong h x) m m) ∧
          (c.state = 2 → c.longSaid = false → m.fld (halR h.val 0x200) 49 10 ≠ 0 → Completes (.haltLong h x) m fun m' =>
            m'.ltime = max m.ltime (c.haltAt + m.fld (halR h.val 0x200) 49 10 * 1000000) ∧
            ((m'.hall h.val).ctx x.toNat).map (·.longSaid) = some true ∧
            (∃ t, PostsOne { m with ltime := m'.ltime } m' (sevOf 0x0502) 0x0502 (some c.ptn) c.key.inst.toNat t) ∧
            m' = { m with halls := m'.halls, ltime := m'.ltime, ctr := m'.ctr })))) ∧
    (∀ (p : PtnId) ra,
      (m.regionAt p.val ra = none → Leaves (.pageResume p ra) m m) ∧
      (∀ g, m.regionAt p.val ra = some g →
        let page := g.info.base + (ra - g.info.base) / 2 ^ g.info.shift * 2 ^ g.info.shift
        (m.residencyCode p.val page ≠ 0 → Leaves (.pageResume p ra) m m) ∧
        (m.residencyCode p.val page = 0 → Completes (.pageResume p ra) m fun m' =>
          (∀ k e, m.entry k = some e → e.ptn = p.val → e.haltAt = some page → (∀ g ∈ m.gathers, g.key ≠ k) →
            (m'.entry k).map (·.haltAt) = some none) ∧
          m'.benches = m.benches ∧ m'.tokens = m.tokens ∧ m'.tables = m.tables ∧ m.ltime ≤ m'.ltime ∧
          (m.gathers = [] → m.heldAcc = [] → m' = { m with halls := m'.halls, regs := m'.regs, ptns := m'.ptns })))) ∧
    (∀ mask : Byte, Completes (.halSresume h mask) m fun m' =>
      (∀ e page, e ∈ (m.hall h.val).entries → m.entry e.key = some e → mask.getLsbD e.ptn = true → e.haltAt = some page →
        m.residencyCode e.ptn page = 0 → (∀ y ∈ (m.hall h.val).entries, y.key = e.key → y = e) → (∀ g ∈ m.gathers, g.key ≠ e.key) →
        (m'.entry e.key).map (·.haltAt) = some none) ∧
      m'.benches = m.benches ∧ m'.tokens = m.tokens ∧ m'.tables = m.tables ∧ m.ltime ≤ m'.ltime ∧
      (m.gathers = [] → m' = { m with halls := m'.halls, regs := m'.regs, ptns := m'.ptns, ctr := m'.ctr })) ∧
    (∀ k,
      (m.storeFiring k 0x40 = none → m.copying k = none → Leaves (.streamCopy k) m m) ∧
      (∀ f s d, m.storeFiring k 0x40 = none → m.copying k = some (f, s, d) → (∀ x ∈ (m.hall f.e.hall).held, x.key ≠ k) →
        Leaves (.streamCopy k) m m) ∧
      (∀ f s d a b n, m.storeFiring k 0x40 = none → m.copying k = some (f, s, d) → m.noDeltas → m.noPipe k →
        (∃ x ∈ (m.hall f.e.hall).held, x.key = k) → s.layout = 0 → s.pitch = 0 → d.pitch = 0 → s.isMx = false →
        s.dim0 * s.rows * s.bits = 8 * n → 0 < n → n ≤ 256 → m.placeRun f 0 s 0 (8 * n) permRead = .ok a →
        m.placeRun f 8 d 0 (8 * n) permWrite = .ok b → Completes (.streamCopy k) m fun m' =>
          (∀ x, (x < b.key ∨ b.key + n ≤ x) → m'.mem.read x = m.mem.read x) ∧ HasRun m' k (worse stOk f.e.status) ∧
          (m.apartAt f 8 [(b.key, b.key + n)] → ∀ i, i < n → m'.mem.read (b.key + i) = m.mem.read (a.key + i)) ∧ FiringFrame m m'))

/-! ### The channel path and the retentions (R104, R176, R305–R310, R319, R320, R365, R370, R375) -/

/-- CHANNEL_ACCESS of no byte or across a 2 KiB span changes nothing; at a page that halts it, or while miss registers or tags are wanting, it is held back; one that translation refuses changes no memory. An allowed write with no ECC error leaves its bytes in memory and every other byte as it was (but for
deltas that a combining entry holds for a line of a table page); an allowed read changes no memory. HALL_CACHE_FILL_DONE ends the fill, its last line is in the cache where it is to be installed and was not invalidated, and the accesses held back then try again, in their order. SCRUB_READ steps to the next sector, and from the last to the first; an
uncorrectable one is poisoned once, a corrected one is counted; with the scrub off, or the stack untrained or withdrawn, it does nothing. -/
def Obligations.ChannelPath : Prop :=
  ∀ m : Module, m.shaped → SparseWf regDefault m.regs → Memory.wf m.mem →
    (∀ (M : BitVec 12) (h : HallId) (p : PtnId) ra len hint a o,
      let write := a != .read
      let perm := if write then permWrite else permRead
      let acc : ChanAcc := { master := M.toNat, hall := h.val, ptn := p.val, ra := ra, len := len, hint := hint, kind := a, outcome := o }
      let held : Module := { m with heldAcc := m.heldAcc ++ [acc] }
      let can (key : Nat) : Bool := m.canAccess p.val key len hint (m.tableAt p.val ra) write
      (len = 0 ∨ ra / 2048 ≠ (ra + len - 1) / 2048 → Leaves (.channelAccess M h p ra len hint a o) m m) ∧
      (0 < len → ra / 2048 = (ra + len - 1) / 2048 →
        (∀ st c, m.translate p.val M.toNat ra len perm = .fault st c → Completes (.channelAccess M h p ra len hint a o) m fun m' =>
          m' = { m with regs := m'.regs, ctr := m'.ctr, ptns := m'.ptns, sent := m'.sent }) ∧
        (∀ g, m.translate p.val M.toNat ra len perm = .halt g → Leaves (.channelAccess M h p ra len hint a o) m held) ∧
        (∀ key g, m.translate p.val M.toNat ra len perm = .ok key g → can key = false → Leaves (.channelAccess M h p ra len hint a o) m held) ∧
        (∀ key g data, a = .write data → o = .clean → m.translate p.val M.toNat ra len perm = .ok key g → can key = true →
          Completes (.channelAccess M h p ra len hint a o) m fun m' =>
            (∀ i, i < len → m'.mem.read (key + i) = data.getD i 0) ∧
            (∀ x, (x < key ∨ key + len ≤ x) → (∀ s, ∀ e ∈ (m.quern s).comb, e.line ≠ x / 128) → m'.mem.read x = m.mem.read x) ∧
            m'.pwr = m.pwr ∧ m'.asy = m.asy ∧ m'.guild = m.guild ∧ m'.benches = m.benches ∧ m'.tables = m.tables ∧ m'.tokens = m.tokens) ∧
        (∀ key g, a = .read → o = .clean → m.translate p.val M.toNat ra len perm = .ok key g → can key = true →
          Completes (.channelAccess M h p ra len hint a o) m fun m' =>
            m' = { m with regs := m'.regs, halls := m'.halls, querns := m'.querns, ltime := m'.ltime, xlat := m'.xlat }))) ∧
    (∀ (h : HallId) line,
      ((∀ f ∈ (m.hall h.val).fills, f.has line = false) → Leaves (.hallCacheFillDone h line) m m) ∧
      (∀ m1, (∃ f ∈ (m.hall h.val).fills, f.has line = true) → Leaves (.hallCacheFillDone h line) { m with heldAcc := [] } m1 →
        Leaves (.hallCacheFillDone h line) m (m.heldAcc.foldl Module.channelAccess m1)) ∧
      (∀ f, (m.hall h.val).fills.find? (fun f => f.has line) = some f → m.heldAcc = [] → Completes (.hallCacheFillDone h line) m fun m' =>
        (m'.hall h.val).fills = (m.hall h.val).fills.erase f ∧
        (f.install = true → line + 1 = f.line + f.count → line ∉ f.snooped → m.fld (halR h.val 0x180) 0 1 = 1 →
          m.wayMask (halR h.val 0x188) f.ptn ≠ 0 → m'.cached h.val line = true) ∧
        (f.install = false ∨ (∀ l, f.has l = true → l ∈ f.snooped) →
          m'.halls = m.halls.modify h.val fun x => { x with fills := x.fills.erase f }) ∧
        m' = { m with halls := m'.halls, querns := m'.querns, regs := m'.regs, ltime := m'.ltime, free := m'.free })) ∧
    (∀ (s : StackId) o,
      let q := m.quern s.val
      let sector := m.dramKey (s.val * 2 ^ 36 + q.scrubAt * 32) / 32
      let next (x : Quern) : Quern :=
        if q.scrubAt + 1 < 2 ^ 31 then { x with scrubAt := q.scrubAt + 1 } else { x with scrubAt := 0, ueScrub := 0, rowCe := [] }
      (m.fld (qrnR s.val 0x100) 0 1 = 0 ∨ q.trained = false ∨ q.withdrawn = true → Leaves (.scrubRead s o) m m) ∧
      (m.fld (qrnR s.val 0x100) 0 1 = 1 → q.trained = true → q.withdrawn = false →
        Leaves (.scrubRead s .clean) m { m with querns := m.querns.modify s.val next } ∧
        (Completes (.scrubRead s .corrected) m fun m' =>
          m'.fld (qrnR s.val 0x110) 0 32 = min (m.fld (qrnR s.val 0x110) 0 32 + 1) (2 ^ 32 - 1) ∧
          (m'.quern s.val).poisoned = q.poisoned ∧ (m'.quern s.val).scrubAt = (next q).scrubAt ∧
          m' = { m with querns := m'.querns, regs := m'.regs }) ∧
        (sector ∉ q.poisoned → q.ueScrub < 15 → Completes (.scrubRead s .uncorrectable) m fun m' =>
          (m'.quern s.val).poisoned = q.poisoned ++ [sector] ∧ (m'.quern s.val).scrubAt = (next q).scrubAt ∧
          m' = { m with querns := m'.querns, regs := m'.regs, halls := m'.halls, ctr := m'.ctr, sent := m'.sent })))

/-- RECEIPT_EXPIRE drops the receipt of its tag no earlier than 10 s after it was made; TALLY_ENTRY_EXPIRE a DONE entry no earlier than 10 s after it was done, and no entry in flight; PUSH_RETENTION_EXPIRE ends the retention of a DONE result, and MAILBOX_RETENTION_EXPIRE releases a
READY slot, no earlier than the partition's RETMS; RETIRE_SLOW posts one notice for a retiring edition, at the warden, no earlier than 1 s after it was retired. In every other case, and on every other record, they change nothing. That each moves local time to its due time is the model's reading (log entry 2). -/
def Obligations.RecordsAreKeptTheirTime : Prop :=
  ∀ (m : Module) (p : PtnId), m.ptns.length = 8 →
    let set (f : Partition → Partition) : List Partition := m.ptns.modify p.val f
    (∀ tag, ((∀ r ∈ (m.ptn p.val).receipts, r.tag ≠ tag) → Leaves (.receiptExpire p tag) m m) ∧
      (∀ r, (m.ptn p.val).receipts.find? (fun r => r.tag == tag) = some r → Leaves (.receiptExpire p tag) m
        { m with ltime := max m.ltime (r.at_ + 10000000000)
                 ptns := set fun x => { x with receipts := x.receipts.filter fun r => r.tag != tag } })) ∧
    (∀ reqid,
      (m.tallyOf p.val reqid = none → Leaves (.tallyEntryExpire p reqid) m m ∧ Leaves (.pushRetentionExpire p reqid) m m) ∧
      (∀ e, m.tallyOf p.val reqid = some e →
        (e.done = false → Leaves (.tallyEntryExpire p reqid) m m ∧ Leaves (.pushRetentionExpire p reqid) m m) ∧
        (e.done = true → Leaves (.tallyEntryExpire p reqid) m
          { m with ltime := max m.ltime (e.doneAt + 10000000000)
                   ptns := set fun x => { x with tally := x.tally.filter fun y => y.reqid != reqid } }) ∧
        (e.retained = false → Leaves (.pushRetentionExpire p reqid) m m) ∧
        (e.done = true → e.retained = true → Leaves (.pushRetentionExpire p reqid) m
          { m with ltime := max m.ltime (e.doneAt + m.fld (ptnR p.val 0xE8) 0 16 * 1000000)
                   ptns := set fun x => { x with
                     tally := updWhere (fun y => y.reqid == reqid) (fun y => { y with retained := false, results := [] }) x.tally } }))) ∧
    (∀ n i,
      (m.qp n = none → Leaves (.mailboxRetentionExpire n i) m m) ∧
      (∀ q, m.qp n = some q →
        (q.slots[i]? = none → Leaves (.mailboxRetentionExpire n i) m m) ∧
        (∀ sl, q.slots[i]? = some sl →
          (sl.state ≠ 2 → Leaves (.mailboxRetentionExpire n i) m m) ∧
          (sl.state = 2 → Completes (.mailboxRetentionExpire n i) m fun m' =>
            m'.ltime = max m.ltime (sl.readyAt + m.fld (ptnR q.ptn 0xE8) 0 16 * 1000000) ∧
            m'.ctr = { m.ctr with
              qps := updWhere (fun x => x.num == n) (fun x => { x with slots := x.slots.modify i fun y => { y with state := 3 } }) m.ctr.qps } ∧
            m' = { m with ltime := m'.ltime, ctr := m'.ctr, ptns := m'.ptns })))) ∧
    (∀ t : BitVec 32,
      (m.table t.toNat = none → Leaves (.retireSlow t) m m) ∧
      (∀ x, m.table t.toNat = some x →
        ((∀ e ∈ x.editions, e.state ≠ .retiring) → Leaves (.retireSlow t) m m) ∧
        (∀ e, x.editions.find? (fun e => e.state == .retiring) = some e →
          (e.slowSaid = true ∨ m.isWarden = false → Leaves (.retireSlow t) m m) ∧
          (e.slowSaid = false → m.isWarden = true → Completes (.retireSlow t) m fun m' =>
            m'.ltime = max m.ltime (e.retiredAt + 1000000000) ∧
            (∃ d, PostsOne { m with ltime := m'.ltime } m' (sevOf 0x0804) 0x0804 (some x.ptn) t.toNat d) ∧
            (∃ y, m'.table t.toNat = some y ∧ ∀ z ∈ y.editions, z.num = e.num → z.slowSaid = true) ∧
            m' = { m with ltime := m'.ltime, tables := m'.tables, ctr := m'.ctr }))))

/-! ### Querns: pooled reads and adds (R126–R153, R171–R176, R396–R398) -/

/-- GATHER_REQ with one entry puts it into the input queue of the row's quern where the sender may read there, and raises the bag's quota at the hall. QUERN_ENTRY_ACCEPT takes the next entry of an open segment and counts it; behind a segment that waits, or with nothing queued,
it changes nothing; a line of its row that the window does not hold gets a window entry with its bytes as every reader sees them (log entry on R151). SEGMENT_OPEN opens the first waiting segment once the window holds its entries × lines. LINE_FETCH_DONE ends the fetch of a window entry, whose bytes stand, counted as a hot-row hit or a miss. BANK_FALLBACK turns a hot-row hit into a read of
DRAM, counted. No one of them changes memory, tables, instances or gathers under way. -/
def Obligations.QuernReads : Prop :=
  ∀ (m : Module) (s : StackId), m.shaped → SparseWf regDefault m.regs →
    let stands (m' : Module) : Prop :=
      m'.mem = m.mem ∧ m'.pwr = m.pwr ∧ m'.asy = m.asy ∧ m'.guild = m.guild ∧ m'.benches = m.benches ∧ m'.tables = m.tables ∧ m'.insts = m.insts ∧
      m'.tokens = m.tokens ∧ m'.gathers = m.gathers
    let q := m.quern s.val
    (∀ (src : MemberId) (p : PtnId) payload t e,
      requestEntries payload ((fieldAt payload 0x11 1).testBit 0) (fieldAt payload 0x12 2) 0x20 = [e] → m.table (fieldAt payload 0 4) = some t →
      m.allowed tcQuern (t.place.rowAt e.2.1).stack p.val (remoteMaster src.val p.val) permRead = true →
      let key : FKey := { inst := BitVec.ofNat 32 (fieldAt payload 8 4), node := BitVec.ofNat 16 (fieldAt payload 0x0C 2)
                          gen := BitVec.ofNat 16 (fieldAt payload 0x0E 2) }
      let st := (t.place.rowAt e.2.1).stack
      let entry : QEntry :=
        { key := key, src := src.val, ptn := p.val, bag := e.1, slot := 0, index := e.2.1, weight := e.2.2, table := fieldAt payload 0 4
          edition := fieldAt payload 4 4, hint := bitsOf (fieldAt payload 0x11 1) 1 2, none_ := (fieldAt payload 0x11 1).testBit 3 }
      Leaves (.gatherReq src p payload) m
        { m with halls := m.halls.modify (st / 5) fun h => h.moreQuota key src.val (fieldAt payload 0x10 1) e.1
                 querns := m.querns.modify st fun x => { x with inq := x.inq ++ [entry] } }) ∧
    ((∀ g ∈ q.segs, g.isOpen = true) → Leaves (.segmentOpen s) m m) ∧
    (∀ g, q.segs.find? (fun g => !g.isOpen) = some g → (q.segs.map (·.id)).Pairwise (· ≠ ·) →
      let n := g.entries.length * ((m.table g.table).map fun t => t.place.lines).getD 1
      Leaves (.segmentOpen s) m
        (if m.windowTaken s.val + n ≤ 4096 then
          { m with querns := m.querns.modify s.val fun x => { x with
              segs := updWhere (fun y => y.id == g.id) (fun y => { y with isOpen := true, reserve := n }) x.segs } }
         else m)) ∧
    ((∀ g ∈ q.segs, g.isOpen = true → g.entries = []) → ((∃ g ∈ q.segs, g.isOpen = false) ∨ q.inq = []) →
      ∀ o, Leaves (.quernEntryAccept ⟨s, o⟩) m m) ∧
    (∀ g e es o, o ≠ .uncorrectable → q.segs.find? (fun g => g.isOpen && !g.entries.isEmpty) = some g → g.entries = e :: es → (q.segs.map (·.id)).Pairwise (· ≠ ·) →
      Completes (.quernEntryAccept ⟨s, o⟩) m fun m' =>
        m'.fld (qrnR s.val 0x028) 0 64 = min (m.fld (qrnR s.val 0x028) 0 64 + 1) (2 ^ 64 - 1) ∧
        (m'.quern s.val).inq = q.inq ∧ (∀ x ∈ (m'.quern s.val).segs, x.id = g.id → x.entries = es) ∧ stands m' ∧ m'.ltime = m.ltime ∧
        (∀ key t, m.findRow e.table e.edition e.index = .found key → m.table e.table = some t →
          let lines := (List.range ((key + t.place.rowBytes - 1) / 128 - key / 128 + 1)).map (key / 128 + ·)
          q.win.length + lines.length ≤ 4096 → ∀ l ∈ lines, q.current l = none →
            (∀ y ∈ g.rows, y.index ≠ e.index) →
            ∃ w ∈ (m'.quern s.val).win, w.line = l ∧ w.fetched = false ∧ w.data = m.lineView l)) ∧
    (∀ line o,
      ((∀ w ∈ q.win, w.line = line → w.fetched = true) → Leaves (.lineFetchDone s line o) m m) ∧
      (∀ w, q.win.find? (fun w => w.line == line && !w.fetched) = some w → q.withdrawn = false → Completes (.lineFetchDone s line .clean) m fun m' =>
        { w with fetched := true } ∈ (m'.quern s.val).win ∧
        (if w.fromHrc = true ∧ ∃ c ∈ q.hrc, c.line = line then
          m'.fld (qrnR s.val 0x038) 0 64 = min (m.fld (qrnR s.val 0x038) 0 64 + 1) (2 ^ 64 - 1) ∧ m'.ltime = m.ltime
         else m'.fld (qrnR s.val 0x040) 0 64 = min (m.fld (qrnR s.val 0x040) 0 64 + 1) (2 ^ 64 - 1)) ∧ stands m')) ∧
    (∀ line,
      ((∀ w ∈ q.win, w.line = line → w.fetched = true ∨ w.fromHrc = false) → Leaves (.bankFallback s line) m m) ∧
      ((∃ w ∈ q.win, w.line = line ∧ w.fetched = false ∧ w.fromHrc = true) → Completes (.bankFallback s line) m fun m' =>
        Counts m m' (qrnR s.val 0x060) 32 32 ∧
        (∀ w ∈ (m'.quern s.val).win, w.line = line → w.fetched = false → w.fromHrc = false) ∧
        m' = { m with querns := m'.querns, regs := m'.regs }))

/-- With no deltas pending: a running GATHER whose rules, list and result can be placed ends with FAULT_OOB where its offsets are refused, with FAULT_ACCESS where a quern denies it, and otherwise issues the entries in range, counts the others, and is under way,
without changing memory where no bag is empty (or ends with FAULT_OOB after an entry out of range under OOBX). MERGER_PARTIAL takes the oldest partial of its hall: the first of a bag below its quota takes a slot, a later one is added to it in fp32; an uncorrectable error of its slot loses what the slot holds. GATHER_PARTIAL takes the
oldest at the bench: denied, it ends the node with FAULT_ACCESS; with an entry that has been added before, it is dropped; below the bag's entries, it is added and the bag stays open. PARTIAL adds what it covers to the partials that wait at the gather it names, or changes nothing. -/
def Obligations.GatherPooling : Prop :=
  ∀ m : Module, m.shaped → SparseWf regDefault m.regs → Memory.wf m.mem →
    (∀ k,
      (m.running k 0x10 = none → Leaves (.gather k) m m) ∧
      (∀ f lt tt t b r, m.running k 0x10 = some f → m.noDeltas → (∀ g ∈ m.gathers, g.key ≠ f.key) →
        ((m.tableRules f.ptn (f.env (m.draft f.ptn)) ++ gatherRules m.places (f.env (m.draft f.ptn))).all (·.1)) = true →
        f.tensor 0 = some lt → f.tensor 1 = some tt → m.table tt.tableId = some t → m.readBags f 0 lt = .ok b → m.placeRes f 0 = .ok r →
        let all := b.entries m.mem
        let ok (e : Nat × Nat) : Bool := t.place.inRange (b.index m.mem e.2)
        let sent := if lt.oobx then all.takeWhile ok else all.filter ok
        let bad := all.countP fun e => !ok e
        (b.ok m.mem = false → Completes (.gather k) m fun m' =>
          HasRun m' k stFaultOob ∧
          m'.fld (halR f.e.hall 0x100) 32 32 = min (m.fld (halR f.e.hall 0x100) 32 32 + 1) (2 ^ 32 - 1) ∧ m'.mem = m.mem ∧ m'.gathers = m.gathers) ∧
        (∀ s, b.ok m.mem = true → m.quernDenied f t.place permRead = some s → Completes (.gather k) m fun m' =>
          HasRun m' k stFaultAccess ∧ m'.mem = m.mem ∧ m'.gathers = m.gathers) ∧
        (∀ es, b.ok m.mem = true → m.quernDenied f t.place permRead = none →
          m.chooseAll t (f.edition t.place.table)
            (sent.map fun e => (if f.n.par 0 2 = 2 then e.2 else e.1, e.2, (b.index m.mem e.2).toNat, b.weight m.mem e.2)) = some es →
          (lt.oobx = true → 0 < bad → Completes (.gather k) m fun m' => HasRun m' k stFaultOob ∧ m'.mem = m.mem ∧ m'.gathers = m.gathers) ∧
          (lt.oobx = false ∨ bad = 0 → (∀ i, i < r.t.dim1 → ∃ e ∈ es, e.bag = i) → Completes (.gather k) m fun m' =>
            (∃ g, m'.gathers = m.gathers ++ [g] ∧ g.key = f.key ∧ g.issued = es ∧ g.bags.length = r.t.dim1 ∧ g.arriving = [] ∧
              g.flagged = decide (0 < bad) ∧ ∀ x ∈ g.bags, x.n = es.countP (fun e => e.bag == x.bag) ∧ x.covered = 0 ∧ x.closed = false) ∧
            m'.fld (halR f.e.hall 0x100) 0 32 = min (m.fld (halR f.e.hall 0x100) 0 32 + bad) (2 ^ 32 - 1) ∧
            m'.mem = m.mem ∧ m'.tables = m.tables ∧ m'.insts = m.insts)))) ∧
    (∀ h : HallId,
      ((m.hall h.val).arriving = [] → ∀ o, Leaves (.mergerPartial ⟨h, o⟩) m m) ∧
      (∀ p rest, (m.hall h.val).arriving = p :: rest →
        (∀ s, (m.hall h.val).slotOf p.key p.src p.bag = some s → Completes (.mergerPartial ⟨h, .uncorrectable⟩) m fun m' =>
          (m'.hall h.val).arriving = p :: rest ∧ s ∉ (m'.hall h.val).merger ∧ m'.pwr = m.pwr ∧ m'.tables = m.tables ∧ m'.tokens = m.tokens) ∧
        (∀ o, o ≠ .uncorrectable ∨ (m.hall h.val).slotOf p.key p.src p.bag = none → Completes (.mergerPartial ⟨h, o⟩) m fun m' =>
          (m'.hall h.val).arriving = rest ∧ m'.pwr = m.pwr ∧ m'.tables = m.tables ∧ m'.tokens = m.tokens) ∧
        (∀ q o, p.status ≠ stFaultAccess → p.status ≠ 0x10 → (m.hall h.val).quotaOf p.key p.src p.bag = some q →
          let unitsOf (p : PoolPartial) : Nat := if p.row.isEmpty then ceilDiv p.vals.length 64 else ceilDiv p.row.length 256
          ((m.hall h.val).slotOf p.key p.src p.bag = none → p.covered < q.count → (m.hall h.val).merger.length < 16384 →
            ((m.hall h.val).merger.map MergerSlot.units).sum + unitsOf p ≤ 16384 →
            Leaves (.mergerPartial ⟨h, o⟩) m { m with halls := m.halls.modify h.val fun x => { x with
              arriving := rest
              merger := x.merger ++ [{ key := p.key, src := p.src, ptn := p.ptn, bag := p.bag, covered := p.covered, slots := p.slots
                                       flagged := p.status == 1, vals := p.vals, row := p.row }] } }) ∧
          (∀ s, (m.hall h.val).slotOf p.key p.src p.bag = some s → o ≠ .uncorrectable → s.covered + p.covered < q.count →
            Completes (.mergerPartial ⟨h, o⟩) m fun m' =>
            (∃ x ∈ (m'.hall h.val).merger, x.key = s.key ∧ x.src = s.src ∧ x.bag = s.bag ∧ x.covered = s.covered + p.covered ∧
              x.vals = (addVecs s.vals p.vals).1 ∧ (x.flagged = true ↔ s.flagged = true ∨ p.status = 1 ∨ 0 < (addVecs s.vals p.vals).2)) ∧
            m' = { m with halls := m'.halls, regs := m'.regs })))) ∧
    (∀ k,
      ((∀ g ∈ m.gathers, g.key ≠ k) → Leaves (.gatherPartial k) m m) ∧
      (∀ g, m.gathers.find? (fun g => g.key == k) = some g →
        (g.arriving = [] → Leaves (.gatherPartial k) m m) ∧
        (∀ p rest, g.arriving = p :: rest →
          (∀ f, p.status = stFaultAccess → m.firing k = some f → Completes (.gatherPartial k) m fun m' =>
            HasRun m' k stFaultAccess ∧ (∀ x ∈ m'.gathers, x.key ≠ k) ∧ m'.mem = m.mem ∧ m'.tables = m.tables) ∧
          (p.status = 0 ∨ p.status = 1 → (∃ e ∈ g.issued, e.done = true ∧ e.slot ∈ p.slots) → Leaves (.gatherPartial k) m
            { m with gathers := updWhere (fun x => x.key == k) (fun _ => { g with arriving := rest }) m.gathers }) ∧
          (∀ b, p.status = 0 ∨ p.status = 1 → (∀ e ∈ g.issued, e.done = true → e.slot ∉ p.slots) → g.bags.find? (fun b => b.bag == p.bag) = some b → b.covered + p.covered ≠ b.n →
            Completes (.gatherPartial k) m fun m' =>
              (∃ y, m'.gathers.find? (fun g => g.key == k) = some y ∧ y.arriving = rest ∧
                ∃ c, y.bags.find? (fun b => b.bag == p.bag) = some c ∧ c.covered = b.covered + p.covered ∧ c.closed = b.closed ∧
                  c.acc = (if b.acc.isEmpty then p.vals else (addVecs b.acc p.vals).1)) ∧
              m' = { m with gathers := m'.gathers, regs := m'.regs })))) ∧
    (∀ (src : MemberId) (p : PtnId) payload,
      let key : FKey := { inst := BitVec.ofNat 32 (fieldAt payload 0 4), node := BitVec.ofNat 16 (fieldAt payload 4 2)
                          gen := BitVec.ofNat 16 (fieldAt payload 6 2) }
      ((∀ g ∈ m.gathers, g.key ≠ key) → Leaves (.partialPkt src p payload) m m) ∧
      (Completes (.partialPkt src p payload) m fun m' =>
        m'.gathers.map (fun g => { g with arriving := [] }) = m.gathers.map (fun g => { g with arriving := [] }) ∧
        m' = { m with gathers := m'.gathers }) ∧
      (∀ g hd, m.gathers.find? (fun g => g.key == key) = some g →
        let t := ((m.table g.table).map (·.place)).getD default
        partialGroups payload (if 0x10 ≤ fieldAt payload 0x1A 1 then 0 else if g.pool = 2 then t.rowBytes else 4 * t.dim) = [hd] →
        let mine := ((g.issued.filter fun e => e.bag == fieldAt hd.1 0 4 && e.member == src.val && e.hall == fieldAt hd.1 9 1 && !e.done &&
            !(g.arriving.flatMap (·.slots)).contains e.slot).map (·.slot)).take (fieldAt hd.1 4 4)
        (mine.length < fieldAt hd.1 4 4 → Leaves (.partialPkt src p payload) m m) ∧
        (mine.length = fieldAt hd.1 4 4 → Completes (.partialPkt src p payload) m fun m' =>
          ∃ y x, m'.gathers.find? (fun g => g.key == key) = some y ∧ y = { g with arriving := g.arriving ++ [x] } ∧ x.bag = fieldAt hd.1 0 4 ∧
            x.slots = mine ∧ x.covered = fieldAt hd.1 4 4 ∧ x.status = fieldAt hd.1 0x0A 1)))

/-- ADD_BATCH joins the parts of a batch at its quern, and one that names no stack changes nothing. ADD_BATCH_ARRIVE and ADD_BATCH_RESERVED reserve the pending entries of the whole batch or none. ADD_BATCH_ARRIVE of a batch whose tag has a receipt counts and acknowledges it and changes no memory. ADD_BATCH_END of a batch that is reserved and
ended, at a quern that may add, counts its adds, records its receipt and drops the batch; before, it changes nothing. ADD_ACK ends the wait for its batch, and its firing with the last one, or at once with
FAULT_ACCESS where it was denied; one that no batch awaits changes nothing. CB_AGE_WRITEBACK, with CBAGE not zero, writes a combining entry back, no earlier than CBAGE µs after its last add: its line takes the deltas once, and every other byte
stands. SCATTER_ADD with offsets that are refused ends FAULT_OOB; with no add to send it ends at once. -/
def Obligations.QuernAdds : Prop :=
  ∀ (m : Module) (s : StackId) (tag : BatchTag), m.shaped → SparseWf regDefault m.regs → Memory.wf m.mem →
    let q := m.quern s.val
    (∀ (src : MemberId) (p : PtnId) payload,
      let st := fieldAt payload 0x18 1
      let tg := tagOf p.val st payload
      let sz := ((m.places (fieldAt payload 8 4)).map (·.rowBytes)).getD 0
      let adds := (List.range (fieldAt payload 0x16 2)).map fun i =>
        ({ index := fieldAt payload (0x20 + i * (8 + roundUp sz 8)) 8, delta := slice payload (0x28 + i * (8 + roundUp sz 8)) sz } : AddEntry)
      (20 ≤ st → Leaves (.addBatch src p payload) m m) ∧
      (st < 20 → (∀ b ∈ (m.quern st).batches, b.tag ≠ tg ∨ b.src ≠ src.val) → Leaves (.addBatch src p payload) m
        { m with querns := m.querns.modify st fun x => { x with
            batches := x.batches ++ [{ tag := tg, src := src.val, table := fieldAt payload 8 4, adds := adds
                                       ended := (fieldAt payload 0x15 1).testBit 0 }] } }) ∧
      (st < 20 → (∃ b ∈ (m.quern st).batches, b.tag = tg ∧ b.src = src.val) → Leaves (.addBatch src p payload) m
        { m with querns := m.querns.modify st fun x => { x with
            batches := updWhere (fun b => b.tag == tg && b.src == src.val)
              (fun b => { b with adds := b.adds ++ adds, ended := b.ended || (fieldAt payload 0x15 1).testBit 0 }) x.batches } }) ∧
      ((∀ x ∈ m.scatters, ∀ o ∈ x.out, o.2.1 = src.val → { o.1 with stack := 0 } ≠ tagOf p.val 0 payload) → Leaves (.addAck src p payload) m m) ∧
      (∀ o x f, (m.scatters.flatMap (·.out)).filter (fun o => o.2.1 == src.val && { o.1 with stack := 0 } == tagOf p.val 0 payload) = [o] →
        x ∈ m.scatters → o ∈ x.out → m.scatters.find? (fun y => y.key == x.key) = some x → m.firing x.key = some f →
        let rest := x.out.filter fun y => !(y.1 == o.1 && y.2.1 == src.val)
        let status := fieldAt payload 0x15 1
        (status = stFaultAccess → Completes (.addAck src p payload) m fun m' =>
          HasRun m' x.key stFaultAccess ∧ (∀ y ∈ m'.scatters, y.key ≠ x.key) ∧ m'.mem = m.mem ∧ m'.tables = m.tables) ∧
        (status ≠ stFaultAccess → rest ≠ [] → Leaves (.addAck src p payload) m
          { m with
            scatters := updWhere (fun y => y.key == x.key)
              (fun y => { y with out := y.out.filter fun z => !(z.1 == o.1 && z.2.1 == src.val) }) m.scatters }) ∧
        (status ≠ stFaultAccess → rest = [] → Completes (.addAck src p payload) m fun m' =>
          HasRun m' x.key (worse (flagIf x.flagged stOk) f.e.status) ∧ (∀ y ∈ m'.scatters, y.key ≠ x.key) ∧ m'.mem = m.mem ∧
          m'.tables = m.tables))) ∧
    (m.batch s.val tag = none → Leaves (.addBatchArrive s tag) m m ∧ Leaves (.addBatchReserved s tag) m m ∧ Leaves (.addBatchEnd s tag) m m) ∧
    (∀ b, m.batch s.val tag = some b →
      let used := ((q.batches.filter (·.reserved)).map m.batchLines).sum
      let mine (x : Batch) : Bool := x.tag == b.tag && x.src == b.src
      let reserved : Module := { m with querns := m.querns.modify s.val fun x => { x with
        batches := updWhere mine (fun x => { x with reserved := true }) x.batches } }
      let fits : Prop := b.reserved = false ∧ m.joinHolds b.table = false ∧ used + m.batchLines b ≤ 8192
      (fits → Leaves (.addBatchReserved s tag) m reserved) ∧ (¬ fits → Leaves (.addBatchReserved s tag) m m) ∧
      ((∀ r ∈ (m.ptn tag.ptn.val).receipts, r.tag ≠ tag) → m.batchDenied s.val b = false →
        (fits → Leaves (.addBatchArrive s tag) m reserved) ∧ (¬ fits → Leaves (.addBatchArrive s tag) m m)) ∧
      ((∃ r ∈ (m.ptn tag.ptn.val).receipts, r.tag = tag) → b.reserved = false →
        (b.ended = false → Leaves (.addBatchArrive s tag) m m) ∧
        (b.ended = true → Completes (.addBatchArrive s tag) m fun m' =>
          m'.mem = m.mem ∧ m'.tables = m.tables ∧ m'.ptns = m.ptns ∧ (∀ x ∈ (m'.quern s.val).batches, mine x = false) ∧
          m'.fld (ptnR tag.ptn.val 0xB8) 21 11 = min (m.fld (ptnR tag.ptn.val 0xB8) 21 11 + 1) (2 ^ 11 - 1) ∧
          (∀ i, (m'.quern i).comb = (m.quern i).comb))) ∧
      (b.reserved = false ∨ b.ended = false → Leaves (.addBatchEnd s tag) m m) ∧
      (∀ t, b.reserved = true → b.ended = true → m.table b.table = some t → m.adderDenied s.val t = false →
        (m.ptn tag.ptn.val).receipts.length < 1048576 → Completes (.addBatchEnd s tag) m fun m' =>
          (m'.ptn tag.ptn.val).receipts = (m.ptn tag.ptn.val).receipts ++ [{ tag := tag, table := b.table, at_ := m.ltime }] ∧
          m'.fld (qrnR s.val 0x048) 0 64 = min (m.fld (qrnR s.val 0x048) 0 64 + b.adds.length) (2 ^ 64 - 1) ∧
          (∀ x ∈ (m'.quern s.val).batches, mine x = false) ∧ m'.tables = m.tables ∧ m'.insts = m.insts ∧ m'.tokens = m.tokens)) ∧
    (∀ line o,
      ((∀ e ∈ q.comb, e.line ≠ line) ∨ m.fld (qrnR s.val 0x008) 4 16 = 0 → Leaves (.cbAgeWriteback s line o) m m) ∧
      (∀ e, q.comb.find? (fun e => e.line == line) = some e → m.fld (qrnR s.val 0x008) 4 16 ≠ 0 → Completes (.cbAgeWriteback s line .clean) m fun m' =>
        (∀ x ∈ (m'.quern s.val).comb, x.line ≠ line) ∧
        (m.poisonedIn (line * 128) 128 = true → m'.mem = m.mem) ∧
        (m.poisonedIn (line * 128) 128 = false → e.deltas.length * (typeBits e.type / 8) ≤ 128 →
          ∀ i, i < 128 → m'.mem.read (line * 128 + i) =
            ((addDeltas e.type (m.mem.readN (line * 128) 128) e.deltas).1).getD i (m.mem.read (line * 128 + i))) ∧
        (e.deltas.length * (typeBits e.type / 8) ≤ 128 →
          ∀ a, (a < line * 128 ∨ line * 128 + 128 ≤ a) → m'.mem.read a = m.mem.read a) ∧
        max m.ltime (e.addAt + m.fld (qrnR s.val 0x008) 4 16 * 1000) ≤ m'.ltime ∧
        m' = { m with querns := m'.querns, regs := m'.regs, mem := m'.mem, ltime := m'.ltime })) ∧
    (∀ k,
      (m.running k 0x11 = none → Leaves (.scatterAdd k) m m) ∧
      (∀ f lt tt t b d, m.running k 0x11 = some f → m.noDeltas → (∀ x ∈ m.scatters, x.key ≠ f.key) →
        ((m.tableRules f.ptn (f.env (m.draft f.ptn)) ++ scatterRules m.places (f.env (m.draft f.ptn))).all (·.1)) = true →
        f.tensor 0 = some lt → f.tensor 1 = some tt → m.table tt.tableId = some t → m.readBags f 0 lt = .ok b → m.placePort f 2 = .ok d →
        (b.ok m.mem = false → Completes (.scatterAdd k) m fun m' =>
          HasRun m' k stFaultOob ∧
          m'.fld (halR f.e.hall 0x100) 32 32 = min (m.fld (halR f.e.hall 0x100) 32 32 + 1) (2 ^ 32 - 1) ∧ m'.mem = m.mem ∧ m'.scatters = m.scatters) ∧
        (b.ok m.mem = true → m.quernDenied f t.place permAtomic = none → (∀ e ∈ b.entries m.mem, t.place.inRange (b.index m.mem e.2) = true) →
          let bs := (m.batchesOf f t ((b.entries m.mem).map fun e =>
            (e.2, ({ index := (b.index m.mem e.2).toNat, delta := addRow m.mem t.place d e.1 (b.weight m.mem e.2) } : AddEntry)))).filter
              fun x => m.isJoined x.2.1
          (bs = [] → Completes (.scatterAdd k) m fun m' =>
            HasRun m' k (worse stOk f.e.status) ∧ m'.mem = m.mem ∧ m'.scatters = m.scatters) ∧
          (bs ≠ [] → Completes (.scatterAdd k) m fun m' =>
            (∃ x, m'.scatters = m.scatters ++ [x] ∧ x.key = f.key ∧ x.out = bs ∧ x.flagged = false) ∧ m'.mem = m.mem ∧ m'.tables = m.tables))))

/-! ### Firings that compute: matrix, chain, vector, sparse and segment classes (R179–R297) -/

/-- MATMUL for a firing that is not executing, or whose running sums or pipe tiles have not all arrived, changes nothing. Where a rule of its class fails it ends with FAULT_ADDRESS and writes no memory. On any other it ends or halts. With every tensor placed, no
pattern fault and results apart from operands, memory outside the accumulator banks of its benches is the result's positions with the final conversion of the epilogue of the last running sum, tile padding 0,
for some order of additions and some draws; the status is OK or OK_FLAGGED, worse with its tokens'. CHAIN_FIRING on a READY chain node whose benches are all idle, and go to it by R62 and R79 or are held for it, makes each busy with it; else it changes nothing.
CHAIN_SUM_ARRIVE, for a chain firing that is not halted, takes the next tile at a position that the bench before has, once, counted at both; else it changes nothing. -/
def Obligations.MatrixFirings : Prop :=
  ∀ (m : Module) (k : FKey), m.canonical → m.halls.length = 4 → m.benches.length = 256 →
    (m.running k 0x20 = none ∨ m.sumsPassed k = false ∨ m.pipePassed k = false → Leaves (.matmul k) m m) ∧
    (∀ f, m.running k 0x20 = some f → m.sumsPassed k = true → m.pipePassed k = true → f.e.hall < 4 →
      (Completes (.matmul k) m fun m' =>
        (∃ e, m'.entry k = some e ∧ (e.ran = true ∨ e.haltAt ≠ none)) ∧ FiringFrame m m') ∧
      (m.noDeltas → ((matmulRules (f.env (m.draft f.ptn))).all (·.1)) = false → Completes (.matmul k) m fun m' =>
        HasRun m' k stFaultAddress ∧ m'.mem = m.mem ∧ FiringFrame m m') ∧
      (m.noDeltas → m.noPipe k → f.e.benches = [] → f.res 1 = none →
        ((matmulRules (f.env (m.draft f.ptn))).all (·.1)) = true →
        ∀ a b rt r, m.placeOn f f.bench 0 = .ok a → m.placeOn f f.bench 1 = .ok b → f.res 0 = some rt →
          m.place f f.bench 8 rt rt.extent permWrite = .ok r → prePort f.n = none → epiPort f.n = none →
          let mdim := (dimsA f.n a.t).1
          let ndim := (dimsB f.n b.t).2
          let o : MatOps := { a := a, b := b, t0 := f.n.par 1 1 == 1, t1 := f.n.par 0 1 == 1, lo := 0, hi := (dimsA f.n a.t).2 }
          a.patternBad m.mem false o.readsA = false → b.patternBad m.mem true (o.readsB m.mem mdim rt.dim2) = false → m.apart f 8 r →
          let run : MatRun :=
            { n := f.n, ops := [o], pre := none, epi := none
              bank := some (tileBase f.bench + 0x5F8000), stages := (matmulStages (m.draft f.ptn) f.n).getD [], mdim := mdim, ndim := ndim }
          Completes (.matmul k) m fun m' =>
            (∃ order draw draw' : Nat → Nat, ∀ x, x < tileBase f.bench + 0x5F8000 ∨ tileBase f.bench + 0x600000 ≤ x →
              let final (i j d2 : Nat) : Nat :=
                (finalElem rt.type (rndOf (f.n.par 8 2) draw' (pair 0 (pair i (pair j d2)))) (run.elem m.mem order draw i j d2)).code
              m'.mem.read x = ((writeCoded m.mem r (rt.positions.map fun q =>
                (q, some (if rt.inside q = true then (if (rt.dim1, rt.dim0) ≠ (mdim, ndim) then final q.1 0 q.2.2 else final q.2.1 q.1 q.2.2)
                  else 0)))).1).read x) ∧
            (HasRun m' k (worse stOk f.e.status) ∨ HasRun m' k (worse stFlagged f.e.status)) ∧ FiringFrame m m')) ∧
    (m.chainOf k = none → Leaves (.chainFiring k) m m) ∧
    (∀ f bs, m.chainOf k = some (f, bs) →
      let may := m.teamMay k f.e.ptn f.e.chainHold bs
      (f.e.state ≠ .ready ∨ m.barred f.e = true ∨ (∃ b ∈ bs, m.idleFor [k] b = false) ∨ may = false → Leaves (.chainFiring k) m m) ∧
      (f.e.state = .ready → m.barred f.e = false → (∀ b ∈ bs, m.idleFor [k] b = true ∧ b < 256) → may = true → f.e.hall < 4 →
        Completes (.chainFiring k) m fun m' =>
          (∀ b, (m'.bench b).busy = if b ∈ bs then some k else (m.bench b).busy) ∧
          m'.chains = m.chains ++ [{ key := k, benches := bs, tiles := ((f.res 0).map (·.tiles)).getD 0, got := bs.map fun _ => 0 }] ∧
          (∃ e, m'.entry k = some e ∧ e.state = .executing ∧ e.benches = bs ∧ e.bench = bs.head?) ∧
          m'.mem = m.mem ∧ m'.tokens = m.tokens ∧ m'.ltime = m.ltime ∧ m'.tables = m.tables)) ∧
    (∀ pos tile, m.running k 0x20 = none ∨ (∀ c ∈ m.chains, c.key ≠ k) → Leaves (.chainSumArrive k pos tile) m m) ∧
    (∀ pos tile c f, m.chains.find? (fun c => c.key == k) = some c → m.running k 0x20 = some f →
      let next : Prop := 1 ≤ pos ∧ pos < c.benches.length ∧ tile = c.got.getD pos 0 ∧ tile < c.tiles ∧
        (pos = 1 ∨ tile < c.got.getD (pos - 1) 0)
      (¬ next → Leaves (.chainSumArrive k pos tile) m m) ∧
      (next → c.benches.Pairwise (· ≠ ·) → Completes (.chainSumArrive k pos tile) m fun m' =>
        m'.chains = updWhere (fun x => x.key == k) (fun x => { x with got := x.got.set pos (tile + 1) }) m.chains ∧
        m'.fld (bchR (c.benches.getD pos 0) 0x030) 0 32 = min (m.fld (bchR (c.benches.getD pos 0) 0x030) 0 32 + 1) (2 ^ 32 - 1) ∧
        m'.fld (bchR (c.benches.getD (pos - 1) 0) 0x030) 32 32 = min (m.fld (bchR (c.benches.getD (pos - 1) 0) 0x030) 32 32 + 1) (2 ^ 32 - 1) ∧
        m' = { m with chains := m'.chains, regs := m'.regs }))

/-- Each for a firing that is not executing changes nothing (VECTOR also waits for its pipe); where a rule of its class fails it ends with FAULT_ADDRESS and writes no memory; on any other it ends or halts. With its tensors placed, no pattern fault and results
apart from operands: VECTOR writes for each element that the mask selects the chain of its stages over X's element (under SUMD2 the sum over DIM2) in the working type, and 0 or nothing for the others, a LUT entry out of range being 0;
REDUCE writes for each line the reduction of its selected elements; TOPK writes the positions of ranks SKIP to SKIP + K − 1, −1 for none. Order of additions and draws are some free ones. Each ends OK or OK_FLAGGED, worse with its tokens' status. -/
def Obligations.VectorFirings : Prop :=
  ∀ (m : Module) (k : FKey), SparseWf regDefault m.regs → m.halls.length = 4 → m.benches.length = 256 →
    let halfDone (m' : Module) : Prop := (∃ e, m'.entry k = some e ∧ (e.ran = true ∨ e.haltAt ≠ none)) ∧ FiringFrame m m'
    let faults (m' : Module) : Prop := HasRun m' k stFaultAddress ∧ m'.mem = m.mem ∧ FiringFrame m m'
    let ends (f : Firing) (m' : Module) : Prop :=
      (HasRun m' k (worse stOk f.e.status) ∨ HasRun m' k (worse stFlagged f.e.status)) ∧ FiringFrame m m'
    let broken (f : Firing) (rules : RuleEnv → List Rule) : Bool := (rules (f.env (m.draft f.ptn))).all (·.1)
    (m.running k 0x30 = none ∨ m.pipePassed k = false → Leaves (.vector k) m m) ∧
    (m.running k 0x31 = none → Leaves (.reduce k) m m) ∧ (m.running k 0x32 = none → Leaves (.topk k) m m) ∧
    (∀ f, m.running k 0x30 = some f → m.pipePassed k = true → f.e.hall < 4 →
      Completes (.vector k) m halfDone ∧ (broken f vectorRules = false → Completes (.vector k) m faults) ∧
      (m.noDeltas → m.noPipe k → broken f vectorRules = true → ∀ x p1 p2 p3 y, m.placePort f 0 = .ok x →
        m.placeOpt f (if 1 < f.n.nports then some 1 else none) = .ok p1 → m.placeOpt f (if 2 < f.n.nports then some 2 else none) = .ok p2 →
        m.placeOpt f (if 3 < f.n.nports then some 3 else none) = .ok p3 → m.placeRes f 0 = .ok y →
        (∀ p ∈ x :: [p1, p2, p3].filterMap id, p.patternBad m.mem false (fun _ => true) = false ∧ p.t.oobx = false) →
        let ports : Nat → Option Placed := fun p => match p with
          | 1 => p1
          | 2 => p2
          | 3 => p3
          | _ => none
        let mask := if f.n.par 11 2 = 0 then none else ports (f.n.par 11 2)
        m.apartAt f 8 (y.keys (if f.n.par 13 1 = 1 ∨ mask.isNone = true then y.t.spans 0 else
          y.t.spansAt fun q => active m.mem mask q.1 q.2.1 q.2.2)) →
        Completes (.vector k) m fun m' =>
          (∃ (order order' draw : Nat → Nat → Nat) (draw' : Nat → Nat),
            m'.mem = (writeResult m.mem y (rndOf (f.n.par 9 2) draw') fun d0 d1 d2 =>
              let q := pair d0 (pair d1 d2)
              if active m.mem mask d0 d1 d2 = true then
                let e := vectorIn m.mem x (f.n.par 14 1 == 1) (order q) d0 d1 d2
                let s := enter (wtType (f.n.par 6 3)) e.v
                let s := runChain (vectorEnv m.mem ports (order' q) (draw q) d0 d1 d2) ((vectorStages (m.draft f.ptn) f.n).getD [])
                  { s with sat := s.sat || e.sat }
                some { v := s.v, sat := s.sat, nan := s.nan }
              else if f.n.par 13 1 = 1 then some { v := zeroVal y.t.type }
              else none).1) ∧ ends f m')) ∧
    (∀ f, m.running k 0x31 = some f → f.e.hall < 4 →
      Completes (.reduce k) m halfDone ∧ (broken f reduceRules = false → Completes (.reduce k) m faults) ∧
      (m.noDeltas → m.noPipe k → broken f reduceRules = true → f.res 1 = none → ∀ x mask r, m.placePort f 0 = .ok x →
        m.placeOpt f (if f.n.par 15 1 = 1 then some 1 else none) = .ok mask → m.placeRes f 0 = .ok r →
        (∀ p ∈ x :: mask.toList, p.patternBad m.mem false (fun _ => true) = false) → m.apart f 8 r →
        let vc := f.n.par 6 1 == 1
        let stages := (reduceStages (m.draft f.ptn) f.n).getD []
        let ty := (reduceType stages vc x.t.type).getD x.t.type
        Completes (.reduce k) m fun m' =>
          (∃ (order order' draw : Nat → Nat → Nat) (draw' : Nat → Nat),
            m'.mem = (writeResult m.mem r (rndOf (f.n.par 12 2) draw') fun d0 d1 d2 =>
              let line := ((lineOf (f.n.par 4 2) x.t (d0, d1, d2)).filter fun q => active m.mem mask q.2.1 q.2.2.1 q.2.2.2).map fun q =>
                (q.1, (if vc = true then (runChain (plainEnv (order' q.1) (draw q.1)) stages
                    (enter (if isInt x.t.type = true then 0x13 else 0x01) (x.elem m.mem q.2.1 q.2.2.1 q.2.2.2))).v
                  else x.elem m.mem q.2.1 q.2.2.1 q.2.2.2))
              some (reduceLine (f.n.par 0 4) (f.n.par 14 1 == 1) ty (order (pair d0 (pair d1 d2))) line).1).1) ∧ ends f m')) ∧
    (∀ f, m.running k 0x32 = some f → f.e.hall < 4 →
      Completes (.topk k) m halfDone ∧ (broken f topkRules = false → Completes (.topk k) m faults) ∧
      (m.noDeltas → m.noPipe k → broken f topkRules = true → f.res 1 = none → ∀ x mask r, m.placePort f 0 = .ok x →
        m.placeOpt f (if f.n.par 9 1 = 1 then some 1 else none) = .ok mask → m.placeRes f 0 = .ok r →
        (∀ p ∈ x :: mask.toList, p.patternBad m.mem false (fun _ => true) = false) → m.apart f 8 r →
        Completes (.topk k) m fun m' =>
          m'.mem = (writeResult m.mem r (fun _ => .even) fun d0 d1 d2 =>
            let line := ((List.range x.t.dim0).filter fun i => active m.mem mask i d1 d2).map fun i => (i, x.elem m.mem i d1 d2)
            let ranks := (rankLine (f.n.par 8 1 == 1) (ceilDiv (f.n.par 16 12 + f.n.par 0 8) 64) none line).1
            some { v := .int (((ranks[f.n.par 16 12 + d0]?).map fun y => (y.1 : Int)).getD (-1)) }).1 ∧ ends f m'))

/-- Each for a firing that is not executing changes nothing; a failed rule of the class ends it with FAULT_ADDRESS, offsets that fail with FAULT_OOB, counted, and neither writes memory. With tensors placed, no element that faults, no hub and results apart from operands, SPMM_CSR writes for
each row and column the sum, in some order, of the products over the row's entries, and SEGMENT_REDUCE the SUM, MAX or MIN of each segment's entries and the MEAN as SUM times 1 ÷ n; each ends OK or OK_FLAGGED, worse with its tokens'. HUB_SEGMENT_TAKE on an idle bench takes the piece that R62 and R79 choose,
and on the owner's bench, where it has no piece, the owner's first free one; the bench computes its partial and counts it; else it changes nothing. HUB_PARTIAL_ARRIVE for a piece that a bench has taken merges its partial at the owner, and the piece leaves the queue; else it changes nothing. -/
def Obligations.SparseFirings : Prop :=
  ∀ (m : Module) (k : FKey), SparseWf regDefault m.regs → m.halls.length = 4 → m.benches.length = 256 →
    let broken (f : Firing) (rules : RuleEnv → List Rule) : Bool := (rules (f.env (m.draft f.ptn))).all (·.1)
    let ends (f : Firing) (m' : Module) : Prop :=
      (HasRun m' k (worse stOk f.e.status) ∨ HasRun m' k (worse stFlagged f.e.status)) ∧ FiringFrame m m'
    (m.running k 0x21 = none → Leaves (.spmmCsr k) m m) ∧ (m.running k 0x13 = none → Leaves (.segmentReduce k) m m) ∧
    (∀ f, m.running k 0x21 = some f → f.e.hall < 4 →
      (broken f spmmRules = false → Completes (.spmmCsr k) m fun m' => HasRun m' k stFaultAddress ∧ m'.mem = m.mem ∧ FiringFrame m m') ∧
      (m.noDeltas → f.bench < 256 → broken f spmmRules = true → (∃ x y, m.spmmOps f = .ok (.bad, x, y)) → Completes (.spmmCsr k) m fun m' =>
        HasRun m' k stFaultOob ∧ m'.mem = m.mem ∧ FiringFrame m m' ∧
        m'.fld (bchR f.bench 0x110) 32 32 = min (m.fld (bchR f.bench 0x110) 32 32 + 1) (2 ^ 32 - 1)) ∧
      (∀ c b r, m.noDeltas → m.noPipe k → broken f spmmRules = true → m.spmmOps f = .ok (.ok c, b, r) → c.t.oobx = false → (∀ h ∈ m.hubs, h.key ≠ k) →
        (f.n.par 3 1 = 1 ∨ c.hubs m.mem (m.hubThr f.bench) = []) → m.apart f 8 r → Completes (.spmmCsr k) m fun m' =>
          (∃ (order : Nat → Nat → Nat → Nat) (draw : Nat → Nat),
            m'.mem = (writeResult m.mem r (rndOf (f.n.par 0 2) draw) fun d0 d1 _ =>
              some (spmmSum (order d0 d1) (spmmTerms m.mem c b (c.line m.mem d1) d0))).1) ∧ ends f m')) ∧
    (∀ f, m.running k 0x13 = some f → f.e.hall < 4 →
      (broken f segmentRules = false → Completes (.segmentReduce k) m fun m' => HasRun m' k stFaultAddress ∧ m'.mem = m.mem ∧ FiringFrame m m') ∧
      (m.noDeltas → (∃ x y z, m.segmentOps f = .ok (none, x, y, z)) → Completes (.segmentReduce k) m fun m' =>
        HasRun m' k stFaultOob ∧ m'.mem = m.mem ∧ FiringFrame m m') ∧
      (∀ src x y, m.noDeltas → m.noPipe k → m.segmentOps f = .ok (some src, x, y, false) → (∀ h ∈ m.hubs, h.key ≠ k) → f.n.par 5 1 = 1 →
        m.apart f 8 y →
        let entries (s : Nat) : List (Nat × Machine.Num) :=
          ((List.range (src.span m.mem s).2).map ((src.span m.mem s).1 + ·)).filterMap (src.entry m.mem)
        Completes (.segmentReduce k) m fun m' =>
          (∃ (order : Nat → Nat → Nat → Nat) (draw : Nat → Nat),
            m'.mem = (writeResult m.mem y (rndOf (f.n.par 3 2) draw) fun d0 d1 _ =>
              let e := segFold m.mem x (f.n.par 0 3) d0 (order d0 d1) (entries d1)
              let r := fp32.mul e.v.num (quot (.fin false 1 0) (.fin false (entries d1).length 0)).v
              some (if f.n.par 0 3 = 1 then
                  (if (entries d1).length = 0 then { v := .flt Machine.Num.zero } else { v := .flt r.v, sat := e.sat || r.sat })
                else e)).1) ∧ ends f m')) ∧
    (∀ b : BenchId,
      let h := b.val / 64
      let q := (m.hall h).hubq
      let takes (f : Firing) (s : HubSegment) (m' : Module) : Prop :=
        (∃ more, (m'.hall h).hubq = updWhere (fun y => y.owner == s.owner && y.row == s.row && y.seg == s.seg) (fun y =>
          { y with
            bench := some b.val
            partials := if f.n.op = 0x21 then m.opened.spmmPartial f s else if f.n.op = 0x13 then m.opened.segmentPartial f s else [] })
          q ++ more ∧ (m.hubs = [] → more = []) ∧ ∀ y ∈ more, y.bench = none) ∧
        (m'.bench b.val).busy = (if (m.bench b.val).busy = none then some s.owner else (m.bench b.val).busy) ∧
        Counts m m' (bchR b.val 0x130) 32 32 ∧
        m' = { m with halls := m'.halls, benches := m'.benches, regs := m'.regs, free := m'.free, stamp := m'.stamp }
      (∀ f, (m.bench b.val).busy.bind m.firing = some f → f.e.hall = h →
        (f.e.bench ≠ some b.val ∨ (∃ s ∈ q, s.bench = some b.val) → Leaves (.hubSegmentTake b) m m) ∧
        (f.e.bench = some b.val → (∀ s ∈ q, s.bench ≠ some b.val) →
          ((∀ s ∈ q, s.owner = f.key → s.bench ≠ none) → (∀ x ∈ m.hubs, x.key ≠ f.key) → Leaves (.hubSegmentTake b) m m) ∧
          (∀ s, q.find? (fun s => s.owner == f.key && s.bench.isNone) = some s → m.firing s.owner = some f →
            Completes (.hubSegmentTake b) m (takes f s)))) ∧
      ((m.bench b.val).busy.bind m.firing = none →
        (m.benchIdle b.val = false ∨ m.best h b.val = none → Leaves (.hubSegmentTake b) m m) ∧
        (∀ j, m.benchIdle b.val = true → m.best h b.val = some j →
          ((∀ row seg, j.kind ≠ .segment row seg) → Leaves (.hubSegmentTake b) m m) ∧
          (∀ row seg s f, j.kind = .segment row seg → q.find? (fun s => s.owner == j.key && s.row == row && s.seg == seg) = some s →
            m.firing s.owner = some f → Completes (.hubSegmentTake b) m (takes f s))))) ∧
    (∀ row seg : Nat,
      let taken (f : Firing) := (m.hall f.e.hall).hubq.find? fun s => s.owner == k && s.row == row && s.seg == seg && s.bench.isSome
      ((m.firing k = none ∨ (∀ h ∈ m.hubs, h.key ≠ k)) → Leaves (.hubPartialArrive k row seg) m m) ∧
      (∀ f, m.firing k = some f → taken f = none → Leaves (.hubPartialArrive k row seg) m m) ∧
      (∀ f st s, m.firing k = some f → m.hubs.find? (fun x => x.key == k) = some st → taken f = some s → f.e.hall < 4 →
        Completes (.hubPartialArrive k row seg) m fun m' =>
          m'.hubs = updWhere (fun x => x.key == k) (fun x => { x with merged := x.merged ++ [(row, seg, s.partials)] }) m.hubs ∧
          (∀ y ∈ (m'.hall f.e.hall).hubq, y.owner = k → y.row = row → y.seg = seg → y.bench = none) ∧
          (∀ b, s.bench = some b → f.e.bench ≠ some b → (m'.bench b).busy = none) ∧
          m' = { m with halls := m'.halls, hubs := m'.hubs, benches := m'.benches, stamp := m'.stamp }))

/-! ### Sampling (R281–R294, R398) -/

/-- SAMPLE for a firing that is not executing changes nothing; a failed rule ends it with FAULT_ADDRESS, a seed out of range under OOBX with FAULT_OOB, and neither writes memory. Over a local graph, outside full mode, the result's neighbours are those of the hops of its seeds, drawn by the request's draws, and it ends OK or OK_FLAGGED; over a guild graph hop 1
goes to the members that serve its parents. SAMPLE_NEIGHBOUR_RETURN without a parent that this member holds changes nothing; a parent without neighbours is answered with itself, weight 1.0; another gets its next neighbour. SAMPLE_REQ of one parent is answered by one SAMPLE_ANS: status 0x10 without its
table, FAULT_ACCESS where the querns deny it, else what the querns answer. A group of SAMPLE_ANS whose parent waits is appended to it, FAULT_ACCESS ends the sample; one that no parent waits for is discarded. -/
def Obligations.Sampling : Prop :=
  ∀ (m : Module) (k : FKey), m.canonical → m.halls.length = 4 →
    (m.running k 0x12 = none → Leaves (.sample k) m m) ∧
    (∀ f, m.running k 0x12 = some f → (∀ x ∈ m.samples, x.key ≠ k) → m.noDeltas → f.e.hall < 4 →
      let x := f.env (m.draft f.ptn)
      let ok := (m.tableRules f.ptn x ++ sampleRules (m.isOffs f.ptn) x).all (·.1)
      (ok = false → Completes (.sample k) m fun m' => HasRun m' k stFaultAddress ∧ m'.mem = m.mem ∧ FiringFrame m m') ∧
      (∀ p gt, ok = true → m.placePort f 0 = .ok p → f.tensor 1 = some gt → f.n.nports ≠ 3 →
        let verts := if gt.space = 3 then ((m.places gt.tableId).map (·.rows)).getD 0 else gt.dim1
        let seeds := seedsOf m.mem p
        (p.t.oobx = true → (∃ v ∈ seeds, v < 0 ∨ (verts : Int) ≤ v) → Completes (.sample k) m fun m' =>
          HasRun m' k stFaultOob ∧ m'.mem = m.mem ∧ FiringFrame m m' ∧
          m'.fld (halR f.e.hall 0x160) 0 32 = min (m.fld (halR f.e.hall 0x160) 0 32 + 1) (2 ^ 32 - 1)) ∧
        (∀ c rt q, p.t.oobx = false → gt.space ≠ 3 → gt.oobx = false → f.n.full = false → m.noPipe k → m.readCsr f 1 gt = .ok (.ok c) → f.res 0 = some rt →
          rt.pitch = 0 →
          let hops := (localHops m.mem c f.n f.i.reqid f.n.hops 1 (seedParents c.t.dim1 seeds).1).1
          let bytes := (sampleBags f.n seeds.length hops).flatten.flatMap fun e => idxBytesOf rt e.1
          m.placeAt f 8 rt 0 bytes.length permWrite = .ok q → m.apartAt f 8 [(q.key, q.key + bytes.length)] →
          Completes (.sample k) m fun m' =>
            (∀ i, i < bytes.length → m'.mem.read (q.key + i) = bytes.getD i 0) ∧
            (∀ a, (a < q.key ∨ q.key + bytes.length ≤ a) → m'.mem.read a = m.mem.read a) ∧
            (HasRun m' k (worse stOk f.e.status) ∨ HasRun m' k (worse stFlagged f.e.status)) ∧ FiringFrame m m') ∧
        (∀ g t ps, p.t.oobx = false → gt.space = 3 → m.ggraph f.ptn gt.tableId = some g → m.table gt.tableId = some t → f.n.full = false → f.n.hops ≠ 0 →
          (∀ r ∈ g.tables, (m.places r).bind (fun r => m.quernDenied f r permRead) = none) →
          m.assignParents f t (seedParents verts seeds).1 = .inl ps → (∃ y ∈ ps, y.answered = false) →
          Completes (.sample k) m fun m' =>
            m'.samples = (m.samples.filter (·.key != k)) ++ [{ key := k, ptn := f.ptn, hop := 1, parents := ps,
                                                                flagged := decide (0 < (seedParents verts seeds).2) }] ∧
            m'.entry k = m.entry k ∧ m'.mem = m.mem ∧ FiringFrame m m'))) ∧
    ((∀ x ∈ m.samples, x.key ≠ k) → Leaves (.sampleNeighbourReturn k) m m) ∧
    (∀ st f gt g t, m.samples.find? (fun x => x.key == k) = some st → m.firing k = some f → f.tensor 1 = some gt → m.ggraph f.ptn gt.tableId = some g →
      m.table gt.tableId = some t →
      let put (p p' : Parent) : List Parent := updWhere (fun x => x.bag == p.bag && x.slot == p.slot) (fun _ => p') st.parents
      let goesOn (ps : List Parent) : Prop := ∃ x ∈ ps, x.answered = false
      let now (m1 : Module) (ps : List Parent) : Module :=
        { m1 with samples := updWhere (fun x => x.key == k) (fun _ => { st with parents := ps }) m1.samples }
      ((∀ p ∈ st.parents, p.answered = true ∨ p.member ≠ m.member) → Leaves (.sampleNeighbourReturn k) m m) ∧
      (∀ p start deg read, st.parents.find? (fun p => !p.answered && p.member == m.member) = some p →
        m.readOffs f.ptn gt.hint g (f.edition g.offs) p.vertex.toNat = (.ok start deg, read) →
        let m1 := if p.got = [] then read else m
        let F := if f.n.full = true then deg else f.n.fan st.hop
        (f.n.full = true → m1.fullFits f (st.past.flatten.map (·.got.length)) deg = true) →
        (deg = 0 →
          let ps := put p { p with
            got := p.got ++ List.replicate (if f.n.full = true then 0 else F) (p.vertex, 0x3F800000)
            answered := true }
          goesOn ps → Leaves (.sampleNeighbourReturn k) m (now m1 ps)) ∧
        (deg ≠ 0 →
          let i := if f.n.full = true then p.got.length
            else (positions (Config.sampleDraw (f.n.par 30 16) f.i.reqid.toNat st.hop p.vertex p.slot) F deg).getD p.got.length 0
          ∀ x m2, m1.readNbr f.ptn gt.hint none g (f.edition g.offs) (p.vertex.toNat % t.place.shards) (start + i) (f.n.wout == 1) = (.inr x, m2) →
            let ps := put p { p with
              got := p.got ++ [(x.1, slotWeight f.n.wout deg x.2)]
              answered := decide (F ≤ p.got.length + 1) }
            goesOn ps → Leaves (.sampleNeighbourReturn k) m (now (m2.count (halR ((t.place.rowAt p.vertex.toNat).stack / 5) 0x168) 0 64) ps))) ∧
      (∀ (src : MemberId) (ptn : PtnId) (payload : List Byte) bag slot start status last got,
        k = { inst := BitVec.ofNat 32 (fieldAt payload 0 4), node := BitVec.ofNat 16 (fieldAt payload 4 2)
              gen := BitVec.ofNat 16 (fieldAt payload 6 2) } →
        answerGroups payload payload.length 16 = [(bag, slot, start, status, last, got)] →
        let waits := st.parents.find? fun p => !p.answered && p.member == src.val && p.bag == bag && p.slot == slot && p.got.length == start
        (waits = none → Leaves (.sampleAns src ptn payload) m m) ∧
        (∀ p, waits = some p →
          (status = 0 →
            let ps := put p { p with got := p.got ++ got, answered := last }
            goesOn ps → Leaves (.sampleAns src ptn payload) m (now m ps)) ∧
          (status = stFaultAccess → f.e.hall < 4 → Completes (.sampleAns src ptn payload) m fun m' =>
            m'.samples = m.samples.filter (·.key != k) ∧ HasRun m' k stFaultAccess ∧ m'.mem = m.mem ∧ FiringFrame m m')))) ∧
    (∀ (src : MemberId) (ptn : PtnId) (pl : List Byte), fieldAt pl 0x12 2 = 1 → src.val ≠ m.member → m.isJoined src.val = true →
      let M := remoteMaster src.val ptn.val
      let v := signedOf 64 (fieldAt pl 0x30 8)
      let group (status : Nat) (got : List (Int × BitVec 32)) : List Byte :=
        leBytes 4 (fieldAt pl 0x38 4) ++ leBytes 4 (fieldAt pl 0x3C 4) ++ leBytes 4 0 ++ leBytes 2 got.length ++ leBytes 1 status ++
          leBytes 1 1 ++ got.flatMap fun e => leBytes 8 (BitVec.ofInt 64 e.1).toNat ++ leBytes 4 e.2.toNat ++ leBytes 4 0
      let answers (m' : Module) (g : List Byte) : Prop :=
        m'.sent = m.sent ++ [.fab src.val 1 ((m.flow src.val 1).sent + 1) ((assocGet src.val m.fab.routes).getD 0)
          (.payload 0x13 ptn.val (slice pl 8 9 ++ leBytes 7 0 ++ g))] ∧ m'.mem = m.mem ∧ m'.tokens = m.tokens ∧ m'.samples = m.samples
      ((m.ggraph ptn.val (fieldAt pl 0 4) = none ∨ m.table (fieldAt pl 0 4) = none) → Completes (.sampleReq src ptn pl) m fun m' =>
        answers m' (group 0x10 [])) ∧
      (∀ g t, m.ggraph ptn.val (fieldAt pl 0 4) = some g → m.table (fieldAt pl 0 4) = some t →
        let s := (t.place.rowAt v.toNat).stack
        (m.allowed tcQuern s ptn.val M permRead = false → Completes (.sampleReq src ptn pl) m fun m' => answers m' (group stFaultAccess [])) ∧
        (m.allowed tcQuern s ptn.val M permRead = true →
          let r := m.answerParent ptn.val (fieldAt pl 0x11 1 % 4) M g (fieldAt pl 4 4) ((fieldAt pl 0x11 1).testBit 4) (fieldAt pl 0x16 1) (bitsOf (fieldAt pl 0x11 1) 2 2)
            (fieldAt pl 0x14 2) (BitVec.ofNat 64 (fieldAt pl 0x18 8)) (fieldAt pl 0x17 1) v (fieldAt pl 0x3C 4)
          Completes (.sampleReq src ptn pl) m fun m' => answers m' (group r.1 r.2.1)))) 

/-! ### The guild: agreements, joining and loss (R94, R169, R170, R400–R407, R443) -/

/-- A member outside the guild, or asked about an epoch below its warden's, ignores PREPARE, COMMIT, ABORT and RELEASE. An epoch with an outcome is answered with it and changes nothing. PREPARE otherwise records the agreement; for CHARTER and for GROUP with no collective of a changed group under way READY goes out at once;
for DRAFT_ACTIVATE the partition stops admitting. DRAIN_TIMEOUT for an agreement not reported sends NOT_READY no earlier than its limit. COMMIT puts a group table, a flip's edition, a staged draft or a charter into force, records the outcome
and sends ACK; ABORT records it and the state stands, a waiting group table getting RESULT 2. RELEASE removes the RETIRING edition and posts RETIRED with the pages freed. No fall-back launch is queued. -/
def Obligations.MembersOfAgreements : Prop :=
  ∀ (m : Module) (epoch : Word) (a : Agreement), m.ptns.length = 8 → m.rwk.fallbacks = [] →
    let e := epoch.toNat
    let away : Prop := m.inGuild = false ∨ e < m.guild.floor
    let here : Prop := m.inGuild = true ∧ m.guild.floor ≤ e
    let fresh : Prop := here ∧ m.outcome e = none
    let answered (m' : Module) (ok : Bool) : Prop :=
      Sends m m' m.guild.warden 0 (.report e (if ok = true then .ack m.charter else .notReady 0)) ∧ m' = { m with fab := m'.fab, sent := m'.sent }
    let done (m' : Module) (ok : Bool) : Prop :=
      m'.outcome e = some ok ∧ m'.guild.epoch = max m.guild.epoch e ∧ m'.guild.epochSeen = max m.guild.epochSeen e
    (away → (∀ d, Leaves (.prepare epoch a d) m m) ∧ (∀ t n, Leaves (.release epoch t n) m m) ∧ Leaves (.abort epoch a) m m ∧
      ((∀ k s r, a ≠ .join k s r) → Leaves (.commit epoch a) m m)) ∧
    (∀ ok, here → m.outcome e = some ok →
      (∀ d, Completes (.prepare epoch a d) m fun m' => answered m' ok) ∧ Completes (.commit epoch a) m (fun m' => answered m' ok) ∧
      Completes (.abort epoch a) m (fun m' => answered m' ok) ∧ ∀ t n, Leaves (.release epoch t n) m m) ∧
    (∀ d x, fresh → m.guild.agr = some x → x.epoch = e → Completes (.prepare epoch a d) m fun m' =>
      Sends m m' m.guild.warden 0 (.report e (if x.reported = some true then .ready else .notReady 0)) ∧ m' = { m with fab := m'.fab, sent := m'.sent }) ∧
    (∀ d, fresh → (∀ x, m.guild.agr = some x → x.epoch ≠ e) →
      let taken (r : Option Bool) : Guild :=
        { m.guild with epochSeen := max m.guild.epochSeen e
                       agr := some { epoch := e, agr := a, since := m.ltime, drainUs := d, reported := r } }
      (∀ bs, a = .charter bs → Completes (.prepare epoch a d) m fun m' =>
        Sends m m' m.guild.warden 0 (.report e .ready) ∧ m' = { m with guild := taken (some true), fab := m'.fab, sent := m'.sent }) ∧
      (∀ t, a = .group t →
        let busy : Prop := ∃ c ∈ m.rwk.colls, c.ended = none ∧ c.grp ∈ changedGroups m.rwk.inForce t
        (busy → Leaves (.prepare epoch a d) m { m with guild := taken none }) ∧
        (¬ busy → Completes (.prepare epoch a d) m fun m' =>
          Sends m m' m.guild.warden 0 (.report e .ready) ∧ m' = { m with guild := taken (some true), fab := m'.fab, sent := m'.sent })) ∧
      (∀ p, a = .draftActivate p → Completes (.prepare epoch a d) m fun m' =>
        (m'.ptn p.val).admitting = false ∧ ∃ x, m'.guild.agr = some x ∧ x.epoch = e ∧ x.agr = a ∧ x.since = m.ltime ∧ x.drainUs = d)) ∧
    ((∀ x, m.guild.agr = some x → x.epoch ≠ e ∨ x.reported ≠ none ∨ x.done ≠ none ∨ x.limit = none) → Leaves (.drainTimeout epoch) m m) ∧
    (∀ x l, m.guild.agr = some x → x.epoch = e → x.reported = none → x.done = none → x.limit = some l → Completes (.drainTimeout epoch) m fun m' =>
      (∃ why, Sends m m' m.guild.warden 0 (.report e (.notReady why))) ∧ m'.ltime = max m.ltime (x.since + l * 1000) ∧
      m' = { m with guild := { m.guild with agr := some { x with reported := some false } }, fab := m'.fab, sent := m'.sent, ltime := m'.ltime }) ∧
    (fresh →
      (∀ t, a = .group t → Completes (.commit epoch a) m fun m' =>
        m'.rwk.inForce = t ∧ m'.rwk.epoch = e ∧ done m' true ∧ m'.hasSent m.guild.warden 0 (.report e (.ack m'.charter)) ∧
        m'.mem = m.mem ∧ m'.tables = m.tables ∧ m'.ptns = m.ptns ∧ m'.asy = m.asy ∧ m'.pwr = m.pwr) ∧
      (∀ bs, a = .charter bs → Completes (.commit epoch a) m fun m' =>
        m'.fab.gcharter = slice bs 0 64 ∧ done m' true ∧ Sends m m' m.guild.warden 0 (.report e (.ack m'.charter)) ∧
        m' = { m with guild := m'.guild, fab := m'.fab, sent := m'.sent }) ∧
      (∀ t n x, a = .flip t n → m.table t = some x → (∀ p ∈ m.ptns, ∀ g ∈ p.ggraphs, g.offs ≠ t) → (∃ y ∈ x.editions, y.num = n) →
        Completes (.commit epoch a) m fun m' =>
          (m'.table t).map (fun y => y.editions.map fun z => (z.num, z.state)) =
            some (x.editions.map fun y => (y.num, if y.num = n then .current else if y.state = .current then .retiring else y.state)) ∧
          (m'.table t).map (·.flip) = some e ∧ done m' true ∧ (∃ ch, m'.hasSent m.guild.warden 0 (.report e (.ack ch))) ∧
          m'.mem = m.mem ∧ m'.ptns = m.ptns ∧ m'.asy = m.asy ∧ m'.pwr = m.pwr) ∧
      (∀ p d, a = .draftActivate p → (m.ptn p.val).staged = some d → Completes (.commit epoch a) m fun m' =>
        (m'.ptn p.val).draft = some d ∧ (m'.ptn p.val).staged = none ∧ (m'.ptn p.val).epoch = e ∧ (m'.ptn p.val).admitting = true ∧
        m'.asy.hallmarks = m.asy.hallmarks.modify (8 + p.val) (fun h => sha3 (h ++ d.digest)) ∧ done m' true ∧
        ∃ ch, m'.hasSent m.guild.warden 0 (.report e (.ack ch))) ∧
      (∀ t, a = .group t → Leaves (.abort epoch a) m { m with
        rwk := if m.rwk.busy = true ∧ m.rwk.stagedT = t then { m.rwk with busy := false, result := 2 } else m.rwk
        guild := (m.recordEpoch e false).guild }) ∧
      (∀ t n, a = .flip t n → Completes (.abort epoch a) m fun m' => done m' false ∧ m' = { m with guild := m'.guild }) ∧
      (∀ (t n : BitVec 32) x y g, m.table t.toNat = some x → x.editions.find? (fun y => y.num == n.toNat && y.state == .retiring) = some y →
        m.regionNo x.ptn x.place.rgn = some g → Completes (.release epoch t n) m fun m' =>
          (m'.table t.toNat).map (·.editions) = some (x.editions.filter fun z => z.num != n.toNat) ∧
          PostsOne m m' (sevOf 0x0803) 0x0803 (some x.ptn) x.place.table (leBytes 4 x.place.table ++ leBytes 4 n.toNat ++ leBytes 8 e ++
            leBytes 4 (y.pages.filter fun k => !x.shares y.num k).length) ∧ m'.outcome e = some true))

/-- A report on no agreement, or on another epoch than the one that runs, changes nothing. READY is noted while another member's report is missing; with the last one COMMIT goes to every member that votes. NOT_READY as the last one sends ABORT to each and ends the agreement, with the notice
ABORTED for a flip; the last ACK ends it, with FLIPPED for a flip. DRAINED at another member, or repeated, changes nothing; it is noted, and once every JOINED member has reported the same edition RELEASE goes to each under a new epoch. PROBE_EXPIRE for a member that the warden probes declares it lost:
LOST with a new epoch goes to every other JOINED member and MEMBER_LOST is posted; else it changes nothing. -/
def Obligations.WardenDecides : Prop :=
  ∀ (m : Module) (src : MemberId) (epoch : Word),
    let e := epoch.toNat
    let told (a : WardenAgr) (k : Nat) : Prop := k = src.val ∨ k ∈ a.ready ∨ (∃ r ∈ a.refused, r.1 = k) ∨ k ∈ a.acked
    ((∀ a, m.guild.current = some a → a.epoch ≠ e) → Leaves (.ready src epoch .ready) m m ∧ ∀ n, Leaves (.ready src epoch (.notReady n)) m m) ∧
    ((∀ p ∈ m.ptns, ∀ x ∈ p.waitCmds, x.capsule.reqid ≠ epoch ∨ x.capsule.opc ≠ 0x20) →
      Leaves (.ready src epoch .staged) m m ∧ Leaves (.ready src epoch .refused) m m) ∧
    (∀ a, m.guild.current = some a → a.epoch = e → a.phase = 0 → a.lost = false →
      let ready : WardenAgr := { a with ready := a.ready ++ [src.val] }
      ((∃ k ∈ m.voters, ¬ told a k) → Leaves (.ready src epoch .ready) m { m with guild := { m.guild with current := some ready } }) ∧
      ((∀ k ∈ m.voters, told a k) → a.refused = [] → (∀ k s r, a.agr ≠ .join k s r) → Completes (.ready src epoch .ready) m fun m' =>
        (∃ ch, m'.guild = { m.guild with
          current := some { ready with phase := 1, changed := ch }
          acks := m.guild.acks ++ [{ epoch := e, waits := m.voters }] }) ∧
        (∀ k ∈ m.voters, m'.hasSent k 0 (.commit e a.agr)) ∧ m' = { m with guild := m'.guild, fab := m'.fab, sent := m'.sent }) ∧
      (∀ n, (∀ k ∈ m.voters, told a k) → a.refused = [] → a.capsule = none → a.taken = false → m.guild.queue = [] →
        Completes (.ready src epoch (.notReady n)) m fun m' =>
          m'.guild.current = none ∧ (∀ k ∈ m.voters, m'.hasSent k 0 (.abort e a.agr)) ∧
          (∀ t x, a.agr = .flip t x → PostsOne m m' (sevOf 0x0802) 0x0802 ((m.table t).map (·.ptn)) t
            (leBytes 4 t ++ leBytes 4 x ++ leBytes 8 e ++ leBytes 1 n ++ leBytes 8 (2 ^ src.val))) ∧
          m' = { m with guild := m'.guild, fab := m'.fab, sent := m'.sent, ctr := m'.ctr })) ∧
    (∀ a ch, m.guild.current = some a → a.epoch = e → a.phase = 1 → (∀ k s r, a.agr ≠ .join k s r) → m.guild.drainLost = [] →
      let took : List AckWait := m.guild.acks.map fun x =>
        if x.epoch = e then { x with waits := x.waits.filter (· != src.val), charters := x.charters ++ [(src.val, ch)] } else x
      let acks := took.filter fun x => !x.waits.isEmpty
      (∀ x ∈ took, x.waits = [] → ∀ c ∈ x.charters, agrees c.2 m.charter = true) →
      ((∃ k ∈ m.voters, k ≠ src.val ∧ k ∉ a.acked) → Leaves (.ready src epoch (.ack ch)) m
        { m with guild := { m.guild with current := some { a with acked := a.acked ++ [src.val] }, acks := acks } }) ∧
      ((∀ k ∈ m.voters, k = src.val ∨ k ∈ a.acked) → a.capsule = none → a.taken = false → m.guild.queue = [] →
        Completes (.ready src epoch (.ack ch)) m fun m' =>
          m'.guild = { m.guild with current := none, acks := acks } ∧
          (∀ t x, a.agr = .flip t x → PostsOne m m' (sevOf 0x0801) 0x0801 ((m.table t).map (·.ptn)) t
            (leBytes 4 t ++ leBytes 4 x ++ leBytes 8 e)) ∧
          m' = { m with guild := m'.guild, ctr := m'.ctr })) ∧
    (∀ ch x c, m.guild.current = none → m.guild.drainLost = [] → m.guild.acks = [{ epoch := e, waits := [src.val], charters := [], lost := x }] →
      charterDiff ch m.charter = c → c ≠ 0 → Completes (.ready src epoch (.ack ch)) m fun m' =>
        m'.guild = { m.guild with acks := [] } ∧ (∃ d, PostsOne m m' (sevOf 0x0901) 0x0901 none 0 d) ∧
        m' = { m with guild := m'.guild, ctr := m'.ctr }) ∧
    (∀ t n : BitVec 32,
      let d := (t.toNat, n.toNat, src.val)
      let all := m.guild.drainedBy ++ [d]
      (m.guild.warden ≠ m.member ∨ d ∈ m.guild.drainedBy → Leaves (.drained src t n) m m) ∧
      (m.guild.warden = m.member → d ∉ m.guild.drainedBy →
        ((∀ x ∈ all, ∃ k ∈ m.joinedList, (x.1, x.2.1, k) ∉ all) → Leaves (.drained src t n) m { m with guild := { m.guild with drainedBy := all } }) ∧
        ((∀ x ∈ all, x.1 = t.toNat ∧ x.2.1 = n.toNat) → (∀ k ∈ m.joinedList, (t.toNat, n.toNat, k) ∈ all) →
          Completes (.drained src t n) m fun m' =>
            m'.guild = { m.guild with drainedBy := [], epochSeen := m.newEpoch } ∧
            (∀ k ∈ m.joinedList, m'.hasSent k 0 (.release m.newEpoch t.toNat n.toNat)) ∧
            m' = { m with guild := m'.guild, fab := m'.fab, sent := m'.sent }))) ∧
    (m.guild.warden ≠ m.member ∨ src.val ∉ m.guild.probing → Leaves (.probeExpire src) m m) ∧
    (m.guild.warden = m.member → src.val ∈ m.guild.probing → Completes (.probeExpire src) m fun m' =>
      (∀ k ∈ m.joinedList, k ≠ src.val → ∃ routes, m'.hasSent k 0 (.lost m.newEpoch src.val 2 routes)) ∧
      m'.ltime = max m.ltime ((assocGet src.val m.guild.probeAt).getD m.ltime + m.fld (fabR 0x028) 8 12 * 1000) ∧
      m'.guild.epochSeen = m.newEpoch ∧ m'.guild.probing = m.guild.probing.filter (· != src.val) ∧
      (∃ x ∈ m'.ctr.posted, x.1.code = 0x0904 ∧ x.1.detail = slice (leBytes 1 src.val ++ leBytes 8 m.newEpoch ++ leBytes 1 2) 0 40) ∧
      m'.mem = m.mem ∧ m'.tables = m.tables ∧ m'.insts = m.insts ∧ m'.pwr = m.pwr ∧ m'.asy = m.asy)

/-- JOIN_REQUEST at a member that is neither the one named in QUARANTINE nor the warden changes nothing. The named one takes the warden's answer and its group table. At the warden a quote that fails posts QUOTE_FAIL; a charter whose own form is broken only posts MISMATCH, one that differs is answered and posts MISMATCH; one that agrees begins the JOIN agreement.
JOIN_WAIT_EXPIRE outside QUARANTINE or after an answer changes nothing; without a majority NO_QUORUM is posted once; else the lowest serial number is warden; local time has then passed the wait. LOST takes the member out of the membership, keeps the routes of which this member is the source, records the epoch; the member itself, drained, is OFF.
ROUTES are kept likewise and acknowledged. FENCE_EXPIRE on a side with quorum and the warden keeps it; without quorum the member is in QUARANTINE, with no membership and FENCED posted. REBUILD_PAGE onto a mapped page of a listed edition in QUARANTINE writes that page. -/
def Obligations.MembershipChanges : Prop :=
  ∀ m : Module, Memory.wf m.mem → SparseWf regDefault m.regs → m.shaped →
    (∀ (k : MemberId) (ser : BitVec 128) (ch q : List Byte) (ls : BitVec 128) (ans : JoinAnswer),
      (k.val = m.member → m.pwr.mode ≠ .quarantine → Leaves (.joinRequest k ser ch q ls ans) m m) ∧
      (k.val = m.member → m.pwr.mode = .quarantine → Completes (.joinRequest k ser ch q ls ans) m fun m' =>
        m'.guild.answer = some ans ∧ m'.rwk.inForce = ans.groups ∧ m'.rwk.stagedT = ans.groups ∧ m'.fab.gcharter = slice ans.charter 0 64 ∧
        m'.mem = m.mem ∧ m'.tables = m.tables ∧ m'.ptns = m.ptns ∧ m'.pwr = m.pwr) ∧
      (k.val ≠ m.member → (m.inGuild = false ∨ m.guild.warden ≠ m.member ∨ m.guildSize ≤ k.val) → Leaves (.joinRequest k ser ch q ls ans) m m) ∧
      (k.val ≠ m.member → m.inGuild = true → m.guild.warden = m.member → k.val < m.guildSize →
        (∀ n, quoteFault q ch ls = some n → Completes (.joinRequest k ser ch q ls ans) m fun m' =>
          PostsOne m m' (sevOf 0x0607) 0x0607 none 0 (leBytes 1 k.val ++ leBytes 16 ser.toNat ++ leBytes 1 n) ∧ m' = { m with ctr := m'.ctr }) ∧
        (quoteFault q ch ls = none → m.guild.current = none → m.guild.queue = [] → m.isJoined k.val = false →
          (charterOk ch = false → Completes (.joinRequest k ser ch q ls ans) m fun m' =>
            (∃ d, PostsOne m m' (sevOf 0x0901) 0x0901 none 0 d) ∧ m' = { m with ctr := m'.ctr }) ∧
          (charterOk ch = true → charterDiff ch m.charter ≠ 0 → charterDiff ch m.charter ≠ 2 ^ 6 → Completes (.joinRequest k ser ch q ls ans) m fun m' =>
            Sends m m' k.val 0 (.joinAnswer m.joinAnswer) ∧ (∃ x ∈ m'.ctr.posted, x.1.code = 0x0901) ∧
            m' = { m with ctr := m'.ctr, fab := m'.fab, sent := m'.sent }) ∧
          (agrees ch m.charter = true → m.voters ≠ [] → Completes (.joinRequest k ser ch q ls ans) m fun m' =>
            m'.guild.current = some { agr := .join k ser [], epoch := m.newEpoch, drainUs := 0, origin := m.member } ∧
            (∀ j ∈ m.joinedList, m'.hasSent j 0 (.prepare m.newEpoch (.join k ser []) 0)) ∧
            m' = { m with guild := m'.guild, fab := m'.fab, sent := m'.sent })))) ∧
    (∀ (reach : Word) sers chs,
      (m.pwr.mode ≠ .quarantine ∨ m.guild.answer ≠ none → Leaves (.joinWaitExpire reach sers chs) m m) ∧
      (m.pwr.mode = .quarantine → m.guild.answer = none →
        let late := { m with ltime := max m.ltime (m.guild.joinAt + m.fld (fabR 0x028) 20 12 * 1000) }
        let peers := (bitsSet 64 reach.toNat).filter fun k => k != m.member && decide (k < m.guildSize)
        let all := (m.member, Config.serial, m.charter) :: (peers.zip (sers.zip chs)).map fun x => (x.1, x.2.1, x.2.2)
        (all.length * 2 ≤ m.guildSize → m.guild.noQuorumSaid = true → Leaves (.joinWaitExpire reach sers chs) m late) ∧
        (all.length * 2 ≤ m.guildSize → m.guild.noQuorumSaid = false → Completes (.joinWaitExpire reach sers chs) m fun m' =>
          PostsOne late m' (sevOf 0x0907) 0x0907 none 0 (leBytes 8 (peers.foldl setBit 0)) ∧
          m' = { late with ctr := m'.ctr, guild := { m.guild with noQuorumSaid := true } }) ∧
        (m.guildSize < all.length * 2 → (∀ x ∈ all.tail, Config.serial.toNat < x.2.1.toNat ∧ x.1 ≠ m.member) → all.tail.map (·.1) = peers →
          Completes (.joinWaitExpire reach sers chs) m fun m' => m'.guild.warden = m.member ∧ m'.guild.quorum = true ∧
            m'.mem = m.mem ∧ m'.tables = m.tables ∧ m'.pwr = m.pwr))) ∧
    (∀ (epoch : Word) (k : MemberId) (cause : Byte) (rs : List (Nat × Word)),
      let e := epoch.toNat
      let mine := (rs.filter fun r => r.1 / 64 == m.member).map fun r => (r.1 % 64, r.2)
      (m.inGuild = false ∨ e < m.guild.floor → Leaves (.lost epoch k cause rs) m m ∧ Leaves (.routes epoch rs) m m) ∧
      (m.inGuild = true → m.guild.floor ≤ e → m.outcome e = none →
        (k.val ≠ m.member → Completes (.lost epoch k cause rs) m fun m' =>
          m'.guild.joined = BitVec.ofNat 64 (clearBit m.guild.joined.toNat k.val) ∧ m'.fab.routes = mine ∧ m'.outcome e = some true) ∧
        (k.val = m.member → cause = 3 → Completes (.lost epoch k cause rs) m fun m' =>
          m'.pwr.mode = .off ∧ m'.ctr.link = [false, false, false, false] ∧ m'.outcome e = some true ∧ m'.mem = m.mem ∧ m'.asy = m.asy) ∧
        (Completes (.routes epoch rs) m fun m' =>
          m'.fab.routes = mine ∧ m'.outcome e = some true ∧ Sends m m' m.guild.warden 0 (.report e (.ack m'.charter)) ∧
          m' = { m with guild := m'.guild, fab := m'.fab, sent := m'.sent }))) ∧
    (∀ reached : Word,
      let side := m.joinedList.filter fun k => k == m.member || reached.toNat.testBit k
      let late := { m with ltime := max m.ltime (m.fab.downAt + m.fld (fabR 0x028) 20 12 * 1000) }
      (m.inGuild = false → Leaves (.fenceExpire reached) m m) ∧
      (m.inGuild = true → m.quorate side = true → m.guild.warden ∈ side → Leaves (.fenceExpire reached) m { late with guild := { m.guild with quorum := true } }) ∧
      (m.inGuild = true → m.quorate side = false → m.insts = [] → Completes (.fenceExpire reached) m fun m' =>
        m'.pwr.mode = .quarantine ∧ m'.guild.joined = 0 ∧ m'.guild.quorum = false ∧ m'.guild.agr = none ∧ m'.guild.current = none ∧
        (∀ p, (m'.ptn p).admitting = false ∨ 8 ≤ p) ∧ m'.ltime = late.ltime ∧ PostsOne late m' (sevOf 0x0906) 0x0906 none 0 (leBytes 8 (side.foldl setBit 0)) ∧
        m'.mem = m.mem ∧ m'.tables = m.tables)) ∧
    (∀ (src : MemberId) (t n : BitVec 32) (page : Nat) (data : List Byte),
      (m.table t.toNat = none ∨ m.pwr.mode ≠ .quarantine → Leaves (.rebuildPage src t n page data) m m) ∧
      (∀ x g ed ks k, m.table t.toNat = some x → m.regionNo x.ptn x.place.rgn = some g → m.pwr.mode = .quarantine → src.val ≠ m.member →
        (∃ a, m.guild.answer = some a ∧ ∃ y ∈ a.editions, y.1 = t.toNat ∧ y.2.1 = n.toNat) → page % 2 ^ 32 < x.place.shpages →
        x.edition n.toNat = some ed → (if page.testBit 32 = true then ed.twin else ed.primary) = some ks → ks[page % 2 ^ 32]? = some k → k ≠ unmapped →
        data.length = 2 ^ g.info.shift → data.length ≠ 4 → m.noDeltas → Completes (.rebuildPage src t n page data) m fun m' =>
          (∀ i, i < data.length → m'.mem.read (g.pageKey k + i) = data.getD i 0) ∧
          (∀ a, (a < g.pageKey k ∨ g.pageKey k + data.length ≤ a) → m'.mem.read a = m.mem.read a) ∧
          (∃ y ∈ m'.guild.rebuildGot, y.1 = { table := t.toNat, edition := n.toNat, twin := page.testBit 32, page := page % 2 ^ 32 }) ∧
          m'.tables = m.tables ∧ m'.pwr = m.pwr ∧ m'.asy = m.asy))

/-! ### Serving (R53–R56, R85–R98, R111–R113, R160–R170, R281–R283, R349–R371) -/

/-- For each of the seventeen commands: on a queue pair that takes no capsules, or with another known code, nothing happens. A capsule with a fault is counted twice and answered ABORTED, COMMAND_REFUSED names the field, and no record
is made. One whose admitting member is another JOINED member goes to it as a COMMAND and waits for its answer; a RUN first fetches its inputs here. A duplicate of a command that is in flight is attached to it, at most eight; one whose digest differs
is answered ABORTED with a notice. -/
def Obligations.CapsulesAreChecked : Prop :=
  ∀ (m : Module) (qp : Nat) (c : Capsule) (data : List Byte), SparseWf regDefault m.regs → m.ptns.length = 8 →
    let p := c.ptn.toNat % 8
    let idle : Prop := ∀ q, m.qp qp = some q → q.outq = []
    let aborted (m' : Module) : Prop := m'.answered qp fun y => y.reqid = c.reqid ∧ y.status = stAborted ∧ y.cseq = c.cseq
    let up (m' : Module) (lo : Nat) : Prop := m'.fld (ctrR 0x078) lo 32 = min (m.fld (ctrR 0x078) lo 32 + 1) (2 ^ 32 - 1)
    let toAll : List (Nat × Instr) := [(0x02, .cancel qp c), (0x03, .query qp c)]
    let others : List (Nat × List Byte × Instr) :=
      [(0x10, data, .graphLoad qp c data), (0x11, [], .graphUnload qp c), (0x20, data, .draftLoad qp c data), (0x21, [], .draftActivate qp c),
       (0x22, [], .draftUnload qp c), (0x30, [], .pageEvict qp c), (0x31, [], .pageRestore qp c), (0x40, [], .editionBegin qp c),
       (0x41, data, .editionWrite qp c data), (0x42, [], .editionSeal qp c), (0x43, [], .editionDiscard qp c), (0x44, [], .editionFlip qp c),
       (0x50, [], .graphDefine qp c), (0x51, [], .graphUndefine qp c)]
    (∀ x ∈ (0x01, Instr.run qp c) :: toAll ++ others.map (fun y => (y.1, y.2.2)),
      (m.takesCapsules qp = false ∨ (c.opc.toNat ≠ x.1 ∧ opcKnown c.opc.toNat = true) → Leaves x.2 m m) ∧
      (∀ off, m.takesCapsules qp = true → c.opc.toNat = x.1 → capsuleFault c = some off → idle → Completes x.2 m fun m' =>
        up m' 0 ∧ up m' 32 ∧ aborted m' ∧
        PostsOne m m' (sevOf 0x0105) 0x0105 (some p) c.reqid.toNat (leBytes 8 c.reqid.toNat ++ leBytes 1 x.1 ++ leBytes 4 off) ∧
        m' = { m with regs := m'.regs, ctr := m'.ctr, sent := m'.sent })) ∧
    (∀ x ∈ others, m.takes x.1 qp c → (x.1 = 0x41 → m.rowsDenied qp c = none) →
      let k := m.received.admitter c (m.received.effectful c)
      (k ≠ m.member → m.isJoined k = true → isMailbox c = false → Completes x.2.2 m fun m' =>
        Sends m m' k 0 (.command 0 c x.2.1) ∧ up m' 0 ∧
        m'.ctr = { m.ctr with forwarded := m.ctr.forwarded ++ [{ origin := m.originOf qp c, waits := [k] }] } ∧
        m' = { m with regs := m'.regs, ctr := m'.ctr, fab := m'.fab, sent := m'.sent }) ∧
      (∀ e, k = m.member → m.tallyOf p c.reqid = some e →
        (digestOf c ≠ e.digest → idle → Completes x.2.2 m fun m' =>
          aborted m' ∧ PostsOne m m' (sevOf 0x0A02) 0x0A02 (some p) c.reqid.toNat (leBytes 8 c.reqid.toNat ++ leBytes 1 e.opc ++ leBytes 1 x.1) ∧
          m' = { m with regs := m'.regs, ctr := m'.ctr, sent := m'.sent }) ∧
        (digestOf c = e.digest → e.done = false → e.attached.length < 8 → Completes x.2.2 m fun m' =>
          m'.tallyOf p c.reqid = some { e with attached := e.attached ++ [m.originOf qp c] } ∧
          m' = { m with regs := m'.regs, ptns := m'.ptns }))) ∧
    (m.takes 0x01 qp c → m.admitter c (m.effectful c) ≠ m.member → isMailbox c = false → Completes (.run qp c) m fun m' =>
      (m'.ptn p).requests = (m.ptn p).requests ++ [m.request_ qp c (m.admitter c (m.effectful c))] ∧
      m'.sent = m.sent ++ ((inputsOf c).filter fun e => !e.inl).map (fun e => .rdmaRead qp e.addr e.key e.len) ∧
      m'.ctr.forwarded = m.ctr.forwarded ++ [{ origin := m.originOf qp c, waits := [m.admitter c (m.effectful c)] }] ∧
      m' = { m with regs := m'.regs, ctr := m'.ctr, ptns := m'.ptns, sent := m'.sent })

/-- An admitted RUN is entered in the tally and its request fetches the inputs that are not inline, with its deadline counted from now. INPUT_FETCH_DONE for a request that fetches puts it in the open window, or holds it for the next; a request of another member goes to it with the time
elapsed; with none it changes nothing. ROUND_WINDOW_CLOSE of an open window opens the next one, its round numbered one more, no earlier than the window's end; with none open it changes nothing. ADMISSION_RETRY with one request waiting whose reservations can be had makes its instance, bound to its editions. CANCEL of a request that
does not execute ends it ABORTED; CANCEL and QUERY go to every other JOINED member; QUERY answers 0 for no record and 5 with the status for one DONE. -/
def Obligations.RequestsRun : Prop :=
  ∀ (m : Module) (qp : Nat) (c : Capsule), m.ptns.length = 8 →
    let p := c.ptn.toNat % 8
    let at_ := m.tallied qp c
    (m.admitsHere 0x01 qp c → Completes (.run qp c) m fun m' =>
      (m'.ptn p).requests = (m.ptn p).requests ++
        [{ m.request_ qp c m.member with deadline := if c.budget = 0 then none else some (m.ltime + c.budget.toNat * 1000) }] ∧
      (∃ e, m'.tallyOf p c.reqid = some e ∧ e.done = false ∧ e.opc = 0x01 ∧ e.digest = digestOf c ∧ e.arrival = m.ltime ∧ e.capsule = some c) ∧
      m'.sent = at_.sent ++ ((inputsOf c).filter fun e => !e.inl).map (fun e => .rdmaRead qp e.addr e.key e.len) ∧
      m' = { at_ with ptns := m'.ptns, ctr := m'.ctr, sent := m'.sent }) ∧
    (∀ (t : PtnId) (id : Word) (ins : List (List Byte)), id ∉ (m.ptn t.val).refetch →
      let fetching := (m.ptn t.val).requests.find? fun r => r.reqid == id && r.state == .fetching
      (fetching = none → Leaves (.inputFetchDone t id ins) m m) ∧
      (∀ r, fetching = some r → r.dest = m.member → Completes (.inputFetchDone t id ins) m fun m' =>
        let bs := inputBytes r.capsule ins
        (m'.ptn t.val).requests = updWhere (fun q => q.reqid == id) (fun q =>
          { q with
            inputs := bs.zipIdx.map fun x => (m.nextBuf + x.2, x.1.length)
            state := if (m.ptn t.val).rounds.isOpen = true then .window else .held }) (m.ptn t.val).requests ∧
        m'.nextBuf = m.nextBuf + bs.length ∧ m' = { m with ptns := m'.ptns, mem := m'.mem, nextBuf := m'.nextBuf }) ∧
      (∀ r, fetching = some r → r.dest ≠ m.member → m.isJoined r.dest = true → Completes (.inputFetchDone t id ins) m fun m' =>
        Sends m m' r.dest 1 (.command ((m.ltime - r.arrival) / 1000) r.capsule (inputBytes r.capsule ins).flatten) ∧
        (m'.ptn t.val).requests = (m.ptn t.val).requests.filter (·.reqid != id) ∧ m' = { m with ptns := m'.ptns, fab := m'.fab, sent := m'.sent })) ∧
    (∀ t : PtnId,
      let x := (m.ptn t.val).rounds
      (x.isOpen = false → Leaves (.roundWindowClose t) m m) ∧
      (x.isOpen = true → Completes (.roundWindowClose t) m fun m' =>
        (m'.ptn t.val).rounds.isOpen = true ∧ (m'.ptn t.val).rounds.num = x.num + 1 ∧
        (m'.ptn t.val).rounds.openedAt = max m.ltime (x.openedAt + x.width) ∧ m'.ltime = max m.ltime (x.openedAt + x.width)) ∧
      ((m.ptn t.val).blocked = [] → (m.ptn t.val).admitting = false → Leaves (.admissionRetry t) m m) ∧
      (∀ r g bs, (m.ptn t.val).blocked = [] → (m.ptn t.val).admitting = true → (m.ptn t.val).requests = [r] → r.state = .waiting → r.ptn = t.val →
        m.loaded t.val r.capsule.handle.toNat = some g → m.bindTables t.val g (pinsOf r.capsule) (r.capsule.policy == 1) = some bs →
        m.canReserve t.val g = true → g.arena = 0 → 0 < g.exits →
        (∀ i ∈ m.insts, i.num ≠ instNum m.freshNum m.member) → Completes (.admissionRetry t) m fun m' =>
          (∃ i ∈ m'.insts, i.num = instNum m.freshNum m.member ∧ i.reqid = r.reqid ∧ i.ptn = t.val ∧ i.handle = g.handle ∧ i.bindings = bs ∧
            i.inBufs = r.inputs ∧ i.startedAt = m.ltime) ∧
          (m'.ptn t.val).requests = [{ r with state := .executing }] ∧ m'.mem = m.mem ∧ m'.tables = m.tables ∧ m'.ltime = m.ltime)) ∧
    (∀ id : Word,
      (m.tallyOf p id = none → (∀ b ∈ (m.ptn p).blocked, b.origin.capsule.reqid ≠ id) → m.query p id = 0) ∧
      (∀ e, m.tallyOf p id = some e → e.heldFor = none → e.done = true → m.query p id = 5 + 256 * e.status)) ∧
    (let r := m.received
     let away := if m.pwr.mode = .quarantine then [] else m.joinedList.filter (· != m.member)
     let waiting (v : Nat) : Forwarded := { origin := m.originOf qp c, waits := away, value := v }
     (m.takes 0x03 qp c → r.lateFault (m.originOf qp c) = none →
       (away = [] → Leaves (.query qp c) m (r.answerDirect (m.originOf qp c) stOk (m.query p c.arg0))) ∧
       (away ≠ [] → Completes (.query qp c) m fun m' =>
         m'.ctr.forwarded = m.ctr.forwarded ++ [waiting (m.query p c.arg0)] ∧ (∀ k ∈ away, m'.hasSent k 0 (.command 0 c [])) ∧
         m' = { m with regs := m'.regs, ctr := m'.ctr, fab := m'.fab, sent := m'.sent })) ∧
     (m.takes 0x02 qp c → r.lateFault (m.originOf qp c) = none →
       let none_ : Prop := (∀ b ∈ (m.ptn p).blocked, b.origin.capsule.reqid ≠ c.arg0) ∧ ∀ x ∈ (m.ptn p).requests, x.reqid ≠ c.arg0
       (none_ → away = [] → Leaves (.cancel qp c) m (r.answerDirect (m.originOf qp c) stOk 0)) ∧
       (none_ → away ≠ [] → Completes (.cancel qp c) m fun m' =>
         m'.ctr.forwarded = m.ctr.forwarded ++ [waiting 0] ∧ (∀ k ∈ away, m'.hasSent k 0 (.command 0 c [])) ∧
         m' = { m with regs := m'.regs, ctr := m'.ctr, fab := m'.fab, sent := m'.sent }) ∧
       (∀ x e, (∀ b ∈ (m.ptn p).blocked, b.origin.capsule.reqid ≠ c.arg0) →
         (m.ptn p).requests.find? (fun y => y.reqid == c.arg0 && y.dest == m.member) = some x → x.state ≠ .executing →
         m.tallyOf p c.arg0 = some e → e.done = false → Completes (.cancel qp c) m fun m' =>
           m'.doneWith p c.arg0 stAborted ∧ (∀ y ∈ (m'.ptn p).requests, y.reqid ≠ c.arg0) ∧ m'.insts = m.insts ∧ m'.tables = m.tables)))

/-- Each where this member admits it. GRAPH_LOAD of an image with a fault posts GRAPH_REFUSED with its offset and ends ABORTED; one that passes is loaded under a new handle and goes to the other members. GRAPH_UNLOAD of a handle that is not loaded ends ABORTED; of one without live instances the graph goes.
DRAFT_LOAD of an image that fails its checks leaves the staged draft and sets PTNp_REFUSE; one that passes is staged, at once on a member alone and else when every member has it. DRAFT_ACTIVATE and DRAFT_UNLOAD ask the warden for an agreement, which the warden begins; in QUARANTINE a staged draft comes into force here alone; an unload that tables
bar ends ABORTED. GRAPH_DEFINE and GRAPH_UNDEFINE that pass their checks add the descriptor, and remove it once every member that shares in the command has; else they end ABORTED. -/
def Obligations.GraphsAndDrafts : Prop :=
  ∀ (m : Module) (qp : Nat) (c : Capsule) (data : List Byte), SparseWf regDefault m.regs →
    let p := c.ptn.toNat % 8
    let a := m.tallied qp c
    let bs := payloadOf c data
    let idle : Prop := ∀ q, m.qp qp = some q → q.outq = []
    let others := m.others m.joinedList
    let aborted (m' : Module) : Prop := m'.doneWith p c.reqid stAborted
    let asks (cmd : Instr) (g : Agreement) (drain : Nat) : Prop :=
      (m.guild.warden ≠ m.member → m.isJoined m.guild.warden = true → Completes cmd m fun m' =>
        Sends a m' m.guild.warden 0 (.command 0 c []) ∧
        (m'.ptn p).waitCmds = (m.ptn p).waitCmds ++ [{ capsule := c, mine := false, waits := [m.guild.warden] }] ∧
        m' = { a with ptns := m'.ptns, fab := m'.fab, sent := m'.sent }) ∧
      (m.guild.warden = m.member → m.guild.current = none → m.guild.queue = [] → Completes cmd m fun m' =>
        m'.guild.current = some { agr := g, epoch := m.newEpoch, drainUs := drain, origin := m.member, capsule := some c } ∧
        (∀ k ∈ m.joinedList, m'.hasSent k 0 (.prepare m.newEpoch g drain)) ∧
        (m'.ptn p).waitCmds = (m.ptn p).waitCmds ++ [{ capsule := c, mine := true, waits := [] }] ∧
        m' = { a with ptns := m'.ptns, guild := m'.guild, fab := m'.fab, sent := m'.sent })
    (m.admitsHere 0x10 qp c →
      let room : Prop := ((m.ptn p).graphs.filter fun g => !(m.ptn p).unloaded.contains g.handle).length < 256
      (¬ room → Completes (.graphLoad qp c data) m fun m' => aborted m' ∧ (m'.ptn p).graphs = (m.ptn p).graphs ∧ m'.insts = m.insts) ∧
      (room → m.pwr.mode ≠ .quarantine →
        (∀ off, a.graphFault p (a.draft p) bs = some off → idle → Completes (.graphLoad qp c data) m fun m' =>
          aborted m' ∧ (m'.ptn p).graphs = (m.ptn p).graphs ∧ PostsOne a m' (sevOf 0x0101) 0x0101 (some p) c.reqid.toNat
            (leBytes 8 c.reqid.toNat ++ leBytes 4 off ++ leBytes 8 0)) ∧
        (a.graphFault p (a.draft p) bs = none → Completes (.graphLoad qp c data) m fun m' =>
          (m'.ptn p).graphs = (m.ptn p).graphs ++ [parseGraph bs (BitVec.ofNat 64 (a.newHandle p)).toNat] ∧ m'.nextHandle = m.nextHandle + 1 ∧
          m'.sharedWith p c.reqid others ∧ m'.insts = m.insts ∧ m'.tables = m.tables))) ∧
    (m.admitsHere 0x11 qp c →
      (m.loaded p c.handle.toNat = none → Completes (.graphUnload qp c) m fun m' => aborted m' ∧ (m'.ptn p).graphs = (m.ptn p).graphs) ∧
      (m.loaded p c.handle.toNat ≠ none → (∀ i ∈ m.insts, i.ptn ≠ p ∨ i.handle ≠ c.handle.toNat) → Completes (.graphUnload qp c) m fun m' =>
        (m'.ptn p).graphs = (m.ptn p).graphs.filter (·.handle != c.handle.toNat) ∧ m'.sharedWith p c.reqid others ∧ m'.tables = m.tables)) ∧
    (m.admitsHere 0x20 qp c →
      (∀ off reason, checkDraft a p bs = .error (off, reason) → Completes (.draftLoad qp c data) m fun m' =>
        (others = [] → aborted m') ∧ (m'.ptn p).staged = (m.ptn p).staged ∧ (m'.ptn p).draft = (m.ptn p).draft ∧
        m'.reg (ptnR p 0x28) = BitVec.ofNat 64 (reason + off % 2 ^ 32 * 2 ^ 8)) ∧
      (∀ d, checkDraft a p bs = .ok d → m.pwr.mode ≠ .quarantine → Completes (.draftLoad qp c data) m fun m' =>
        m'.sharedWith p c.reqid others ∧ (m'.ptn p).draft = (m.ptn p).draft ∧
        (others = [] → (m'.ptn p).staged = some d ∧ (m'.ptn p).cand = none) ∧
        (others ≠ [] → (m'.ptn p).staged = (m.ptn p).staged ∧ (m'.ptn p).cand = some d))) ∧
    (m.admitsHere 0x21 qp c →
      (m.pwr.mode ≠ .quarantine → asks (.draftActivate qp c) (.draftActivate ⟨p, Nat.mod_lt _ (by decide)⟩) (drainOf c)) ∧
      (m.pwr.mode = .quarantine → (m.ptn p).staged = none → Completes (.draftActivate qp c) m fun m' => aborted m' ∧ (m'.ptn p).draft = (m.ptn p).draft) ∧
      (∀ d, m.pwr.mode = .quarantine → (m.ptn p).staged = some d → Completes (.draftActivate qp c) m fun m' =>
        (m'.ptn p).draft = some d ∧ (m'.ptn p).staged = none ∧ m'.doneWith p c.reqid stOk)) ∧
    (m.admitsHere 0x22 qp c →
      (m.unloadBarred p = true → Completes (.draftUnload qp c) m fun m' => aborted m' ∧ (m'.ptn p).draft = (m.ptn p).draft ∧ m'.tables = m.tables) ∧
      (m.unloadBarred p = false → asks (.draftUnload qp c) (.draftUnload ⟨p, Nat.mod_lt _ (by decide)⟩) (drainOf c))) ∧
    (m.admitsHere 0x50 qp c →
      let g : GuildGraph :=
        { graph := c.arg0.toNat % 256, offs := c.arg0.toNat / 2 ^ 32, nbr := c.arg1.toNat % 2 ^ 32, wgt := c.arg1.toNat / 2 ^ 32
          sink := c.arg2.toNat, ptn := p }
      ((a.definePart c).2 = stAborted → Completes (.graphDefine qp c) m fun m' => aborted m' ∧ (m'.ptn p).ggraphs = (m.ptn p).ggraphs) ∧
      ((a.definePart c).2 = stOk → Completes (.graphDefine qp c) m fun m' =>
        (∃ x n, m.table g.offs = some x ∧ x.ptn = p ∧ x.place.type = 0x14 ∧ x.place.dim = 2 ∧ g.sink < x.place.rows ∧
          m.table g.nbr = some n ∧ n.ptn = p ∧
          (m'.ptn p).ggraphs = (m.ptn p).ggraphs ++
            [{ g with verts := x.place.rows, ecap := 16 * n.place.shrows, sets := [g.tables.map fun t => (t, ((m.table t).map Table.currentNum).getD 0)] }]) ∧
        g.graph ≠ 0 ∧ (∀ h ∈ (m.ptn p).ggraphs, h.graph ≠ g.graph) ∧
        m'.sharedWith p c.reqid others)) ∧
    (m.admitsHere 0x51 qp c →
      let found := (m.ptn p).ggraphs.find? fun g => g.graph == c.arg0.toNat % 256
      (found = none → Completes (.graphUndefine qp c) m fun m' => aborted m' ∧ (m'.ptn p).ggraphs = (m.ptn p).ggraphs) ∧
      (∀ g, found = some g →
        ((∃ w ∈ (m.ptn p).graphs, w.samples g.offs = true) → Completes (.graphUndefine qp c) m fun m' =>
          aborted m' ∧ (m'.ptn p).ggraphs = (m.ptn p).ggraphs) ∧
        ((∀ w ∈ (m.ptn p).graphs, w.samples g.offs = false) → Completes (.graphUndefine qp c) m fun m' =>
          (others = [] → (m'.ptn p).ggraphs = (m.ptn p).ggraphs.filter (·.graph != c.arg0.toNat % 256)) ∧
          (others ≠ [] → (m'.ptn p).ggraphs = updWhere (fun h => h.graph == c.arg0.toNat % 256) (fun h => { h with going := some c.reqid }) (m.ptn p).ggraphs) ∧
          m'.sharedWith p c.reqid others)))

/-- Each where this member admits it and holds a copy of the table. EDITION_BEGIN while an edition is BUILDING or SEALED ends ABORTED; else it sets the next edition aside with the CURRENT one's map, and creates it BUILDING once every holder has. EDITION_WRITE of a row onto a private page of a BUILDING edition writes its bytes and no others; without the write grant it is
answered FAULT_ACCESS and writes nothing. EDITION_SEAL makes a BUILDING edition SEALED, its own part ending with EDITION_SEAL_DONE once no earlier write of the table waits; a holder asked by another member seals and replies once the writes that it had open then are done. EDITION_DISCARD takes a BUILDING or SEALED edition away. EDITION_FLIP of a table not placed by the partition ends ABORTED, else it asks the warden.
PAGE_EVICT marks its pages EVICTED and waits for PAGE_EVICT_DRAINED; PAGE_RESTORE makes them PRESENT; with pages that R113 refuses they end ABORTED. -/
def Obligations.EditionsAndPages : Prop :=
  ∀ (m : Module) (qp : Nat) (c : Capsule) (data : List Byte), m.canonical →
    let p := c.ptn.toNat % 8
    let a := m.tallied qp c
    let t := editionTable c
    let num := c.arg0.toNat / 2 ^ 32
    let aborted (m' : Module) : Prop := m'.doneWith p c.reqid stAborted ∧ m'.tables = m.tables
    let holders := m.others (((m.table t).map fun x => m.holders x.place).getD [])
    let isOther (x : Option Table) : Prop := ∀ y, x = some y → y.ptn ≠ p
    (isOther (m.table t) →
      (m.admitsHere 0x40 qp c → Completes (.editionBegin qp c) m aborted) ∧ (m.admitsHere 0x42 qp c → Completes (.editionSeal qp c) m aborted) ∧
      (m.admitsHere 0x43 qp c → Completes (.editionDiscard qp c) m aborted) ∧ (m.admitsHere 0x44 qp c → Completes (.editionFlip qp c) m aborted) ∧
      (m.admitsHere 0x41 qp c → m.rowsDenied qp c = none → Completes (.editionWrite qp c data) m aborted)) ∧
    (∀ M rgn, m.takes 0x41 qp c → m.rowsDenied qp c = some (M, rgn) → isMailbox c = false → Completes (.editionWrite qp c data) m fun m' =>
      m'.answered qp (fun y => y.reqid = c.reqid ∧ y.status = stFaultAccess) ∧ m'.mem = m.mem ∧ m'.tables = m.tables ∧ m'.tallyOf p c.reqid = m.tallyOf p c.reqid) ∧
    (∀ x, m.table t = some x → x.ptn = p → m.holds x.place = true →
      (m.admitsHere 0x40 qp c →
        (x.building = true → x.aside = none → Completes (.editionBegin qp c) m aborted) ∧
        (∀ g cur, x.building = false → (∀ y ∈ m.tables, ∀ b, y.aside = some b → b.1 ≠ c.reqid) → c.arg0.toNat / 2 ^ 32 % 256 ≠ 1 → m.regionNo p x.place.rgn = some g →
          x.editions.find? (fun e => e.state == .current) = some cur →
          let e : Edition := { num := x.highest + 1, state := .building, fresh := false, primary := cur.primary, twin := cur.twin }
          Completes (.editionBegin qp c) m fun m' =>
            m'.sharedWith p c.reqid holders ∧
            (holders = [] → m'.table t = some { x with highest := e.num, editions := x.editions ++ [e] }) ∧
            (holders ≠ [] → m'.table t = some { x with aside := some (c.reqid, e) }) ∧ m'.insts = m.insts)) ∧
      (m.admitsHere 0x41 qp c → m.rowsDenied qp c = none → m.noDeltas →
        let r := x.place.rowAt c.arg1.toNat
        let bytes := slice (payloadOf c data) 0 x.place.rowBytes
        ((∀ e ∈ x.editions, e.num = num → e.state ≠ .building) ∨ x.place.rows < c.arg1.toNat + c.arg2.toNat →
          Completes (.editionWrite qp c data) m aborted) ∧
        (∀ g e l k, x.edition num = some e → e.state = .building → c.arg2 = 1 → c.arg1.toNat < x.place.rows →
          x.place.rowBytes ≤ (payloadOf c data).length → m.regionNo p x.place.rgn = some g → x.place.primaryOf m.member = some r.shard →
          x.place.twinOf m.guildSize m.member = none → e.primary = some l → l[r.page]? = some k → x.shares num k = false →
          m.residency g k ≠ .lost → isMailbox c = false → Completes (.editionWrite qp c data) m fun m' =>
            (∀ i, i < bytes.length → m'.mem.read (g.pageKey k + r.off + i) = bytes.getD i 0) ∧
            (∀ y, (y < g.pageKey k + r.off ∨ g.pageKey k + r.off + bytes.length ≤ y) → m'.mem.read y = m.mem.read y) ∧
            m'.sharedWith p c.reqid holders ∧ m'.tables = m.tables)) ∧
      (m.admitsHere 0x42 qp c →
        (x.editions.find? (fun e => e.num == num && e.state == .building) = none → Completes (.editionSeal qp c) m aborted) ∧
        (x.editions.find? (fun e => e.num == num && e.state == .building) ≠ none → Completes (.editionSeal qp c) m fun m' =>
          m'.table t = some { x with editions := updWhere (fun y => y.num == num) (fun y => { y with state := .sealed }) x.editions } ∧
          ∃ w ∈ (m'.ptn p).waitCmds, w.capsule = c ∧ w.mine = true ∧ w.waits = holders)) ∧
      (m.admitsHere 0x43 qp c →
        let found := x.editions.find? fun e => e.num == num && (e.state == .building || e.state == .sealed)
        (found = none → Completes (.editionDiscard qp c) m aborted) ∧
        (found ≠ none → Completes (.editionDiscard qp c) m fun m' =>
          m'.table t = some { x with editions := x.editions.filter fun z => z.num != num } ∧ m'.sharedWith p c.reqid holders)) ∧
      (m.admitsHere 0x44 qp c → (∀ g ∈ (m.ptn p).ggraphs, t ∉ g.tables.drop 1) → m.guild.warden ≠ m.member → m.isJoined m.guild.warden = true →
        Completes (.editionFlip qp c) m fun m' =>
          Sends a m' m.guild.warden 0 (.command 0 c []) ∧
          (m'.ptn p).waitCmds = (m.ptn p).waitCmds ++ [{ capsule := c, mine := false, waits := [m.guild.warden] }] ∧ m'.tables = m.tables)) ∧
    (∀ (q : PtnId) (id : Word),
      let found := (m.ptn q.val).waitCmds.find? fun x => x.capsule.reqid == id && x.capsule.opc == 0x42
      let first := (m.ptn q.val).waitCmds.takeWhile fun x => x.capsule.reqid != id
      let held := (m.ptn q.val).seals.find? fun x => x.1.reqid == id
      (found = none → held = none → Leaves (.editionSealDone q id) m m) ∧
      (∀ k src ws, found = none → held = some (k, src, ws) →
        ((∃ w ∈ ws, w ∈ m.openWrites q.val (editionTable k)) → Leaves (.editionSealDone q id) m m) ∧
        ((∀ w ∈ ws, w ∉ m.openWrites q.val (editionTable k)) → k.opc = 0x42 → k.ptn.toNat % 8 = q.val → m.openWrites q.val (editionTable k) = [] →
          src ≠ m.member → m.isJoined src = true → m.ptns.length = 8 → Completes (.editionSealDone q id) m fun m' =>
            (∃ st, m'.hasSent src 0 (.reply k [] st 0)) ∧ (m'.ptn q.val).seals = (m.ptn q.val).seals.filter (·.1.reqid != id) ∧ m'.mem = m.mem)) ∧
      (∀ x, found = some x → (∃ y ∈ first, y.capsule.opc = 0x41 ∧ editionTable y.capsule = editionTable x.capsule) → Leaves (.editionSealDone q id) m m) ∧
      (∀ x e, found = some x → (∀ y ∈ first, y.capsule.opc ≠ 0x41 ∨ editionTable y.capsule ≠ editionTable x.capsule) → x.waits = [] → x.status = stOk →
        m.ptns.length = 8 → (m.ptn q.val).waitCmds.find? (fun y => y.capsule.reqid == id) = some x → m.tallyOf q.val id = some e → e.done = false →
        Completes (.editionSealDone q id) m fun m' =>
          m'.doneWith q.val id stOk ∧ (∀ y ∈ (m'.ptn q.val).waitCmds, y.capsule.reqid ≠ id) ∧ m'.tables = m.tables)) ∧
    ((∀ x ∈ (m.ptn p).waitCmds, x.capsule.opc ≠ 0x30 ∧ x.capsule.opc ≠ 0x31) →
      (m.pagesNamed c = none →
        (m.admitsHere 0x30 qp c → Completes (.pageEvict qp c) m aborted) ∧ (m.admitsHere 0x31 qp c → Completes (.pageRestore qp c) m aborted)) ∧
      (∀ g ks, m.pagesNamed c = some (g, ks) → m.regionNo p g.info.rgn = some g →
        let reads (m' : Module) (r : Residency) : Prop :=
          ∃ g', m'.regionNo p g.info.rgn = some g' ∧ g'.info = g.info ∧ g'.serial = g.serial ∧
            (∀ k ∈ ks, m'.residency g' k = r) ∧ ∀ k, k ∉ ks → m'.residency g' k = m.residency g k
        (m.admitsHere 0x30 qp c → Completes (.pageEvict qp c) m fun m' =>
          reads m' .evicted ∧ (∃ x ∈ (m'.ptn p).waitCmds, x.capsule = c ∧ x.mine = true ∧ x.value = 1) ∧ m'.mem = m.mem ∧ m'.tables = m.tables) ∧
        (m.admitsHere 0x31 qp c → Completes (.pageRestore qp c) m fun m' =>
          reads m' .present ∧ m'.doneWith p c.reqid stOk ∧ m'.tables = m.tables))) ∧
    (∀ (q : PtnId) (id : Word),
      let mine (x : PendingCmd) : Bool := x.capsule.reqid == id && x.capsule.opc == 0x30 && x.value == 1
      ((∀ x ∈ (m.ptn q.val).waitCmds, mine x = false) → Leaves (.pageEvictDrained q id) m m) ∧
      (∀ x e, m.ptns.length = 8 → (m.ptn q.val).waitCmds = [x] → mine x = true → x.waits = [] → x.status = stOk → m.tallyOf q.val id = some e → e.done = false →
        Completes (.pageEvictDrained q id) m fun m' =>
          m'.doneWith q.val id stOk ∧ (m'.ptn q.val).waitCmds = [] ∧ m'.tables = m.tables))

/-- COMMAND_PACKET from this member itself, or outside the guild, changes nothing. A QUERY is answered with this member's record; a RUN whose record no tally holds is admitted with its inputs, for the member that received it. A reply with data to no command of this member's changes nothing; the last answer
to a command that waits for it ends that command, an earlier one is noted. BULK outside the guild, or of an unknown kind, changes nothing. Kind 0 checks a draft image and reports STAGED or REFUSED, kind 2 keeps the record of another member, kind 3 at the warden begins a GROUP agreement, kind 4 is receipted,
kind 6 takes back a record, kind 7 ends the copy (these kinds are the model's reading, log entry 33). -/
def Obligations.MembersExchangeCommands : Prop :=
  ∀ (m : Module) (src : MemberId) (el : Nat) (c : Capsule) (data : List Byte) (st : Byte) (v : Word), m.ptns.length = 8 →
    let p := c.ptn.toNat % 8
    let k := src.val
    (k = m.member → ∀ r, Leaves (.commandPacket src r el c data st v) m m) ∧
    (m.inGuild = false → Leaves (.commandPacket src false el c data st v) m m) ∧
    (k ≠ m.member → m.inGuild = true → m.isJoined k = true →
      (c.opc = 0x03 → Completes (.commandPacket src false el c data st v) m fun m' =>
        (∃ d, Sends m m' k 0 (.reply c d stOk (m.query p c.arg0))) ∧ m' = { m with fab := m'.fab, sent := m'.sent }) ∧
      (c.opc = 0x01 → m.tallyOf p c.reqid = none → m.lateFault { own := none, recv := k, capsule := c } = none → (m.ptn p).tally.length < 1048576 →
        (m.effectful c = true → m.guild.twinCopy = false) → m.ctr.stagedBytes + stagingOf c ≤ 2 ^ 30 →
        (∀ r ∈ (m.ptn p).requests, r.reqid ≠ c.reqid) → Completes (.commandPacket src false el c data st v) m fun m' =>
          (∃ r ∈ (m'.ptn p).requests, r.reqid = c.reqid ∧ r.capsule = c ∧ r.dest = m.member ∧ r.recv = k ∧ r.arrival = m.ltime ∧
            r.inputs.map (·.2) = (inputsOf c).map (fun e => (slice data 0 e.len).length) ∧
            r.state = if (m.ptn p).rounds.isOpen = true then .window else .held) ∧
          ∃ e, m'.tallyOf p c.reqid = some e ∧ e.done = false ∧ e.elapsed = el ∧ e.recv = k)) ∧
    (k ≠ m.member →
      (data ≠ [] → (∀ f ∈ m.ctr.forwarded, f.origin.capsule ≠ c) → Leaves (.commandPacket src true el c data st v) m m) ∧
      (∀ f, data ≠ [] → m.ctr.forwarded.find? (fun f => f.origin.capsule == c) = some f → (c.opc = 0x02 ∨ c.opc = 0x03) →
        (∃ j ∈ f.waits, j ≠ k) → Completes (.commandPacket src true el c data st v) m fun m' =>
          m'.ctr.forwarded = updWhere (fun z => z == f) (fun _ => { f with waits := f.waits.filter (· != k), value := max f.value v.toNat }) m.ctr.forwarded ∧
          m' = { m with ctr := m'.ctr }) ∧
      (∀ x, data = [] → (m.ptn p).waitCmds.find? (fun x => x.capsule.reqid == c.reqid) = some x → k ∈ x.waits → x.mine = false →
        ((∃ j ∈ x.waits, j ≠ k) → Completes (.commandPacket src true el c data st v) m fun m' =>
          (m'.ptn p).waitCmds.find? (fun y => y.capsule.reqid == c.reqid) =
            some { x with waits := x.waits.filter (· != k), status := mergeStatus x.status st.toNat } ∧ m' = { m with ptns := m'.ptns }) ∧
        (∀ e, x.waits = [k] → x.status = stOk → st = 0 → m.tallyOf p c.reqid = some e → e.done = false → Completes (.commandPacket src true el c data st v) m fun m' =>
          m'.doneWith p c.reqid stOk ∧ ∀ y ∈ (m'.ptn p).waitCmds, y.capsule.reqid ≠ c.reqid))) ∧
    (∀ (kind : Nat) (q : PtnId) (pl : List Byte),
      (m.inGuild = false ∨ 8 ≤ kind → Leaves (.bulk src kind q pl) m m)) ∧
    (m.inGuild = true → ∀ (q : PtnId) (pl : List Byte),
      let rec_ := tallyOfBytes m.ltime k pl
      (k ≠ m.member → m.isJoined k = true →
        (∀ n, (capsuleOf pl).1.opc = 0x20 → n = (m.draftPart (capsuleOf pl).1 (capsuleOf pl).2).2 → Completes (.bulk src 0 q pl) m fun m' =>
          m'.hasSent k 0 (.report (capsuleOf pl).1.reqid.toNat (if n = 0 then .staged else .refused)) ∧ m'.insts = m.insts ∧ m'.tables = m.tables) ∧
        ((capsuleOf pl).1.opc ≠ 0x40 → (capsuleOf pl).1.opc ≠ 0x41 → (capsuleOf pl).1.opc ≠ 0x42 → (capsuleOf pl).1.opc ≠ 0x43 →
          (capsuleOf pl).1.opc ≠ 0x50 → (capsuleOf pl).1.opc ≠ 0x51 → Completes (.bulk src 1 q pl) m fun m' =>
            Sends m m' k 0 (.reply (capsuleOf pl).1 [] stAborted 0) ∧ m' = { m with fab := m'.fab, sent := m'.sent }) ∧
        Completes (.bulk src 4 q pl) m fun m' => Sends m m' k 3 (.bulk 5 0 (pl.take 1)) ∧ m' = { m with fab := m'.fab, sent := m'.sent }) ∧
      (m.tallyOf q.val rec_.reqid = none → (m.ptn q.val).tally.length < 1048576 →
        (Completes (.bulk src 2 q pl) m fun m' => (m'.ptn q.val).tally = (m.ptn q.val).tally ++ [rec_] ∧ m' = { m with ptns := m'.ptns }) ∧
        (rec_.reqid = BitVec.ofNat 64 (fieldAt pl 0 8) → Completes (.bulk src 6 q pl) m fun m' =>
          (m'.ptn q.val).tally = (m.ptn q.val).tally ++ [{ rec_ with heldFor := none }] ∧
          m' = { m with ptns := m'.ptns, guild := { m.guild with copied := m.guild.copied + 1 } })) ∧
      (m.tallyOf q.val (BitVec.ofNat 64 (fieldAt pl 0 8)) ≠ none → Leaves (.bulk src 6 q pl) m m) ∧
      (m.guild.warden ≠ m.member → Leaves (.bulk src 3 q pl) m m) ∧
      (m.guild.warden = m.member → groupTableOk m.guildSize (tableOfBytes pl) = true → m.guild.current = none → m.guild.queue = [] →
        m.guild.resolved = [] → m.voters ≠ [] → Completes (.bulk src 3 q pl) m fun m' =>
          m'.guild.current = some { agr := .group (tableOfBytes pl), epoch := m.newEpoch, drainUs := 100000, origin := k } ∧
          (∀ j ∈ m.joinedList, m'.hasSent j 0 (.prepare m.newEpoch (.group (tableOfBytes pl)) 100000)) ∧
          m' = { m with guild := m'.guild, fab := m'.fab, sent := m'.sent }) ∧
      (m.guild.copyBack = false → Leaves (.bulk src 7 q pl) m m) ∧
      (m.guild.copyBack = true → Completes (.bulk src 7 q pl) m fun m' =>
        m'.guild = { m.guild with twinCopy := false, copyBack := false, rebuildGot := [], copied := 0 } ∧ m'.mem = m.mem ∧ m'.tables = m.tables ∧
        m'.insts = m.insts))

/-! ### The whole block -/

/-- For every command and state, step with the command at the front of the queue is exec of it with the queue's rest. On an empty
queue the block idles (the model's choice, log entry 2): local time moves on by one nanosecond while input power is applied, and
nothing else changes; without power the whole state stands. -/
def Obligations.StepRunsTheFrontCommand : Prop :=
  (∀ (c : Instr) (m : Module) (rest : List Instr), step { m := m, pending := c :: rest } = exec c { m := m, pending := rest }) ∧
  (∀ m : Module,
    (m.pwr.input = true → step { m := m, pending := [] } = .next { m := { m with ltime := m.ltime + 1 }, pending := [] }) ∧
    (m.pwr.input = false → step { m := m, pending := [] } = .next { m := m, pending := [] }))

/-- State.reset meets the invariants of CanonicalFormsAreKept, its queue is empty, the module is without power, OFF (log entry 48) and in no membership, its pairs
are THROUGH, memory lists nothing, no instance, table, session or notice is there, and every field to which the register tables
give a fixed reset value other than zero reads it: in CHIP, HAL, QRN, BCH, PTN, FAB, RWK (R430), CTR and PWR/THM, for the first unit of
each block. -/
def Obligations.ResetStateHoldsTheSpecsValues : Prop :=
  let m := State.reset.m
  m.canonical ∧ m.shaped ∧ State.reset.pending = [] ∧ m.pwr.mode = .off ∧ m.guild.joined = 0 ∧ m.mem = [] ∧ m.insts = [] ∧ m.tables = [] ∧
  m.asy.sessions = [] ∧ m.ctr.posted = [] ∧ m.ltime = 0 ∧
  ∀ x ∈ ([
    (chipR 0x000, 0, 16, 0x9640), (chipR 0x000, 16, 8, 0xb0), (chipR 0x000, 24, 8, 0x1), (chipR 0x000, 32, 16, 0x100),
    (chipR 0x008, 0, 8, 0x4), (chipR 0x008, 8, 8, 0x40), (chipR 0x008, 16, 8, 0x14), (chipR 0x008, 24, 8, 0x20),
    (chipR 0x008, 32, 4, 0x8), (chipR 0x008, 36, 12, 0x40), (halR 0 0x000, 0, 16, 0x7d0), (halR 0 0x000, 16, 16, 0x64),
    (halR 0 0x000, 32, 1, 0x1), (poolR 0x800, 0, 32, 0x9f800), (poolR 0x800, 32, 32, 0x9f800), (qrnR 0 0x008, 0, 1, 0x1),
    (qrnR 0 0x008, 1, 1, 0x1), (qrnR 0 0x008, 4, 16, 0x64), (qrnR 0 0x008, 20, 4, 0x2), (qrnR 0 0x018, 0, 16, 0xffff),
    (qrnR 0 0x018, 16, 16, 0xffff), (qrnR 0 0x018, 32, 16, 0xffff), (qrnR 0 0x018, 48, 16, 0xffff), (qrnR 0 0x020, 0, 16, 0xffff),
    (qrnR 0 0x020, 16, 16, 0xffff), (qrnR 0 0x020, 32, 16, 0xffff), (qrnR 0 0x020, 48, 16, 0xffff), (halR 0 0x140, 0, 16, 0x7d0),
    (bchR 0 0x100, 0, 1, 0x1), (bchR 0 0x100, 1, 1, 0x1), (bchR 0 0x100, 4, 20, 0x2000), (halR 0 0x180, 0, 1, 0x1),
    (halR 0 0x188, 0, 16, 0xffff), (halR 0 0x188, 16, 16, 0xffff), (halR 0 0x188, 32, 16, 0xffff), (halR 0 0x188, 48, 16, 0xffff),
    (halR 0 0x190, 0, 16, 0xffff), (halR 0 0x190, 16, 16, 0xffff), (halR 0 0x190, 32, 16, 0xffff), (halR 0 0x190, 48, 16, 0xffff),
    (qrnR 0 0x100, 0, 1, 0x1), (qrnR 0 0x100, 1, 8, 0x18), (qrnR 0 0x100, 9, 4, 0x4), (qrnR 0 0x108, 12, 8, 0xff),
    (halR 0 0x200, 0, 16, 0x190), (halR 0 0x200, 16, 16, 0x3e8), (halR 0 0x200, 32, 16, 0x14), (halR 0 0x200, 48, 1, 0x1),
    (halR 0 0x200, 49, 10, 0x64), (ptnR 0 0xE8, 0, 16, 0x3e8), (fabR 0x000, 12, 2, 0x3), (fabR 0x028, 0, 8, 0x14),
    (fabR 0x028, 8, 12, 0xc8), (fabR 0x028, 20, 12, 0x1f4), (fabR 0x028, 32, 8, 0x14), (fabR 0x028, 40, 16, 0x10),
    (fabR 0x030, 0, 8, 0x8), (fabR 0x030, 8, 8, 0x4), (fabR 0x030, 16, 8, 0x3), (fabR 0x030, 24, 8, 0x14),
    (fabR 0x038, 0, 16, 0xffff), (rwkR 0x000, 0, 17, 0x3e8), (ctrR 0x020, 0, 3, 0x3), (ctrR 0x020, 3, 6, 0x1a),
    (ctrR 0x020, 9, 3, 0x6), (ctrR 0x020, 12, 6, 0x30), (ctrR 0x020, 18, 1, 0x1), (ctrR 0x020, 19, 1, 0x1),
    (ctrR 0x020, 20, 8, 0xe), (ctrR 0x020, 28, 3, 0x7), (ctrR 0x028, 0, 16, 0x32), (ctrR 0x028, 16, 16, 0x37),
    (ctrR 0x028, 32, 16, 0x32), (ctrR 0x090, 0, 16, 0x3e8), (pwrR 0x020, 0, 12, 0xa8c), (pwrR 0x068, 0, 16, 0x4e2),
    (pwrR 0x068, 16, 16, 0x4e2), (pwrR 0x068, 32, 16, 0x4e2), (pwrR 0x068, 48, 16, 0x4e2)
    ] : List (Nat × Nat × Nat × Nat)), (m.readReg x.1).toNat / 2 ^ x.2.1 % 2 ^ x.2.2.1 = x.2.2.2

/-- For every state and whatever command stands at the front of its queue, when the step answers a next state: memory and the
register map that list rising keys and no entry at its default still do (the model's own form, log entry 3); four halls, 256 benches,
twenty stacks and eight partitions are still there; an erased identity seed stays erased, and the hard repairs of no stack become
fewer; what has been sent stays sent, in order; and the count of free values drawn never falls (log entry 1). The two forms and the
units hold at State.reset (ResetStateHoldsTheSpecsValues). -/
def Obligations.CanonicalFormsAreKept : Prop :=
  ∀ s s' : State, step s = .next s' →
    (s.m.canonical → s'.m.canonical) ∧ (s.m.shaped → s'.m.shaped) ∧
    (s.m.asy.seedErased = true → s'.m.asy.seedErased = true) ∧ (∀ i, (s.m.quern i).hardUsed ≤ (s'.m.quern i).hardUsed) ∧
    s.m.sent <+: s'.m.sent ∧ s.m.free ≤ s'.m.free

/-- For every state whose front command, if it has one, is none of those by which a reset or a change of the input power can come
(POWER_APPLIED, POWER_LOSS, INPUT_RANGE, MOD_RST_ASSERT, MOD_RST_RELEASE, PWR_RST.COLD and PWR_RST.WARM, and the register writes that can
reach PWR_RST: REGISTER_WRITE, HOST_RDMA_WRITE and SIDEBAND_PRIVATE_WRITE), when the step answers a next state: a module in OFF stays in
OFF, a FAULTED one stays FAULTED, and local time has not gone back. -/
def Obligations.OnlyResetsLeaveOffAndFaulted : Prop :=
  ∀ s s' : State, (∀ c, s.pending.head? = some c → mayReset c = false) → step s = .next s' →
    (s.m.pwr.mode = .off → s'.m.pwr.mode = .off) ∧ (s.m.pwr.mode = .faulted → s'.m.pwr.mode = .faulted) ∧ s.m.ltime ≤ s'.m.ltime
end

