-- ==== Sys2Proof/Laws/State.lean ====
section
/-! SUPPORT. What each update of the module does to each field: one lemma per field per update, so that no proof unfolds a
record update. -/
namespace Sys2Proof.Machine

@[simp] theorem State.on_eq (s : State) (f : Module → Module) : s.on f = .next { s with m := f s.m } := rfl

@[simp] theorem Module.store_pwr (m : Module) (k : Nat) (bs : List Byte) : (m.store k bs).pwr = m.pwr := rfl
@[simp] theorem Module.store_ltime (m : Module) (k : Nat) (bs : List Byte) : (m.store k bs).ltime = m.ltime := rfl
@[simp] theorem Module.store_regs (m : Module) (k : Nat) (bs : List Byte) : (m.store k bs).regs = m.regs := rfl
@[simp] theorem Module.store_mem (m : Module) (k : Nat) (bs : List Byte) : (m.store k bs).mem = m.mem.writeN k bs := rfl
@[simp] theorem Module.store_asy (m : Module) (k : Nat) (bs : List Byte) : (m.store k bs).asy = m.asy := rfl
@[simp] theorem Module.store_fab (m : Module) (k : Nat) (bs : List Byte) : (m.store k bs).fab = m.fab := rfl
@[simp] theorem Module.store_guild (m : Module) (k : Nat) (bs : List Byte) : (m.store k bs).guild = m.guild := rfl
@[simp] theorem Module.store_ctr (m : Module) (k : Nat) (bs : List Byte) : (m.store k bs).ctr = m.ctr := rfl
@[simp] theorem Module.store_ptns (m : Module) (k : Nat) (bs : List Byte) : (m.store k bs).ptns = m.ptns := rfl
@[simp] theorem Module.store_halls (m : Module) (k : Nat) (bs : List Byte) : (m.store k bs).halls = m.halls := rfl
@[simp] theorem Module.store_benches (m : Module) (k : Nat) (bs : List Byte) : (m.store k bs).benches = m.benches := rfl
@[simp] theorem Module.store_querns (m : Module) (k : Nat) (bs : List Byte) : (m.store k bs).querns = m.querns := rfl
@[simp] theorem Module.store_rwk (m : Module) (k : Nat) (bs : List Byte) : (m.store k bs).rwk = m.rwk := rfl
@[simp] theorem Module.store_tables (m : Module) (k : Nat) (bs : List Byte) : (m.store k bs).tables = m.tables := rfl
@[simp] theorem Module.store_xlat (m : Module) (k : Nat) (bs : List Byte) : (m.store k bs).xlat = m.xlat := rfl
@[simp] theorem Module.store_heldAcc (m : Module) (k : Nat) (bs : List Byte) : (m.store k bs).heldAcc = m.heldAcc := rfl
@[simp] theorem Module.store_tileBad (m : Module) (k : Nat) (bs : List Byte) : (m.store k bs).tileBad = m.tileBad := rfl
@[simp] theorem Module.store_insts (m : Module) (k : Nat) (bs : List Byte) : (m.store k bs).insts = m.insts := rfl
@[simp] theorem Module.store_tokens (m : Module) (k : Nat) (bs : List Byte) : (m.store k bs).tokens = m.tokens := rfl
@[simp] theorem Module.store_gathers (m : Module) (k : Nat) (bs : List Byte) : (m.store k bs).gathers = m.gathers := rfl
@[simp] theorem Module.store_scatters (m : Module) (k : Nat) (bs : List Byte) : (m.store k bs).scatters = m.scatters := rfl
@[simp] theorem Module.store_samples (m : Module) (k : Nat) (bs : List Byte) : (m.store k bs).samples = m.samples := rfl
@[simp] theorem Module.store_chains (m : Module) (k : Nat) (bs : List Byte) : (m.store k bs).chains = m.chains := rfl
@[simp] theorem Module.store_hubs (m : Module) (k : Nat) (bs : List Byte) : (m.store k bs).hubs = m.hubs := rfl
@[simp] theorem Module.store_groups (m : Module) (k : Nat) (bs : List Byte) : (m.store k bs).groups = m.groups := rfl
@[simp] theorem Module.store_nextInst (m : Module) (k : Nat) (bs : List Byte) : (m.store k bs).nextInst = m.nextInst := rfl
@[simp] theorem Module.store_instLog (m : Module) (k : Nat) (bs : List Byte) : (m.store k bs).instLog = m.instLog := rfl
@[simp] theorem Module.store_nextSerial (m : Module) (k : Nat) (bs : List Byte) : (m.store k bs).nextSerial = m.nextSerial := rfl
@[simp] theorem Module.store_nextBuf (m : Module) (k : Nat) (bs : List Byte) : (m.store k bs).nextBuf = m.nextBuf := rfl
@[simp] theorem Module.store_nextHandle (m : Module) (k : Nat) (bs : List Byte) : (m.store k bs).nextHandle = m.nextHandle := rfl
@[simp] theorem Module.store_stamp (m : Module) (k : Nat) (bs : List Byte) : (m.store k bs).stamp = m.stamp := rfl
@[simp] theorem Module.store_free (m : Module) (k : Nat) (bs : List Byte) : (m.store k bs).free = m.free := rfl
@[simp] theorem Module.store_sent (m : Module) (k : Nat) (bs : List Byte) : (m.store k bs).sent = m.sent := rfl

@[simp] theorem Module.setReg_pwr (m : Module) (a : Nat) (w : Word) : (m.setReg a w).pwr = m.pwr := rfl
@[simp] theorem Module.setReg_ltime (m : Module) (a : Nat) (w : Word) : (m.setReg a w).ltime = m.ltime := rfl
@[simp] theorem Module.setReg_regs (m : Module) (a : Nat) (w : Word) : (m.setReg a w).regs = sparsePut regDefault m.regs a w := rfl
@[simp] theorem Module.setReg_mem (m : Module) (a : Nat) (w : Word) : (m.setReg a w).mem = m.mem := rfl
@[simp] theorem Module.setReg_asy (m : Module) (a : Nat) (w : Word) : (m.setReg a w).asy = m.asy := rfl
@[simp] theorem Module.setReg_fab (m : Module) (a : Nat) (w : Word) : (m.setReg a w).fab = m.fab := rfl
@[simp] theorem Module.setReg_guild (m : Module) (a : Nat) (w : Word) : (m.setReg a w).guild = m.guild := rfl
@[simp] theorem Module.setReg_ctr (m : Module) (a : Nat) (w : Word) : (m.setReg a w).ctr = m.ctr := rfl
@[simp] theorem Module.setReg_ptns (m : Module) (a : Nat) (w : Word) : (m.setReg a w).ptns = m.ptns := rfl
@[simp] theorem Module.setReg_halls (m : Module) (a : Nat) (w : Word) : (m.setReg a w).halls = m.halls := rfl
@[simp] theorem Module.setReg_benches (m : Module) (a : Nat) (w : Word) : (m.setReg a w).benches = m.benches := rfl
@[simp] theorem Module.setReg_querns (m : Module) (a : Nat) (w : Word) : (m.setReg a w).querns = m.querns := rfl
@[simp] theorem Module.setReg_rwk (m : Module) (a : Nat) (w : Word) : (m.setReg a w).rwk = m.rwk := rfl
@[simp] theorem Module.setReg_tables (m : Module) (a : Nat) (w : Word) : (m.setReg a w).tables = m.tables := rfl
@[simp] theorem Module.setReg_xlat (m : Module) (a : Nat) (w : Word) : (m.setReg a w).xlat = m.xlat := rfl
@[simp] theorem Module.setReg_heldAcc (m : Module) (a : Nat) (w : Word) : (m.setReg a w).heldAcc = m.heldAcc := rfl
@[simp] theorem Module.setReg_tileBad (m : Module) (a : Nat) (w : Word) : (m.setReg a w).tileBad = m.tileBad := rfl
@[simp] theorem Module.setReg_insts (m : Module) (a : Nat) (w : Word) : (m.setReg a w).insts = m.insts := rfl
@[simp] theorem Module.setReg_tokens (m : Module) (a : Nat) (w : Word) : (m.setReg a w).tokens = m.tokens := rfl
@[simp] theorem Module.setReg_gathers (m : Module) (a : Nat) (w : Word) : (m.setReg a w).gathers = m.gathers := rfl
@[simp] theorem Module.setReg_scatters (m : Module) (a : Nat) (w : Word) : (m.setReg a w).scatters = m.scatters := rfl
@[simp] theorem Module.setReg_samples (m : Module) (a : Nat) (w : Word) : (m.setReg a w).samples = m.samples := rfl
@[simp] theorem Module.setReg_chains (m : Module) (a : Nat) (w : Word) : (m.setReg a w).chains = m.chains := rfl
@[simp] theorem Module.setReg_hubs (m : Module) (a : Nat) (w : Word) : (m.setReg a w).hubs = m.hubs := rfl
@[simp] theorem Module.setReg_groups (m : Module) (a : Nat) (w : Word) : (m.setReg a w).groups = m.groups := rfl
@[simp] theorem Module.setReg_nextInst (m : Module) (a : Nat) (w : Word) : (m.setReg a w).nextInst = m.nextInst := rfl
@[simp] theorem Module.setReg_instLog (m : Module) (a : Nat) (w : Word) : (m.setReg a w).instLog = m.instLog := rfl
@[simp] theorem Module.setReg_nextSerial (m : Module) (a : Nat) (w : Word) : (m.setReg a w).nextSerial = m.nextSerial := rfl
@[simp] theorem Module.setReg_nextBuf (m : Module) (a : Nat) (w : Word) : (m.setReg a w).nextBuf = m.nextBuf := rfl
@[simp] theorem Module.setReg_nextHandle (m : Module) (a : Nat) (w : Word) : (m.setReg a w).nextHandle = m.nextHandle := rfl
@[simp] theorem Module.setReg_stamp (m : Module) (a : Nat) (w : Word) : (m.setReg a w).stamp = m.stamp := rfl
@[simp] theorem Module.setReg_free (m : Module) (a : Nat) (w : Word) : (m.setReg a w).free = m.free := rfl
@[simp] theorem Module.setReg_sent (m : Module) (a : Nat) (w : Word) : (m.setReg a w).sent = m.sent := rfl

@[simp] theorem Module.setHall_pwr (m : Module) (h : Nat) (f : Hall → Hall) : (m.setHall h f).pwr = m.pwr := rfl
@[simp] theorem Module.setHall_ltime (m : Module) (h : Nat) (f : Hall → Hall) : (m.setHall h f).ltime = m.ltime := rfl
@[simp] theorem Module.setHall_regs (m : Module) (h : Nat) (f : Hall → Hall) : (m.setHall h f).regs = m.regs := rfl
@[simp] theorem Module.setHall_mem (m : Module) (h : Nat) (f : Hall → Hall) : (m.setHall h f).mem = m.mem := rfl
@[simp] theorem Module.setHall_asy (m : Module) (h : Nat) (f : Hall → Hall) : (m.setHall h f).asy = m.asy := rfl
@[simp] theorem Module.setHall_fab (m : Module) (h : Nat) (f : Hall → Hall) : (m.setHall h f).fab = m.fab := rfl
@[simp] theorem Module.setHall_guild (m : Module) (h : Nat) (f : Hall → Hall) : (m.setHall h f).guild = m.guild := rfl
@[simp] theorem Module.setHall_ctr (m : Module) (h : Nat) (f : Hall → Hall) : (m.setHall h f).ctr = m.ctr := rfl
@[simp] theorem Module.setHall_ptns (m : Module) (h : Nat) (f : Hall → Hall) : (m.setHall h f).ptns = m.ptns := rfl
@[simp] theorem Module.setHall_halls (m : Module) (h : Nat) (f : Hall → Hall) : (m.setHall h f).halls = m.halls.modify h f := rfl
@[simp] theorem Module.setHall_benches (m : Module) (h : Nat) (f : Hall → Hall) : (m.setHall h f).benches = m.benches := rfl
@[simp] theorem Module.setHall_querns (m : Module) (h : Nat) (f : Hall → Hall) : (m.setHall h f).querns = m.querns := rfl
@[simp] theorem Module.setHall_rwk (m : Module) (h : Nat) (f : Hall → Hall) : (m.setHall h f).rwk = m.rwk := rfl
@[simp] theorem Module.setHall_tables (m : Module) (h : Nat) (f : Hall → Hall) : (m.setHall h f).tables = m.tables := rfl
@[simp] theorem Module.setHall_xlat (m : Module) (h : Nat) (f : Hall → Hall) : (m.setHall h f).xlat = m.xlat := rfl
@[simp] theorem Module.setHall_heldAcc (m : Module) (h : Nat) (f : Hall → Hall) : (m.setHall h f).heldAcc = m.heldAcc := rfl
@[simp] theorem Module.setHall_tileBad (m : Module) (h : Nat) (f : Hall → Hall) : (m.setHall h f).tileBad = m.tileBad := rfl
@[simp] theorem Module.setHall_insts (m : Module) (h : Nat) (f : Hall → Hall) : (m.setHall h f).insts = m.insts := rfl
@[simp] theorem Module.setHall_tokens (m : Module) (h : Nat) (f : Hall → Hall) : (m.setHall h f).tokens = m.tokens := rfl
@[simp] theorem Module.setHall_gathers (m : Module) (h : Nat) (f : Hall → Hall) : (m.setHall h f).gathers = m.gathers := rfl
@[simp] theorem Module.setHall_scatters (m : Module) (h : Nat) (f : Hall → Hall) : (m.setHall h f).scatters = m.scatters := rfl
@[simp] theorem Module.setHall_samples (m : Module) (h : Nat) (f : Hall → Hall) : (m.setHall h f).samples = m.samples := rfl
@[simp] theorem Module.setHall_chains (m : Module) (h : Nat) (f : Hall → Hall) : (m.setHall h f).chains = m.chains := rfl
@[simp] theorem Module.setHall_hubs (m : Module) (h : Nat) (f : Hall → Hall) : (m.setHall h f).hubs = m.hubs := rfl
@[simp] theorem Module.setHall_groups (m : Module) (h : Nat) (f : Hall → Hall) : (m.setHall h f).groups = m.groups := rfl
@[simp] theorem Module.setHall_nextInst (m : Module) (h : Nat) (f : Hall → Hall) : (m.setHall h f).nextInst = m.nextInst := rfl
@[simp] theorem Module.setHall_instLog (m : Module) (h : Nat) (f : Hall → Hall) : (m.setHall h f).instLog = m.instLog := rfl
@[simp] theorem Module.setHall_nextSerial (m : Module) (h : Nat) (f : Hall → Hall) : (m.setHall h f).nextSerial = m.nextSerial := rfl
@[simp] theorem Module.setHall_nextBuf (m : Module) (h : Nat) (f : Hall → Hall) : (m.setHall h f).nextBuf = m.nextBuf := rfl
@[simp] theorem Module.setHall_nextHandle (m : Module) (h : Nat) (f : Hall → Hall) : (m.setHall h f).nextHandle = m.nextHandle := rfl
@[simp] theorem Module.setHall_stamp (m : Module) (h : Nat) (f : Hall → Hall) : (m.setHall h f).stamp = m.stamp := rfl
@[simp] theorem Module.setHall_free (m : Module) (h : Nat) (f : Hall → Hall) : (m.setHall h f).free = m.free := rfl
@[simp] theorem Module.setHall_sent (m : Module) (h : Nat) (f : Hall → Hall) : (m.setHall h f).sent = m.sent := rfl

@[simp] theorem Module.setBench_pwr (m : Module) (b : Nat) (f : Bench → Bench) : (m.setBench b f).pwr = m.pwr := rfl
@[simp] theorem Module.setBench_ltime (m : Module) (b : Nat) (f : Bench → Bench) : (m.setBench b f).ltime = m.ltime := rfl
@[simp] theorem Module.setBench_regs (m : Module) (b : Nat) (f : Bench → Bench) : (m.setBench b f).regs = m.regs := rfl
@[simp] theorem Module.setBench_mem (m : Module) (b : Nat) (f : Bench → Bench) : (m.setBench b f).mem = m.mem := rfl
@[simp] theorem Module.setBench_asy (m : Module) (b : Nat) (f : Bench → Bench) : (m.setBench b f).asy = m.asy := rfl
@[simp] theorem Module.setBench_fab (m : Module) (b : Nat) (f : Bench → Bench) : (m.setBench b f).fab = m.fab := rfl
@[simp] theorem Module.setBench_guild (m : Module) (b : Nat) (f : Bench → Bench) : (m.setBench b f).guild = m.guild := rfl
@[simp] theorem Module.setBench_ctr (m : Module) (b : Nat) (f : Bench → Bench) : (m.setBench b f).ctr = m.ctr := rfl
@[simp] theorem Module.setBench_ptns (m : Module) (b : Nat) (f : Bench → Bench) : (m.setBench b f).ptns = m.ptns := rfl
@[simp] theorem Module.setBench_halls (m : Module) (b : Nat) (f : Bench → Bench) : (m.setBench b f).halls = m.halls := rfl
@[simp] theorem Module.setBench_benches (m : Module) (b : Nat) (f : Bench → Bench) : (m.setBench b f).benches = m.benches.modify b f := rfl
@[simp] theorem Module.setBench_querns (m : Module) (b : Nat) (f : Bench → Bench) : (m.setBench b f).querns = m.querns := rfl
@[simp] theorem Module.setBench_rwk (m : Module) (b : Nat) (f : Bench → Bench) : (m.setBench b f).rwk = m.rwk := rfl
@[simp] theorem Module.setBench_tables (m : Module) (b : Nat) (f : Bench → Bench) : (m.setBench b f).tables = m.tables := rfl
@[simp] theorem Module.setBench_xlat (m : Module) (b : Nat) (f : Bench → Bench) : (m.setBench b f).xlat = m.xlat := rfl
@[simp] theorem Module.setBench_heldAcc (m : Module) (b : Nat) (f : Bench → Bench) : (m.setBench b f).heldAcc = m.heldAcc := rfl
@[simp] theorem Module.setBench_tileBad (m : Module) (b : Nat) (f : Bench → Bench) : (m.setBench b f).tileBad = m.tileBad := rfl
@[simp] theorem Module.setBench_insts (m : Module) (b : Nat) (f : Bench → Bench) : (m.setBench b f).insts = m.insts := rfl
@[simp] theorem Module.setBench_tokens (m : Module) (b : Nat) (f : Bench → Bench) : (m.setBench b f).tokens = m.tokens := rfl
@[simp] theorem Module.setBench_gathers (m : Module) (b : Nat) (f : Bench → Bench) : (m.setBench b f).gathers = m.gathers := rfl
@[simp] theorem Module.setBench_scatters (m : Module) (b : Nat) (f : Bench → Bench) : (m.setBench b f).scatters = m.scatters := rfl
@[simp] theorem Module.setBench_samples (m : Module) (b : Nat) (f : Bench → Bench) : (m.setBench b f).samples = m.samples := rfl
@[simp] theorem Module.setBench_chains (m : Module) (b : Nat) (f : Bench → Bench) : (m.setBench b f).chains = m.chains := rfl
@[simp] theorem Module.setBench_hubs (m : Module) (b : Nat) (f : Bench → Bench) : (m.setBench b f).hubs = m.hubs := rfl
@[simp] theorem Module.setBench_groups (m : Module) (b : Nat) (f : Bench → Bench) : (m.setBench b f).groups = m.groups := rfl
@[simp] theorem Module.setBench_nextInst (m : Module) (b : Nat) (f : Bench → Bench) : (m.setBench b f).nextInst = m.nextInst := rfl
@[simp] theorem Module.setBench_instLog (m : Module) (b : Nat) (f : Bench → Bench) : (m.setBench b f).instLog = m.instLog := rfl
@[simp] theorem Module.setBench_nextSerial (m : Module) (b : Nat) (f : Bench → Bench) : (m.setBench b f).nextSerial = m.nextSerial := rfl
@[simp] theorem Module.setBench_nextBuf (m : Module) (b : Nat) (f : Bench → Bench) : (m.setBench b f).nextBuf = m.nextBuf := rfl
@[simp] theorem Module.setBench_nextHandle (m : Module) (b : Nat) (f : Bench → Bench) : (m.setBench b f).nextHandle = m.nextHandle := rfl
@[simp] theorem Module.setBench_stamp (m : Module) (b : Nat) (f : Bench → Bench) : (m.setBench b f).stamp = m.stamp := rfl
@[simp] theorem Module.setBench_free (m : Module) (b : Nat) (f : Bench → Bench) : (m.setBench b f).free = m.free := rfl
@[simp] theorem Module.setBench_sent (m : Module) (b : Nat) (f : Bench → Bench) : (m.setBench b f).sent = m.sent := rfl

@[simp] theorem Module.setQuern_pwr (m : Module) (q : Nat) (f : Quern → Quern) : (m.setQuern q f).pwr = m.pwr := rfl
@[simp] theorem Module.setQuern_ltime (m : Module) (q : Nat) (f : Quern → Quern) : (m.setQuern q f).ltime = m.ltime := rfl
@[simp] theorem Module.setQuern_regs (m : Module) (q : Nat) (f : Quern → Quern) : (m.setQuern q f).regs = m.regs := rfl
@[simp] theorem Module.setQuern_mem (m : Module) (q : Nat) (f : Quern → Quern) : (m.setQuern q f).mem = m.mem := rfl
@[simp] theorem Module.setQuern_asy (m : Module) (q : Nat) (f : Quern → Quern) : (m.setQuern q f).asy = m.asy := rfl
@[simp] theorem Module.setQuern_fab (m : Module) (q : Nat) (f : Quern → Quern) : (m.setQuern q f).fab = m.fab := rfl
@[simp] theorem Module.setQuern_guild (m : Module) (q : Nat) (f : Quern → Quern) : (m.setQuern q f).guild = m.guild := rfl
@[simp] theorem Module.setQuern_ctr (m : Module) (q : Nat) (f : Quern → Quern) : (m.setQuern q f).ctr = m.ctr := rfl
@[simp] theorem Module.setQuern_ptns (m : Module) (q : Nat) (f : Quern → Quern) : (m.setQuern q f).ptns = m.ptns := rfl
@[simp] theorem Module.setQuern_halls (m : Module) (q : Nat) (f : Quern → Quern) : (m.setQuern q f).halls = m.halls := rfl
@[simp] theorem Module.setQuern_benches (m : Module) (q : Nat) (f : Quern → Quern) : (m.setQuern q f).benches = m.benches := rfl
@[simp] theorem Module.setQuern_querns (m : Module) (q : Nat) (f : Quern → Quern) : (m.setQuern q f).querns = m.querns.modify q f := rfl
@[simp] theorem Module.setQuern_rwk (m : Module) (q : Nat) (f : Quern → Quern) : (m.setQuern q f).rwk = m.rwk := rfl
@[simp] theorem Module.setQuern_tables (m : Module) (q : Nat) (f : Quern → Quern) : (m.setQuern q f).tables = m.tables := rfl
@[simp] theorem Module.setQuern_xlat (m : Module) (q : Nat) (f : Quern → Quern) : (m.setQuern q f).xlat = m.xlat := rfl
@[simp] theorem Module.setQuern_heldAcc (m : Module) (q : Nat) (f : Quern → Quern) : (m.setQuern q f).heldAcc = m.heldAcc := rfl
@[simp] theorem Module.setQuern_tileBad (m : Module) (q : Nat) (f : Quern → Quern) : (m.setQuern q f).tileBad = m.tileBad := rfl
@[simp] theorem Module.setQuern_insts (m : Module) (q : Nat) (f : Quern → Quern) : (m.setQuern q f).insts = m.insts := rfl
@[simp] theorem Module.setQuern_tokens (m : Module) (q : Nat) (f : Quern → Quern) : (m.setQuern q f).tokens = m.tokens := rfl
@[simp] theorem Module.setQuern_gathers (m : Module) (q : Nat) (f : Quern → Quern) : (m.setQuern q f).gathers = m.gathers := rfl
@[simp] theorem Module.setQuern_scatters (m : Module) (q : Nat) (f : Quern → Quern) : (m.setQuern q f).scatters = m.scatters := rfl
@[simp] theorem Module.setQuern_samples (m : Module) (q : Nat) (f : Quern → Quern) : (m.setQuern q f).samples = m.samples := rfl
@[simp] theorem Module.setQuern_chains (m : Module) (q : Nat) (f : Quern → Quern) : (m.setQuern q f).chains = m.chains := rfl
@[simp] theorem Module.setQuern_hubs (m : Module) (q : Nat) (f : Quern → Quern) : (m.setQuern q f).hubs = m.hubs := rfl
@[simp] theorem Module.setQuern_groups (m : Module) (q : Nat) (f : Quern → Quern) : (m.setQuern q f).groups = m.groups := rfl
@[simp] theorem Module.setQuern_nextInst (m : Module) (q : Nat) (f : Quern → Quern) : (m.setQuern q f).nextInst = m.nextInst := rfl
@[simp] theorem Module.setQuern_instLog (m : Module) (q : Nat) (f : Quern → Quern) : (m.setQuern q f).instLog = m.instLog := rfl
@[simp] theorem Module.setQuern_nextSerial (m : Module) (q : Nat) (f : Quern → Quern) : (m.setQuern q f).nextSerial = m.nextSerial := rfl
@[simp] theorem Module.setQuern_nextBuf (m : Module) (q : Nat) (f : Quern → Quern) : (m.setQuern q f).nextBuf = m.nextBuf := rfl
@[simp] theorem Module.setQuern_nextHandle (m : Module) (q : Nat) (f : Quern → Quern) : (m.setQuern q f).nextHandle = m.nextHandle := rfl
@[simp] theorem Module.setQuern_stamp (m : Module) (q : Nat) (f : Quern → Quern) : (m.setQuern q f).stamp = m.stamp := rfl
@[simp] theorem Module.setQuern_free (m : Module) (q : Nat) (f : Quern → Quern) : (m.setQuern q f).free = m.free := rfl
@[simp] theorem Module.setQuern_sent (m : Module) (q : Nat) (f : Quern → Quern) : (m.setQuern q f).sent = m.sent := rfl

@[simp] theorem Module.setPtn_pwr (m : Module) (p : Nat) (f : Partition → Partition) : (m.setPtn p f).pwr = m.pwr := rfl
@[simp] theorem Module.setPtn_ltime (m : Module) (p : Nat) (f : Partition → Partition) : (m.setPtn p f).ltime = m.ltime := rfl
@[simp] theorem Module.setPtn_regs (m : Module) (p : Nat) (f : Partition → Partition) : (m.setPtn p f).regs = m.regs := rfl
@[simp] theorem Module.setPtn_mem (m : Module) (p : Nat) (f : Partition → Partition) : (m.setPtn p f).mem = m.mem := rfl
@[simp] theorem Module.setPtn_asy (m : Module) (p : Nat) (f : Partition → Partition) : (m.setPtn p f).asy = m.asy := rfl
@[simp] theorem Module.setPtn_fab (m : Module) (p : Nat) (f : Partition → Partition) : (m.setPtn p f).fab = m.fab := rfl
@[simp] theorem Module.setPtn_guild (m : Module) (p : Nat) (f : Partition → Partition) : (m.setPtn p f).guild = m.guild := rfl
@[simp] theorem Module.setPtn_ctr (m : Module) (p : Nat) (f : Partition → Partition) : (m.setPtn p f).ctr = m.ctr := rfl
@[simp] theorem Module.setPtn_ptns (m : Module) (p : Nat) (f : Partition → Partition) : (m.setPtn p f).ptns = m.ptns.modify p f := rfl
@[simp] theorem Module.setPtn_halls (m : Module) (p : Nat) (f : Partition → Partition) : (m.setPtn p f).halls = m.halls := rfl
@[simp] theorem Module.setPtn_benches (m : Module) (p : Nat) (f : Partition → Partition) : (m.setPtn p f).benches = m.benches := rfl
@[simp] theorem Module.setPtn_querns (m : Module) (p : Nat) (f : Partition → Partition) : (m.setPtn p f).querns = m.querns := rfl
@[simp] theorem Module.setPtn_rwk (m : Module) (p : Nat) (f : Partition → Partition) : (m.setPtn p f).rwk = m.rwk := rfl
@[simp] theorem Module.setPtn_tables (m : Module) (p : Nat) (f : Partition → Partition) : (m.setPtn p f).tables = m.tables := rfl
@[simp] theorem Module.setPtn_xlat (m : Module) (p : Nat) (f : Partition → Partition) : (m.setPtn p f).xlat = m.xlat := rfl
@[simp] theorem Module.setPtn_heldAcc (m : Module) (p : Nat) (f : Partition → Partition) : (m.setPtn p f).heldAcc = m.heldAcc := rfl
@[simp] theorem Module.setPtn_tileBad (m : Module) (p : Nat) (f : Partition → Partition) : (m.setPtn p f).tileBad = m.tileBad := rfl
@[simp] theorem Module.setPtn_insts (m : Module) (p : Nat) (f : Partition → Partition) : (m.setPtn p f).insts = m.insts := rfl
@[simp] theorem Module.setPtn_tokens (m : Module) (p : Nat) (f : Partition → Partition) : (m.setPtn p f).tokens = m.tokens := rfl
@[simp] theorem Module.setPtn_gathers (m : Module) (p : Nat) (f : Partition → Partition) : (m.setPtn p f).gathers = m.gathers := rfl
@[simp] theorem Module.setPtn_scatters (m : Module) (p : Nat) (f : Partition → Partition) : (m.setPtn p f).scatters = m.scatters := rfl
@[simp] theorem Module.setPtn_samples (m : Module) (p : Nat) (f : Partition → Partition) : (m.setPtn p f).samples = m.samples := rfl
@[simp] theorem Module.setPtn_chains (m : Module) (p : Nat) (f : Partition → Partition) : (m.setPtn p f).chains = m.chains := rfl
@[simp] theorem Module.setPtn_hubs (m : Module) (p : Nat) (f : Partition → Partition) : (m.setPtn p f).hubs = m.hubs := rfl
@[simp] theorem Module.setPtn_groups (m : Module) (p : Nat) (f : Partition → Partition) : (m.setPtn p f).groups = m.groups := rfl
@[simp] theorem Module.setPtn_nextInst (m : Module) (p : Nat) (f : Partition → Partition) : (m.setPtn p f).nextInst = m.nextInst := rfl
@[simp] theorem Module.setPtn_instLog (m : Module) (p : Nat) (f : Partition → Partition) : (m.setPtn p f).instLog = m.instLog := rfl
@[simp] theorem Module.setPtn_nextSerial (m : Module) (p : Nat) (f : Partition → Partition) : (m.setPtn p f).nextSerial = m.nextSerial := rfl
@[simp] theorem Module.setPtn_nextBuf (m : Module) (p : Nat) (f : Partition → Partition) : (m.setPtn p f).nextBuf = m.nextBuf := rfl
@[simp] theorem Module.setPtn_nextHandle (m : Module) (p : Nat) (f : Partition → Partition) : (m.setPtn p f).nextHandle = m.nextHandle := rfl
@[simp] theorem Module.setPtn_stamp (m : Module) (p : Nat) (f : Partition → Partition) : (m.setPtn p f).stamp = m.stamp := rfl
@[simp] theorem Module.setPtn_free (m : Module) (p : Nat) (f : Partition → Partition) : (m.setPtn p f).free = m.free := rfl
@[simp] theorem Module.setPtn_sent (m : Module) (p : Nat) (f : Partition → Partition) : (m.setPtn p f).sent = m.sent := rfl

@[simp] theorem Module.setCtr_pwr (m : Module) (f : Counter → Counter) : (m.setCtr f).pwr = m.pwr := rfl
@[simp] theorem Module.setCtr_ltime (m : Module) (f : Counter → Counter) : (m.setCtr f).ltime = m.ltime := rfl
@[simp] theorem Module.setCtr_regs (m : Module) (f : Counter → Counter) : (m.setCtr f).regs = m.regs := rfl
@[simp] theorem Module.setCtr_mem (m : Module) (f : Counter → Counter) : (m.setCtr f).mem = m.mem := rfl
@[simp] theorem Module.setCtr_asy (m : Module) (f : Counter → Counter) : (m.setCtr f).asy = m.asy := rfl
@[simp] theorem Module.setCtr_fab (m : Module) (f : Counter → Counter) : (m.setCtr f).fab = m.fab := rfl
@[simp] theorem Module.setCtr_guild (m : Module) (f : Counter → Counter) : (m.setCtr f).guild = m.guild := rfl
@[simp] theorem Module.setCtr_ctr (m : Module) (f : Counter → Counter) : (m.setCtr f).ctr = f m.ctr := rfl
@[simp] theorem Module.setCtr_ptns (m : Module) (f : Counter → Counter) : (m.setCtr f).ptns = m.ptns := rfl
@[simp] theorem Module.setCtr_halls (m : Module) (f : Counter → Counter) : (m.setCtr f).halls = m.halls := rfl
@[simp] theorem Module.setCtr_benches (m : Module) (f : Counter → Counter) : (m.setCtr f).benches = m.benches := rfl
@[simp] theorem Module.setCtr_querns (m : Module) (f : Counter → Counter) : (m.setCtr f).querns = m.querns := rfl
@[simp] theorem Module.setCtr_rwk (m : Module) (f : Counter → Counter) : (m.setCtr f).rwk = m.rwk := rfl
@[simp] theorem Module.setCtr_tables (m : Module) (f : Counter → Counter) : (m.setCtr f).tables = m.tables := rfl
@[simp] theorem Module.setCtr_xlat (m : Module) (f : Counter → Counter) : (m.setCtr f).xlat = m.xlat := rfl
@[simp] theorem Module.setCtr_heldAcc (m : Module) (f : Counter → Counter) : (m.setCtr f).heldAcc = m.heldAcc := rfl
@[simp] theorem Module.setCtr_tileBad (m : Module) (f : Counter → Counter) : (m.setCtr f).tileBad = m.tileBad := rfl
@[simp] theorem Module.setCtr_insts (m : Module) (f : Counter → Counter) : (m.setCtr f).insts = m.insts := rfl
@[simp] theorem Module.setCtr_tokens (m : Module) (f : Counter → Counter) : (m.setCtr f).tokens = m.tokens := rfl
@[simp] theorem Module.setCtr_gathers (m : Module) (f : Counter → Counter) : (m.setCtr f).gathers = m.gathers := rfl
@[simp] theorem Module.setCtr_scatters (m : Module) (f : Counter → Counter) : (m.setCtr f).scatters = m.scatters := rfl
@[simp] theorem Module.setCtr_samples (m : Module) (f : Counter → Counter) : (m.setCtr f).samples = m.samples := rfl
@[simp] theorem Module.setCtr_chains (m : Module) (f : Counter → Counter) : (m.setCtr f).chains = m.chains := rfl
@[simp] theorem Module.setCtr_hubs (m : Module) (f : Counter → Counter) : (m.setCtr f).hubs = m.hubs := rfl
@[simp] theorem Module.setCtr_groups (m : Module) (f : Counter → Counter) : (m.setCtr f).groups = m.groups := rfl
@[simp] theorem Module.setCtr_nextInst (m : Module) (f : Counter → Counter) : (m.setCtr f).nextInst = m.nextInst := rfl
@[simp] theorem Module.setCtr_instLog (m : Module) (f : Counter → Counter) : (m.setCtr f).instLog = m.instLog := rfl
@[simp] theorem Module.setCtr_nextSerial (m : Module) (f : Counter → Counter) : (m.setCtr f).nextSerial = m.nextSerial := rfl
@[simp] theorem Module.setCtr_nextBuf (m : Module) (f : Counter → Counter) : (m.setCtr f).nextBuf = m.nextBuf := rfl
@[simp] theorem Module.setCtr_nextHandle (m : Module) (f : Counter → Counter) : (m.setCtr f).nextHandle = m.nextHandle := rfl
@[simp] theorem Module.setCtr_stamp (m : Module) (f : Counter → Counter) : (m.setCtr f).stamp = m.stamp := rfl
@[simp] theorem Module.setCtr_free (m : Module) (f : Counter → Counter) : (m.setCtr f).free = m.free := rfl
@[simp] theorem Module.setCtr_sent (m : Module) (f : Counter → Counter) : (m.setCtr f).sent = m.sent := rfl

@[simp] theorem Module.setAsy_pwr (m : Module) (f : Assay → Assay) : (m.setAsy f).pwr = m.pwr := rfl
@[simp] theorem Module.setAsy_ltime (m : Module) (f : Assay → Assay) : (m.setAsy f).ltime = m.ltime := rfl
@[simp] theorem Module.setAsy_regs (m : Module) (f : Assay → Assay) : (m.setAsy f).regs = m.regs := rfl
@[simp] theorem Module.setAsy_mem (m : Module) (f : Assay → Assay) : (m.setAsy f).mem = m.mem := rfl
@[simp] theorem Module.setAsy_asy (m : Module) (f : Assay → Assay) : (m.setAsy f).asy = f m.asy := rfl
@[simp] theorem Module.setAsy_fab (m : Module) (f : Assay → Assay) : (m.setAsy f).fab = m.fab := rfl
@[simp] theorem Module.setAsy_guild (m : Module) (f : Assay → Assay) : (m.setAsy f).guild = m.guild := rfl
@[simp] theorem Module.setAsy_ctr (m : Module) (f : Assay → Assay) : (m.setAsy f).ctr = m.ctr := rfl
@[simp] theorem Module.setAsy_ptns (m : Module) (f : Assay → Assay) : (m.setAsy f).ptns = m.ptns := rfl
@[simp] theorem Module.setAsy_halls (m : Module) (f : Assay → Assay) : (m.setAsy f).halls = m.halls := rfl
@[simp] theorem Module.setAsy_benches (m : Module) (f : Assay → Assay) : (m.setAsy f).benches = m.benches := rfl
@[simp] theorem Module.setAsy_querns (m : Module) (f : Assay → Assay) : (m.setAsy f).querns = m.querns := rfl
@[simp] theorem Module.setAsy_rwk (m : Module) (f : Assay → Assay) : (m.setAsy f).rwk = m.rwk := rfl
@[simp] theorem Module.setAsy_tables (m : Module) (f : Assay → Assay) : (m.setAsy f).tables = m.tables := rfl
@[simp] theorem Module.setAsy_xlat (m : Module) (f : Assay → Assay) : (m.setAsy f).xlat = m.xlat := rfl
@[simp] theorem Module.setAsy_heldAcc (m : Module) (f : Assay → Assay) : (m.setAsy f).heldAcc = m.heldAcc := rfl
@[simp] theorem Module.setAsy_tileBad (m : Module) (f : Assay → Assay) : (m.setAsy f).tileBad = m.tileBad := rfl
@[simp] theorem Module.setAsy_insts (m : Module) (f : Assay → Assay) : (m.setAsy f).insts = m.insts := rfl
@[simp] theorem Module.setAsy_tokens (m : Module) (f : Assay → Assay) : (m.setAsy f).tokens = m.tokens := rfl
@[simp] theorem Module.setAsy_gathers (m : Module) (f : Assay → Assay) : (m.setAsy f).gathers = m.gathers := rfl
@[simp] theorem Module.setAsy_scatters (m : Module) (f : Assay → Assay) : (m.setAsy f).scatters = m.scatters := rfl
@[simp] theorem Module.setAsy_samples (m : Module) (f : Assay → Assay) : (m.setAsy f).samples = m.samples := rfl
@[simp] theorem Module.setAsy_chains (m : Module) (f : Assay → Assay) : (m.setAsy f).chains = m.chains := rfl
@[simp] theorem Module.setAsy_hubs (m : Module) (f : Assay → Assay) : (m.setAsy f).hubs = m.hubs := rfl
@[simp] theorem Module.setAsy_groups (m : Module) (f : Assay → Assay) : (m.setAsy f).groups = m.groups := rfl
@[simp] theorem Module.setAsy_nextInst (m : Module) (f : Assay → Assay) : (m.setAsy f).nextInst = m.nextInst := rfl
@[simp] theorem Module.setAsy_instLog (m : Module) (f : Assay → Assay) : (m.setAsy f).instLog = m.instLog := rfl
@[simp] theorem Module.setAsy_nextSerial (m : Module) (f : Assay → Assay) : (m.setAsy f).nextSerial = m.nextSerial := rfl
@[simp] theorem Module.setAsy_nextBuf (m : Module) (f : Assay → Assay) : (m.setAsy f).nextBuf = m.nextBuf := rfl
@[simp] theorem Module.setAsy_nextHandle (m : Module) (f : Assay → Assay) : (m.setAsy f).nextHandle = m.nextHandle := rfl
@[simp] theorem Module.setAsy_stamp (m : Module) (f : Assay → Assay) : (m.setAsy f).stamp = m.stamp := rfl
@[simp] theorem Module.setAsy_free (m : Module) (f : Assay → Assay) : (m.setAsy f).free = m.free := rfl
@[simp] theorem Module.setAsy_sent (m : Module) (f : Assay → Assay) : (m.setAsy f).sent = m.sent := rfl

@[simp] theorem Module.setGuild_pwr (m : Module) (f : Guild → Guild) : (m.setGuild f).pwr = m.pwr := rfl
@[simp] theorem Module.setGuild_ltime (m : Module) (f : Guild → Guild) : (m.setGuild f).ltime = m.ltime := rfl
@[simp] theorem Module.setGuild_regs (m : Module) (f : Guild → Guild) : (m.setGuild f).regs = m.regs := rfl
@[simp] theorem Module.setGuild_mem (m : Module) (f : Guild → Guild) : (m.setGuild f).mem = m.mem := rfl
@[simp] theorem Module.setGuild_asy (m : Module) (f : Guild → Guild) : (m.setGuild f).asy = m.asy := rfl
@[simp] theorem Module.setGuild_fab (m : Module) (f : Guild → Guild) : (m.setGuild f).fab = m.fab := rfl
@[simp] theorem Module.setGuild_guild (m : Module) (f : Guild → Guild) : (m.setGuild f).guild = f m.guild := rfl
@[simp] theorem Module.setGuild_ctr (m : Module) (f : Guild → Guild) : (m.setGuild f).ctr = m.ctr := rfl
@[simp] theorem Module.setGuild_ptns (m : Module) (f : Guild → Guild) : (m.setGuild f).ptns = m.ptns := rfl
@[simp] theorem Module.setGuild_halls (m : Module) (f : Guild → Guild) : (m.setGuild f).halls = m.halls := rfl
@[simp] theorem Module.setGuild_benches (m : Module) (f : Guild → Guild) : (m.setGuild f).benches = m.benches := rfl
@[simp] theorem Module.setGuild_querns (m : Module) (f : Guild → Guild) : (m.setGuild f).querns = m.querns := rfl
@[simp] theorem Module.setGuild_rwk (m : Module) (f : Guild → Guild) : (m.setGuild f).rwk = m.rwk := rfl
@[simp] theorem Module.setGuild_tables (m : Module) (f : Guild → Guild) : (m.setGuild f).tables = m.tables := rfl
@[simp] theorem Module.setGuild_xlat (m : Module) (f : Guild → Guild) : (m.setGuild f).xlat = m.xlat := rfl
@[simp] theorem Module.setGuild_heldAcc (m : Module) (f : Guild → Guild) : (m.setGuild f).heldAcc = m.heldAcc := rfl
@[simp] theorem Module.setGuild_tileBad (m : Module) (f : Guild → Guild) : (m.setGuild f).tileBad = m.tileBad := rfl
@[simp] theorem Module.setGuild_insts (m : Module) (f : Guild → Guild) : (m.setGuild f).insts = m.insts := rfl
@[simp] theorem Module.setGuild_tokens (m : Module) (f : Guild → Guild) : (m.setGuild f).tokens = m.tokens := rfl
@[simp] theorem Module.setGuild_gathers (m : Module) (f : Guild → Guild) : (m.setGuild f).gathers = m.gathers := rfl
@[simp] theorem Module.setGuild_scatters (m : Module) (f : Guild → Guild) : (m.setGuild f).scatters = m.scatters := rfl
@[simp] theorem Module.setGuild_samples (m : Module) (f : Guild → Guild) : (m.setGuild f).samples = m.samples := rfl
@[simp] theorem Module.setGuild_chains (m : Module) (f : Guild → Guild) : (m.setGuild f).chains = m.chains := rfl
@[simp] theorem Module.setGuild_hubs (m : Module) (f : Guild → Guild) : (m.setGuild f).hubs = m.hubs := rfl
@[simp] theorem Module.setGuild_groups (m : Module) (f : Guild → Guild) : (m.setGuild f).groups = m.groups := rfl
@[simp] theorem Module.setGuild_nextInst (m : Module) (f : Guild → Guild) : (m.setGuild f).nextInst = m.nextInst := rfl
@[simp] theorem Module.setGuild_instLog (m : Module) (f : Guild → Guild) : (m.setGuild f).instLog = m.instLog := rfl
@[simp] theorem Module.setGuild_nextSerial (m : Module) (f : Guild → Guild) : (m.setGuild f).nextSerial = m.nextSerial := rfl
@[simp] theorem Module.setGuild_nextBuf (m : Module) (f : Guild → Guild) : (m.setGuild f).nextBuf = m.nextBuf := rfl
@[simp] theorem Module.setGuild_nextHandle (m : Module) (f : Guild → Guild) : (m.setGuild f).nextHandle = m.nextHandle := rfl
@[simp] theorem Module.setGuild_stamp (m : Module) (f : Guild → Guild) : (m.setGuild f).stamp = m.stamp := rfl
@[simp] theorem Module.setGuild_free (m : Module) (f : Guild → Guild) : (m.setGuild f).free = m.free := rfl
@[simp] theorem Module.setGuild_sent (m : Module) (f : Guild → Guild) : (m.setGuild f).sent = m.sent := rfl

@[simp] theorem Module.setFab_pwr (m : Module) (f : Fabric → Fabric) : (m.setFab f).pwr = m.pwr := rfl
@[simp] theorem Module.setFab_ltime (m : Module) (f : Fabric → Fabric) : (m.setFab f).ltime = m.ltime := rfl
@[simp] theorem Module.setFab_regs (m : Module) (f : Fabric → Fabric) : (m.setFab f).regs = m.regs := rfl
@[simp] theorem Module.setFab_mem (m : Module) (f : Fabric → Fabric) : (m.setFab f).mem = m.mem := rfl
@[simp] theorem Module.setFab_asy (m : Module) (f : Fabric → Fabric) : (m.setFab f).asy = m.asy := rfl
@[simp] theorem Module.setFab_fab (m : Module) (f : Fabric → Fabric) : (m.setFab f).fab = f m.fab := rfl
@[simp] theorem Module.setFab_guild (m : Module) (f : Fabric → Fabric) : (m.setFab f).guild = m.guild := rfl
@[simp] theorem Module.setFab_ctr (m : Module) (f : Fabric → Fabric) : (m.setFab f).ctr = m.ctr := rfl
@[simp] theorem Module.setFab_ptns (m : Module) (f : Fabric → Fabric) : (m.setFab f).ptns = m.ptns := rfl
@[simp] theorem Module.setFab_halls (m : Module) (f : Fabric → Fabric) : (m.setFab f).halls = m.halls := rfl
@[simp] theorem Module.setFab_benches (m : Module) (f : Fabric → Fabric) : (m.setFab f).benches = m.benches := rfl
@[simp] theorem Module.setFab_querns (m : Module) (f : Fabric → Fabric) : (m.setFab f).querns = m.querns := rfl
@[simp] theorem Module.setFab_rwk (m : Module) (f : Fabric → Fabric) : (m.setFab f).rwk = m.rwk := rfl
@[simp] theorem Module.setFab_tables (m : Module) (f : Fabric → Fabric) : (m.setFab f).tables = m.tables := rfl
@[simp] theorem Module.setFab_xlat (m : Module) (f : Fabric → Fabric) : (m.setFab f).xlat = m.xlat := rfl
@[simp] theorem Module.setFab_heldAcc (m : Module) (f : Fabric → Fabric) : (m.setFab f).heldAcc = m.heldAcc := rfl
@[simp] theorem Module.setFab_tileBad (m : Module) (f : Fabric → Fabric) : (m.setFab f).tileBad = m.tileBad := rfl
@[simp] theorem Module.setFab_insts (m : Module) (f : Fabric → Fabric) : (m.setFab f).insts = m.insts := rfl
@[simp] theorem Module.setFab_tokens (m : Module) (f : Fabric → Fabric) : (m.setFab f).tokens = m.tokens := rfl
@[simp] theorem Module.setFab_gathers (m : Module) (f : Fabric → Fabric) : (m.setFab f).gathers = m.gathers := rfl
@[simp] theorem Module.setFab_scatters (m : Module) (f : Fabric → Fabric) : (m.setFab f).scatters = m.scatters := rfl
@[simp] theorem Module.setFab_samples (m : Module) (f : Fabric → Fabric) : (m.setFab f).samples = m.samples := rfl
@[simp] theorem Module.setFab_chains (m : Module) (f : Fabric → Fabric) : (m.setFab f).chains = m.chains := rfl
@[simp] theorem Module.setFab_hubs (m : Module) (f : Fabric → Fabric) : (m.setFab f).hubs = m.hubs := rfl
@[simp] theorem Module.setFab_groups (m : Module) (f : Fabric → Fabric) : (m.setFab f).groups = m.groups := rfl
@[simp] theorem Module.setFab_nextInst (m : Module) (f : Fabric → Fabric) : (m.setFab f).nextInst = m.nextInst := rfl
@[simp] theorem Module.setFab_instLog (m : Module) (f : Fabric → Fabric) : (m.setFab f).instLog = m.instLog := rfl
@[simp] theorem Module.setFab_nextSerial (m : Module) (f : Fabric → Fabric) : (m.setFab f).nextSerial = m.nextSerial := rfl
@[simp] theorem Module.setFab_nextBuf (m : Module) (f : Fabric → Fabric) : (m.setFab f).nextBuf = m.nextBuf := rfl
@[simp] theorem Module.setFab_nextHandle (m : Module) (f : Fabric → Fabric) : (m.setFab f).nextHandle = m.nextHandle := rfl
@[simp] theorem Module.setFab_stamp (m : Module) (f : Fabric → Fabric) : (m.setFab f).stamp = m.stamp := rfl
@[simp] theorem Module.setFab_free (m : Module) (f : Fabric → Fabric) : (m.setFab f).free = m.free := rfl
@[simp] theorem Module.setFab_sent (m : Module) (f : Fabric → Fabric) : (m.setFab f).sent = m.sent := rfl

@[simp] theorem Module.setPwr_pwr (m : Module) (f : Power → Power) : (m.setPwr f).pwr = f m.pwr := rfl
@[simp] theorem Module.setPwr_ltime (m : Module) (f : Power → Power) : (m.setPwr f).ltime = m.ltime := rfl
@[simp] theorem Module.setPwr_regs (m : Module) (f : Power → Power) : (m.setPwr f).regs = m.regs := rfl
@[simp] theorem Module.setPwr_mem (m : Module) (f : Power → Power) : (m.setPwr f).mem = m.mem := rfl
@[simp] theorem Module.setPwr_asy (m : Module) (f : Power → Power) : (m.setPwr f).asy = m.asy := rfl
@[simp] theorem Module.setPwr_fab (m : Module) (f : Power → Power) : (m.setPwr f).fab = m.fab := rfl
@[simp] theorem Module.setPwr_guild (m : Module) (f : Power → Power) : (m.setPwr f).guild = m.guild := rfl
@[simp] theorem Module.setPwr_ctr (m : Module) (f : Power → Power) : (m.setPwr f).ctr = m.ctr := rfl
@[simp] theorem Module.setPwr_ptns (m : Module) (f : Power → Power) : (m.setPwr f).ptns = m.ptns := rfl
@[simp] theorem Module.setPwr_halls (m : Module) (f : Power → Power) : (m.setPwr f).halls = m.halls := rfl
@[simp] theorem Module.setPwr_benches (m : Module) (f : Power → Power) : (m.setPwr f).benches = m.benches := rfl
@[simp] theorem Module.setPwr_querns (m : Module) (f : Power → Power) : (m.setPwr f).querns = m.querns := rfl
@[simp] theorem Module.setPwr_rwk (m : Module) (f : Power → Power) : (m.setPwr f).rwk = m.rwk := rfl
@[simp] theorem Module.setPwr_tables (m : Module) (f : Power → Power) : (m.setPwr f).tables = m.tables := rfl
@[simp] theorem Module.setPwr_xlat (m : Module) (f : Power → Power) : (m.setPwr f).xlat = m.xlat := rfl
@[simp] theorem Module.setPwr_heldAcc (m : Module) (f : Power → Power) : (m.setPwr f).heldAcc = m.heldAcc := rfl
@[simp] theorem Module.setPwr_tileBad (m : Module) (f : Power → Power) : (m.setPwr f).tileBad = m.tileBad := rfl
@[simp] theorem Module.setPwr_insts (m : Module) (f : Power → Power) : (m.setPwr f).insts = m.insts := rfl
@[simp] theorem Module.setPwr_tokens (m : Module) (f : Power → Power) : (m.setPwr f).tokens = m.tokens := rfl
@[simp] theorem Module.setPwr_gathers (m : Module) (f : Power → Power) : (m.setPwr f).gathers = m.gathers := rfl
@[simp] theorem Module.setPwr_scatters (m : Module) (f : Power → Power) : (m.setPwr f).scatters = m.scatters := rfl
@[simp] theorem Module.setPwr_samples (m : Module) (f : Power → Power) : (m.setPwr f).samples = m.samples := rfl
@[simp] theorem Module.setPwr_chains (m : Module) (f : Power → Power) : (m.setPwr f).chains = m.chains := rfl
@[simp] theorem Module.setPwr_hubs (m : Module) (f : Power → Power) : (m.setPwr f).hubs = m.hubs := rfl
@[simp] theorem Module.setPwr_groups (m : Module) (f : Power → Power) : (m.setPwr f).groups = m.groups := rfl
@[simp] theorem Module.setPwr_nextInst (m : Module) (f : Power → Power) : (m.setPwr f).nextInst = m.nextInst := rfl
@[simp] theorem Module.setPwr_instLog (m : Module) (f : Power → Power) : (m.setPwr f).instLog = m.instLog := rfl
@[simp] theorem Module.setPwr_nextSerial (m : Module) (f : Power → Power) : (m.setPwr f).nextSerial = m.nextSerial := rfl
@[simp] theorem Module.setPwr_nextBuf (m : Module) (f : Power → Power) : (m.setPwr f).nextBuf = m.nextBuf := rfl
@[simp] theorem Module.setPwr_nextHandle (m : Module) (f : Power → Power) : (m.setPwr f).nextHandle = m.nextHandle := rfl
@[simp] theorem Module.setPwr_stamp (m : Module) (f : Power → Power) : (m.setPwr f).stamp = m.stamp := rfl
@[simp] theorem Module.setPwr_free (m : Module) (f : Power → Power) : (m.setPwr f).free = m.free := rfl
@[simp] theorem Module.setPwr_sent (m : Module) (f : Power → Power) : (m.setPwr f).sent = m.sent := rfl

@[simp] theorem Module.setRwk_pwr (m : Module) (f : Ropewalk → Ropewalk) : (m.setRwk f).pwr = m.pwr := rfl
@[simp] theorem Module.setRwk_ltime (m : Module) (f : Ropewalk → Ropewalk) : (m.setRwk f).ltime = m.ltime := rfl
@[simp] theorem Module.setRwk_regs (m : Module) (f : Ropewalk → Ropewalk) : (m.setRwk f).regs = m.regs := rfl
@[simp] theorem Module.setRwk_mem (m : Module) (f : Ropewalk → Ropewalk) : (m.setRwk f).mem = m.mem := rfl
@[simp] theorem Module.setRwk_asy (m : Module) (f : Ropewalk → Ropewalk) : (m.setRwk f).asy = m.asy := rfl
@[simp] theorem Module.setRwk_fab (m : Module) (f : Ropewalk → Ropewalk) : (m.setRwk f).fab = m.fab := rfl
@[simp] theorem Module.setRwk_guild (m : Module) (f : Ropewalk → Ropewalk) : (m.setRwk f).guild = m.guild := rfl
@[simp] theorem Module.setRwk_ctr (m : Module) (f : Ropewalk → Ropewalk) : (m.setRwk f).ctr = m.ctr := rfl
@[simp] theorem Module.setRwk_ptns (m : Module) (f : Ropewalk → Ropewalk) : (m.setRwk f).ptns = m.ptns := rfl
@[simp] theorem Module.setRwk_halls (m : Module) (f : Ropewalk → Ropewalk) : (m.setRwk f).halls = m.halls := rfl
@[simp] theorem Module.setRwk_benches (m : Module) (f : Ropewalk → Ropewalk) : (m.setRwk f).benches = m.benches := rfl
@[simp] theorem Module.setRwk_querns (m : Module) (f : Ropewalk → Ropewalk) : (m.setRwk f).querns = m.querns := rfl
@[simp] theorem Module.setRwk_rwk (m : Module) (f : Ropewalk → Ropewalk) : (m.setRwk f).rwk = f m.rwk := rfl
@[simp] theorem Module.setRwk_tables (m : Module) (f : Ropewalk → Ropewalk) : (m.setRwk f).tables = m.tables := rfl
@[simp] theorem Module.setRwk_xlat (m : Module) (f : Ropewalk → Ropewalk) : (m.setRwk f).xlat = m.xlat := rfl
@[simp] theorem Module.setRwk_heldAcc (m : Module) (f : Ropewalk → Ropewalk) : (m.setRwk f).heldAcc = m.heldAcc := rfl
@[simp] theorem Module.setRwk_tileBad (m : Module) (f : Ropewalk → Ropewalk) : (m.setRwk f).tileBad = m.tileBad := rfl
@[simp] theorem Module.setRwk_insts (m : Module) (f : Ropewalk → Ropewalk) : (m.setRwk f).insts = m.insts := rfl
@[simp] theorem Module.setRwk_tokens (m : Module) (f : Ropewalk → Ropewalk) : (m.setRwk f).tokens = m.tokens := rfl
@[simp] theorem Module.setRwk_gathers (m : Module) (f : Ropewalk → Ropewalk) : (m.setRwk f).gathers = m.gathers := rfl
@[simp] theorem Module.setRwk_scatters (m : Module) (f : Ropewalk → Ropewalk) : (m.setRwk f).scatters = m.scatters := rfl
@[simp] theorem Module.setRwk_samples (m : Module) (f : Ropewalk → Ropewalk) : (m.setRwk f).samples = m.samples := rfl
@[simp] theorem Module.setRwk_chains (m : Module) (f : Ropewalk → Ropewalk) : (m.setRwk f).chains = m.chains := rfl
@[simp] theorem Module.setRwk_hubs (m : Module) (f : Ropewalk → Ropewalk) : (m.setRwk f).hubs = m.hubs := rfl
@[simp] theorem Module.setRwk_groups (m : Module) (f : Ropewalk → Ropewalk) : (m.setRwk f).groups = m.groups := rfl
@[simp] theorem Module.setRwk_nextInst (m : Module) (f : Ropewalk → Ropewalk) : (m.setRwk f).nextInst = m.nextInst := rfl
@[simp] theorem Module.setRwk_instLog (m : Module) (f : Ropewalk → Ropewalk) : (m.setRwk f).instLog = m.instLog := rfl
@[simp] theorem Module.setRwk_nextSerial (m : Module) (f : Ropewalk → Ropewalk) : (m.setRwk f).nextSerial = m.nextSerial := rfl
@[simp] theorem Module.setRwk_nextBuf (m : Module) (f : Ropewalk → Ropewalk) : (m.setRwk f).nextBuf = m.nextBuf := rfl
@[simp] theorem Module.setRwk_nextHandle (m : Module) (f : Ropewalk → Ropewalk) : (m.setRwk f).nextHandle = m.nextHandle := rfl
@[simp] theorem Module.setRwk_stamp (m : Module) (f : Ropewalk → Ropewalk) : (m.setRwk f).stamp = m.stamp := rfl
@[simp] theorem Module.setRwk_free (m : Module) (f : Ropewalk → Ropewalk) : (m.setRwk f).free = m.free := rfl
@[simp] theorem Module.setRwk_sent (m : Module) (f : Ropewalk → Ropewalk) : (m.setRwk f).sent = m.sent := rfl

@[simp] theorem Module.setInst_pwr (m : Module) (i : BitVec 32) (f : Inst → Inst) : (m.setInst i f).pwr = m.pwr := rfl
@[simp] theorem Module.setInst_ltime (m : Module) (i : BitVec 32) (f : Inst → Inst) : (m.setInst i f).ltime = m.ltime := rfl
@[simp] theorem Module.setInst_regs (m : Module) (i : BitVec 32) (f : Inst → Inst) : (m.setInst i f).regs = m.regs := rfl
@[simp] theorem Module.setInst_mem (m : Module) (i : BitVec 32) (f : Inst → Inst) : (m.setInst i f).mem = m.mem := rfl
@[simp] theorem Module.setInst_asy (m : Module) (i : BitVec 32) (f : Inst → Inst) : (m.setInst i f).asy = m.asy := rfl
@[simp] theorem Module.setInst_fab (m : Module) (i : BitVec 32) (f : Inst → Inst) : (m.setInst i f).fab = m.fab := rfl
@[simp] theorem Module.setInst_guild (m : Module) (i : BitVec 32) (f : Inst → Inst) : (m.setInst i f).guild = m.guild := rfl
@[simp] theorem Module.setInst_ctr (m : Module) (i : BitVec 32) (f : Inst → Inst) : (m.setInst i f).ctr = m.ctr := rfl
@[simp] theorem Module.setInst_ptns (m : Module) (i : BitVec 32) (f : Inst → Inst) : (m.setInst i f).ptns = m.ptns := rfl
@[simp] theorem Module.setInst_halls (m : Module) (i : BitVec 32) (f : Inst → Inst) : (m.setInst i f).halls = m.halls := rfl
@[simp] theorem Module.setInst_benches (m : Module) (i : BitVec 32) (f : Inst → Inst) : (m.setInst i f).benches = m.benches := rfl
@[simp] theorem Module.setInst_querns (m : Module) (i : BitVec 32) (f : Inst → Inst) : (m.setInst i f).querns = m.querns := rfl
@[simp] theorem Module.setInst_rwk (m : Module) (i : BitVec 32) (f : Inst → Inst) : (m.setInst i f).rwk = m.rwk := rfl
@[simp] theorem Module.setInst_tables (m : Module) (i : BitVec 32) (f : Inst → Inst) : (m.setInst i f).tables = m.tables := rfl
@[simp] theorem Module.setInst_xlat (m : Module) (i : BitVec 32) (f : Inst → Inst) : (m.setInst i f).xlat = m.xlat := rfl
@[simp] theorem Module.setInst_heldAcc (m : Module) (i : BitVec 32) (f : Inst → Inst) : (m.setInst i f).heldAcc = m.heldAcc := rfl
@[simp] theorem Module.setInst_tileBad (m : Module) (i : BitVec 32) (f : Inst → Inst) : (m.setInst i f).tileBad = m.tileBad := rfl
@[simp] theorem Module.setInst_insts (m : Module) (i : BitVec 32) (f : Inst → Inst) : (m.setInst i f).insts = updWhere (fun x => x.num == i) f m.insts := rfl
@[simp] theorem Module.setInst_tokens (m : Module) (i : BitVec 32) (f : Inst → Inst) : (m.setInst i f).tokens = m.tokens := rfl
@[simp] theorem Module.setInst_gathers (m : Module) (i : BitVec 32) (f : Inst → Inst) : (m.setInst i f).gathers = m.gathers := rfl
@[simp] theorem Module.setInst_scatters (m : Module) (i : BitVec 32) (f : Inst → Inst) : (m.setInst i f).scatters = m.scatters := rfl
@[simp] theorem Module.setInst_samples (m : Module) (i : BitVec 32) (f : Inst → Inst) : (m.setInst i f).samples = m.samples := rfl
@[simp] theorem Module.setInst_chains (m : Module) (i : BitVec 32) (f : Inst → Inst) : (m.setInst i f).chains = m.chains := rfl
@[simp] theorem Module.setInst_hubs (m : Module) (i : BitVec 32) (f : Inst → Inst) : (m.setInst i f).hubs = m.hubs := rfl
@[simp] theorem Module.setInst_groups (m : Module) (i : BitVec 32) (f : Inst → Inst) : (m.setInst i f).groups = m.groups := rfl
@[simp] theorem Module.setInst_nextInst (m : Module) (i : BitVec 32) (f : Inst → Inst) : (m.setInst i f).nextInst = m.nextInst := rfl
@[simp] theorem Module.setInst_instLog (m : Module) (i : BitVec 32) (f : Inst → Inst) : (m.setInst i f).instLog = m.instLog := rfl
@[simp] theorem Module.setInst_nextSerial (m : Module) (i : BitVec 32) (f : Inst → Inst) : (m.setInst i f).nextSerial = m.nextSerial := rfl
@[simp] theorem Module.setInst_nextBuf (m : Module) (i : BitVec 32) (f : Inst → Inst) : (m.setInst i f).nextBuf = m.nextBuf := rfl
@[simp] theorem Module.setInst_nextHandle (m : Module) (i : BitVec 32) (f : Inst → Inst) : (m.setInst i f).nextHandle = m.nextHandle := rfl
@[simp] theorem Module.setInst_stamp (m : Module) (i : BitVec 32) (f : Inst → Inst) : (m.setInst i f).stamp = m.stamp := rfl
@[simp] theorem Module.setInst_free (m : Module) (i : BitVec 32) (f : Inst → Inst) : (m.setInst i f).free = m.free := rfl
@[simp] theorem Module.setInst_sent (m : Module) (i : BitVec 32) (f : Inst → Inst) : (m.setInst i f).sent = m.sent := rfl

@[simp] theorem Module.until_pwr (m : Module) (t : Nat) : (m.until_ t).pwr = m.pwr := rfl
@[simp] theorem Module.until_ltime (m : Module) (t : Nat) : (m.until_ t).ltime = max m.ltime t := rfl
@[simp] theorem Module.until_regs (m : Module) (t : Nat) : (m.until_ t).regs = m.regs := rfl
@[simp] theorem Module.until_mem (m : Module) (t : Nat) : (m.until_ t).mem = m.mem := rfl
@[simp] theorem Module.until_asy (m : Module) (t : Nat) : (m.until_ t).asy = m.asy := rfl
@[simp] theorem Module.until_fab (m : Module) (t : Nat) : (m.until_ t).fab = m.fab := rfl
@[simp] theorem Module.until_guild (m : Module) (t : Nat) : (m.until_ t).guild = m.guild := rfl
@[simp] theorem Module.until_ctr (m : Module) (t : Nat) : (m.until_ t).ctr = m.ctr := rfl
@[simp] theorem Module.until_ptns (m : Module) (t : Nat) : (m.until_ t).ptns = m.ptns := rfl
@[simp] theorem Module.until_halls (m : Module) (t : Nat) : (m.until_ t).halls = m.halls := rfl
@[simp] theorem Module.until_benches (m : Module) (t : Nat) : (m.until_ t).benches = m.benches := rfl
@[simp] theorem Module.until_querns (m : Module) (t : Nat) : (m.until_ t).querns = m.querns := rfl
@[simp] theorem Module.until_rwk (m : Module) (t : Nat) : (m.until_ t).rwk = m.rwk := rfl
@[simp] theorem Module.until_tables (m : Module) (t : Nat) : (m.until_ t).tables = m.tables := rfl
@[simp] theorem Module.until_xlat (m : Module) (t : Nat) : (m.until_ t).xlat = m.xlat := rfl
@[simp] theorem Module.until_heldAcc (m : Module) (t : Nat) : (m.until_ t).heldAcc = m.heldAcc := rfl
@[simp] theorem Module.until_tileBad (m : Module) (t : Nat) : (m.until_ t).tileBad = m.tileBad := rfl
@[simp] theorem Module.until_insts (m : Module) (t : Nat) : (m.until_ t).insts = m.insts := rfl
@[simp] theorem Module.until_tokens (m : Module) (t : Nat) : (m.until_ t).tokens = m.tokens := rfl
@[simp] theorem Module.until_gathers (m : Module) (t : Nat) : (m.until_ t).gathers = m.gathers := rfl
@[simp] theorem Module.until_scatters (m : Module) (t : Nat) : (m.until_ t).scatters = m.scatters := rfl
@[simp] theorem Module.until_samples (m : Module) (t : Nat) : (m.until_ t).samples = m.samples := rfl
@[simp] theorem Module.until_chains (m : Module) (t : Nat) : (m.until_ t).chains = m.chains := rfl
@[simp] theorem Module.until_hubs (m : Module) (t : Nat) : (m.until_ t).hubs = m.hubs := rfl
@[simp] theorem Module.until_groups (m : Module) (t : Nat) : (m.until_ t).groups = m.groups := rfl
@[simp] theorem Module.until_nextInst (m : Module) (t : Nat) : (m.until_ t).nextInst = m.nextInst := rfl
@[simp] theorem Module.until_instLog (m : Module) (t : Nat) : (m.until_ t).instLog = m.instLog := rfl
@[simp] theorem Module.until_nextSerial (m : Module) (t : Nat) : (m.until_ t).nextSerial = m.nextSerial := rfl
@[simp] theorem Module.until_nextBuf (m : Module) (t : Nat) : (m.until_ t).nextBuf = m.nextBuf := rfl
@[simp] theorem Module.until_nextHandle (m : Module) (t : Nat) : (m.until_ t).nextHandle = m.nextHandle := rfl
@[simp] theorem Module.until_stamp (m : Module) (t : Nat) : (m.until_ t).stamp = m.stamp := rfl
@[simp] theorem Module.until_free (m : Module) (t : Nat) : (m.until_ t).free = m.free := rfl
@[simp] theorem Module.until_sent (m : Module) (t : Nat) : (m.until_ t).sent = m.sent := rfl

@[simp] theorem Module.send_pwr (m : Module) (o : Out) : (m.send o).pwr = m.pwr := rfl
@[simp] theorem Module.send_ltime (m : Module) (o : Out) : (m.send o).ltime = m.ltime := rfl
@[simp] theorem Module.send_regs (m : Module) (o : Out) : (m.send o).regs = m.regs := rfl
@[simp] theorem Module.send_mem (m : Module) (o : Out) : (m.send o).mem = m.mem := rfl
@[simp] theorem Module.send_asy (m : Module) (o : Out) : (m.send o).asy = m.asy := rfl
@[simp] theorem Module.send_fab (m : Module) (o : Out) : (m.send o).fab = m.fab := rfl
@[simp] theorem Module.send_guild (m : Module) (o : Out) : (m.send o).guild = m.guild := rfl
@[simp] theorem Module.send_ctr (m : Module) (o : Out) : (m.send o).ctr = m.ctr := rfl
@[simp] theorem Module.send_ptns (m : Module) (o : Out) : (m.send o).ptns = m.ptns := rfl
@[simp] theorem Module.send_halls (m : Module) (o : Out) : (m.send o).halls = m.halls := rfl
@[simp] theorem Module.send_benches (m : Module) (o : Out) : (m.send o).benches = m.benches := rfl
@[simp] theorem Module.send_querns (m : Module) (o : Out) : (m.send o).querns = m.querns := rfl
@[simp] theorem Module.send_rwk (m : Module) (o : Out) : (m.send o).rwk = m.rwk := rfl
@[simp] theorem Module.send_tables (m : Module) (o : Out) : (m.send o).tables = m.tables := rfl
@[simp] theorem Module.send_xlat (m : Module) (o : Out) : (m.send o).xlat = m.xlat := rfl
@[simp] theorem Module.send_heldAcc (m : Module) (o : Out) : (m.send o).heldAcc = m.heldAcc := rfl
@[simp] theorem Module.send_tileBad (m : Module) (o : Out) : (m.send o).tileBad = m.tileBad := rfl
@[simp] theorem Module.send_insts (m : Module) (o : Out) : (m.send o).insts = m.insts := rfl
@[simp] theorem Module.send_tokens (m : Module) (o : Out) : (m.send o).tokens = m.tokens := rfl
@[simp] theorem Module.send_gathers (m : Module) (o : Out) : (m.send o).gathers = m.gathers := rfl
@[simp] theorem Module.send_scatters (m : Module) (o : Out) : (m.send o).scatters = m.scatters := rfl
@[simp] theorem Module.send_samples (m : Module) (o : Out) : (m.send o).samples = m.samples := rfl
@[simp] theorem Module.send_chains (m : Module) (o : Out) : (m.send o).chains = m.chains := rfl
@[simp] theorem Module.send_hubs (m : Module) (o : Out) : (m.send o).hubs = m.hubs := rfl
@[simp] theorem Module.send_groups (m : Module) (o : Out) : (m.send o).groups = m.groups := rfl
@[simp] theorem Module.send_nextInst (m : Module) (o : Out) : (m.send o).nextInst = m.nextInst := rfl
@[simp] theorem Module.send_instLog (m : Module) (o : Out) : (m.send o).instLog = m.instLog := rfl
@[simp] theorem Module.send_nextSerial (m : Module) (o : Out) : (m.send o).nextSerial = m.nextSerial := rfl
@[simp] theorem Module.send_nextBuf (m : Module) (o : Out) : (m.send o).nextBuf = m.nextBuf := rfl
@[simp] theorem Module.send_nextHandle (m : Module) (o : Out) : (m.send o).nextHandle = m.nextHandle := rfl
@[simp] theorem Module.send_stamp (m : Module) (o : Out) : (m.send o).stamp = m.stamp := rfl
@[simp] theorem Module.send_free (m : Module) (o : Out) : (m.send o).free = m.free := rfl
@[simp] theorem Module.send_sent (m : Module) (o : Out) : (m.send o).sent = m.sent ++ [o] := rfl

end Sys2Proof.Machine
end

