-- ==== Sys2Proof/Laws/Completes.lean ====
section
/-! SUPPORT. How a claim about a command comes down to its effect on the module. -/
namespace Sys2Proof.Machine

theorem completes_of_on {c : Instr} {f : Module → Module} (h : ∀ s, exec c s = s.on f) {m : Module} {P : Module → Prop}
    (hp : P (f m)) : Completes c m P := fun q => ⟨f m, by rw [h]; rfl, hp⟩

theorem leaves_of_on {c : Instr} {f : Module → Module} (h : ∀ s, exec c s = s.on f) {m m' : Module}
    (hp : f m = m') : Leaves c m m' := fun q => by rw [h, ← hp]; rfl

theorem Completes.mono {c : Instr} {m : Module} {P Q : Module → Prop} (h : Completes c m P) (hpq : ∀ m', P m' → Q m') :
    Completes c m Q := fun q => by obtain ⟨m', he, hp⟩ := h q; exact ⟨m', he, hpq m' hp⟩

/-- A notice posted for every queue pair, whatever else the send of an in-band interrupt adds. -/
theorem postsOne_post (m : Module) (code : Nat) (ptn : Option Nat) (obj : Nat) (detail : List Byte) :
    PostsOne m (m.post code ptn obj detail) (sevOf code) code ptn obj detail := by
  unfold PostsOne Module.post Module.postBut
  dsimp only
  split <;> exact ⟨rfl, rfl⟩

end Sys2Proof.Machine
end

