-- ==== Sys2Proof/Laws/Memory.lean ====
section
/-! SUPPORT. The laws of sparse maps, of memory and of the register map: read after write, and the canonical form. -/
namespace Sys2Proof.Machine

section Sparse
variable {β : Type} [DecidableEq β] {d : Nat → β}

omit [DecidableEq β] in
/-- A key that no entry reaches reads as its default. -/
theorem sparseGet_below {l : List (Nat × β)} {k : Nat} (h : ∀ c ∈ l, k < c.1) : sparseGet d l k = d k := by
  induction l with
  | nil => rfl
  | cons c t ih =>
    have hc := h c (List.mem_cons_self ..)
    rw [sparseGet, if_neg (Nat.ne_of_gt hc)]
    exact ih fun x hx => h x (List.mem_cons_of_mem _ hx)

theorem SparseWf.tail {c : Nat × β} {t : List (Nat × β)} (h : SparseWf d (c :: t)) : SparseWf d t :=
  ⟨(List.pairwise_cons.mp h.1).2, fun x hx => h.2 x (List.mem_cons_of_mem _ hx)⟩

theorem SparseWf.head_lt {c : Nat × β} {t : List (Nat × β)} (h : SparseWf d (c :: t)) : ∀ x ∈ t, c.1 < x.1 := fun x hx =>
  (List.pairwise_cons.mp h.1).1 x.1 (List.mem_map_of_mem hx)

theorem SparseWf.cons {c : Nat × β} {t : List (Nat × β)} (h : SparseWf d t) (hlt : ∀ x ∈ t, c.1 < x.1) (hd : c.2 ≠ d c.1) :
    SparseWf d (c :: t) := by
  refine ⟨?_, ?_⟩
  · rw [List.map_cons, List.pairwise_cons]
    refine ⟨?_, h.1⟩
    intro k hk
    obtain ⟨x, hx, rfl⟩ := List.mem_map.mp hk
    exact hlt x hx
  · intro x hx
    rcases List.mem_cons.mp hx with rfl | hx
    · exact hd
    · exact h.2 x hx

/-- An entry of a map after a write is the one written, or was there before. -/
theorem mem_sparsePut {l : List (Nat × β)} {k : Nat} {v : β} {c : Nat × β} (h : c ∈ sparsePut d l k v) : c = (k, v) ∨ c ∈ l := by
  induction l with
  | nil =>
    unfold sparsePut at h
    split at h
    · cases h
    · exact .inl (List.mem_singleton.mp h)
  | cons a t ih =>
    obtain ⟨k', v'⟩ := a
    unfold sparsePut at h
    split at h
    · split at h
      · exact .inr h
      · rcases List.mem_cons.mp h with h | h
        · exact .inl h
        · exact .inr h
    · split at h
      · split at h
        · exact .inr (List.mem_cons_of_mem _ h)
        · rcases List.mem_cons.mp h with h | h
          · exact .inl h
          · exact .inr (List.mem_cons_of_mem _ h)
      · rcases List.mem_cons.mp h with h | h
        · exact .inr (h ▸ List.mem_cons_self ..)
        · rcases ih h with h | h
          · exact .inl h
          · exact .inr (List.mem_cons_of_mem _ h)

/-- A write keeps the canonical form. -/
theorem sparsePut_wf {l : List (Nat × β)} (h : SparseWf d l) (k : Nat) (v : β) : SparseWf d (sparsePut d l k v) := by
  induction l with
  | nil =>
    unfold sparsePut
    split
    · exact h
    · exact SparseWf.cons h (fun x hx => by cases hx) (by assumption)
  | cons a t ih =>
    obtain ⟨k', v'⟩ := a
    have hlt := h.head_lt
    have ht := h.tail
    unfold sparsePut
    split
    · split
      · exact h
      · refine SparseWf.cons h ?_ (by assumption)
        intro x hx
        rcases List.mem_cons.mp hx with rfl | hx
        · assumption
        · exact Nat.lt_trans (by assumption) (hlt x hx)
    · split
      · split
        · exact ht
        · refine SparseWf.cons ht ?_ (by assumption)
          intro x hx
          have := hlt x hx
          simp only at this ⊢
          omega
      · refine SparseWf.cons (ih ht) ?_ (h.2 (k', v') (List.mem_cons_self ..))
        intro x hx
        rcases mem_sparsePut hx with rfl | hx
        · simp only; omega
        · exact hlt x hx

/-- What a write leaves: the value under its key, and every other key as it was. -/
theorem sparseGet_put {l : List (Nat × β)} (h : SparseWf d l) (k j : Nat) (v : β) :
    sparseGet d (sparsePut d l k v) j = if j = k then v else sparseGet d l j := by
  induction l with
  | nil =>
    unfold sparsePut
    by_cases hv : v = d k
    · rw [if_pos hv]; split
      · next e => subst e; exact hv.symm
      · rfl
    · rw [if_neg hv]
      simp only [sparseGet]
      by_cases e : k = j
      · rw [if_pos e, if_pos e.symm]
      · rw [if_neg e, if_neg (Ne.symm e)]
  | cons a t ih =>
    obtain ⟨k', v'⟩ := a
    have hlt := h.head_lt
    unfold sparsePut
    split
    · next hk =>
      have hb : ∀ c ∈ (k', v') :: t, k < c.1 := by
        intro c hc
        rcases List.mem_cons.mp hc with rfl | hc
        · exact hk
        · exact Nat.lt_trans hk (hlt c hc)
      by_cases hv : v = d k
      · rw [if_pos hv]; split
        · next e => subst e; rw [sparseGet_below hb]; exact hv.symm
        · rfl
      · rw [if_neg hv]
        simp only [sparseGet]
        by_cases e : k = j
        · rw [if_pos e, if_pos e.symm]
        · rw [if_neg e, if_neg (Ne.symm e)]
    · split
      · next hk he =>
        subst he
        by_cases hv : v = d k
        · rw [if_pos hv]; split
          · next e => subst e; rw [sparseGet_below (fun c hc => hlt c hc)]; exact hv.symm
          · next e => rw [sparseGet, if_neg (Ne.symm e)]
        · rw [if_neg hv]
          simp only [sparseGet]
          by_cases e : k = j
          · rw [if_pos e, if_pos e.symm]
          · rw [if_neg e, if_neg (Ne.symm e), if_neg e]
      · next hk he =>
        simp only [sparseGet]
        by_cases e : k' = j
        · subst e; rw [if_pos rfl, if_neg (Ne.symm he), if_pos rfl]
        · rw [if_neg e, ih h.tail, if_neg e]

/-- What passes a filter keeps the canonical form. -/
theorem SparseWf.filter {l : List (Nat × β)} (h : SparseWf d l) (p : Nat × β → Bool) : SparseWf d (l.filter p) :=
  ⟨List.Pairwise.sublist (List.filter_sublist.map _) h.1, fun c hc => h.2 c (List.mem_filter.mp hc).1⟩

theorem SparseWf.foldl {α : Type} {f : List (Nat × β) → α → List (Nat × β)} (hf : ∀ l x, SparseWf d l → SparseWf d (f l x))
    {l : List (Nat × β)} (h : SparseWf d l) (xs : List α) : SparseWf d (xs.foldl f l) := by
  induction xs generalizing l with
  | nil => exact h
  | cons x t ih => exact ih (hf l x h)

theorem sparseWf_nil : SparseWf d [] := ⟨List.Pairwise.nil, fun c hc => by cases hc⟩

end Sparse

/-! ### Memory -/

theorem Memory.write_wf {mem : Memory} (h : mem.wf) (k : Nat) (b : Byte) : (mem.write k b).wf := sparsePut_wf h k b

theorem Memory.writeN_wf {mem : Memory} (h : mem.wf) (k : Nat) (bs : List Byte) : (mem.writeN k bs).wf := by
  induction bs generalizing mem k with
  | nil => exact h
  | cons b t ih => exact ih (Memory.write_wf h k b) (k + 1)

theorem Memory.zero_wf {mem : Memory} (h : mem.wf) (lo hi : Nat) : (mem.zero lo hi).wf := SparseWf.filter h _

theorem Memory.copy_wf {mem : Memory} (h : mem.wf) (src dst n : Nat) : (mem.copy src dst n).wf :=
  SparseWf.foldl (fun _ _ hl => Memory.write_wf hl _ _) (Memory.zero_wf h _ _) _

/-- Read after write: the byte written, and every other byte as it was. -/
theorem Memory.read_write {mem : Memory} (h : mem.wf) (k j : Nat) (b : Byte) :
    (mem.write k b).read j = if j = k then b else mem.read j := sparseGet_put h k j b

/-! ### The register map -/

theorem Module.setReg_wf {m : Module} (h : SparseWf regDefault m.regs) (a : Nat) (w : Word) :
    SparseWf regDefault (m.setReg a w).regs := sparsePut_wf h a w

theorem Module.reg_setReg {m : Module} (h : SparseWf regDefault m.regs) (a b : Nat) (w : Word) :
    (m.setReg a w).reg b = if b = a then w else m.reg b := sparseGet_put h a b w

end Sys2Proof.Machine
end

