-- ==== Sys2Proof/Laws/Ops.lean ====
section
/-! SUPPORT. What the shared operations of Ops leave as it is: one lemma per field and operation. -/
namespace Sys2Proof.Machine

/-- What every step of a fold leaves as it is, the fold leaves as it is. -/
theorem foldl_stands {α β γ : Type} {g : β → γ} {f : β → α → β} (l : List α) (h : ∀ b a, g (f b a) = g b) {b : β} :
    g (l.foldl f b) = g b := by
  induction l generalizing b with
  | nil => rfl
  | cons x t ih => exact ih.trans (h b x)

@[simp] theorem Module.setFld_pwr (m : Module) (a lo w v : Nat) : (m.setFld a lo w v).pwr = m.pwr := rfl
@[simp] theorem Module.setFld_ltime (m : Module) (a lo w v : Nat) : (m.setFld a lo w v).ltime = m.ltime := rfl
@[simp] theorem Module.setFld_mem (m : Module) (a lo w v : Nat) : (m.setFld a lo w v).mem = m.mem := rfl
@[simp] theorem Module.setFld_asy (m : Module) (a lo w v : Nat) : (m.setFld a lo w v).asy = m.asy := rfl
@[simp] theorem Module.setFld_fab (m : Module) (a lo w v : Nat) : (m.setFld a lo w v).fab = m.fab := rfl
@[simp] theorem Module.setFld_guild (m : Module) (a lo w v : Nat) : (m.setFld a lo w v).guild = m.guild := rfl
@[simp] theorem Module.setFld_ctr (m : Module) (a lo w v : Nat) : (m.setFld a lo w v).ctr = m.ctr := rfl
@[simp] theorem Module.setFld_ptns (m : Module) (a lo w v : Nat) : (m.setFld a lo w v).ptns = m.ptns := rfl
@[simp] theorem Module.setFld_halls (m : Module) (a lo w v : Nat) : (m.setFld a lo w v).halls = m.halls := rfl
@[simp] theorem Module.setFld_benches (m : Module) (a lo w v : Nat) : (m.setFld a lo w v).benches = m.benches := rfl
@[simp] theorem Module.setFld_querns (m : Module) (a lo w v : Nat) : (m.setFld a lo w v).querns = m.querns := rfl
@[simp] theorem Module.setFld_rwk (m : Module) (a lo w v : Nat) : (m.setFld a lo w v).rwk = m.rwk := rfl
@[simp] theorem Module.setFld_tables (m : Module) (a lo w v : Nat) : (m.setFld a lo w v).tables = m.tables := rfl
@[simp] theorem Module.setFld_xlat (m : Module) (a lo w v : Nat) : (m.setFld a lo w v).xlat = m.xlat := rfl
@[simp] theorem Module.setFld_heldAcc (m : Module) (a lo w v : Nat) : (m.setFld a lo w v).heldAcc = m.heldAcc := rfl
@[simp] theorem Module.setFld_tileBad (m : Module) (a lo w v : Nat) : (m.setFld a lo w v).tileBad = m.tileBad := rfl
@[simp] theorem Module.setFld_insts (m : Module) (a lo w v : Nat) : (m.setFld a lo w v).insts = m.insts := rfl
@[simp] theorem Module.setFld_tokens (m : Module) (a lo w v : Nat) : (m.setFld a lo w v).tokens = m.tokens := rfl
@[simp] theorem Module.setFld_gathers (m : Module) (a lo w v : Nat) : (m.setFld a lo w v).gathers = m.gathers := rfl
@[simp] theorem Module.setFld_scatters (m : Module) (a lo w v : Nat) : (m.setFld a lo w v).scatters = m.scatters := rfl
@[simp] theorem Module.setFld_samples (m : Module) (a lo w v : Nat) : (m.setFld a lo w v).samples = m.samples := rfl
@[simp] theorem Module.setFld_chains (m : Module) (a lo w v : Nat) : (m.setFld a lo w v).chains = m.chains := rfl
@[simp] theorem Module.setFld_hubs (m : Module) (a lo w v : Nat) : (m.setFld a lo w v).hubs = m.hubs := rfl
@[simp] theorem Module.setFld_groups (m : Module) (a lo w v : Nat) : (m.setFld a lo w v).groups = m.groups := rfl
@[simp] theorem Module.setFld_nextInst (m : Module) (a lo w v : Nat) : (m.setFld a lo w v).nextInst = m.nextInst := rfl
@[simp] theorem Module.setFld_instLog (m : Module) (a lo w v : Nat) : (m.setFld a lo w v).instLog = m.instLog := rfl
@[simp] theorem Module.setFld_nextSerial (m : Module) (a lo w v : Nat) : (m.setFld a lo w v).nextSerial = m.nextSerial := rfl
@[simp] theorem Module.setFld_nextBuf (m : Module) (a lo w v : Nat) : (m.setFld a lo w v).nextBuf = m.nextBuf := rfl
@[simp] theorem Module.setFld_nextHandle (m : Module) (a lo w v : Nat) : (m.setFld a lo w v).nextHandle = m.nextHandle := rfl
@[simp] theorem Module.setFld_stamp (m : Module) (a lo w v : Nat) : (m.setFld a lo w v).stamp = m.stamp := rfl
@[simp] theorem Module.setFld_free (m : Module) (a lo w v : Nat) : (m.setFld a lo w v).free = m.free := rfl
@[simp] theorem Module.setFld_sent (m : Module) (a lo w v : Nat) : (m.setFld a lo w v).sent = m.sent := rfl

@[simp] theorem Module.count_pwr (m : Module) (a lo w n : Nat) : (m.count a lo w n).pwr = m.pwr := rfl
@[simp] theorem Module.count_ltime (m : Module) (a lo w n : Nat) : (m.count a lo w n).ltime = m.ltime := rfl
@[simp] theorem Module.count_mem (m : Module) (a lo w n : Nat) : (m.count a lo w n).mem = m.mem := rfl
@[simp] theorem Module.count_asy (m : Module) (a lo w n : Nat) : (m.count a lo w n).asy = m.asy := rfl
@[simp] theorem Module.count_fab (m : Module) (a lo w n : Nat) : (m.count a lo w n).fab = m.fab := rfl
@[simp] theorem Module.count_guild (m : Module) (a lo w n : Nat) : (m.count a lo w n).guild = m.guild := rfl
@[simp] theorem Module.count_ctr (m : Module) (a lo w n : Nat) : (m.count a lo w n).ctr = m.ctr := rfl
@[simp] theorem Module.count_ptns (m : Module) (a lo w n : Nat) : (m.count a lo w n).ptns = m.ptns := rfl
@[simp] theorem Module.count_halls (m : Module) (a lo w n : Nat) : (m.count a lo w n).halls = m.halls := rfl
@[simp] theorem Module.count_benches (m : Module) (a lo w n : Nat) : (m.count a lo w n).benches = m.benches := rfl
@[simp] theorem Module.count_querns (m : Module) (a lo w n : Nat) : (m.count a lo w n).querns = m.querns := rfl
@[simp] theorem Module.count_rwk (m : Module) (a lo w n : Nat) : (m.count a lo w n).rwk = m.rwk := rfl
@[simp] theorem Module.count_tables (m : Module) (a lo w n : Nat) : (m.count a lo w n).tables = m.tables := rfl
@[simp] theorem Module.count_xlat (m : Module) (a lo w n : Nat) : (m.count a lo w n).xlat = m.xlat := rfl
@[simp] theorem Module.count_heldAcc (m : Module) (a lo w n : Nat) : (m.count a lo w n).heldAcc = m.heldAcc := rfl
@[simp] theorem Module.count_tileBad (m : Module) (a lo w n : Nat) : (m.count a lo w n).tileBad = m.tileBad := rfl
@[simp] theorem Module.count_insts (m : Module) (a lo w n : Nat) : (m.count a lo w n).insts = m.insts := rfl
@[simp] theorem Module.count_tokens (m : Module) (a lo w n : Nat) : (m.count a lo w n).tokens = m.tokens := rfl
@[simp] theorem Module.count_gathers (m : Module) (a lo w n : Nat) : (m.count a lo w n).gathers = m.gathers := rfl
@[simp] theorem Module.count_scatters (m : Module) (a lo w n : Nat) : (m.count a lo w n).scatters = m.scatters := rfl
@[simp] theorem Module.count_samples (m : Module) (a lo w n : Nat) : (m.count a lo w n).samples = m.samples := rfl
@[simp] theorem Module.count_chains (m : Module) (a lo w n : Nat) : (m.count a lo w n).chains = m.chains := rfl
@[simp] theorem Module.count_hubs (m : Module) (a lo w n : Nat) : (m.count a lo w n).hubs = m.hubs := rfl
@[simp] theorem Module.count_groups (m : Module) (a lo w n : Nat) : (m.count a lo w n).groups = m.groups := rfl
@[simp] theorem Module.count_nextInst (m : Module) (a lo w n : Nat) : (m.count a lo w n).nextInst = m.nextInst := rfl
@[simp] theorem Module.count_instLog (m : Module) (a lo w n : Nat) : (m.count a lo w n).instLog = m.instLog := rfl
@[simp] theorem Module.count_nextSerial (m : Module) (a lo w n : Nat) : (m.count a lo w n).nextSerial = m.nextSerial := rfl
@[simp] theorem Module.count_nextBuf (m : Module) (a lo w n : Nat) : (m.count a lo w n).nextBuf = m.nextBuf := rfl
@[simp] theorem Module.count_nextHandle (m : Module) (a lo w n : Nat) : (m.count a lo w n).nextHandle = m.nextHandle := rfl
@[simp] theorem Module.count_stamp (m : Module) (a lo w n : Nat) : (m.count a lo w n).stamp = m.stamp := rfl
@[simp] theorem Module.count_free (m : Module) (a lo w n : Nat) : (m.count a lo w n).free = m.free := rfl
@[simp] theorem Module.count_sent (m : Module) (a lo w n : Nat) : (m.count a lo w n).sent = m.sent := rfl

@[simp] theorem Module.setQp_pwr (m : Module) (n : Nat) (f : QueuePair → QueuePair) : (m.setQp n f).pwr = m.pwr := rfl
@[simp] theorem Module.setQp_ltime (m : Module) (n : Nat) (f : QueuePair → QueuePair) : (m.setQp n f).ltime = m.ltime := rfl
@[simp] theorem Module.setQp_regs (m : Module) (n : Nat) (f : QueuePair → QueuePair) : (m.setQp n f).regs = m.regs := rfl
@[simp] theorem Module.setQp_mem (m : Module) (n : Nat) (f : QueuePair → QueuePair) : (m.setQp n f).mem = m.mem := rfl
@[simp] theorem Module.setQp_asy (m : Module) (n : Nat) (f : QueuePair → QueuePair) : (m.setQp n f).asy = m.asy := rfl
@[simp] theorem Module.setQp_fab (m : Module) (n : Nat) (f : QueuePair → QueuePair) : (m.setQp n f).fab = m.fab := rfl
@[simp] theorem Module.setQp_guild (m : Module) (n : Nat) (f : QueuePair → QueuePair) : (m.setQp n f).guild = m.guild := rfl
@[simp] theorem Module.setQp_ptns (m : Module) (n : Nat) (f : QueuePair → QueuePair) : (m.setQp n f).ptns = m.ptns := rfl
@[simp] theorem Module.setQp_halls (m : Module) (n : Nat) (f : QueuePair → QueuePair) : (m.setQp n f).halls = m.halls := rfl
@[simp] theorem Module.setQp_benches (m : Module) (n : Nat) (f : QueuePair → QueuePair) : (m.setQp n f).benches = m.benches := rfl
@[simp] theorem Module.setQp_querns (m : Module) (n : Nat) (f : QueuePair → QueuePair) : (m.setQp n f).querns = m.querns := rfl
@[simp] theorem Module.setQp_rwk (m : Module) (n : Nat) (f : QueuePair → QueuePair) : (m.setQp n f).rwk = m.rwk := rfl
@[simp] theorem Module.setQp_tables (m : Module) (n : Nat) (f : QueuePair → QueuePair) : (m.setQp n f).tables = m.tables := rfl
@[simp] theorem Module.setQp_xlat (m : Module) (n : Nat) (f : QueuePair → QueuePair) : (m.setQp n f).xlat = m.xlat := rfl
@[simp] theorem Module.setQp_heldAcc (m : Module) (n : Nat) (f : QueuePair → QueuePair) : (m.setQp n f).heldAcc = m.heldAcc := rfl
@[simp] theorem Module.setQp_tileBad (m : Module) (n : Nat) (f : QueuePair → QueuePair) : (m.setQp n f).tileBad = m.tileBad := rfl
@[simp] theorem Module.setQp_insts (m : Module) (n : Nat) (f : QueuePair → QueuePair) : (m.setQp n f).insts = m.insts := rfl
@[simp] theorem Module.setQp_tokens (m : Module) (n : Nat) (f : QueuePair → QueuePair) : (m.setQp n f).tokens = m.tokens := rfl
@[simp] theorem Module.setQp_gathers (m : Module) (n : Nat) (f : QueuePair → QueuePair) : (m.setQp n f).gathers = m.gathers := rfl
@[simp] theorem Module.setQp_scatters (m : Module) (n : Nat) (f : QueuePair → QueuePair) : (m.setQp n f).scatters = m.scatters := rfl
@[simp] theorem Module.setQp_samples (m : Module) (n : Nat) (f : QueuePair → QueuePair) : (m.setQp n f).samples = m.samples := rfl
@[simp] theorem Module.setQp_chains (m : Module) (n : Nat) (f : QueuePair → QueuePair) : (m.setQp n f).chains = m.chains := rfl
@[simp] theorem Module.setQp_hubs (m : Module) (n : Nat) (f : QueuePair → QueuePair) : (m.setQp n f).hubs = m.hubs := rfl
@[simp] theorem Module.setQp_groups (m : Module) (n : Nat) (f : QueuePair → QueuePair) : (m.setQp n f).groups = m.groups := rfl
@[simp] theorem Module.setQp_nextInst (m : Module) (n : Nat) (f : QueuePair → QueuePair) : (m.setQp n f).nextInst = m.nextInst := rfl
@[simp] theorem Module.setQp_instLog (m : Module) (n : Nat) (f : QueuePair → QueuePair) : (m.setQp n f).instLog = m.instLog := rfl
@[simp] theorem Module.setQp_nextSerial (m : Module) (n : Nat) (f : QueuePair → QueuePair) : (m.setQp n f).nextSerial = m.nextSerial := rfl
@[simp] theorem Module.setQp_nextBuf (m : Module) (n : Nat) (f : QueuePair → QueuePair) : (m.setQp n f).nextBuf = m.nextBuf := rfl
@[simp] theorem Module.setQp_nextHandle (m : Module) (n : Nat) (f : QueuePair → QueuePair) : (m.setQp n f).nextHandle = m.nextHandle := rfl
@[simp] theorem Module.setQp_stamp (m : Module) (n : Nat) (f : QueuePair → QueuePair) : (m.setQp n f).stamp = m.stamp := rfl
@[simp] theorem Module.setQp_free (m : Module) (n : Nat) (f : QueuePair → QueuePair) : (m.setQp n f).free = m.free := rfl
@[simp] theorem Module.setQp_sent (m : Module) (n : Nat) (f : QueuePair → QueuePair) : (m.setQp n f).sent = m.sent := rfl

@[simp] theorem Module.setPort_pwr (m : Module) (p : Nat) (f : Port → Port) : (m.setPort p f).pwr = m.pwr := rfl
@[simp] theorem Module.setPort_ltime (m : Module) (p : Nat) (f : Port → Port) : (m.setPort p f).ltime = m.ltime := rfl
@[simp] theorem Module.setPort_regs (m : Module) (p : Nat) (f : Port → Port) : (m.setPort p f).regs = m.regs := rfl
@[simp] theorem Module.setPort_mem (m : Module) (p : Nat) (f : Port → Port) : (m.setPort p f).mem = m.mem := rfl
@[simp] theorem Module.setPort_asy (m : Module) (p : Nat) (f : Port → Port) : (m.setPort p f).asy = m.asy := rfl
@[simp] theorem Module.setPort_guild (m : Module) (p : Nat) (f : Port → Port) : (m.setPort p f).guild = m.guild := rfl
@[simp] theorem Module.setPort_ctr (m : Module) (p : Nat) (f : Port → Port) : (m.setPort p f).ctr = m.ctr := rfl
@[simp] theorem Module.setPort_ptns (m : Module) (p : Nat) (f : Port → Port) : (m.setPort p f).ptns = m.ptns := rfl
@[simp] theorem Module.setPort_halls (m : Module) (p : Nat) (f : Port → Port) : (m.setPort p f).halls = m.halls := rfl
@[simp] theorem Module.setPort_benches (m : Module) (p : Nat) (f : Port → Port) : (m.setPort p f).benches = m.benches := rfl
@[simp] theorem Module.setPort_querns (m : Module) (p : Nat) (f : Port → Port) : (m.setPort p f).querns = m.querns := rfl
@[simp] theorem Module.setPort_rwk (m : Module) (p : Nat) (f : Port → Port) : (m.setPort p f).rwk = m.rwk := rfl
@[simp] theorem Module.setPort_tables (m : Module) (p : Nat) (f : Port → Port) : (m.setPort p f).tables = m.tables := rfl
@[simp] theorem Module.setPort_xlat (m : Module) (p : Nat) (f : Port → Port) : (m.setPort p f).xlat = m.xlat := rfl
@[simp] theorem Module.setPort_heldAcc (m : Module) (p : Nat) (f : Port → Port) : (m.setPort p f).heldAcc = m.heldAcc := rfl
@[simp] theorem Module.setPort_tileBad (m : Module) (p : Nat) (f : Port → Port) : (m.setPort p f).tileBad = m.tileBad := rfl
@[simp] theorem Module.setPort_insts (m : Module) (p : Nat) (f : Port → Port) : (m.setPort p f).insts = m.insts := rfl
@[simp] theorem Module.setPort_tokens (m : Module) (p : Nat) (f : Port → Port) : (m.setPort p f).tokens = m.tokens := rfl
@[simp] theorem Module.setPort_gathers (m : Module) (p : Nat) (f : Port → Port) : (m.setPort p f).gathers = m.gathers := rfl
@[simp] theorem Module.setPort_scatters (m : Module) (p : Nat) (f : Port → Port) : (m.setPort p f).scatters = m.scatters := rfl
@[simp] theorem Module.setPort_samples (m : Module) (p : Nat) (f : Port → Port) : (m.setPort p f).samples = m.samples := rfl
@[simp] theorem Module.setPort_chains (m : Module) (p : Nat) (f : Port → Port) : (m.setPort p f).chains = m.chains := rfl
@[simp] theorem Module.setPort_hubs (m : Module) (p : Nat) (f : Port → Port) : (m.setPort p f).hubs = m.hubs := rfl
@[simp] theorem Module.setPort_groups (m : Module) (p : Nat) (f : Port → Port) : (m.setPort p f).groups = m.groups := rfl
@[simp] theorem Module.setPort_nextInst (m : Module) (p : Nat) (f : Port → Port) : (m.setPort p f).nextInst = m.nextInst := rfl
@[simp] theorem Module.setPort_instLog (m : Module) (p : Nat) (f : Port → Port) : (m.setPort p f).instLog = m.instLog := rfl
@[simp] theorem Module.setPort_nextSerial (m : Module) (p : Nat) (f : Port → Port) : (m.setPort p f).nextSerial = m.nextSerial := rfl
@[simp] theorem Module.setPort_nextBuf (m : Module) (p : Nat) (f : Port → Port) : (m.setPort p f).nextBuf = m.nextBuf := rfl
@[simp] theorem Module.setPort_nextHandle (m : Module) (p : Nat) (f : Port → Port) : (m.setPort p f).nextHandle = m.nextHandle := rfl
@[simp] theorem Module.setPort_stamp (m : Module) (p : Nat) (f : Port → Port) : (m.setPort p f).stamp = m.stamp := rfl
@[simp] theorem Module.setPort_free (m : Module) (p : Nat) (f : Port → Port) : (m.setPort p f).free = m.free := rfl
@[simp] theorem Module.setPort_sent (m : Module) (p : Nat) (f : Port → Port) : (m.setPort p f).sent = m.sent := rfl

@[simp] theorem Module.setFlow_pwr (m : Module) (f : Flow) : (m.setFlow f).pwr = m.pwr := rfl
@[simp] theorem Module.setFlow_ltime (m : Module) (f : Flow) : (m.setFlow f).ltime = m.ltime := rfl
@[simp] theorem Module.setFlow_regs (m : Module) (f : Flow) : (m.setFlow f).regs = m.regs := rfl
@[simp] theorem Module.setFlow_mem (m : Module) (f : Flow) : (m.setFlow f).mem = m.mem := rfl
@[simp] theorem Module.setFlow_asy (m : Module) (f : Flow) : (m.setFlow f).asy = m.asy := rfl
@[simp] theorem Module.setFlow_guild (m : Module) (f : Flow) : (m.setFlow f).guild = m.guild := rfl
@[simp] theorem Module.setFlow_ctr (m : Module) (f : Flow) : (m.setFlow f).ctr = m.ctr := rfl
@[simp] theorem Module.setFlow_ptns (m : Module) (f : Flow) : (m.setFlow f).ptns = m.ptns := rfl
@[simp] theorem Module.setFlow_halls (m : Module) (f : Flow) : (m.setFlow f).halls = m.halls := rfl
@[simp] theorem Module.setFlow_benches (m : Module) (f : Flow) : (m.setFlow f).benches = m.benches := rfl
@[simp] theorem Module.setFlow_querns (m : Module) (f : Flow) : (m.setFlow f).querns = m.querns := rfl
@[simp] theorem Module.setFlow_rwk (m : Module) (f : Flow) : (m.setFlow f).rwk = m.rwk := rfl
@[simp] theorem Module.setFlow_tables (m : Module) (f : Flow) : (m.setFlow f).tables = m.tables := rfl
@[simp] theorem Module.setFlow_xlat (m : Module) (f : Flow) : (m.setFlow f).xlat = m.xlat := rfl
@[simp] theorem Module.setFlow_heldAcc (m : Module) (f : Flow) : (m.setFlow f).heldAcc = m.heldAcc := rfl
@[simp] theorem Module.setFlow_tileBad (m : Module) (f : Flow) : (m.setFlow f).tileBad = m.tileBad := rfl
@[simp] theorem Module.setFlow_insts (m : Module) (f : Flow) : (m.setFlow f).insts = m.insts := rfl
@[simp] theorem Module.setFlow_tokens (m : Module) (f : Flow) : (m.setFlow f).tokens = m.tokens := rfl
@[simp] theorem Module.setFlow_gathers (m : Module) (f : Flow) : (m.setFlow f).gathers = m.gathers := rfl
@[simp] theorem Module.setFlow_scatters (m : Module) (f : Flow) : (m.setFlow f).scatters = m.scatters := rfl
@[simp] theorem Module.setFlow_samples (m : Module) (f : Flow) : (m.setFlow f).samples = m.samples := rfl
@[simp] theorem Module.setFlow_chains (m : Module) (f : Flow) : (m.setFlow f).chains = m.chains := rfl
@[simp] theorem Module.setFlow_hubs (m : Module) (f : Flow) : (m.setFlow f).hubs = m.hubs := rfl
@[simp] theorem Module.setFlow_groups (m : Module) (f : Flow) : (m.setFlow f).groups = m.groups := rfl
@[simp] theorem Module.setFlow_nextInst (m : Module) (f : Flow) : (m.setFlow f).nextInst = m.nextInst := rfl
@[simp] theorem Module.setFlow_instLog (m : Module) (f : Flow) : (m.setFlow f).instLog = m.instLog := rfl
@[simp] theorem Module.setFlow_nextSerial (m : Module) (f : Flow) : (m.setFlow f).nextSerial = m.nextSerial := rfl
@[simp] theorem Module.setFlow_nextBuf (m : Module) (f : Flow) : (m.setFlow f).nextBuf = m.nextBuf := rfl
@[simp] theorem Module.setFlow_nextHandle (m : Module) (f : Flow) : (m.setFlow f).nextHandle = m.nextHandle := rfl
@[simp] theorem Module.setFlow_stamp (m : Module) (f : Flow) : (m.setFlow f).stamp = m.stamp := rfl
@[simp] theorem Module.setFlow_free (m : Module) (f : Flow) : (m.setFlow f).free = m.free := rfl
@[simp] theorem Module.setFlow_sent (m : Module) (f : Flow) : (m.setFlow f).sent = m.sent := rfl

@[simp] theorem Module.setEntry_pwr (m : Module) (k : FKey) (f : MatchEntry → MatchEntry) : (m.setEntry k f).pwr = m.pwr := rfl
@[simp] theorem Module.setEntry_ltime (m : Module) (k : FKey) (f : MatchEntry → MatchEntry) : (m.setEntry k f).ltime = m.ltime := rfl
@[simp] theorem Module.setEntry_regs (m : Module) (k : FKey) (f : MatchEntry → MatchEntry) : (m.setEntry k f).regs = m.regs := rfl
@[simp] theorem Module.setEntry_mem (m : Module) (k : FKey) (f : MatchEntry → MatchEntry) : (m.setEntry k f).mem = m.mem := rfl
@[simp] theorem Module.setEntry_asy (m : Module) (k : FKey) (f : MatchEntry → MatchEntry) : (m.setEntry k f).asy = m.asy := rfl
@[simp] theorem Module.setEntry_fab (m : Module) (k : FKey) (f : MatchEntry → MatchEntry) : (m.setEntry k f).fab = m.fab := rfl
@[simp] theorem Module.setEntry_guild (m : Module) (k : FKey) (f : MatchEntry → MatchEntry) : (m.setEntry k f).guild = m.guild := rfl
@[simp] theorem Module.setEntry_ctr (m : Module) (k : FKey) (f : MatchEntry → MatchEntry) : (m.setEntry k f).ctr = m.ctr := rfl
@[simp] theorem Module.setEntry_ptns (m : Module) (k : FKey) (f : MatchEntry → MatchEntry) : (m.setEntry k f).ptns = m.ptns := rfl
@[simp] theorem Module.setEntry_benches (m : Module) (k : FKey) (f : MatchEntry → MatchEntry) : (m.setEntry k f).benches = m.benches := rfl
@[simp] theorem Module.setEntry_querns (m : Module) (k : FKey) (f : MatchEntry → MatchEntry) : (m.setEntry k f).querns = m.querns := rfl
@[simp] theorem Module.setEntry_rwk (m : Module) (k : FKey) (f : MatchEntry → MatchEntry) : (m.setEntry k f).rwk = m.rwk := rfl
@[simp] theorem Module.setEntry_tables (m : Module) (k : FKey) (f : MatchEntry → MatchEntry) : (m.setEntry k f).tables = m.tables := rfl
@[simp] theorem Module.setEntry_xlat (m : Module) (k : FKey) (f : MatchEntry → MatchEntry) : (m.setEntry k f).xlat = m.xlat := rfl
@[simp] theorem Module.setEntry_heldAcc (m : Module) (k : FKey) (f : MatchEntry → MatchEntry) : (m.setEntry k f).heldAcc = m.heldAcc := rfl
@[simp] theorem Module.setEntry_tileBad (m : Module) (k : FKey) (f : MatchEntry → MatchEntry) : (m.setEntry k f).tileBad = m.tileBad := rfl
@[simp] theorem Module.setEntry_insts (m : Module) (k : FKey) (f : MatchEntry → MatchEntry) : (m.setEntry k f).insts = m.insts := rfl
@[simp] theorem Module.setEntry_tokens (m : Module) (k : FKey) (f : MatchEntry → MatchEntry) : (m.setEntry k f).tokens = m.tokens := rfl
@[simp] theorem Module.setEntry_gathers (m : Module) (k : FKey) (f : MatchEntry → MatchEntry) : (m.setEntry k f).gathers = m.gathers := rfl
@[simp] theorem Module.setEntry_scatters (m : Module) (k : FKey) (f : MatchEntry → MatchEntry) : (m.setEntry k f).scatters = m.scatters := rfl
@[simp] theorem Module.setEntry_samples (m : Module) (k : FKey) (f : MatchEntry → MatchEntry) : (m.setEntry k f).samples = m.samples := rfl
@[simp] theorem Module.setEntry_chains (m : Module) (k : FKey) (f : MatchEntry → MatchEntry) : (m.setEntry k f).chains = m.chains := rfl
@[simp] theorem Module.setEntry_hubs (m : Module) (k : FKey) (f : MatchEntry → MatchEntry) : (m.setEntry k f).hubs = m.hubs := rfl
@[simp] theorem Module.setEntry_groups (m : Module) (k : FKey) (f : MatchEntry → MatchEntry) : (m.setEntry k f).groups = m.groups := rfl
@[simp] theorem Module.setEntry_nextInst (m : Module) (k : FKey) (f : MatchEntry → MatchEntry) : (m.setEntry k f).nextInst = m.nextInst := rfl
@[simp] theorem Module.setEntry_instLog (m : Module) (k : FKey) (f : MatchEntry → MatchEntry) : (m.setEntry k f).instLog = m.instLog := rfl
@[simp] theorem Module.setEntry_nextSerial (m : Module) (k : FKey) (f : MatchEntry → MatchEntry) : (m.setEntry k f).nextSerial = m.nextSerial := rfl
@[simp] theorem Module.setEntry_nextBuf (m : Module) (k : FKey) (f : MatchEntry → MatchEntry) : (m.setEntry k f).nextBuf = m.nextBuf := rfl
@[simp] theorem Module.setEntry_nextHandle (m : Module) (k : FKey) (f : MatchEntry → MatchEntry) : (m.setEntry k f).nextHandle = m.nextHandle := rfl
@[simp] theorem Module.setEntry_stamp (m : Module) (k : FKey) (f : MatchEntry → MatchEntry) : (m.setEntry k f).stamp = m.stamp := rfl
@[simp] theorem Module.setEntry_free (m : Module) (k : FKey) (f : MatchEntry → MatchEntry) : (m.setEntry k f).free = m.free := rfl
@[simp] theorem Module.setEntry_sent (m : Module) (k : FKey) (f : MatchEntry → MatchEntry) : (m.setEntry k f).sent = m.sent := rfl

@[simp] theorem Module.draw_pwr (m : Module) : m.draw.2.pwr = m.pwr := rfl
@[simp] theorem Module.draw_ltime (m : Module) : m.draw.2.ltime = m.ltime := rfl
@[simp] theorem Module.draw_regs (m : Module) : m.draw.2.regs = m.regs := rfl
@[simp] theorem Module.draw_mem (m : Module) : m.draw.2.mem = m.mem := rfl
@[simp] theorem Module.draw_asy (m : Module) : m.draw.2.asy = m.asy := rfl
@[simp] theorem Module.draw_fab (m : Module) : m.draw.2.fab = m.fab := rfl
@[simp] theorem Module.draw_guild (m : Module) : m.draw.2.guild = m.guild := rfl
@[simp] theorem Module.draw_ctr (m : Module) : m.draw.2.ctr = m.ctr := rfl
@[simp] theorem Module.draw_ptns (m : Module) : m.draw.2.ptns = m.ptns := rfl
@[simp] theorem Module.draw_halls (m : Module) : m.draw.2.halls = m.halls := rfl
@[simp] theorem Module.draw_benches (m : Module) : m.draw.2.benches = m.benches := rfl
@[simp] theorem Module.draw_querns (m : Module) : m.draw.2.querns = m.querns := rfl
@[simp] theorem Module.draw_rwk (m : Module) : m.draw.2.rwk = m.rwk := rfl
@[simp] theorem Module.draw_tables (m : Module) : m.draw.2.tables = m.tables := rfl
@[simp] theorem Module.draw_xlat (m : Module) : m.draw.2.xlat = m.xlat := rfl
@[simp] theorem Module.draw_heldAcc (m : Module) : m.draw.2.heldAcc = m.heldAcc := rfl
@[simp] theorem Module.draw_tileBad (m : Module) : m.draw.2.tileBad = m.tileBad := rfl
@[simp] theorem Module.draw_insts (m : Module) : m.draw.2.insts = m.insts := rfl
@[simp] theorem Module.draw_tokens (m : Module) : m.draw.2.tokens = m.tokens := rfl
@[simp] theorem Module.draw_gathers (m : Module) : m.draw.2.gathers = m.gathers := rfl
@[simp] theorem Module.draw_scatters (m : Module) : m.draw.2.scatters = m.scatters := rfl
@[simp] theorem Module.draw_samples (m : Module) : m.draw.2.samples = m.samples := rfl
@[simp] theorem Module.draw_chains (m : Module) : m.draw.2.chains = m.chains := rfl
@[simp] theorem Module.draw_hubs (m : Module) : m.draw.2.hubs = m.hubs := rfl
@[simp] theorem Module.draw_groups (m : Module) : m.draw.2.groups = m.groups := rfl
@[simp] theorem Module.draw_nextInst (m : Module) : m.draw.2.nextInst = m.nextInst := rfl
@[simp] theorem Module.draw_instLog (m : Module) : m.draw.2.instLog = m.instLog := rfl
@[simp] theorem Module.draw_nextSerial (m : Module) : m.draw.2.nextSerial = m.nextSerial := rfl
@[simp] theorem Module.draw_nextBuf (m : Module) : m.draw.2.nextBuf = m.nextBuf := rfl
@[simp] theorem Module.draw_nextHandle (m : Module) : m.draw.2.nextHandle = m.nextHandle := rfl
@[simp] theorem Module.draw_stamp (m : Module) : m.draw.2.stamp = m.stamp := rfl
@[simp] theorem Module.draw_sent (m : Module) : m.draw.2.sent = m.sent := rfl

@[simp] theorem Module.pick_pwr (m : Module) (n : Nat) : (m.pick n).2.pwr = m.pwr := rfl
@[simp] theorem Module.pick_ltime (m : Module) (n : Nat) : (m.pick n).2.ltime = m.ltime := rfl
@[simp] theorem Module.pick_regs (m : Module) (n : Nat) : (m.pick n).2.regs = m.regs := rfl
@[simp] theorem Module.pick_mem (m : Module) (n : Nat) : (m.pick n).2.mem = m.mem := rfl
@[simp] theorem Module.pick_asy (m : Module) (n : Nat) : (m.pick n).2.asy = m.asy := rfl
@[simp] theorem Module.pick_fab (m : Module) (n : Nat) : (m.pick n).2.fab = m.fab := rfl
@[simp] theorem Module.pick_guild (m : Module) (n : Nat) : (m.pick n).2.guild = m.guild := rfl
@[simp] theorem Module.pick_ctr (m : Module) (n : Nat) : (m.pick n).2.ctr = m.ctr := rfl
@[simp] theorem Module.pick_ptns (m : Module) (n : Nat) : (m.pick n).2.ptns = m.ptns := rfl
@[simp] theorem Module.pick_halls (m : Module) (n : Nat) : (m.pick n).2.halls = m.halls := rfl
@[simp] theorem Module.pick_benches (m : Module) (n : Nat) : (m.pick n).2.benches = m.benches := rfl
@[simp] theorem Module.pick_querns (m : Module) (n : Nat) : (m.pick n).2.querns = m.querns := rfl
@[simp] theorem Module.pick_rwk (m : Module) (n : Nat) : (m.pick n).2.rwk = m.rwk := rfl
@[simp] theorem Module.pick_tables (m : Module) (n : Nat) : (m.pick n).2.tables = m.tables := rfl
@[simp] theorem Module.pick_xlat (m : Module) (n : Nat) : (m.pick n).2.xlat = m.xlat := rfl
@[simp] theorem Module.pick_heldAcc (m : Module) (n : Nat) : (m.pick n).2.heldAcc = m.heldAcc := rfl
@[simp] theorem Module.pick_tileBad (m : Module) (n : Nat) : (m.pick n).2.tileBad = m.tileBad := rfl
@[simp] theorem Module.pick_insts (m : Module) (n : Nat) : (m.pick n).2.insts = m.insts := rfl
@[simp] theorem Module.pick_tokens (m : Module) (n : Nat) : (m.pick n).2.tokens = m.tokens := rfl
@[simp] theorem Module.pick_gathers (m : Module) (n : Nat) : (m.pick n).2.gathers = m.gathers := rfl
@[simp] theorem Module.pick_scatters (m : Module) (n : Nat) : (m.pick n).2.scatters = m.scatters := rfl
@[simp] theorem Module.pick_samples (m : Module) (n : Nat) : (m.pick n).2.samples = m.samples := rfl
@[simp] theorem Module.pick_chains (m : Module) (n : Nat) : (m.pick n).2.chains = m.chains := rfl
@[simp] theorem Module.pick_hubs (m : Module) (n : Nat) : (m.pick n).2.hubs = m.hubs := rfl
@[simp] theorem Module.pick_groups (m : Module) (n : Nat) : (m.pick n).2.groups = m.groups := rfl
@[simp] theorem Module.pick_nextInst (m : Module) (n : Nat) : (m.pick n).2.nextInst = m.nextInst := rfl
@[simp] theorem Module.pick_instLog (m : Module) (n : Nat) : (m.pick n).2.instLog = m.instLog := rfl
@[simp] theorem Module.pick_nextSerial (m : Module) (n : Nat) : (m.pick n).2.nextSerial = m.nextSerial := rfl
@[simp] theorem Module.pick_nextBuf (m : Module) (n : Nat) : (m.pick n).2.nextBuf = m.nextBuf := rfl
@[simp] theorem Module.pick_nextHandle (m : Module) (n : Nat) : (m.pick n).2.nextHandle = m.nextHandle := rfl
@[simp] theorem Module.pick_stamp (m : Module) (n : Nat) : (m.pick n).2.stamp = m.stamp := rfl
@[simp] theorem Module.pick_sent (m : Module) (n : Nat) : (m.pick n).2.sent = m.sent := rfl

@[simp] theorem Module.postBut_pwr (m : Module) (but : List Nat) (sev code : Nat) (ptn : Option Nat) (obj : Nat) (detail : List Byte) : (m.postBut but sev code ptn obj detail).pwr = m.pwr := by
  unfold Module.postBut; dsimp only; split <;> rfl
@[simp] theorem Module.postBut_ltime (m : Module) (but : List Nat) (sev code : Nat) (ptn : Option Nat) (obj : Nat) (detail : List Byte) : (m.postBut but sev code ptn obj detail).ltime = m.ltime := by
  unfold Module.postBut; dsimp only; split <;> rfl
@[simp] theorem Module.postBut_regs (m : Module) (but : List Nat) (sev code : Nat) (ptn : Option Nat) (obj : Nat) (detail : List Byte) : (m.postBut but sev code ptn obj detail).regs = m.regs := by
  unfold Module.postBut; dsimp only; split <;> rfl
@[simp] theorem Module.postBut_mem (m : Module) (but : List Nat) (sev code : Nat) (ptn : Option Nat) (obj : Nat) (detail : List Byte) : (m.postBut but sev code ptn obj detail).mem = m.mem := by
  unfold Module.postBut; dsimp only; split <;> rfl
@[simp] theorem Module.postBut_asy (m : Module) (but : List Nat) (sev code : Nat) (ptn : Option Nat) (obj : Nat) (detail : List Byte) : (m.postBut but sev code ptn obj detail).asy = m.asy := by
  unfold Module.postBut; dsimp only; split <;> rfl
@[simp] theorem Module.postBut_fab (m : Module) (but : List Nat) (sev code : Nat) (ptn : Option Nat) (obj : Nat) (detail : List Byte) : (m.postBut but sev code ptn obj detail).fab = m.fab := by
  unfold Module.postBut; dsimp only; split <;> rfl
@[simp] theorem Module.postBut_guild (m : Module) (but : List Nat) (sev code : Nat) (ptn : Option Nat) (obj : Nat) (detail : List Byte) : (m.postBut but sev code ptn obj detail).guild = m.guild := by
  unfold Module.postBut; dsimp only; split <;> rfl
@[simp] theorem Module.postBut_ptns (m : Module) (but : List Nat) (sev code : Nat) (ptn : Option Nat) (obj : Nat) (detail : List Byte) : (m.postBut but sev code ptn obj detail).ptns = m.ptns := by
  unfold Module.postBut; dsimp only; split <;> rfl
@[simp] theorem Module.postBut_halls (m : Module) (but : List Nat) (sev code : Nat) (ptn : Option Nat) (obj : Nat) (detail : List Byte) : (m.postBut but sev code ptn obj detail).halls = m.halls := by
  unfold Module.postBut; dsimp only; split <;> rfl
@[simp] theorem Module.postBut_benches (m : Module) (but : List Nat) (sev code : Nat) (ptn : Option Nat) (obj : Nat) (detail : List Byte) : (m.postBut but sev code ptn obj detail).benches = m.benches := by
  unfold Module.postBut; dsimp only; split <;> rfl
@[simp] theorem Module.postBut_querns (m : Module) (but : List Nat) (sev code : Nat) (ptn : Option Nat) (obj : Nat) (detail : List Byte) : (m.postBut but sev code ptn obj detail).querns = m.querns := by
  unfold Module.postBut; dsimp only; split <;> rfl
@[simp] theorem Module.postBut_rwk (m : Module) (but : List Nat) (sev code : Nat) (ptn : Option Nat) (obj : Nat) (detail : List Byte) : (m.postBut but sev code ptn obj detail).rwk = m.rwk := by
  unfold Module.postBut; dsimp only; split <;> rfl
@[simp] theorem Module.postBut_tables (m : Module) (but : List Nat) (sev code : Nat) (ptn : Option Nat) (obj : Nat) (detail : List Byte) : (m.postBut but sev code ptn obj detail).tables = m.tables := by
  unfold Module.postBut; dsimp only; split <;> rfl
@[simp] theorem Module.postBut_xlat (m : Module) (but : List Nat) (sev code : Nat) (ptn : Option Nat) (obj : Nat) (detail : List Byte) : (m.postBut but sev code ptn obj detail).xlat = m.xlat := by
  unfold Module.postBut; dsimp only; split <;> rfl
@[simp] theorem Module.postBut_heldAcc (m : Module) (but : List Nat) (sev code : Nat) (ptn : Option Nat) (obj : Nat) (detail : List Byte) : (m.postBut but sev code ptn obj detail).heldAcc = m.heldAcc := by
  unfold Module.postBut; dsimp only; split <;> rfl
@[simp] theorem Module.postBut_tileBad (m : Module) (but : List Nat) (sev code : Nat) (ptn : Option Nat) (obj : Nat) (detail : List Byte) : (m.postBut but sev code ptn obj detail).tileBad = m.tileBad := by
  unfold Module.postBut; dsimp only; split <;> rfl
@[simp] theorem Module.postBut_insts (m : Module) (but : List Nat) (sev code : Nat) (ptn : Option Nat) (obj : Nat) (detail : List Byte) : (m.postBut but sev code ptn obj detail).insts = m.insts := by
  unfold Module.postBut; dsimp only; split <;> rfl
@[simp] theorem Module.postBut_tokens (m : Module) (but : List Nat) (sev code : Nat) (ptn : Option Nat) (obj : Nat) (detail : List Byte) : (m.postBut but sev code ptn obj detail).tokens = m.tokens := by
  unfold Module.postBut; dsimp only; split <;> rfl
@[simp] theorem Module.postBut_gathers (m : Module) (but : List Nat) (sev code : Nat) (ptn : Option Nat) (obj : Nat) (detail : List Byte) : (m.postBut but sev code ptn obj detail).gathers = m.gathers := by
  unfold Module.postBut; dsimp only; split <;> rfl
@[simp] theorem Module.postBut_scatters (m : Module) (but : List Nat) (sev code : Nat) (ptn : Option Nat) (obj : Nat) (detail : List Byte) : (m.postBut but sev code ptn obj detail).scatters = m.scatters := by
  unfold Module.postBut; dsimp only; split <;> rfl
@[simp] theorem Module.postBut_samples (m : Module) (but : List Nat) (sev code : Nat) (ptn : Option Nat) (obj : Nat) (detail : List Byte) : (m.postBut but sev code ptn obj detail).samples = m.samples := by
  unfold Module.postBut; dsimp only; split <;> rfl
@[simp] theorem Module.postBut_chains (m : Module) (but : List Nat) (sev code : Nat) (ptn : Option Nat) (obj : Nat) (detail : List Byte) : (m.postBut but sev code ptn obj detail).chains = m.chains := by
  unfold Module.postBut; dsimp only; split <;> rfl
@[simp] theorem Module.postBut_hubs (m : Module) (but : List Nat) (sev code : Nat) (ptn : Option Nat) (obj : Nat) (detail : List Byte) : (m.postBut but sev code ptn obj detail).hubs = m.hubs := by
  unfold Module.postBut; dsimp only; split <;> rfl
@[simp] theorem Module.postBut_groups (m : Module) (but : List Nat) (sev code : Nat) (ptn : Option Nat) (obj : Nat) (detail : List Byte) : (m.postBut but sev code ptn obj detail).groups = m.groups := by
  unfold Module.postBut; dsimp only; split <;> rfl
@[simp] theorem Module.postBut_nextInst (m : Module) (but : List Nat) (sev code : Nat) (ptn : Option Nat) (obj : Nat) (detail : List Byte) : (m.postBut but sev code ptn obj detail).nextInst = m.nextInst := by
  unfold Module.postBut; dsimp only; split <;> rfl
@[simp] theorem Module.postBut_instLog (m : Module) (but : List Nat) (sev code : Nat) (ptn : Option Nat) (obj : Nat) (detail : List Byte) : (m.postBut but sev code ptn obj detail).instLog = m.instLog := by
  unfold Module.postBut; dsimp only; split <;> rfl
@[simp] theorem Module.postBut_nextSerial (m : Module) (but : List Nat) (sev code : Nat) (ptn : Option Nat) (obj : Nat) (detail : List Byte) : (m.postBut but sev code ptn obj detail).nextSerial = m.nextSerial := by
  unfold Module.postBut; dsimp only; split <;> rfl
@[simp] theorem Module.postBut_nextBuf (m : Module) (but : List Nat) (sev code : Nat) (ptn : Option Nat) (obj : Nat) (detail : List Byte) : (m.postBut but sev code ptn obj detail).nextBuf = m.nextBuf := by
  unfold Module.postBut; dsimp only; split <;> rfl
@[simp] theorem Module.postBut_nextHandle (m : Module) (but : List Nat) (sev code : Nat) (ptn : Option Nat) (obj : Nat) (detail : List Byte) : (m.postBut but sev code ptn obj detail).nextHandle = m.nextHandle := by
  unfold Module.postBut; dsimp only; split <;> rfl
@[simp] theorem Module.postBut_stamp (m : Module) (but : List Nat) (sev code : Nat) (ptn : Option Nat) (obj : Nat) (detail : List Byte) : (m.postBut but sev code ptn obj detail).stamp = m.stamp := by
  unfold Module.postBut; dsimp only; split <;> rfl
@[simp] theorem Module.postBut_free (m : Module) (but : List Nat) (sev code : Nat) (ptn : Option Nat) (obj : Nat) (detail : List Byte) : (m.postBut but sev code ptn obj detail).free = m.free := by
  unfold Module.postBut; dsimp only; split <;> rfl

@[simp] theorem Module.post_pwr (m : Module) (code : Nat) (ptn : Option Nat) (obj : Nat) (detail : List Byte) : (m.post code ptn obj detail).pwr = m.pwr := Module.postBut_pwr _ _ _ _ _ _ _
@[simp] theorem Module.post_ltime (m : Module) (code : Nat) (ptn : Option Nat) (obj : Nat) (detail : List Byte) : (m.post code ptn obj detail).ltime = m.ltime := Module.postBut_ltime _ _ _ _ _ _ _
@[simp] theorem Module.post_regs (m : Module) (code : Nat) (ptn : Option Nat) (obj : Nat) (detail : List Byte) : (m.post code ptn obj detail).regs = m.regs := Module.postBut_regs _ _ _ _ _ _ _
@[simp] theorem Module.post_mem (m : Module) (code : Nat) (ptn : Option Nat) (obj : Nat) (detail : List Byte) : (m.post code ptn obj detail).mem = m.mem := Module.postBut_mem _ _ _ _ _ _ _
@[simp] theorem Module.post_asy (m : Module) (code : Nat) (ptn : Option Nat) (obj : Nat) (detail : List Byte) : (m.post code ptn obj detail).asy = m.asy := Module.postBut_asy _ _ _ _ _ _ _
@[simp] theorem Module.post_fab (m : Module) (code : Nat) (ptn : Option Nat) (obj : Nat) (detail : List Byte) : (m.post code ptn obj detail).fab = m.fab := Module.postBut_fab _ _ _ _ _ _ _
@[simp] theorem Module.post_guild (m : Module) (code : Nat) (ptn : Option Nat) (obj : Nat) (detail : List Byte) : (m.post code ptn obj detail).guild = m.guild := Module.postBut_guild _ _ _ _ _ _ _
@[simp] theorem Module.post_ptns (m : Module) (code : Nat) (ptn : Option Nat) (obj : Nat) (detail : List Byte) : (m.post code ptn obj detail).ptns = m.ptns := Module.postBut_ptns _ _ _ _ _ _ _
@[simp] theorem Module.post_halls (m : Module) (code : Nat) (ptn : Option Nat) (obj : Nat) (detail : List Byte) : (m.post code ptn obj detail).halls = m.halls := Module.postBut_halls _ _ _ _ _ _ _
@[simp] theorem Module.post_benches (m : Module) (code : Nat) (ptn : Option Nat) (obj : Nat) (detail : List Byte) : (m.post code ptn obj detail).benches = m.benches := Module.postBut_benches _ _ _ _ _ _ _
@[simp] theorem Module.post_querns (m : Module) (code : Nat) (ptn : Option Nat) (obj : Nat) (detail : List Byte) : (m.post code ptn obj detail).querns = m.querns := Module.postBut_querns _ _ _ _ _ _ _
@[simp] theorem Module.post_rwk (m : Module) (code : Nat) (ptn : Option Nat) (obj : Nat) (detail : List Byte) : (m.post code ptn obj detail).rwk = m.rwk := Module.postBut_rwk _ _ _ _ _ _ _
@[simp] theorem Module.post_tables (m : Module) (code : Nat) (ptn : Option Nat) (obj : Nat) (detail : List Byte) : (m.post code ptn obj detail).tables = m.tables := Module.postBut_tables _ _ _ _ _ _ _
@[simp] theorem Module.post_xlat (m : Module) (code : Nat) (ptn : Option Nat) (obj : Nat) (detail : List Byte) : (m.post code ptn obj detail).xlat = m.xlat := Module.postBut_xlat _ _ _ _ _ _ _
@[simp] theorem Module.post_heldAcc (m : Module) (code : Nat) (ptn : Option Nat) (obj : Nat) (detail : List Byte) : (m.post code ptn obj detail).heldAcc = m.heldAcc := Module.postBut_heldAcc _ _ _ _ _ _ _
@[simp] theorem Module.post_tileBad (m : Module) (code : Nat) (ptn : Option Nat) (obj : Nat) (detail : List Byte) : (m.post code ptn obj detail).tileBad = m.tileBad := Module.postBut_tileBad _ _ _ _ _ _ _
@[simp] theorem Module.post_insts (m : Module) (code : Nat) (ptn : Option Nat) (obj : Nat) (detail : List Byte) : (m.post code ptn obj detail).insts = m.insts := Module.postBut_insts _ _ _ _ _ _ _
@[simp] theorem Module.post_tokens (m : Module) (code : Nat) (ptn : Option Nat) (obj : Nat) (detail : List Byte) : (m.post code ptn obj detail).tokens = m.tokens := Module.postBut_tokens _ _ _ _ _ _ _
@[simp] theorem Module.post_gathers (m : Module) (code : Nat) (ptn : Option Nat) (obj : Nat) (detail : List Byte) : (m.post code ptn obj detail).gathers = m.gathers := Module.postBut_gathers _ _ _ _ _ _ _
@[simp] theorem Module.post_scatters (m : Module) (code : Nat) (ptn : Option Nat) (obj : Nat) (detail : List Byte) : (m.post code ptn obj detail).scatters = m.scatters := Module.postBut_scatters _ _ _ _ _ _ _
@[simp] theorem Module.post_samples (m : Module) (code : Nat) (ptn : Option Nat) (obj : Nat) (detail : List Byte) : (m.post code ptn obj detail).samples = m.samples := Module.postBut_samples _ _ _ _ _ _ _
@[simp] theorem Module.post_chains (m : Module) (code : Nat) (ptn : Option Nat) (obj : Nat) (detail : List Byte) : (m.post code ptn obj detail).chains = m.chains := Module.postBut_chains _ _ _ _ _ _ _
@[simp] theorem Module.post_hubs (m : Module) (code : Nat) (ptn : Option Nat) (obj : Nat) (detail : List Byte) : (m.post code ptn obj detail).hubs = m.hubs := Module.postBut_hubs _ _ _ _ _ _ _
@[simp] theorem Module.post_groups (m : Module) (code : Nat) (ptn : Option Nat) (obj : Nat) (detail : List Byte) : (m.post code ptn obj detail).groups = m.groups := Module.postBut_groups _ _ _ _ _ _ _
@[simp] theorem Module.post_nextInst (m : Module) (code : Nat) (ptn : Option Nat) (obj : Nat) (detail : List Byte) : (m.post code ptn obj detail).nextInst = m.nextInst := Module.postBut_nextInst _ _ _ _ _ _ _
@[simp] theorem Module.post_instLog (m : Module) (code : Nat) (ptn : Option Nat) (obj : Nat) (detail : List Byte) : (m.post code ptn obj detail).instLog = m.instLog := Module.postBut_instLog _ _ _ _ _ _ _
@[simp] theorem Module.post_nextSerial (m : Module) (code : Nat) (ptn : Option Nat) (obj : Nat) (detail : List Byte) : (m.post code ptn obj detail).nextSerial = m.nextSerial := Module.postBut_nextSerial _ _ _ _ _ _ _
@[simp] theorem Module.post_nextBuf (m : Module) (code : Nat) (ptn : Option Nat) (obj : Nat) (detail : List Byte) : (m.post code ptn obj detail).nextBuf = m.nextBuf := Module.postBut_nextBuf _ _ _ _ _ _ _
@[simp] theorem Module.post_nextHandle (m : Module) (code : Nat) (ptn : Option Nat) (obj : Nat) (detail : List Byte) : (m.post code ptn obj detail).nextHandle = m.nextHandle := Module.postBut_nextHandle _ _ _ _ _ _ _
@[simp] theorem Module.post_stamp (m : Module) (code : Nat) (ptn : Option Nat) (obj : Nat) (detail : List Byte) : (m.post code ptn obj detail).stamp = m.stamp := Module.postBut_stamp _ _ _ _ _ _ _
@[simp] theorem Module.post_free (m : Module) (code : Nat) (ptn : Option Nat) (obj : Nat) (detail : List Byte) : (m.post code ptn obj detail).free = m.free := Module.postBut_free _ _ _ _ _ _ _

@[simp] theorem Module.logEvent_pwr (m : Module) (h : Nat) (e : LogEntry) : (m.logEvent h e).pwr = m.pwr := by
  unfold Module.logEvent; dsimp only; split <;> rfl
@[simp] theorem Module.logEvent_ltime (m : Module) (h : Nat) (e : LogEntry) : (m.logEvent h e).ltime = m.ltime := by
  unfold Module.logEvent; dsimp only; split <;> rfl
@[simp] theorem Module.logEvent_mem (m : Module) (h : Nat) (e : LogEntry) : (m.logEvent h e).mem = m.mem := by
  unfold Module.logEvent; dsimp only; split <;> rfl
@[simp] theorem Module.logEvent_asy (m : Module) (h : Nat) (e : LogEntry) : (m.logEvent h e).asy = m.asy := by
  unfold Module.logEvent; dsimp only; split <;> rfl
@[simp] theorem Module.logEvent_fab (m : Module) (h : Nat) (e : LogEntry) : (m.logEvent h e).fab = m.fab := by
  unfold Module.logEvent; dsimp only; split <;> rfl
@[simp] theorem Module.logEvent_guild (m : Module) (h : Nat) (e : LogEntry) : (m.logEvent h e).guild = m.guild := by
  unfold Module.logEvent; dsimp only; split <;> rfl
@[simp] theorem Module.logEvent_ctr (m : Module) (h : Nat) (e : LogEntry) : (m.logEvent h e).ctr = m.ctr := by
  unfold Module.logEvent; dsimp only; split <;> rfl
@[simp] theorem Module.logEvent_ptns (m : Module) (h : Nat) (e : LogEntry) : (m.logEvent h e).ptns = m.ptns := by
  unfold Module.logEvent; dsimp only; split <;> rfl
@[simp] theorem Module.logEvent_benches (m : Module) (h : Nat) (e : LogEntry) : (m.logEvent h e).benches = m.benches := by
  unfold Module.logEvent; dsimp only; split <;> rfl
@[simp] theorem Module.logEvent_querns (m : Module) (h : Nat) (e : LogEntry) : (m.logEvent h e).querns = m.querns := by
  unfold Module.logEvent; dsimp only; split <;> rfl
@[simp] theorem Module.logEvent_rwk (m : Module) (h : Nat) (e : LogEntry) : (m.logEvent h e).rwk = m.rwk := by
  unfold Module.logEvent; dsimp only; split <;> rfl
@[simp] theorem Module.logEvent_tables (m : Module) (h : Nat) (e : LogEntry) : (m.logEvent h e).tables = m.tables := by
  unfold Module.logEvent; dsimp only; split <;> rfl
@[simp] theorem Module.logEvent_xlat (m : Module) (h : Nat) (e : LogEntry) : (m.logEvent h e).xlat = m.xlat := by
  unfold Module.logEvent; dsimp only; split <;> rfl
@[simp] theorem Module.logEvent_heldAcc (m : Module) (h : Nat) (e : LogEntry) : (m.logEvent h e).heldAcc = m.heldAcc := by
  unfold Module.logEvent; dsimp only; split <;> rfl
@[simp] theorem Module.logEvent_tileBad (m : Module) (h : Nat) (e : LogEntry) : (m.logEvent h e).tileBad = m.tileBad := by
  unfold Module.logEvent; dsimp only; split <;> rfl
@[simp] theorem Module.logEvent_insts (m : Module) (h : Nat) (e : LogEntry) : (m.logEvent h e).insts = m.insts := by
  unfold Module.logEvent; dsimp only; split <;> rfl
@[simp] theorem Module.logEvent_tokens (m : Module) (h : Nat) (e : LogEntry) : (m.logEvent h e).tokens = m.tokens := by
  unfold Module.logEvent; dsimp only; split <;> rfl
@[simp] theorem Module.logEvent_gathers (m : Module) (h : Nat) (e : LogEntry) : (m.logEvent h e).gathers = m.gathers := by
  unfold Module.logEvent; dsimp only; split <;> rfl
@[simp] theorem Module.logEvent_scatters (m : Module) (h : Nat) (e : LogEntry) : (m.logEvent h e).scatters = m.scatters := by
  unfold Module.logEvent; dsimp only; split <;> rfl
@[simp] theorem Module.logEvent_samples (m : Module) (h : Nat) (e : LogEntry) : (m.logEvent h e).samples = m.samples := by
  unfold Module.logEvent; dsimp only; split <;> rfl
@[simp] theorem Module.logEvent_chains (m : Module) (h : Nat) (e : LogEntry) : (m.logEvent h e).chains = m.chains := by
  unfold Module.logEvent; dsimp only; split <;> rfl
@[simp] theorem Module.logEvent_hubs (m : Module) (h : Nat) (e : LogEntry) : (m.logEvent h e).hubs = m.hubs := by
  unfold Module.logEvent; dsimp only; split <;> rfl
@[simp] theorem Module.logEvent_groups (m : Module) (h : Nat) (e : LogEntry) : (m.logEvent h e).groups = m.groups := by
  unfold Module.logEvent; dsimp only; split <;> rfl
@[simp] theorem Module.logEvent_nextInst (m : Module) (h : Nat) (e : LogEntry) : (m.logEvent h e).nextInst = m.nextInst := by
  unfold Module.logEvent; dsimp only; split <;> rfl
@[simp] theorem Module.logEvent_instLog (m : Module) (h : Nat) (e : LogEntry) : (m.logEvent h e).instLog = m.instLog := by
  unfold Module.logEvent; dsimp only; split <;> rfl
@[simp] theorem Module.logEvent_nextSerial (m : Module) (h : Nat) (e : LogEntry) : (m.logEvent h e).nextSerial = m.nextSerial := by
  unfold Module.logEvent; dsimp only; split <;> rfl
@[simp] theorem Module.logEvent_nextBuf (m : Module) (h : Nat) (e : LogEntry) : (m.logEvent h e).nextBuf = m.nextBuf := by
  unfold Module.logEvent; dsimp only; split <;> rfl
@[simp] theorem Module.logEvent_nextHandle (m : Module) (h : Nat) (e : LogEntry) : (m.logEvent h e).nextHandle = m.nextHandle := by
  unfold Module.logEvent; dsimp only; split <;> rfl
@[simp] theorem Module.logEvent_stamp (m : Module) (h : Nat) (e : LogEntry) : (m.logEvent h e).stamp = m.stamp := by
  unfold Module.logEvent; dsimp only; split <;> rfl
@[simp] theorem Module.logEvent_free (m : Module) (h : Nat) (e : LogEntry) : (m.logEvent h e).free = m.free := by
  unfold Module.logEvent; dsimp only; split <;> rfl
@[simp] theorem Module.logEvent_sent (m : Module) (h : Nat) (e : LogEntry) : (m.logEvent h e).sent = m.sent := by
  unfold Module.logEvent; dsimp only; split <;> rfl

@[simp] theorem Module.degrade_pwr (m : Module) (h unit code : Nat) (ptn : Option Nat) (obj addr : Nat) (detail : List Byte) : (m.degrade h unit code ptn obj addr detail).pwr = m.pwr := (Module.post_pwr _ _ _ _ _).trans (Module.logEvent_pwr _ _ _)
@[simp] theorem Module.degrade_ltime (m : Module) (h unit code : Nat) (ptn : Option Nat) (obj addr : Nat) (detail : List Byte) : (m.degrade h unit code ptn obj addr detail).ltime = m.ltime := (Module.post_ltime _ _ _ _ _).trans (Module.logEvent_ltime _ _ _)
@[simp] theorem Module.degrade_mem (m : Module) (h unit code : Nat) (ptn : Option Nat) (obj addr : Nat) (detail : List Byte) : (m.degrade h unit code ptn obj addr detail).mem = m.mem := (Module.post_mem _ _ _ _ _).trans (Module.logEvent_mem _ _ _)
@[simp] theorem Module.degrade_asy (m : Module) (h unit code : Nat) (ptn : Option Nat) (obj addr : Nat) (detail : List Byte) : (m.degrade h unit code ptn obj addr detail).asy = m.asy := (Module.post_asy _ _ _ _ _).trans (Module.logEvent_asy _ _ _)
@[simp] theorem Module.degrade_fab (m : Module) (h unit code : Nat) (ptn : Option Nat) (obj addr : Nat) (detail : List Byte) : (m.degrade h unit code ptn obj addr detail).fab = m.fab := (Module.post_fab _ _ _ _ _).trans (Module.logEvent_fab _ _ _)
@[simp] theorem Module.degrade_guild (m : Module) (h unit code : Nat) (ptn : Option Nat) (obj addr : Nat) (detail : List Byte) : (m.degrade h unit code ptn obj addr detail).guild = m.guild := (Module.post_guild _ _ _ _ _).trans (Module.logEvent_guild _ _ _)
@[simp] theorem Module.degrade_ptns (m : Module) (h unit code : Nat) (ptn : Option Nat) (obj addr : Nat) (detail : List Byte) : (m.degrade h unit code ptn obj addr detail).ptns = m.ptns := (Module.post_ptns _ _ _ _ _).trans (Module.logEvent_ptns _ _ _)
@[simp] theorem Module.degrade_benches (m : Module) (h unit code : Nat) (ptn : Option Nat) (obj addr : Nat) (detail : List Byte) : (m.degrade h unit code ptn obj addr detail).benches = m.benches := (Module.post_benches _ _ _ _ _).trans (Module.logEvent_benches _ _ _)
@[simp] theorem Module.degrade_querns (m : Module) (h unit code : Nat) (ptn : Option Nat) (obj addr : Nat) (detail : List Byte) : (m.degrade h unit code ptn obj addr detail).querns = m.querns := (Module.post_querns _ _ _ _ _).trans (Module.logEvent_querns _ _ _)
@[simp] theorem Module.degrade_rwk (m : Module) (h unit code : Nat) (ptn : Option Nat) (obj addr : Nat) (detail : List Byte) : (m.degrade h unit code ptn obj addr detail).rwk = m.rwk := (Module.post_rwk _ _ _ _ _).trans (Module.logEvent_rwk _ _ _)
@[simp] theorem Module.degrade_tables (m : Module) (h unit code : Nat) (ptn : Option Nat) (obj addr : Nat) (detail : List Byte) : (m.degrade h unit code ptn obj addr detail).tables = m.tables := (Module.post_tables _ _ _ _ _).trans (Module.logEvent_tables _ _ _)
@[simp] theorem Module.degrade_xlat (m : Module) (h unit code : Nat) (ptn : Option Nat) (obj addr : Nat) (detail : List Byte) : (m.degrade h unit code ptn obj addr detail).xlat = m.xlat := (Module.post_xlat _ _ _ _ _).trans (Module.logEvent_xlat _ _ _)
@[simp] theorem Module.degrade_heldAcc (m : Module) (h unit code : Nat) (ptn : Option Nat) (obj addr : Nat) (detail : List Byte) : (m.degrade h unit code ptn obj addr detail).heldAcc = m.heldAcc := (Module.post_heldAcc _ _ _ _ _).trans (Module.logEvent_heldAcc _ _ _)
@[simp] theorem Module.degrade_tileBad (m : Module) (h unit code : Nat) (ptn : Option Nat) (obj addr : Nat) (detail : List Byte) : (m.degrade h unit code ptn obj addr detail).tileBad = m.tileBad := (Module.post_tileBad _ _ _ _ _).trans (Module.logEvent_tileBad _ _ _)
@[simp] theorem Module.degrade_insts (m : Module) (h unit code : Nat) (ptn : Option Nat) (obj addr : Nat) (detail : List Byte) : (m.degrade h unit code ptn obj addr detail).insts = m.insts := (Module.post_insts _ _ _ _ _).trans (Module.logEvent_insts _ _ _)
@[simp] theorem Module.degrade_tokens (m : Module) (h unit code : Nat) (ptn : Option Nat) (obj addr : Nat) (detail : List Byte) : (m.degrade h unit code ptn obj addr detail).tokens = m.tokens := (Module.post_tokens _ _ _ _ _).trans (Module.logEvent_tokens _ _ _)
@[simp] theorem Module.degrade_gathers (m : Module) (h unit code : Nat) (ptn : Option Nat) (obj addr : Nat) (detail : List Byte) : (m.degrade h unit code ptn obj addr detail).gathers = m.gathers := (Module.post_gathers _ _ _ _ _).trans (Module.logEvent_gathers _ _ _)
@[simp] theorem Module.degrade_scatters (m : Module) (h unit code : Nat) (ptn : Option Nat) (obj addr : Nat) (detail : List Byte) : (m.degrade h unit code ptn obj addr detail).scatters = m.scatters := (Module.post_scatters _ _ _ _ _).trans (Module.logEvent_scatters _ _ _)
@[simp] theorem Module.degrade_samples (m : Module) (h unit code : Nat) (ptn : Option Nat) (obj addr : Nat) (detail : List Byte) : (m.degrade h unit code ptn obj addr detail).samples = m.samples := (Module.post_samples _ _ _ _ _).trans (Module.logEvent_samples _ _ _)
@[simp] theorem Module.degrade_chains (m : Module) (h unit code : Nat) (ptn : Option Nat) (obj addr : Nat) (detail : List Byte) : (m.degrade h unit code ptn obj addr detail).chains = m.chains := (Module.post_chains _ _ _ _ _).trans (Module.logEvent_chains _ _ _)
@[simp] theorem Module.degrade_hubs (m : Module) (h unit code : Nat) (ptn : Option Nat) (obj addr : Nat) (detail : List Byte) : (m.degrade h unit code ptn obj addr detail).hubs = m.hubs := (Module.post_hubs _ _ _ _ _).trans (Module.logEvent_hubs _ _ _)
@[simp] theorem Module.degrade_groups (m : Module) (h unit code : Nat) (ptn : Option Nat) (obj addr : Nat) (detail : List Byte) : (m.degrade h unit code ptn obj addr detail).groups = m.groups := (Module.post_groups _ _ _ _ _).trans (Module.logEvent_groups _ _ _)
@[simp] theorem Module.degrade_nextInst (m : Module) (h unit code : Nat) (ptn : Option Nat) (obj addr : Nat) (detail : List Byte) : (m.degrade h unit code ptn obj addr detail).nextInst = m.nextInst := (Module.post_nextInst _ _ _ _ _).trans (Module.logEvent_nextInst _ _ _)
@[simp] theorem Module.degrade_instLog (m : Module) (h unit code : Nat) (ptn : Option Nat) (obj addr : Nat) (detail : List Byte) : (m.degrade h unit code ptn obj addr detail).instLog = m.instLog := (Module.post_instLog _ _ _ _ _).trans (Module.logEvent_instLog _ _ _)
@[simp] theorem Module.degrade_nextSerial (m : Module) (h unit code : Nat) (ptn : Option Nat) (obj addr : Nat) (detail : List Byte) : (m.degrade h unit code ptn obj addr detail).nextSerial = m.nextSerial := (Module.post_nextSerial _ _ _ _ _).trans (Module.logEvent_nextSerial _ _ _)
@[simp] theorem Module.degrade_nextBuf (m : Module) (h unit code : Nat) (ptn : Option Nat) (obj addr : Nat) (detail : List Byte) : (m.degrade h unit code ptn obj addr detail).nextBuf = m.nextBuf := (Module.post_nextBuf _ _ _ _ _).trans (Module.logEvent_nextBuf _ _ _)
@[simp] theorem Module.degrade_nextHandle (m : Module) (h unit code : Nat) (ptn : Option Nat) (obj addr : Nat) (detail : List Byte) : (m.degrade h unit code ptn obj addr detail).nextHandle = m.nextHandle := (Module.post_nextHandle _ _ _ _ _).trans (Module.logEvent_nextHandle _ _ _)
@[simp] theorem Module.degrade_stamp (m : Module) (h unit code : Nat) (ptn : Option Nat) (obj addr : Nat) (detail : List Byte) : (m.degrade h unit code ptn obj addr detail).stamp = m.stamp := (Module.post_stamp _ _ _ _ _).trans (Module.logEvent_stamp _ _ _)
@[simp] theorem Module.degrade_free (m : Module) (h unit code : Nat) (ptn : Option Nat) (obj addr : Nat) (detail : List Byte) : (m.degrade h unit code ptn obj addr detail).free = m.free := (Module.post_free _ _ _ _ _).trans (Module.logEvent_free _ _ _)

@[simp] theorem Module.degradeAll_pwr (m : Module) (code : Nat) (ptn : Option Nat) (obj : Nat) (detail : List Byte) : (m.degradeAll code ptn obj detail).pwr = m.pwr := Module.degrade_pwr _ _ _ _ _ _ _ _
@[simp] theorem Module.degradeAll_ltime (m : Module) (code : Nat) (ptn : Option Nat) (obj : Nat) (detail : List Byte) : (m.degradeAll code ptn obj detail).ltime = m.ltime := Module.degrade_ltime _ _ _ _ _ _ _ _
@[simp] theorem Module.degradeAll_mem (m : Module) (code : Nat) (ptn : Option Nat) (obj : Nat) (detail : List Byte) : (m.degradeAll code ptn obj detail).mem = m.mem := Module.degrade_mem _ _ _ _ _ _ _ _
@[simp] theorem Module.degradeAll_asy (m : Module) (code : Nat) (ptn : Option Nat) (obj : Nat) (detail : List Byte) : (m.degradeAll code ptn obj detail).asy = m.asy := Module.degrade_asy _ _ _ _ _ _ _ _
@[simp] theorem Module.degradeAll_fab (m : Module) (code : Nat) (ptn : Option Nat) (obj : Nat) (detail : List Byte) : (m.degradeAll code ptn obj detail).fab = m.fab := Module.degrade_fab _ _ _ _ _ _ _ _
@[simp] theorem Module.degradeAll_guild (m : Module) (code : Nat) (ptn : Option Nat) (obj : Nat) (detail : List Byte) : (m.degradeAll code ptn obj detail).guild = m.guild := Module.degrade_guild _ _ _ _ _ _ _ _
@[simp] theorem Module.degradeAll_ptns (m : Module) (code : Nat) (ptn : Option Nat) (obj : Nat) (detail : List Byte) : (m.degradeAll code ptn obj detail).ptns = m.ptns := Module.degrade_ptns _ _ _ _ _ _ _ _
@[simp] theorem Module.degradeAll_benches (m : Module) (code : Nat) (ptn : Option Nat) (obj : Nat) (detail : List Byte) : (m.degradeAll code ptn obj detail).benches = m.benches := Module.degrade_benches _ _ _ _ _ _ _ _
@[simp] theorem Module.degradeAll_querns (m : Module) (code : Nat) (ptn : Option Nat) (obj : Nat) (detail : List Byte) : (m.degradeAll code ptn obj detail).querns = m.querns := Module.degrade_querns _ _ _ _ _ _ _ _
@[simp] theorem Module.degradeAll_rwk (m : Module) (code : Nat) (ptn : Option Nat) (obj : Nat) (detail : List Byte) : (m.degradeAll code ptn obj detail).rwk = m.rwk := Module.degrade_rwk _ _ _ _ _ _ _ _
@[simp] theorem Module.degradeAll_tables (m : Module) (code : Nat) (ptn : Option Nat) (obj : Nat) (detail : List Byte) : (m.degradeAll code ptn obj detail).tables = m.tables := Module.degrade_tables _ _ _ _ _ _ _ _
@[simp] theorem Module.degradeAll_xlat (m : Module) (code : Nat) (ptn : Option Nat) (obj : Nat) (detail : List Byte) : (m.degradeAll code ptn obj detail).xlat = m.xlat := Module.degrade_xlat _ _ _ _ _ _ _ _
@[simp] theorem Module.degradeAll_heldAcc (m : Module) (code : Nat) (ptn : Option Nat) (obj : Nat) (detail : List Byte) : (m.degradeAll code ptn obj detail).heldAcc = m.heldAcc := Module.degrade_heldAcc _ _ _ _ _ _ _ _
@[simp] theorem Module.degradeAll_tileBad (m : Module) (code : Nat) (ptn : Option Nat) (obj : Nat) (detail : List Byte) : (m.degradeAll code ptn obj detail).tileBad = m.tileBad := Module.degrade_tileBad _ _ _ _ _ _ _ _
@[simp] theorem Module.degradeAll_insts (m : Module) (code : Nat) (ptn : Option Nat) (obj : Nat) (detail : List Byte) : (m.degradeAll code ptn obj detail).insts = m.insts := Module.degrade_insts _ _ _ _ _ _ _ _
@[simp] theorem Module.degradeAll_tokens (m : Module) (code : Nat) (ptn : Option Nat) (obj : Nat) (detail : List Byte) : (m.degradeAll code ptn obj detail).tokens = m.tokens := Module.degrade_tokens _ _ _ _ _ _ _ _
@[simp] theorem Module.degradeAll_gathers (m : Module) (code : Nat) (ptn : Option Nat) (obj : Nat) (detail : List Byte) : (m.degradeAll code ptn obj detail).gathers = m.gathers := Module.degrade_gathers _ _ _ _ _ _ _ _
@[simp] theorem Module.degradeAll_scatters (m : Module) (code : Nat) (ptn : Option Nat) (obj : Nat) (detail : List Byte) : (m.degradeAll code ptn obj detail).scatters = m.scatters := Module.degrade_scatters _ _ _ _ _ _ _ _
@[simp] theorem Module.degradeAll_samples (m : Module) (code : Nat) (ptn : Option Nat) (obj : Nat) (detail : List Byte) : (m.degradeAll code ptn obj detail).samples = m.samples := Module.degrade_samples _ _ _ _ _ _ _ _
@[simp] theorem Module.degradeAll_chains (m : Module) (code : Nat) (ptn : Option Nat) (obj : Nat) (detail : List Byte) : (m.degradeAll code ptn obj detail).chains = m.chains := Module.degrade_chains _ _ _ _ _ _ _ _
@[simp] theorem Module.degradeAll_hubs (m : Module) (code : Nat) (ptn : Option Nat) (obj : Nat) (detail : List Byte) : (m.degradeAll code ptn obj detail).hubs = m.hubs := Module.degrade_hubs _ _ _ _ _ _ _ _
@[simp] theorem Module.degradeAll_groups (m : Module) (code : Nat) (ptn : Option Nat) (obj : Nat) (detail : List Byte) : (m.degradeAll code ptn obj detail).groups = m.groups := Module.degrade_groups _ _ _ _ _ _ _ _
@[simp] theorem Module.degradeAll_nextInst (m : Module) (code : Nat) (ptn : Option Nat) (obj : Nat) (detail : List Byte) : (m.degradeAll code ptn obj detail).nextInst = m.nextInst := Module.degrade_nextInst _ _ _ _ _ _ _ _
@[simp] theorem Module.degradeAll_instLog (m : Module) (code : Nat) (ptn : Option Nat) (obj : Nat) (detail : List Byte) : (m.degradeAll code ptn obj detail).instLog = m.instLog := Module.degrade_instLog _ _ _ _ _ _ _ _
@[simp] theorem Module.degradeAll_nextSerial (m : Module) (code : Nat) (ptn : Option Nat) (obj : Nat) (detail : List Byte) : (m.degradeAll code ptn obj detail).nextSerial = m.nextSerial := Module.degrade_nextSerial _ _ _ _ _ _ _ _
@[simp] theorem Module.degradeAll_nextBuf (m : Module) (code : Nat) (ptn : Option Nat) (obj : Nat) (detail : List Byte) : (m.degradeAll code ptn obj detail).nextBuf = m.nextBuf := Module.degrade_nextBuf _ _ _ _ _ _ _ _
@[simp] theorem Module.degradeAll_nextHandle (m : Module) (code : Nat) (ptn : Option Nat) (obj : Nat) (detail : List Byte) : (m.degradeAll code ptn obj detail).nextHandle = m.nextHandle := Module.degrade_nextHandle _ _ _ _ _ _ _ _
@[simp] theorem Module.degradeAll_stamp (m : Module) (code : Nat) (ptn : Option Nat) (obj : Nat) (detail : List Byte) : (m.degradeAll code ptn obj detail).stamp = m.stamp := Module.degrade_stamp _ _ _ _ _ _ _ _
@[simp] theorem Module.degradeAll_free (m : Module) (code : Nat) (ptn : Option Nat) (obj : Nat) (detail : List Byte) : (m.degradeAll code ptn obj detail).free = m.free := Module.degrade_free _ _ _ _ _ _ _ _

@[simp] theorem Module.packet_pwr (m : Module) (dst vc : Nat) (x : FabMsg) : (m.packet dst vc x).pwr = m.pwr := by
  unfold Module.packet; split <;> rfl
@[simp] theorem Module.packet_ltime (m : Module) (dst vc : Nat) (x : FabMsg) : (m.packet dst vc x).ltime = m.ltime := by
  unfold Module.packet; split <;> rfl
@[simp] theorem Module.packet_regs (m : Module) (dst vc : Nat) (x : FabMsg) : (m.packet dst vc x).regs = m.regs := by
  unfold Module.packet; split <;> rfl
@[simp] theorem Module.packet_mem (m : Module) (dst vc : Nat) (x : FabMsg) : (m.packet dst vc x).mem = m.mem := by
  unfold Module.packet; split <;> rfl
@[simp] theorem Module.packet_asy (m : Module) (dst vc : Nat) (x : FabMsg) : (m.packet dst vc x).asy = m.asy := by
  unfold Module.packet; split <;> rfl
@[simp] theorem Module.packet_guild (m : Module) (dst vc : Nat) (x : FabMsg) : (m.packet dst vc x).guild = m.guild := by
  unfold Module.packet; split <;> rfl
@[simp] theorem Module.packet_ctr (m : Module) (dst vc : Nat) (x : FabMsg) : (m.packet dst vc x).ctr = m.ctr := by
  unfold Module.packet; split <;> rfl
@[simp] theorem Module.packet_ptns (m : Module) (dst vc : Nat) (x : FabMsg) : (m.packet dst vc x).ptns = m.ptns := by
  unfold Module.packet; split <;> rfl
@[simp] theorem Module.packet_halls (m : Module) (dst vc : Nat) (x : FabMsg) : (m.packet dst vc x).halls = m.halls := by
  unfold Module.packet; split <;> rfl
@[simp] theorem Module.packet_benches (m : Module) (dst vc : Nat) (x : FabMsg) : (m.packet dst vc x).benches = m.benches := by
  unfold Module.packet; split <;> rfl
@[simp] theorem Module.packet_querns (m : Module) (dst vc : Nat) (x : FabMsg) : (m.packet dst vc x).querns = m.querns := by
  unfold Module.packet; split <;> rfl
@[simp] theorem Module.packet_rwk (m : Module) (dst vc : Nat) (x : FabMsg) : (m.packet dst vc x).rwk = m.rwk := by
  unfold Module.packet; split <;> rfl
@[simp] theorem Module.packet_tables (m : Module) (dst vc : Nat) (x : FabMsg) : (m.packet dst vc x).tables = m.tables := by
  unfold Module.packet; split <;> rfl
@[simp] theorem Module.packet_xlat (m : Module) (dst vc : Nat) (x : FabMsg) : (m.packet dst vc x).xlat = m.xlat := by
  unfold Module.packet; split <;> rfl
@[simp] theorem Module.packet_heldAcc (m : Module) (dst vc : Nat) (x : FabMsg) : (m.packet dst vc x).heldAcc = m.heldAcc := by
  unfold Module.packet; split <;> rfl
@[simp] theorem Module.packet_tileBad (m : Module) (dst vc : Nat) (x : FabMsg) : (m.packet dst vc x).tileBad = m.tileBad := by
  unfold Module.packet; split <;> rfl
@[simp] theorem Module.packet_insts (m : Module) (dst vc : Nat) (x : FabMsg) : (m.packet dst vc x).insts = m.insts := by
  unfold Module.packet; split <;> rfl
@[simp] theorem Module.packet_tokens (m : Module) (dst vc : Nat) (x : FabMsg) : (m.packet dst vc x).tokens = m.tokens := by
  unfold Module.packet; split <;> rfl
@[simp] theorem Module.packet_gathers (m : Module) (dst vc : Nat) (x : FabMsg) : (m.packet dst vc x).gathers = m.gathers := by
  unfold Module.packet; split <;> rfl
@[simp] theorem Module.packet_scatters (m : Module) (dst vc : Nat) (x : FabMsg) : (m.packet dst vc x).scatters = m.scatters := by
  unfold Module.packet; split <;> rfl
@[simp] theorem Module.packet_samples (m : Module) (dst vc : Nat) (x : FabMsg) : (m.packet dst vc x).samples = m.samples := by
  unfold Module.packet; split <;> rfl
@[simp] theorem Module.packet_chains (m : Module) (dst vc : Nat) (x : FabMsg) : (m.packet dst vc x).chains = m.chains := by
  unfold Module.packet; split <;> rfl
@[simp] theorem Module.packet_hubs (m : Module) (dst vc : Nat) (x : FabMsg) : (m.packet dst vc x).hubs = m.hubs := by
  unfold Module.packet; split <;> rfl
@[simp] theorem Module.packet_groups (m : Module) (dst vc : Nat) (x : FabMsg) : (m.packet dst vc x).groups = m.groups := by
  unfold Module.packet; split <;> rfl
@[simp] theorem Module.packet_nextInst (m : Module) (dst vc : Nat) (x : FabMsg) : (m.packet dst vc x).nextInst = m.nextInst := by
  unfold Module.packet; split <;> rfl
@[simp] theorem Module.packet_instLog (m : Module) (dst vc : Nat) (x : FabMsg) : (m.packet dst vc x).instLog = m.instLog := by
  unfold Module.packet; split <;> rfl
@[simp] theorem Module.packet_nextSerial (m : Module) (dst vc : Nat) (x : FabMsg) : (m.packet dst vc x).nextSerial = m.nextSerial := by
  unfold Module.packet; split <;> rfl
@[simp] theorem Module.packet_nextBuf (m : Module) (dst vc : Nat) (x : FabMsg) : (m.packet dst vc x).nextBuf = m.nextBuf := by
  unfold Module.packet; split <;> rfl
@[simp] theorem Module.packet_nextHandle (m : Module) (dst vc : Nat) (x : FabMsg) : (m.packet dst vc x).nextHandle = m.nextHandle := by
  unfold Module.packet; split <;> rfl
@[simp] theorem Module.packet_stamp (m : Module) (dst vc : Nat) (x : FabMsg) : (m.packet dst vc x).stamp = m.stamp := by
  unfold Module.packet; split <;> rfl
@[simp] theorem Module.packet_free (m : Module) (dst vc : Nat) (x : FabMsg) : (m.packet dst vc x).free = m.free := by
  unfold Module.packet; split <;> rfl

@[simp] theorem Module.sendTo_pwr (m : Module) (dst vc : Nat) (x : FabMsg) : (m.sendTo dst vc x).pwr = m.pwr := by
  unfold Module.sendTo; split
  · rfl
  · exact Module.packet_pwr _ _ _ _
@[simp] theorem Module.sendTo_ltime (m : Module) (dst vc : Nat) (x : FabMsg) : (m.sendTo dst vc x).ltime = m.ltime := by
  unfold Module.sendTo; split
  · rfl
  · exact Module.packet_ltime _ _ _ _
@[simp] theorem Module.sendTo_regs (m : Module) (dst vc : Nat) (x : FabMsg) : (m.sendTo dst vc x).regs = m.regs := by
  unfold Module.sendTo; split
  · rfl
  · exact Module.packet_regs _ _ _ _
@[simp] theorem Module.sendTo_mem (m : Module) (dst vc : Nat) (x : FabMsg) : (m.sendTo dst vc x).mem = m.mem := by
  unfold Module.sendTo; split
  · rfl
  · exact Module.packet_mem _ _ _ _
@[simp] theorem Module.sendTo_asy (m : Module) (dst vc : Nat) (x : FabMsg) : (m.sendTo dst vc x).asy = m.asy := by
  unfold Module.sendTo; split
  · rfl
  · exact Module.packet_asy _ _ _ _
@[simp] theorem Module.sendTo_guild (m : Module) (dst vc : Nat) (x : FabMsg) : (m.sendTo dst vc x).guild = m.guild := by
  unfold Module.sendTo; split
  · rfl
  · exact Module.packet_guild _ _ _ _
@[simp] theorem Module.sendTo_ctr (m : Module) (dst vc : Nat) (x : FabMsg) : (m.sendTo dst vc x).ctr = m.ctr := by
  unfold Module.sendTo; split
  · rfl
  · exact Module.packet_ctr _ _ _ _
@[simp] theorem Module.sendTo_ptns (m : Module) (dst vc : Nat) (x : FabMsg) : (m.sendTo dst vc x).ptns = m.ptns := by
  unfold Module.sendTo; split
  · rfl
  · exact Module.packet_ptns _ _ _ _
@[simp] theorem Module.sendTo_halls (m : Module) (dst vc : Nat) (x : FabMsg) : (m.sendTo dst vc x).halls = m.halls := by
  unfold Module.sendTo; split
  · rfl
  · exact Module.packet_halls _ _ _ _
@[simp] theorem Module.sendTo_benches (m : Module) (dst vc : Nat) (x : FabMsg) : (m.sendTo dst vc x).benches = m.benches := by
  unfold Module.sendTo; split
  · rfl
  · exact Module.packet_benches _ _ _ _
@[simp] theorem Module.sendTo_querns (m : Module) (dst vc : Nat) (x : FabMsg) : (m.sendTo dst vc x).querns = m.querns := by
  unfold Module.sendTo; split
  · rfl
  · exact Module.packet_querns _ _ _ _
@[simp] theorem Module.sendTo_rwk (m : Module) (dst vc : Nat) (x : FabMsg) : (m.sendTo dst vc x).rwk = m.rwk := by
  unfold Module.sendTo; split
  · rfl
  · exact Module.packet_rwk _ _ _ _
@[simp] theorem Module.sendTo_tables (m : Module) (dst vc : Nat) (x : FabMsg) : (m.sendTo dst vc x).tables = m.tables := by
  unfold Module.sendTo; split
  · rfl
  · exact Module.packet_tables _ _ _ _
@[simp] theorem Module.sendTo_xlat (m : Module) (dst vc : Nat) (x : FabMsg) : (m.sendTo dst vc x).xlat = m.xlat := by
  unfold Module.sendTo; split
  · rfl
  · exact Module.packet_xlat _ _ _ _
@[simp] theorem Module.sendTo_heldAcc (m : Module) (dst vc : Nat) (x : FabMsg) : (m.sendTo dst vc x).heldAcc = m.heldAcc := by
  unfold Module.sendTo; split
  · rfl
  · exact Module.packet_heldAcc _ _ _ _
@[simp] theorem Module.sendTo_tileBad (m : Module) (dst vc : Nat) (x : FabMsg) : (m.sendTo dst vc x).tileBad = m.tileBad := by
  unfold Module.sendTo; split
  · rfl
  · exact Module.packet_tileBad _ _ _ _
@[simp] theorem Module.sendTo_insts (m : Module) (dst vc : Nat) (x : FabMsg) : (m.sendTo dst vc x).insts = m.insts := by
  unfold Module.sendTo; split
  · rfl
  · exact Module.packet_insts _ _ _ _
@[simp] theorem Module.sendTo_tokens (m : Module) (dst vc : Nat) (x : FabMsg) : (m.sendTo dst vc x).tokens = m.tokens := by
  unfold Module.sendTo; split
  · rfl
  · exact Module.packet_tokens _ _ _ _
@[simp] theorem Module.sendTo_gathers (m : Module) (dst vc : Nat) (x : FabMsg) : (m.sendTo dst vc x).gathers = m.gathers := by
  unfold Module.sendTo; split
  · rfl
  · exact Module.packet_gathers _ _ _ _
@[simp] theorem Module.sendTo_scatters (m : Module) (dst vc : Nat) (x : FabMsg) : (m.sendTo dst vc x).scatters = m.scatters := by
  unfold Module.sendTo; split
  · rfl
  · exact Module.packet_scatters _ _ _ _
@[simp] theorem Module.sendTo_samples (m : Module) (dst vc : Nat) (x : FabMsg) : (m.sendTo dst vc x).samples = m.samples := by
  unfold Module.sendTo; split
  · rfl
  · exact Module.packet_samples _ _ _ _
@[simp] theorem Module.sendTo_chains (m : Module) (dst vc : Nat) (x : FabMsg) : (m.sendTo dst vc x).chains = m.chains := by
  unfold Module.sendTo; split
  · rfl
  · exact Module.packet_chains _ _ _ _
@[simp] theorem Module.sendTo_hubs (m : Module) (dst vc : Nat) (x : FabMsg) : (m.sendTo dst vc x).hubs = m.hubs := by
  unfold Module.sendTo; split
  · rfl
  · exact Module.packet_hubs _ _ _ _
@[simp] theorem Module.sendTo_groups (m : Module) (dst vc : Nat) (x : FabMsg) : (m.sendTo dst vc x).groups = m.groups := by
  unfold Module.sendTo; split
  · rfl
  · exact Module.packet_groups _ _ _ _
@[simp] theorem Module.sendTo_nextInst (m : Module) (dst vc : Nat) (x : FabMsg) : (m.sendTo dst vc x).nextInst = m.nextInst := by
  unfold Module.sendTo; split
  · rfl
  · exact Module.packet_nextInst _ _ _ _
@[simp] theorem Module.sendTo_instLog (m : Module) (dst vc : Nat) (x : FabMsg) : (m.sendTo dst vc x).instLog = m.instLog := by
  unfold Module.sendTo; split
  · rfl
  · exact Module.packet_instLog _ _ _ _
@[simp] theorem Module.sendTo_nextSerial (m : Module) (dst vc : Nat) (x : FabMsg) : (m.sendTo dst vc x).nextSerial = m.nextSerial := by
  unfold Module.sendTo; split
  · rfl
  · exact Module.packet_nextSerial _ _ _ _
@[simp] theorem Module.sendTo_nextBuf (m : Module) (dst vc : Nat) (x : FabMsg) : (m.sendTo dst vc x).nextBuf = m.nextBuf := by
  unfold Module.sendTo; split
  · rfl
  · exact Module.packet_nextBuf _ _ _ _
@[simp] theorem Module.sendTo_nextHandle (m : Module) (dst vc : Nat) (x : FabMsg) : (m.sendTo dst vc x).nextHandle = m.nextHandle := by
  unfold Module.sendTo; split
  · rfl
  · exact Module.packet_nextHandle _ _ _ _
@[simp] theorem Module.sendTo_stamp (m : Module) (dst vc : Nat) (x : FabMsg) : (m.sendTo dst vc x).stamp = m.stamp := by
  unfold Module.sendTo; split
  · rfl
  · exact Module.packet_stamp _ _ _ _
@[simp] theorem Module.sendTo_free (m : Module) (dst vc : Nat) (x : FabMsg) : (m.sendTo dst vc x).free = m.free := by
  unfold Module.sendTo; split
  · rfl
  · exact Module.packet_free _ _ _ _

@[simp] theorem Module.sendAll_pwr (m : Module) (dsts : List Nat) (vc : Nat) (x : FabMsg) : (m.sendAll dsts vc x).pwr = m.pwr := foldl_stands dsts fun m d => Module.sendTo_pwr m d vc x
@[simp] theorem Module.sendAll_ltime (m : Module) (dsts : List Nat) (vc : Nat) (x : FabMsg) : (m.sendAll dsts vc x).ltime = m.ltime := foldl_stands dsts fun m d => Module.sendTo_ltime m d vc x
@[simp] theorem Module.sendAll_regs (m : Module) (dsts : List Nat) (vc : Nat) (x : FabMsg) : (m.sendAll dsts vc x).regs = m.regs := foldl_stands dsts fun m d => Module.sendTo_regs m d vc x
@[simp] theorem Module.sendAll_mem (m : Module) (dsts : List Nat) (vc : Nat) (x : FabMsg) : (m.sendAll dsts vc x).mem = m.mem := foldl_stands dsts fun m d => Module.sendTo_mem m d vc x
@[simp] theorem Module.sendAll_asy (m : Module) (dsts : List Nat) (vc : Nat) (x : FabMsg) : (m.sendAll dsts vc x).asy = m.asy := foldl_stands dsts fun m d => Module.sendTo_asy m d vc x
@[simp] theorem Module.sendAll_guild (m : Module) (dsts : List Nat) (vc : Nat) (x : FabMsg) : (m.sendAll dsts vc x).guild = m.guild := foldl_stands dsts fun m d => Module.sendTo_guild m d vc x
@[simp] theorem Module.sendAll_ctr (m : Module) (dsts : List Nat) (vc : Nat) (x : FabMsg) : (m.sendAll dsts vc x).ctr = m.ctr := foldl_stands dsts fun m d => Module.sendTo_ctr m d vc x
@[simp] theorem Module.sendAll_ptns (m : Module) (dsts : List Nat) (vc : Nat) (x : FabMsg) : (m.sendAll dsts vc x).ptns = m.ptns := foldl_stands dsts fun m d => Module.sendTo_ptns m d vc x
@[simp] theorem Module.sendAll_halls (m : Module) (dsts : List Nat) (vc : Nat) (x : FabMsg) : (m.sendAll dsts vc x).halls = m.halls := foldl_stands dsts fun m d => Module.sendTo_halls m d vc x
@[simp] theorem Module.sendAll_benches (m : Module) (dsts : List Nat) (vc : Nat) (x : FabMsg) : (m.sendAll dsts vc x).benches = m.benches := foldl_stands dsts fun m d => Module.sendTo_benches m d vc x
@[simp] theorem Module.sendAll_querns (m : Module) (dsts : List Nat) (vc : Nat) (x : FabMsg) : (m.sendAll dsts vc x).querns = m.querns := foldl_stands dsts fun m d => Module.sendTo_querns m d vc x
@[simp] theorem Module.sendAll_rwk (m : Module) (dsts : List Nat) (vc : Nat) (x : FabMsg) : (m.sendAll dsts vc x).rwk = m.rwk := foldl_stands dsts fun m d => Module.sendTo_rwk m d vc x
@[simp] theorem Module.sendAll_tables (m : Module) (dsts : List Nat) (vc : Nat) (x : FabMsg) : (m.sendAll dsts vc x).tables = m.tables := foldl_stands dsts fun m d => Module.sendTo_tables m d vc x
@[simp] theorem Module.sendAll_xlat (m : Module) (dsts : List Nat) (vc : Nat) (x : FabMsg) : (m.sendAll dsts vc x).xlat = m.xlat := foldl_stands dsts fun m d => Module.sendTo_xlat m d vc x
@[simp] theorem Module.sendAll_heldAcc (m : Module) (dsts : List Nat) (vc : Nat) (x : FabMsg) : (m.sendAll dsts vc x).heldAcc = m.heldAcc := foldl_stands dsts fun m d => Module.sendTo_heldAcc m d vc x
@[simp] theorem Module.sendAll_tileBad (m : Module) (dsts : List Nat) (vc : Nat) (x : FabMsg) : (m.sendAll dsts vc x).tileBad = m.tileBad := foldl_stands dsts fun m d => Module.sendTo_tileBad m d vc x
@[simp] theorem Module.sendAll_insts (m : Module) (dsts : List Nat) (vc : Nat) (x : FabMsg) : (m.sendAll dsts vc x).insts = m.insts := foldl_stands dsts fun m d => Module.sendTo_insts m d vc x
@[simp] theorem Module.sendAll_tokens (m : Module) (dsts : List Nat) (vc : Nat) (x : FabMsg) : (m.sendAll dsts vc x).tokens = m.tokens := foldl_stands dsts fun m d => Module.sendTo_tokens m d vc x
@[simp] theorem Module.sendAll_gathers (m : Module) (dsts : List Nat) (vc : Nat) (x : FabMsg) : (m.sendAll dsts vc x).gathers = m.gathers := foldl_stands dsts fun m d => Module.sendTo_gathers m d vc x
@[simp] theorem Module.sendAll_scatters (m : Module) (dsts : List Nat) (vc : Nat) (x : FabMsg) : (m.sendAll dsts vc x).scatters = m.scatters := foldl_stands dsts fun m d => Module.sendTo_scatters m d vc x
@[simp] theorem Module.sendAll_samples (m : Module) (dsts : List Nat) (vc : Nat) (x : FabMsg) : (m.sendAll dsts vc x).samples = m.samples := foldl_stands dsts fun m d => Module.sendTo_samples m d vc x
@[simp] theorem Module.sendAll_chains (m : Module) (dsts : List Nat) (vc : Nat) (x : FabMsg) : (m.sendAll dsts vc x).chains = m.chains := foldl_stands dsts fun m d => Module.sendTo_chains m d vc x
@[simp] theorem Module.sendAll_hubs (m : Module) (dsts : List Nat) (vc : Nat) (x : FabMsg) : (m.sendAll dsts vc x).hubs = m.hubs := foldl_stands dsts fun m d => Module.sendTo_hubs m d vc x
@[simp] theorem Module.sendAll_groups (m : Module) (dsts : List Nat) (vc : Nat) (x : FabMsg) : (m.sendAll dsts vc x).groups = m.groups := foldl_stands dsts fun m d => Module.sendTo_groups m d vc x
@[simp] theorem Module.sendAll_nextInst (m : Module) (dsts : List Nat) (vc : Nat) (x : FabMsg) : (m.sendAll dsts vc x).nextInst = m.nextInst := foldl_stands dsts fun m d => Module.sendTo_nextInst m d vc x
@[simp] theorem Module.sendAll_instLog (m : Module) (dsts : List Nat) (vc : Nat) (x : FabMsg) : (m.sendAll dsts vc x).instLog = m.instLog := foldl_stands dsts fun m d => Module.sendTo_instLog m d vc x
@[simp] theorem Module.sendAll_nextSerial (m : Module) (dsts : List Nat) (vc : Nat) (x : FabMsg) : (m.sendAll dsts vc x).nextSerial = m.nextSerial := foldl_stands dsts fun m d => Module.sendTo_nextSerial m d vc x
@[simp] theorem Module.sendAll_nextBuf (m : Module) (dsts : List Nat) (vc : Nat) (x : FabMsg) : (m.sendAll dsts vc x).nextBuf = m.nextBuf := foldl_stands dsts fun m d => Module.sendTo_nextBuf m d vc x
@[simp] theorem Module.sendAll_nextHandle (m : Module) (dsts : List Nat) (vc : Nat) (x : FabMsg) : (m.sendAll dsts vc x).nextHandle = m.nextHandle := foldl_stands dsts fun m d => Module.sendTo_nextHandle m d vc x
@[simp] theorem Module.sendAll_stamp (m : Module) (dsts : List Nat) (vc : Nat) (x : FabMsg) : (m.sendAll dsts vc x).stamp = m.stamp := foldl_stands dsts fun m d => Module.sendTo_stamp m d vc x
@[simp] theorem Module.sendAll_free (m : Module) (dsts : List Nat) (vc : Nat) (x : FabMsg) : (m.sendAll dsts vc x).free = m.free := foldl_stands dsts fun m d => Module.sendTo_free m d vc x

end Sys2Proof.Machine
end

