-- ==== Sys2Proof/Laws/Units.lean ====
section
/-! SUPPORT. Reads after updates: units by number, registers, and bytes of memory. -/
namespace Sys2Proof.Machine

theorem getD_modify {α : Type} (l : List α) (d : α) (i j : Nat) (f : α → α) :
    (l.modify i f).getD j d = if j = i ∧ i < l.length then f (l.getD i d) else l.getD j d := by
  rw [List.getD_eq_getElem?_getD, List.getD_eq_getElem?_getD, List.getD_eq_getElem?_getD, List.getElem?_modify]
  by_cases hij : i = j
  · subst hij
    by_cases hl : i < l.length
    · simp [hl]
    · simp [hl]
  · have : ¬ j = i := fun h => hij h.symm
    simp [hij, this]

theorem Module.hall_setHall (m : Module) (i j : Nat) (f : Hall → Hall) :
    (m.setHall i f).hall j = if j = i ∧ i < m.halls.length then f (m.hall i) else m.hall j := getD_modify _ _ _ _ _

theorem Module.bench_setBench (m : Module) (i j : Nat) (f : Bench → Bench) :
    (m.setBench i f).bench j = if j = i ∧ i < m.benches.length then f (m.bench i) else m.bench j := getD_modify _ _ _ _ _

theorem Module.quern_setQuern (m : Module) (i j : Nat) (f : Quern → Quern) :
    (m.setQuern i f).quern j = if j = i ∧ i < m.querns.length then f (m.quern i) else m.quern j := getD_modify _ _ _ _ _

theorem Module.ptn_setPtn (m : Module) (i j : Nat) (f : Partition → Partition) :
    (m.setPtn i f).ptn j = if j = i ∧ i < m.ptns.length then f (m.ptn i) else m.ptn j := getD_modify _ _ _ _ _

/-- Writing one key leaves every other key as it is, in a map of any form. -/
theorem sparseGet_put_ne {β : Type} [DecidableEq β] {d : Nat → β} (l : List (Nat × β)) {k j : Nat} (v : β) (h : j ≠ k) :
    sparseGet d (sparsePut d l k v) j = sparseGet d l j := by
  have hk : k ≠ j := fun e => h e.symm
  induction l with
  | nil =>
    unfold sparsePut
    split
    · rfl
    · simp [sparseGet, hk]
  | cons c t ih =>
    unfold sparsePut
    split
    · split
      · rfl
      · simp [sparseGet, hk]
    · split
      · rename_i e
        split <;> simp [sparseGet, hk, ← e]
      · simp only [sparseGet, ih]

theorem Module.reg_setReg_ne (m : Module) {a b : Nat} (w : Word) (h : b ≠ a) : (m.setReg a w).reg b = m.reg b :=
  sparseGet_put_ne m.regs w h

theorem Module.reg_count_ne (m : Module) {a b : Nat} (lo w n : Nat) (h : b ≠ a) : (m.count a lo w n).reg b = m.reg b :=
  sparseGet_put_ne m.regs _ h

theorem Module.reg_setFld_ne (m : Module) {a b : Nat} (lo w v : Nat) (h : b ≠ a) : (m.setFld a lo w v).reg b = m.reg b :=
  sparseGet_put_ne m.regs _ h

theorem Memory.read_write_ne (mem : Memory) {k j : Nat} (b : Byte) (h : j ≠ k) : (mem.write k b).read j = mem.read j :=
  sparseGet_put_ne mem b h

/-- Bytes outside a byte string that is written stand. -/
theorem Memory.read_writeN_out (mem : Memory) (k : Nat) (bs : List Byte) {j : Nat} (h : j < k ∨ k + bs.length ≤ j) :
    (mem.writeN k bs).read j = mem.read j := by
  induction bs generalizing mem k with
  | nil => rfl
  | cons b t ih =>
    simp only [List.length_cons] at h
    unfold Memory.writeN
    rw [ih _ _ (by omega), Memory.read_write_ne _ _ (by omega)]

/-- Every byte of a byte string that is written is read back. -/
theorem Memory.read_writeN_in {mem : Memory} (hw : mem.wf) (k : Nat) (bs : List Byte) {i : Nat} (h : i < bs.length) :
    (mem.writeN k bs).read (k + i) = bs[i] := by
  induction bs generalizing mem k i with
  | nil => cases h
  | cons b t ih =>
    unfold Memory.writeN
    cases i with
    | zero =>
      rw [Memory.read_writeN_out _ _ _ (by omega), Memory.read_write hw]
      simp
    | succ i =>
      have := ih (Memory.write_wf hw k b) (k + 1) (i := i) (by simpa using h)
      rw [show k + (i + 1) = k + 1 + i by omega, this]
      simp

/-- The local address of a key of a region: its page's, and the offset in the page (R104). -/
theorem Module.keyAddr_some {m : Module} {key : Nat} {g : RegionSt} (r : m.regionOfKey key = some g) :
    m.keyAddr key = g.pageAddr ((key - 2 ^ 50) % 2 ^ 41 / 2 ^ g.info.shift) + (key - 2 ^ 50) % 2 ^ 41 % 2 ^ g.info.shift := by
  unfold Module.keyAddr; rw [r]
/-- The stack of a key of a region is its page's, whatever frame the page has (R104, R115). -/
theorem Module.stackOfKey_some {m : Module} {key : Nat} {g : RegionSt} (r : m.regionOfKey key = some g) :
    m.stackOfKey key = g.info.stackOf ((key - 2 ^ 50) % 2 ^ 41 / 2 ^ g.info.shift) := by
  unfold Module.stackOfKey
  rw [Module.keyAddr_some r]
  unfold RegionSt.pageAddr
  dsimp only
  generalize (key - 2 ^ 50) % 2 ^ 41 = off
  generalize g.info.stackOf _ = st
  generalize g.info.rankOn _ = j
  generalize frameOf _ _ = fr
  have a : fr % stackFrames st < 2 ^ 15 := by
    unfold stackFrames
    split <;> omega
  have c : j % g.info.perFrame * 2 ^ g.info.shift + off % 2 ^ g.info.shift < 2 ^ 21 := by
    unfold RegionRec.perFrame RegionRec.shift
    split <;> omega
  omega

end Sys2Proof.Machine
end

