-- ==== Sys2Proof/Laws/Firings.lean ====
section
/-! SUPPORT. A firing and its match entry: found by key after an update, and what the end of its work does. -/
namespace Sys2Proof.Machine

/-- An update that keeps the key of what it updates does not change which element a key finds. -/
theorem find_updWhere {α : Type} {p : α → Bool} {f : α → α} (hf : ∀ e, p e = true → p (f e) = true) (l : List α) :
    (updWhere p f l).find? p = (l.find? p).map f := by
  induction l with
  | nil => rfl
  | cons a t ih =>
    have e : updWhere p f (a :: t) = (if p a then f a else a) :: updWhere p f t := rfl
    rw [e]
    by_cases h : p a = true
    · rw [if_pos h, List.find?_cons_of_pos (hf a h), List.find?_cons_of_pos h]; rfl
    · rw [if_neg h, List.find?_cons_of_neg h, List.find?_cons_of_neg h, ih]

theorem updWhere_append {α : Type} (p : α → Bool) (f : α → α) (a b : List α) :
    updWhere p f (a ++ b) = updWhere p f a ++ updWhere p f b := by
  unfold updWhere; exact List.map_append

/-- An entry whose update keeps its key is found again, updated. -/
theorem Module.entry_setEntry (m : Module) (k : FKey) (f : MatchEntry → MatchEntry)
    (hf : ∀ e, (e.key == k) = true → ((f e).key == k) = true) : (m.setEntry k f).entry k = (m.entry k).map f := by
  have e : (m.setEntry k f).halls.flatMap (·.entries) = updWhere (fun e => e.key == k) f (m.halls.flatMap (·.entries)) := by
    unfold Module.setEntry
    induction m.halls with
    | nil => rfl
    | cons h t ih => simp only [List.map_cons, List.flatMap_cons, updWhere_append]; rw [← ih]
  unfold Module.entry; rw [e]; exact find_updWhere hf _

/-- A context update leaves every match entry. -/
theorem Module.entry_setCtxs (m : Module) (h : Nat) (p : Context → Bool) (f : Context → Context) (k : FKey) :
    (m.setCtxs h p f).entry k = m.entry k := by
  have e : ∀ l : List Hall, ∀ i, (l.modify i fun x => { x with contexts := updWhere p f x.contexts }).flatMap (·.entries) =
      l.flatMap (·.entries) := by
    intro l
    induction l with
    | nil => intro i; cases i <;> rfl
    | cons a t ih => intro i; cases i with
      | zero => rfl
      | succ i => simp only [List.modify_succ_cons, List.flatMap_cons, ih]
  unfold Module.entry Module.setCtxs Module.setHall; dsimp only; rw [e]

theorem Module.firing_key {m : Module} {k : FKey} {f : Firing} (h : m.firing k = some f) : m.entry k = some f.e ∧ f.e.key = k := by
  unfold Module.firing at h
  cases he : m.entry k with
  | none => rw [he] at h; cases h
  | some e =>
    have hk : e.key = k := by
      have := List.find?_some he
      simpa using this
    rw [he] at h
    cases hn : m.nodeOf k with
    | none => rw [hn] at h; cases h
    | some x => rw [hn] at h; cases h; exact ⟨rfl, hk⟩

/-! ### What accesses of the channel path leave -/

/-- Everything of a module but its registers, halls, querns, free values and time stands; match entries stand; time does not go back. -/
structure Aside (a b : Module) : Prop where
  rest : b = { a with ltime := b.ltime, regs := b.regs, halls := b.halls, querns := b.querns, free := b.free }
  entries : b.halls.map (·.entries) = a.halls.map (·.entries)
  time : a.ltime ≤ b.ltime

theorem Aside.refl (a : Module) : Aside a a := ⟨rfl, rfl, Nat.le_refl _⟩

theorem Aside.trans {a b c : Module} (h : Aside a b) (g : Aside b c) : Aside a c :=
  ⟨by rw [g.rest, h.rest], g.entries.trans h.entries, Nat.le_trans h.time g.time⟩

theorem Aside.foldl {α : Type} {a m : Module} {f : Module → α → Module} (l : List α)
    (hf : ∀ b, Aside a b → ∀ x, Aside a (f b x)) (h : Aside a m) : Aside a (l.foldl f m) := by
  induction l generalizing m with
  | nil => exact h
  | cons x t ih => exact ih (hf _ h x)

theorem Aside.ite {a x y : Module} {c : Prop} [Decidable c] (hx : Aside a x) (hy : Aside a y) : Aside a (if c then x else y) := by
  split <;> assumption

theorem Aside.entry {a b : Module} (h : Aside a b) (k : FKey) : b.entry k = a.entry k := by
  unfold Module.entry
  rw [List.flatMap_def, List.flatMap_def, h.entries]

section
variable {a m : Module} (h : Aside a m)
include h

theorem Aside.setReg (x : Nat) (w : Word) : Aside a (m.setReg x w) := h.trans ⟨rfl, rfl, Nat.le_refl _⟩
theorem Aside.setFld (x lo w v : Nat) : Aside a (m.setFld x lo w v) := h.setReg ..
theorem Aside.count (x lo w n : Nat) : Aside a (m.count x lo w n) := h.setReg ..
theorem Aside.pick (n : Nat) : Aside a (m.pick n).2 := h.trans ⟨rfl, rfl, Nat.le_refl _⟩

theorem Aside.setHall (i : Nat) {f : Hall → Hall} (hf : ∀ x, (f x).entries = x.entries) : Aside a (m.setHall i f) := by
  refine h.trans ⟨rfl, ?_, Nat.le_refl _⟩
  change (m.halls.modify i f).map (·.entries) = m.halls.map (·.entries)
  generalize m.halls = l
  induction l generalizing i with
  | nil => cases i <;> rfl
  | cons y t ih => cases i with
    | zero => simp [hf]
    | succ i => simp [ih]

theorem Aside.until_ (t : Nat) : Aside a (m.until_ t) := h.trans ⟨rfl, rfl, Nat.le_max_left ..⟩
theorem Aside.setQuern (i : Nat) (f : Quern → Quern) : Aside a (m.setQuern i f) := h.trans ⟨rfl, rfl, Nat.le_refl _⟩
theorem Aside.setCtxs (i : Nat) (p : Context → Bool) (f : Context → Context) : Aside a (m.setCtxs i p f) := h.setHall _ fun _ => rfl

theorem Aside.chargeKey (s key n : Nat) : Aside a (m.chargeKey s key n) := by
  unfold Module.chargeKey Module.charge
  split
  · extract_lets n m1 m2 m3 have0 pay
    have h2 : Aside a m2 := (h.count ..).setQuern ..
    have h3 : Aside a m3 := h2.setQuern ..
    have hp : ∀ x, Aside a x → Aside a (pay x) := fun x hx => hx.setQuern ..
    split
    · exact h2
    · exact .ite (hp _ h3) (.ite (hp _ ((h3.until_ _).setQuern ..)) h3)
  · exact h

theorem Aside.install (i p line : Nat) (dirty : Bool) : Aside a (m.install i p line dirty) := by
  unfold Module.install
  dsimp only
  have h1 : Aside a (((m.pick 16).2).setHall i fun y =>
      { y with cache := (installLine ((m.pick 16).2.hall i).cache (Config.cacheSet line % 32768)
        ((m.pick 16).2.wayMask (halR i 0x188) p) line dirty (m.pick 16).1).1 }) := (h.pick 16).setHall _ fun _ => rfl
  split
  · split
    · exact (h1.chargeKey ..).count ..
    · exact h1
  · exact h1

theorem Aside.cacheHit (i line hint : Nat) : Aside a (m.cacheHit i line hint) :=
  (h.setHall i (f := fun x => { x with cache := touchLine x.cache line hint }) fun _ => rfl).count ..

theorem Aside.landFill (i : Nat) (f : Fill) : Aside a (m.landFill i f) :=
  Aside.foldl _ (fun _ hb _ => .ite (hb.install ..) (.ite (hb.chargeKey ..) hb)) h

theorem Aside.startFill (s p : Nat) (ls : List Nat) (install dirty now : Bool) : Aside a (m.startFill s p ls install dirty now) :=
  .ite (((h.count ..).chargeKey ..).landFill ..) (((h.count ..).chargeKey ..).setHall _ fun _ => rfl)

theorem Aside.access (hall p key len hint : Nat) (table write now : Bool) : Aside a (m.access hall p key len hint table write now) := by
  unfold Module.access
  refine .ite h ?_
  extract_lets s i ls hits runs keep m1 m2 m3 m4
  have h1 : Aside a m1 := .ite h (h.count ..)
  have h2 : Aside a m2 := Aside.foldl _ (fun b hb l => hb.cacheHit ..) h1
  have h3 : Aside a m3 := h2.setHall _ fun _ => rfl
  have h4 : Aside a m4 := Aside.foldl _ (fun b hb l => hb.startFill ..) h3
  exact .ite (Aside.foldl _ (fun b hb l => hb.startFill ..) h2) (.ite (h2.chargeKey ..)
    (.ite (Aside.foldl _ (fun b hb l => hb.install ..) h4) (Aside.foldl _ (fun b hb l => hb.chargeKey ..) h3)))

theorem Aside.accessAll (hall p ra len hint : Nat) (write : Bool) : Aside a (m.accessAll hall p ra len hint write) := by
  unfold Module.accessAll
  split
  · exact Aside.foldl _ (fun b hb x => hb.access ..) h
  · exact h

theorem Aside.moveStream (f : Firing) (p : Nat) (t : Tensor) (x n : Nat) : Aside a (m.moveStream f p t x n) :=
  Aside.foldl _ (fun _ hb _ => hb.accessAll ..) h

theorem Aside.moveRest (f : Firing) : Aside a (m.moveRest f) := by
  unfold Module.moveRest
  extract_lets x rings m1 light
  have h1 : Aside a m1 := Aside.foldl _ (fun b hb c => by
    split
    · exact hb.moveStream ..
    · exact hb) h
  exact Aside.foldl _ (fun b hb y => Aside.foldl _ (fun b hb t => .ite (hb.moveStream ..) hb) hb) h1

theorem Aside.showStatus (f : Firing) (st : Nat) : Aside a (m.showStatus f st) := by
  unfold Module.showStatus
  extract_lets bs
  exact .ite (Aside.foldl _ (fun b hb x => .ite (hb.setFld ..) ((hb.setFld ..).setFld ..)) h) (.ite (h.setReg ..) h)

end

/-- Other registers than those that show the status of a bench's last firing stand. -/
theorem Module.reg_showStatus (m : Module) (f : Firing) (st : Nat) {b : Nat} (hb : ∀ x, b ≠ bchR x 0x010 ∧ b ≠ bchR x 0x148) :
    (m.showStatus f st).reg b = m.reg b := by
  unfold Module.showStatus
  extract_lets bs
  split
  · refine foldl_stands (g := fun x : Module => x.reg b) bs fun x i => ?_
    dsimp only
    split
    · exact Module.reg_setFld_ne _ _ _ _ (hb i).1
    · exact (Module.reg_setFld_ne _ _ _ _ (hb i).1).trans (Module.reg_setFld_ne _ _ _ _ (hb i).1)
  · split
    · exact Module.reg_setReg_ne _ _ (hb _).2
    · rfl

/-- What the end of a firing does: it has run, with its status, and its contexts are over; where it has a valid result its streams move
what they have not, which changes hall caches, regulators and counters only. Ended without one, it changes no register but the status of
its benches (R59, R216, R280, R330). -/
theorem Module.finish_spec {m : Module} {k : FKey} {f : Firing} (h : m.firing k = some f) (st : Nat) :
    HasRun (m.finish f st) k (if resultValid st then worse st f.e.status else st) ∧ (m.finish f st).mem = m.mem ∧
    FiringFrame m (m.finish f st) ∧ (m.finish f st).sent = m.sent ∧
    (resultValid st = false → (m.finish f st).ltime = m.ltime ∧
      ∀ b, (∀ x, b ≠ bchR x 0x010 ∧ b ≠ bchR x 0x148) → (m.finish f st).reg b = m.reg b) := by
  obtain ⟨he, hk⟩ := Module.firing_key h
  unfold Module.finish
  extract_lets i ok mine m1 m2 st2
  have h1 : Aside m m1 := by
    refine .ite (((Aside.refl m).moveRest f).count ..) (Aside.refl m)
  have h2 : Aside m m2 := h1.setCtxs ..
  have h3 : Aside m (m2.showStatus f st2) := h2.showStatus f st2
  have hr := h3.rest
  refine ⟨⟨{ f.e with ran := true, status := st2, haltAt := none }, ?_, rfl, rfl⟩, ?_, ?_, ?_, fun hv => ?_⟩
  · have hk' : f.key = k := hk
    rw [hk', Module.entry_setEntry]
    · rw [h3.entry, he]; rfl
    · intro e h; exact h
  · change (m2.showStatus f st2).mem = m.mem
    rw [hr]
  · refine ⟨?_, h3.time, ?_, ?_, ?_, ?_, ?_, ?_⟩
    all_goals
      unfold Module.setEntry
      dsimp only
      rw [hr]
  · change (m2.showStatus f st2).sent = m.sent
    rw [hr]
  · have e1 : m1 = m := if_neg (by change ¬resultValid st = true; rw [hv]; exact Bool.false_ne_true)
    refine ⟨?_, fun b hb => ?_⟩
    · change (m2.showStatus f st2).ltime = m.ltime
      have : (m2.showStatus f st2).ltime = m2.ltime := by
        unfold Module.showStatus
        extract_lets bs
        split
        · exact foldl_stands (g := Module.ltime) bs fun x i => by dsimp only; split <;> rfl
        · split <;> rfl
      rw [this]
      change m1.ltime = m.ltime
      rw [e1]
    · change (m2.showStatus f st2).reg b = m.reg b
      rw [Module.reg_showStatus _ _ _ hb]
      change m1.reg b = m.reg b
      rw [e1]

/-! ### Results apart from operands -/

/-- The spans of a tensor whose layout holds no lists do not depend on a count of entries. -/
theorem Tensor.spans_simple {t : Tensor} (h : t.layout < 4) (n k : Nat) : t.spans n = t.spans k := by
  have : t.layout = 0 ∨ t.layout = 1 ∨ t.layout = 2 ∨ t.layout = 3 := by omega
  unfold Tensor.spans
  rcases this with e | e | e | e <;> simp only [e]

theorem ok_of_ite {ε α : Type} {c : Prop} [Decidable c] {e : ε} {x q : α} (h : (if c then Except.error e else .ok x) = .ok q) :
    q = x := by
  split at h
  · cases h
  · cases h; rfl

/-- Bytes of a result are apart from every other tensor where those lie in tiles and their spans do not meet it, or, of a layout whose
extent memory gives, where it ends below them. -/
theorem Module.apart_of_tiles {m : Module} {f : Firing} {r : Nat} {keys : List (Nat × Nat)} (hg : m.groups = [])
    (h : (f.allTensors.filter (·.1 != r)).all fun x => decide (x.2.space = 1) && (f.benchesOf x.1).all fun b => keys.all fun s =>
      if x.2.layout < 4 then (x.2.spans 0).all fun y => (meet s (tileBase b + x.2.addr + y.1, tileBase b + x.2.addr + y.2)).isNone
      else decide (s.2 ≤ tileBase b + x.2.addr)) :
    m.apartAt f r keys := by
  intro mem regs free querns insts
  unfold Module.shared
  generalize hm : ({ m with mem := mem, regs := regs, free := free, querns := querns, insts := insts } : Module) = m1
  have hg1 : m1.groups = [] := by rw [← hm]; exact hg
  simp only [List.flatMap_eq_nil_iff, List.filterMap_eq_nil_iff]
  intro s hs y hy
  obtain ⟨⟨p, t⟩, hx, hy⟩ := List.mem_flatMap.1 hy
  obtain ⟨b, hb, hy⟩ := List.mem_flatMap.1 hy
  have h1 := List.all_eq_true.1 h _ hx
  simp only [Bool.and_eq_true, decide_eq_true_eq] at h1
  have h2 := List.all_eq_true.1 (List.all_eq_true.1 h1.2 b hb) s hs
  have ht : t.space = 1 := h1.1
  unfold Module.spansOf Module.place Module.pipeKey at hy
  simp only [hg1, List.find?_nil, Option.map_none, ht] at hy
  split at hy
  · next q e =>
    have eq := ok_of_ite e
    subst eq
    obtain ⟨z, hz, rfl⟩ := List.mem_map.1 hy
    dsimp only at h2 hz ⊢
    by_cases hl : t.layout < 4
    · simp only [hl, if_true] at h2
      rw [Tensor.spans_simple hl _ 0] at hz
      have := List.all_eq_true.1 h2 z hz
      cases hm : meet s (tileBase b + t.addr + z.1, tileBase b + t.addr + z.2) with
      | none => rfl
      | some w => rw [hm] at this; cases this
    · simp only [hl, if_false, decide_eq_true_eq] at h2
      unfold meet
      exact if_neg (by dsimp only; omega)
  · cases hy

end Sys2Proof.Machine
end

