-- ==== Sys2Proof/Laws/Kept.lean ====
section
/-! SUPPORT. `Kept`: what every command keeps of the module, and what every command but a reset or a change of the input
power keeps besides. Each operation has one lemma `…_kept`; the Kept files hold those of the operations above Ops. -/
namespace Sys2Proof.Machine

/-- The canonical forms stand (log entry 3, DESIGN CHOICE); the block keeps its units (R20–R26); what is drawn and sent only grows; no
fuse is unblown (R322, R483). With `run`, local time does not go back (R31), and OFF and FAULTED are not left (R499). -/
structure Kept (run : Bool) (a b : Module) : Prop where
  mem : Memory.wf a.mem → Memory.wf b.mem
  regs : SparseWf regDefault a.regs → SparseWf regDefault b.regs
  halls : a.halls.length = 4 → b.halls.length = 4
  benches : a.benches.length = 256 → b.benches.length = 256
  querns : a.querns.length = 20 → b.querns.length = 20
  ptns : a.ptns.length = 8 → b.ptns.length = 8
  free : a.free ≤ b.free
  sent : a.sent <+: b.sent
  seed : a.asy.seedErased = true → b.asy.seedErased = true
  hard : ∀ i, (a.quern i).hardUsed ≤ (b.quern i).hardUsed
  ltime : run = true → a.ltime ≤ b.ltime
  off : run = true → a.pwr.mode = .off → b.pwr.mode = .off
  faulted : run = true → a.pwr.mode = .faulted → b.pwr.mode = .faulted

theorem Kept.refl (r : Bool) (a : Module) : Kept r a a :=
  ⟨id, id, id, id, id, id, Nat.le_refl _, List.prefix_refl _, id, fun _ => Nat.le_refl _, fun _ => Nat.le_refl _,
   fun _ => id, fun _ => id⟩

theorem Kept.trans {r : Bool} {a b c : Module} (h : Kept r a b) (g : Kept r b c) : Kept r a c :=
  ⟨g.mem ∘ h.mem, g.regs ∘ h.regs, g.halls ∘ h.halls, g.benches ∘ h.benches, g.querns ∘ h.querns,
   g.ptns ∘ h.ptns, Nat.le_trans h.free g.free, h.sent.trans g.sent, g.seed ∘ h.seed,
   fun i => Nat.le_trans (h.hard i) (g.hard i), fun x => Nat.le_trans (h.ltime x) (g.ltime x),
   fun x => g.off x ∘ h.off x, fun x => g.faulted x ∘ h.faulted x⟩

/-- What a running command keeps, a reset keeps as well. -/
theorem Kept.weaken {r : Bool} {a b : Module} (h : Kept true a b) : Kept r a b :=
  ⟨h.mem, h.regs, h.halls, h.benches, h.querns, h.ptns, h.free, h.sent, h.seed, h.hard, fun _ => h.ltime rfl,
   fun _ => h.off rfl, fun _ => h.faulted rfl⟩

theorem Kept.let_in {r : Bool} {z m : Module} {P : Prop} (v : Kept r z m) (b : Kept r z m → P) : P := b v

/-- A local operation. -/
theorem Kept.fn_in {r : Bool} {z : Module} {f : Module → Module} {P : Prop} (v : ∀ x, Kept r z x → Kept r z (f x))
    (b : (∀ x, Kept r z x → Kept r z (f x)) → P) : P := b v

theorem Kept.fn_in_of {r : Bool} {z : Module} {α : Type} {f : α → Module} {P : Prop} (v : ∀ a, Kept r z (f a))
    (b : (∀ a, Kept r z (f a)) → P) : P := b v

theorem Kept.fn_in_fst {r : Bool} {z : Module} {α : Type} {f : Module → α → Module} {P : Prop}
    (v : ∀ x a, Kept r z x → Kept r z (f x a)) (b : (∀ x a, Kept r z x → Kept r z (f x a)) → P) : P := b v

theorem Kept.fn_in_snd {r : Bool} {z : Module} {α : Type} {f : α → Module → Module} {P : Prop}
    (v : ∀ a x, Kept r z x → Kept r z (f a x)) (b : (∀ a x, Kept r z x → Kept r z (f a x)) → P) : P := b v

theorem Kept.let_fst {r : Bool} {z : Module} {α : Type} {p : Module × α} {P : Prop} (v : Kept r z p.1)
    (b : Kept r z p.1 → P) : P := b v

theorem Kept.let_snd {r : Bool} {z : Module} {α : Type} {p : α × Module} {P : Prop} (v : Kept r z p.2)
    (b : Kept r z p.2 → P) : P := b v

theorem Kept.ite {r : Bool} {z x y : Module} {c : Prop} [Decidable c] (hx : Kept r z x) (hy : Kept r z y) :
    Kept r z (if c then x else y) := by split <;> assumption

theorem Kept.foldl {r : Bool} {α : Type} {a m : Module} {f : Module → α → Module} (l : List α)
    (hf : ∀ b, Kept r a b → ∀ x, Kept r a (f b x)) (h : Kept r a m) : Kept r a (l.foldl f m) := by
  induction l generalizing m with
  | nil => exact h
  | cons x t ih => exact ih (hf _ h x)

theorem Kept.foldl_fst {r : Bool} {α β : Type} {a : Module} {f : Module × β → α → Module × β} (l : List α)
    (hf : ∀ b, Kept r a b.1 → ∀ x, Kept r a (f b x).1) {m : Module × β} (h : Kept r a m.1) : Kept r a (l.foldl f m).1 := by
  induction l generalizing m with
  | nil => exact h
  | cons x t ih => exact ih (hf _ h x)

theorem Kept.foldl_trd {r : Bool} {α β γ : Type} {a : Module} {f : β × γ × Module → α → β × γ × Module} (l : List α)
    (hf : ∀ b, Kept r a b.2.2 → ∀ x, Kept r a (f b x).2.2) {m : β × γ × Module} (h : Kept r a m.2.2) :
    Kept r a (l.foldl f m).2.2 := by
  induction l generalizing m with
  | nil => exact h
  | cons x t ih => exact ih (hf _ h x)

theorem Kept.foldl_snd {r : Bool} {α β : Type} {a : Module} {f : β × Module → α → β × Module} (l : List α)
    (hf : ∀ b, Kept r a b.2 → ∀ x, Kept r a (f b x).2) {m : β × Module} (h : Kept r a m.2) : Kept r a (l.foldl f m).2 := by
  induction l generalizing m with
  | nil => exact h
  | cons x t ih => exact ih (hf _ h x)

/-! What an operation answers beside a module: read from a match on its answer. -/

theorem Kept.snd_eq {r : Bool} {z m : Module} {α : Type} {p : α × Module} {x : α} (e : p = (x, m)) (h : Kept r z p.2) :
    Kept r z m := by subst e; exact h

theorem Kept.fst_eq {r : Bool} {z m : Module} {α : Type} {p : Module × α} {x : α} (e : p = (m, x)) (h : Kept r z p.1) :
    Kept r z m := by subst e; exact h

/-- `Kept` of the module that a check leaves, where the check passes. -/
@[irreducible] def KeptOk (r : Bool) (z : Module) {ε : Type} (x : Except ε Module) : Prop := ∀ m, x = .ok m → Kept r z m

theorem KeptOk.out {r : Bool} {z m : Module} {ε : Type} {x : Except ε Module} (e : x = .ok m) (h : KeptOk r z x) : Kept r z m := by
  unfold KeptOk at h; exact h m e

theorem KeptOk.ok {r : Bool} {z m : Module} {ε : Type} (h : Kept r z m) : KeptOk r z (.ok m : Except ε Module) := by
  unfold KeptOk; intro n e; cases e; exact h

theorem KeptOk.error {r : Bool} {z : Module} {ε : Type} (e : ε) : KeptOk r z (.error e : Except ε Module) := by
  unfold KeptOk; intro n e; cases e

theorem KeptOk.pure {r : Bool} {z m : Module} {ε : Type} (h : Kept r z m) : KeptOk r z (pure m : Except ε Module) := KeptOk.ok h

theorem KeptOk.ite {r : Bool} {z : Module} {ε : Type} {x y : Except ε Module} {c : Prop} [Decidable c] (hx : KeptOk r z x)
    (hy : KeptOk r z y) : KeptOk r z (if c then x else y) := by split <;> assumption

theorem KeptOk.bind {r : Bool} {z : Module} {ε α : Type} {x : Except ε α} {f : α → Except ε Module}
    (h : ∀ a, KeptOk r z (f a)) : KeptOk r z (x >>= f) := by
  cases x with
  | error e => exact KeptOk.error e
  | ok a => exact h a

theorem KeptOk.bind_module {r : Bool} {z : Module} {ε : Type} {x : Except ε Module} {f : Module → Except ε Module}
    (hx : KeptOk r z x) (h : ∀ a, Kept r z a → KeptOk r z (f a)) : KeptOk r z (x >>= f) := by
  cases x with
  | error e => exact KeptOk.error e
  | ok a => exact h a (KeptOk.out rfl hx)

theorem KeptOk.throw {r : Bool} {z : Module} {ε : Type} (e : ε) : KeptOk r z (throw e : Except ε Module) := KeptOk.error e

theorem KeptOk.fn_in_module {r : Bool} {z : Module} {ε : Type} {f : Module → Except ε Module} {P : Prop}
    (v : ∀ x, Kept r z x → KeptOk r z (f x)) (b : (∀ x, Kept r z x → KeptOk r z (f x)) → P) : P := b v

theorem KeptOk.fn_in {r : Bool} {z : Module} {ε α : Type} {f : α → Except ε Module} {P : Prop} (v : ∀ x, KeptOk r z (f x))
    (b : (∀ x, KeptOk r z (f x)) → P) : P := b v

/-- `Kept` of the module that an operation may answer. -/
@[irreducible] def KeptSome (r : Bool) (z : Module) (x : Option Module) : Prop := ∀ m, x = some m → Kept r z m

theorem KeptSome.out {r : Bool} {z m : Module} {x : Option Module} (e : x = some m) (h : KeptSome r z x) : Kept r z m := by
  unfold KeptSome at h; exact h m e

theorem KeptSome.some {r : Bool} {z m : Module} (h : Kept r z m) : KeptSome r z (some m) := by
  unfold KeptSome; intro n e; cases e; exact h

theorem KeptSome.none {r : Bool} {z : Module} : KeptSome r z none := by
  unfold KeptSome; intro n e; cases e

theorem KeptSome.map {r : Bool} {z : Module} {α : Type} {x : Option α} {f : α → Module} (h : ∀ a, Kept r z (f a)) :
    KeptSome r z (x.map f) := by
  cases x with
  | none => exact KeptSome.none
  | some a => exact KeptSome.some (h a)

theorem KeptSome.findSome {r : Bool} {z : Module} {α : Type} {f : α → Option Module} (h : ∀ a, KeptSome r z (f a)) (l : List α) :
    KeptSome r z (l.findSome? f) := by
  induction l with
  | nil => exact KeptSome.none
  | cons x t ih =>
    unfold List.findSome?
    split
    · next e => exact KeptSome.some (KeptSome.out e (h x))
    · exact ih

theorem KeptSome.ite {r : Bool} {z : Module} {x y : Option Module} {c : Prop} [Decidable c] (hx : KeptSome r z x)
    (hy : KeptSome r z y) : KeptSome r z (if c then x else y) := by split <;> assumption

theorem KeptSome.getD {r : Bool} {z m : Module} {x : Option Module} (h : KeptSome r z x) (hm : Kept r z m) :
    Kept r z (x.getD m) := by
  cases x with
  | none => exact hm
  | some a => exact KeptSome.out rfl h

/-- A new memory, in canonical form where the first was. -/
theorem Kept.setMem {r : Bool} {z m : Module} {mem : Memory} (h : Kept r z m) (g : Memory.wf z.mem → Memory.wf mem) :
    Kept r z { m with mem := mem } :=
  ⟨g, h.regs, h.halls, h.benches, h.querns, h.ptns, h.free, h.sent, h.seed, h.hard, h.ltime, h.off, h.faulted⟩

theorem Kept.mem_let {w : Memory} {P : Prop} (h : P) : P := (fun (_ : Memory) => h) w

/-- Memory that an operation answers, put in its place. -/
theorem Kept.mem_in {α : Type} {w : Memory × α} {P : Prop} (h : P) : P := (fun (_ : Memory × α) => h) w

/-- An update of fields other than power and input. -/
theorem Kept.upd {r : Bool} {a m : Module} (h : Kept r a m) {lt : Nat} {regs : WordMap} {mem : Memory} {asy fab guild ctr ptns
    halls benches querns rwk tables xl ha tb insts tokens gathers scatters samples chains hubs groups ni il ns nb nh st fr se}
    (hmem : Memory.wf m.mem → Memory.wf mem) (hregs : SparseWf regDefault m.regs → SparseWf regDefault regs)
    (hh : halls.length = m.halls.length) (hb : benches.length = m.benches.length)
    (hq : querns.length = m.querns.length) (hp : ptns.length = m.ptns.length)
    (hf : m.free ≤ fr) (hs : m.sent <+: se) (hsd : m.asy.seedErased = true → asy.seedErased = true)
    (hd : ∀ i, (m.querns.getD i {}).hardUsed ≤ (querns.getD i {}).hardUsed) (hl : m.ltime ≤ lt) :
    Kept r a { pwr := m.pwr, ltime := lt, regs := regs, mem := mem, asy := asy, fab := fab, guild := guild, ctr := ctr
               ptns := ptns, halls := halls, benches := benches, querns := querns, rwk := rwk, tables := tables, xlat := xl
               heldAcc := ha, tileBad := tb, insts := insts, tokens := tokens, gathers := gathers, scatters := scatters, samples := samples, chains := chains, hubs := hubs
               groups := groups, nextInst := ni, instLog := il, nextSerial := ns, nextBuf := nb, nextHandle := nh, stamp := st
               free := fr, sent := se } :=
  h.trans ⟨hmem, hregs, hh.trans, hb.trans, hq.trans, hp.trans, hf, hs, hsd, hd, fun _ => hl, fun _ => id, fun _ => id⟩

/-- An update of power that leaves OFF and FAULTED as they are. -/
theorem Kept.pwr {r : Bool} {a m : Module} (h : Kept r a m) {p : Power}
    (ho : r = true → m.pwr.mode = .off → p.mode = .off) (hf : r = true → m.pwr.mode = .faulted → p.mode = .faulted) :
    Kept r a { m with pwr := p } :=
  h.trans ⟨id, id, id, id, id, id, Nat.le_refl _, List.prefix_refl _, id, fun _ => Nat.le_refl _, fun _ => Nat.le_refl _,
    ho, hf⟩

theorem hardUsed_modify (l : List Quern) (q : Nat) (f : Quern → Quern) (hf : ∀ x, x.hardUsed ≤ (f x).hardUsed) (i : Nat) :
    (l.getD i {}).hardUsed ≤ ((l.modify q f).getD i {}).hardUsed := by
  simp only [List.getD_eq_getElem?_getD, List.getElem?_modify]
  cases h : l[i]? with
  | none => exact Nat.le_refl _
  | some x => simp only [Option.getD_some]; split
              · exact hf x
              · exact Nat.le_refl _

theorem hardUsed_map (l : List Quern) (f : Quern → Quern) (hf : ∀ x, x.hardUsed ≤ (f x).hardUsed) (i : Nat) :
    (l.getD i {}).hardUsed ≤ ((l.map f).getD i {}).hardUsed := by
  simp only [List.getD_eq_getElem?_getD, List.getElem?_map]
  cases h : l[i]? with
  | none => exact Nat.le_refl _
  | some x => exact hf x

section Ops
variable {r : Bool} {z m : Module}

theorem Module.store_kept (h : Kept r z m) (k : Nat) (bs : List Byte) : Kept r z (m.store k bs) :=
  h.upd (fun x => Memory.writeN_wf x k bs) id rfl rfl rfl rfl (Nat.le_refl _) (List.prefix_refl _) id (fun _ => Nat.le_refl _)
    (Nat.le_refl _)

theorem Module.setReg_kept (h : Kept r z m) (a : Nat) (w : Word) : Kept r z (m.setReg a w) :=
  h.upd id (fun x => sparsePut_wf x a w) rfl rfl rfl rfl (Nat.le_refl _) (List.prefix_refl _) id (fun _ => Nat.le_refl _)
    (Nat.le_refl _)

theorem Module.setFld_kept (h : Kept r z m) (a lo w v : Nat) : Kept r z (m.setFld a lo w v) := Module.setReg_kept h a _

theorem Module.count_kept (h : Kept r z m) (a lo w n : Nat) : Kept r z (m.count a lo w n) := Module.setFld_kept h a lo w _

theorem Module.setHall_kept (h : Kept r z m) (i : Nat) (f : Hall → Hall) : Kept r z (m.setHall i f) :=
  h.upd id id (List.length_modify ..) rfl rfl rfl (Nat.le_refl _) (List.prefix_refl _) id (fun _ => Nat.le_refl _) (Nat.le_refl _)

theorem Module.setBench_kept (h : Kept r z m) (b : Nat) (f : Bench → Bench) : Kept r z (m.setBench b f) :=
  h.upd id id rfl (List.length_modify ..) rfl rfl (Nat.le_refl _) (List.prefix_refl _) id (fun _ => Nat.le_refl _) (Nat.le_refl _)

theorem Module.setQuern_kept (h : Kept r z m) (q : Nat) (f : Quern → Quern) (hf : ∀ x, x.hardUsed ≤ (f x).hardUsed) :
    Kept r z (m.setQuern q f) :=
  h.upd id id rfl rfl (List.length_modify ..) rfl (Nat.le_refl _) (List.prefix_refl _) id (hardUsed_modify _ _ _ hf)
    (Nat.le_refl _)

theorem Module.setPtn_kept (h : Kept r z m) (p : Nat) (f : Partition → Partition) : Kept r z (m.setPtn p f) :=
  h.upd id id rfl rfl rfl (List.length_modify ..) (Nat.le_refl _) (List.prefix_refl _) id (fun _ => Nat.le_refl _) (Nat.le_refl _)

theorem Module.setAsy_kept (h : Kept r z m) (f : Assay → Assay) (hf : m.asy.seedErased = true → (f m.asy).seedErased = true) :
    Kept r z (m.setAsy f) :=
  h.upd id id rfl rfl rfl rfl (Nat.le_refl _) (List.prefix_refl _) hf (fun _ => Nat.le_refl _) (Nat.le_refl _)

theorem Module.setPwr_kept (h : Kept r z m) (f : Power → Power) (ho : r = true → m.pwr.mode = .off → (f m.pwr).mode = .off)
    (hf : r = true → m.pwr.mode = .faulted → (f m.pwr).mode = .faulted) : Kept r z (m.setPwr f) := h.pwr ho hf

/-- An update of fields that `Kept` says nothing about. -/
theorem Kept.other (h : Kept r z m) {fab guild ctr rwk tables xl ha tb insts tokens gathers scatters samples chains hubs groups ni il ns nb
    nh st} :
    Kept r z { m with fab := fab, guild := guild, ctr := ctr, rwk := rwk, tables := tables, xlat := xl, heldAcc := ha
                      tileBad := tb, insts := insts, tokens := tokens
                      gathers := gathers, scatters := scatters, samples := samples, chains := chains, hubs := hubs
                      groups := groups, nextInst := ni, instLog := il, nextSerial := ns, nextBuf := nb, nextHandle := nh
                      stamp := st } :=
  h.upd id id rfl rfl rfl rfl (Nat.le_refl _) (List.prefix_refl _) id (fun _ => Nat.le_refl _) (Nat.le_refl _)

theorem Module.setCtr_kept (h : Kept r z m) (f : Counter → Counter) : Kept r z (m.setCtr f) := h.other
theorem Module.setGuild_kept (h : Kept r z m) (f : Guild → Guild) : Kept r z (m.setGuild f) := h.other
theorem Module.setFab_kept (h : Kept r z m) (f : Fabric → Fabric) : Kept r z (m.setFab f) := h.other
theorem Module.setRwk_kept (h : Kept r z m) (f : Ropewalk → Ropewalk) : Kept r z (m.setRwk f) := h.other
theorem Module.setPort_kept (h : Kept r z m) (p : Nat) (f : Port → Port) : Kept r z (m.setPort p f) := Module.setFab_kept h _
theorem Module.setInst_kept (h : Kept r z m) (i : BitVec 32) (f : Inst → Inst) : Kept r z (m.setInst i f) := h.other
theorem Module.setQp_kept (h : Kept r z m) (n : Nat) (f : QueuePair → QueuePair) : Kept r z (m.setQp n f) := Module.setCtr_kept h _
theorem Module.setFlow_kept (h : Kept r z m) (f : Flow) : Kept r z (m.setFlow f) := Module.setFab_kept h _

theorem Module.setEntry_kept (h : Kept r z m) (k : FKey) (f : MatchEntry → MatchEntry) : Kept r z (m.setEntry k f) :=
  h.upd id id (List.length_map ..) rfl rfl rfl (Nat.le_refl _) (List.prefix_refl _) id (fun _ => Nat.le_refl _) (Nat.le_refl _)

theorem Module.send_kept (h : Kept r z m) (o : Out) : Kept r z (m.send o) :=
  h.upd id id rfl rfl rfl rfl (Nat.le_refl _) (List.prefix_append ..) id (fun _ => Nat.le_refl _) (Nat.le_refl _)

theorem Module.until_kept (h : Kept r z m) (t : Nat) : Kept r z (m.until_ t) :=
  h.upd id id rfl rfl rfl rfl (Nat.le_refl _) (List.prefix_refl _) id (fun _ => Nat.le_refl _) (Nat.le_max_left ..)

theorem Kept.drawn (h : Kept r z m) : Kept r z { m with free := m.free + 1 } :=
  h.upd id id rfl rfl rfl rfl (Nat.le_succ _) (List.prefix_refl _) id (fun _ => Nat.le_refl _) (Nat.le_refl _)

theorem Module.draw_kept (h : Kept r z m) : Kept r z m.draw.2 := h.drawn
theorem Module.pick_kept (h : Kept r z m) (n : Nat) : Kept r z (m.pick n).2 := h.drawn

theorem Module.packet_kept (h : Kept r z m) (dst vc : Nat) (x : FabMsg) : Kept r z (m.packet dst vc x) := by
  unfold Module.packet
  split
  · exact Module.send_kept h _
  · exact Module.send_kept (Module.setFlow_kept h _) _

theorem Module.sendTo_kept (h : Kept r z m) (dst vc : Nat) (x : FabMsg) : Kept r z (m.sendTo dst vc x) := by
  unfold Module.sendTo
  split
  · exact h
  · exact Module.packet_kept h dst vc x

theorem Module.sendAll_kept (h : Kept r z m) (l : List Nat) (vc : Nat) (x : FabMsg) : Kept r z (m.sendAll l vc x) :=
  Kept.foldl l (fun _ hb d => Module.sendTo_kept hb d vc x) h

theorem Module.postBut_kept (h : Kept r z m) (but : List Nat) (sev code : Nat) (p : Option Nat) (obj : Nat) (d : List Byte) :
    Kept r z (m.postBut but sev code p obj d) := by
  unfold Module.postBut
  dsimp only
  split
  · exact Module.send_kept (Module.setCtr_kept h _) _
  · exact Module.setCtr_kept h _

theorem Module.post_kept (h : Kept r z m) (code : Nat) (p : Option Nat) (obj : Nat) (d : List Byte) :
    Kept r z (m.post code p obj d) := Module.postBut_kept h ..

theorem Module.logEvent_kept (h : Kept r z m) (i : Nat) (e : LogEntry) : Kept r z (m.logEvent i e) := by
  unfold Module.logEvent
  dsimp only
  refine Module.setHall_kept ?_ _ _
  split
  · exact Module.count_kept h ..
  · exact h

theorem Module.degrade_kept (h : Kept r z m) (i unit code : Nat) (p : Option Nat) (obj addr : Nat) (d : List Byte) :
    Kept r z (m.degrade i unit code p obj addr d) := Module.post_kept (Module.logEvent_kept h ..) ..

theorem Module.degradeAll_kept (h : Kept r z m) (code : Nat) (p : Option Nat) (obj : Nat) (d : List Byte) :
    Kept r z (m.degradeAll code p obj d) := Module.degrade_kept h ..

end Ops

/-- A command answers a next state whose queue stands and whose module keeps what `Kept` says. -/
def Keeps (r : Bool) (s : State) (o : Host.Outcome State Fault Refusal) : Prop :=
  ∃ m, o = .next { s with m := m } ∧ Kept r s.m m

theorem Keeps.on {r : Bool} {s : State} {f : Module → Module} (h : ∀ z m, Kept r z m → Kept r z (f m)) : Keeps r s (s.on f) :=
  ⟨_, rfl, h _ _ (Kept.refl r s.m)⟩

theorem Keeps.weaken {r : Bool} {s : State} {o : Host.Outcome State Fault Refusal} (h : Keeps true s o) : Keeps r s o := by
  obtain ⟨m, e, k⟩ := h
  exact ⟨m, e, k.weaken⟩

end Sys2Proof.Machine
end

