-- ==== Sys2Proof/Laws/Results.lean ====
section
/-! SUPPORT. Writing a result, an element or a row keeps the canonical form of memory. -/
namespace Sys2Proof.Machine

theorem wf_foldl_fst {α β : Type} {f : Memory × β → α → Memory × β} (hf : ∀ b x, b.1.wf → (f b x).1.wf) (l : List α)
    {b : Memory × β} (h : b.1.wf) : (l.foldl f b).1.wf := by
  induction l generalizing b with
  | nil => exact h
  | cons x t ih => exact ih (hf b x h)

theorem putBits_wf {mem : Memory} (h : mem.wf) (key bit w v : Nat) : (mem.putBits key bit w v).wf := Memory.writeN_wf h _ _

theorem storeElem_wf {mem : Memory} (h : mem.wf) (p : Placed) (bit code : Nat) : (storeElem mem p bit code).wf := by
  unfold storeElem
  split <;> exact putBits_wf h ..

theorem writeCoded_wf {mem : Memory} (h : mem.wf) (p : Placed) (cs : Coded) : (writeCoded mem p cs).1.wf := by
  unfold writeCoded
  split
  · refine wf_foldl_fst (fun b g hb => ?_) _ h
    dsimp only
    split
    · exact putBits_wf (storeElem_wf (storeElem_wf hb ..) ..) ..
    · exact SparseWf.foldl (fun _ _ hl => storeElem_wf hl ..) hb _
  · refine wf_foldl_fst (fun b g hb => ?_) _ h
    exact putBits_wf (Memory.writeN_wf (Memory.writeN_wf (SparseWf.foldl (fun _ _ hl => storeElem_wf hl ..) hb _) ..) ..) ..
  · refine SparseWf.foldl (fun mm c hl => ?_) h cs
    dsimp only
    split
    · exact storeElem_wf hl ..
    · exact hl

theorem writeResult_wf {mem : Memory} (h : mem.wf) (p : Placed) (rnd : Nat → Rnd) (f : Nat → Nat → Nat → Option Elem) :
    (writeResult mem p rnd f).1.wf :=
  SparseWf.foldl (fun _ _ hl => Memory.write_wf hl ..) (writeCoded_wf h ..) _

theorem copyRow_wf {mem : Memory} (h : mem.wf) (p : Placed) (t : PlacementRec) (bag : Nat) (row : List Byte) :
    (copyRow mem p t bag row).wf := by
  have h1 := SparseWf.foldl (f := fun (mm : Memory) i => storeElem mm p (p.t.elemBit i bag 0)
      (fieldAt row (i * typeBits t.type / 8) ((i * typeBits t.type % 8 + typeBits t.type + 7) / 8) /
        2 ^ (i * typeBits t.type % 8) % 2 ^ typeBits t.type)) (fun _ _ hl => storeElem_wf hl ..) h (List.range t.dim)
  unfold copyRow
  dsimp only
  split
  · exact SparseWf.foldl (fun _ _ hl => Memory.write_wf hl ..) h1 _
  · exact h1

end Sys2Proof.Machine
end

