-- ==== Sys2Proof/Laws/KeptFiring.lean ====
section
/-! SUPPORT. `Kept` for the operations of the firings: completions, matching and the node classes that compute: one lemma each. -/
namespace Sys2Proof.Machine

theorem Module.deny_kept {r : Bool} {z m : Module} (h : Kept r z m) (p : Nat) (M : Nat) (tclass : Nat) (target : Nat)
    (perm : Nat) :
    Kept r z (Module.deny m p M tclass target perm) := by
  unfold Module.deny
  repeat' first
    | with_reducible assumption
    | (extract_lets +onlyGivenNames m
       first
       | (refine Kept.let_in (r := r) (z := z) (m := m) ?_ fun hm => ?_; subst m; rotate_left; clear_value m)
       | clear_value m)
    | with_reducible apply Module.count_kept
    | with_reducible apply Module.setReg_kept
    | with_reducible apply Module.setPtn_kept
    | with_reducible apply Module.post_kept
    | split

theorem Module.cacheXlat_kept {r : Bool} {z m : Module} (h : Kept r z m) (u : XUnit) (p : Nat) (ra : Nat) (len : Nat) :
    Kept r z (Module.cacheXlat m u p ra len) := by
  unfold Module.cacheXlat
  repeat' first
    | with_reducible assumption
    | split
    | ((conv => (pattern (Module.mk ..); skip)); with_reducible apply Kept.upd)
    | exact id
    | exact Nat.le_refl _
    | exact List.prefix_refl _
    | exact fun _ => Nat.le_refl _
    | with_reducible exact rfl

theorem Module.dropXlat_kept {r : Bool} {z m : Module} (h : Kept r z m) (p : Nat) :
    Kept r z (Module.dropXlat m p) := by
  unfold Module.dropXlat
  repeat' first
    | with_reducible assumption
    | ((conv => (pattern (Module.mk ..); skip)); with_reducible apply Kept.upd)
    | exact id
    | exact Nat.le_refl _
    | exact List.prefix_refl _
    | exact fun _ => Nat.le_refl _
    | with_reducible exact rfl

theorem Module.xfault_kept {r : Bool} {z m : Module} (h : Kept r z m) (p : Nat) (M : Nat) (ra : Nat) (cause : Nat)
    (perm : Nat) :
    Kept r z (Module.xfault m p M ra cause perm) := by
  unfold Module.xfault
  repeat' first
    | with_reducible assumption
    | (extract_lets +onlyGivenNames m
       first
       | (refine Kept.let_in (r := r) (z := z) (m := m) ?_ fun hm => ?_; subst m; rotate_left; clear_value m)
       | clear_value m)
    | with_reducible apply Module.count_kept
    | with_reducible apply Module.setReg_kept
    | with_reducible apply Module.deny_kept
    | split

theorem Module.sendEntry_kept {r : Bool} {z m : Module} (h : Kept r z m) (x : QueuePair) (e : QEvent) :
    Kept r z (Module.sendEntry m x e) := by
  unfold Module.sendEntry
  repeat' first
    | with_reducible assumption
    | with_reducible apply Module.setQp_kept
    | with_reducible apply Module.send_kept
    | with_reducible apply Module.count_kept
    | split

theorem Module.sendLost_kept {r : Bool} {z m : Module} (h : Kept r z m) (x : QueuePair) :
    Kept r z (Module.sendLost m x) := by
  unfold Module.sendLost
  repeat' first
    | with_reducible assumption
    | with_reducible apply Module.setQp_kept
    | with_reducible apply Module.sendEntry_kept
    | with_reducible apply Module.setCtr_kept

theorem Module.pump.go_kept {r : Bool} {z m : Module} (h : Kept r z m) (q : Nat) (a : Nat) :
    Kept r z (Module.pump.go q a m) := by
  induction a generalizing m <;> unfold Module.pump.go <;>
  repeat' first
    | with_reducible apply Module.sendLost_kept
    | with_reducible apply Module.sendEntry_kept
    | with_reducible apply Module.setQp_kept
    | with_reducible apply_assumption -symm -exfalso
    | split

theorem Module.pump_kept {r : Bool} {z m : Module} (h : Kept r z m) (q : Nat) :
    Kept r z (Module.pump m q) := by
  unfold Module.pump
  repeat' first
    | with_reducible assumption
    | with_reducible apply Module.pump.go_kept

theorem Module.enqueue_kept {r : Bool} {z m : Module} (h : Kept r z m) (q : Nat) (c : Completion) :
    Kept r z (Module.enqueue m q c) := by
  unfold Module.enqueue
  repeat' first
    | with_reducible assumption
    | with_reducible apply Module.pump_kept
    | with_reducible apply Module.setQp_kept
    | split

theorem Module.setTally_kept {r : Bool} {z m : Module} (h : Kept r z m) (p : Nat) (reqid : Word)
    (f : TallyEntry → TallyEntry) :
    Kept r z (Module.setTally m p reqid f) := by
  unfold Module.setTally
  repeat' first
    | with_reducible assumption
    | with_reducible apply Module.setPtn_kept

theorem Module.deliverPush_kept {r : Bool} {z m : Module} (h : Kept r z m) (a : Answer) (d : Delivery) (extra : Nat) :
    Kept r z (Module.deliverPush m a d extra) := by
  unfold Module.deliverPush
  repeat' first
    | with_reducible assumption
    | with_reducible apply Module.send_kept
    | with_reducible apply Module.enqueue_kept
    | (with_reducible apply Kept.foldl; intro b hb x)

theorem Module.deliverMailbox_kept {r : Bool} {z m : Module} (h : Kept r z m) (a : Answer) (d : Delivery) :
    Kept r z (Module.deliverMailbox m a d) := by
  unfold Module.deliverMailbox
  repeat' first
    | with_reducible assumption
    | with_reducible apply Module.store_kept
    | with_reducible apply Module.setQp_kept
    | with_reducible apply Module.enqueue_kept
    | split

theorem Module.deliver_kept {r : Bool} {z m : Module} (h : Kept r z m) (a : Answer) (d : Delivery) :
    Kept r z (Module.deliver m a d) := by
  unfold Module.deliver
  repeat' first
    | with_reducible assumption
    | with_reducible apply Module.deliverMailbox_kept
    | with_reducible apply Module.deliverPush_kept
    | split

theorem Module.answerDup_kept {r : Bool} {z m : Module} (h : Kept r z m) (a : Answer) (e : TallyEntry) (atHand : Bool)
    (o : Origin) :
    Kept r z (Module.answerDup m a e atHand o) := by
  unfold Module.answerDup
  repeat' first
    | with_reducible assumption
    | (extract_lets +onlyGivenNames m
       first
       | (refine Kept.let_in (r := r) (z := z) (m := m) ?_ fun hm => ?_; subst m; rotate_left; clear_value m)
       | clear_value m)
    | with_reducible apply Module.count_kept
    | with_reducible apply Module.enqueue_kept
    | with_reducible apply Module.deliverPush_kept
    | with_reducible apply Module.sendTo_kept
    | split

theorem Module.recordDone_kept {r : Bool} {z m : Module} (h : Kept r z m) (p : Nat) (reqid : Word) (status : Nat)
    (value : Nat) (results : optParam (List (List (Nat × List Byte))) []) :
    Kept r z (Module.recordDone m p reqid status value results) := by
  unfold Module.recordDone
  split
  · exact h
  split
  · exact h
  extract_lets late ok st keep len done a m1 m2 m3 m4 m5
  have h1 : Kept r z m1 := Module.setTally_kept h _ _ _
  have h2 : Kept r z m2 := by
    unfold m2; split
    · exact Module.count_kept h1 _ _ _ _
    · exact h1
  have h3 : Kept r z m3 := by
    unfold m3; split
    · exact Module.sendTo_kept h2 _ _ _
    · exact h2
  have h4 : Kept r z m4 := by
    unfold m4; split
    · exact Module.deliver_kept h3 _ _
    split
    · exact h3
    split
    · exact Module.sendTo_kept h3 _ _ _
    · exact h3
  have h5 : Kept r z m5 := Kept.foldl _ (fun _ hb _ => Module.answerDup_kept hb _ _ _ _) h4
  split
  · exact Module.post_kept h5 _ _ _ _
  · exact h5

theorem Module.complete_kept {r : Bool} {z m : Module} (h : Kept r z m) (p : Nat) (reqid : Word) (status : Nat)
    (value : optParam Nat 0) :
    Kept r z (Module.complete m p reqid status value) := by
  unfold Module.complete
  repeat' first
    | with_reducible assumption
    | with_reducible apply Module.recordDone_kept

theorem Module.opened_kept {r : Bool} {z m : Module} (h : Kept r z m) : Kept r z (Module.opened m) :=
  h.setMem fun x => SparseWf.foldl (fun _ _ y => Memory.writeN_wf y ..) (h.mem x) _

theorem Module.closed_kept {r : Bool} {z m after : Module} (h : Kept r z after) : Kept r z (Module.closed m after) := by
  unfold Module.closed
  refine Kept.foldl _ (fun b hb x => ?_) h
  dsimp only
  split
  · exact hb.setMem fun y => Memory.writeN_wf (hb.mem y) ..
  · exact hb.upd id id rfl rfl (List.length_map ..) rfl (Nat.le_refl _) (List.prefix_refl _) id
      (hardUsed_map _ _ fun _ => Nat.le_refl _) (Nat.le_refl _)

theorem Module.refill_kept {r : Bool} {z m : Module} (h : Kept r z m) (s : Nat) :
    Kept r z (Module.refill m s) := by
  unfold Module.refill
  repeat' first
    | with_reducible assumption
    | with_reducible apply Module.setQuern_kept
    | exact fun _ => Nat.le_refl _

theorem Module.charge_kept {r : Bool} {z m : Module} (h : Kept r z m) (s : Nat) (p : Nat) (n : Nat) :
    Kept r z (Module.charge m s p n) := by
  unfold Module.charge
  repeat' first
    | (extract_lets +onlyGivenNames m
       first
       | (refine Kept.let_in (r := r) (z := z) (m := m) ?_ fun hm => ?_; subst m; rotate_left; clear_value m)
       | (refine Kept.fn_in (r := r) (z := z) (f := m) ?_ fun hm => ?_; subst m; rotate_left; clear_value m)
       | clear_value m)
    | with_reducible apply Module.count_kept
    | with_reducible apply Module.setQuern_kept
    | with_reducible apply Module.refill_kept
    | with_reducible apply Module.until_kept
    | exact fun _ => Nat.le_refl _
    | intro x
    | with_reducible apply_assumption -symm -exfalso
    | split

theorem Module.chargeKey_kept {r : Bool} {z m : Module} (h : Kept r z m) (s : Nat) (key : Nat) (bytes : Nat) :
    Kept r z (Module.chargeKey m s key bytes) := by
  unfold Module.chargeKey
  repeat' first
    | with_reducible assumption
    | with_reducible apply Module.charge_kept
    | split

theorem Module.clearPoison_kept {r : Bool} {z m : Module} (h : Kept r z m) (key : Nat) (len : Nat) :
    Kept r z (Module.clearPoison m key len) := by
  unfold Module.clearPoison
  repeat' first
    | with_reducible assumption
    | ((conv => (pattern (Module.mk ..); skip)); with_reducible apply Kept.upd)
    | exact id
    | exact Nat.le_refl _
    | exact List.prefix_refl _
    | with_reducible exact rfl
    | exact List.length_map ..
    | exact hardUsed_map _ _ fun _ => Nat.le_refl _

theorem Module.writeBack_kept {r : Bool} {z m : Module} (h : Kept r z m) (s : Nat) (line : Nat) :
    Kept r z (Module.writeBack m s line) := by
  unfold Module.writeBack
  repeat' first
    | with_reducible assumption
    | (extract_lets +onlyGivenNames m; refine Kept.let_in (r := r) (z := z) (m := m) ?_ fun hm => ?_; subst m; rotate_left; clear_value m)
    | with_reducible apply Module.setQuern_kept
    | with_reducible apply Module.charge_kept
    | with_reducible apply Module.count_kept
    | with_reducible apply Module.store_kept
    | split
    | exact fun _ => Nat.le_refl _

theorem Module.cleanCache_kept {r : Bool} {z m : Module} (h : Kept r z m) (h_35 : Nat) (p : CacheLine → Bool) :
    Kept r z (Module.cleanCache m h_35 p) := by
  unfold Module.cleanCache
  repeat' first
    | with_reducible assumption
    | with_reducible apply Module.chargeKey_kept
    | with_reducible apply Module.count_kept
    | with_reducible apply Module.setHall_kept
    | (with_reducible apply Kept.foldl; intro b hb x)

theorem Module.dropCache_kept {r : Bool} {z m : Module} (h : Kept r z m) (h_35 : Nat) (p : CacheLine → Bool) :
    Kept r z (Module.dropCache m h_35 p) := by
  unfold Module.dropCache
  repeat' first
    | with_reducible assumption
    | with_reducible apply Module.setHall_kept

theorem Module.snoop_kept {r : Bool} {z m : Module} (h : Kept r z m) (s : Nat) (line : Nat) :
    Kept r z (Module.snoop m s line) := by
  unfold Module.snoop
  repeat' first
    | with_reducible assumption
    | (extract_lets +onlyGivenNames m
       first
       | (refine Kept.let_in (r := r) (z := z) (m := m) ?_ fun hm => ?_; subst m; rotate_left; clear_value m)
       | clear_value m)
    | with_reducible apply Module.setHall_kept
    | with_reducible apply Module.count_kept
    | split

theorem Module.staleLine_kept {r : Bool} {z m : Module} (h : Kept r z m) (s : Nat) (line : Nat) (hrc : Bool) :
    Kept r z (Module.staleLine m s line hrc) := by
  unfold Module.staleLine
  repeat' first
    | with_reducible assumption
    | with_reducible apply Module.setQuern_kept
    | exact fun _ => Nat.le_refl _

theorem Module.staleSpan_kept {r : Bool} {z m : Module} (h : Kept r z m) (lo : Nat) (hi : Nat) :
    Kept r z (Module.staleSpan m lo hi) := by
  unfold Module.staleSpan
  repeat' first
    | with_reducible assumption
    | with_reducible apply Module.staleLine_kept
    | (with_reducible apply Kept.foldl; intro b hb x)
    | split

theorem Module.dropRows_kept {r : Bool} {z m : Module} (h : Kept r z m) (lo : Nat) (hi : Nat) :
    Kept r z (Module.dropRows m lo hi) := by
  unfold Module.dropRows
  repeat' first
    | with_reducible assumption
    | with_reducible apply Module.setQuern_kept
    | (with_reducible apply Kept.foldl; intro b hb x)
    | exact fun _ => Nat.le_refl _

theorem Module.install_kept {r : Bool} {z m : Module} (h : Kept r z m) (h_35 : Nat) (p : Nat) (line : Nat) (dirty : Bool) :
    Kept r z (Module.install m h_35 p line dirty) := by
  unfold Module.install
  repeat' first
    | with_reducible assumption
    | (extract_lets +onlyGivenNames m
       first
       | (refine Kept.let_in (r := r) (z := z) (m := m) ?_ fun hm => ?_; subst m; rotate_left; clear_value m)
       | (refine Kept.let_snd (r := r) (z := z) (p := m) ?_ fun hm => ?_; subst m; rotate_left; clear_value m)
       | clear_value m)
    | with_reducible apply Module.pick_kept
    | with_reducible apply Module.setHall_kept
    | with_reducible apply Module.count_kept
    | with_reducible apply Module.chargeKey_kept
    | split

theorem Module.cacheHit_kept {r : Bool} {z m : Module} (h : Kept r z m) (h_35 : Nat) (line : Nat) (hint : Nat) :
    Kept r z (Module.cacheHit m h_35 line hint) := by
  unfold Module.cacheHit
  repeat' first
    | with_reducible assumption
    | with_reducible apply Module.count_kept
    | with_reducible apply Module.setHall_kept

theorem Module.landFill_kept {r : Bool} {z m : Module} (h : Kept r z m) (h_35 : Nat) (f : Fill) :
    Kept r z (Module.landFill m h_35 f) := by
  unfold Module.landFill
  repeat' first
    | with_reducible assumption
    | with_reducible apply Module.install_kept
    | with_reducible apply Module.chargeKey_kept
    | (with_reducible apply Kept.foldl; intro b hb x)
    | split

theorem Module.startFill_kept {r : Bool} {z m : Module} (h : Kept r z m) (s : Nat) (p : Nat) (ls : List Nat)
    (install : Bool) (dirty : Bool) (now : Bool) :
    Kept r z (Module.startFill m s p ls install dirty now) := by
  unfold Module.startFill
  repeat' first
    | with_reducible assumption
    | with_reducible apply Module.chargeKey_kept
    | with_reducible apply Module.count_kept
    | with_reducible apply Module.landFill_kept
    | with_reducible apply Module.setHall_kept
    | split

theorem Module.access_kept {r : Bool} {z m : Module} (h : Kept r z m) (hall : Nat) (p : Nat) (key : Nat) (len : Nat)
    (hint : Nat) (table : Bool) (write : Bool) (now : Bool) :
    Kept r z (Module.access m hall p key len hint table write now) := by
  unfold Module.access
  repeat' first
    | with_reducible assumption
    | (extract_lets +onlyGivenNames m
       first
       | (refine Kept.let_in (r := r) (z := z) (m := m) ?_ fun hm => ?_; subst m; rotate_left; clear_value m)
       | clear_value m)
    | with_reducible apply Module.count_kept
    | with_reducible apply Module.cacheHit_kept
    | with_reducible apply Module.startFill_kept
    | with_reducible apply Module.chargeKey_kept
    | with_reducible apply Module.setHall_kept
    | with_reducible apply Module.install_kept
    | (with_reducible apply Kept.foldl; intro b hb x)
    | split

theorem Module.accessAll_kept {r : Bool} {z m : Module} (h : Kept r z m) (hall : Nat) (p : Nat) (ra : Nat) (len : Nat)
    (hint : Nat) (write : Bool) :
    Kept r z (Module.accessAll m hall p ra len hint write) := by
  unfold Module.accessAll
  repeat' first
    | with_reducible assumption
    | with_reducible apply Module.access_kept
    | (with_reducible apply Kept.foldl; intro b hb x)
    | split

theorem Module.pipeCopy_kept {r : Bool} {z m : Module} (h : Kept r z m) (k : FKey) (key : Nat) (off : Nat) (len : Nat) :
    Kept r z (Module.pipeCopy m k key off len) := by
  unfold Module.pipeCopy
  repeat' first
    | with_reducible assumption
    | split
    | ((conv => (pattern (Module.mk ..); skip)); with_reducible apply Kept.upd)
    | exact id
    | exact Nat.le_refl _
    | exact List.prefix_refl _
    | exact fun _ => Nat.le_refl _
    | with_reducible exact rfl
    | exact fun x => Memory.copy_wf x _ _ _

theorem Module.unspecified_kept {r : Bool} {z m : Module} (h : Kept r z m) (key : Nat) (len : Nat) :
    Kept r z (Module.unspecified m key len) := by
  unfold Module.unspecified
  repeat' first
    | with_reducible assumption
    | with_reducible apply Module.draw_kept
    | ((conv => (pattern (Module.mk ..); skip)); with_reducible apply Kept.setMem)
    | exact fun x => Memory.writeN_wf (Kept.mem (by with_reducible assumption) x) ..

theorem Module.unspecifiedAll_kept {r : Bool} {z m : Module} (h : Kept r z m) (keys : List (Nat × Nat)) :
    Kept r z (Module.unspecifiedAll m keys) := by
  unfold Module.unspecifiedAll
  repeat' first
    | with_reducible assumption
    | with_reducible apply Module.unspecified_kept
    | (with_reducible apply Kept.foldl; intro b hb x)

theorem Module.blur_kept {r : Bool} {z m : Module} (h : Kept r z m) (f : Firing) (r_71 : Nat) (keys : List (Nat × Nat)) :
    Kept r z (Module.blur m f r_71 keys) := by
  unfold Module.blur
  repeat' first
    | with_reducible assumption
    | with_reducible apply Module.unspecifiedAll_kept

theorem Module.wrote_kept {r : Bool} {z m : Module} (h : Kept r z m) (f : Firing) (r_71 : Nat) (p : Placed)
    (spans : List (Nat × Nat)) :
    Kept r z (Module.wrote m f r_71 p spans) := by
  unfold Module.wrote
  repeat' first
    | with_reducible assumption
    | with_reducible apply Module.blur_kept
    | with_reducible apply Module.pipeCopy_kept
    | with_reducible apply Module.staleSpan_kept
    | with_reducible apply Module.clearPoison_kept
    | with_reducible apply Module.setInst_kept
    | (with_reducible apply Kept.foldl; intro b hb x)
    | split

theorem Module.spoil_kept {r : Bool} {z m : Module} (h : Kept r z m) (p : Placed) :
    Kept r z (Module.spoil m p) := by
  unfold Module.spoil
  repeat' first
    | with_reducible assumption
    | with_reducible apply Module.unspecifiedAll_kept

theorem Module.moveStream_kept {r : Bool} {z m : Module} (h : Kept r z m) (f : Firing) (p : Nat) (t : Tensor) (at0 : Nat)
    (n : Nat) :
    Kept r z (Module.moveStream m f p t at0 n) := by
  unfold Module.moveStream
  repeat' first
    | with_reducible assumption
    | with_reducible apply Module.accessAll_kept
    | (with_reducible apply Kept.foldl; intro b hb x)

theorem Module.moveRest_kept {r : Bool} {z m : Module} (h : Kept r z m) (f : Firing) :
    Kept r z (Module.moveRest m f) := by
  unfold Module.moveRest
  repeat' first
    | with_reducible assumption
    | (extract_lets +onlyGivenNames m
       first
       | (refine Kept.let_in (r := r) (z := z) (m := m) ?_ fun hm => ?_; subst m; rotate_left; clear_value m)
       | clear_value m)
    | with_reducible apply Module.moveStream_kept
    | (with_reducible apply Kept.foldl; intro b hb x)
    | split

theorem Module.setCtxs_kept {r : Bool} {z m : Module} (h : Kept r z m) (h_35 : Nat) (p : Context → Bool)
    (f : Context → Context) :
    Kept r z (Module.setCtxs m h_35 p f) := by
  unfold Module.setCtxs
  repeat' first
    | with_reducible assumption
    | with_reducible apply Module.setHall_kept

theorem Module.showStatus_kept {r : Bool} {z m : Module} (h : Kept r z m) (f : Firing) (st : Nat) :
    Kept r z (Module.showStatus m f st) := by
  unfold Module.showStatus
  repeat' first
    | with_reducible assumption
    | with_reducible apply Module.setFld_kept
    | with_reducible apply Module.setReg_kept
    | (with_reducible apply Kept.foldl; intro b hb x)
    | split

theorem Module.finish_kept {r : Bool} {z m : Module} (h : Kept r z m) (f : Firing) (st : Nat) :
    Kept r z (Module.finish m f st) := by
  unfold Module.finish
  repeat' first
    | with_reducible assumption
    | with_reducible apply Module.count_kept
    | with_reducible apply Module.moveRest_kept
    | with_reducible apply Module.setCtxs_kept
    | with_reducible apply Module.setEntry_kept
    | with_reducible apply Module.showStatus_kept
    | split

theorem Module.haltAt_kept {r : Bool} {z m : Module} (h : Kept r z m) (h_35 : Nat) (p : Nat) (k : FKey) (port : Nat)
    (page : Nat) :
    Kept r z (Module.haltAt m h_35 p k port page) := by
  unfold Module.haltAt
  repeat' first
    | with_reducible assumption
    | (extract_lets +onlyGivenNames m
       first
       | (refine Kept.let_in (r := r) (z := z) (m := m) ?_ fun hm => ?_; subst m; rotate_left; clear_value m)
       | clear_value m)
    | with_reducible apply Module.setCtxs_kept
    | with_reducible apply Module.count_kept
    | with_reducible apply Module.setReg_kept
    | with_reducible apply Module.setEntry_kept
    | with_reducible apply Module.post_kept
    | with_reducible apply Module.setPtn_kept
    | split

theorem Module.stopFiring_kept {r : Bool} {z m : Module} (h : Kept r z m) (f : Firing) (a : Stop) :
    Kept r z (Module.stopFiring m f a) := by
  unfold Module.stopFiring
  repeat' first
    | with_reducible assumption
    | with_reducible apply Module.xfault_kept
    | with_reducible apply Module.setInst_kept
    | with_reducible apply Module.finish_kept
    | with_reducible apply Module.haltAt_kept
    | split
    | ((conv => (pattern (Module.mk ..); skip)); with_reducible apply Kept.upd)
    | exact id
    | exact Nat.le_refl _
    | exact List.prefix_refl _
    | exact fun _ => Nat.le_refl _
    | with_reducible exact rfl

theorem Module.work_kept {r : Bool} {z m : Module} (h : Kept r z m) (k : FKey) (op : Nat)
    (act : Module → Firing → Except Stop Module) (hact : ∀ x y, Kept r z x → KeptOk r z (act x y)) :
    Kept r z (Module.work m k op act) := by
  unfold Module.work
  split
  · exact h
  · split
    · next e => exact Module.closed_kept (KeptOk.out e (hact _ _ (Module.opened_kept h)))
    · exact Module.stopFiring_kept h ..

theorem Module.spend_kept {r : Bool} {z m : Module} (h : Kept r z m) :
    Kept r z (Module.spend m) := by
  unfold Module.spend
  repeat' first
    | with_reducible assumption
    | ((conv => (pattern (Module.mk ..); skip)); with_reducible apply Kept.upd)
    | exact id
    | exact Nat.le_refl _
    | exact List.prefix_refl _
    | exact fun _ => Nat.le_refl _
    | with_reducible exact rfl
    | exact Nat.le_succ _

theorem Module.asks_kept {r : Bool} {z m : Module} (h : Kept r z m) (f : Firing) (benches : List Nat) (skip : List Nat)
    (extra : Nat) :
    Kept r z (Module.asks m f benches skip extra).2 := by
  unfold Module.asks
  repeat' first
    | with_reducible assumption
    | with_reducible apply Module.draw_kept

theorem Module.admission_kept {r : Bool} {z m : Module} (h : Kept r z m) (f : Firing) (benches : List Nat) :
    Kept r z (Module.admission m f benches).2 := by
  unfold Module.admission
  repeat' first
    | with_reducible assumption
    | with_reducible apply Module.asks_kept

theorem Module.reserve_kept {r : Bool} {z m : Module} (h : Kept r z m) (h_35 : Nat) (a : Admission) :
    Kept r z (Module.reserve m h_35 a) := by
  unfold Module.reserve
  repeat' first
    | with_reducible assumption
    | with_reducible apply Module.count_kept
    | with_reducible apply Module.setHall_kept

theorem Module.launch_kept {r : Bool} {z m : Module} (h : Kept r z m) (k : FKey) :
    Kept r z (Module.launch m k) := by
  unfold Module.launch
  repeat' first
    | with_reducible assumption
    | with_reducible apply Module.setEntry_kept

theorem Module.admitted_kept {r : Bool} {z m : Module} (h : Kept r z m) (h_35 : Nat) (a : Admission) :
    Kept r z (Module.admitted m h_35 a) := by
  unfold Module.admitted
  repeat' first
    | with_reducible assumption
    | with_reducible apply Module.launch_kept
    | with_reducible apply Module.reserve_kept
    | (with_reducible apply Kept.foldl; intro b hb x)

theorem Module.offer_kept {r : Bool} {z m : Module} (h : Kept r z m) (h_35 : Nat) (a : Admission) :
    Kept r z (Module.offer m h_35 a) := by
  unfold Module.offer
  repeat' first
    | with_reducible assumption
    | with_reducible apply Module.admitted_kept
    | with_reducible apply Module.count_kept
    | with_reducible apply Module.setHall_kept
    | split

theorem Module.takeIn_kept {r : Bool} {z m : Module} (h : Kept r z m) (f : Firing) (benches : List Nat) :
    Kept r z (Module.takeIn m f benches) := by
  unfold Module.takeIn
  repeat' first
    | with_reducible assumption
    | with_reducible apply Module.admission_kept
    | with_reducible apply Module.offer_kept

theorem Module.freeStreams_kept {r : Bool} {z m : Module} (h : Kept r z m) (h_35 : Nat) (k : FKey) :
    Kept r z (Module.freeStreams m h_35 k) := by
  unfold Module.freeStreams
  repeat' first
    | with_reducible assumption
    | with_reducible apply Module.setHall_kept

theorem Module.useTurn_kept {r : Bool} {z m : Module} (h : Kept r z m) (h_35 : Nat) (b : Nat) (p : Nat) (ps : List Nat) :
    Kept r z (Module.useTurn m h_35 b p ps) := by
  unfold Module.useTurn
  repeat' first
    | with_reducible assumption
    | with_reducible apply Module.setHall_kept

theorem Module.teamTurns_kept {r : Bool} {z m : Module} (h : Kept r z m) (p : Nat) (bs : List Nat) :
    Kept r z (Module.teamTurns m p bs) := by
  unfold Module.teamTurns
  repeat' first
    | with_reducible assumption
    | with_reducible apply Module.useTurn_kept
    | (with_reducible apply Kept.foldl; intro b hb x)

theorem Module.unhold_kept {r : Bool} {z m : Module} (h : Kept r z m) (keys : List FKey) :
    Kept r z (Module.unhold m keys) := by
  unfold Module.unhold
  repeat' first
    | with_reducible assumption
    | ((conv => (pattern (Module.mk ..); skip)); with_reducible apply Kept.upd)
    | exact id
    | exact Nat.le_refl _
    | exact List.prefix_refl _
    | exact fun _ => Nat.le_refl _
    | with_reducible exact rfl
    | exact List.length_map ..

theorem Module.toWarden_kept {r : Bool} {z m : Module} (h : Kept r z m) (x : FabMsg) :
    Kept r z (Module.toWarden m x) := by
  unfold Module.toWarden
  repeat' first
    | with_reducible assumption
    | with_reducible apply Module.packet_kept

theorem Module.toJoined_kept {r : Bool} {z m : Module} (h : Kept r z m) (x : FabMsg) :
    Kept r z (Module.toJoined m x) := by
  unfold Module.toJoined
  repeat' first
    | with_reducible assumption
    | with_reducible apply Module.packet_kept
    | (with_reducible apply Kept.foldl; intro b hb x)

theorem Module.checkRebuilds_kept {r : Bool} {z m : Module} (h : Kept r z m) :
    Kept r z (Module.checkRebuilds m) := by
  unfold Module.checkRebuilds
  repeat' first
    | with_reducible assumption
    | with_reducible apply Module.toWarden_kept
    | with_reducible apply Module.setGuild_kept
    | (with_reducible apply Kept.foldl; intro b hb x)
    | split

theorem Module.checkReady_kept {r : Bool} {z m : Module} (h : Kept r z m) :
    Kept r z (Module.checkReady m) := by
  unfold Module.checkReady
  repeat' first
    | with_reducible assumption
    | with_reducible apply Module.toWarden_kept
    | with_reducible apply Module.setGuild_kept
    | split

theorem Module.makeReady_kept {r : Bool} {z m : Module} (h : Kept r z m) (h_35 : Nat) (k : FKey) (place : Place) :
    Kept r z (Module.makeReady m h_35 k place) := by
  unfold Module.makeReady
  repeat' first
    | with_reducible assumption
    | with_reducible apply Module.setEntry_kept
    | ((conv => (pattern (Module.mk ..); skip)); with_reducible apply Kept.upd)
    | exact id
    | exact Nat.le_refl _
    | exact List.prefix_refl _
    | exact fun _ => Nat.le_refl _
    | with_reducible exact rfl

theorem Module.promote_kept {r : Bool} {z m : Module} (h : Kept r z m) (h_35 : Nat) :
    Kept r z (Module.promote m h_35) := by
  unfold Module.promote
  repeat' first
    | with_reducible assumption
    | (extract_lets +onlyGivenNames m; clear_value m)
    | with_reducible apply Module.makeReady_kept
    | split

theorem Module.promoteAll_kept {r : Bool} {z m : Module} (h : Kept r z m) :
    Kept r z (Module.promoteAll m) := by
  unfold Module.promoteAll
  repeat' first
    | with_reducible assumption
    | with_reducible apply Module.promote_kept
    | (with_reducible apply Kept.foldl; intro b hb x)

theorem Module.flagInst_kept {r : Bool} {z m : Module} (h : Kept r z m) (i : BitVec 32) (st : Nat) :
    Kept r z (Module.flagInst m i st) := by
  unfold Module.flagInst
  repeat' first
    | with_reducible assumption
    | with_reducible apply Module.setInst_kept

theorem Module.addToken_kept {r : Bool} {z m : Module} (h : Kept r z m) (h_35 : Nat) (ptn : Nat) (t : Token)
    (place : Place) (st : EntryState) :
    Kept r z (Module.addToken m h_35 ptn t place st) := by
  unfold Module.addToken
  repeat' first
    | with_reducible assumption
    | with_reducible apply Module.setEntry_kept
    | with_reducible apply Module.setHall_kept
    | split

theorem Module.settleToken_kept {r : Bool} {z m : Module} (h : Kept r z m) (t : Token) (a : Fate) :
    Kept r z (Module.settleToken m t a) := by
  unfold Module.settleToken
  repeat' first
    | with_reducible assumption
    | with_reducible apply Module.count_kept
    | with_reducible apply Module.flagInst_kept
    | with_reducible apply Module.addToken_kept
    | with_reducible apply Module.makeReady_kept
    | split

theorem Module.tokenArrive_kept {r : Bool} {z m : Module} (h : Kept r z m) (t : Token) :
    Kept r z (Module.tokenArrive m t) := by
  unfold Module.tokenArrive
  repeat' first
    | with_reducible assumption
    | with_reducible apply Module.count_kept
    | with_reducible apply Module.settleToken_kept
    | split
    | ((conv => (pattern (Module.mk ..); skip)); with_reducible apply Kept.upd)
    | exact id
    | exact Nat.le_refl _
    | exact List.prefix_refl _
    | exact fun _ => Nat.le_refl _
    | with_reducible exact rfl

theorem execTokenArrive_kept (t : Token) (s : State) :
    Keeps true s (execTokenArrive t s) := by
  unfold execTokenArrive
  refine Keeps.on fun z m h => ?_
  repeat' first
    | with_reducible assumption
    | with_reducible apply Module.tokenArrive_kept

theorem Module.discardLate_kept {r : Bool} {z m : Module} (h : Kept r z m) (t : Token) :
    Kept r z (Module.discardLate m t) := by
  unfold Module.discardLate
  repeat' first
    | with_reducible assumption
    | with_reducible apply Module.settleToken_kept
    | with_reducible apply Module.setFlow_kept
    | with_reducible apply Module.until_kept
    | with_reducible apply Module.count_kept
    | split
    | ((conv => (pattern (Module.mk ..); skip)); with_reducible apply Kept.upd)
    | exact id
    | exact Nat.le_refl _
    | exact List.prefix_refl _
    | exact fun _ => Nat.le_refl _
    | with_reducible exact rfl

theorem execStaleTokenDiscard_kept (t : Token) (s : State) :
    Keeps true s (execStaleTokenDiscard t s) := by
  unfold execStaleTokenDiscard
  refine Keeps.on fun z m h => ?_
  repeat' first
    | with_reducible assumption
    | with_reducible apply Module.discardLate_kept

theorem Module.dropFlows_kept {r : Bool} {z m : Module} (h : Kept r z m) (p : Flow → Bool) :
    Kept r z (Module.dropFlows m p) := by
  unfold Module.dropFlows
  repeat' first
    | with_reducible assumption
    | with_reducible apply Module.count_kept
    | with_reducible apply Module.setFab_kept

theorem Module.discardTokens_kept {r : Bool} {z m : Module} (h : Kept r z m) (inst : BitVec 32) :
    Kept r z (Module.discardTokens m inst) := by
  unfold Module.discardTokens
  repeat' first
    | with_reducible assumption
    | with_reducible apply Module.count_kept
    | with_reducible apply Module.unhold_kept
    | (with_reducible apply Kept.foldl; intro b hb x)
    | ((conv => (pattern (Module.mk ..); skip)); with_reducible apply Kept.upd)
    | exact id
    | exact Nat.le_refl _
    | exact List.prefix_refl _
    | exact fun _ => Nat.le_refl _
    | with_reducible exact rfl
    | exact List.length_map ..

theorem Module.roundDone_kept {r : Bool} {z m : Module} (h : Kept r z m) (p : Nat) (r_50 : Nat) :
    Kept r z (Module.roundDone m p r_50) := by
  unfold Module.roundDone
  repeat' first
    | with_reducible assumption
    | (extract_lets +onlyGivenNames m
       first
       | (refine Kept.let_in (r := r) (z := z) (m := m) ?_ fun hm => ?_; subst m; rotate_left; clear_value m)
       | clear_value m)
    | with_reducible apply Module.setPtn_kept
    | with_reducible apply Module.setFld_kept
    | with_reducible apply Module.post_kept
    | split

theorem Module.checkDrained_kept {r : Bool} {z m : Module} (h : Kept r z m) :
    Kept r z (Module.checkDrained m) := by
  unfold Module.checkDrained
  repeat' first
    | with_reducible assumption
    | with_reducible apply Module.toWarden_kept
    | (with_reducible apply Kept.foldl; intro b hb x)
    | split
    | ((conv => (pattern (Module.mk ..); skip)); with_reducible apply Kept.upd)
    | exact id
    | exact Nat.le_refl _
    | exact List.prefix_refl _
    | exact fun _ => Nat.le_refl _
    | with_reducible exact rfl

theorem Module.reexecute_kept {r : Bool} {z m : Module} (h : Kept r z m) (r_35 : Request) (e : TallyEntry) (i : Inst) :
    Kept r z (Module.reexecute m r_35 e i) := by
  unfold Module.reexecute
  repeat' first
    | with_reducible assumption
    | (extract_lets +onlyGivenNames m
       first
       | (refine Kept.let_in (r := r) (z := z) (m := m) ?_ fun hm => ?_; subst m; rotate_left; clear_value m)
       | clear_value m)
    | with_reducible apply Module.count_kept
    | with_reducible apply Module.degradeAll_kept
    | with_reducible apply Module.recordDone_kept
    | with_reducible apply Module.setPtn_kept
    | with_reducible apply Module.sendTo_kept
    | with_reducible apply Module.setCtr_kept
    | split

theorem Module.dropInputs_kept {r : Bool} {z m : Module} (h : Kept r z m) (q : Request) : Kept r z
    (Module.dropInputs m q) := by
  unfold Module.dropInputs
  exact Module.setCtr_kept (h.setMem fun x => SparseWf.foldl (fun _ _ y => Memory.zero_wf y ..) (h.mem x) _) _

theorem Module.finishRun_kept {r : Bool} {z m : Module} (h : Kept r z m) (i : Inst) (st : Nat)
    (results : List (List (Nat × List Byte))) :
    Kept r z (Module.finishRun m i st results) := by
  unfold Module.finishRun
  repeat' first
    | with_reducible assumption
    | (extract_lets +onlyGivenNames m
       first
       | (refine Kept.let_in (r := r) (z := z) (m := m) ?_ fun hm => ?_; subst m; rotate_left; clear_value m)
       | clear_value m)
    | with_reducible apply Module.recordDone_kept
    | with_reducible apply Module.setPtn_kept
    | with_reducible apply Module.reexecute_kept
    | with_reducible apply Module.degradeAll_kept
    | with_reducible apply Module.roundDone_kept
    | with_reducible apply Module.dropInputs_kept
    | split

theorem Module.checkDrain_kept {r : Bool} {z m : Module} (h : Kept r z m) :
    Kept r z (Module.checkDrain m) := by
  unfold Module.checkDrain
  repeat' first
    | with_reducible assumption
    | (extract_lets +onlyGivenNames m; clear_value m)
    | with_reducible apply Module.toWarden_kept
    | with_reducible apply Module.setPwr_kept
    | split
    | exact fun _ => id

theorem Module.completeInst_kept {r : Bool} {z m : Module} (h : Kept r z m) (i : Inst) (st : Nat) :
    Kept r z (Module.completeInst m i st) := by
  unfold Module.completeInst
  repeat' first
    | with_reducible assumption
    | with_reducible apply Module.discardTokens_kept
    | with_reducible apply Module.setPtn_kept
    | with_reducible apply Module.checkDrain_kept
    | with_reducible apply Module.checkReady_kept
    | with_reducible apply Module.finishRun_kept
    | with_reducible apply Module.checkDrained_kept
    | with_reducible apply Module.promoteAll_kept
    | split
    | ((conv => (pattern (Module.mk ..); skip)); with_reducible apply Kept.upd)
    | exact id
    | exact Nat.le_refl _
    | exact List.prefix_refl _
    | exact fun _ => Nat.le_refl _
    | with_reducible exact rfl
    | exact fun x => SparseWf.foldl (fun _ _ y => Memory.zero_wf y _ _) x _
    | exact List.length_map ..

theorem Module.checkInst_kept {r : Bool} {z m : Module} (h : Kept r z m) (inst : BitVec 32) :
    Kept r z (Module.checkInst m inst) := by
  unfold Module.checkInst
  repeat' first
    | with_reducible assumption
    | (extract_lets +onlyGivenNames m; clear_value m)
    | with_reducible apply Module.completeInst_kept
    | split

theorem Module.sendToken_kept {r : Bool} {z m : Module} (h : Kept r z m) (src : TokenSrc) (t : Token) :
    Kept r z (Module.sendToken m src t) := by
  unfold Module.sendToken
  repeat' first
    | with_reducible assumption
    | (extract_lets +onlyGivenNames m; clear_value m)
    | with_reducible apply Module.sendTo_kept
    | with_reducible apply Module.count_kept
    | split
    | ((conv => (pattern (Module.mk ..); skip)); with_reducible apply Kept.upd)
    | exact id
    | exact Nat.le_refl _
    | exact List.prefix_refl _
    | exact fun _ => Nat.le_refl _
    | with_reducible exact rfl

theorem Module.sendTokens_kept {r : Bool} {z m : Module} (h : Kept r z m) (src : TokenSrc) (ts : List Token) :
    Kept r z (Module.sendTokens m src ts) := by
  unfold Module.sendTokens
  repeat' first
    | with_reducible assumption
    | with_reducible apply Module.sendToken_kept
    | (with_reducible apply Kept.foldl; intro b hb x)

theorem Module.leave_kept {r : Bool} {z m : Module} (h : Kept r z m) (f : Firing) (st : Nat) :
    Kept r z (Module.leave m f st) := by
  unfold Module.leave
  repeat' first
    | with_reducible assumption
    | with_reducible apply Module.setInst_kept
    | with_reducible apply Module.checkInst_kept
    | split
    | ((conv => (pattern (Module.mk ..); skip)); with_reducible apply Kept.upd)
    | exact id
    | exact Nat.le_refl _
    | exact List.prefix_refl _
    | exact fun _ => Nat.le_refl _
    | with_reducible exact rfl
    | exact List.length_map ..

theorem Module.zeroAcc_kept {r : Bool} {z m : Module} (h : Kept r z m) (b : Nat) :
    Kept r z (Module.zeroAcc m b) := by
  unfold Module.zeroAcc
  repeat' first
    | with_reducible assumption
    | with_reducible apply Module.setBench_kept
    | ((conv => (pattern (Module.mk ..); skip)); with_reducible apply Kept.upd)
    | exact id
    | exact Nat.le_refl _
    | exact List.prefix_refl _
    | exact fun _ => Nat.le_refl _
    | with_reducible exact rfl
    | exact fun x => Memory.zero_wf x _ _

theorem Module.clearAccs_kept {r : Bool} {z m : Module} (h : Kept r z m) (ended : Bench → Bool) :
    Kept r z (Module.clearAccs m ended) := by
  unfold Module.clearAccs
  repeat' first
    | with_reducible assumption
    | with_reducible apply Module.zeroAcc_kept
    | (with_reducible apply Kept.foldl; intro b hb x)

theorem Module.freeBenches_kept {r : Bool} {z m : Module} (h : Kept r z m) (k : FKey) :
    Kept r z (Module.freeBenches m k) := by
  unfold Module.freeBenches
  repeat' first
    | with_reducible assumption
    | with_reducible apply Module.clearAccs_kept
    | ((conv => (pattern (Module.mk ..); skip)); with_reducible apply Kept.upd)
    | exact id
    | exact Nat.le_refl _
    | exact List.prefix_refl _
    | exact fun _ => Nat.le_refl _
    | with_reducible exact rfl
    | exact List.length_map ..

theorem Module.endHandOver_kept {r : Bool} {z m : Module} (h : Kept r z m) (f : Firing) :
    Kept r z (Module.endHandOver m f) := by
  unfold Module.endHandOver
  repeat' first
    | with_reducible assumption
    | (extract_lets +onlyGivenNames m
       first
       | (refine Kept.let_in (r := r) (z := z) (m := m) ?_ fun hm => ?_; subst m; rotate_left; clear_value m)
       | (refine Kept.mem_let (w := m) ?_; subst m)
       | clear_value m)
    | with_reducible apply Module.setEntry_kept
    | split
    | ((conv => (pattern (Module.mk ..); skip)); with_reducible apply Kept.upd)
    | exact id
    | exact Nat.le_refl _
    | exact List.prefix_refl _
    | exact fun _ => Nat.le_refl _
    | with_reducible exact rfl
    | exact fun x => SparseWf.foldl (fun _ _ y => Memory.zero_wf y _ _) x _

theorem Module.endFiring_kept {r : Bool} {z m : Module} (h : Kept r z m) (f : Firing) :
    Kept r z (Module.endFiring m f) := by
  unfold Module.endFiring
  repeat' first
    | with_reducible assumption
    | with_reducible apply Module.freeBenches_kept
    | with_reducible apply Module.freeStreams_kept
    | with_reducible apply Module.endHandOver_kept
    | with_reducible apply Module.count_kept
    | with_reducible apply Module.sendTokens_kept
    | with_reducible apply Module.leave_kept
    | split
    | ((conv => (pattern (Module.mk ..); skip)); with_reducible apply Kept.upd)
    | exact id
    | exact Nat.le_refl _
    | exact List.prefix_refl _
    | exact fun _ => Nat.le_refl _
    | with_reducible exact rfl

theorem execNodeFiringEnd_kept (k : FKey) (s : State) :
    Keeps true s (execNodeFiringEnd k s) := by
  unfold execNodeFiringEnd
  refine Keeps.on fun z m h => ?_
  repeat' first
    | with_reducible assumption
    | with_reducible apply Module.endFiring_kept
    | split

theorem Module.storeRun_kept {r : Bool} {z m : Module} (h : Kept r z m) (f : Firing) (st : Nat) (ts : List Token) :
    Kept r z (Module.storeRun m f st ts) := by
  unfold Module.storeRun
  repeat' first
    | with_reducible assumption
    | with_reducible apply Module.setEntry_kept
    | with_reducible apply Module.count_kept
    | with_reducible apply Module.leave_kept
    | with_reducible apply Module.promote_kept
    | with_reducible apply Module.sendTokens_kept
    | split

theorem execRelay_kept (k : FKey) (s : State) :
    Keeps true s (execRelay k s) := by
  unfold execRelay
  refine Keeps.on fun z m h => ?_
  repeat' first
    | with_reducible assumption
    | with_reducible apply Module.storeRun_kept
    | split

theorem execJoin_kept (k : FKey) (s : State) :
    Keeps true s (execJoin k s) := by
  unfold execJoin
  refine Keeps.on fun z m h => ?_
  repeat' first
    | with_reducible assumption
    | with_reducible apply Module.storeRun_kept
    | split

theorem execSteer_kept (k : FKey) (s : State) :
    Keeps true s (execSteer k s) := by
  unfold execSteer
  refine Keeps.on fun z m h => ?_
  repeat' first
    | with_reducible assumption
    | with_reducible apply Module.storeRun_kept
    | split

theorem Module.begin_kept {r : Bool} {z m : Module} (h : Kept r z m) (f : Firing) (benches : List Nat) (chain : List Nat) :
    Kept r z (Module.begin_ m f benches chain).1 := by
  unfold Module.begin_
  repeat' first
    | with_reducible assumption
    | with_reducible apply Module.setEntry_kept
    | with_reducible apply Module.count_kept
    | with_reducible apply Module.setHall_kept
    | with_reducible apply Module.setInst_kept
    | with_reducible apply Module.promote_kept
    | with_reducible apply Module.showStatus_kept
    | split

theorem Module.start_kept {r : Bool} {z m : Module} (h : Kept r z m) (f : Firing) (benches : List Nat) (chain : List Nat) :
    Kept r z (Module.start m f benches chain) := by
  unfold Module.start
  repeat' first
    | with_reducible assumption
    | (extract_lets +onlyGivenNames m; refine Kept.let_fst (r := r) (z := z) (p := m) ?_ fun hm => ?_; subst m; rotate_left; clear_value m)
    | with_reducible apply Module.begin_kept
    | with_reducible apply Module.takeIn_kept
    | split

theorem Module.loseEntry_kept {r : Bool} {z m : Module} (h : Kept r z m) (f : Firing) (b : Nat) :
    Kept r z (Module.loseEntry m f b) := by
  unfold Module.loseEntry
  repeat' first
    | with_reducible assumption
    | (extract_lets +onlyGivenNames m; refine Kept.let_fst (r := r) (z := z) (p := m) ?_ fun hm => ?_; subst m; rotate_left; clear_value m)
    | with_reducible apply Module.begin_kept
    | with_reducible apply Module.stopFiring_kept
    | with_reducible apply Module.launch_kept
    | split

theorem Module.dispatch_kept {r : Bool} {z m : Module} (h : Kept r z m) (b : Nat) (o : SectorOutcome) :
    Kept r z (Module.dispatch m b o) := by
  unfold Module.dispatch
  repeat' first
    | with_reducible assumption
    | (extract_lets +onlyGivenNames m
       first
       | (refine Kept.let_in (r := r) (z := z) (m := m) ?_ fun hm => ?_; subst m; rotate_left; clear_value m)
       | clear_value m)
    | with_reducible apply Module.useTurn_kept
    | with_reducible apply Module.setBench_kept
    | with_reducible apply Module.loseEntry_kept
    | with_reducible apply Module.start_kept
    | split

theorem execBenchDispatch_kept (bench : Reading BenchId) (s : State) :
    Keeps true s (execBenchDispatch bench s) := by
  unfold execBenchDispatch
  refine Keeps.on fun z m h => ?_
  repeat' first
    | with_reducible assumption
    | with_reducible apply Module.dispatch_kept

theorem execAffinityHoldExpire_kept (k : FKey) (s : State) :
    Keeps true s (execAffinityHoldExpire k s) := by
  unfold execAffinityHoldExpire
  refine Keeps.on fun z m h => ?_
  repeat' first
    | with_reducible assumption
    | with_reducible apply Module.setEntry_kept
    | with_reducible apply Module.until_kept
    | split

theorem execMatchStall_kept (hall : HallId) (inst : BitVec 32) (s : State) :
    Keeps true s (execMatchStall hall inst s) := by
  unfold execMatchStall
  refine Keeps.on fun z m h => ?_
  repeat' first
    | with_reducible assumption
    | with_reducible apply Module.until_kept
    | with_reducible apply Module.post_kept
    | with_reducible apply Module.setInst_kept
    | split

theorem Module.countDrops_kept {r : Bool} {z m : Module} (h : Kept r z m) (b : Nat) (ps : List Placed) :
    Kept r z (Module.countDrops m b ps).2 := by
  unfold Module.countDrops
  repeat' first
    | with_reducible assumption
    | with_reducible apply Module.count_kept

theorem Module.patternFault_kept {r : Bool} {z m : Module} (h : Kept r z m) (f : Firing) (results : List Placed) :
    Kept r z (Module.patternFault m f results) := by
  unfold Module.patternFault
  repeat' first
    | with_reducible assumption
    | with_reducible apply Module.count_kept
    | with_reducible apply Module.spoil_kept
    | with_reducible apply Module.finish_kept
    | (with_reducible apply Kept.foldl; intro b hb x)

theorem Module.countWrite_kept {r : Bool} {z m : Module} (h : Kept r z m) (b : Nat) (w : WriteEv) :
    Kept r z (Module.countWrite m b w) := by
  unfold Module.countWrite
  repeat' first
    | with_reducible assumption
    | with_reducible apply Module.count_kept

theorem Module.vectorWork_kept {r : Bool} {z m : Module} (h : Kept r z m) (f : Firing) :
    KeptOk r z (Module.vectorWork m f) := by
  unfold Module.vectorWork
  repeat' first
    | with_reducible assumption
    | with_reducible apply KeptOk.pure
    | with_reducible apply KeptOk.ite
    | with_reducible refine KeptOk.bind fun x => ?_
    | with_reducible apply Module.patternFault_kept
    | with_reducible apply Module.draw_kept
    | with_reducible apply Module.countDrops_kept
    | with_reducible apply Module.count_kept
    | with_reducible apply Module.finish_kept
    | with_reducible apply Module.spoil_kept
    | with_reducible apply Module.countWrite_kept
    | with_reducible apply Module.spend_kept
    | with_reducible apply Module.wrote_kept
    | ((conv => (pattern (Module.mk ..); skip)); with_reducible apply Kept.setMem)
    | exact fun x => writeResult_wf (Kept.mem (by with_reducible assumption) x) ..

theorem execVector_kept (k : FKey) (s : State) :
    Keeps true s (execVector k s) := by
  unfold execVector
  refine Keeps.on fun z m h => ?_
  repeat' first
    | with_reducible assumption
    | with_reducible apply Module.work_kept
    | with_reducible apply Module.vectorWork_kept
    | split
    | intro x

theorem Module.leaveBanks_kept {r : Bool} {z m : Module} (h : Kept r z m) (benches : List Nat)
    (tiles : List (Nat × List (Nat × Nat × List (BitVec 32)))) (known int : Bool) :
    Kept r z (Module.leaveBanks m benches tiles known int) := by
  unfold Module.leaveBanks
  split
  · refine Kept.foldl _ (fun b hb x => Kept.foldl _ (fun b hb x => Kept.foldl _ (fun b hb x => ?_) hb) hb) h
    exact Module.store_kept (Module.store_kept hb ..) ..
  · refine Kept.foldl _ (fun b hb x => ?_) h
    extract_lets s
    have hs : Kept r z s.2 := (Module.unspecified_kept hb ..).drawn
    clear_value s
    exact hs.setMem fun y => Memory.writeN_wf (hs.mem y) ..

theorem Module.mxDone_kept {r : Bool} {z m : Module} (h : Kept r z m) (f : Firing) (benches : List Nat) (flags : Nat)
    (st : Nat) :
    Kept r z (Module.mxDone m f benches flags st) := by
  unfold Module.mxDone
  repeat' first
    | with_reducible assumption
    | with_reducible apply Module.finish_kept
    | with_reducible apply Module.setFld_kept
    | (with_reducible apply Kept.foldl; intro b hb x)

theorem Module.matmulWork_kept {r : Bool} {z m : Module} (h : Kept r z m) (f : Firing) :
    KeptOk r z (Module.matmulWork m f) := by
  unfold Module.matmulWork
  extract_lets +onlyGivenNames d n benches first last
  with_reducible refine KeptOk.ite (KeptOk.pure (Module.finish_kept (Module.count_kept h ..) ..)) ?_
  extract_lets +onlyGivenNames kdim
  refine KeptOk.bind fun ops => KeptOk.bind fun pre => KeptOk.bind fun epi => ?_
  extract_lets +onlyGivenNames rt
  refine KeptOk.bind fun rr => KeptOk.bind fun fl => ?_
  extract_lets +onlyGivenNames o mdim ndim depth vc bad
  split
  · exact KeptOk.pure (Module.finish_kept (Module.spoil_kept (Module.count_kept h ..) ..) ..)
  extract_lets +onlyGivenNames free run draw out alt rnd final cs w drops tiles cells elems es fs all src m1 m2 m3 m4 m5 m6 m7 m8 m9
    full m10
  have h1 : Kept r z m1 := Module.wrote_kept ((h.drawn).setMem fun x => writeCoded_wf (h.mem x) ..) ..
  have h2 : Kept r z m2 := by
    subst m2
    split
    · exact Module.wrote_kept (h1.setMem fun x => SparseWf.foldl (fun _ _ y => Memory.write_wf y ..) (h1.mem x) _) ..
    · exact h1
  have h3 : Kept r z m3 := Module.leaveBanks_kept h2 ..
  have h4 : Kept r z m4 := Module.count_kept (Module.count_kept h3 ..) ..
  have h5 : Kept r z m5 := Module.count_kept h4 ..
  have h6 : Kept r z m6 := Kept.foldl _ (fun b hb x => Module.count_kept
    (Module.count_kept (Module.count_kept (Module.count_kept hb ..) ..) ..) ..) h5
  have h7 : Kept r z m7 := Module.count_kept (Module.count_kept h6 ..) ..
  have h8 : Kept r z m8 := by
    subst m8
    split
    · exact Module.count_kept (Module.count_kept h7 ..) ..
    · exact h7
  have h9 : Kept r z m9 := Module.count_kept h8 ..
  have h10 : Kept r z m10 := Module.count_kept h9.drawn ..
  exact KeptOk.pure (Module.mxDone_kept h10 ..)

theorem Module.matmulAct_kept {r : Bool} {z m : Module} (h : Kept r z m) (f : Firing) :
    KeptOk r z (Module.matmulAct m f) := by
  unfold Module.matmulAct
  repeat' first
    | with_reducible assumption
    | with_reducible apply KeptOk.ok
    | with_reducible apply Module.matmulWork_kept
    | with_reducible apply Module.spoil_kept
    | with_reducible apply Module.stopFiring_kept
    | split

theorem execMatmul_kept (k : FKey) (s : State) :
    Keeps true s (execMatmul k s) := by
  unfold execMatmul
  refine Keeps.on fun z m h => ?_
  repeat' first
    | with_reducible assumption
    | with_reducible apply Module.work_kept
    | with_reducible apply Module.matmulAct_kept
    | split
    | intro x

theorem execChainFiring_kept (k : FKey) (s : State) :
    Keeps true s (execChainFiring k s) := by
  unfold execChainFiring
  refine Keeps.on fun z m h => ?_
  repeat' first
    | with_reducible assumption
    | with_reducible apply Module.setBench_kept
    | with_reducible apply Module.unhold_kept
    | with_reducible apply Module.teamTurns_kept
    | with_reducible apply Module.start_kept
    | (with_reducible apply Kept.foldl; intro b hb x)
    | split
    | ((conv => (pattern (Module.mk ..); skip)); with_reducible apply Kept.upd)
    | exact id
    | exact Nat.le_refl _
    | exact List.prefix_refl _
    | exact fun _ => Nat.le_refl _
    | with_reducible exact rfl

theorem execChainSumArrive_kept (k : FKey) (pos : Nat) (tile : Nat) (s : State) :
    Keeps true s (execChainSumArrive k pos tile s) := by
  unfold execChainSumArrive
  refine Keeps.on fun z m h => ?_
  repeat' first
    | with_reducible assumption
    | (extract_lets +onlyGivenNames m
       first
       | (refine Kept.let_in (r := true) (z := z) (m := m) ?_ fun hm => ?_; subst m; rotate_left; clear_value m)
       | clear_value m)
    | with_reducible apply Module.count_kept
    | split
    | ((conv => (pattern (Module.mk ..); skip)); with_reducible apply Kept.upd)
    | exact id
    | exact Nat.le_refl _
    | exact List.prefix_refl _
    | exact fun _ => Nat.le_refl _
    | with_reducible exact rfl

theorem Module.postSegments_kept {r : Bool} {z m : Module} (h : Kept r z m) (f : Firing) (row : Nat)
    (segs : List (Nat × Nat)) (blocks : Nat) (room : Nat) :
    Kept r z (Module.postSegments m f row segs blocks room) := by
  unfold Module.postSegments
  repeat' first
    | with_reducible assumption
    | with_reducible apply Module.setHall_kept
    | ((conv => (pattern (Module.mk ..); skip)); with_reducible apply Kept.upd)
    | exact id
    | exact Nat.le_refl _
    | exact List.prefix_refl _
    | exact fun _ => Nat.le_refl _
    | with_reducible exact rfl

theorem Module.feedHub_kept {r : Bool} {z m : Module} (h : Kept r z m) (f : Firing) (room : Nat) :
    Kept r z (Module.feedHub m f room) := by
  unfold Module.feedHub
  repeat' first
    | with_reducible assumption
    | with_reducible apply Module.postSegments_kept
    | split

theorem Module.feedHubs_kept {r : Bool} {z m : Module} (h : Kept r z m) (h_35 : Nat) :
    Kept r z (Module.feedHubs m h_35) := by
  unfold Module.feedHubs
  repeat' first
    | with_reducible assumption
    | with_reducible apply Module.feedHub_kept
    | (with_reducible apply Kept.foldl; intro b hb x)
    | split

theorem Module.openHub_kept {r : Bool} {z m : Module} (h : Kept r z m) (f : Firing) (st : HubSt) :
    Kept r z (Module.openHub m f st) := by
  unfold Module.openHub
  repeat' first
    | with_reducible assumption
    | with_reducible apply Module.feedHub_kept
    | ((conv => (pattern (Module.mk ..); skip)); with_reducible apply Kept.upd)
    | exact id
    | exact Nat.le_refl _
    | exact List.prefix_refl _
    | exact fun _ => Nat.le_refl _
    | with_reducible exact rfl

theorem Module.runSegment_kept {r : Bool} {z m : Module} (h : Kept r z m) (b : Nat) (s : HubSegment)
    (act : Module → Firing → HubSegment → List HubVal × Module) (ha : ∀ x y s, Kept r z x → Kept r z (act x y s).2) :
    Kept r z (Module.runSegment m b s act) := by
  unfold Module.runSegment
  split
  · exact h
  · next f _ =>
    have hx := ha m f s h
    extract_lets x taken m1 m2
    have h1 : Kept r z m1 := Module.setHall_kept hx ..
    have h2 : Kept r z m2 := by
      subst m2
      split
      · exact Module.setBench_kept h1 ..
      · exact h1
    exact Module.feedHubs_kept (Module.spend_kept (Module.count_kept h2 ..)) _

theorem Module.ownSegment_kept {r : Bool} {z m : Module} (h : Kept r z m) (f : Firing) :
    Kept r z (Module.ownSegment m f).2 := by
  unfold Module.ownSegment
  repeat' first
    | with_reducible assumption
    | (extract_lets +onlyGivenNames m
       first
       | (refine Kept.let_in (r := r) (z := z) (m := m) ?_ fun hm => ?_; subst m; rotate_left; clear_value m)
       | clear_value m)
    | with_reducible apply Module.feedHub_kept
    | split

theorem Module.takeSegment_kept {r : Bool} {z m : Module} (h : Kept r z m) (b : Nat)
    (act : Module → Firing → HubSegment → List HubVal × Module) (ha : ∀ x y s, Kept r z x → Kept r z (act x y s).2) :
    Kept r z (Module.takeSegment m b act) := by
  unfold Module.takeSegment
  extract_lets hl
  split
  · split
    · split
      · next e => exact Module.runSegment_kept (Kept.snd_eq e (Module.ownSegment_kept h ..)) b _ act ha
      · exact h
    · exact h
  · split
    · exact h
    · split
      · split
        · exact Module.runSegment_kept (Module.useTurn_kept h ..) b _ act ha
        · exact h
      · exact h

theorem Module.mergeSegment_kept {r : Bool} {z m : Module} (h : Kept r z m) (k : FKey) (row : Nat) (seg : Nat) :
    Kept r z (Module.mergeSegment m k row seg) := by
  unfold Module.mergeSegment
  repeat' first
    | with_reducible assumption
    | with_reducible apply Module.setHall_kept
    | with_reducible apply Module.setBench_kept
    | with_reducible apply Module.feedHubs_kept
    | split
    | ((conv => (pattern (Module.mk ..); skip)); with_reducible apply Kept.upd)
    | exact id
    | exact Nat.le_refl _
    | exact List.prefix_refl _
    | exact fun _ => Nat.le_refl _
    | with_reducible exact rfl

theorem Module.csrRefused_kept {r : Bool} {z m : Module} (h : Kept r z m) (f : Firing) :
    Kept r z (Module.csrRefused m f) := by
  unfold Module.csrRefused
  repeat' first
    | with_reducible assumption
    | with_reducible apply Module.finish_kept
    | with_reducible apply Module.count_kept

theorem Module.spmmWork.finishSpmm_kept {r : Bool} {z m : Module} (h : Kept r z m) (f : Firing) (c : Csr) (b : Placed)
    (r_141 : Placed) (merged : List (Nat × Nat × List HubVal)) (oob : Nat) :
    Kept r z (Module.spmmWork.finishSpmm m f c b r_141 merged oob) := by
  unfold Module.spmmWork.finishSpmm
  repeat' first
    | with_reducible assumption
    | with_reducible apply Module.draw_kept
    | with_reducible apply Module.count_kept
    | with_reducible apply Module.spend_kept
    | with_reducible apply Module.wrote_kept
    | with_reducible apply Module.finish_kept
    | ((conv => (pattern (Module.mk ..); skip)); with_reducible apply Kept.setMem)
    | exact fun x => writeResult_wf (Kept.mem (by with_reducible assumption) x) ..

theorem Module.spmmWork_kept {r : Bool} {z m : Module} (h : Kept r z m) (f : Firing) :
    KeptOk r z (Module.spmmWork m f) := by
  unfold Module.spmmWork
  repeat' first
    | with_reducible assumption
    | (extract_lets +onlyGivenNames m; clear_value m)
    | with_reducible apply KeptOk.pure
    | with_reducible refine KeptOk.bind fun x => ?_
    | with_reducible apply Module.finish_kept
    | with_reducible apply Module.count_kept
    | with_reducible apply Module.csrRefused_kept
    | with_reducible apply Module.openHub_kept
    | with_reducible apply Module.spmmWork.finishSpmm_kept
    | split

theorem execSpmmCsr_kept (k : FKey) (s : State) :
    Keeps true s (execSpmmCsr k s) := by
  unfold execSpmmCsr
  refine Keeps.on fun z m h => ?_
  repeat' first
    | with_reducible assumption
    | with_reducible apply Module.work_kept
    | with_reducible apply Module.spmmWork_kept
    | intro x

theorem Module.reduceWork_kept {r : Bool} {z m : Module} (h : Kept r z m) (f : Firing) :
    KeptOk r z (Module.reduceWork m f) := by
  unfold Module.reduceWork
  extract_lets +onlyGivenNames d
  refine KeptOk.bind fun _ => ?_
  extract_lets +onlyGivenNames n
  refine KeptOk.bind fun x => KeptOk.bind fun mask => KeptOk.bind fun r0 => KeptOk.bind fun r1 => ?_
  extract_lets +onlyGivenNames read
  with_reducible refine KeptOk.ite (KeptOk.pure (Module.patternFault_kept h ..)) ?_
  extract_lets +onlyGivenNames vc stages ty axis free strm line result spots all
  have hc := Module.countDrops_kept (Module.draw_kept h) f.bench read
  split
  next drop m1 e =>
  have h1 : Kept r z m1 := Kept.snd_eq e hc
  extract_lets +onlyGivenNames m2 m3 m4 rnd w0 m5
  have h2 : Kept r z m2 := by
    subst m2
    split
    · exact Module.count_kept h1 ..
    · exact h1
  have h4 : Kept r z m4 := Module.count_kept (Module.count_kept (Module.count_kept h2 ..) ..) ..
  have h5 : Kept r z m5 := Module.wrote_kept (Module.countWrite_kept (h4.setMem fun x => writeResult_wf (h.mem x) ..) ..) ..
  clear_value m5
  split
  next m6 sat1 e =>
  have h6 : Kept r z m6 := by
    refine Kept.fst_eq e ?_
    split
    · exact Module.wrote_kept (Module.countWrite_kept (h5.setMem fun x => writeResult_wf (h5.mem x) ..) ..) ..
    · exact h5
  exact KeptOk.pure (Module.finish_kept (Module.spend_kept h6) ..)

theorem execReduce_kept (k : FKey) (s : State) :
    Keeps true s (execReduce k s) := by
  unfold execReduce
  refine Keeps.on fun z m h => ?_
  repeat' first
    | with_reducible assumption
    | with_reducible apply Module.work_kept
    | with_reducible apply Module.reduceWork_kept
    | intro x

theorem Module.topkWork_kept {r : Bool} {z m : Module} (h : Kept r z m) (f : Firing) :
    KeptOk r z (Module.topkWork m f) := by
  unfold Module.topkWork
  extract_lets +onlyGivenNames d
  refine KeptOk.bind fun _ => ?_
  extract_lets +onlyGivenNames n
  refine KeptOk.bind fun x => KeptOk.bind fun mask => KeptOk.bind fun r0 => KeptOk.bind fun r1 => ?_
  extract_lets +onlyGivenNames read
  with_reducible refine KeptOk.ite (KeptOk.pure (Module.patternFault_kept h ..)) ?_
  extract_lets +onlyGivenNames k skip small passes line ranks at0 rows
  have hc := Module.countDrops_kept h f.bench read
  split
  next drop m1 e =>
  have h1 : Kept r z m1 := Kept.snd_eq e hc
  extract_lets +onlyGivenNames m2 m3 w0 m4
  have h3 : Kept r z m3 := Module.count_kept (Module.count_kept (Module.count_kept h1 ..) ..) ..
  have h4 : Kept r z m4 := Module.wrote_kept (h3.setMem fun x => writeResult_wf (h.mem x) ..) ..
  clear_value m4
  refine KeptOk.pure (Module.finish_kept ?_ ..)
  split
  · exact h4
  · exact Module.wrote_kept (h4.setMem fun x => writeCoded_wf (h4.mem x) ..) ..

theorem execTopk_kept (k : FKey) (s : State) :
    Keeps true s (execTopk k s) := by
  unfold execTopk
  refine Keeps.on fun z m h => ?_
  repeat' first
    | with_reducible assumption
    | with_reducible apply Module.work_kept
    | with_reducible apply Module.topkWork_kept
    | intro x

theorem Module.segmentWork.finishSegments_kept {r : Bool} {z m : Module} (h : Kept r z m) (f : Firing) (src : SegSrc)
    (x : Placed) (y : Placed) (merged : List (Nat × Nat × List HubVal)) (oob : Nat) :
    Kept r z (Module.segmentWork.finishSegments m f src x y merged oob) := by
  unfold Module.segmentWork.finishSegments
  repeat' first
    | with_reducible assumption
    | with_reducible apply Module.draw_kept
    | with_reducible apply Module.countWrite_kept
    | with_reducible apply Module.count_kept
    | with_reducible apply Module.spend_kept
    | with_reducible apply Module.wrote_kept
    | with_reducible apply Module.finish_kept
    | ((conv => (pattern (Module.mk ..); skip)); with_reducible apply Kept.setMem)
    | exact fun x => writeResult_wf (Kept.mem (by with_reducible assumption) x) ..

theorem Module.segmentWork_kept {r : Bool} {z m : Module} (h : Kept r z m) (f : Firing) :
    KeptOk r z (Module.segmentWork m f) := by
  unfold Module.segmentWork
  repeat' first
    | with_reducible assumption
    | (extract_lets +onlyGivenNames m; clear_value m)
    | with_reducible apply KeptOk.pure
    | with_reducible refine KeptOk.bind fun x => ?_
    | with_reducible apply Module.csrRefused_kept
    | with_reducible apply Module.segmentWork.finishSegments_kept
    | with_reducible apply Module.openHub_kept
    | with_reducible apply Module.count_kept
    | split

theorem execSegmentReduce_kept (k : FKey) (s : State) :
    Keeps true s (execSegmentReduce k s) := by
  unfold execSegmentReduce
  refine Keeps.on fun z m h => ?_
  repeat' first
    | with_reducible assumption
    | with_reducible apply Module.work_kept
    | with_reducible apply Module.segmentWork_kept
    | intro x

theorem execHubPartialArrive_kept (k : FKey) (row : Nat) (seg : Nat) (s : State) :
    Keeps true s (execHubPartialArrive k row seg s) := by
  unfold execHubPartialArrive
  refine Keeps.on fun z m h => ?_
  repeat' first
    | with_reducible assumption
    | with_reducible apply Module.mergeSegment_kept

end Sys2Proof.Machine
end

