-- ==== Sys2Proof/Laws/KeptQuern.lean ====
section
/-! SUPPORT. `Kept` for the operations of the stacks, channel paths and querns, GATHER, SAMPLE and SCATTER_ADD: one lemma each. -/
namespace Sys2Proof.Machine

theorem Module.writeBackAll_kept {r : Bool} {z m : Module} (h : Kept r z m) (s : Nat) (p : CombEntry → Bool) :
    Kept r z (Module.writeBackAll m s p) := by
  unfold Module.writeBackAll
  repeat' first
    | with_reducible assumption
    | with_reducible apply Module.writeBack_kept
    | (with_reducible apply Kept.foldl; intro b hb x)

theorem Module.settle_kept {r : Bool} {z m : Module} (h : Kept r z m) (key : Nat) (len : Nat) :
    Kept r z (Module.settle m key len) := by
  unfold Module.settle
  repeat' first
    | with_reducible assumption
    | with_reducible apply Module.writeBackAll_kept
    | (with_reducible apply Kept.foldl; intro b hb x)

theorem Module.engineRead_kept {r : Bool} {z m : Module} (h : Kept r z m) (p : Nat) (key : Nat) (ra : Nat) (len : Nat)
    (hint : Nat) :
    Kept r z (Module.engineRead m p key ra len hint) := by
  unfold Module.engineRead
  repeat' first
    | with_reducible assumption
    | with_reducible apply Module.accessAll_kept

theorem Module.engineWrite_kept {r : Bool} {z m : Module} (h : Kept r z m) (p : Nat) (key : Nat) (ra : Nat) (hint : Nat)
    (bs : List Byte) :
    Kept r z (Module.engineWrite m p key ra hint bs) := by
  unfold Module.engineWrite
  repeat' first
    | with_reducible assumption
    | with_reducible apply Module.accessAll_kept
    | with_reducible apply Module.staleSpan_kept
    | with_reducible apply Module.clearPoison_kept
    | with_reducible apply Module.store_kept
    | with_reducible apply Module.settle_kept

theorem Module.accept_kept {r : Bool} {z m : Module} (h : Kept r z m) (s : Nat) (p : Nat) (type : Nat) (line : Nat)
    (deltas : List Word) :
    Kept r z (Module.accept m s p type line deltas) := by
  unfold Module.accept
  repeat' first
    | with_reducible assumption
    | (extract_lets +onlyGivenNames m; refine Kept.let_in (r := r) (z := z) (m := m) ?_ fun hm => ?_; subst m; rotate_left; clear_value m)
    | with_reducible apply Module.staleLine_kept
    | with_reducible apply Module.charge_kept
    | with_reducible apply Module.snoop_kept
    | with_reducible apply Module.count_kept
    | with_reducible apply Module.store_kept
    | with_reducible apply Module.setQuern_kept
    | with_reducible apply Module.writeBack_kept
    | split
    | ((conv => (pattern (Module.mk ..); skip)); with_reducible apply Kept.upd)
    | exact id
    | exact Nat.le_refl _
    | exact List.prefix_refl _
    | exact fun _ => Nat.le_refl _
    | with_reducible exact rfl

theorem Module.dropDeltas_kept {r : Bool} {z m : Module} (h : Kept r z m) (lo : Nat) (hi : Nat) :
    Kept r z (Module.dropDeltas m lo hi) := by
  unfold Module.dropDeltas
  repeat' first
    | with_reducible assumption
    | ((conv => (pattern (Module.mk ..); skip)); with_reducible apply Kept.upd)
    | exact id
    | exact Nat.le_refl _
    | exact List.prefix_refl _
    | with_reducible exact rfl
    | exact List.length_map ..
    | exact hardUsed_map _ _ fun _ => Nat.le_refl _

theorem Module.releaseKeys_kept {r : Bool} {z m : Module} (h : Kept r z m) (lo : Nat) (hi : Nat) :
    Kept r z (Module.releaseKeys m lo hi) := by
  unfold Module.releaseKeys
  repeat' first
    | with_reducible assumption
    | with_reducible apply Module.dropDeltas_kept
    | with_reducible apply Module.dropRows_kept
    | with_reducible apply Module.dropCache_kept
    | (with_reducible apply Kept.foldl; intro b hb x)
    | ((conv => (pattern (Module.mk ..); skip)); with_reducible apply Kept.upd)
    | exact id
    | exact Nat.le_refl _
    | exact List.prefix_refl _
    | with_reducible exact rfl
    | exact fun x => Memory.zero_wf x _ _
    | exact List.length_map ..
    | exact hardUsed_map _ _ fun _ => Nat.le_refl _

theorem Module.endLostHalts_kept {r : Bool} {z m : Module} (h : Kept r z m) :
    Kept r z (Module.endLostHalts m) := by
  unfold Module.endLostHalts
  repeat' first
    | with_reducible assumption
    | with_reducible apply Module.stopFiring_kept
    | with_reducible apply Module.post_kept
    | (with_reducible apply Kept.foldl; intro b hb x)
    | split

theorem Module.withdraw_kept {r : Bool} {z m : Module} (h : Kept r z m) (s : Nat) (cause : Nat) :
    Kept r z (Module.withdraw m s cause) := by
  unfold Module.withdraw
  repeat' first
    | with_reducible assumption
    | with_reducible apply Module.setPtn_kept
    | with_reducible apply Module.writeBackAll_kept
    | with_reducible apply Module.dropCache_kept
    | with_reducible apply Module.cleanCache_kept
    | with_reducible apply Module.setQuern_kept
    | with_reducible apply Module.endLostHalts_kept
    | with_reducible apply Module.degrade_kept
    | (with_reducible apply Kept.foldl; intro b hb x)
    | split
    | exact fun _ => Nat.le_refl _

theorem Module.eccLog_kept {r : Bool} {z m : Module} (h : Kept r z m) (s : Nat) (sector : Nat) (kind : Nat) (src : Nat) :
    Kept r z (Module.eccLog m s sector kind src) := by
  unfold Module.eccLog
  repeat' first
    | with_reducible assumption
    | (extract_lets +onlyGivenNames m; clear_value m)
    | with_reducible apply Module.setReg_kept
    | split

theorem Module.poison_kept {r : Bool} {z m : Module} (h : Kept r z m) (s : Nat) (sector : Nat) (src : Nat) :
    Kept r z (Module.poison m s sector src) := by
  unfold Module.poison
  repeat' first
    | with_reducible assumption
    | (extract_lets +onlyGivenNames m
       first
       | (refine Kept.let_in (r := r) (z := z) (m := m) ?_ fun hm => ?_; subst m; rotate_left; clear_value m)
       | clear_value m)
    | with_reducible apply Module.setQuern_kept
    | with_reducible apply Module.eccLog_kept
    | with_reducible apply Module.count_kept
    | with_reducible apply Module.degrade_kept
    | with_reducible apply Module.withdraw_kept
    | split
    | exact fun _ => Nat.le_refl _

theorem Module.corrected_kept {r : Bool} {z m : Module} (h : Kept r z m) (s : Nat) (sector : Nat) (src : Nat) :
    Kept r z (Module.corrected m s sector src) := by
  unfold Module.corrected
  repeat' first
    | with_reducible assumption
    | (extract_lets +onlyGivenNames m
       first
       | (refine Kept.let_in (r := r) (z := z) (m := m) ?_ fun hm => ?_; subst m; rotate_left; clear_value m)
       | clear_value m)
    | with_reducible apply Module.eccLog_kept
    | with_reducible apply Module.count_kept
    | with_reducible apply Module.setQuern_kept
    | split
    | exact fun _ => Nat.le_refl _

theorem Module.ecc_kept {r : Bool} {z m : Module} (h : Kept r z m) (s : Nat) (key : Nat) (len : Nat) (src : Nat)
    (a : SectorOutcome) :
    Kept r z (Module.ecc m s key len src a) := by
  unfold Module.ecc
  repeat' first
    | with_reducible assumption
    | with_reducible apply Module.pick_kept
    | with_reducible apply Module.corrected_kept
    | with_reducible apply Module.poison_kept
    | split
    | refine Kept.snd_eq (by with_reducible assumption) ?_

theorem Module.channelDo_kept {r : Bool} {z m : Module} (h : Kept r z m) (a : ChanAcc) (key : Nat) (table : Bool) :
    Kept r z (Module.channelDo m a key table) := by
  unfold Module.channelDo
  repeat' first
    | with_reducible assumption
    | (extract_lets +onlyGivenNames m
       first
       | (refine Kept.let_in (r := r) (z := z) (m := m) ?_ fun hm => ?_; subst m; rotate_left; clear_value m)
       | clear_value m)
    | with_reducible apply Module.access_kept
    | with_reducible apply Module.ecc_kept
    | with_reducible apply Module.dropCache_kept
    | with_reducible apply Module.staleLine_kept
    | with_reducible apply Module.writeBack_kept
    | with_reducible apply Module.clearPoison_kept
    | with_reducible apply Module.store_kept
    | (with_reducible apply Kept.foldl; intro b hb x)
    | split

theorem Module.channelAccess_kept {r : Bool} {z m : Module} (h : Kept r z m) (a : ChanAcc) :
    Kept r z (Module.channelAccess m a) := by
  unfold Module.channelAccess
  repeat' first
    | with_reducible assumption
    | with_reducible apply Module.xfault_kept
    | with_reducible apply Module.channelDo_kept
    | with_reducible apply Module.cacheXlat_kept
    | split
    | ((conv => (pattern (Module.mk ..); skip)); with_reducible apply Kept.upd)
    | exact id
    | exact Nat.le_refl _
    | exact List.prefix_refl _
    | exact fun _ => Nat.le_refl _
    | with_reducible exact rfl

theorem Module.retryAccesses_kept {r : Bool} {z m : Module} (h : Kept r z m) :
    Kept r z (Module.retryAccesses m) := by
  unfold Module.retryAccesses
  repeat' first
    | with_reducible assumption
    | with_reducible apply Module.channelAccess_kept
    | (with_reducible apply Kept.foldl; intro b hb x)
    | ((conv => (pattern (Module.mk ..); skip)); with_reducible apply Kept.upd)
    | exact id
    | exact Nat.le_refl _
    | exact List.prefix_refl _
    | exact fun _ => Nat.le_refl _
    | with_reducible exact rfl

theorem execChannelAccess_kept (master : BitVec 12) (hall : HallId) (ptn : PtnId) (ra : Nat) (len : Nat) (hint : Nat)
    (a : AccessKind) (o : SectorOutcome) (s : State) :
    Keeps true s (execChannelAccess master hall ptn ra len hint a o s) := by
  unfold execChannelAccess
  refine Keeps.on fun z m h => ?_
  repeat' first
    | with_reducible assumption
    | with_reducible apply Module.channelAccess_kept

theorem execHallCacheFillDone_kept (hall : HallId) (line : Nat) (s : State) :
    Keeps true s (execHallCacheFillDone hall line s) := by
  unfold execHallCacheFillDone
  refine Keeps.on fun z m h => ?_
  repeat' first
    | with_reducible assumption
    | (extract_lets +onlyGivenNames m; clear_value m)
    | with_reducible apply Module.retryAccesses_kept
    | with_reducible apply Module.landFill_kept
    | with_reducible apply Module.setHall_kept
    | split

theorem execScrubRead_kept (stack : StackId) (o : SectorOutcome) (st : State) :
    Keeps true st (execScrubRead stack o st) := by
  unfold execScrubRead
  refine Keeps.on fun z m h => ?_
  repeat' first
    | with_reducible assumption
    | (extract_lets +onlyGivenNames m
       first
       | (refine Kept.let_in (r := true) (z := z) (m := m) ?_ fun hm => ?_; subst m; rotate_left; clear_value m)
       | clear_value m)
    | with_reducible apply Module.corrected_kept
    | with_reducible apply Module.poison_kept
    | with_reducible apply Module.setQuern_kept
    | split
    | exact fun _ => Nat.le_refl _

theorem Module.invalidateCache_kept {r : Bool} {z m : Module} (h : Kept r z m) (h_35 : Nat) :
    Kept r z (Module.invalidateCache m h_35) := by
  unfold Module.invalidateCache
  repeat' first
    | with_reducible assumption
    | with_reducible apply Module.dropCache_kept
    | with_reducible apply Module.cleanCache_kept

theorem execHalCctlFlush_kept (hall : HallId) (s : State) :
    Keeps true s (execHalCctlFlush hall s) := by
  unfold execHalCctlFlush
  refine Keeps.on fun z m h => ?_
  repeat' first
    | with_reducible assumption
    | with_reducible apply Module.cleanCache_kept

theorem execHalCctlInv_kept (hall : HallId) (s : State) :
    Keeps true s (execHalCctlInv hall s) := by
  unfold execHalCctlInv
  refine Keeps.on fun z m h => ?_
  repeat' first
    | with_reducible assumption
    | with_reducible apply Module.invalidateCache_kept

theorem Module.setCacheEn_kept {r : Bool} {z m : Module} (h : Kept r z m) (h_35 : Nat) (en : Bool) :
    Kept r z (Module.setCacheEn m h_35 en) := by
  unfold Module.setCacheEn
  repeat' first
    | with_reducible assumption
    | with_reducible apply Module.setFld_kept
    | with_reducible apply Module.invalidateCache_kept
    | split

theorem execHalCctlEn_kept (hall : HallId) (en : Bool) (s : State) :
    Keeps true s (execHalCctlEn hall en s) := by
  unfold execHalCctlEn
  refine Keeps.on fun z m h => ?_
  repeat' first
    | with_reducible assumption
    | with_reducible apply Module.setCacheEn_kept

theorem Module.rowFault_kept {r : Bool} {z m : Module} (h : Kept r z m) (table : Nat) (edition : Nat) (r_75 : Nat)
    (cause : Nat) (perm : Nat) :
    Kept r z (Module.rowFault m table edition r_75 cause perm) := by
  unfold Module.rowFault
  repeat' first
    | with_reducible assumption
    | with_reducible apply Module.xfault_kept
    | split

theorem Module.countNoEd_kept {r : Bool} {z m : Module} (h : Kept r z m) (p : Nat) :
    Kept r z (Module.countNoEd m p) := by
  unfold Module.countNoEd
  repeat' first
    | with_reducible assumption
    | with_reducible apply Module.count_kept

theorem Module.toMerger_kept {r : Bool} {z m : Module} (h : Kept r z m) (h_35 : Nat) (p : PoolPartial) :
    Kept r z (Module.toMerger m h_35 p) := by
  unfold Module.toMerger
  repeat' first
    | with_reducible assumption
    | with_reducible apply Module.setHall_kept

theorem Module.failEntries_kept {r : Bool} {z m : Module} (h : Kept r z m) (s : Nat) (e : QEntry) (slots : List Nat)
    (status : Nat) :
    Kept r z (Module.failEntries m s e slots status) := by
  unfold Module.failEntries
  repeat' first
    | with_reducible assumption
    | with_reducible apply Module.toMerger_kept

theorem Module.openSegment_kept {r : Bool} {z m : Module} (h : Kept r z m) (s : Nat) (id : Nat) :
    Kept r z (Module.openSegment m s id) := by
  unfold Module.openSegment
  repeat' first
    | with_reducible assumption
    | (extract_lets +onlyGivenNames m; clear_value m)
    | with_reducible apply Module.setQuern_kept
    | split
    | exact fun _ => Nat.le_refl _

theorem Module.formSegment_kept {r : Bool} {z m : Module} (h : Kept r z m) (s : Nat) :
    Kept r z (Module.formSegment m s) := by
  unfold Module.formSegment
  repeat' first
    | with_reducible assumption
    | (extract_lets +onlyGivenNames m
       first
       | (refine Kept.let_in (r := r) (z := z) (m := m) ?_ fun hm => ?_; subst m; rotate_left; clear_value m)
       | clear_value m)
    | with_reducible apply Module.setQuern_kept
    | with_reducible apply Module.openSegment_kept
    | with_reducible apply Module.count_kept
    | split
    | exact fun _ => Nat.le_refl _

theorem execSegmentOpen_kept (stack : StackId) (st : State) :
    Keeps true st (execSegmentOpen stack st) := by
  unfold execSegmentOpen
  refine Keeps.on fun z m h => ?_
  repeat' first
    | with_reducible assumption
    | with_reducible apply Module.openSegment_kept
    | split

theorem Module.retireOne_kept {r : Bool} {z m : Module} (h : Kept r z m) (s : Nat) :
    Kept r z (Module.retireOne m s) := by
  unfold Module.retireOne
  repeat' first
    | with_reducible assumption
    | (extract_lets +onlyGivenNames m; subst m)
    | with_reducible apply Module.setQuern_kept
    | with_reducible apply Module.pick_kept
    | split
    | exact fun _ => Nat.le_refl _

theorem Module.attachLine_kept {r : Bool} {z m : Module} (h : Kept r z m) (s : Nat) (id : Nat) (line : Nat) (e : QEntry) :
    Kept r z (Module.attachLine m s id line e) := by
  unfold Module.attachLine
  repeat' first
    | with_reducible assumption
    | with_reducible apply Module.retireOne_kept
    | with_reducible apply Module.setQuern_kept
    | split
    | exact fun _ => Nat.le_refl _

theorem Module.closeSegment_kept {r : Bool} {z m : Module} (h : Kept r z m) (s : Nat) (id : Nat) :
    Kept r z (Module.closeSegment m s id) := by
  unfold Module.closeSegment
  repeat' first
    | with_reducible assumption
    | (extract_lets +onlyGivenNames m
       first
       | (refine Kept.let_in (r := r) (z := z) (m := m) ?_ fun hm => ?_; subst m; rotate_left; clear_value m)
       | (refine Kept.let_snd (r := r) (z := z) (p := m) ?_ fun hm => ?_; subst m; rotate_left; clear_value m)
       | clear_value m)
    | with_reducible apply Module.setQuern_kept
    | with_reducible apply Module.failEntries_kept
    | with_reducible apply Module.toMerger_kept
    | with_reducible apply Module.draw_kept
    | with_reducible apply Module.count_kept
    | (with_reducible apply Kept.foldl; intro b hb x)
    | split
    | exact fun _ => Nat.le_refl _

theorem Module.closeSegments_kept {r : Bool} {z m : Module} (h : Kept r z m) (s : Nat) :
    Kept r z (Module.closeSegments m s) := by
  unfold Module.closeSegments
  repeat' first
    | with_reducible assumption
    | with_reducible apply Module.closeSegment_kept
    | (with_reducible apply Kept.foldl; intro b hb x)

theorem Module.setSegment_kept {r : Bool} {z m : Module} (h : Kept r z m) (s : Nat) (id : Nat) (f : Segment → Segment) :
    Kept r z (Module.setSegment m s id f) := by
  unfold Module.setSegment
  repeat' first
    | with_reducible assumption
    | with_reducible apply Module.setQuern_kept
    | exact fun _ => Nat.le_refl _

theorem Module.attachEntry_kept {r : Bool} {z m : Module} (h : Kept r z m) (s : Nat) (id : Nat) (e : QEntry) (key : Nat)
    (t : PlacementRec) :
    Kept r z (Module.attachEntry m s id e key t) := by
  unfold Module.attachEntry
  repeat' first
    | with_reducible assumption
    | (extract_lets +onlyGivenNames m
       first
       | (refine Kept.let_in (r := r) (z := z) (m := m) ?_ fun hm => ?_; subst m; rotate_left; clear_value m)
       | clear_value m)
    | with_reducible apply Module.setSegment_kept
    | with_reducible apply Module.count_kept
    | with_reducible apply Module.attachLine_kept
    | (with_reducible apply Kept.foldl; intro b hb x)
    | split

theorem Module.windowError_kept {r : Bool} {z m : Module} (h : Kept r z m) (s : Nat) (key : Nat) (len : Nat)
    (o : SectorOutcome) :
    Kept r z (Module.windowError m s key len o) := by
  unfold Module.windowError
  repeat' first
    | with_reducible assumption
    | with_reducible apply Module.ecc_kept
    | with_reducible apply Module.setQuern_kept
    | split
    | exact fun _ => Nat.le_refl _

theorem Module.acceptEntry_kept {r : Bool} {z m : Module} (h : Kept r z m) (s : Nat) (g : Segment) (e : QEntry)
    (o : SectorOutcome) :
    Kept r z (Module.acceptEntry m s g e o) := by
  unfold Module.acceptEntry
  repeat' first
    | with_reducible assumption
    | with_reducible apply Module.count_kept
    | with_reducible apply Module.setSegment_kept
    | with_reducible apply Module.attachEntry_kept
    | with_reducible apply Module.windowError_kept
    | with_reducible apply Module.cacheXlat_kept
    | with_reducible apply Module.failEntries_kept
    | with_reducible apply Module.rowFault_kept
    | with_reducible apply Module.countNoEd_kept
    | with_reducible apply Module.closeSegments_kept
    | split

theorem execQuernEntryAccept_kept (stack : Reading StackId) (st : State) :
    Keeps true st (execQuernEntryAccept stack st) := by
  unfold execQuernEntryAccept
  refine Keeps.on fun z m h => ?_
  repeat' first
    | (extract_lets +onlyGivenNames m
       first
       | (refine Kept.fn_in (r := true) (z := z) (f := m) ?_ fun hm => ?_; subst m; rotate_left; clear_value m)
       | clear_value m)
    | with_reducible apply Module.acceptEntry_kept
    | with_reducible apply Module.formSegment_kept
    | intro x
    | with_reducible apply_assumption -symm -exfalso
    | dsimp -zeta -zetaHave only
    | split

theorem Module.lineDone_kept {r : Bool} {z m : Module} (h : Kept r z m) (s : Nat) (line : Nat) (o : SectorOutcome) :
    Kept r z (Module.lineDone m s line o) := by
  unfold Module.lineDone
  repeat' first
    | with_reducible assumption
    | with_reducible apply Module.count_kept
    | with_reducible apply Module.setQuern_kept
    | with_reducible apply Module.ecc_kept
    | with_reducible apply Module.chargeKey_kept
    | with_reducible apply Module.closeSegments_kept
    | split
    | exact fun _ => Nat.le_refl _

theorem execLineFetchDone_kept (stack : StackId) (line : Nat) (o : SectorOutcome) (st : State) :
    Keeps true st (execLineFetchDone stack line o st) := by
  unfold execLineFetchDone
  refine Keeps.on fun z m h => ?_
  repeat' first
    | with_reducible assumption
    | with_reducible apply Module.lineDone_kept

theorem execBankFallback_kept (stack : StackId) (line : Nat) (st : State) :
    Keeps true st (execBankFallback stack line st) := by
  unfold execBankFallback
  refine Keeps.on fun z m h => ?_
  repeat' first
    | with_reducible assumption
    | (extract_lets +onlyGivenNames m; clear_value m)
    | with_reducible apply Module.count_kept
    | with_reducible apply Module.setQuern_kept
    | split
    | exact fun _ => Nat.le_refl _

theorem Module.flushQuern_kept {r : Bool} {z m : Module} (h : Kept r z m) (s : Nat) :
    Kept r z (Module.flushQuern m s) := by
  unfold Module.flushQuern
  repeat' first
    | with_reducible assumption
    | with_reducible apply Module.writeBackAll_kept

theorem execQrnFlush_kept (stack : StackId) (st : State) :
    Keeps true st (execQrnFlush stack st) := by
  unfold execQrnFlush
  refine Keeps.on fun z m h => ?_
  repeat' first
    | with_reducible assumption
    | with_reducible apply Module.flushQuern_kept

theorem Module.dropHotRows_kept {r : Bool} {z m : Module} (h : Kept r z m) (s : Nat) :
    Kept r z (Module.dropHotRows m s) := by
  unfold Module.dropHotRows
  repeat' first
    | with_reducible assumption
    | with_reducible apply Module.setQuern_kept
    | exact fun _ => Nat.le_refl _

theorem execQrnHrcinv_kept (stack : StackId) (st : State) :
    Keeps true st (execQrnHrcinv stack st) := by
  unfold execQrnHrcinv
  refine Keeps.on fun z m h => ?_
  repeat' first
    | with_reducible assumption
    | with_reducible apply Module.dropHotRows_kept

theorem execCbAgeWriteback_kept (stack : StackId) (line : Nat) (o : SectorOutcome) (st : State) :
    Keeps true st (execCbAgeWriteback stack line o st) := by
  unfold execCbAgeWriteback
  refine Keeps.on fun z m h => ?_
  repeat' first
    | with_reducible assumption
    | (extract_lets +onlyGivenNames m; clear_value m)
    | with_reducible apply Module.writeBack_kept
    | with_reducible apply Module.ecc_kept
    | with_reducible apply Module.until_kept
    | split

theorem Module.closeBag_kept {r : Bool} {z m : Module} (h : Kept r z m) (g : GatherSt) (bag : Nat) (h_90 : Nat) :
    Kept r z (Module.closeBag m g bag h_90) := by
  unfold Module.closeBag
  repeat' first
    | with_reducible assumption
    | (extract_lets +onlyGivenNames m
       first
       | (refine Kept.let_in (r := r) (z := z) (m := m) ?_ fun hm => ?_; subst m; rotate_left; clear_value m)
       | (refine Kept.mem_in (w := m) ?_; subst m)
       | clear_value m)
    | with_reducible apply Module.stopFiring_kept
    | with_reducible apply Module.settle_kept
    | with_reducible apply Module.spend_kept
    | with_reducible apply Module.wrote_kept
    | with_reducible apply Module.count_kept
    | with_reducible apply Module.finish_kept
    | ((conv => (pattern (Module.mk ..); skip)); with_reducible apply Kept.setMem)
    | exact fun x => writeResult_wf (Kept.mem (by with_reducible assumption) x) ..
    | exact fun x => copyRow_wf (Kept.mem (by with_reducible assumption) x) ..
    | split
    | ((conv => (pattern (Module.mk ..); skip)); with_reducible apply Kept.upd)
    | exact id
    | exact Nat.le_refl _
    | exact List.prefix_refl _
    | exact fun _ => Nat.le_refl _
    | with_reducible exact rfl

theorem Module.closeReady_kept {r : Bool} {z m : Module} (h : Kept r z m) (k : FKey) :
    Kept r z (Module.closeReady m k) := by
  unfold Module.closeReady
  repeat' first
    | with_reducible assumption
    | with_reducible apply Module.closeBag_kept
    | (with_reducible apply Kept.foldl; intro b hb x)
    | split

theorem Module.issue_kept {r : Bool} {z m : Module} (h : Kept r z m) (g : GatherSt) (es : List Issued) :
    Kept r z (Module.issue m g es) := by
  unfold Module.issue
  repeat' first
    | with_reducible assumption
    | with_reducible apply Module.setQuern_kept
    | with_reducible apply Module.setHall_kept
    | with_reducible apply Module.sendTo_kept
    | (with_reducible apply Kept.foldl; intro b hb x)
    | split
    | exact fun _ => Nat.le_refl _

theorem Module.shardDark_kept {r : Bool} {z m : Module} (h : Kept r z m) (p : Nat) (t : Table) (edition : Nat)
    (r_106 : Nat) :
    Kept r z (Module.shardDark m p t edition r_106) := by
  unfold Module.shardDark
  repeat' first
    | with_reducible assumption
    | with_reducible apply Module.degradeAll_kept

theorem Module.endGather_kept {r : Bool} {z m : Module} (h : Kept r z m) (g : GatherSt) (st : Nat) :
    Kept r z (Module.endGather m g st) := by
  unfold Module.endGather
  repeat' first
    | with_reducible assumption
    | with_reducible apply Module.finish_kept
    | split
    | ((conv => (pattern (Module.mk ..); skip)); with_reducible apply Kept.upd)
    | exact id
    | exact Nat.le_refl _
    | exact List.prefix_refl _
    | exact fun _ => Nat.le_refl _
    | with_reducible exact rfl

theorem Module.denyQuern_kept {r : Bool} {z m : Module} (h : Kept r z m) (f : Firing) (s : Nat) (perm : Nat) :
    Kept r z (Module.denyQuern m f s perm) := by
  unfold Module.denyQuern
  repeat' first
    | with_reducible assumption
    | with_reducible apply Module.deny_kept

theorem Module.gatherWork_kept {r : Bool} {z m : Module} (h : Kept r z m) (f : Firing) :
    KeptOk r z (Module.gatherWork m f) := by
  unfold Module.gatherWork
  repeat' first
    | (extract_lets +onlyGivenNames m
       first
       | (refine Kept.let_in (r := r) (z := z) (m := m) ?_ fun hm => ?_; subst m; rotate_left; clear_value m)
       | (refine KeptOk.fn_in (r := r) (z := z) (f := m) ?_ fun hm => ?_; subst m; rotate_left; clear_value m)
       | clear_value m)
    | with_reducible apply KeptOk.pure
    | with_reducible refine KeptOk.bind fun x => ?_
    | with_reducible apply Module.finish_kept
    | with_reducible apply Module.count_kept
    | with_reducible apply Module.denyQuern_kept
    | with_reducible apply Module.shardDark_kept
    | with_reducible apply Module.issue_kept
    | with_reducible apply Module.closeReady_kept
    | intro x
    | with_reducible apply_assumption -symm -exfalso
    | ((conv => (pattern (Module.mk ..); skip)); with_reducible apply Kept.upd)
    | exact Nat.le_refl _
    | exact List.prefix_refl _
    | dsimp -zeta -zetaHave only
    | split

theorem execGather_kept (k : FKey) (s : State) :
    Keeps true s (execGather k s) := by
  unfold execGather
  refine Keeps.on fun z m h => ?_
  repeat' first
    | with_reducible assumption
    | with_reducible apply Module.work_kept
    | with_reducible apply Module.gatherWork_kept
    | intro x

theorem Module.resend_kept {r : Bool} {z m : Module} (h : Kept r z m) (g : GatherSt) (slots : List Nat) :
    Kept r z (Module.resend m g slots) := by
  unfold Module.resend
  repeat' first
    | with_reducible assumption
    | (extract_lets +onlyGivenNames m
       first
       | (refine Kept.let_in (r := r) (z := z) (m := m) ?_ fun hm => ?_; subst m; rotate_left; clear_value m)
       | clear_value m)
    | with_reducible apply Module.endGather_kept
    | with_reducible apply Module.shardDark_kept
    | with_reducible apply Module.issue_kept
    | with_reducible apply Module.count_kept
    | split
    | ((conv => (pattern (Module.mk ..); skip)); with_reducible apply Kept.upd)
    | exact id
    | exact Nat.le_refl _
    | exact List.prefix_refl _
    | exact fun _ => Nat.le_refl _
    | with_reducible exact rfl

theorem Module.addPartial_kept {r : Bool} {z m : Module} (h : Kept r z m) (g : GatherSt) (p : PoolPartial) (h_114 : Nat) :
    Kept r z (Module.addPartial m g p h_114) := by
  unfold Module.addPartial
  repeat' first
    | with_reducible assumption
    | (extract_lets +onlyGivenNames m
       first
       | (refine Kept.let_in (r := r) (z := z) (m := m) ?_ fun hm => ?_; subst m; rotate_left; clear_value m)
       | clear_value m)
    | with_reducible apply Module.endGather_kept
    | with_reducible apply Module.resend_kept
    | with_reducible apply Module.count_kept
    | with_reducible apply Module.closeBag_kept
    | split
    | ((conv => (pattern (Module.mk ..); skip)); with_reducible apply Kept.upd)
    | exact id
    | exact Nat.le_refl _
    | exact List.prefix_refl _
    | exact fun _ => Nat.le_refl _
    | with_reducible exact rfl

theorem execGatherPartial_kept (k : FKey) (s : State) :
    Keeps true s (execGatherPartial k s) := by
  unfold execGatherPartial
  refine Keeps.on fun z m h => ?_
  repeat' first
    | with_reducible assumption
    | with_reducible apply Module.addPartial_kept
    | split
    | ((conv => (pattern (Module.mk ..); skip)); with_reducible apply Kept.upd)
    | exact id
    | exact Nat.le_refl _
    | exact List.prefix_refl _
    | exact fun _ => Nat.le_refl _
    | with_reducible exact rfl

theorem Module.toBench_kept {r : Bool} {z m : Module} (h : Kept r z m) (q : MergerQuota) (p : PoolPartial) :
    Kept r z (Module.toBench m q p) := by
  unfold Module.toBench
  repeat' first
    | with_reducible assumption
    | with_reducible apply Module.sendTo_kept
    | split
    | ((conv => (pattern (Module.mk ..); skip)); with_reducible apply Kept.upd)
    | exact id
    | exact Nat.le_refl _
    | exact List.prefix_refl _
    | exact fun _ => Nat.le_refl _
    | with_reducible exact rfl

theorem Module.dropSlot_kept {r : Bool} {z m : Module} (h : Kept r z m) (h_35 : Nat) (key : FKey) (src : Nat) (bag : Nat) :
    Kept r z (Module.dropSlot m h_35 key src bag) := by
  unfold Module.dropSlot
  repeat' first
    | with_reducible assumption
    | with_reducible apply Module.setHall_kept

theorem Module.lessQuota_kept {r : Bool} {z m : Module} (h : Kept r z m) (h_35 : Nat) (key : FKey) (src : Nat) (bag : Nat)
    (n : Nat) :
    Kept r z (Module.lessQuota m h_35 key src bag n) := by
  unfold Module.lessQuota
  repeat' first
    | with_reducible assumption
    | with_reducible apply Module.setHall_kept

theorem Module.spill_kept {r : Bool} {z m : Module} (h : Kept r z m) (h_35 : Nat) :
    Kept r z (Module.spill m h_35) := by
  unfold Module.spill
  repeat' first
    | with_reducible assumption
    | with_reducible apply Module.lessQuota_kept
    | with_reducible apply Module.dropSlot_kept
    | with_reducible apply Module.count_kept
    | with_reducible apply Module.toBench_kept
    | split

theorem Module.makeRoom_kept {r : Bool} {z m : Module} (h : Kept r z m) (h_35 : Nat) (n : Nat) (a : Nat) :
    Kept r z (Module.makeRoom m h_35 n a) := by
  induction a generalizing m <;> unfold Module.makeRoom <;>
  repeat' first
    | (extract_lets +onlyGivenNames m; clear_value m)
    | with_reducible apply Module.spill_kept
    | with_reducible apply_assumption -symm -exfalso
    | split

theorem Module.checkSlot_kept {r : Bool} {z m : Module} (h : Kept r z m) (h_35 : Nat) (q : MergerQuota) :
    Kept r z (Module.checkSlot m h_35 q) := by
  unfold Module.checkSlot
  repeat' first
    | with_reducible assumption
    | (extract_lets +onlyGivenNames m; refine Kept.let_in (r := r) (z := z) (m := m) ?_ fun hm => ?_; subst m; rotate_left; clear_value m)
    | with_reducible apply Module.lessQuota_kept
    | with_reducible apply Module.dropSlot_kept
    | with_reducible apply Module.addPartial_kept
    | with_reducible apply Module.toBench_kept
    | split

theorem execMergerPartial_kept (hall : Reading HallId) (s : State) :
    Keeps true s (execMergerPartial hall s) := by
  unfold execMergerPartial
  refine Keeps.on fun z m h => ?_
  repeat' first
    | with_reducible assumption
    | (extract_lets +onlyGivenNames m
       first
       | (refine Kept.let_in (r := true) (z := z) (m := m) ?_ fun hm => ?_; subst m; rotate_left; clear_value m)
       | clear_value m)
    | with_reducible apply Module.setHall_kept
    | with_reducible apply Module.checkSlot_kept
    | with_reducible apply Module.lessQuota_kept
    | with_reducible apply Module.toBench_kept
    | with_reducible apply Module.count_kept
    | with_reducible apply Module.makeRoom_kept
    | split

theorem execGatherReq_kept (src : MemberId) (ptn : PtnId) (payload : List Byte) (s : State) :
    Keeps true s (execGatherReq src ptn payload s) := by
  unfold execGatherReq
  refine Keeps.on fun z m h => ?_
  repeat' first
    | with_reducible assumption
    | (extract_lets +onlyGivenNames m
       first
       | (refine Kept.let_in (r := true) (z := z) (m := m) ?_ fun hm => ?_; subst m; rotate_left; clear_value m)
       | clear_value m)
    | with_reducible apply Module.setHall_kept
    | with_reducible apply Module.setQuern_kept
    | with_reducible apply Module.failEntries_kept
    | with_reducible apply Module.deny_kept
    | (with_reducible apply Kept.foldl; intro b hb x)
    | split
    | exact fun _ => Nat.le_refl _

theorem execPartialPkt_kept (src : MemberId) (_ptn : PtnId) (payload : List Byte) (s : State) :
    Keeps true s (execPartialPkt src _ptn payload s) := by
  unfold execPartialPkt
  refine Keeps.on fun z m h => ?_
  repeat' first
    | with_reducible assumption
    | (extract_lets +onlyGivenNames m; clear_value m)
    | (with_reducible apply Kept.foldl; intro b hb x)
    | split
    | ((conv => (pattern (Module.mk ..); skip)); with_reducible apply Kept.upd)
    | exact id
    | exact Nat.le_refl _
    | exact List.prefix_refl _
    | exact fun _ => Nat.le_refl _
    | with_reducible exact rfl

theorem Module.markRebuilds_kept {r : Bool} {z m : Module} (h : Kept r z m) (t : Table) (adds : List AddEntry) :
    Kept r z (Module.markRebuilds m t adds) := by
  unfold Module.markRebuilds
  repeat' first
    | with_reducible assumption
    | with_reducible apply Module.setGuild_kept

theorem Module.acceptBatch_kept {r : Bool} {z m : Module} (h : Kept r z m) (s : Nat) (t : Table) (adds : List AddEntry) :
    Kept r z (Module.acceptBatch m s t adds) := by
  unfold Module.acceptBatch
  repeat' first
    | with_reducible assumption
    | with_reducible apply Module.draw_kept
    | with_reducible apply Module.count_kept
    | with_reducible apply Module.accept_kept
    | with_reducible apply Module.markRebuilds_kept
    | (with_reducible apply Kept.foldl; intro b hb x)

theorem Module.putReceipt_kept {r : Bool} {z m : Module} (h : Kept r z m) (p : Nat) (r_50 : Receipt) :
    Kept r z (Module.putReceipt m p r_50) := by
  unfold Module.putReceipt
  repeat' first
    | with_reducible assumption
    | (extract_lets +onlyGivenNames m
       first
       | (refine Kept.let_in (r := r) (z := z) (m := m) ?_ fun hm => ?_; subst m; rotate_left; clear_value m)
       | clear_value m)
    | with_reducible apply Module.setPtn_kept
    | with_reducible apply Module.post_kept
    | with_reducible apply Module.count_kept
    | split

theorem execReceiptExpire_kept (ptn : PtnId) (tag : BatchTag) (s : State) :
    Keeps true s (execReceiptExpire ptn tag s) := by
  unfold execReceiptExpire
  refine Keeps.on fun z m h => ?_
  repeat' first
    | with_reducible assumption
    | with_reducible apply Module.setPtn_kept
    | with_reducible apply Module.until_kept
    | split

theorem Module.checkScatter_kept {r : Bool} {z m : Module} (h : Kept r z m) (k : FKey) :
    Kept r z (Module.checkScatter m k) := by
  unfold Module.checkScatter
  repeat' first
    | with_reducible assumption
    | with_reducible apply Module.finish_kept
    | split
    | ((conv => (pattern (Module.mk ..); skip)); with_reducible apply Kept.upd)
    | exact id
    | exact Nat.le_refl _
    | exact List.prefix_refl _
    | exact fun _ => Nat.le_refl _
    | with_reducible exact rfl

theorem Module.ackBatch_kept {r : Bool} {z m : Module} (h : Kept r z m) (member : Nat) (tag : BatchTag) (status : Nat) :
    Kept r z (Module.ackBatch m member tag status) := by
  unfold Module.ackBatch
  repeat' first
    | with_reducible assumption
    | with_reducible apply Module.finish_kept
    | with_reducible apply Module.checkScatter_kept
    | split
    | ((conv => (pattern (Module.mk ..); skip)); with_reducible apply Kept.upd)
    | exact id
    | exact Nat.le_refl _
    | exact List.prefix_refl _
    | exact fun _ => Nat.le_refl _
    | with_reducible exact rfl

theorem Module.finishBatch_kept {r : Bool} {z m : Module} (h : Kept r z m) (s : Nat) (b : Batch) (status : Nat) :
    Kept r z (Module.finishBatch m s b status) := by
  unfold Module.finishBatch
  repeat' first
    | with_reducible assumption
    | (extract_lets +onlyGivenNames m; refine Kept.let_in (r := r) (z := z) (m := m) ?_ fun hm => ?_; subst m; rotate_left; clear_value m)
    | with_reducible apply Module.setQuern_kept
    | with_reducible apply Module.ackBatch_kept
    | with_reducible apply Module.sendTo_kept
    | split
    | exact fun _ => Nat.le_refl _

theorem Module.reserveBatch_kept {r : Bool} {z m : Module} (h : Kept r z m) (s : Nat) (b : Batch) :
    Kept r z (Module.reserveBatch m s b) := by
  unfold Module.reserveBatch
  repeat' first
    | with_reducible assumption
    | (extract_lets +onlyGivenNames m; clear_value m)
    | with_reducible apply Module.setQuern_kept
    | split
    | exact fun _ => Nat.le_refl _

theorem execAddBatchArrive_kept (stack : StackId) (tag : BatchTag) (s : State) :
    Keeps true s (execAddBatchArrive stack tag s) := by
  unfold execAddBatchArrive
  refine Keeps.on fun z m h => ?_
  repeat' first
    | with_reducible assumption
    | with_reducible apply Module.finishBatch_kept
    | with_reducible apply Module.count_kept
    | with_reducible apply Module.deny_kept
    | with_reducible apply Module.reserveBatch_kept
    | split

theorem execAddBatchReserved_kept (stack : StackId) (tag : BatchTag) (s : State) :
    Keeps true s (execAddBatchReserved stack tag s) := by
  unfold execAddBatchReserved
  refine Keeps.on fun z m h => ?_
  repeat' first
    | with_reducible assumption
    | with_reducible apply Module.reserveBatch_kept
    | split

theorem execAddBatchEnd_kept (stack : StackId) (tag : BatchTag) (s : State) :
    Keeps true s (execAddBatchEnd stack tag s) := by
  unfold execAddBatchEnd
  refine Keeps.on fun z m h => ?_
  repeat' first
    | with_reducible assumption
    | (extract_lets +onlyGivenNames m; clear_value m)
    | with_reducible apply Module.finishBatch_kept
    | with_reducible apply Module.rowFault_kept
    | with_reducible apply Module.putReceipt_kept
    | with_reducible apply Module.acceptBatch_kept
    | split

theorem Module.sendBatch_kept {r : Bool} {z m : Module} (h : Kept r z m) (table : Nat)
    (b : BatchTag × Nat × List AddEntry) :
    Kept r z (Module.sendBatch m table b) := by
  unfold Module.sendBatch
  repeat' first
    | with_reducible assumption
    | with_reducible apply Module.setQuern_kept
    | with_reducible apply Module.sendTo_kept
    | split
    | exact fun _ => Nat.le_refl _

theorem Module.scatterWork_kept {r : Bool} {z m : Module} (h : Kept r z m) (f : Firing) :
    KeptOk r z (Module.scatterWork m f) := by
  unfold Module.scatterWork
  repeat' first
    | (extract_lets +onlyGivenNames m
       first
       | (refine Kept.let_in (r := r) (z := z) (m := m) ?_ fun hm => ?_; subst m; rotate_left; clear_value m)
       | (refine KeptOk.fn_in (r := r) (z := z) (f := m) ?_ fun hm => ?_; subst m; rotate_left; clear_value m)
       | clear_value m)
    | with_reducible apply KeptOk.pure
    | with_reducible refine KeptOk.bind fun x => ?_
    | with_reducible apply Module.finish_kept
    | with_reducible apply Module.count_kept
    | with_reducible apply Module.denyQuern_kept
    | with_reducible apply Module.checkScatter_kept
    | with_reducible apply Module.sendBatch_kept
    | (with_reducible apply Kept.foldl; intro b hb x)
    | intro x
    | with_reducible apply_assumption -symm -exfalso
    | ((conv => (pattern (Module.mk ..); skip)); with_reducible apply Kept.upd)
    | exact Nat.le_refl _
    | exact List.prefix_refl _
    | dsimp -zeta -zetaHave only
    | split

theorem execScatterAdd_kept (k : FKey) (s : State) :
    Keeps true s (execScatterAdd k s) := by
  unfold execScatterAdd
  refine Keeps.on fun z m h => ?_
  repeat' first
    | with_reducible assumption
    | with_reducible apply Module.work_kept
    | with_reducible apply Module.scatterWork_kept
    | intro x

theorem execAddBatch_kept (src : MemberId) (ptn : PtnId) (payload : List Byte) (s : State) :
    Keeps true s (execAddBatch src ptn payload s) := by
  unfold execAddBatch
  refine Keeps.on fun z m h => ?_
  dsimp only
  split
  · exact h
  · refine Module.setQuern_kept h _ _ fun x => ?_
    split <;> exact Nat.le_refl _

theorem execAddAck_kept (src : MemberId) (ptn : PtnId) (payload : List Byte) (s : State) :
    Keeps true s (execAddAck src ptn payload s) := by
  unfold execAddAck
  refine Keeps.on fun z m h => ?_
  repeat' first
    | with_reducible assumption
    | (extract_lets +onlyGivenNames m; clear_value m)
    | with_reducible apply Module.ackBatch_kept
    | split

theorem Module.rowBytesAt_kept {r : Bool} {z m : Module} (h : Kept r z m) (p : Nat) (table : Nat) (edition : Nat)
    (r_90 : Nat) (off : Nat) (len : Nat) :
    Kept r z (Module.rowBytesAt m p table edition r_90 off len).2 := by
  unfold Module.rowBytesAt
  repeat' first
    | with_reducible assumption
    | (extract_lets +onlyGivenNames m
       first
       | (refine Kept.let_in (r := r) (z := z) (m := m) ?_ fun hm => ?_; subst m; rotate_left; clear_value m)
       | clear_value m)
    | with_reducible apply Module.cacheXlat_kept
    | with_reducible apply Module.rowFault_kept
    | with_reducible apply Module.countNoEd_kept
    | split

theorem Module.serveRow_kept {r : Bool} {z m : Module} (h : Kept r z m) (s : Nat) (p : Nat) (hint : Nat) (key : Nat)
    (stride : Nat) :
    Kept r z (Module.serveRow m s p hint key stride) := by
  unfold Module.serveRow
  repeat' first
    | with_reducible assumption
    | (extract_lets +onlyGivenNames m
       first
       | (refine Kept.let_in (r := r) (z := z) (m := m) ?_ fun hm => ?_; subst m; rotate_left; clear_value m)
       | clear_value m)
    | with_reducible apply Module.count_kept
    | with_reducible apply Module.retireOne_kept
    | with_reducible apply Module.setQuern_kept
    | with_reducible apply Module.chargeKey_kept
    | split
    | exact fun _ => Nat.le_refl _

theorem Module.sampleRow_kept {r : Bool} {z m : Module} (h : Kept r z m) (p : Nat) (hint : Nat) (table : Nat)
    (edition : Nat) (r_108 : Nat) (off : Nat) (len : Nat) :
    Kept r z (Module.sampleRow m p hint table edition r_108 off len).2 := by
  unfold Module.sampleRow
  repeat' first
    | with_reducible assumption
    | with_reducible apply Module.rowBytesAt_kept
    | with_reducible apply Module.serveRow_kept
    | split
    | refine Kept.snd_eq (by with_reducible assumption) ?_

theorem Module.readOffs_kept {r : Bool} {z m : Module} (h : Kept r z m) (p : Nat) (hint : Nat) (g : GuildGraph)
    (edition : Nat) (u : Nat) :
    Kept r z (Module.readOffs m p hint g edition u).2 := by
  unfold Module.readOffs
  repeat' first
    | with_reducible assumption
    | with_reducible apply Module.sampleRow_kept
    | split
    | refine Kept.snd_eq (by with_reducible assumption) ?_

theorem Module.pairRow_kept {r : Bool} {z m : Module} (h : Kept r z m) (p : Nat) (hint : Nat) (M : Option Nat)
    (g : GuildGraph) (edition : Nat) (other : Nat) (r_172 : Nat) (off : Nat) (len : Nat) :
    Kept r z (Module.pairRow m p hint M g edition other r_172 off len).2 := by
  unfold Module.pairRow
  repeat' first
    | with_reducible assumption
    | with_reducible apply Module.deny_kept
    | with_reducible apply Module.countNoEd_kept
    | with_reducible apply Module.sampleRow_kept
    | split

theorem Module.readNbr_kept {r : Bool} {z m : Module} (h : Kept r z m) (p : Nat) (hint : Nat) (M : Option Nat)
    (g : GuildGraph) (edition : Nat) (shard : Nat) (e : Nat) (weigh : Bool) :
    Kept r z (Module.readNbr m p hint M g edition shard e weigh).2 := by
  unfold Module.readNbr
  repeat' first
    | with_reducible assumption
    | (extract_lets +onlyGivenNames m; clear_value m)
    | with_reducible apply Module.pairRow_kept
    | split
    | refine Kept.snd_eq (by with_reducible assumption) ?_

theorem Module.putArray_kept {r : Bool} {z m : Module} (h : Kept r z m) (f : Firing) (r_71 : Nat) (t : Tensor) (off : Nat)
    (bs : List Byte) :
    KeptOk r z (Module.putArray m f r_71 t off bs) := by
  unfold Module.putArray
  repeat' first
    | with_reducible assumption
    | with_reducible apply KeptOk.pure
    | with_reducible refine KeptOk.bind fun x => ?_
    | with_reducible apply Module.wrote_kept
    | with_reducible apply Module.store_kept
    | with_reducible apply Module.settle_kept

theorem Module.writeSample_kept {r : Bool} {z m : Module} (h : Kept r z m) (f : Firing)
    (bags : List (List (Int × BitVec 32))) (flagged : Bool) :
    KeptOk r z (Module.writeSample m f bags flagged) := by
  unfold Module.writeSample
  repeat' first
    | with_reducible apply KeptOk.pure
    | with_reducible apply KeptOk.ite
    | with_reducible refine KeptOk.bind_module ?_ fun x hx => ?_
    | with_reducible apply Module.putArray_kept
    | with_reducible apply Module.finish_kept
    | intro x
    | with_reducible apply_assumption -symm -exfalso
    | ((conv => (pattern (Module.mk ..); skip)); with_reducible apply Kept.upd)
    | exact Nat.le_refl _
    | exact List.prefix_refl _

theorem Module.writeFull.write_kept {r : Bool} {z m : Module} (h : Kept r z m) (f : Firing) (sink : Int) (trunc : Bool)
    (flagged : Bool) (r_131 : Tensor) (bags : List (Int × Nbrs)) :
    KeptOk r z (Module.writeFull.write f sink trunc flagged m r_131 bags) := by
  unfold Module.writeFull.write
  repeat' first
    | with_reducible apply KeptOk.pure
    | with_reducible refine KeptOk.bind_module ?_ fun x hx => ?_
    | with_reducible apply Module.putArray_kept
    | with_reducible apply Module.count_kept
    | with_reducible apply Module.finish_kept
    | intro x
    | with_reducible apply_assumption -symm -exfalso
    | ((conv => (pattern (Module.mk ..); skip)); with_reducible apply Kept.upd)
    | exact Nat.le_refl _
    | exact List.prefix_refl _

theorem Module.writeFull_kept {r : Bool} {z m : Module} (h : Kept r z m) (f : Firing) (lists : List (Int × Nbrs))
    (sink : Int) (trunc : Bool) (flagged : Bool) :
    KeptOk r z (Module.writeFull m f lists sink trunc flagged) := by
  unfold Module.writeFull
  repeat' first
    | with_reducible assumption
    | (extract_lets +onlyGivenNames m; clear_value m)
    | with_reducible apply KeptOk.pure
    | with_reducible apply Module.openHub_kept
    | with_reducible apply Module.count_kept
    | with_reducible apply Module.writeFull.write_kept
    | split

theorem Module.sampleLocal_kept {r : Bool} {z m : Module} (h : Kept r z m) (f : Firing) (c : Csr)
    (seeds : List (Int × Bool)) :
    KeptOk r z (Module.sampleLocal m f c seeds) := by
  unfold Module.sampleLocal
  extract_lets hl fresh first note
  have hn : ∀ e k, Kept r z (note m e k) := fun e k => by
    simp only [note]
    split
    · exact Module.count_kept (Module.count_kept (Module.count_kept (Module.count_kept h ..) ..) ..) ..
    · exact h
  clear_value note
  split
  · exact Module.writeFull_kept (hn ..).drawn ..
  · exact Module.writeSample_kept (hn ..) ..

theorem Module.sendParents_kept {r : Bool} {z m : Module} (h : Kept r z m) (f : Firing) (g : GuildGraph) (hop : Nat)
    (ps : List Parent) :
    Kept r z (Module.sendParents m f g hop ps) := by
  unfold Module.sendParents
  repeat' first
    | with_reducible assumption
    | with_reducible apply Module.sendTo_kept
    | (with_reducible apply Kept.foldl; intro b hb x)

theorem Module.endSample_kept {r : Bool} {z m : Module} (h : Kept r z m) (f : Firing) (st : Nat) :
    Kept r z (Module.endSample m f st) := by
  unfold Module.endSample
  repeat' first
    | with_reducible assumption
    | with_reducible apply Module.finish_kept
    | ((conv => (pattern (Module.mk ..); skip)); with_reducible apply Kept.upd)
    | exact id
    | exact Nat.le_refl _
    | exact List.prefix_refl _
    | exact fun _ => Nat.le_refl _
    | with_reducible exact rfl

theorem Module.finishSample_kept {r : Bool} {z m : Module} (h : Kept r z m) (f : Firing) (st : SampleSt) (g : GuildGraph) :
    Kept r z (Module.finishSample m f st g) := by
  unfold Module.finishSample
  extract_lets act
  have ha : KeptOk r z act := by
    subst act
    split
    · exact Module.writeFull_kept h ..
    · exact Module.writeSample_kept h ..
  clear_value act
  split
  · exact KeptOk.out rfl ha
  · exact Module.stopFiring_kept h ..

theorem Module.putSample_kept {r : Bool} {z m : Module} (h : Kept r z m) (f : Firing) (st : SampleSt) :
    Kept r z (Module.putSample m f st) := by
  unfold Module.putSample
  repeat' first
    | with_reducible assumption
    | ((conv => (pattern (Module.mk ..); skip)); with_reducible apply Kept.upd)
    | exact id
    | exact Nat.le_refl _
    | exact List.prefix_refl _
    | exact fun _ => Nat.le_refl _
    | with_reducible exact rfl

theorem Module.advanceHop_kept {r : Bool} {z m : Module} (h : Kept r z m) (f : Firing) (t : Table) (left : Nat)
    (st : SampleSt) :
    Kept r z (Module.advanceHop m f t left st).2 := by
  unfold Module.advanceHop
  repeat' first
    | with_reducible assumption
    | with_reducible apply Module.count_kept
    | split

theorem Module.startHop_kept {r : Bool} {z m : Module} (h : Kept r z m) (f : Firing) (g : GuildGraph) (t : Table) (a : Nat)
    (st : SampleSt) : Kept r z (Module.startHop m f g t a st) := by
  induction a generalizing m st with
  | zero => exact Module.finishSample_kept (Module.putSample_kept h ..) ..
  | succ n ih =>
    unfold Module.startHop
    split
    · exact Module.endSample_kept (Module.shardDark_kept h ..) ..
    · dsimp only
      split
      · exact ih (Module.advanceHop_kept h ..) _
      · exact Module.sendParents_kept (Module.putSample_kept h ..) ..

theorem Module.walkOn_kept {r : Bool} {z m : Module} (h : Kept r z m) (f : Firing) (g : GuildGraph) (t : Table)
    (l : List (Int × Bool)) (st : SampleSt) : Kept r z (Module.walkOn m f g t l st) := by
  induction l generalizing m st with
  | nil => exact Module.finishSample_kept (Module.putSample_kept h ..) ..
  | cons x rest ih =>
    unfold Module.walkOn
    split
    · exact ih (Module.count_kept h ..) _
    · dsimp only
      split
      · exact Module.finishSample_kept (Module.putSample_kept h ..) ..
      · split
        · exact ih (Module.count_kept h ..) _
        · split
          · exact Module.endSample_kept (Module.shardDark_kept h ..) ..
          · exact Module.sendParents_kept (Module.putSample_kept h ..) ..

theorem Module.walkTake_kept {r : Bool} {z m : Module} (h : Kept r z m) (f : Firing) (g : GuildGraph) (t : Table)
    (st : SampleSt) :
    Kept r z (Module.walkTake m f g t st) := by
  unfold Module.walkTake
  repeat' first
    | with_reducible assumption
    | (extract_lets +onlyGivenNames m; clear_value m)
    | with_reducible apply Module.walkOn_kept
    | with_reducible apply Module.count_kept
    | with_reducible apply Module.finishSample_kept
    | with_reducible apply Module.putSample_kept
    | split

theorem Module.checkHop_kept {r : Bool} {z m : Module} (h : Kept r z m) (f : Firing) (st : SampleSt) (g : GuildGraph)
    (t : Table) :
    Kept r z (Module.checkHop m f st g t) := by
  unfold Module.checkHop
  repeat' first
    | with_reducible assumption
    | with_reducible apply Module.walkTake_kept
    | with_reducible apply Module.advanceHop_kept
    | with_reducible apply Module.startHop_kept
    | split
    | ((conv => (pattern (Module.mk ..); skip)); with_reducible apply Kept.upd)
    | exact id
    | exact Nat.le_refl _
    | exact List.prefix_refl _
    | exact fun _ => Nat.le_refl _
    | with_reducible exact rfl

theorem Module.sampleWork_kept {r : Bool} {z m : Module} (h : Kept r z m) (f : Firing) :
    KeptOk r z (Module.sampleWork m f) := by
  unfold Module.sampleWork
  repeat' first
    | (extract_lets +onlyGivenNames m
       first
       | (refine Kept.let_in (r := r) (z := z) (m := m) ?_ fun hm => ?_; subst m; rotate_left; clear_value m)
       | (refine KeptOk.fn_in (r := r) (z := z) (f := m) ?_ fun hm => ?_; subst m; rotate_left; clear_value m)
       | clear_value m)
    | with_reducible apply KeptOk.pure
    | with_reducible apply KeptOk.ite
    | with_reducible apply KeptOk.throw
    | with_reducible refine KeptOk.bind fun x => ?_
    | with_reducible apply Module.finishSample_kept
    | with_reducible apply Module.finish_kept
    | with_reducible apply Module.count_kept
    | with_reducible apply Module.denyQuern_kept
    | with_reducible apply Module.walkOn_kept
    | with_reducible apply Module.startHop_kept
    | with_reducible apply Module.csrRefused_kept
    | with_reducible apply Module.sampleLocal_kept
    | intro x
    | with_reducible apply_assumption -symm -exfalso
    | split

theorem execSample_kept (k : FKey) (s : State) :
    Keeps true s (execSample k s) := by
  unfold execSample
  refine Keeps.on fun z m h => ?_
  repeat' first
    | with_reducible assumption
    | with_reducible apply Module.work_kept
    | with_reducible apply Module.sampleWork_kept
    | intro x

theorem Module.takeAnswer_kept {r : Bool} {z m : Module} (h : Kept r z m) (f : Firing) (st : SampleSt) (g : GuildGraph)
    (t : Table) (p : Parent) (status : Nat) (got : List (Int × BitVec 32)) (last : Bool) :
    Kept r z (Module.takeAnswer m f st g t p status got last) := by
  unfold Module.takeAnswer
  repeat' first
    | with_reducible assumption
    | with_reducible apply Module.endSample_kept
    | with_reducible apply Module.shardDark_kept
    | with_reducible apply Module.sendParents_kept
    | with_reducible apply Module.count_kept
    | with_reducible apply Module.checkHop_kept
    | split
    | ((conv => (pattern (Module.mk ..); skip)); with_reducible apply Kept.upd)
    | exact id
    | exact Nat.le_refl _
    | exact List.prefix_refl _
    | exact fun _ => Nat.le_refl _
    | with_reducible exact rfl

theorem execSampleNeighbourReturn_kept (k : FKey) (s : State) :
    Keeps true s (execSampleNeighbourReturn k s) := by
  unfold execSampleNeighbourReturn
  refine Keeps.on fun z m h => ?_
  repeat' first
    | with_reducible assumption
    | (extract_lets +onlyGivenNames m
       first
       | (refine Kept.let_in (r := true) (z := z) (m := m) ?_ fun hm => ?_; subst m; rotate_left; clear_value m)
       | clear_value m)
    | with_reducible apply Module.readOffs_kept
    | with_reducible apply Module.takeAnswer_kept
    | with_reducible apply Module.walkTake_kept
    | with_reducible apply Module.readNbr_kept
    | with_reducible apply Module.count_kept
    | split
    | refine Kept.snd_eq (by with_reducible assumption) ?_

theorem Module.answerParent_kept {r : Bool} {z m : Module} (h : Kept r z m) (p hint M : Nat) (g : GuildGraph)
    (edition : Nat)
    (full : Bool) (F wout key : Nat) (reqid : Word) (hop : Nat) (v : Int) (slot : Nat) :
    Kept r z (Module.answerParent m p hint M g edition full F wout key reqid hop v slot).2.2.2 := by
  have ho := Module.readOffs_kept h p hint g edition v.toNat
  unfold Module.answerParent
  split
  · next e => exact Kept.snd_eq e ho
  · next e => exact Kept.snd_eq e ho
  · next e =>
    have hm := Kept.snd_eq e ho
    dsimp only
    split
    · exact hm
    · refine Kept.foldl_trd _ (fun b hb x => ?_) hm
      split
      · exact hb
      · split
        · next e => exact Kept.snd_eq e (Module.readNbr_kept hb ..)
        · next e => exact Kept.snd_eq e (Module.readNbr_kept hb ..)

theorem execSampleReq_kept (src : MemberId) (ptn : PtnId) (payload : List Byte) (s : State) :
    Keeps true s (execSampleReq src ptn payload s) := by
  unfold execSampleReq
  refine Keeps.on fun z m h => ?_
  dsimp only
  refine Module.sendTo_kept (Kept.foldl_snd _ (fun b hb i => ?_) h) ..
  dsimp only
  split
  · split
    · exact Module.deny_kept hb ..
    · exact Module.count_kept (Module.answerParent_kept hb ..) ..
  · exact Module.countNoEd_kept hb ..

theorem execSampleAns_kept (src : MemberId) (_ptn : PtnId) (payload : List Byte) (s : State) :
    Keeps true s (execSampleAns src _ptn payload s) := by
  unfold execSampleAns
  refine Keeps.on fun z m h => ?_
  repeat' first
    | with_reducible assumption
    | with_reducible apply Module.takeAnswer_kept
    | (with_reducible apply Kept.foldl; intro b hb x)
    | split

theorem execHubSegmentTake_kept (bench : BenchId) (s : State) :
    Keeps true s (execHubSegmentTake bench s) := by
  unfold execHubSegmentTake
  refine Keeps.on fun z m h => ?_
  repeat' first
    | with_reducible assumption
    | with_reducible apply Module.takeSegment_kept
    | split
    | intro x

end Sys2Proof.Machine
end

