-- ==== Sys2Proof/Laws/KeptServing.lean ====
section
/-! SUPPORT. `Kept` for the operations of streams, serving, allocation and editions: one lemma each. -/
namespace Sys2Proof.Machine

theorem Module.moveRuns_kept {r : Bool} {z m : Module} (h : Kept r z m) (f : Firing) (s : Tensor) (d : Tensor)
    (rs : List Run) : KeptOk r z (Module.moveRuns m f s d rs) := by
  unfold Module.moveRuns
  refine KeptOk.bind fun ps => KeptOk.pure (Kept.foldl _ (fun b hb x => ?_) ?_)
  · extract_lets bytes acc acc2
    have h1 : Kept r z acc := Module.wrote_kept hb ..
    have h2 : Kept r z acc2 := by
      subst acc2
      split
      · exact Module.accessAll_kept (Module.cacheXlat_kept h1 ..) ..
      · exact h1
    split
    · exact Module.accessAll_kept (Module.cacheXlat_kept h2 ..) ..
    · exact h2
  · exact h.setMem fun w => SparseWf.foldl (fun _ _ y => putBits_wf y ..) (h.mem w) _

/-- What the plan of a COPY leaves, where its accesses pass. -/
theorem Module.copyAct_kept {r : Bool} {z : Module} {ε α : Type} {x : Except ε Module} {v : α} {y : Module} {w : Module → α}
    (h : KeptOk r z x) (e : (x >>= fun y => pure (y, w y)) = .ok (y, v)) : Kept r z y := by
  cases x with
  | error _ => cases e
  | ok a => cases e; exact KeptOk.out rfl h

theorem Module.copyPart_kept {r : Bool} {z m : Module} (h : Kept r z m) (f : Firing) (s d : Tensor) (a : Nat)
    (whole : Bool) :
    Kept r z (Module.copyPart m f s d a whole) := by
  unfold Module.copyPart
  extract_lets hl act
  split
  · next y n all e =>
    have hy : Kept r z y := by
      simp only [act] at e
      cases hp : m.opened.copyPlan f s d with
      | error st => simp [hp, bind, Except.bind] at e
      | ok rs =>
        rw [hp] at e
        exact Module.copyAct_kept (Module.moveRuns_kept (Module.opened_kept h) ..) e
    extract_lets m1
    have h1 : Kept r z m1 := Module.setCtxs_kept (Module.count_kept (Module.closed_kept hy) ..) ..
    split
    · exact Module.finish_kept h1 ..
    · exact h1
  · exact Module.stopFiring_kept h ..

theorem Module.takeCopy_kept {r : Bool} {z m : Module} (h : Kept r z m) (f : Firing) :
    Kept r z (Module.takeCopy m f) := by
  unfold Module.takeCopy
  repeat' first
    | with_reducible assumption
    | (extract_lets +onlyGivenNames m
       first
       | (refine Kept.let_in (r := r) (z := z) (m := m) ?_ fun hm => ?_; subst m; rotate_left; clear_value m)
       | (refine Kept.let_fst (r := r) (z := z) (p := m) ?_ fun hm => ?_; subst m; rotate_left; clear_value m)
       | clear_value m)
    | with_reducible apply Module.begin_kept
    | with_reducible apply Module.haltAt_kept
    | with_reducible apply Module.launch_kept
    | with_reducible apply Module.stopFiring_kept
    | with_reducible apply Module.offer_kept
    | split

theorem Module.lightCopy_kept {r : Bool} {z m : Module} (h : Kept r z m) (k : FKey) :
    Kept r z (Module.lightCopy m k) := by
  unfold Module.lightCopy
  repeat' first
    | with_reducible assumption
    | with_reducible apply Module.copyPart_kept
    | split

theorem execStreamCopy_kept (k : FKey) (s : State) :
    Keeps true s (execStreamCopy k s) := by
  unfold execStreamCopy
  refine Keeps.on fun z m h => ?_
  repeat' first
    | with_reducible assumption
    | with_reducible apply Module.lightCopy_kept
    | with_reducible apply Module.takeCopy_kept
    | split

theorem execStreamAdmit_kept (hall : HallId) (s : State) :
    Keeps true s (execStreamAdmit hall s) := by
  unfold execStreamAdmit
  refine Keeps.on fun z m h => ?_
  repeat' first
    | with_reducible assumption
    | with_reducible apply Module.admitted_kept
    | with_reducible apply Module.setHall_kept
    | split

theorem execPreadmit_kept (bench : BenchId) (s : State) :
    Keeps true s (execPreadmit bench s) := by
  unfold execPreadmit
  refine Keeps.on fun z m h => ?_
  repeat' first
    | with_reducible assumption
    | (extract_lets +onlyGivenNames m
       first
       | (refine Kept.let_in (r := true) (z := z) (m := m) ?_ fun hm => ?_; subst m; rotate_left; clear_value m)
       | clear_value m)
    | with_reducible apply Module.count_kept
    | with_reducible apply Module.useTurn_kept
    | with_reducible apply Module.setEntry_kept
    | with_reducible apply Module.setBench_kept
    | with_reducible apply Module.start_kept
    | split

theorem Module.request_kept {r : Bool} {z m : Module} (h : Kept r z m) (h_35 : Nat) (c : Context) (o : SectorOutcome) :
    Kept r z (Module.request m h_35 c o) := by
  unfold Module.request
  repeat' first
    | (extract_lets +onlyGivenNames m
       first
       | (refine Kept.let_in (r := r) (z := z) (m := m) ?_ fun hm => ?_; subst m; rotate_left; clear_value m)
       | (refine Kept.fn_in_fst (r := r) (z := z) (f := m) ?_ fun hm => ?_; subst m; rotate_left; clear_value m)
       | clear_value m)
    | with_reducible apply Module.pick_kept
    | with_reducible apply Module.count_kept
    | with_reducible apply Module.setCtxs_kept
    | with_reducible apply Module.cacheXlat_kept
    | with_reducible apply Module.access_kept
    | with_reducible apply Module.ecc_kept
    | with_reducible apply Module.stopFiring_kept
    | with_reducible apply Module.haltAt_kept
    | (with_reducible apply Kept.foldl; intro b hb x)
    | intro x
    | with_reducible apply_assumption -symm -exfalso
    | split

theorem execStreamRequestComplete_kept (hall : HallId) (ctx : Reading Byte) (s : State) :
    Keeps true s (execStreamRequestComplete hall ctx s) := by
  unfold execStreamRequestComplete
  refine Keeps.on fun z m h => ?_
  repeat' first
    | with_reducible assumption
    | with_reducible apply Module.copyPart_kept
    | with_reducible apply Module.request_kept
    | split

theorem execStreamSlack_kept (hall : HallId) (ctx : Byte) (s : State) :
    Keeps true s (execStreamSlack hall ctx s) := by
  unfold execStreamSlack
  refine Keeps.on fun z m h => ?_
  repeat' first
    | with_reducible assumption
    | (extract_lets +onlyGivenNames m; refine Kept.let_in (r := true) (z := z) (m := m) ?_ fun hm => ?_; subst m; rotate_left; clear_value m)
    | with_reducible apply Module.setCtxs_kept
    | with_reducible apply Module.count_kept
    | with_reducible apply Module.post_kept
    | split

theorem Module.resume_kept {r : Bool} {z m : Module} (h : Kept r z m) (h_35 : Nat) (k : FKey) :
    Kept r z (Module.resume m h_35 k) := by
  unfold Module.resume
  repeat' first
    | with_reducible assumption
    | with_reducible apply Module.setCtxs_kept
    | with_reducible apply Module.closeReady_kept
    | with_reducible apply Module.setEntry_kept
    | with_reducible apply Module.count_kept

theorem execPageResume_kept (ptn : PtnId) (ra : Nat) (s : State) :
    Keeps true s (execPageResume ptn ra s) := by
  unfold execPageResume
  refine Keeps.on fun z m h => ?_
  repeat' first
    | with_reducible assumption
    | (extract_lets +onlyGivenNames m
       first
       | (refine Kept.let_in (r := true) (z := z) (m := m) ?_ fun hm => ?_; subst m; rotate_left; clear_value m)
       | clear_value m)
    | with_reducible apply Module.setPtn_kept
    | with_reducible apply Module.retryAccesses_kept
    | with_reducible apply Module.resume_kept
    | (with_reducible apply Kept.foldl; intro b hb x)
    | split

theorem Module.sresume_kept {r : Bool} {z m : Module} (h : Kept r z m) (hall : Nat) (mask : Nat) :
    Kept r z (Module.sresume m hall mask) := by
  unfold Module.sresume
  repeat' first
    | with_reducible assumption
    | (extract_lets +onlyGivenNames m
       first
       | (refine Kept.let_in (r := r) (z := z) (m := m) ?_ fun hm => ?_; subst m; rotate_left; clear_value m)
       | clear_value m)
    | with_reducible apply Module.resume_kept
    | with_reducible apply Module.haltAt_kept
    | (with_reducible apply Kept.foldl; intro b hb x)
    | split

theorem execHalSresume_kept (hall : HallId) (mask : Byte) (s : State) :
    Keeps true s (execHalSresume hall mask s) := by
  unfold execHalSresume
  refine Keeps.on fun z m h => ?_
  repeat' first
    | with_reducible assumption
    | with_reducible apply Module.sresume_kept

theorem execHaltLong_kept (hall : HallId) (ctx : Byte) (s : State) :
    Keeps true s (execHaltLong hall ctx s) := by
  unfold execHaltLong
  refine Keeps.on fun z m h => ?_
  repeat' first
    | with_reducible assumption
    | (extract_lets +onlyGivenNames m
       first
       | (refine Kept.let_in (r := true) (z := z) (m := m) ?_ fun hm => ?_; subst m; rotate_left; clear_value m)
       | clear_value m)
    | with_reducible apply Module.setCtxs_kept
    | with_reducible apply Module.until_kept
    | with_reducible apply Module.post_kept
    | split

theorem execFuse_kept (k : FKey) (s : State) :
    Keeps true s (execFuse k s) := by
  unfold execFuse
  refine Keeps.on fun z m h => ?_
  split
  · split
    · exact Module.storeRun_kept h ..
    · exact h
  · exact h

theorem execFusedGroupDispatch_kept (k : FKey) (s : State) :
    Keeps true s (execFusedGroupDispatch k s) := by
  unfold execFusedGroupDispatch
  refine Keeps.on fun z m h => ?_
  repeat' first
    | with_reducible assumption
    | (extract_lets +onlyGivenNames m
       first
       | (refine Kept.let_in (r := true) (z := z) (m := m) ?_ fun hm => ?_; subst m; rotate_left; clear_value m)
       | (refine Kept.let_snd (r := true) (z := z) (p := m) ?_ fun hm => ?_; subst m; rotate_left; clear_value m)
       | (refine Kept.let_fst (r := true) (z := z) (p := m) ?_ fun hm => ?_; subst m; rotate_left; clear_value m)
       | clear_value m)
    | with_reducible apply Module.unhold_kept
    | with_reducible apply Module.teamTurns_kept
    | with_reducible apply Module.count_kept
    | with_reducible apply Module.setBench_kept
    | with_reducible apply Module.begin_kept
    | with_reducible apply Module.asks_kept
    | with_reducible apply Module.offer_kept
    | (with_reducible apply Kept.foldl_fst; intro b hb x)
    | split
    | ((conv => (pattern (Module.mk ..); skip)); with_reducible apply Kept.upd)
    | exact id
    | exact Nat.le_refl _
    | exact List.prefix_refl _
    | exact fun _ => Nat.le_refl _
    | with_reducible exact rfl

theorem execChainHoldExpire_kept (k : FKey) (s : State) :
    Keeps true s (execChainHoldExpire k s) := by
  unfold execChainHoldExpire
  refine Keeps.on fun z m h => ?_
  repeat' first
    | with_reducible assumption
    | with_reducible apply Module.until_kept
    | with_reducible apply Module.setBench_kept
    | with_reducible apply Module.setEntry_kept
    | (with_reducible apply Kept.foldl; intro b hb x)
    | split

theorem Module.predict_kept {r : Bool} {z m : Module} (h : Kept r z m) (g : GroupSt) (tile : Nat) :
    Kept r z (Module.predict m g tile) := by
  unfold Module.predict
  repeat' first
    | with_reducible assumption
    | (extract_lets +onlyGivenNames m; clear_value m)
    | with_reducible apply Module.count_kept
    | split

theorem execPipeTileArrive_kept (k : FKey) (tile : Nat) (s : State) :
    Keeps true s (execPipeTileArrive k tile s) := by
  unfold execPipeTileArrive
  refine Keeps.on fun z m h => ?_
  repeat' first
    | with_reducible assumption
    | with_reducible apply Module.predict_kept
    | split
    | ((conv => (pattern (Module.mk ..); skip)); with_reducible apply Kept.upd)
    | exact id
    | exact Nat.le_refl _
    | exact List.prefix_refl _
    | exact fun _ => Nat.le_refl _
    | with_reducible exact rfl

theorem execFuseCreditReturn_kept (k : FKey) (s : State) :
    Keeps true s (execFuseCreditReturn k s) := by
  unfold execFuseCreditReturn
  refine Keeps.on fun z m h => ?_
  repeat' first
    | with_reducible assumption
    | ((conv => (pattern (Module.mk ..); skip)); with_reducible apply Kept.upd)
    | exact id
    | exact Nat.le_refl _
    | exact List.prefix_refl _
    | exact fun _ => Nat.le_refl _
    | with_reducible exact rfl

theorem execBarrier_kept (k : FKey) (s : State) :
    Keeps true s (execBarrier k s) := by
  unfold execBarrier
  refine Keeps.on fun z m h => ?_
  repeat' first
    | with_reducible assumption
    | with_reducible apply Module.promote_kept
    | with_reducible apply Module.setEntry_kept
    | with_reducible apply Module.setHall_kept
    | split

theorem execBarrierRelease_kept (k : FKey) (s : State) :
    Keeps true s (execBarrierRelease k s) := by
  unfold execBarrierRelease
  refine Keeps.on fun z m h => ?_
  repeat' first
    | with_reducible assumption
    | (extract_lets +onlyGivenNames m
       first
       | (refine Kept.let_in (r := true) (z := z) (m := m) ?_ fun hm => ?_; subst m; rotate_left; clear_value m)
       | clear_value m)
    | with_reducible apply Module.count_kept
    | with_reducible apply Module.setHall_kept
    | with_reducible apply Module.setEntry_kept
    | with_reducible apply Module.endFiring_kept
    | split

theorem Module.refuseTo_kept {r : Bool} {z m : Module} (h : Kept r z m) (o : Origin) (dup : Nat := 0) :
    Kept r z (Module.refuseTo m o dup) := by
  unfold Module.refuseTo
  repeat' first
    | with_reducible assumption
    | with_reducible apply Module.enqueue_kept
    | with_reducible apply Module.sendTo_kept
    | split

theorem Module.refuse_kept {r : Bool} {z m : Module} (h : Kept r z m) (o : Origin) (off : Nat) :
    Kept r z (Module.refuse m o off) := by
  unfold Module.refuse
  repeat' first
    | with_reducible assumption
    | with_reducible apply Module.post_kept
    | with_reducible apply Module.count_kept
    | with_reducible apply Module.refuseTo_kept

theorem Module.duplicate_kept {r : Bool} {z m : Module} (h : Kept r z m) (p : Nat) (e : TallyEntry) (o : Origin) :
    Kept r z (Module.duplicate m p e o) := by
  unfold Module.duplicate
  repeat' first
    | with_reducible assumption
    | (extract_lets +onlyGivenNames m; clear_value m)
    | with_reducible apply Module.post_kept
    | with_reducible apply Module.count_kept
    | with_reducible apply Module.refuseTo_kept
    | with_reducible apply Module.answerDup_kept
    | with_reducible apply Module.setTally_kept
    | split

theorem Module.evictTally_kept {r : Bool} {z m : Module} (h : Kept r z m) (p : Nat) :
    Kept r z (Module.evictTally m p) := by
  unfold Module.evictTally
  repeat' first
    | with_reducible assumption
    | (extract_lets +onlyGivenNames m
       first
       | (refine Kept.let_in (r := r) (z := z) (m := m) ?_ fun hm => ?_; subst m; rotate_left; clear_value m)
       | clear_value m)
    | with_reducible apply Module.setPtn_kept
    | with_reducible apply Module.count_kept
    | with_reducible apply Module.post_kept
    | split

theorem Module.enter_kept {r : Bool} {z m : Module} (h : Kept r z m) (o : Origin) (arrival : Nat) (elapsed : Nat)
    (data : List Byte) (run : Module → Capsule → List Byte → Module) (hrun : ∀ x y s, Kept r z x → Kept r z (run x y s)) :
    Kept r z (Module.enter m o arrival elapsed data run) := by
  unfold Module.enter
  repeat' first
    | (extract_lets +onlyGivenNames m
       first
       | (refine Kept.let_in (r := r) (z := z) (m := m) ?_ fun hm => ?_; subst m; rotate_left; clear_value m)
       | clear_value m)
    | with_reducible apply Module.duplicate_kept
    | with_reducible apply Module.refuse_kept
    | with_reducible apply Module.setPtn_kept
    | with_reducible apply Module.evictTally_kept
    | with_reducible apply Module.sendTo_kept
    | with_reducible apply Module.setQp_kept
    | with_reducible apply_assumption -symm -exfalso
    | split

theorem Module.forward_kept {r : Bool} {z m : Module} (h : Kept r z m) (o : Origin) (d : Delivery) (k : Nat)
    (send : Module → Module) (hsend : ∀ x, Kept r z x → Kept r z (send x)) :
    Kept r z (Module.forward m o d k send) := by
  unfold Module.forward
  repeat' first
    | (extract_lets +onlyGivenNames m
       first
       | (refine Kept.let_in (r := r) (z := z) (m := m) ?_ fun hm => ?_; subst m; rotate_left; clear_value m)
       | clear_value m)
    | with_reducible apply Module.refuse_kept
    | with_reducible apply Module.setQp_kept
    | with_reducible apply Module.setCtr_kept
    | with_reducible apply_assumption -symm -exfalso
    | split

theorem Module.capsule_kept {r : Bool} {z m : Module} (h : Kept r z m) (opc : Nat) (qp : Nat) (c : Capsule)
    (data : List Byte) (run : Module → Capsule → List Byte → Module) (hrun : ∀ x y s, Kept r z x → Kept r z (run x y s)) :
    Kept r z (Module.capsule m opc qp c data run) := by
  unfold Module.capsule
  repeat' first
    | with_reducible assumption
    | (extract_lets +onlyGivenNames m
       first
       | (refine Kept.let_in (r := r) (z := z) (m := m) ?_ fun hm => ?_; subst m; rotate_left; clear_value m)
       | clear_value m)
    | with_reducible apply Module.count_kept
    | with_reducible apply Module.refuse_kept
    | with_reducible apply Module.enter_kept
    | with_reducible apply Module.forward_kept
    | with_reducible apply Module.sendTo_kept
    | intro x
    | split

theorem Module.fetchInputs_kept {r : Bool} {z m : Module} (h : Kept r z m) (qp : Nat) (c : Capsule) :
    Kept r z (Module.fetchInputs m qp c) := by
  unfold Module.fetchInputs
  repeat' first
    | with_reducible assumption
    | with_reducible apply Module.send_kept
    | (with_reducible apply Kept.foldl; intro b hb x)

theorem Module.joinWindow_kept {r : Bool} {z m : Module} (h : Kept r z m) (p : Nat) (reqid : Word) :
    Kept r z (Module.joinWindow m p reqid) := by
  unfold Module.joinWindow
  repeat' first
    | with_reducible assumption
    | with_reducible apply Module.setPtn_kept

theorem Module.stage_kept {r : Bool} {z m : Module} (h : Kept r z m) (bs : List (List Byte)) :
    Kept r z (Module.stage m bs).2 := by
  unfold Module.stage
  repeat' first
    | with_reducible assumption
    | with_reducible apply Module.store_kept
    | (with_reducible apply Kept.foldl_snd; intro b hb x)
    | ((conv => (pattern (Module.mk ..); skip)); with_reducible apply Kept.upd)
    | exact id
    | exact Nat.le_refl _
    | exact List.prefix_refl _
    | exact fun _ => Nat.le_refl _
    | with_reducible exact rfl

theorem Module.runStart_kept {r : Bool} {z m : Module} (h : Kept r z m) (c : Capsule) (data : List Byte) :
    Kept r z (Module.runStart m c data) := by
  unfold Module.runStart
  repeat' first
    | with_reducible assumption
    | (extract_lets +onlyGivenNames m
       first
       | (refine Kept.let_in (r := r) (z := z) (m := m) ?_ fun hm => ?_; subst m; rotate_left; clear_value m)
       | (refine Kept.let_snd (r := r) (z := z) (p := m) ?_ fun hm => ?_; subst m; rotate_left; clear_value m)
       | clear_value m)
    | with_reducible apply Module.setCtr_kept
    | with_reducible apply Module.setPtn_kept
    | with_reducible apply Module.fetchInputs_kept
    | with_reducible apply Module.stage_kept
    | with_reducible apply Module.joinWindow_kept
    | split

theorem execRun_kept (qp : Nat) (c : Capsule) (s : State) :
    Keeps true s (execRun qp c s) := by
  unfold execRun
  refine Keeps.on fun z m h => ?_
  repeat' first
    | with_reducible assumption
    | (extract_lets +onlyGivenNames m; clear_value m)
    | with_reducible apply Module.capsule_kept
    | with_reducible apply Module.runStart_kept
    | with_reducible apply Module.forward_kept
    | with_reducible apply Module.count_kept
    | with_reducible apply Module.fetchInputs_kept
    | with_reducible apply Module.setPtn_kept
    | split
    | intro x

theorem Module.inputsFetched_kept {r : Bool} {z m : Module} (h : Kept r z m) (p : Nat) (reqid : Word)
    (inputs : List (List Byte)) :
    Kept r z (Module.inputsFetched m p reqid inputs) := by
  unfold Module.inputsFetched
  repeat' first
    | with_reducible assumption
    | with_reducible apply Module.stage_kept
    | with_reducible apply Module.joinWindow_kept
    | with_reducible apply Module.setPtn_kept
    | with_reducible apply Module.sendTo_kept
    | split

theorem Module.placeStatic_kept {r : Bool} {z m : Module} (h : Kept r z m) (i : Inst) (g : Graph) (n : Node) :
    Kept r z (Module.placeStatic m i g n) := by
  unfold Module.placeStatic
  repeat' first
    | with_reducible assumption
    | (extract_lets +onlyGivenNames m
       first
       | (refine Kept.let_in (r := r) (z := z) (m := m) ?_ fun hm => ?_; subst m; rotate_left; clear_value m)
       | clear_value m)
    | with_reducible apply Module.setHall_kept
    | with_reducible apply Module.makeReady_kept
    | with_reducible apply Module.count_kept
    | split

theorem Module.admitReq_kept {r : Bool} {z m : Module} (h : Kept r z m) (r_35 : Request) (g : Graph)
    (bs : List (Nat × Nat)) (arena : Nat) :
    Kept r z (Module.admitReq m r_35 g bs arena) := by
  unfold Module.admitReq
  repeat' first
    | with_reducible assumption
    | with_reducible apply Module.setPtn_kept
    | with_reducible apply Module.placeStatic_kept
    | with_reducible apply Module.checkInst_kept
    | (with_reducible apply Kept.foldl; intro b hb x)
    | ((conv => (pattern (Module.mk ..); skip)); with_reducible apply Kept.upd)
    | exact id
    | exact Nat.le_refl _
    | exact List.prefix_refl _
    | exact fun _ => Nat.le_refl _
    | with_reducible exact rfl

theorem Module.tryAdmit_kept {r : Bool} {z m : Module} (h : Kept r z m) (r_35 : Request) :
    KeptSome r z (Module.tryAdmit m r_35) := by
  unfold Module.tryAdmit
  repeat' first
    | (extract_lets +onlyGivenNames m
       first
       | (refine Kept.let_in (r := r) (z := z) (m := m) ?_ fun hm => ?_; subst m; rotate_left; clear_value m)
       | (refine Kept.fn_in (r := r) (z := z) (f := m) ?_ fun hm => ?_; subst m; rotate_left; clear_value m)
       | clear_value m)
    | with_reducible apply KeptSome.some
    | with_reducible apply KeptSome.none
    | with_reducible apply KeptSome.map
    | with_reducible apply Module.dropInputs_kept
    | with_reducible apply Module.setPtn_kept
    | with_reducible apply Module.post_kept
    | with_reducible apply Module.roundDone_kept
    | with_reducible apply Module.recordDone_kept
    | with_reducible apply Module.admitReq_kept
    | intro x
    | with_reducible apply_assumption -symm -exfalso
    | split

theorem Module.admitWaiting_kept {r : Bool} {z m : Module} (h : Kept r z m) (p : Nat) :
    Kept r z (Module.admitWaiting m p) := by
  unfold Module.admitWaiting
  repeat' first
    | with_reducible assumption
    | with_reducible apply Module.checkDrain_kept
    | with_reducible apply Module.tryAdmit_kept
    | (with_reducible apply Kept.foldl_fst; intro b hb x)
    | split
    | with_reducible apply KeptSome.getD
    | refine KeptSome.out (by with_reducible assumption) ?_

theorem Module.openWindow_kept {r : Bool} {z m : Module} (h : Kept r z m) (p : Nat) :
    Kept r z (Module.openWindow m p) := by
  unfold Module.openWindow
  repeat' first
    | with_reducible assumption
    | (extract_lets +onlyGivenNames m
       first
       | (refine Kept.let_in (r := r) (z := z) (m := m) ?_ fun hm => ?_; subst m; rotate_left; clear_value m)
       | clear_value m)
    | with_reducible apply Module.setPtn_kept
    | with_reducible apply Module.count_kept
    | with_reducible apply Module.post_kept
    | split

theorem Module.closeWindow_kept {r : Bool} {z m : Module} (h : Kept r z m) (p : Nat) :
    Kept r z (Module.closeWindow m p) := by
  unfold Module.closeWindow
  repeat' first
    | with_reducible assumption
    | with_reducible apply Module.setPtn_kept
    | with_reducible apply Module.admitWaiting_kept

theorem execRoundWindowClose_kept (ptn : PtnId) (s : State) :
    Keeps true s (execRoundWindowClose ptn s) := by
  unfold execRoundWindowClose
  refine Keeps.on fun z m h => ?_
  repeat' first
    | with_reducible assumption
    | (extract_lets +onlyGivenNames m
       first
       | (refine Kept.let_in (r := true) (z := z) (m := m) ?_ fun hm => ?_; subst m; rotate_left; clear_value m)
       | clear_value m)
    | with_reducible apply Module.until_kept
    | with_reducible apply Module.closeWindow_kept
    | with_reducible apply Module.setPtn_kept
    | with_reducible apply Module.post_kept
    | with_reducible apply Module.openWindow_kept
    | split

theorem Module.cancelInst_kept {r : Bool} {z m : Module} (h : Kept r z m) (i : Inst) :
    Kept r z (Module.cancelInst m i) := by
  unfold Module.cancelInst
  repeat' first
    | with_reducible assumption
    | (extract_lets +onlyGivenNames m; refine Kept.let_in (r := r) (z := z) (m := m) ?_ fun hm => ?_; subst m; rotate_left; clear_value m)
    | with_reducible apply Module.promoteAll_kept
    | with_reducible apply Module.discardTokens_kept
    | with_reducible apply Module.setInst_kept
    | with_reducible apply Module.setEntry_kept
    | with_reducible apply Module.endFiring_kept
    | with_reducible apply Module.checkInst_kept
    | (with_reducible apply Kept.foldl; intro b hb x)
    | split
    | ((conv => (pattern (Module.mk ..); skip)); with_reducible apply Kept.upd)
    | exact id
    | exact Nat.le_refl _
    | exact List.prefix_refl _
    | exact fun _ => Nat.le_refl _
    | with_reducible exact rfl
    | exact List.length_map ..

theorem Module.cancel_kept {r : Bool} {z m : Module} (h : Kept r z m) (p : Nat) (id : Word) :
    Kept r z (Module.cancel m p id) := by
  unfold Module.cancel
  repeat' first
    | with_reducible assumption
    | with_reducible apply Module.refuseTo_kept
    | with_reducible apply Module.setPtn_kept
    | with_reducible apply Module.cancelInst_kept
    | with_reducible apply Module.dropInputs_kept
    | with_reducible apply Module.recordDone_kept
    | with_reducible apply Module.checkDrain_kept
    | with_reducible apply Module.roundDone_kept
    | split

theorem Module.answerDirect_kept {r : Bool} {z m : Module} (h : Kept r z m) (o : Origin) (status : Nat) (value : Nat) :
    Kept r z (Module.answerDirect m o status value) := by
  unfold Module.answerDirect
  repeat' first
    | with_reducible assumption
    | with_reducible apply Module.deliver_kept
    | with_reducible apply Module.sendTo_kept
    | split

theorem Module.toAll_kept {r : Bool} {z m : Module} (h : Kept r z m) (opc : Nat) (qp : Nat) (c : Capsule)
    (act : Module → Module × Nat) (hact : ∀ x, Kept r z x → Kept r z (act x).1) :
    Kept r z (Module.toAll m opc qp c act) := by
  unfold Module.toAll
  repeat' first
    | (extract_lets +onlyGivenNames m
       first
       | (refine Kept.let_in (r := r) (z := z) (m := m) ?_ fun hm => ?_; subst m; rotate_left; clear_value m)
       | (refine Kept.let_fst (r := r) (z := z) (p := m) ?_ fun hm => ?_; subst m; rotate_left; clear_value m)
       | clear_value m)
    | with_reducible apply Module.count_kept
    | with_reducible apply Module.refuse_kept
    | with_reducible apply Module.answerDirect_kept
    | with_reducible apply Module.setCtr_kept
    | with_reducible apply Module.sendAll_kept
    | with_reducible apply_assumption -symm -exfalso
    | split

theorem execCancel_kept (qp : Nat) (c : Capsule) (s : State) :
    Keeps true s (execCancel qp c s) := by
  unfold execCancel
  refine Keeps.on fun z m h => ?_
  repeat' first
    | with_reducible assumption
    | with_reducible apply Module.toAll_kept
    | with_reducible apply Module.cancel_kept
    | intro x

theorem execQuery_kept (qp : Nat) (c : Capsule) (s : State) :
    Keeps true s (execQuery qp c s) := by
  unfold execQuery
  refine Keeps.on fun z m h => ?_
  repeat' first
    | with_reducible assumption
    | with_reducible apply Module.toAll_kept
    | intro x

theorem execTallyEntryExpire_kept (ptn : PtnId) (reqid : Word) (s : State) :
    Keeps true s (execTallyEntryExpire ptn reqid s) := by
  unfold execTallyEntryExpire
  refine Keeps.on fun z m h => ?_
  repeat' first
    | with_reducible assumption
    | with_reducible apply Module.setPtn_kept
    | with_reducible apply Module.until_kept
    | split

theorem Module.releaseSlot_kept {r : Bool} {z m : Module} (h : Kept r z m) (qp : Nat) (slot : Nat) :
    Kept r z (Module.releaseSlot m qp slot) := by
  unfold Module.releaseSlot
  repeat' first
    | with_reducible assumption
    | with_reducible apply Module.setQp_kept
    | split
    | ((conv => (pattern (Module.mk ..); skip)); with_reducible apply Kept.upd)
    | exact id
    | exact Nat.le_refl _
    | exact List.prefix_refl _
    | exact fun _ => Nat.le_refl _
    | with_reducible exact rfl
    | exact List.length_map ..

theorem execMailboxRetentionExpire_kept (qp : Nat) (slot : Nat) (s : State) :
    Keeps true s (execMailboxRetentionExpire qp slot s) := by
  unfold execMailboxRetentionExpire
  refine Keeps.on fun z m h => ?_
  repeat' first
    | with_reducible assumption
    | with_reducible apply Module.releaseSlot_kept
    | with_reducible apply Module.until_kept
    | split

theorem execPushRetentionExpire_kept (ptn : PtnId) (reqid : Word) (s : State) :
    Keeps true s (execPushRetentionExpire ptn reqid s) := by
  unfold execPushRetentionExpire
  refine Keeps.on fun z m h => ?_
  repeat' first
    | with_reducible assumption
    | with_reducible apply Module.setTally_kept
    | with_reducible apply Module.until_kept
    | split

theorem Module.freeRegion_kept {r : Bool} {z m : Module} (h : Kept r z m) (g : RegionSt) :
    Kept r z (Module.freeRegion m g) := by
  unfold Module.freeRegion
  repeat' first
    | with_reducible assumption
    | with_reducible apply Module.releaseKeys_kept

theorem Module.setResid_kept {r : Bool} {z m : Module} (h : Kept r z m) (p : Nat) (rgn : Nat) (k : Nat) (r_82 : Residency) :
    Kept r z (Module.setResid m p rgn k r_82) := by
  unfold Module.setResid
  repeat' first
    | with_reducible assumption
    | with_reducible apply Module.setPtn_kept

theorem Module.allocPage_kept {r : Bool} {z m : Module} (h : Kept r z m) (g : RegionSt) (taken : List Nat) (s : Nat) :
    Kept r z (Module.allocPage m g taken s).2 := by
  unfold Module.allocPage
  repeat' first
    | with_reducible assumption
    | (extract_lets +onlyGivenNames m; clear_value m)
    | with_reducible apply Module.pick_kept
    | split

theorem Module.allocCopy_kept {r : Bool} {z m : Module} (h : Kept r z m) (g : RegionSt) (t : PlacementRec)
    (taken : List Nat) :
    Kept r z (Module.allocCopy m g t taken).2 := by
  unfold Module.allocCopy
  repeat' first
    | with_reducible assumption
    | (extract_lets +onlyGivenNames m; refine Kept.let_snd (r := r) (z := z) (p := m) ?_ fun hm => ?_; subst m; rotate_left; clear_value m)
    | with_reducible apply Module.allocPage_kept
    | (with_reducible apply Kept.foldl_snd; intro b hb x)
    | split

theorem Module.allocTable_kept {r : Bool} {z m : Module} (h : Kept r z m) (g : RegionSt) (t : PlacementRec)
    (taken : List Nat) :
    Kept r z (Module.allocTable m g t taken).2 := by
  unfold Module.allocTable
  extract_lets copy a
  have hc : ∀ held x l, Kept r z x → Kept r z (copy held x l).2 := by
    intro held x l hx
    subst copy
    dsimp only
    split
    · exact Module.allocCopy_kept hx ..
    · exact hx
  have ha : Kept r z a.2 := hc _ _ _ h
  split
  · exact ha
  · exact hc _ _ _ ha

theorem Module.freePages_kept {r : Bool} {z m : Module} (h : Kept r z m) (p : Nat) (g : RegionSt) (ks : List Nat) :
    Kept r z (Module.freePages m p g ks) := by
  unfold Module.freePages
  repeat' first
    | with_reducible assumption
    | with_reducible apply Module.setResid_kept
    | with_reducible apply Module.releaseKeys_kept
    | (with_reducible apply Kept.foldl; intro b hb x)

theorem Module.setTable_kept {r : Bool} {z m : Module} (h : Kept r z m) (t : Nat) (f : Table → Table) :
    Kept r z (Module.setTable m t f) := by
  unfold Module.setTable
  repeat' first
    | intro x
    | with_reducible apply_assumption -symm -exfalso
    | ((conv => (pattern (Module.mk ..); skip)); with_reducible apply Kept.upd)
    | exact Nat.le_refl _
    | exact List.prefix_refl _

theorem Module.setEdition_kept {r : Bool} {z m : Module} (h : Kept r z m) (t : Nat) (e : Nat) (f : Edition → Edition) :
    Kept r z (Module.setEdition m t e f) := by
  unfold Module.setEdition
  repeat' first
    | with_reducible assumption
    | with_reducible apply Module.setTable_kept

theorem Module.decideBegin_kept {r : Bool} {z m : Module} (h : Kept r z m) (reqid : Word) (ok : Bool) :
    Kept r z (Module.decideBegin m reqid ok) := by
  unfold Module.decideBegin
  repeat' first
    | with_reducible assumption
    | (extract_lets +onlyGivenNames m; refine Kept.let_in (r := r) (z := z) (m := m) ?_ fun hm => ?_; subst m; rotate_left; clear_value m)
    | with_reducible apply Module.setTable_kept
    | with_reducible apply Module.setResid_kept
    | with_reducible apply Module.freePages_kept
    | (with_reducible apply Kept.foldl; intro b hb x)
    | split

theorem Module.decideDraft_kept {r : Bool} {z m : Module} (h : Kept r z m) (p : Nat) (ok : Bool) :
    Kept r z (Module.decideDraft m p ok) := by
  unfold Module.decideDraft
  repeat' first
    | with_reducible assumption
    | (extract_lets +onlyGivenNames m
       first
       | (refine Kept.let_in (r := r) (z := z) (m := m) ?_ fun hm => ?_; subst m; rotate_left; clear_value m)
       | clear_value m)
    | with_reducible apply Module.freeRegion_kept
    | with_reducible apply Module.setPtn_kept
    | (with_reducible apply Kept.foldl; intro b hb x)
    | split

theorem Module.noteEdition_kept {r : Bool} {z m : Module} (h : Kept r z m) (c : Capsule) :
    Kept r z (Module.noteEdition m c) := by
  unfold Module.noteEdition
  repeat' first
    | with_reducible assumption
    | with_reducible apply Module.setTable_kept
    | with_reducible apply Module.setEdition_kept
    | split

theorem Module.undefineDone_kept {r : Bool} {z m : Module} (h : Kept r z m) (p : Nat) (graph : Nat) (ok : Bool) :
    Kept r z (Module.undefineDone m p graph ok) := by
  unfold Module.undefineDone
  repeat' first
    | with_reducible assumption
    | with_reducible apply Module.setPtn_kept

theorem Module.undefine_kept {r : Bool} {z m : Module} (h : Kept r z m) (p : Nat) (graph : Nat) :
    Kept r z (Module.undefine m p graph) := by
  unfold Module.undefine
  repeat' first
    | with_reducible assumption
    | with_reducible apply Module.setPtn_kept

theorem Module.unload_kept {r : Bool} {z m : Module} (h : Kept r z m) (p : Nat) (handle : Nat) :
    Kept r z (Module.unload m p handle) := by
  unfold Module.unload
  repeat' first
    | with_reducible assumption
    | with_reducible apply Module.setPtn_kept
    | split

theorem Module.decide_kept {r : Bool} {z m : Module} (h : Kept r z m) (p : Nat) (c : Capsule) (status : Nat) :
    Kept r z (Module.decide_ m p c status) := by
  unfold Module.decide_
  repeat' first
    | with_reducible assumption
    | (extract_lets +onlyGivenNames m
       first
       | (refine Kept.let_in (r := r) (z := z) (m := m) ?_ fun hm => ?_; subst m; rotate_left; clear_value m)
       | clear_value m)
    | with_reducible apply Module.sendAll_kept
    | with_reducible apply Module.decideDraft_kept
    | with_reducible apply Module.decideBegin_kept
    | with_reducible apply Module.noteEdition_kept
    | with_reducible apply Module.unload_kept
    | with_reducible apply Module.undefine_kept
    | with_reducible apply Module.undefineDone_kept
    | split

theorem Module.settleCmd_kept {r : Bool} {z m : Module} (h : Kept r z m) (p : Nat) (reqid : Word) :
    Kept r z (Module.settleCmd m p reqid) := by
  unfold Module.settleCmd
  repeat' first
    | with_reducible assumption
    | with_reducible apply Module.setPtn_kept
    | with_reducible apply Module.complete_kept
    | with_reducible apply Module.decide_kept
    | split

theorem Module.setWait_kept {r : Bool} {z m : Module} (h : Kept r z m) (p : Nat) (reqid : Word)
    (f : PendingCmd → PendingCmd) :
    Kept r z (Module.setWait m p reqid f) := by
  unfold Module.setWait
  repeat' first
    | with_reducible assumption
    | with_reducible apply Module.setPtn_kept

theorem Module.sendParts_kept {r : Bool} {z m : Module} (h : Kept r z m) (c : Capsule) (data : List Byte)
    (dsts : List Nat) :
    Kept r z (Module.sendParts m c data dsts) := by
  unfold Module.sendParts
  repeat' first
    | with_reducible assumption
    | (extract_lets +onlyGivenNames m; clear_value m)
    | with_reducible apply Module.sendAll_kept
    | split

theorem Module.spread_kept {r : Bool} {z m : Module} (h : Kept r z m) (c : Capsule) (data : List Byte) (mine : Bool)
    (status : Nat) (value : Nat) :
    Kept r z (Module.spread m c data mine status value) := by
  unfold Module.spread
  repeat' first
    | with_reducible assumption
    | with_reducible apply Module.settleCmd_kept
    | with_reducible apply Module.setPtn_kept
    | with_reducible apply Module.sendParts_kept

theorem Module.partDone_kept {r : Bool} {z m : Module} (h : Kept r z m) (src : Nat) (c : Capsule) (status : Nat) :
    Kept r z (Module.partDone m src c status) := by
  unfold Module.partDone
  repeat' first
    | with_reducible assumption
    | with_reducible apply Module.settleCmd_kept
    | with_reducible apply Module.setWait_kept

theorem Module.wardenNext_kept {r : Bool} {z m : Module} (h : Kept r z m) :
    Kept r z (Module.wardenNext m) := by
  unfold Module.wardenNext
  repeat' first
    | with_reducible assumption
    | with_reducible apply Module.toJoined_kept
    | with_reducible apply Module.setGuild_kept
    | split

theorem Module.enqueueAgr_kept {r : Bool} {z m : Module} (h : Kept r z m) (a : WardenAgr) :
    Kept r z (Module.enqueueAgr m a) := by
  unfold Module.enqueueAgr
  repeat' first
    | with_reducible assumption
    | with_reducible apply Module.wardenNext_kept
    | with_reducible apply Module.setGuild_kept

theorem Module.askWarden_kept {r : Bool} {z m : Module} (h : Kept r z m) (c : Capsule) (a : Agreement) (drainUs : Nat) :
    Kept r z (Module.askWarden m c a drainUs) := by
  unfold Module.askWarden
  repeat' first
    | with_reducible assumption
    | (extract_lets +onlyGivenNames m
       first
       | (refine Kept.let_in (r := r) (z := z) (m := m) ?_ fun hm => ?_; subst m; rotate_left; clear_value m)
       | clear_value m)
    | with_reducible apply Module.setPtn_kept
    | with_reducible apply Module.enqueueAgr_kept
    | with_reducible apply Module.sendTo_kept
    | split

theorem Module.answerAgr_kept {r : Bool} {z m : Module} (h : Kept r z m) (a : WardenAgr) (status : Nat) :
    Kept r z (Module.answerAgr m a status) := by
  unfold Module.answerAgr
  repeat' first
    | with_reducible assumption
    | with_reducible apply Module.setGuild_kept
    | with_reducible apply Module.settleCmd_kept
    | with_reducible apply Module.setWait_kept
    | with_reducible apply Module.sendTo_kept
    | split

theorem Module.endAgr_kept {r : Bool} {z m : Module} (h : Kept r z m) (a : WardenAgr) (status : Nat) :
    Kept r z (Module.endAgr m a status) := by
  unfold Module.endAgr
  repeat' first
    | with_reducible assumption
    | with_reducible apply Module.wardenNext_kept
    | with_reducible apply Module.answerAgr_kept
    | with_reducible apply Module.setGuild_kept

theorem Module.buildSpace_kept {r : Bool} {z m : Module} (h : Kept r z m) (p : Nat) (table : Nat) (edition : Nat)
    (stack : Nat) (page : Nat) :
    Kept r z (Module.buildSpace m p table edition stack page) := by
  unfold Module.buildSpace
  repeat' first
    | with_reducible assumption
    | with_reducible apply Module.post_kept

theorem Module.beginPart_kept {r : Bool} {z m : Module} (h : Kept r z m) (c : Capsule) (x : Table) :
    Kept r z (Module.beginPart m c x).1 := by
  unfold Module.beginPart
  repeat' first
    | with_reducible assumption
    | (extract_lets +onlyGivenNames m
       first
       | (refine Kept.let_in (r := r) (z := z) (m := m) ?_ fun hm => ?_; subst m; rotate_left; clear_value m)
       | (refine Kept.let_snd (r := r) (z := z) (p := m) ?_ fun hm => ?_; subst m; rotate_left; clear_value m)
       | clear_value m)
    | with_reducible apply Module.decideBegin_kept
    | with_reducible apply Module.allocTable_kept
    | with_reducible apply Module.buildSpace_kept
    | with_reducible apply Module.setTable_kept
    | with_reducible apply Module.freePages_kept
    | split

theorem Module.cowPage_kept {r : Bool} {z m : Module} (h : Kept r z m) (x : Table) (g : RegionSt) (num : Nat)
    (twin : Bool) (j : Nat) (page : Nat) :
    Kept r z (Module.cowPage m x g num twin j page).2 := by
  unfold Module.cowPage
  repeat' first
    | with_reducible assumption
    | (extract_lets +onlyGivenNames m
       first
       | (refine Kept.let_in (r := r) (z := z) (m := m) ?_ fun hm => ?_; subst m; rotate_left; clear_value m)
       | (refine Kept.let_snd (r := r) (z := z) (p := m) ?_ fun hm => ?_; subst m; rotate_left; clear_value m)
       | clear_value m)
    | with_reducible apply Module.allocPage_kept
    | with_reducible apply Module.writeBackAll_kept
    | with_reducible apply Module.releaseKeys_kept
    | with_reducible apply Module.charge_kept
    | with_reducible apply Module.setQuern_kept
    | with_reducible apply Module.setResid_kept
    | with_reducible apply Module.setEdition_kept
    | split
    | ((conv => (pattern (Module.mk ..); skip)); with_reducible apply Kept.upd)
    | exact id
    | exact Nat.le_refl _
    | exact List.prefix_refl _
    | exact fun _ => Nat.le_refl _
    | with_reducible exact rfl
    | exact fun x => Memory.copy_wf x _ _ _

theorem Module.writeTable_kept {r : Bool} {z m : Module} (h : Kept r z m) (s : Nat) (key : Nat) (bs : List Byte) :
    Kept r z (Module.writeTable m s key bs) := by
  unfold Module.writeTable
  repeat' first
    | with_reducible assumption
    | with_reducible apply Module.staleLine_kept
    | with_reducible apply Module.writeBack_kept
    | with_reducible apply Module.chargeKey_kept
    | with_reducible apply Module.clearPoison_kept
    | with_reducible apply Module.store_kept
    | (with_reducible apply Kept.foldl; intro b hb x)

theorem Module.writeRow_kept {r : Bool} {z m : Module} (h : Kept r z m) (table : Nat) (num : Nat) (g : RegionSt)
    (twin : Bool) (r_129 : RowAt) (bs : List Byte) :
    Kept r z (Module.writeRow m table num g twin r_129 bs).2 := by
  unfold Module.writeRow
  repeat' first
    | with_reducible assumption
    | (extract_lets +onlyGivenNames m; refine Kept.let_snd (r := r) (z := z) (p := m) ?_ fun hm => ?_; subst m; rotate_left; clear_value m)
    | with_reducible apply Module.cowPage_kept
    | with_reducible apply Module.writeTable_kept
    | split

theorem Module.writePart_kept {r : Bool} {z m : Module} (h : Kept r z m) (c : Capsule) (x : Table) (data : List Byte) :
    Kept r z (Module.writePart m c x data).1 := by
  unfold Module.writePart
  extract_lets +onlyGivenNames t num first count b
  split
  · exact h
  split
  · exact h
  · next g _ =>
    extract_lets +onlyGivenNames row done
    have hone : ∀ (f : Module → Option (Nat × Nat) × Module) (acc : Module × Option (Nat × Nat)) (held : Bool),
        (∀ y, Kept r z y → Kept r z (f y).2) → Kept r z acc.1 → Kept r z
          (match acc.2 with
            | some _ => acc
            | none => if held then ((f acc.1).2, (f acc.1).1) else acc).1 := by
      intro f acc held hf ha
      split
      · exact ha
      · split
        · exact hf _ ha
        · exact ha
    have hrow : ∀ acc i, Kept r z acc.1 → Kept r z (row acc i).1 := fun acc i ha =>
      hone (fun y => y.writeRow t.table num g true (t.rowAt (first + i)) (slice data (i * b) b)) _ _
        (fun y hy => Module.writeRow_kept hy ..)
        (hone (fun y => y.writeRow t.table num g false (t.rowAt (first + i)) (slice data (i * b) b)) _ _
          (fun y hy => Module.writeRow_kept hy ..) ha)
    have hd : Kept r z done.1 := Kept.foldl_fst _ (fun b hb i => hrow b i hb) h
    split
    · exact Module.buildSpace_kept hd ..
    · exact hd

theorem Module.sealPart_kept {r : Bool} {z m : Module} (h : Kept r z m) (c : Capsule) (x : Table) :
    Kept r z (Module.sealPart m c x).1 := by
  unfold Module.sealPart
  repeat' first
    | with_reducible assumption
    | (extract_lets +onlyGivenNames m
       first
       | (refine Kept.let_in (r := r) (z := z) (m := m) ?_ fun hm => ?_; subst m; rotate_left; clear_value m)
       | clear_value m)
    | with_reducible apply Module.setResid_kept
    | with_reducible apply Module.checkReady_kept
    | with_reducible apply Module.checkRebuilds_kept
    | with_reducible apply Module.setEdition_kept
    | (with_reducible apply Kept.foldl; intro b hb x)
    | split

theorem Module.dropEdition_kept {r : Bool} {z m : Module} (h : Kept r z m) (x : Table) (e : Edition) :
    Kept r z (Module.dropEdition m x e).1 := by
  unfold Module.dropEdition
  repeat' first
    | with_reducible assumption
    | (extract_lets +onlyGivenNames m
       first
       | (refine Kept.let_in (r := r) (z := z) (m := m) ?_ fun hm => ?_; subst m; rotate_left; clear_value m)
       | clear_value m)
    | with_reducible apply Module.setTable_kept
    | with_reducible apply Module.freePages_kept
    | split

theorem Module.discardPart_kept {r : Bool} {z m : Module} (h : Kept r z m) (c : Capsule) (x : Table) :
    Kept r z (Module.discardPart m c x).1 := by
  unfold Module.discardPart
  repeat' first
    | with_reducible assumption
    | (extract_lets +onlyGivenNames m; clear_value m)
    | with_reducible apply Module.checkReady_kept
    | with_reducible apply Module.checkRebuilds_kept
    | with_reducible apply Module.dropEdition_kept
    | split

theorem Module.editionPart_kept {r : Bool} {z m : Module} (h : Kept r z m) (c : Capsule) (data : List Byte) :
    Kept r z (Module.editionPart m c data).1 := by
  unfold Module.editionPart
  repeat' first
    | with_reducible assumption
    | with_reducible apply Module.beginPart_kept
    | with_reducible apply Module.writePart_kept
    | with_reducible apply Module.sealPart_kept
    | with_reducible apply Module.discardPart_kept
    | split

theorem Module.editionRun_kept {r : Bool} {z m : Module} (h : Kept r z m) (c : Capsule) (data : List Byte) :
    Kept r z (Module.editionRun m c data) := by
  unfold Module.editionRun
  repeat' first
    | with_reducible assumption
    | (extract_lets +onlyGivenNames m; refine Kept.let_fst (r := r) (z := z) (p := m) ?_ fun hm => ?_; subst m; rotate_left; clear_value m)
    | with_reducible apply Module.editionPart_kept
    | with_reducible apply Module.complete_kept
    | with_reducible apply Module.spread_kept
    | split

theorem execEditionBegin_kept (qp : Nat) (c : Capsule) (s : State) :
    Keeps true s (execEditionBegin qp c s) := by
  unfold execEditionBegin
  refine Keeps.on fun z m h => ?_
  repeat' first
    | with_reducible assumption
    | with_reducible apply Module.capsule_kept
    | with_reducible apply Module.editionRun_kept
    | intro x

theorem execEditionWrite_kept (qp : Nat) (c : Capsule) (rows : List Byte) (s : State) :
    Keeps true s (execEditionWrite qp c rows s) := by
  unfold execEditionWrite
  refine Keeps.on fun z m h => ?_
  repeat' first
    | with_reducible assumption
    | with_reducible apply Module.answerDirect_kept
    | with_reducible apply Module.deny_kept
    | with_reducible apply Module.count_kept
    | with_reducible apply Module.capsule_kept
    | with_reducible apply Module.editionRun_kept
    | split
    | intro x

theorem execEditionSeal_kept (qp : Nat) (c : Capsule) (s : State) :
    Keeps true s (execEditionSeal qp c s) := by
  unfold execEditionSeal
  refine Keeps.on fun z m h => ?_
  repeat' first
    | with_reducible assumption
    | with_reducible apply Module.capsule_kept
    | with_reducible apply Module.editionRun_kept
    | intro x

theorem execEditionDiscard_kept (qp : Nat) (c : Capsule) (s : State) :
    Keeps true s (execEditionDiscard qp c s) := by
  unfold execEditionDiscard
  refine Keeps.on fun z m h => ?_
  repeat' first
    | with_reducible assumption
    | with_reducible apply Module.capsule_kept
    | with_reducible apply Module.editionRun_kept
    | intro x

theorem Module.sealFor_kept {r : Bool} {z m : Module} (h : Kept r z m) (src : Nat) (c : Capsule) :
    Kept r z (Module.sealFor m src c) := by
  unfold Module.sealFor
  repeat' first
    | with_reducible assumption
    | (extract_lets +onlyGivenNames m
       first
       | (refine Kept.let_fst (r := r) (z := z) (p := m) ?_ fun hm => ?_; subst m; rotate_left; clear_value m)
       | clear_value m)
    | with_reducible apply Module.editionPart_kept
    | with_reducible apply Module.sendTo_kept
    | with_reducible apply Module.setPtn_kept
    | split

theorem execEditionSealDone_kept (ptn : PtnId) (reqid : Word) (s : State) :
    Keeps true s (execEditionSealDone ptn reqid s) := by
  unfold execEditionSealDone
  refine Keeps.on fun z m h => ?_
  repeat' first
    | with_reducible assumption
    | (extract_lets +onlyGivenNames m; clear_value m)
    | with_reducible apply Module.settleCmd_kept
    | with_reducible apply Module.setWait_kept
    | with_reducible apply Module.sealFor_kept
    | with_reducible apply Module.setPtn_kept
    | split

theorem Module.flipRun_kept {r : Bool} {z m : Module} (h : Kept r z m) (c : Capsule) (x : List Byte) :
    Kept r z (Module.flipRun m c x) := by
  unfold Module.flipRun
  repeat' first
    | with_reducible assumption
    | (extract_lets +onlyGivenNames m; clear_value m)
    | with_reducible apply Module.complete_kept
    | with_reducible apply Module.askWarden_kept
    | split

theorem execEditionFlip_kept (qp : Nat) (c : Capsule) (s : State) :
    Keeps true s (execEditionFlip qp c s) := by
  unfold execEditionFlip
  refine Keeps.on fun z m h => ?_
  repeat' first
    | with_reducible assumption
    | with_reducible apply Module.capsule_kept
    | with_reducible apply Module.flipRun_kept
    | intro x

theorem execRetireSlow_kept (table : BitVec 32) (s : State) :
    Keeps true s (execRetireSlow table s) := by
  unfold execRetireSlow
  refine Keeps.on fun z m h => ?_
  repeat' first
    | with_reducible assumption
    | with_reducible apply Module.setEdition_kept
    | with_reducible apply Module.until_kept
    | with_reducible apply Module.post_kept
    | split

theorem Module.pageNext.go_kept {r : Bool} {z m : Module} (h : Kept r z m) (p : Nat) (a : Nat) :
    Kept r z (Module.pageNext.go p a m) := by
  induction a generalizing m <;> unfold Module.pageNext.go <;>
  repeat' first
    | with_reducible apply Module.setResid_kept
    | with_reducible apply Module.setWait_kept
    | with_reducible apply Module.settleCmd_kept
    | (with_reducible apply Kept.foldl; intro b hb x)
    | intro x
    | with_reducible apply_assumption -symm -exfalso
    | split

theorem Module.pageNext_kept {r : Bool} {z m : Module} (h : Kept r z m) (p : Nat) :
    Kept r z (Module.pageNext m p) := by
  unfold Module.pageNext
  repeat' first
    | with_reducible assumption
    | with_reducible apply Module.pageNext.go_kept

theorem Module.pageRun_kept {r : Bool} {z m : Module} (h : Kept r z m) (c : Capsule) (x : List Byte) :
    Kept r z (Module.pageRun m c x) := by
  unfold Module.pageRun
  repeat' first
    | with_reducible assumption
    | with_reducible apply Module.pageNext_kept
    | with_reducible apply Module.setPtn_kept

theorem execPageEvict_kept (qp : Nat) (c : Capsule) (s : State) :
    Keeps true s (execPageEvict qp c s) := by
  unfold execPageEvict
  refine Keeps.on fun z m h => ?_
  repeat' first
    | with_reducible assumption
    | with_reducible apply Module.capsule_kept
    | with_reducible apply Module.pageRun_kept
    | intro x

theorem execPageRestore_kept (qp : Nat) (c : Capsule) (s : State) :
    Keeps true s (execPageRestore qp c s) := by
  unfold execPageRestore
  refine Keeps.on fun z m h => ?_
  repeat' first
    | with_reducible assumption
    | with_reducible apply Module.capsule_kept
    | with_reducible apply Module.pageRun_kept
    | intro x

theorem execPageEvictDrained_kept (ptn : PtnId) (reqid : Word) (s : State) :
    Keeps true s (execPageEvictDrained ptn reqid s) := by
  unfold execPageEvictDrained
  refine Keeps.on fun z m h => ?_
  repeat' first
    | with_reducible assumption
    | with_reducible apply Module.pageNext_kept
    | with_reducible apply Module.settleCmd_kept
    | with_reducible apply Module.setWait_kept
    | split

theorem Module.definePart_kept {r : Bool} {z m : Module} (h : Kept r z m) (c : Capsule) :
    Kept r z (Module.definePart m c).1 := by
  unfold Module.definePart
  repeat' first
    | with_reducible assumption
    | (extract_lets +onlyGivenNames m; clear_value m)
    | with_reducible apply Module.setPtn_kept
    | split

theorem Module.undefinePart_kept {r : Bool} {z m : Module} (h : Kept r z m) (c : Capsule) :
    Kept r z (Module.undefinePart m c).1 := by
  unfold Module.undefinePart
  repeat' first
    | with_reducible assumption
    | (extract_lets +onlyGivenNames m; clear_value m)
    | with_reducible apply Module.setPtn_kept
    | split

theorem Module.graphPart_kept {r : Bool} {z m : Module} (h : Kept r z m) (c : Capsule) :
    Kept r z (Module.graphPart m c).1 := by
  unfold Module.graphPart
  repeat' first
    | with_reducible assumption
    | with_reducible apply Module.definePart_kept
    | with_reducible apply Module.undefinePart_kept
    | split

theorem Module.graphDefRun_kept {r : Bool} {z m : Module} (h : Kept r z m) (c : Capsule) (x : List Byte) :
    Kept r z (Module.graphDefRun m c x) := by
  unfold Module.graphDefRun
  repeat' first
    | with_reducible assumption
    | (extract_lets +onlyGivenNames m; refine Kept.let_fst (r := r) (z := z) (p := m) ?_ fun hm => ?_; subst m; rotate_left; clear_value m)
    | with_reducible apply Module.graphPart_kept
    | with_reducible apply Module.complete_kept
    | with_reducible apply Module.spread_kept
    | split

theorem execGraphDefine_kept (qp : Nat) (c : Capsule) (s : State) :
    Keeps true s (execGraphDefine qp c s) := by
  unfold execGraphDefine
  refine Keeps.on fun z m h => ?_
  repeat' first
    | with_reducible assumption
    | with_reducible apply Module.capsule_kept
    | with_reducible apply Module.graphDefRun_kept
    | intro x

theorem execGraphUndefine_kept (qp : Nat) (c : Capsule) (s : State) :
    Keeps true s (execGraphUndefine qp c s) := by
  unfold execGraphUndefine
  refine Keeps.on fun z m h => ?_
  repeat' first
    | with_reducible assumption
    | with_reducible apply Module.capsule_kept
    | with_reducible apply Module.graphDefRun_kept
    | intro x

end Sys2Proof.Machine
end

