-- ==== Sys2Proof/Laws/KeptGuild.lean ====
section
/-! SUPPORT. `Kept` for the operations of the ropewalk, drafts, agreements, membership and the fabric: one lemma each. -/
namespace Sys2Proof.Machine

theorem Module.setColl_kept {r : Bool} {z m : Module} (h : Kept r z m) (id : Nat) (f : Coll → Coll) :
    Kept r z (Module.setColl m id f) := by
  unfold Module.setColl
  repeat' first
    | with_reducible assumption
    | with_reducible apply Module.setRwk_kept

theorem Module.setChunk_kept {r : Bool} {z m : Module} (h : Kept r z m) (id : Nat) (n : Nat) (f : ChunkSt → ChunkSt) :
    Kept r z (Module.setChunk m id n f) := by
  unfold Module.setChunk
  repeat' first
    | with_reducible assumption
    | with_reducible apply Module.setColl_kept

theorem Module.saturate_kept {r : Bool} {z m : Module} (h : Kept r z m) (id : Nat) (n : Nat) (k : Nat) :
    Kept r z (Module.saturate m id n k) := by
  unfold Module.saturate
  repeat' first
    | with_reducible assumption
    | with_reducible apply Module.setChunk_kept
    | with_reducible apply Module.count_kept
    | split

theorem Module.sendChunk_kept {r : Bool} {z m : Module} (h : Kept r z m) (id : Nat) (n : Nat) (dst : Nat) (phase : Nat)
    (vals : List Int) :
    Kept r z (Module.sendChunk m id n dst phase vals) := by
  unfold Module.sendChunk
  repeat' first
    | with_reducible assumption
    | with_reducible apply Module.setChunk_kept
    | with_reducible apply Module.sendTo_kept
    | (with_reducible apply Kept.foldl; intro b hb x)
    | split

theorem Module.sendGroup_kept {r : Bool} {z m : Module} (h : Kept r z m) (g : List Nat) (x : FabMsg) :
    Kept r z (Module.sendGroup m g x) := by
  unfold Module.sendGroup
  repeat' first
    | with_reducible assumption
    | with_reducible apply Module.sendAll_kept

theorem Module.postAborted_kept {r : Bool} {z m : Module} (h : Kept r z m) (p : Nat) (grp : Nat) (seq : Nat) (cause : Nat)
    (member : Nat) :
    Kept r z (Module.postAborted m p grp seq cause member) := by
  unfold Module.postAborted
  repeat' first
    | with_reducible assumption
    | with_reducible apply Module.post_kept

theorem Module.postMismatch_kept {r : Bool} {z m : Module} (h : Kept r z m) (p : Nat) (grp : Nat) (seq : Nat) (own : Word)
    (a : EarlyAbort) :
    Kept r z (Module.postMismatch m p grp seq own a) := by
  unfold Module.postMismatch
  repeat' first
    | with_reducible assumption
    | with_reducible apply Module.setReg_kept
    | with_reducible apply Module.post_kept
    | with_reducible apply Module.count_kept

theorem Module.endLaunch_kept {r : Bool} {z m : Module} (h : Kept r z m) (key : Option FKey) (ptn : Nat) (reqid : Word)
    (st : Nat) :
    Kept r z (Module.endLaunch m key ptn reqid st) := by
  unfold Module.endLaunch
  repeat' first
    | with_reducible assumption
    | with_reducible apply Module.finish_kept
    | with_reducible apply Module.recordDone_kept
    | split

theorem Module.blurSpan_kept {r : Bool} {z m : Module} (h : Kept r z m) (others : List CollTensor) (key : Nat) (len : Nat) :
    Kept r z (Module.blurSpan m others key len) := by
  unfold Module.blurSpan
  repeat' first
    | with_reducible assumption
    | (extract_lets +onlyGivenNames m; clear_value m)
    | with_reducible apply Module.unspecified_kept
    | (with_reducible apply Kept.foldl; intro b hb x)
    | split

theorem Module.endColl_kept {r : Bool} {z m : Module} (h : Kept r z m) (id : Nat) (st : Nat) :
    Kept r z (Module.endColl m id st) := by
  unfold Module.endColl
  repeat' first
    | with_reducible assumption
    | with_reducible apply Module.checkReady_kept
    | with_reducible apply Module.endLaunch_kept
    | with_reducible apply Module.setColl_kept
    | split

theorem Module.abortColl_kept {r : Bool} {z m : Module} (h : Kept r z m) (id : Nat) (a : EarlyAbort) :
    Kept r z (Module.abortColl m id a) := by
  unfold Module.abortColl
  repeat' first
    | with_reducible assumption
    | with_reducible apply Module.count_kept
    | with_reducible apply Module.unspecified_kept
    | with_reducible apply Module.postMismatch_kept
    | with_reducible apply Module.postAborted_kept
    | with_reducible apply Module.endColl_kept
    | split

theorem Module.abortAll_kept {r : Bool} {z m : Module} (h : Kept r z m) (id : Nat) (cause : Nat) (member : Nat)
    (sigA : Word) (sigB : Word) :
    Kept r z (Module.abortAll m id cause member sigA sigB) := by
  unfold Module.abortAll
  repeat' first
    | with_reducible assumption
    | with_reducible apply Module.abortColl_kept
    | with_reducible apply Module.sendGroup_kept
    | split

theorem Module.completeChunk_kept {r : Bool} {z m : Module} (h : Kept r z m) (id : Nat) (n : Nat) (vals : List Int)
    (mask : Nat) :
    Kept r z (Module.completeChunk m id n vals mask) := by
  unfold Module.completeChunk
  repeat' first
    | with_reducible assumption
    | (extract_lets +onlyGivenNames m
       first
       | (refine Kept.let_in (r := r) (z := z) (m := m) ?_ fun hm => ?_; subst m; rotate_left; clear_value m)
       | (refine Kept.let_snd (r := r) (z := z) (p := m) ?_ fun hm => ?_; subst m; rotate_left; clear_value m)
       | clear_value m)
    | with_reducible apply Module.draw_kept
    | with_reducible apply Module.blurSpan_kept
    | with_reducible apply Module.engineWrite_kept
    | with_reducible apply Module.setColl_kept
    | with_reducible apply Module.setChunk_kept
    | with_reducible apply Module.count_kept
    | with_reducible apply Module.sendToken_kept
    | with_reducible apply Module.endColl_kept
    | (with_reducible apply Kept.foldl; intro b hb x)
    | split

theorem Module.seenMask_kept {r : Bool} {z m : Module} (h : Kept r z m) (c : Coll) :
    Kept r z (Module.seenMask m c).2 := by
  unfold Module.seenMask
  repeat' first
    | with_reducible assumption
    | with_reducible apply Module.pick_kept
    | split

theorem Module.broadcast_kept {r : Bool} {z m : Module} (h : Kept r z m) (id : Nat) (n : Nat) (from0 : Option Nat) :
    Kept r z (Module.broadcast m id n from0) := by
  unfold Module.broadcast
  repeat' first
    | with_reducible assumption
    | with_reducible apply Module.setChunk_kept
    | with_reducible apply Module.sendChunk_kept
    | with_reducible apply Module.completeChunk_kept
    | with_reducible apply Module.seenMask_kept
    | (with_reducible apply Kept.foldl; intro b hb x)
    | split

theorem Module.levelCSend_kept {r : Bool} {z m : Module} (h : Kept r z m) (id : Nat) (n : Nat) (g : Group)
    (vals : List Int) :
    Kept r z (Module.levelCSend m id n g vals) := by
  unfold Module.levelCSend
  repeat' first
    | with_reducible assumption
    | (extract_lets +onlyGivenNames m
       first
       | (refine Kept.let_in (r := r) (z := z) (m := m) ?_ fun hm => ?_; subst m; rotate_left; clear_value m)
       | clear_value m)
    | with_reducible apply Module.saturate_kept
    | with_reducible apply Module.setChunk_kept
    | with_reducible apply Module.abortAll_kept
    | with_reducible apply Module.send_kept
    | (with_reducible apply Kept.foldl; intro b hb x)
    | split

theorem Module.levelCDone_kept {r : Bool} {z m : Module} (h : Kept r z m) (id : Nat) (n : Nat) (g : Group) :
    Kept r z (Module.levelCDone m id n g) := by
  unfold Module.levelCDone
  repeat' first
    | with_reducible assumption
    | (extract_lets +onlyGivenNames m
       first
       | (refine Kept.let_in (r := r) (z := z) (m := m) ?_ fun hm => ?_; subst m; rotate_left; clear_value m)
       | (refine Kept.let_snd (r := r) (z := z) (p := m) ?_ fun hm => ?_; subst m; rotate_left; clear_value m)
       | clear_value m)
    | with_reducible apply Module.draw_kept
    | with_reducible apply Module.saturate_kept
    | with_reducible apply Module.broadcast_kept
    | with_reducible apply Module.setChunk_kept
    | with_reducible apply Module.sendChunk_kept
    | split

theorem Module.advanceChunk_kept {r : Bool} {z m : Module} (h : Kept r z m) (id : Nat) (n : Nat) :
    Kept r z (Module.advanceChunk m id n) := by
  unfold Module.advanceChunk
  repeat' first
    | with_reducible assumption
    | (extract_lets +onlyGivenNames m
       first
       | (refine Kept.let_in (r := r) (z := z) (m := m) ?_ fun hm => ?_; subst m; rotate_left; clear_value m)
       | (refine Kept.let_snd (r := r) (z := z) (p := m) ?_ fun hm => ?_; subst m; rotate_left; clear_value m)
       | clear_value m)
    | with_reducible apply Module.draw_kept
    | with_reducible apply Module.saturate_kept
    | with_reducible apply Module.sendChunk_kept
    | with_reducible apply Module.setChunk_kept
    | with_reducible apply Module.levelCDone_kept
    | with_reducible apply Module.levelCSend_kept
    | with_reducible apply Module.broadcast_kept
    | with_reducible apply Module.sendAll_kept
    | split

theorem Module.takeChunk_kept {r : Bool} {z m : Module} (h : Kept r z m) (id : Nat) (n : Nat) (src : Nat) (phase : Nat)
    (sat : Bool) (vals : List Int) :
    Kept r z (Module.takeChunk m id n src phase sat vals) := by
  unfold Module.takeChunk
  repeat' first
    | with_reducible assumption
    | (extract_lets +onlyGivenNames m
       first
       | (refine Kept.let_in (r := r) (z := z) (m := m) ?_ fun hm => ?_; subst m; rotate_left; clear_value m)
       | clear_value m)
    | with_reducible apply Module.setChunk_kept
    | with_reducible apply Module.advanceChunk_kept
    | with_reducible apply Module.levelCDone_kept
    | with_reducible apply Module.levelCSend_kept
    | with_reducible apply Module.broadcast_kept
    | split

theorem Module.takePacket_kept {r : Bool} {z m : Module} (h : Kept r z m) (id : Nat) (src : Nat) (p : List Byte) :
    Kept r z (Module.takePacket m id src p) := by
  unfold Module.takePacket
  repeat' first
    | with_reducible assumption
    | (extract_lets +onlyGivenNames m
       first
       | (refine Kept.let_in (r := r) (z := z) (m := m) ?_ fun hm => ?_; subst m; rotate_left; clear_value m)
       | clear_value m)
    | with_reducible apply Module.setColl_kept
    | with_reducible apply Module.setRwk_kept
    | with_reducible apply Module.setChunk_kept
    | with_reducible apply Module.takeChunk_kept
    | with_reducible apply Module.abortAll_kept
    | with_reducible apply Module.sendTo_kept
    | split

theorem Module.chunkPacket_kept {r : Bool} {z m : Module} (h : Kept r z m) (src : Nat) (p : Nat) (bs : List Byte) :
    Kept r z (Module.chunkPacket m src p bs) := by
  unfold Module.chunkPacket
  repeat' first
    | with_reducible assumption
    | (extract_lets +onlyGivenNames m
       first
       | (refine Kept.let_in (r := r) (z := z) (m := m) ?_ fun hm => ?_; subst m; rotate_left; clear_value m)
       | clear_value m)
    | with_reducible apply Module.deny_kept
    | with_reducible apply Module.abortAll_kept
    | with_reducible apply Module.takePacket_kept
    | with_reducible apply Module.setRwk_kept
    | split

theorem Module.replay_kept {r : Bool} {z m : Module} (h : Kept r z m) (id : Nat) :
    Kept r z (Module.replay m id) := by
  unfold Module.replay
  repeat' first
    | with_reducible assumption
    | with_reducible apply Module.setRwk_kept
    | with_reducible apply Module.chunkPacket_kept
    | (with_reducible apply Kept.foldl; intro b hb x)
    | split

theorem Module.launchAborted_kept {r : Bool} {z m : Module} (h : Kept r z m) (l : Launch) (seq : Nat) (cause : Nat)
    (member : Nat) :
    Kept r z (Module.launchAborted m l seq cause member) := by
  unfold Module.launchAborted
  repeat' first
    | with_reducible assumption
    | with_reducible apply Module.endLaunch_kept
    | with_reducible apply Module.postAborted_kept
    | with_reducible apply Module.count_kept

theorem Module.rgReserve_kept {r : Bool} {z m : Module} (h : Kept r z m) (id : Nat) :
    Kept r z (Module.rgReserve m id) := by
  unfold Module.rgReserve
  repeat' first
    | with_reducible assumption
    | with_reducible apply Module.setColl_kept
    | split

theorem Module.formColl_kept {r : Bool} {z m : Module} (h : Kept r z m) (l : Launch) (xs : List CollTensor)
    (y : CollTensor) (mt : Option CollTensor) :
    Kept r z (Module.formColl m l xs y mt) := by
  unfold Module.formColl
  repeat' first
    | with_reducible assumption
    | (extract_lets +onlyGivenNames m
       first
       | (refine Kept.let_in (r := r) (z := z) (m := m) ?_ fun hm => ?_; subst m; rotate_left; clear_value m)
       | clear_value m)
    | with_reducible apply Module.launchAborted_kept
    | with_reducible apply Module.setRwk_kept
    | with_reducible apply Module.endLaunch_kept
    | with_reducible apply Module.postMismatch_kept
    | with_reducible apply Module.count_kept
    | with_reducible apply Module.setInst_kept
    | with_reducible apply Module.rgReserve_kept
    | with_reducible apply Module.setReg_kept
    | split

theorem Module.launchColl_kept {r : Bool} {z m : Module} (h : Kept r z m) (l : Launch) :
    Kept r z (Module.launchColl m l) := by
  unfold Module.launchColl
  repeat' first
    | with_reducible assumption
    | with_reducible apply Module.endLaunch_kept
    | with_reducible apply Module.deny_kept
    | with_reducible apply Module.xfault_kept
    | with_reducible apply Module.setInst_kept
    | with_reducible apply Module.formColl_kept
    | split

theorem execAllreduce_kept (k : FKey) (s : State) :
    Keeps true s (execAllreduce k s) := by
  unfold execAllreduce
  refine Keeps.on fun z m h => ?_
  repeat' first
    | with_reducible assumption
    | (extract_lets +onlyGivenNames m
       first
       | (refine Kept.let_in (r := true) (z := z) (m := m) ?_ fun hm => ?_; subst m; rotate_left; clear_value m)
       | (refine Kept.let_fst (r := true) (z := z) (p := m) ?_ fun hm => ?_; subst m; rotate_left; clear_value m))
    | with_reducible apply Module.begin_kept
    | with_reducible apply Module.launch_kept
    | with_reducible apply Module.launchColl_kept
    | with_reducible apply Module.finish_kept
    | split

theorem execRwkReserveRetry_kept (coll : Nat) (s : State) :
    Keeps true s (execRwkReserveRetry coll s) := by
  unfold execRwkReserveRetry
  refine Keeps.on fun z m h => ?_
  repeat' first
    | with_reducible assumption
    | with_reducible apply Module.rgReserve_kept

theorem Module.startChunk_kept {r : Bool} {z m : Module} (h : Kept r z m) (id : Nat) (n : Nat) :
    Kept r z (Module.startChunk m id n) := by
  unfold Module.startChunk
  repeat' first
    | with_reducible assumption
    | with_reducible apply Module.draw_kept
    | with_reducible apply Module.engineRead_kept
    | with_reducible apply Module.setColl_kept
    | with_reducible apply Module.saturate_kept
    | (with_reducible apply Kept.foldl; intro b hb x)
    | split

theorem Module.passStart_kept {r : Bool} {z m : Module} (h : Kept r z m) (id : Nat) :
    Kept r z (Module.passStart m id) := by
  unfold Module.passStart
  repeat' first
    | with_reducible assumption
    | (extract_lets +onlyGivenNames m
       first
       | (refine Kept.let_in (r := r) (z := z) (m := m) ?_ fun hm => ?_; subst m; rotate_left; clear_value m)
       | clear_value m)
    | with_reducible apply Module.post_kept
    | with_reducible apply Module.unspecified_kept
    | with_reducible apply Module.xfault_kept
    | with_reducible apply Module.setInst_kept
    | with_reducible apply Module.endColl_kept
    | with_reducible apply Module.haltAt_kept
    | with_reducible apply Module.setPtn_kept
    | with_reducible apply Module.count_kept
    | with_reducible apply Module.setColl_kept
    | with_reducible apply Module.startChunk_kept
    | with_reducible apply Module.setRwk_kept
    | with_reducible apply Module.advanceChunk_kept
    | with_reducible apply Module.levelCDone_kept
    | with_reducible apply Module.setChunk_kept
    | with_reducible apply Module.replay_kept
    | (with_reducible apply Kept.foldl; intro b hb x)
    | split

theorem execCollPassStart_kept (coll : Nat) (s : State) :
    Keeps true s (execCollPassStart coll s) := by
  unfold execCollPassStart
  refine Keeps.on fun z m h => ?_
  repeat' first
    | with_reducible assumption
    | with_reducible apply Module.passStart_kept

theorem execChunk_kept (src : MemberId) (ptn : PtnId) (payload : List Byte) (s : State) :
    Keeps true s (execChunk src ptn payload s) := by
  unfold execChunk
  refine Keeps.on fun z m h => ?_
  repeat' first
    | with_reducible assumption
    | with_reducible apply Module.chunkPacket_kept

theorem execChunkNack_kept (src : MemberId) (coll : Nat) (chunk : Nat) (s : State) :
    Keeps true s (execChunkNack src coll chunk s) := by
  unfold execChunkNack
  refine Keeps.on fun z m h => ?_
  repeat' first
    | with_reducible assumption
    | with_reducible apply Module.sendChunk_kept
    | with_reducible apply Module.count_kept
    | split

theorem execHold_kept (src : MemberId) (coll : Nat) (chunk : Nat) (s : State) :
    Keeps true s (execHold src coll chunk s) := by
  unfold execHold
  refine Keeps.on fun z m h => ?_
  repeat' first
    | with_reducible assumption
    | with_reducible apply Module.setChunk_kept
    | with_reducible apply Module.setRwk_kept
    | split

theorem execStragglerExpire_kept (coll : Nat) (chunk : Nat) (neighbour : MemberId) (s : State) :
    Keeps true s (execStragglerExpire coll chunk neighbour s) := by
  unfold execStragglerExpire
  refine Keeps.on fun z m h => ?_
  repeat' first
    | with_reducible assumption
    | (extract_lets +onlyGivenNames m; clear_value m)
    | with_reducible apply Module.packet_kept
    | with_reducible apply Module.until_kept
    | split

theorem Module.restartChunk_kept {r : Bool} {z m : Module} (h : Kept r z m) (id : Nat) (n : Nat) (old : List Nat) :
    Kept r z (Module.restartChunk m id n old) := by
  unfold Module.restartChunk
  repeat' first
    | with_reducible assumption
    | (extract_lets +onlyGivenNames m; clear_value m)
    | with_reducible apply Module.broadcast_kept
    | with_reducible apply Module.advanceChunk_kept
    | with_reducible apply Module.setChunk_kept
    | split

theorem Module.applyReform_kept {r : Bool} {z m : Module} (h : Kept r z m) (name : Nat) (mask : Nat) (rfm : Nat) :
    Kept r z (Module.applyReform m name mask rfm) := by
  unfold Module.applyReform
  repeat' first
    | with_reducible assumption
    | (extract_lets +onlyGivenNames m; refine Kept.let_in (r := r) (z := z) (m := m) ?_ fun hm => ?_; subst m; rotate_left; clear_value m)
    | with_reducible apply Module.setRwk_kept
    | with_reducible apply Module.count_kept
    | with_reducible apply Module.abortColl_kept
    | with_reducible apply Module.setColl_kept
    | with_reducible apply Module.replay_kept
    | with_reducible apply Module.restartChunk_kept
    | (with_reducible apply Kept.foldl; intro b hb x)
    | split

theorem Module.coordinate_kept {r : Bool} {z m : Module} (h : Kept r z m) (name : Nat) (member : Nat) (cause : Nat)
    (elastic : Bool) :
    Kept r z (Module.coordinate m name member cause elastic) := by
  unfold Module.coordinate
  repeat' first
    | with_reducible assumption
    | (extract_lets +onlyGivenNames m
       first
       | (refine Kept.let_in (r := r) (z := z) (m := m) ?_ fun hm => ?_; subst m; rotate_left; clear_value m)
       | clear_value m)
    | with_reducible apply Module.sendGroup_kept
    | with_reducible apply Module.post_kept
    | with_reducible apply Module.applyReform_kept
    | with_reducible apply Module.abortColl_kept
    | with_reducible apply Module.setRwk_kept
    | split

theorem execLate_kept (coll : Nat) (member : MemberId) (elastic : Bool) (s : State) :
    Keeps true s (execLate coll member elastic s) := by
  unfold execLate
  refine Keeps.on fun z m h => ?_
  repeat' first
    | with_reducible assumption
    | with_reducible apply Module.coordinate_kept

theorem execReform_kept (coll : Nat) (mask : Word) (rfm : Byte) (s : State) :
    Keeps true s (execReform coll mask rfm s) := by
  unfold execReform
  refine Keeps.on fun z m h => ?_
  repeat' first
    | with_reducible assumption
    | with_reducible apply Module.applyReform_kept

theorem execCollAbort_kept (ptn : PtnId) (grp : BitVec 16) (seq : Word) (cause : Byte) (detector : MemberId)
    (member : MemberId) (sigA : Word) (sigB : Word) (s : State) :
    Keeps true s (execCollAbort ptn grp seq cause detector member sigA sigB s) := by
  unfold execCollAbort
  refine Keeps.on fun z m h => ?_
  repeat' first
    | with_reducible assumption
    | (extract_lets +onlyGivenNames m; clear_value m)
    | with_reducible apply Module.abortColl_kept
    | with_reducible apply Module.setRwk_kept
    | split

theorem Module.collMemberLost_kept {r : Bool} {z m : Module} (h : Kept r z m) (member : Nat) :
    Kept r z (Module.collMemberLost m member) := by
  unfold Module.collMemberLost
  repeat' first
    | with_reducible assumption
    | with_reducible apply Module.abortAll_kept
    | with_reducible apply Module.coordinate_kept
    | (with_reducible apply Kept.foldl; intro b hb x)
    | split

theorem execLevelCSumReceive_kept (coll : Nat) (chunk : Nat) (guildPos : Nat) (sums : List (BitVec 32)) (s : State) :
    Keeps true s (execLevelCSumReceive coll chunk guildPos sums s) := by
  unfold execLevelCSumReceive
  refine Keeps.on fun z m h => ?_
  repeat' first
    | with_reducible assumption
    | with_reducible apply Module.deny_kept
    | with_reducible apply Module.setRwk_kept
    | with_reducible apply Module.levelCDone_kept
    | with_reducible apply Module.setChunk_kept
    | split

theorem Module.levelCPeerLost_kept {r : Bool} {z m : Module} (h : Kept r z m) (qp : Nat) :
    Kept r z (Module.levelCPeerLost m qp) := by
  unfold Module.levelCPeerLost
  repeat' first
    | with_reducible assumption
    | with_reducible apply Module.abortAll_kept
    | (with_reducible apply Kept.foldl; intro b hb x)

theorem Module.launchFallback_kept {r : Bool} {z m : Module} (h : Kept r z m) (x : FallbackWait) :
    Kept r z (Module.launchFallback m x) := by
  unfold Module.launchFallback
  repeat' first
    | with_reducible assumption
    | with_reducible apply Module.launchColl_kept

theorem Module.launchFallbacks.go_kept {r : Bool} {z m : Module} (h : Kept r z m) (a : Nat) :
    Kept r z (Module.launchFallbacks.go a m) := by
  induction a generalizing m <;> unfold Module.launchFallbacks.go <;>
  repeat' first
    | with_reducible apply Module.launchFallback_kept
    | with_reducible apply Module.setRwk_kept
    | with_reducible apply_assumption -symm -exfalso
    | split

theorem Module.launchFallbacks_kept {r : Bool} {z m : Module} (h : Kept r z m) :
    Kept r z (Module.launchFallbacks m) := by
  unfold Module.launchFallbacks
  repeat' first
    | with_reducible assumption
    | with_reducible apply Module.launchFallbacks.go_kept

theorem Module.fallbackRun_kept {r : Bool} {z m : Module} (h : Kept r z m) (qp : Nat) (c : Capsule) (x : List Byte) :
    Kept r z (Module.fallbackRun qp m c x) := by
  unfold Module.fallbackRun
  repeat' first
    | with_reducible assumption
    | with_reducible apply Module.launchFallbacks_kept
    | with_reducible apply Module.setRwk_kept

theorem execFallbackLaunch_kept (qp : Nat) (d : FallbackDesc) (s : State) :
    Keeps true s (execFallbackLaunch qp d s) := by
  unfold execFallbackLaunch
  refine Keeps.on fun z m h => ?_
  repeat' first
    | with_reducible assumption
    | (extract_lets +onlyGivenNames m; clear_value m)
    | with_reducible apply Module.refuseTo_kept
    | with_reducible apply Module.setPtn_kept
    | with_reducible apply Module.enter_kept
    | with_reducible apply Module.fallbackRun_kept
    | split
    | intro x

theorem Module.gcommit_kept {r : Bool} {z m : Module} (h : Kept r z m) :
    Kept r z (Module.gcommit m) := by
  unfold Module.gcommit
  repeat' first
    | with_reducible assumption
    | with_reducible apply Module.setRwk_kept
    | with_reducible apply Module.packet_kept

theorem execRwkGcommitCommit_kept (s : State) :
    Keeps true s (execRwkGcommitCommit s) := by
  unfold execRwkGcommitCommit
  refine Keeps.on fun z m h => ?_
  repeat' first
    | with_reducible assumption
    | with_reducible apply Module.gcommit_kept

theorem Module.gdiscard_kept {r : Bool} {z m : Module} (h : Kept r z m) :
    Kept r z (Module.gdiscard m) := by
  unfold Module.gdiscard
  repeat' first
    | with_reducible assumption
    | with_reducible apply Module.setRwk_kept

theorem execRwkGcommitDiscard_kept (s : State) :
    Keeps true s (execRwkGcommitDiscard s) := by
  unfold execRwkGcommitDiscard
  refine Keeps.on fun z m h => ?_
  repeat' first
    | with_reducible assumption
    | with_reducible apply Module.gdiscard_kept

theorem Module.graphRefused_kept {r : Bool} {z m : Module} (h : Kept r z m) (p : Nat) (reqid : Word) (off : Nat)
    (handle : Nat) :
    Kept r z (Module.graphRefused m p reqid off handle) := by
  unfold Module.graphRefused
  repeat' first
    | with_reducible assumption
    | with_reducible apply Module.post_kept

theorem Module.loadPart_kept {r : Bool} {z m : Module} (h : Kept r z m) (c : Capsule) (bs : List Byte) :
    Kept r z (Module.loadPart m c bs).1 := by
  unfold Module.loadPart
  repeat' first
    | with_reducible assumption
    | (extract_lets +onlyGivenNames m; clear_value m)
    | with_reducible apply Module.graphRefused_kept
    | with_reducible apply Module.setPtn_kept
    | split

theorem Module.graphLoadRun_kept {r : Bool} {z m : Module} (h : Kept r z m) (c : Capsule) (data : List Byte) :
    Kept r z (Module.graphLoadRun m c data) := by
  unfold Module.graphLoadRun
  repeat' first
    | with_reducible assumption
    | with_reducible apply Module.loadPart_kept
    | with_reducible apply Module.complete_kept
    | with_reducible apply Module.spread_kept
    | split
    | ((conv => (pattern (Module.mk ..); skip)); with_reducible apply Kept.upd)
    | exact id
    | exact Nat.le_refl _
    | exact List.prefix_refl _
    | exact fun _ => Nat.le_refl _
    | with_reducible exact rfl

theorem execGraphLoad_kept (qp : Nat) (c : Capsule) (image : List Byte) (s : State) :
    Keeps true s (execGraphLoad qp c image s) := by
  unfold execGraphLoad
  refine Keeps.on fun z m h => ?_
  repeat' first
    | with_reducible assumption
    | with_reducible apply Module.capsule_kept
    | with_reducible apply Module.graphLoadRun_kept
    | intro x

theorem Module.unloadPart_kept {r : Bool} {z m : Module} (h : Kept r z m) (c : Capsule) :
    Kept r z (Module.unloadPart m c).1 := by
  unfold Module.unloadPart
  repeat' first
    | with_reducible assumption
    | (extract_lets +onlyGivenNames m; clear_value m)
    | with_reducible apply Module.graphRefused_kept
    | with_reducible apply Module.unload_kept
    | split

theorem Module.graphUnloadRun_kept {r : Bool} {z m : Module} (h : Kept r z m) (c : Capsule) (x : List Byte) :
    Kept r z (Module.graphUnloadRun m c x) := by
  unfold Module.graphUnloadRun
  repeat' first
    | with_reducible assumption
    | (extract_lets +onlyGivenNames m; refine Kept.let_fst (r := r) (z := z) (p := m) ?_ fun hm => ?_; subst m; rotate_left; clear_value m)
    | with_reducible apply Module.unloadPart_kept
    | with_reducible apply Module.complete_kept
    | with_reducible apply Module.spread_kept
    | split

theorem execGraphUnload_kept (qp : Nat) (c : Capsule) (s : State) :
    Keeps true s (execGraphUnload qp c s) := by
  unfold execGraphUnload
  refine Keeps.on fun z m h => ?_
  repeat' first
    | with_reducible assumption
    | with_reducible apply Module.capsule_kept
    | with_reducible apply Module.graphUnloadRun_kept
    | intro x

theorem Module.mismatch_kept {r : Bool} {z m : Module} (h : Kept r z m) (member : Nat) (theirs : List Byte)
    (guild : List Byte) :
    Kept r z (Module.mismatch m member theirs guild) := by
  unfold Module.mismatch
  repeat' first
    | with_reducible assumption
    | (extract_lets +onlyGivenNames m; clear_value m)
    | with_reducible apply Module.post_kept
    | split

theorem Module.quoteFor_kept {r : Bool} {z m : Module} (h : Kept r z m) (nonce : List Byte) (mask : Nat) :
    Kept r z (Module.quoteFor m nonce mask).2 := by
  unfold Module.quoteFor
  repeat' first
    | with_reducible assumption
    | with_reducible apply Module.setAsy_kept
    | exact id

theorem Module.sendJoin_kept {r : Bool} {z m : Module} (h : Kept r z m) :
    Kept r z (Module.sendJoin m) := by
  unfold Module.sendJoin
  repeat' first
    | with_reducible assumption
    | with_reducible apply Module.quoteFor_kept
    | with_reducible apply Module.setGuild_kept
    | with_reducible apply Module.packet_kept
    | (with_reducible apply Kept.foldl; intro b hb x)

theorem Module.routeSet_kept {r : Bool} {z m : Module} (h : Kept r z m) (joined : List Nat) :
    Kept r z (Module.routeSet m joined).2 := by
  unfold Module.routeSet
  repeat' first
    | with_reducible assumption
    | with_reducible apply Module.draw_kept

theorem Module.takeRoutes_kept {r : Bool} {z m : Module} (h : Kept r z m) (rs : List (Nat × Word)) :
    Kept r z (Module.takeRoutes m rs) := by
  unfold Module.takeRoutes
  repeat' first
    | with_reducible assumption
    | with_reducible apply Module.setFab_kept

theorem Module.refuseDraft_kept {r : Bool} {z m : Module} (h : Kept r z m) (p : Nat) (off : Nat) (reason : Nat)
    (signer : Nat) :
    Kept r z (Module.refuseDraft m p off reason signer) := by
  unfold Module.refuseDraft
  repeat' first
    | with_reducible assumption
    | with_reducible apply Module.setReg_kept
    | with_reducible apply Module.post_kept
    | split

theorem Module.addRegion_kept {r : Bool} {z m : Module} (h : Kept r z m) (p : Nat) (r_50 : RegionRec) :
    Kept r z (Module.addRegion m p r_50) := by
  unfold Module.addRegion
  repeat' first
    | with_reducible assumption
    | with_reducible apply Module.draw_kept
    | with_reducible apply Module.setPtn_kept
    | ((conv => (pattern (Module.mk ..); skip)); with_reducible apply Kept.upd)
    | exact id
    | exact Nat.le_refl _
    | exact List.prefix_refl _
    | exact fun _ => Nat.le_refl _
    | with_reducible exact rfl

theorem Module.draftPart_kept {r : Bool} {z m : Module} (h : Kept r z m) (c : Capsule) (bs : List Byte) :
    Kept r z (Module.draftPart m c bs).1 := by
  unfold Module.draftPart
  repeat' first
    | with_reducible assumption
    | (extract_lets +onlyGivenNames m; clear_value m)
    | with_reducible apply Module.refuseDraft_kept
    | with_reducible apply Module.setPtn_kept
    | with_reducible apply Module.addRegion_kept
    | (with_reducible apply Kept.foldl; intro b hb x)
    | split

theorem Module.draftLoadRun_kept {r : Bool} {z m : Module} (h : Kept r z m) (c : Capsule) (data : List Byte) :
    Kept r z (Module.draftLoadRun m c data) := by
  unfold Module.draftLoadRun
  repeat' first
    | with_reducible assumption
    | with_reducible apply Module.draftPart_kept
    | with_reducible apply Module.spread_kept

theorem execDraftLoad_kept (qp : Nat) (c : Capsule) (image : List Byte) (s : State) :
    Keeps true s (execDraftLoad qp c image s) := by
  unfold execDraftLoad
  refine Keeps.on fun z m h => ?_
  repeat' first
    | with_reducible assumption
    | with_reducible apply Module.capsule_kept
    | with_reducible apply Module.draftLoadRun_kept
    | intro x

theorem Module.extendHallmark_kept {r : Bool} {z m : Module} (h : Kept r z m) (i : Nat) (d : List Byte) :
    Kept r z (Module.extendHallmark m i d) := by
  unfold Module.extendHallmark
  repeat' first
    | with_reducible assumption
    | with_reducible apply Module.setAsy_kept
    | exact id

theorem Module.dropTable_kept {r : Bool} {z m : Module} (h : Kept r z m) (t : Table) :
    Kept r z (Module.dropTable m t) := by
  unfold Module.dropTable
  repeat' first
    | with_reducible assumption
    | with_reducible apply Module.freePages_kept
    | split
    | ((conv => (pattern (Module.mk ..); skip)); with_reducible apply Kept.upd)
    | exact id
    | exact Nat.le_refl _
    | exact List.prefix_refl _
    | exact fun _ => Nat.le_refl _
    | with_reducible exact rfl

theorem Module.resetColls_kept {r : Bool} {z m : Module} (h : Kept r z m) (p : Nat) :
    Kept r z (Module.resetColls m p) := by
  unfold Module.resetColls
  repeat' first
    | with_reducible assumption
    | with_reducible apply Module.setRwk_kept

theorem Module.applyLocks_kept {r : Bool} {z m : Module} (h : Kept r z m) (d : Draft) :
    Kept r z (Module.applyLocks m d) := by
  unfold Module.applyLocks
  repeat' first
    | with_reducible assumption
    | with_reducible apply Module.setFld_kept
    | (with_reducible apply Kept.foldl; intro b hb x)
    | split

theorem Module.placeTable_kept {r : Bool} {z m : Module} (h : Kept r z m) (p : Nat) (r_50 : PlacementRec) :
    Kept r z (Module.placeTable m p r_50) := by
  unfold Module.placeTable
  repeat' first
    | with_reducible assumption
    | (extract_lets +onlyGivenNames m; refine Kept.let_snd (r := r) (z := z) (p := m) ?_ fun hm => ?_; subst m; rotate_left; clear_value m)
    | with_reducible apply Module.allocTable_kept
    | split
    | ((conv => (pattern (Module.mk ..); skip)); with_reducible apply Kept.upd)
    | exact id
    | exact Nat.le_refl _
    | exact List.prefix_refl _
    | exact fun _ => Nat.le_refl _
    | with_reducible exact rfl

theorem Module.fillBuckets_kept {r : Bool} {z m : Module} (h : Kept r z m) (p : Nat) (d : Draft) :
    Kept r z (Module.fillBuckets m p d) := by
  unfold Module.fillBuckets
  repeat' first
    | with_reducible assumption
    | with_reducible apply Module.setQuern_kept
    | (with_reducible apply Kept.foldl; intro b hb x)
    | exact fun _ => Nat.le_refl _

theorem Module.applyDraft_kept {r : Bool} {z m : Module} (h : Kept r z m) (p : Nat) (epoch : Nat) :
    Kept r z (Module.applyDraft m p epoch) := by
  unfold Module.applyDraft
  repeat' first
    | with_reducible assumption
    | with_reducible apply Module.refill_kept
    | with_reducible apply Module.dropTable_kept
    | with_reducible apply Module.freeRegion_kept
    | with_reducible apply Module.setPtn_kept
    | with_reducible apply Module.fillBuckets_kept
    | with_reducible apply Module.placeTable_kept
    | with_reducible apply Module.dropXlat_kept
    | with_reducible apply Module.resetColls_kept
    | with_reducible apply Module.extendHallmark_kept
    | with_reducible apply Module.applyLocks_kept
    | with_reducible apply Module.post_kept
    | with_reducible apply Module.openWindow_kept
    | (with_reducible apply Kept.foldl; intro b hb x)
    | split
    | ((conv => (pattern (Module.mk ..); skip)); with_reducible apply Kept.upd)
    | exact id
    | exact Nat.le_refl _
    | exact List.prefix_refl _
    | exact fun _ => Nat.le_refl _
    | with_reducible exact rfl

theorem Module.applyUnload_kept {r : Bool} {z m : Module} (h : Kept r z m) (p : Nat) (epoch : Nat) :
    Kept r z (Module.applyUnload m p epoch) := by
  unfold Module.applyUnload
  repeat' first
    | with_reducible assumption
    | with_reducible apply Module.dropTable_kept
    | with_reducible apply Module.freeRegion_kept
    | with_reducible apply Module.setPtn_kept
    | with_reducible apply Module.recordDone_kept
    | with_reducible apply Module.dropInputs_kept
    | with_reducible apply Module.dropXlat_kept
    | with_reducible apply Module.resetColls_kept
    | with_reducible apply Module.extendHallmark_kept
    | (with_reducible apply Kept.foldl; intro b hb x)

theorem Module.stopAdmitting_kept {r : Bool} {z m : Module} (h : Kept r z m) (p : Nat) :
    Kept r z (Module.stopAdmitting m p) := by
  unfold Module.stopAdmitting
  repeat' first
    | with_reducible assumption
    | with_reducible apply Module.closeWindow_kept
    | with_reducible apply Module.setPtn_kept
    | split

theorem Module.resumeAdmitting_kept {r : Bool} {z m : Module} (h : Kept r z m) (p : Nat) :
    Kept r z (Module.resumeAdmitting m p) := by
  unfold Module.resumeAdmitting
  repeat' first
    | with_reducible assumption
    | (extract_lets +onlyGivenNames m; refine Kept.let_in (r := r) (z := z) (m := m) ?_ fun hm => ?_; subst m; rotate_left; clear_value m)
    | with_reducible apply Module.setPtn_kept
    | with_reducible apply Module.admitWaiting_kept
    | with_reducible apply Module.openWindow_kept
    | split

theorem Module.activateRun_kept {r : Bool} {z m : Module} (h : Kept r z m) (c : Capsule) (x : List Byte) :
    Kept r z (Module.activateRun m c x) := by
  unfold Module.activateRun
  repeat' first
    | with_reducible assumption
    | (extract_lets +onlyGivenNames m; subst m)
    | with_reducible apply Module.sendJoin_kept
    | with_reducible apply Module.complete_kept
    | with_reducible apply Module.applyDraft_kept
    | with_reducible apply Module.stopAdmitting_kept
    | with_reducible apply Module.askWarden_kept
    | split

theorem execDraftActivate_kept (qp : Nat) (c : Capsule) (s : State) :
    Keeps true s (execDraftActivate qp c s) := by
  unfold execDraftActivate
  refine Keeps.on fun z m h => ?_
  repeat' first
    | with_reducible assumption
    | with_reducible apply Module.capsule_kept
    | with_reducible apply Module.activateRun_kept
    | intro x

theorem Module.unloadRun_kept {r : Bool} {z m : Module} (h : Kept r z m) (c : Capsule) (x : List Byte) :
    Kept r z (Module.unloadRun m c x) := by
  unfold Module.unloadRun
  repeat' first
    | with_reducible assumption
    | (extract_lets +onlyGivenNames m; subst m)
    | with_reducible apply Module.complete_kept
    | with_reducible apply Module.refuseDraft_kept
    | with_reducible apply Module.askWarden_kept
    | split

theorem execDraftUnload_kept (qp : Nat) (c : Capsule) (s : State) :
    Keeps true s (execDraftUnload qp c s) := by
  unfold execDraftUnload
  refine Keeps.on fun z m h => ?_
  repeat' first
    | with_reducible assumption
    | with_reducible apply Module.capsule_kept
    | with_reducible apply Module.unloadRun_kept
    | intro x

theorem Module.enterMode_kept {z m : Module} (h : Kept false z m) (x : Mode) : Kept false z (Module.enterMode m x) := by
  unfold Module.enterMode
  split
  · exact h
  · exact Module.send_kept (h.pwr (fun e => nomatch e) (fun e => nomatch e)) _

theorem Module.setMode_kept {r : Bool} {z m : Module} (h : Kept r z m) (x : Mode) : Kept r z (Module.setMode m x) := by
  unfold Module.setMode
  split
  · exact h
  · next hn =>
    unfold Module.enterMode
    split
    · exact h
    · exact Module.send_kept (h.pwr (fun _ e => absurd (.inl e) hn) fun _ e => absurd (.inr e) hn) _

theorem Module.checkTrained_kept {r : Bool} {z m : Module} (h : Kept r z m) :
    Kept r z (Module.checkTrained m) := by
  unfold Module.checkTrained
  repeat' first
    | with_reducible assumption
    | (extract_lets +onlyGivenNames m; clear_value m)
    | with_reducible apply Module.sendJoin_kept
    | with_reducible apply Module.setMode_kept
    | split

theorem Module.recordEpoch_kept {r : Bool} {z m : Module} (h : Kept r z m) (e : Nat) (ok : Bool) :
    Kept r z (Module.recordEpoch m e ok) := by
  unfold Module.recordEpoch
  repeat' first
    | with_reducible assumption
    | with_reducible apply Module.setGuild_kept

theorem Module.ackTo_kept {r : Bool} {z m : Module} (h : Kept r z m) (warden : Nat) (e : Nat) :
    Kept r z (Module.ackTo m warden e) := by
  unfold Module.ackTo
  repeat' first
    | with_reducible assumption
    | with_reducible apply Module.packet_kept

theorem Module.reportAgr_kept {r : Bool} {z m : Module} (h : Kept r z m) (r_35 : Report) :
    Kept r z (Module.reportAgr m r_35) := by
  unfold Module.reportAgr
  repeat' first
    | with_reducible assumption
    | with_reducible apply Module.toWarden_kept
    | with_reducible apply Module.setGuild_kept
    | split

theorem Module.answerOutcome_kept {r : Bool} {z m : Module} (h : Kept r z m) (e : Nat) (ok : Bool) :
    Kept r z (Module.answerOutcome m e ok) := by
  unfold Module.answerOutcome
  repeat' first
    | with_reducible assumption
    | with_reducible apply Module.ackTo_kept
    | with_reducible apply Module.toWarden_kept
    | split

theorem Module.sendPage_kept {r : Bool} {z m : Module} (h : Kept r z m) (k : Nat) (r_50 : RebuildMark) :
    Kept r z (Module.sendPage m k r_50) := by
  unfold Module.sendPage
  repeat' first
    | with_reducible assumption
    | (extract_lets +onlyGivenNames m
       first
       | (refine Kept.let_in (r := r) (z := z) (m := m) ?_ fun hm => ?_; subst m; rotate_left; clear_value m)
       | clear_value m)
    | with_reducible apply Module.packet_kept
    | with_reducible apply Module.writeBackAll_kept
    | split

theorem Module.startRebuild_kept {r : Bool} {z m : Module} (h : Kept r z m) (k : Nat) :
    Kept r z (Module.startRebuild m k) := by
  unfold Module.startRebuild
  repeat' first
    | with_reducible assumption
    | with_reducible apply Module.setGuild_kept
    | with_reducible apply Module.checkRebuilds_kept
    | with_reducible apply Module.sendPage_kept
    | (with_reducible apply Kept.foldl; intro b hb x)

theorem Module.lastMarks_kept {r : Bool} {z m : Module} (h : Kept r z m) (k : Nat) :
    Kept r z (Module.lastMarks m k) := by
  unfold Module.lastMarks
  repeat' first
    | with_reducible assumption
    | with_reducible apply Module.setGuild_kept
    | with_reducible apply Module.sendPage_kept
    | (with_reducible apply Kept.foldl; intro b hb x)
    | split

theorem Module.begin_agr_kept {r : Bool} {z m : Module} (h : Kept r z m) (a : Agreement) (drainUs : Nat) :
    Kept r z (Module.begin_agr m a drainUs) := by
  unfold Module.begin_agr
  repeat' first
    | with_reducible assumption
    | (extract_lets +onlyGivenNames m; refine Kept.let_in (r := r) (z := z) (m := m) ?_ fun hm => ?_; subst m; rotate_left; clear_value m)
    | with_reducible apply Module.stopAdmitting_kept
    | with_reducible apply Module.reportAgr_kept
    | with_reducible apply Module.lastMarks_kept
    | split

theorem Module.takePrepare_kept {r : Bool} {z m : Module} (h : Kept r z m) (e : Nat) (a : Agreement) (drainUs : Nat) :
    Kept r z (Module.takePrepare m e a drainUs) := by
  unfold Module.takePrepare
  repeat' first
    | with_reducible assumption
    | with_reducible apply Module.setGuild_kept
    | with_reducible apply Module.checkReady_kept
    | with_reducible apply Module.begin_agr_kept

theorem execPrepare_kept (epoch : Word) (a : Agreement) (drainUs : Nat) (s : State) :
    Keeps true s (execPrepare epoch a drainUs s) := by
  unfold execPrepare
  refine Keeps.on fun z m h => ?_
  repeat' first
    | with_reducible assumption
    | (extract_lets +onlyGivenNames m; clear_value m)
    | with_reducible apply Module.answerOutcome_kept
    | with_reducible apply Module.toWarden_kept
    | with_reducible apply Module.takePrepare_kept
    | split

theorem execDrainTimeout_kept (epoch : Word) (s : State) :
    Keeps true s (execDrainTimeout epoch s) := by
  unfold execDrainTimeout
  refine Keeps.on fun z m h => ?_
  repeat' first
    | with_reducible assumption
    | with_reducible apply Module.reportAgr_kept
    | with_reducible apply Module.until_kept
    | split

theorem Module.applyFlip_kept {r : Bool} {z m : Module} (h : Kept r z m) (t e epoch : Nat) :
    Kept r z (Module.applyFlip m t e epoch) := by
  unfold Module.applyFlip
  refine Module.checkDrained_kept (Kept.foldl _ (fun b hb n => ?_) ?_)
  · dsimp only
    split
    · exact Module.setTable_kept hb ..
    · exact hb
  · exact h.upd id id rfl rfl rfl (List.length_map ..) (Nat.le_refl _) (List.prefix_refl _) id (fun _ => Nat.le_refl _) (Nat.le_refl _)

theorem Module.applyGroup_kept {r : Bool} {z m : Module} (h : Kept r z m) (t : WordMap) (epoch : Nat) :
    Kept r z (Module.applyGroup m t epoch) := by
  unfold Module.applyGroup
  repeat' first
    | with_reducible assumption
    | with_reducible apply Module.setRwk_kept

theorem Module.checkTwin_kept {r : Bool} {z m : Module} (h : Kept r z m) :
    Kept r z (Module.checkTwin m) := by
  unfold Module.checkTwin
  repeat' first
    | with_reducible assumption
    | (extract_lets +onlyGivenNames m
       first
       | (refine Kept.let_in (r := r) (z := z) (m := m) ?_ fun hm => ?_; subst m; rotate_left; clear_value m)
       | clear_value m)
    | with_reducible apply Module.checkDrain_kept
    | with_reducible apply Module.setPwr_kept
    | with_reducible apply Module.setGuild_kept
    | with_reducible apply Module.sendTo_kept
    | (with_reducible apply Kept.foldl; intro b hb x)
    | split
    | exact fun _ => id

theorem Module.copyBack_kept {r : Bool} {z m : Module} (h : Kept r z m) (k : Nat) :
    Kept r z (Module.copyBack m k) := by
  unfold Module.copyBack
  repeat' first
    | with_reducible assumption
    | with_reducible apply Module.sendTo_kept
    | (with_reducible apply Kept.foldl; intro b hb x)
    | split

theorem Module.takeEditions_kept {r : Bool} {z m : Module} (h : Kept r z m) (a : JoinAnswer) (x : Table) :
    Kept r z (Module.takeEditions m a x) := by
  unfold Module.takeEditions
  repeat' first
    | with_reducible assumption
    | (extract_lets +onlyGivenNames m
       first
       | (refine Kept.let_in (r := r) (z := z) (m := m) ?_ fun hm => ?_; subst m; rotate_left; clear_value m)
       | clear_value m)
    | with_reducible apply Module.dropEdition_kept
    | with_reducible apply Module.setTable_kept
    | (with_reducible apply Kept.foldl; intro b hb x)
    | split

theorem Module.becomeJoined_kept {r : Bool} {z m : Module} (h : Kept r z m) :
    Kept r z (Module.becomeJoined m) := by
  unfold Module.becomeJoined
  repeat' first
    | with_reducible assumption
    | with_reducible apply Module.setGuild_kept
    | with_reducible apply Module.takeEditions_kept
    | with_reducible apply Module.setMode_kept
    | with_reducible apply Module.admitWaiting_kept
    | with_reducible apply Module.setPtn_kept
    | (with_reducible apply Kept.foldl; intro b hb x)
    | split

theorem Module.tellDrained_kept {r : Bool} {z m : Module} (h : Kept r z m) :
    Kept r z (Module.tellDrained m) := by
  unfold Module.tellDrained
  repeat' first
    | with_reducible assumption
    | with_reducible apply Module.toWarden_kept
    | (with_reducible apply Kept.foldl; intro b hb x)

theorem Module.applyJoin_kept {r : Bool} {z m : Module} (h : Kept r z m) (k : Nat) (serial : BitVec 128)
    (routes : List (Nat × Word)) (epoch : Nat) :
    Kept r z (Module.applyJoin m k serial routes epoch) := by
  unfold Module.applyJoin
  repeat' first
    | with_reducible assumption
    | (extract_lets +onlyGivenNames m
       first
       | (refine Kept.let_in (r := r) (z := z) (m := m) ?_ fun hm => ?_; subst m; rotate_left; clear_value m)
       | clear_value m)
    | with_reducible apply Module.setGuild_kept
    | with_reducible apply Module.takeRoutes_kept
    | with_reducible apply Module.becomeJoined_kept
    | with_reducible apply Module.tellDrained_kept
    | with_reducible apply Module.checkDrained_kept
    | with_reducible apply Module.copyBack_kept
    | with_reducible apply Module.checkTwin_kept
    | split

theorem Module.applyAgr_kept {r : Bool} {z m : Module} (h : Kept r z m) (a : Agreement) (epoch : Nat) :
    Kept r z (Module.applyAgr m a epoch) := by
  unfold Module.applyAgr
  repeat' first
    | with_reducible assumption
    | with_reducible apply Module.applyDraft_kept
    | with_reducible apply Module.applyUnload_kept
    | with_reducible apply Module.applyFlip_kept
    | with_reducible apply Module.applyGroup_kept
    | with_reducible apply Module.applyJoin_kept
    | split

theorem Module.agreedCharter_kept {r : Bool} {z m : Module} (h : Kept r z m) (a : Agreement) :
    Kept r z (Module.agreedCharter m a) := by
  unfold Module.agreedCharter
  repeat' first
    | with_reducible assumption
    | with_reducible apply Module.setFab_kept
    | split

theorem execCommit_kept (epoch : Word) (a : Agreement) (s : State) :
    Keeps true s (execCommit epoch a s) := by
  unfold execCommit
  refine Keeps.on fun z m h => ?_
  repeat' first
    | with_reducible assumption
    | (extract_lets +onlyGivenNames m
       first
       | (refine Kept.let_in (r := true) (z := z) (m := m) ?_ fun hm => ?_; subst m; rotate_left; clear_value m)
       | clear_value m)
    | with_reducible apply Module.answerOutcome_kept
    | with_reducible apply Module.agreedCharter_kept
    | with_reducible apply Module.recordEpoch_kept
    | with_reducible apply Module.applyAgr_kept
    | with_reducible apply Module.launchFallbacks_kept
    | with_reducible apply Module.ackTo_kept
    | split

theorem Module.undoAgr_kept {r : Bool} {z m : Module} (h : Kept r z m) (a : Agreement) :
    Kept r z (Module.undoAgr m a) := by
  unfold Module.undoAgr
  repeat' first
    | with_reducible assumption
    | with_reducible apply Module.resumeAdmitting_kept
    | with_reducible apply Module.setRwk_kept
    | split

theorem execAbort_kept (epoch : Word) (a : Agreement) (s : State) :
    Keeps true s (execAbort epoch a s) := by
  unfold execAbort
  refine Keeps.on fun z m h => ?_
  repeat' first
    | with_reducible assumption
    | (extract_lets +onlyGivenNames m; clear_value m)
    | with_reducible apply Module.answerOutcome_kept
    | with_reducible apply Module.launchFallbacks_kept
    | with_reducible apply Module.recordEpoch_kept
    | with_reducible apply Module.undoAgr_kept
    | split

theorem Module.setCurrent_kept {r : Bool} {z m : Module} (h : Kept r z m) (a : Option WardenAgr) :
    Kept r z (Module.setCurrent m a) := by
  unfold Module.setCurrent
  repeat' first
    | with_reducible assumption
    | with_reducible apply Module.setGuild_kept

theorem Module.compareCharters_kept {r : Bool} {z m : Module} (h : Kept r z m) :
    Kept r z (Module.compareCharters m) := by
  unfold Module.compareCharters
  repeat' first
    | with_reducible assumption
    | with_reducible apply Module.mismatch_kept
    | with_reducible apply Module.setGuild_kept
    | (with_reducible apply Kept.foldl; intro b hb x)
    | split

theorem Module.sendCommit_kept {r : Bool} {z m : Module} (h : Kept r z m) (a : WardenAgr) :
    Kept r z (Module.sendCommit m a) := by
  unfold Module.sendCommit
  repeat' first
    | with_reducible assumption
    | (extract_lets +onlyGivenNames m
       first
       | (refine Kept.let_in (r := r) (z := z) (m := m) ?_ fun hm => ?_; subst m; rotate_left; clear_value m)
       | (refine Kept.let_snd (r := r) (z := z) (p := m) ?_ fun hm => ?_; subst m; rotate_left; clear_value m)
       | clear_value m)
    | with_reducible apply Module.routeSet_kept
    | with_reducible apply Module.setGuild_kept
    | with_reducible apply Module.setCurrent_kept
    | with_reducible apply Module.packet_kept
    | (with_reducible apply Kept.foldl; intro b hb x)
    | split

theorem Module.abortNotice_kept {r : Bool} {z m : Module} (h : Kept r z m) (a : WardenAgr) :
    Kept r z (Module.abortNotice m a) := by
  unfold Module.abortNotice
  repeat' first
    | with_reducible assumption
    | with_reducible apply Module.post_kept
    | split

theorem Module.abortAgr_kept {r : Bool} {z m : Module} (h : Kept r z m) (a : WardenAgr) :
    Kept r z (Module.abortAgr m a) := by
  unfold Module.abortAgr
  repeat' first
    | with_reducible assumption
    | with_reducible apply Module.packet_kept
    | with_reducible apply Module.endAgr_kept
    | with_reducible apply Module.abortNotice_kept
    | (with_reducible apply Kept.foldl; intro b hb x)

theorem Module.doneNotice_kept {r : Bool} {z m : Module} (h : Kept r z m) (a : WardenAgr) (changed : Nat) :
    Kept r z (Module.doneNotice m a changed) := by
  unfold Module.doneNotice
  repeat' first
    | with_reducible assumption
    | with_reducible apply Module.post_kept
    | split

theorem Module.declareLost_kept {r : Bool} {z m : Module} (h : Kept r z m) (k : Nat) (cause : Nat) :
    Kept r z (Module.declareLost m k cause) := by
  unfold Module.declareLost
  repeat' first
    | with_reducible assumption
    | with_reducible apply Module.routeSet_kept
    | with_reducible apply Module.setGuild_kept
    | with_reducible apply Module.packet_kept
    | with_reducible apply Module.degradeAll_kept
    | with_reducible apply Module.post_kept
    | (with_reducible apply Kept.foldl; intro b hb x)

theorem Module.declareOld_kept {r : Bool} {z m : Module} (h : Kept r z m) :
    Kept r z (Module.declareOld m) := by
  unfold Module.declareOld
  repeat' first
    | with_reducible assumption
    | with_reducible apply Module.declareLost_kept
    | with_reducible apply Module.setGuild_kept
    | with_reducible apply Module.post_kept
    | split

theorem Module.decideAgr_kept {r : Bool} {z m : Module} (h : Kept r z m) :
    Kept r z (Module.decideAgr m) := by
  unfold Module.decideAgr
  repeat' first
    | with_reducible assumption
    | (extract_lets +onlyGivenNames m; clear_value m)
    | with_reducible apply Module.abortAgr_kept
    | with_reducible apply Module.sendCommit_kept
    | with_reducible apply Module.declareOld_kept
    | with_reducible apply Module.endAgr_kept
    | with_reducible apply Module.doneNotice_kept
    | split

theorem Module.takeRequest_kept {r : Bool} {z m : Module} (h : Kept r z m) (a : WardenAgr) :
    Kept r z (Module.takeRequest m a) := by
  unfold Module.takeRequest
  repeat' first
    | with_reducible assumption
    | with_reducible apply Module.setCurrent_kept
    | with_reducible apply Module.answerAgr_kept
    | with_reducible apply Module.setGuild_kept
    | with_reducible apply Module.decideAgr_kept
    | with_reducible apply Module.enqueueAgr_kept
    | split

theorem execReady_kept (src : MemberId) (epoch : Word) (r : Report) (s : State) :
    Keeps true s (execReady src epoch r s) := by
  unfold execReady
  refine Keeps.on fun z m h => ?_
  repeat' first
    | (extract_lets +onlyGivenNames m; refine Kept.fn_in_snd (r := true) (z := z) (f := m) ?_ fun hm => ?_; subst m; rotate_left; clear_value m)
    | with_reducible apply Module.partDone_kept
    | with_reducible apply Module.setGuild_kept
    | with_reducible apply Module.packet_kept
    | with_reducible apply Module.decideAgr_kept
    | with_reducible apply Module.setCurrent_kept
    | with_reducible apply Module.compareCharters_kept
    | (with_reducible apply Kept.foldl; intro b hb x)
    | intro x
    | with_reducible apply_assumption -symm -exfalso
    | dsimp -zeta -zetaHave only
    | split

theorem Module.checkRelease_kept {r : Bool} {z m : Module} (h : Kept r z m) :
    Kept r z (Module.checkRelease m) := by
  unfold Module.checkRelease
  repeat' first
    | with_reducible assumption
    | with_reducible apply Module.toJoined_kept
    | with_reducible apply Module.setGuild_kept
    | (with_reducible apply Kept.foldl; intro b hb x)
    | split

theorem execDrained_kept (src : MemberId) (table : BitVec 32) (edition : BitVec 32) (s : State) :
    Keeps true s (execDrained src table edition s) := by
  unfold execDrained
  refine Keeps.on fun z m h => ?_
  repeat' first
    | with_reducible assumption
    | (extract_lets +onlyGivenNames m; clear_value m)
    | with_reducible apply Module.checkRelease_kept
    | with_reducible apply Module.setGuild_kept
    | split

theorem execRelease_kept (epoch : Word) (table : BitVec 32) (edition : BitVec 32) (s : State) :
    Keeps true s (execRelease epoch table edition s) := by
  unfold execRelease
  refine Keeps.on fun z m h => ?_
  repeat' first
    | with_reducible assumption
    | (extract_lets +onlyGivenNames m
       first
       | (refine Kept.let_in (r := true) (z := z) (m := m) ?_ fun hm => ?_; subst m; rotate_left; clear_value m)
       | (refine Kept.let_fst (r := true) (z := z) (p := m) ?_ fun hm => ?_; subst m; rotate_left; clear_value m)
       | clear_value m)
    | with_reducible apply Module.recordEpoch_kept
    | with_reducible apply Module.dropEdition_kept
    | with_reducible apply Module.checkReady_kept
    | with_reducible apply Module.post_kept
    | split

theorem Module.runJoin_kept {r : Bool} {z m : Module} (h : Kept r z m) (k : MemberId) (serial : BitVec 128) :
    Kept r z (Module.runJoin m k serial) := by
  unfold Module.runJoin
  repeat' first
    | with_reducible assumption
    | with_reducible apply Module.decideAgr_kept
    | with_reducible apply Module.enqueueAgr_kept

theorem Module.takeJoin_kept {r : Bool} {z m : Module} (h : Kept r z m) (k : MemberId) (serial : BitVec 128)
    (charter : List Byte) (quote : List Byte) (linkSerial : BitVec 128) :
    Kept r z (Module.takeJoin m k serial charter quote linkSerial) := by
  unfold Module.takeJoin
  repeat' first
    | with_reducible assumption
    | (extract_lets +onlyGivenNames m
       first
       | (refine Kept.let_in (r := r) (z := z) (m := m) ?_ fun hm => ?_; subst m; rotate_left; clear_value m)
       | clear_value m)
    | with_reducible apply Module.post_kept
    | with_reducible apply Module.runJoin_kept
    | with_reducible apply Module.mismatch_kept
    | with_reducible apply Module.packet_kept
    | with_reducible apply Module.setGuild_kept
    | (with_reducible apply Kept.foldl; intro b hb x)
    | split

theorem Module.takeJoinAnswer_kept {r : Bool} {z m : Module} (h : Kept r z m) (a : JoinAnswer) :
    Kept r z (Module.takeJoinAnswer m a) := by
  unfold Module.takeJoinAnswer
  repeat' first
    | with_reducible assumption
    | (extract_lets +onlyGivenNames m
       first
       | (refine Kept.let_in (r := r) (z := z) (m := m) ?_ fun hm => ?_; subst m; rotate_left; clear_value m)
       | clear_value m)
    | with_reducible apply Module.setGuild_kept
    | with_reducible apply Module.setRwk_kept
    | with_reducible apply Module.post_kept
    | with_reducible apply Module.setFab_kept
    | with_reducible apply Module.sendJoin_kept
    | (with_reducible apply Kept.foldl; intro b hb x)
    | split

theorem execJoinRequest_kept (member : MemberId) (serial : BitVec 128) (charter : List Byte) (quote : List Byte)
    (linkSerial : BitVec 128) (answer : JoinAnswer) (s : State) :
    Keeps true s (execJoinRequest member serial charter quote linkSerial answer s) := by
  unfold execJoinRequest
  refine Keeps.on fun z m h => ?_
  repeat' first
    | with_reducible assumption
    | with_reducible apply Module.takeJoinAnswer_kept
    | with_reducible apply Module.takeJoin_kept
    | split

theorem execJoinWaitExpire_kept (reachable : Word) (serials : List (BitVec 128)) (charters : List (List Byte)) (s : State) :
    Keeps true s (execJoinWaitExpire reachable serials charters s) := by
  unfold execJoinWaitExpire
  refine Keeps.on fun z m h => ?_
  repeat' first
    | with_reducible assumption
    | (extract_lets +onlyGivenNames m
       first
       | (refine Kept.let_in (r := true) (z := z) (m := m) ?_ fun hm => ?_; subst m; rotate_left; clear_value m)
       | clear_value m)
    | with_reducible apply Module.until_kept
    | with_reducible apply Module.post_kept
    | with_reducible apply Module.setGuild_kept
    | with_reducible apply Module.setFab_kept
    | with_reducible apply Module.runJoin_kept
    | with_reducible apply Module.mismatch_kept
    | (with_reducible apply Kept.foldl; intro b hb x)
    | split

theorem execRebuildPage_kept (src : MemberId) (table : BitVec 32) (edition : BitVec 32) (page : Nat) (data : List Byte)
    (s : State) :
    Keeps true s (execRebuildPage src table edition page data s) := by
  unfold execRebuildPage
  refine Keeps.on fun z m h => ?_
  repeat' first
    | (extract_lets +onlyGivenNames m
       first
       | (refine Kept.let_in (r := true) (z := z) (m := m) ?_ fun hm => ?_; subst m; rotate_left; clear_value m)
       | (refine Kept.let_snd (r := true) (z := z) (p := m) ?_ fun hm => ?_; subst m; rotate_left; clear_value m)
       | (refine Kept.fn_in_snd (r := true) (z := z) (f := m) ?_ fun hm => ?_; subst m; rotate_left; clear_value m)
       | clear_value m)
    | with_reducible apply Module.setTable_kept
    | with_reducible apply Module.setEdition_kept
    | with_reducible apply Module.writeTable_kept
    | with_reducible apply Module.allocPage_kept
    | with_reducible apply Module.setGuild_kept
    | intro x
    | with_reducible apply_assumption -symm -exfalso
    | split

theorem cmdRun_kept {r : Bool} {z m : Module} (h : Kept r z m) (opc : Nat) (a_52 : Capsule) (a_81 : List Byte) :
    Kept r z (cmdRun opc m a_52 a_81) := by
  unfold cmdRun
  repeat' first
    | with_reducible assumption
    | with_reducible apply Module.runStart_kept
    | with_reducible apply Module.graphLoadRun_kept
    | with_reducible apply Module.graphUnloadRun_kept
    | with_reducible apply Module.draftLoadRun_kept
    | with_reducible apply Module.activateRun_kept
    | with_reducible apply Module.unloadRun_kept
    | with_reducible apply Module.pageRun_kept
    | with_reducible apply Module.flipRun_kept
    | with_reducible apply Module.graphDefRun_kept
    | with_reducible apply Module.fallbackRun_kept
    | with_reducible apply Module.editionRun_kept
    | split

theorem Module.runAgain_kept {r : Bool} {z m : Module} (h : Kept r z m) (p : Nat) (e : TallyEntry) (c : Capsule) :
    Kept r z (Module.runAgain m p e c) := by
  unfold Module.runAgain
  repeat' first
    | with_reducible assumption
    | (extract_lets +onlyGivenNames m
       first
       | (refine Kept.let_in (r := r) (z := z) (m := m) ?_ fun hm => ?_; subst m; rotate_left; clear_value m)
       | (refine Kept.let_snd (r := r) (z := z) (p := m) ?_ fun hm => ?_; subst m; rotate_left; clear_value m)
       | clear_value m)
    | with_reducible apply Module.launchFallbacks_kept
    | with_reducible apply Module.setRwk_kept
    | with_reducible apply Module.setCtr_kept
    | with_reducible apply Module.setPtn_kept
    | with_reducible apply Module.fetchInputs_kept
    | with_reducible apply Module.stage_kept
    | with_reducible apply Module.joinWindow_kept
    | with_reducible apply cmdRun_kept
    | split

theorem Module.takeOver_kept {r : Bool} {z m : Module} (h : Kept r z m) (k : Nat) :
    Kept r z (Module.takeOver m k) := by
  unfold Module.takeOver
  repeat' first
    | with_reducible assumption
    | (extract_lets +onlyGivenNames m
       first
       | (refine Kept.let_in (r := r) (z := z) (m := m) ?_ fun hm => ?_; subst m; rotate_left; clear_value m)
       | clear_value m)
    | with_reducible apply Module.setTally_kept
    | with_reducible apply Module.setCtr_kept
    | with_reducible apply Module.count_kept
    | with_reducible apply Module.sendTo_kept
    | with_reducible apply Module.runAgain_kept
    | (with_reducible apply Kept.foldl; intro b hb x)
    | split

theorem Module.lostWork_kept {r : Bool} {z m : Module} (h : Kept r z m) (k : Nat) :
    Kept r z (Module.lostWork m k) := by
  unfold Module.lostWork
  repeat' first
    | with_reducible assumption
    | (extract_lets +onlyGivenNames m
       first
       | (refine Kept.let_in (r := r) (z := z) (m := m) ?_ fun hm => ?_; subst m; rotate_left; clear_value m)
       | clear_value m)
    | with_reducible apply Module.resend_kept
    | with_reducible apply Module.takeAnswer_kept
    | with_reducible apply Module.checkScatter_kept
    | with_reducible apply Module.collMemberLost_kept
    | (with_reducible apply Kept.foldl; intro b hb x)
    | split
    | ((conv => (pattern (Module.mk ..); skip)); with_reducible apply Kept.upd)
    | exact id
    | exact Nat.le_refl _
    | exact List.prefix_refl _
    | exact fun _ => Nat.le_refl _
    | with_reducible exact rfl
    | exact List.length_map ..
    | exact hardUsed_map _ _ fun _ => Nat.le_refl _

theorem Module.reroute_kept {r : Bool} {z m : Module} (h : Kept r z m) (f : Forwarded) :
    Kept r z (Module.reroute m f) := by
  unfold Module.reroute
  repeat' first
    | with_reducible assumption
    | (extract_lets +onlyGivenNames m
       first
       | (refine Kept.let_in (r := r) (z := z) (m := m) ?_ fun hm => ?_; subst m; rotate_left; clear_value m)
       | clear_value m)
    | with_reducible apply Module.setCtr_kept
    | with_reducible apply Module.setPtn_kept
    | with_reducible apply Module.enter_kept
    | with_reducible apply cmdRun_kept
    | split
    | intro x

theorem Module.lostForwarded_kept {r : Bool} {z m : Module} (h : Kept r z m) (k : Nat) :
    Kept r z (Module.lostForwarded m k) := by
  unfold Module.lostForwarded
  repeat' first
    | (extract_lets +onlyGivenNames m; subst m)
    | with_reducible apply Module.setCtr_kept
    | with_reducible apply Module.answerDirect_kept
    | with_reducible apply Module.reroute_kept
    | (with_reducible apply Kept.foldl; intro b hb x)
    | intro x
    | with_reducible apply_assumption -symm -exfalso
    | split

theorem Module.lostParts_kept {r : Bool} {z m : Module} (h : Kept r z m) (k : Nat) :
    Kept r z (Module.lostParts m k) := by
  unfold Module.lostParts
  repeat' first
    | with_reducible assumption
    | with_reducible apply Module.partDone_kept
    | (with_reducible apply Kept.foldl; intro b hb x)
    | split

theorem Module.askAgain_kept {r : Bool} {z m : Module} (h : Kept r z m) (old : Nat) :
    Kept r z (Module.askAgain m old) := by
  unfold Module.askAgain
  repeat' first
    | with_reducible assumption
    | (extract_lets +onlyGivenNames m; refine Kept.let_in (r := r) (z := z) (m := m) ?_ fun hm => ?_; subst m; rotate_left; clear_value m)
    | with_reducible apply Module.takeRequest_kept
    | with_reducible apply Module.setWait_kept
    | with_reducible apply Module.sendTo_kept
    | with_reducible apply Module.tellDrained_kept
    | with_reducible apply Module.toWarden_kept
    | with_reducible apply Module.packet_kept
    | (with_reducible apply Kept.foldl; intro b hb x)
    | split

theorem Module.checkBreaks_kept {r : Bool} {z m : Module} (h : Kept r z m) :
    Kept r z (Module.checkBreaks m) := by
  unfold Module.checkBreaks
  repeat' first
    | with_reducible assumption
    | with_reducible apply Module.setFab_kept
    | with_reducible apply Module.post_kept
    | (with_reducible apply Kept.foldl; intro b hb x)

theorem Module.wardenLost_kept {r : Bool} {z m : Module} (h : Kept r z m) (k : Nat) :
    Kept r z (Module.wardenLost m k) := by
  unfold Module.wardenLost
  repeat' first
    | with_reducible assumption
    | with_reducible apply Module.setGuild_kept
    | with_reducible apply Module.compareCharters_kept
    | with_reducible apply Module.checkBreaks_kept
    | with_reducible apply Module.checkRelease_kept
    | with_reducible apply Module.decideAgr_kept
    | split

theorem Module.finishDrain_kept {r : Bool} {z m : Module} (h : Kept r z m) :
    Kept r z (Module.finishDrain m) := by
  unfold Module.finishDrain
  repeat' first
    | with_reducible assumption
    | with_reducible apply Module.setCtr_kept
    | with_reducible apply Module.setMode_kept

theorem Module.applyLost_kept {r : Bool} {z m : Module} (h : Kept r z m) (e : Nat) (k : Nat) (cause : Nat)
    (routes : List (Nat × Word)) :
    Kept r z (Module.applyLost m e k cause routes) := by
  unfold Module.applyLost
  repeat' first
    | with_reducible assumption
    | (extract_lets +onlyGivenNames m
       first
       | (refine Kept.let_in (r := r) (z := z) (m := m) ?_ fun hm => ?_; subst m; rotate_left; clear_value m)
       | clear_value m)
    | with_reducible apply Module.setGuild_kept
    | with_reducible apply Module.dropFlows_kept
    | with_reducible apply Module.takeRoutes_kept
    | with_reducible apply Module.finishDrain_kept
    | with_reducible apply Module.recordEpoch_kept
    | with_reducible apply Module.lostParts_kept
    | with_reducible apply Module.lostForwarded_kept
    | with_reducible apply Module.lostWork_kept
    | with_reducible apply Module.askAgain_kept
    | with_reducible apply Module.checkTwin_kept
    | with_reducible apply Module.takeOver_kept
    | with_reducible apply Module.wardenLost_kept
    | with_reducible apply Module.ackTo_kept
    | split

theorem execLost_kept (epoch : Word) (member : MemberId) (cause : Byte) (routes : List (Nat × Word)) (s : State) :
    Keeps true s (execLost epoch member cause routes s) := by
  unfold execLost
  refine Keeps.on fun z m h => ?_
  repeat' first
    | with_reducible assumption
    | (extract_lets +onlyGivenNames m; clear_value m)
    | with_reducible apply Module.answerOutcome_kept
    | with_reducible apply Module.applyLost_kept
    | split

theorem execRoutes_kept (epoch : Word) (routes : List (Nat × Word)) (s : State) :
    Keeps true s (execRoutes epoch routes s) := by
  unfold execRoutes
  refine Keeps.on fun z m h => ?_
  repeat' first
    | with_reducible assumption
    | (extract_lets +onlyGivenNames m
       first
       | (refine Kept.let_in (r := true) (z := z) (m := m) ?_ fun hm => ?_; subst m; rotate_left; clear_value m)
       | clear_value m)
    | with_reducible apply Module.answerOutcome_kept
    | with_reducible apply Module.recordEpoch_kept
    | with_reducible apply Module.takeRoutes_kept
    | with_reducible apply Module.ackTo_kept
    | split

theorem execProbeExpire_kept (member : MemberId) (s : State) :
    Keeps true s (execProbeExpire member s) := by
  unfold execProbeExpire
  refine Keeps.on fun z m h => ?_
  repeat' first
    | with_reducible assumption
    | with_reducible apply Module.declareLost_kept
    | with_reducible apply Module.until_kept
    | split

theorem Module.fence_kept {r : Bool} {z m : Module} (h : Kept r z m) (side : List Nat) :
    Kept r z (Module.fence m side) := by
  unfold Module.fence
  repeat' first
    | with_reducible assumption
    | with_reducible apply Module.cancelInst_kept
    | with_reducible apply Module.setGuild_kept
    | with_reducible apply Module.setMode_kept
    | with_reducible apply Module.setFab_kept
    | with_reducible apply Module.dropFlows_kept
    | with_reducible apply Module.sendJoin_kept
    | with_reducible apply Module.post_kept
    | (with_reducible apply Kept.foldl; intro b hb x)
    | ((conv => (pattern (Module.mk ..); skip)); with_reducible apply Kept.upd)
    | exact id
    | exact Nat.le_refl _
    | exact List.prefix_refl _
    | exact fun _ => Nat.le_refl _
    | with_reducible exact rfl
    | exact List.length_map ..

theorem Module.takeWarden_kept {r : Bool} {z m : Module} (h : Kept r z m) :
    Kept r z (Module.takeWarden m) := by
  unfold Module.takeWarden
  repeat' first
    | with_reducible assumption
    | (extract_lets +onlyGivenNames m
       first
       | (refine Kept.let_in (r := r) (z := z) (m := m) ?_ fun hm => ?_; subst m; rotate_left; clear_value m)
       | clear_value m)
    | with_reducible apply Module.setGuild_kept
    | with_reducible apply Module.declareOld_kept
    | with_reducible apply Module.packet_kept
    | (with_reducible apply Kept.foldl; intro b hb x)
    | split

theorem execFenceExpire_kept (reached : Word) (s : State) :
    Keeps true s (execFenceExpire reached s) := by
  unfold execFenceExpire
  refine Keeps.on fun z m h => ?_
  repeat' first
    | with_reducible assumption
    | (extract_lets +onlyGivenNames m
       first
       | (refine Kept.let_in (r := true) (z := z) (m := m) ?_ fun hm => ?_; subst m; rotate_left; clear_value m)
       | clear_value m)
    | with_reducible apply Module.until_kept
    | with_reducible apply Module.fence_kept
    | with_reducible apply Module.setGuild_kept
    | with_reducible apply Module.takeWarden_kept
    | split

theorem execPairSwitchDone_kept (pair : Fin 16) (through : Bool) (s : State) :
    Keeps true s (execPairSwitchDone pair through s) := by
  unfold execPairSwitchDone
  refine Keeps.on fun z m h => ?_
  repeat' first
    | with_reducible assumption
    | (extract_lets +onlyGivenNames m
       first
       | (refine Kept.let_in (r := true) (z := z) (m := m) ?_ fun hm => ?_; subst m; rotate_left; clear_value m)
       | clear_value m)
    | with_reducible apply Module.setFab_kept
    | with_reducible apply Module.setPort_kept
    | split

theorem execPortTrain_kept (port : LPort) (peer : PeerIdent) (s : State) :
    Keeps true s (execPortTrain port peer s) := by
  unfold execPortTrain
  refine Keeps.on fun z m h => ?_
  repeat' first
    | with_reducible assumption
    | (extract_lets +onlyGivenNames m
       first
       | (refine Kept.let_in (r := true) (z := z) (m := m) ?_ fun hm => ?_; subst m; rotate_left; clear_value m)
       | clear_value m)
    | with_reducible apply Module.setPort_kept
    | with_reducible apply Module.post_kept
    | split

theorem execHeldRetry_kept (port : LPort) (s : State) :
    Keeps true s (execHeldRetry port s) := by
  unfold execHeldRetry
  refine Keeps.on fun z m h => ?_
  repeat' first
    | with_reducible assumption
    | (extract_lets +onlyGivenNames m; clear_value m)
    | with_reducible apply Module.setPort_kept
    | with_reducible apply Module.until_kept
    | split

theorem Module.takeKeys_kept {r : Bool} {z m : Module} (h : Kept r z m) (p : Nat) (secret : List Byte) (flip : Bool)
    (state : Nat) :
    Kept r z (Module.takeKeys m p secret flip state) := by
  unfold Module.takeKeys
  repeat' first
    | with_reducible assumption
    | with_reducible apply Module.setPort_kept

theorem Module.reportLink_kept {r : Bool} {z m : Module} (h : Kept r z m) (x : FabMsg) :
    Kept r z (Module.reportLink m x) := by
  unfold Module.reportLink
  repeat' first
    | with_reducible assumption
    | with_reducible apply Module.toWarden_kept
    | split

theorem execKeyAgree_kept (port : LPort) (certOk : Bool) (sigOk : Bool) (secret : List Byte) (s : State) :
    Keeps true s (execKeyAgree port certOk sigOk secret s) := by
  unfold execKeyAgree
  refine Keeps.on fun z m h => ?_
  repeat' first
    | with_reducible assumption
    | (extract_lets +onlyGivenNames m; clear_value m)
    | with_reducible apply Module.post_kept
    | with_reducible apply Module.setPort_kept
    | with_reducible apply Module.checkTrained_kept
    | with_reducible apply Module.reportLink_kept
    | with_reducible apply Module.takeKeys_kept
    | split

theorem execKeyRenew_kept (port : LPort) (secret : List Byte) (s : State) :
    Keeps true s (execKeyRenew port secret s) := by
  unfold execKeyRenew
  refine Keeps.on fun z m h => ?_
  repeat' first
    | with_reducible assumption
    | (extract_lets +onlyGivenNames m; clear_value m)
    | with_reducible apply Module.takeKeys_kept
    | split

theorem Module.unspare_kept {r : Bool} {z m : Module} (h : Kept r z m) (p : Nat) :
    Kept r z (Module.unspare m p) := by
  unfold Module.unspare
  repeat' first
    | with_reducible assumption
    | with_reducible apply Module.setFab_kept
    | split

theorem Module.dropPort_kept {r : Bool} {z m : Module} (h : Kept r z m) (p : Nat) (g : Port → Port) :
    Kept r z (Module.dropPort m p g) := by
  unfold Module.dropPort
  repeat' first
    | with_reducible assumption
    | with_reducible apply Module.unspare_kept
    | with_reducible apply Module.setFab_kept
    | with_reducible apply Module.setPort_kept

theorem Module.portFail_kept {r : Bool} {z m : Module} (h : Kept r z m) (p : Nat) :
    Kept r z (Module.portFail m p) := by
  unfold Module.portFail
  repeat' first
    | with_reducible assumption
    | (extract_lets +onlyGivenNames m
       first
       | (refine Kept.let_in (r := r) (z := z) (m := m) ?_ fun hm => ?_; subst m; rotate_left; clear_value m)
       | clear_value m)
    | with_reducible apply Module.post_kept
    | with_reducible apply Module.reportLink_kept
    | with_reducible apply Module.dropPort_kept
    | with_reducible apply Module.degrade_kept
    | with_reducible apply Module.setPort_kept
    | split

theorem Module.discardFrame_kept {r : Bool} {z m : Module} (h : Kept r z m) (p : Nat) (auth : Bool) :
    Kept r z (Module.discardFrame m p auth) := by
  unfold Module.discardFrame
  repeat' first
    | with_reducible assumption
    | (extract_lets +onlyGivenNames m
       first
       | (refine Kept.let_in (r := r) (z := z) (m := m) ?_ fun hm => ?_; subst m; rotate_left; clear_value m)
       | clear_value m)
    | with_reducible apply Module.setPort_kept
    | with_reducible apply Module.portFail_kept
    | split

theorem execLinkFrameReceive_kept (port : LPort) (codewordOk : Bool) (tagOk : Bool) (corrected : Nat) (s : State) :
    Keeps true s (execLinkFrameReceive port codewordOk tagOk corrected s) := by
  unfold execLinkFrameReceive
  refine Keeps.on fun z m h => ?_
  repeat' first
    | with_reducible assumption
    | (extract_lets +onlyGivenNames m
       first
       | (refine Kept.let_in (r := true) (z := z) (m := m) ?_ fun hm => ?_; subst m; rotate_left; clear_value m)
       | clear_value m)
    | with_reducible apply Module.count_kept
    | with_reducible apply Module.discardFrame_kept
    | with_reducible apply Module.setPort_kept
    | split

theorem execPortFail_kept (port : LPort) (s : State) :
    Keeps true s (execPortFail port s) := by
  unfold execPortFail
  refine Keeps.on fun z m h => ?_
  repeat' first
    | with_reducible assumption
    | with_reducible apply Module.portFail_kept

theorem execLinkDown_kept (port : LPort) (s : State) :
    Keeps true s (execLinkDown port s) := by
  unfold execLinkDown
  refine Keeps.on fun z m h => ?_
  repeat' first
    | with_reducible assumption
    | (extract_lets +onlyGivenNames m; clear_value m)
    | with_reducible apply Module.reportLink_kept
    | with_reducible apply Module.dropPort_kept
    | split

theorem Module.takeLinkDown_kept {r : Bool} {z m : Module} (h : Kept r z m) (src : Nat) (port : Nat) :
    Kept r z (Module.takeLinkDown m src port) := by
  unfold Module.takeLinkDown
  repeat' first
    | with_reducible assumption
    | (extract_lets +onlyGivenNames m; refine Kept.let_in (r := r) (z := z) (m := m) ?_ fun hm => ?_; subst m; rotate_left; clear_value m)
    | with_reducible apply Module.setGuild_kept
    | with_reducible apply Module.declareLost_kept
    | with_reducible apply Module.packet_kept
    | split

theorem Module.takeLinkUp_kept {r : Bool} {z m : Module} (h : Kept r z m) (src : Nat) (port : Nat) :
    Kept r z (Module.takeLinkUp m src port) := by
  unfold Module.takeLinkUp
  repeat' first
    | with_reducible assumption
    | (extract_lets +onlyGivenNames m
       first
       | (refine Kept.let_in (r := r) (z := z) (m := m) ?_ fun hm => ?_; subst m; rotate_left; clear_value m)
       | (refine Kept.let_snd (r := r) (z := z) (p := m) ?_ fun hm => ?_; subst m; rotate_left; clear_value m)
       | clear_value m)
    | with_reducible apply Module.setGuild_kept
    | with_reducible apply Module.routeSet_kept
    | with_reducible apply Module.toJoined_kept
    | split

theorem Module.takeRebuildReady_kept {r : Bool} {z m : Module} (h : Kept r z m) (src : Nat) (k : Nat) :
    Kept r z (Module.takeRebuildReady m src k) := by
  unfold Module.takeRebuildReady
  repeat' first
    | with_reducible assumption
    | (extract_lets +onlyGivenNames m
       first
       | (refine Kept.let_in (r := r) (z := z) (m := m) ?_ fun hm => ?_; subst m; rotate_left; clear_value m)
       | clear_value m)
    | with_reducible apply Module.setGuild_kept
    | with_reducible apply Module.runJoin_kept
    | split

theorem Module.control_kept {r : Bool} {z m : Module} (h : Kept r z m) (src : Nat) (pl : List Byte) :
    Kept r z (Module.control m src pl) := by
  unfold Module.control
  repeat' first
    | with_reducible assumption
    | with_reducible apply Module.takeLinkDown_kept
    | with_reducible apply Module.startRebuild_kept
    | with_reducible apply Module.declareLost_kept
    | with_reducible apply Module.packet_kept
    | with_reducible apply Module.setGuild_kept
    | with_reducible apply Module.takeLinkUp_kept
    | with_reducible apply Module.takeRebuildReady_kept
    | split

theorem Module.transit_kept {r : Bool} {z m : Module} (h : Kept r z m) (h_35 : PacketHeader) (payload : List Byte) :
    Kept r z (Module.transit m h_35 payload) := by
  unfold Module.transit
  repeat' first
    | with_reducible assumption
    | (extract_lets +onlyGivenNames m; clear_value m)
    | with_reducible apply Module.send_kept
    | split

theorem Module.takeAck_kept {r : Bool} {z m : Module} (h : Kept r z m) (src : Nat) (vc : Nat) (ack : Nat) :
    Kept r z (Module.takeAck m src vc ack) := by
  unfold Module.takeAck
  repeat' first
    | with_reducible assumption
    | (extract_lets +onlyGivenNames m; clear_value m)
    | with_reducible apply Module.setFlow_kept
    | split

theorem execPacketReceive_kept (port : LPort) (h1 : PacketHeader) (payload : List Byte) (crc : BitVec 32) (s : State) :
    Keeps true s (execPacketReceive port h1 payload crc s) := by
  unfold execPacketReceive
  refine Keeps.on fun z m h => ?_
  repeat' first
    | with_reducible assumption
    | (extract_lets +onlyGivenNames m
       first
       | (refine Kept.let_in (r := true) (z := z) (m := m) ?_ fun hm => ?_; subst m; rotate_left; clear_value m)
       | clear_value m)
    | with_reducible apply Module.transit_kept
    | with_reducible apply Module.send_kept
    | with_reducible apply Module.count_kept
    | with_reducible apply Module.control_kept
    | with_reducible apply Module.takeAck_kept
    | with_reducible apply Module.setFlow_kept
    | split

theorem Module.sendAgain_kept {r : Bool} {z m : Module} (h : Kept r z m) (dst : Nat) (vc : Nat) (pseq : Nat) :
    Kept r z (Module.sendAgain m dst vc pseq) := by
  unfold Module.sendAgain
  repeat' first
    | with_reducible assumption
    | (extract_lets +onlyGivenNames m; clear_value m)
    | with_reducible apply Module.send_kept
    | with_reducible apply Module.setFlow_kept
    | split

theorem execE2eTimeout_kept (dst : MemberId) (vc : Fin 4) (pseq : BitVec 32) (s : State) :
    Keeps true s (execE2eTimeout dst vc pseq s) := by
  unfold execE2eTimeout
  refine Keeps.on fun z m h => ?_
  repeat' first
    | with_reducible assumption
    | with_reducible apply Module.sendAgain_kept
    | with_reducible apply Module.until_kept
    | split

theorem execE2e_kept (dst : MemberId) (vc : Fin 4) (pseq : BitVec 32) (s : State) :
    Keeps true s (execE2e dst vc pseq s) := by
  unfold execE2e
  refine Keeps.on fun z m h => ?_
  repeat' first
    | with_reducible assumption
    | with_reducible apply Module.sendAgain_kept
    | split

theorem execTokenPacket_kept (src : MemberId) (ptn : PtnId) (payload : List Byte) (s : State) :
    Keeps true s (execTokenPacket src ptn payload s) := by
  unfold execTokenPacket
  refine Keeps.on fun z m h => ?_
  repeat' first
    | with_reducible assumption
    | split
    | ((conv => (pattern (Module.mk ..); skip)); with_reducible apply Kept.upd)
    | exact id
    | exact Nat.le_refl _
    | exact List.prefix_refl _
    | exact fun _ => Nat.le_refl _
    | with_reducible exact rfl

end Sys2Proof.Machine
end

