-- ==== Sys2Proof/Laws/KeptCounter.lean ====
section
/-! SUPPORT. `Kept` for the operations of the counter: one lemma each. -/
namespace Sys2Proof.Machine

theorem rerun_kept {r : Bool} {z m : Module} (h : Kept r z m) (o : Origin) (a_71 : Capsule) (a_100 : List Byte) :
    Kept r z (rerun o m a_71 a_100) := by
  unfold rerun
  repeat' first
    | with_reducible assumption
    | with_reducible apply Module.fallbackRun_kept
    | with_reducible apply cmdRun_kept
    | split

theorem execAdmissionRetry_kept (ptn : PtnId) (s : State) :
    Keeps true s (execAdmissionRetry ptn s) := by
  unfold execAdmissionRetry
  refine Keeps.on fun z m h => ?_
  repeat' first
    | with_reducible assumption
    | with_reducible apply Module.setPtn_kept
    | with_reducible apply Module.admitWaiting_kept
    | with_reducible apply Module.enter_kept
    | with_reducible apply rerun_kept
    | (with_reducible apply Kept.foldl; intro b hb x)
    | intro x

theorem execInputFetchDone_kept (ptn : PtnId) (reqid : Word) (inputs : List (List Byte)) (s : State) :
    Keeps true s (execInputFetchDone ptn reqid inputs s) := by
  unfold execInputFetchDone
  refine Keeps.on fun z m h => ?_
  repeat' first
    | with_reducible assumption
    | (extract_lets +onlyGivenNames m
       first
       | (refine Kept.let_in (r := true) (z := z) (m := m) ?_ fun hm => ?_; subst m; rotate_left; clear_value m)
       | clear_value m)
    | with_reducible apply Module.setPtn_kept
    | with_reducible apply cmdRun_kept
    | with_reducible apply Module.inputsFetched_kept
    | split

theorem Module.slotBack_kept {r : Bool} {z m : Module} (h : Kept r z m) (c : Capsule) (d : Delivery) :
    Kept r z (Module.slotBack m c d) := by
  unfold Module.slotBack
  repeat' first
    | with_reducible assumption
    | (extract_lets +onlyGivenNames m; clear_value m)
    | with_reducible apply Module.setQp_kept
    | split

theorem Module.takeReply_kept {r : Bool} {z m : Module} (h : Kept r z m) (f : Forwarded) (a : Answer) (data : List Byte) :
    Kept r z (Module.takeReply m f a data) := by
  unfold Module.takeReply
  repeat' first
    | with_reducible assumption
    | with_reducible apply Module.setCtr_kept
    | with_reducible apply Module.sendTo_kept
    | with_reducible apply Module.enqueue_kept
    | with_reducible apply Module.slotBack_kept
    | with_reducible apply Module.deliverPush_kept
    | with_reducible apply Module.deliver_kept
    | split

theorem Module.commandReply_kept {r : Bool} {z m : Module} (h : Kept r z m) (src : Nat) (c : Capsule) (data : List Byte)
    (status : Nat) (value : Nat) :
    Kept r z (Module.commandReply m src c data status value) := by
  unfold Module.commandReply
  repeat' first
    | with_reducible assumption
    | (extract_lets +onlyGivenNames m
       first
       | (refine Kept.let_in (r := r) (z := z) (m := m) ?_ fun hm => ?_; subst m; rotate_left; clear_value m)
       | clear_value m)
    | with_reducible apply Module.partDone_kept
    | with_reducible apply Module.decideDraft_kept
    | with_reducible apply Module.decideBegin_kept
    | with_reducible apply Module.noteEdition_kept
    | with_reducible apply Module.unload_kept
    | with_reducible apply Module.undefine_kept
    | with_reducible apply Module.undefineDone_kept
    | with_reducible apply Module.answerDirect_kept
    | with_reducible apply Module.setCtr_kept
    | with_reducible apply Module.takeReply_kept
    | split

theorem Module.takeMoved_kept {r : Bool} {z m : Module} (h : Kept r z m) (src : Nat) (elapsed : Nat) (c : Capsule)
    (data : List Byte) (e : TallyEntry) :
    Kept r z (Module.takeMoved m src elapsed c data e) := by
  unfold Module.takeMoved
  repeat' first
    | with_reducible assumption
    | with_reducible apply Module.count_kept
    | with_reducible apply Module.setTally_kept
    | with_reducible apply Module.sendTo_kept
    | with_reducible apply Module.runStart_kept
    | split

theorem Module.markAgain_kept {r : Bool} {z m : Module} (h : Kept r z m) (c : Capsule) :
    Kept r z (Module.markAgain m c) := by
  unfold Module.markAgain
  repeat' first
    | with_reducible assumption
    | with_reducible apply Module.setPtn_kept

theorem Module.commandHere_kept {r : Bool} {z m : Module} (h : Kept r z m) (src : Nat) (elapsed : Nat) (c : Capsule)
    (data : List Byte) :
    Kept r z (Module.commandHere m src elapsed c data) := by
  unfold Module.commandHere
  repeat' first
    | with_reducible assumption
    | (extract_lets +onlyGivenNames m
       first
       | (refine Kept.let_in (r := r) (z := z) (m := m) ?_ fun hm => ?_; subst m; rotate_left; clear_value m)
       | (refine Kept.let_fst (r := r) (z := z) (p := m) ?_ fun hm => ?_; subst m; rotate_left; clear_value m)
       | clear_value m)
    | with_reducible apply Module.answerDirect_kept
    | with_reducible apply Module.cancel_kept
    | with_reducible apply Module.markAgain_kept
    | with_reducible apply Module.takeMoved_kept
    | with_reducible apply Module.enter_kept
    | with_reducible apply Module.runStart_kept
    | with_reducible apply Module.takeRequest_kept
    | with_reducible apply Module.unloadPart_kept
    | with_reducible apply Module.sendTo_kept
    | with_reducible apply cmdRun_kept
    | split
    | intro x

theorem execCommandPacket_kept (src : MemberId) (reply : Bool) (elapsed : Nat) (c : Capsule) (data : List Byte)
    (status : Byte) (value : Word) (s : State) :
    Keeps true s (execCommandPacket src reply elapsed c data status value s) := by
  unfold execCommandPacket
  refine Keeps.on fun z m h => ?_
  repeat' first
    | with_reducible assumption
    | with_reducible apply Module.commandReply_kept
    | with_reducible apply Module.commandHere_kept
    | split

theorem Module.putRecord_kept {r : Bool} {z m : Module} (h : Kept r z m) (p : Nat) (e : TallyEntry) :
    Kept r z (Module.putRecord m p e) := by
  unfold Module.putRecord
  repeat' first
    | with_reducible assumption
    | with_reducible apply Module.setTally_kept
    | with_reducible apply Module.setPtn_kept
    | with_reducible apply Module.evictTally_kept
    | split

theorem Module.endCopyBack_kept {r : Bool} {z m : Module} (h : Kept r z m) :
    Kept r z (Module.endCopyBack m) := by
  unfold Module.endCopyBack
  repeat' first
    | with_reducible assumption
    | (extract_lets +onlyGivenNames m
       first
       | (refine Kept.let_in (r := r) (z := z) (m := m) ?_ fun hm => ?_; subst m; rotate_left; clear_value m)
       | clear_value m)
    | with_reducible apply Module.setGuild_kept
    | with_reducible apply Module.degradeAll_kept
    | split

theorem execBulk_kept (src : MemberId) (kind : Nat) (ptn : PtnId) (payload : List Byte) (s : State) :
    Keeps true s (execBulk src kind ptn payload s) := by
  unfold execBulk
  refine Keeps.on fun z m h => ?_
  repeat' first
    | with_reducible assumption
    | (extract_lets +onlyGivenNames m
       first
       | (refine Kept.let_in (r := true) (z := z) (m := m) ?_ fun hm => ?_; subst m; rotate_left; clear_value m)
       | (refine Kept.let_fst (r := true) (z := z) (p := m) ?_ fun hm => ?_; subst m; rotate_left; clear_value m)
       | clear_value m)
    | with_reducible apply Module.draftPart_kept
    | with_reducible apply Module.sendTo_kept
    | with_reducible apply Module.loadPart_kept
    | with_reducible apply Module.sealFor_kept
    | with_reducible apply Module.editionPart_kept
    | with_reducible apply Module.graphPart_kept
    | with_reducible apply Module.putRecord_kept
    | with_reducible apply Module.takeRequest_kept
    | with_reducible apply Module.post_kept
    | with_reducible apply Module.checkDrain_kept
    | with_reducible apply Module.setPwr_kept
    | with_reducible apply Module.setGuild_kept
    | with_reducible apply Module.endCopyBack_kept
    | split
    | exact fun _ => id

theorem Module.pumpPort_kept {r : Bool} {z m : Module} (h : Kept r z m) (h_35 : Nat) :
    Kept r z (Module.pumpPort m h_35) := by
  unfold Module.pumpPort
  repeat' first
    | with_reducible assumption
    | with_reducible apply Module.pump_kept
    | (with_reducible apply Kept.foldl; intro b hb x)

theorem execLinkState_kept (port : EPort) (up : Bool) (pfc : Bool) (s : State) :
    Keeps true s (execLinkState port up pfc s) := by
  unfold execLinkState
  refine Keeps.on fun z m h => ?_
  repeat' first
    | with_reducible assumption
    | (extract_lets +onlyGivenNames m
       first
       | (refine Kept.let_in (r := true) (z := z) (m := m) ?_ fun hm => ?_; subst m; rotate_left; clear_value m)
       | clear_value m)
    | with_reducible apply Module.setCtr_kept
    | with_reducible apply Module.pumpPort_kept
    | with_reducible apply Module.postBut_kept
    | split

theorem execPauseFrame_kept (port : EPort) (prio : BitVec 3) (ns : Nat) (s : State) :
    Keeps true s (execPauseFrame port prio ns s) := by
  unfold execPauseFrame
  refine Keeps.on fun z m h => ?_
  repeat' first
    | with_reducible assumption
    | (extract_lets +onlyGivenNames m
       first
       | (refine Kept.let_in (r := true) (z := z) (m := m) ?_ fun hm => ?_; subst m; rotate_left; clear_value m)
       | clear_value m)
    | with_reducible apply Module.count_kept
    | with_reducible apply Module.pumpPort_kept
    | with_reducible apply Module.setCtr_kept
    | split

theorem execPfcPauseExpire_kept (port : EPort) (s : State) :
    Keeps true s (execPfcPauseExpire port s) := by
  unfold execPfcPauseExpire
  refine Keeps.on fun z m h => ?_
  repeat' first
    | with_reducible assumption
    | with_reducible apply Module.pumpPort_kept
    | with_reducible apply Module.setCtr_kept
    | with_reducible apply Module.until_kept
    | split

theorem execArpRequest_kept (port : EPort) (ip : BitVec 32) (s : State) :
    Keeps true s (execArpRequest port ip s) := by
  unfold execArpRequest
  refine Keeps.on fun z m h => ?_
  repeat' first
    | with_reducible assumption
    | with_reducible apply Module.send_kept
    | split

theorem execNeighbourSolicitation_kept (port : EPort) (ip : BitVec 128) (s : State) :
    Keeps true s (execNeighbourSolicitation port ip s) := by
  unfold execNeighbourSolicitation
  refine Keeps.on fun z m h => ?_
  repeat' first
    | with_reducible assumption
    | with_reducible apply Module.send_kept
    | split

theorem Module.qpError_kept {r : Bool} {z m : Module} (h : Kept r z m) (q : Nat) (cause : Nat) :
    Kept r z (Module.qpError m q cause) := by
  unfold Module.qpError
  repeat' first
    | with_reducible assumption
    | with_reducible apply Module.count_kept
    | with_reducible apply Module.setQp_kept
    | with_reducible apply Module.postBut_kept
    | with_reducible apply Module.levelCPeerLost_kept
    | split

theorem Module.nak_kept {r : Bool} {z m : Module} (h : Kept r z m) (q : Nat) (code : Nat) :
    Kept r z (Module.nak m q code) := by
  unfold Module.nak
  repeat' first
    | with_reducible assumption
    | with_reducible apply Module.count_kept
    | with_reducible apply Module.send_kept

theorem execUnsupportedVerb_kept (qp : Nat) (s : State) :
    Keeps true s (execUnsupportedVerb qp s) := by
  unfold execUnsupportedVerb
  refine Keeps.on fun z m h => ?_
  repeat' first
    | with_reducible assumption
    | with_reducible apply Module.qpError_kept
    | with_reducible apply Module.nak_kept
    | split

theorem execAckTimeout_kept (qp : Nat) (s : State) :
    Keeps true s (execAckTimeout qp s) := by
  unfold execAckTimeout
  refine Keeps.on fun z m h => ?_
  repeat' first
    | with_reducible assumption
    | with_reducible apply Module.qpError_kept

theorem Module.fetchFailed_kept {r : Bool} {z m : Module} (h : Kept r z m) (qp : Nat) (reqid : Word) :
    KeptSome r z (Module.fetchFailed m qp reqid) := by
  unfold Module.fetchFailed
  repeat' first
    | with_reducible assumption
    | (extract_lets +onlyGivenNames m; refine Kept.let_in (r := r) (z := z) (m := m) ?_ fun hm => ?_; subst m; rotate_left; clear_value m)
    | with_reducible apply KeptSome.some
    | with_reducible apply KeptSome.none
    | with_reducible apply KeptSome.findSome
    | with_reducible apply Module.setPtn_kept
    | with_reducible apply Module.checkDrain_kept
    | with_reducible apply Module.recordDone_kept
    | with_reducible apply Module.dropInputs_kept
    | with_reducible apply Module.setCtr_kept
    | with_reducible apply Module.refuseTo_kept
    | with_reducible apply Module.slotBack_kept
    | split
    | intro x

theorem execNakReceive_kept (qp : Nat) (op : Nat) (reqid : Word) (entry : Byte) (s : State) :
    Keeps true s (execNakReceive qp op reqid entry s) := by
  unfold execNakReceive
  refine Keeps.on fun z m h => ?_
  repeat' first
    | with_reducible assumption
    | with_reducible apply Module.fetchFailed_kept
    | with_reducible apply Module.postBut_kept
    | with_reducible apply Module.qpError_kept
    | split
    | refine KeptSome.out (by with_reducible assumption) ?_

theorem execRnrRetry_kept (qp : Nat) (taken : Bool) (s : State) :
    Keeps true s (execRnrRetry qp taken s) := by
  unfold execRnrRetry
  refine Keeps.on fun z m h => ?_
  repeat' first
    | with_reducible assumption
    | with_reducible apply Module.pump_kept
    | with_reducible apply Module.setQp_kept
    | with_reducible apply Module.send_kept
    | split

theorem execEcnMarkedReceive_kept (qp : Nat) (s : State) :
    Keeps true s (execEcnMarkedReceive qp s) := by
  unfold execEcnMarkedReceive
  refine Keeps.on fun z m h => ?_
  repeat' first
    | with_reducible assumption
    | (extract_lets +onlyGivenNames m; clear_value m)
    | with_reducible apply Module.setQp_kept
    | with_reducible apply Module.send_kept
    | split

theorem execCnpReceive_kept (qp : Nat) (s : State) :
    Keeps true s (execCnpReceive qp s) := by
  unfold execCnpReceive
  refine Keeps.on fun z m h => ?_
  repeat' first
    | with_reducible assumption
    | (extract_lets +onlyGivenNames m; refine Kept.let_in (r := true) (z := z) (m := m) ?_ fun hm => ?_; subst m; rotate_left; clear_value m)
    | with_reducible apply Module.count_kept
    | with_reducible apply Module.setQp_kept
    | split

theorem execRateIncrease_kept (qp : Nat) (s : State) :
    Keeps true s (execRateIncrease qp s) := by
  unfold execRateIncrease
  refine Keeps.on fun z m h => ?_
  repeat' first
    | with_reducible assumption
    | with_reducible apply Module.until_kept
    | with_reducible apply Module.setQp_kept
    | split

theorem Module.dropNotice_kept {r : Bool} {z m : Module} (h : Kept r z m) (q : Nat) :
    Kept r z (Module.dropNotice m q) := by
  unfold Module.dropNotice
  repeat' first
    | with_reducible assumption
    | with_reducible apply Module.count_kept
    | with_reducible apply Module.setQp_kept
    | split

theorem Module.queueNotice_kept {r : Bool} {z m : Module} (h : Kept r z m) (q : Nat) (n : Notice) :
    Kept r z (Module.queueNotice m q n) := by
  unfold Module.queueNotice
  repeat' first
    | with_reducible assumption
    | (extract_lets +onlyGivenNames m; subst m)
    | with_reducible apply Module.dropNotice_kept
    | with_reducible apply Module.setQp_kept
    | with_reducible apply Module.pump_kept
    | split

theorem Module.ringNotice_kept {r : Bool} {z m : Module} (h : Kept r z m) (n : Notice) :
    Kept r z (Module.ringNotice m n) := by
  unfold Module.ringNotice
  repeat' first
    | with_reducible assumption
    | with_reducible apply Module.count_kept
    | with_reducible apply Module.setCtr_kept
    | split

theorem Module.deliverOwn_kept {r : Bool} {z m : Module} (h : Kept r z m) (n : Notice) (but : List Nat) :
    Kept r z (Module.deliverOwn m n but).1 := by
  unfold Module.deliverOwn
  repeat' first
    | with_reducible assumption
    | with_reducible apply Module.queueNotice_kept
    | (with_reducible apply Kept.foldl; intro b hb x)

theorem Module.deliverNotice_kept {r : Bool} {z m : Module} (h : Kept r z m) (n : Notice) (but : List Nat) :
    Kept r z (Module.deliverNotice m n but) := by
  unfold Module.deliverNotice
  repeat' first
    | with_reducible assumption
    | (extract_lets +onlyGivenNames m
       first
       | (refine Kept.let_in (r := r) (z := z) (m := m) ?_ fun hm => ?_; subst m; rotate_left; clear_value m)
       | (refine Kept.let_snd (r := r) (z := z) (p := m) ?_ fun hm => ?_; subst m; rotate_left; clear_value m)
       | (refine Kept.let_fst (r := r) (z := z) (p := m) ?_ fun hm => ?_; subst m; rotate_left; clear_value m)
       | clear_value m)
    | with_reducible apply Module.deliverOwn_kept
    | with_reducible apply Module.ringNotice_kept
    | with_reducible apply Module.draw_kept
    | with_reducible apply Module.sendAll_kept
    | with_reducible apply Module.pick_kept
    | with_reducible apply Module.sendTo_kept
    | split

theorem execNoticeDeliver_kept (s : State) :
    Keeps true s (execNoticeDeliver s) := by
  unfold execNoticeDeliver
  refine Keeps.on fun z m h => ?_
  repeat' first
    | with_reducible assumption
    | with_reducible apply Module.deliverNotice_kept
    | with_reducible apply Module.setCtr_kept
    | split

theorem Module.flushPosted_kept {r : Bool} {z m : Module} (h : Kept r z m) :
    Kept r z (Module.flushPosted m) := by
  unfold Module.flushPosted
  repeat' first
    | with_reducible assumption
    | (extract_lets +onlyGivenNames m; refine Kept.let_fst (r := r) (z := z) (p := m) ?_ fun hm => ?_; subst m; rotate_left; clear_value m)
    | with_reducible apply Module.deliverOwn_kept
    | with_reducible apply Module.ringNotice_kept
    | with_reducible apply Module.setCtr_kept
    | (with_reducible apply Kept.foldl; intro b hb x)
    | split

theorem execNoticePacket_kept (src : MemberId) (payload : List Byte) (s : State) :
    Keeps true s (execNoticePacket src payload s) := by
  unfold execNoticePacket
  refine Keeps.on fun z m h => ?_
  repeat' first
    | with_reducible assumption
    | (extract_lets +onlyGivenNames m
       first
       | (refine Kept.let_fst (r := true) (z := z) (p := m) ?_ fun hm => ?_; subst m; rotate_left; clear_value m)
       | clear_value m)
    | with_reducible apply Module.deliverOwn_kept
    | with_reducible apply Module.ringNotice_kept
    | split

theorem execNoticeHoldExpire_kept (qp : Nat) (s : State) :
    Keeps true s (execNoticeHoldExpire qp s) := by
  unfold execNoticeHoldExpire
  refine Keeps.on fun z m h => ?_
  repeat' first
    | with_reducible assumption
    | with_reducible apply Module.dropNotice_kept
    | with_reducible apply Module.until_kept
    | split

theorem Module.clearRing_kept {r : Bool} {z m : Module} (h : Kept r z m) :
    Kept r z (Module.clearRing m) := by
  unfold Module.clearRing
  repeat' first
    | with_reducible assumption
    | with_reducible apply Module.setCtr_kept

theorem execNringClr_kept (s : State) :
    Keeps true s (execNringClr s) := by
  unfold execNringClr
  refine Keeps.on fun z m h => ?_
  repeat' first
    | with_reducible assumption
    | with_reducible apply Module.clearRing_kept

theorem Module.acceptCounter_kept {r : Bool} {z m : Module} (h : Kept r z m) (id : Word) (counter : Nat) :
    Kept r z (Module.acceptCounter m id counter) := by
  unfold Module.acceptCounter
  repeat' first
    | with_reducible assumption
    | with_reducible apply Module.setAsy_kept
    | intro x

theorem Module.sessionFail_kept {r : Bool} {z m : Module} (h : Kept r z m) (id : Word) (f : AuthFail) :
    Kept r z (Module.sessionFail m id f) := by
  unfold Module.sessionFail
  repeat' first
    | with_reducible assumption
    | with_reducible apply Module.draw_kept
    | with_reducible apply Module.post_kept

theorem Module.openQp_kept {r : Bool} {z m : Module} (h : Kept r z m) (port : Nat) (r_53 : SetupRecord) :
    Kept r z (Module.openQp m port r_53) := by
  unfold Module.openQp
  repeat' first
    | with_reducible assumption
    | with_reducible apply Module.pick_kept
    | with_reducible apply Module.draw_kept
    | with_reducible apply Module.send_kept
    | with_reducible apply Module.setCtr_kept

theorem execCmReq_kept (port : EPort) (r : SetupRecord) (counter : BitVec 32) (tag : BitVec 128) (s : State) :
    Keeps true s (execCmReq port r counter tag s) := by
  unfold execCmReq
  refine Keeps.on fun z m h => ?_
  repeat' first
    | (extract_lets +onlyGivenNames m
       first
       | (refine Kept.let_in (r := true) (z := z) (m := m) ?_ fun hm => ?_; subst m; rotate_left; clear_value m)
       | (refine Kept.fn_in_fst (r := true) (z := z) (f := m) ?_ fun hm => ?_; subst m; rotate_left; clear_value m)
       | clear_value m)
    | with_reducible apply Module.send_kept
    | with_reducible apply Module.sessionFail_kept
    | with_reducible apply Module.acceptCounter_kept
    | with_reducible apply Module.openQp_kept
    | intro x
    | with_reducible apply_assumption -symm -exfalso
    | split

theorem execQpClose_kept (qp : Nat) (s : State) :
    Keeps true s (execQpClose qp s) := by
  unfold execQpClose
  refine Keeps.on fun z m h => ?_
  repeat' first
    | with_reducible assumption
    | with_reducible apply Module.releaseSlot_kept
    | with_reducible apply Module.setCtr_kept
    | with_reducible apply Module.levelCPeerLost_kept
    | (with_reducible apply Kept.foldl; intro b hb x)
    | split
    | ((conv => (pattern (Module.mk ..); skip)); with_reducible apply Kept.upd)
    | exact id
    | exact Nat.le_refl _
    | exact List.prefix_refl _
    | exact fun _ => Nat.le_refl _
    | with_reducible exact rfl
    | exact fun x => Memory.zero_wf x _ _

theorem Module.mailboxWrite_kept {r : Bool} {z m : Module} (h : Kept r z m) (q : QueuePair) (va : Nat) (data : List Byte) :
    Kept r z (Module.mailboxWrite m q va data) := by
  unfold Module.mailboxWrite
  repeat' first
    | with_reducible assumption
    | (extract_lets +onlyGivenNames m; clear_value m)
    | with_reducible apply Module.releaseSlot_kept
    | with_reducible apply Module.nak_kept
    | split

theorem execSlotRelease_kept (qp : Nat) (key : BitVec 32) (va : Word) (data : List Byte) (s : State) :
    Keeps true s (execSlotRelease qp key va data s) := by
  unfold execSlotRelease
  refine Keeps.on fun z m h => ?_
  repeat' first
    | with_reducible assumption
    | with_reducible apply Module.mailboxWrite_kept
    | with_reducible apply Module.nak_kept
    | split

theorem Module.ringDoorbell_kept {r : Bool} {z m : Module} (h : Kept r z m) (q : QueuePair) (c : Nat) :
    Kept r z (Module.ringDoorbell m q c) := by
  unfold Module.ringDoorbell
  repeat' first
    | with_reducible assumption
    | (extract_lets +onlyGivenNames m; clear_value m)
    | with_reducible apply Module.pump_kept
    | with_reducible apply Module.setQp_kept
    | split

theorem execDoorbellWrite_kept (qp : Nat) (key : BitVec 32) (c : Word) (s : State) :
    Keeps true s (execDoorbellWrite qp key c s) := by
  unfold execDoorbellWrite
  refine Keeps.on fun z m h => ?_
  repeat' first
    | with_reducible assumption
    | with_reducible apply Module.ringDoorbell_kept
    | with_reducible apply Module.nak_kept
    | split

end Sys2Proof.Machine
end

