-- ==== Sys2Proof/Laws/KeptPower.lean ====
section
/-! SUPPORT. `Kept` for the operations of dependability, the assay block, power, registers and the windows: one lemma each. -/
namespace Sys2Proof.Machine

theorem Module.stopWork_kept {r : Bool} {z m : Module} (h : Kept r z m) : Kept r z (Module.stopWork m) :=
  (Module.clearAccs_kept h _).upd id id (List.length_map ..) (List.length_map ..) (List.length_map ..) (List.length_map ..)
    (Nat.le_refl _) (List.prefix_refl _) id (hardUsed_map _ _ fun _ => Nat.le_refl _) (Nat.le_refl _)

theorem Module.enterFaulted_kept {r : Bool} {z m : Module} (h : Kept r z m) :
    Kept r z (Module.enterFaulted m) := by
  unfold Module.enterFaulted
  repeat' first
    | with_reducible assumption
    | with_reducible apply Module.setMode_kept
    | with_reducible apply Module.flushPosted_kept
    | with_reducible apply Module.setFab_kept
    | with_reducible apply Module.setCtr_kept
    | with_reducible apply Module.setGuild_kept
    | with_reducible apply Module.stopWork_kept

theorem Module.hallLost_kept {r : Bool} {z m : Module} (h : Kept r z m) (h_35 : Nat) (pb : Nat) :
    Kept r z (Module.hallLost m h_35 pb) := by
  unfold Module.hallLost
  repeat' first
    | with_reducible assumption
    | with_reducible apply Module.enterFaulted_kept
    | with_reducible apply Module.degrade_kept
    | with_reducible apply Module.setAsy_kept
    | split
    | exact id

theorem Module.dropSegments_kept {r : Bool} {z m : Module} (h : Kept r z m) (h_35 : Nat) (b : Nat) :
    Kept r z (Module.dropSegments m h_35 b) := by
  unfold Module.dropSegments
  repeat' first
    | with_reducible assumption
    | with_reducible apply Module.setHall_kept
    | with_reducible apply Module.setBench_kept

theorem Module.startCopy_kept {r : Bool} {z m : Module} (h : Kept r z m) (h_35 : Nat) (b : Nat) (pb : Nat) :
    Kept r z (Module.startCopy m h_35 b pb) := by
  unfold Module.startCopy
  repeat' first
    | with_reducible assumption
    | with_reducible apply Module.hallLost_kept
    | with_reducible apply Module.setHall_kept
    | with_reducible apply Module.dropSegments_kept
    | split

theorem Module.takeOut_kept {r : Bool} {z m : Module} (h : Kept r z m) (h_35 : Nat) (pb : Nat) :
    Kept r z (Module.takeOut m h_35 pb) := by
  unfold Module.takeOut
  repeat' first
    | with_reducible assumption
    | (extract_lets +onlyGivenNames m
       first
       | (refine Kept.let_in (r := r) (z := z) (m := m) ?_ fun hm => ?_; subst m; rotate_left; clear_value m)
       | clear_value m)
    | with_reducible apply Module.setHall_kept
    | with_reducible apply Module.startCopy_kept
    | split

theorem Module.tileError_kept {r : Bool} {z m : Module} (h : Kept r z m) (h_35 : Nat) (pb : Nat) (off : Nat) :
    Kept r z (Module.tileError m h_35 pb off) := by
  unfold Module.tileError
  repeat' first
    | with_reducible assumption
    | (extract_lets +onlyGivenNames m; refine Kept.let_in (r := r) (z := z) (m := m) ?_ fun hm => ?_; subst m; rotate_left; clear_value m)
    | with_reducible apply Module.setBench_kept
    | with_reducible apply Module.takeOut_kept
    | split
    | ((conv => (pattern (Module.mk ..); skip)); with_reducible apply Kept.upd)
    | exact id
    | exact Nat.le_refl _
    | exact List.prefix_refl _
    | exact fun _ => Nat.le_refl _
    | with_reducible exact rfl

theorem execBenchOutOfService_kept (hall : HallId) (pbench : BenchFault) (s : State) :
    Keeps true s (execBenchOutOfService hall pbench s) := by
  unfold execBenchOutOfService
  refine Keeps.on fun z m h => ?_
  repeat' first
    | with_reducible assumption
    | with_reducible apply Module.takeOut_kept
    | with_reducible apply Module.tileError_kept
    | split

theorem execBenchWatchdog_kept (bench : BenchId) (s : State) :
    Keeps true s (execBenchWatchdog bench s) := by
  unfold execBenchWatchdog
  refine Keeps.on fun z m h => ?_
  repeat' first
    | with_reducible assumption
    | (extract_lets +onlyGivenNames m; clear_value m)
    | with_reducible apply Module.takeOut_kept
    | split

theorem Module.dropHub_kept {r : Bool} {z m : Module} (h : Kept r z m) (k : FKey) (own : Option Nat) :
    Kept r z (Module.dropHub m k own) := by
  unfold Module.dropHub
  split
  · exact h
  · exact h.upd id id (List.length_map ..) ((List.length_map ..).trans List.length_zipIdx) rfl rfl (Nat.le_refl _)
      (List.prefix_refl _) id (fun _ => Nat.le_refl _) (Nat.le_refl _)

theorem Module.restart_kept {r : Bool} {z m : Module} (h : Kept r z m) (k : FKey) :
    Kept r z (Module.restart m k) := by
  unfold Module.restart
  repeat' first
    | with_reducible assumption
    | with_reducible apply Module.dropHub_kept
    | split
    | ((conv => (pattern (Module.mk ..); skip)); with_reducible apply Kept.upd)
    | exact id
    | exact Nat.le_refl _
    | exact List.prefix_refl _
    | exact fun _ => Nat.le_refl _
    | with_reducible exact rfl
    | exact List.length_map ..

theorem execBenchCopyDone_kept (hall : HallId) (clean : Bool) (s : State) :
    Keeps true s (execBenchCopyDone hall clean s) := by
  unfold execBenchCopyDone
  refine Keeps.on fun z m h => ?_
  repeat' first
    | with_reducible assumption
    | (extract_lets +onlyGivenNames m
       first
       | (refine Kept.let_in (r := true) (z := z) (m := m) ?_ fun hm => ?_; subst m; rotate_left; clear_value m)
       | clear_value m)
    | with_reducible apply Module.setHall_kept
    | with_reducible apply Module.unspecified_kept
    | with_reducible apply Module.clearPoison_kept
    | with_reducible apply Module.count_kept
    | with_reducible apply Module.setBench_kept
    | with_reducible apply Module.degrade_kept
    | with_reducible apply Module.restart_kept
    | (with_reducible apply Kept.foldl; intro b hb x)
    | split
    | ((conv => (pattern (Module.mk ..); skip)); with_reducible apply Kept.upd)
    | exact id
    | exact Nat.le_refl _
    | exact List.prefix_refl _
    | exact fun _ => Nat.le_refl _
    | with_reducible exact rfl

theorem Module.dctlOos_kept {r : Bool} {z m : Module} (h : Kept r z m) (h_35 : Nat) (pb : Nat) :
    Kept r z (Module.dctlOos m h_35 pb) := by
  unfold Module.dctlOos
  repeat' first
    | with_reducible assumption
    | (extract_lets +onlyGivenNames m; refine Kept.let_in (r := r) (z := z) (m := m) ?_ fun hm => ?_; subst m; rotate_left; clear_value m)
    | with_reducible apply Module.setFld_kept
    | with_reducible apply Module.takeOut_kept
    | split

theorem execHalDctlOos_kept (hall : HallId) (pbench : BitVec 7) (s : State) :
    Keeps true s (execHalDctlOos hall pbench s) := by
  unfold execHalDctlOos
  refine Keeps.on fun z m h => ?_
  repeat' first
    | with_reducible assumption
    | with_reducible apply Module.dctlOos_kept

theorem Module.withdrawStack_kept {r : Bool} {z m : Module} (h : Kept r z m) (s : Nat) (cause : Nat) :
    Kept r z (Module.withdrawStack m s cause) := by
  unfold Module.withdrawStack
  repeat' first
    | with_reducible assumption
    | with_reducible apply Module.withdraw_kept
    | with_reducible apply Module.passStart_kept
    | (with_reducible apply Kept.foldl; intro b hb x)
    | split

theorem execStackWithdraw_kept (stack : StackId) (cause : Fin 8) (st : State) :
    Keeps true st (execStackWithdraw stack cause st) := by
  unfold execStackWithdraw
  refine Keeps.on fun z m h => ?_
  repeat' first
    | with_reducible assumption
    | with_reducible apply Module.withdrawStack_kept
    | split

theorem Module.dctlWd_kept {r : Bool} {z m : Module} (h : Kept r z m) (h_35 : Nat) (k : Nat) :
    Kept r z (Module.dctlWd m h_35 k) := by
  unfold Module.dctlWd
  repeat' first
    | with_reducible assumption
    | with_reducible apply Module.setFld_kept
    | with_reducible apply Module.withdrawStack_kept
    | split

theorem execHalDctlWd_kept (hall : HallId) (stack : BitVec 3) (s : State) :
    Keeps true s (execHalDctlWd hall stack s) := by
  unfold execHalDctlWd
  refine Keeps.on fun z m h => ?_
  repeat' first
    | with_reducible assumption
    | with_reducible apply Module.dctlWd_kept

theorem Module.drain_kept {r : Bool} {z m : Module} (h : Kept r z m) :
    Kept r z (Module.drain m) := by
  unfold Module.drain
  repeat' first
    | with_reducible assumption
    | with_reducible apply Module.finishDrain_kept
    | with_reducible apply Module.setMode_kept
    | with_reducible apply Module.setPwr_kept
    | with_reducible apply Module.sendTo_kept
    | with_reducible apply Module.setGuild_kept
    | with_reducible apply Module.checkDrain_kept
    | (with_reducible apply Kept.foldl; intro b hb x)
    | split
    | exact fun _ => id

theorem execDrainForced_kept (s : State) :
    Keeps true s (execDrainForced s) := by
  unfold execDrainForced
  refine Keeps.on fun z m h => ?_
  repeat' first
    | with_reducible assumption
    | with_reducible apply Module.until_kept
    | with_reducible apply Module.degradeAll_kept
    | with_reducible apply Module.cancel_kept
    | with_reducible apply Module.cancelInst_kept
    | with_reducible apply Module.completeInst_kept
    | with_reducible apply Module.clearAccs_kept
    | with_reducible apply Module.checkDrain_kept
    | (with_reducible apply Kept.foldl; intro b hb x)
    | split
    | ((conv => (pattern (Module.mk ..); skip)); with_reducible apply Kept.upd)
    | exact id
    | exact Nat.le_refl _
    | exact List.prefix_refl _
    | exact fun _ => Nat.le_refl _
    | with_reducible exact rfl
    | exact List.length_map ..

theorem Module.clearLog_kept {r : Bool} {z m : Module} (h : Kept r z m) (h_35 : Nat) :
    Kept r z (Module.clearLog m h_35) := by
  unfold Module.clearLog
  repeat' first
    | with_reducible assumption
    | with_reducible apply Module.setHall_kept

theorem execElogClr_kept (hall : HallId) (s : State) :
    Keeps true s (execElogClr hall s) := by
  unfold execElogClr
  refine Keeps.on fun z m h => ?_
  repeat' first
    | with_reducible assumption
    | with_reducible apply Module.clearLog_kept

theorem Module.wipe_kept {r : Bool} {z m : Module} (h : Kept r z m) : Kept r z (Module.wipe m) :=
  (Module.setAsy_kept h _ id).upd (fun _ => sparseWf_nil) id (List.length_map ..) (List.length_map ..) (List.length_map ..) rfl
    (Nat.le_refl _) (List.prefix_refl _) id (hardUsed_map _ _ fun _ => Nat.le_refl _) (Nat.le_refl _)

theorem Module.zeroiseAll_kept {r : Bool} {z m : Module} (h : Kept r z m) (kind : Nat) (session : Word) :
    Kept r z (Module.zeroiseAll m kind session) := by
  unfold Module.zeroiseAll
  exact Module.setAsy_kept (Module.wipe_kept (Module.enterFaulted_kept (Module.post_kept h ..))) _ fun e => by
    show (_ || _) = true
    rw [e, Bool.true_or]

theorem execTamper_kept (sensor : Byte) (s : State) :
    Keeps true s (execTamper sensor s) := by
  unfold execTamper
  refine Keeps.on fun z m h => ?_
  repeat' first
    | with_reducible assumption
    | with_reducible apply Module.zeroiseAll_kept
    | with_reducible apply Module.post_kept
    | with_reducible apply Module.setAsy_kept
    | split
    | exact id

theorem execEntropyTestFail_kept (s : State) :
    Keeps true s (execEntropyTestFail s) := by
  unfold execEntropyTestFail
  refine Keeps.on fun z m h => ?_
  repeat' first
    | with_reducible assumption
    | with_reducible apply Module.zeroiseAll_kept
    | split

theorem Module.bootFail_kept {r : Bool} {z m : Module} (h : Kept r z m) (step : Nat) (fail : Nat) :
    Kept r z (Module.bootFail m step fail) := by
  unfold Module.bootFail
  repeat' first
    | with_reducible assumption
    | with_reducible apply Module.enterFaulted_kept
    | with_reducible apply Module.setAsy_kept
    | exact id

theorem Module.measure_kept {r : Bool} {z m : Module} (h : Kept r z m) (comp : Nat) (img : List Byte) :
    Kept r z (Module.measure m comp img) := by
  unfold Module.measure
  repeat' first
    | with_reducible assumption
    | with_reducible apply Module.extendHallmark_kept

theorem Module.drawSecrets_kept {r : Bool} {z m : Module} (h : Kept r z m) : Kept r z (Module.drawSecrets m) :=
  (Module.setAsy_kept h.drawn _ id).upd id id rfl (by simp only [List.length_map, List.length_zipIdx]; rfl) rfl rfl
    (Nat.le_refl _) (List.prefix_refl _) id (fun _ => Nat.le_refl _) (Nat.le_refl _)

theorem Module.measureRest_kept {r : Bool} {z m : Module} (h : Kept r z m) (pkg : List Byte) (es : List (Nat × Nat × Nat)) :
    Kept r z (Module.measureRest m pkg es).1 := by
  unfold Module.measureRest
  repeat' first
    | with_reducible assumption
    | (extract_lets +onlyGivenNames m; clear_value m)
    | with_reducible apply Module.measure_kept
    | (with_reducible apply Kept.foldl_fst; intro b hb x)
    | split

theorem Module.bootPackage_kept {r : Bool} {z m : Module} (h : Kept r z m) :
    Kept r z (Module.bootPackage m) := by
  unfold Module.bootPackage
  repeat' first
    | with_reducible assumption
    | (extract_lets +onlyGivenNames m
       first
       | (refine Kept.let_in (r := r) (z := z) (m := m) ?_ fun hm => ?_; subst m; rotate_left; clear_value m)
       | (refine Kept.let_snd (r := r) (z := z) (p := m) ?_ fun hm => ?_; subst m; rotate_left; clear_value m)
       | (refine Kept.let_fst (r := r) (z := z) (p := m) ?_ fun hm => ?_; subst m; rotate_left; clear_value m)
       | clear_value m)
    | with_reducible apply Module.pick_kept
    | with_reducible apply Module.bootFail_kept
    | with_reducible apply Module.drawSecrets_kept
    | with_reducible apply Module.setAsy_kept
    | with_reducible apply Module.measure_kept
    | with_reducible apply Module.measureRest_kept
    | split
    | exact id

theorem Module.bootStart_kept {z m : Module} (h : Kept false z m) (selfTestOk : Bool) :
    Kept false z (Module.bootStart m selfTestOk) := by
  unfold Module.bootStart
  repeat' first
    | with_reducible assumption
    | (extract_lets +onlyGivenNames m; refine Kept.let_in (r := false) (z := z) (m := m) ?_ fun hm => ?_; subst m; rotate_left; clear_value m)
    | with_reducible apply Module.enterMode_kept
    | with_reducible apply Module.bootFail_kept
    | with_reducible apply Module.setAsy_kept
    | split
    | exact id

theorem Module.bootEnd_kept {r : Bool} {z m : Module} (h : Kept r z m) :
    Kept r z (Module.bootEnd m) := by
  unfold Module.bootEnd
  repeat' first
    | with_reducible assumption
    | with_reducible apply Module.setMode_kept
    | with_reducible apply Module.setAsy_kept
    | split
    | exact id

theorem execPwrCmdRelease_kept (s : State) :
    Keeps true s (execPwrCmdRelease s) := by
  unfold execPwrCmdRelease
  refine Keeps.on fun z m h => ?_
  repeat' first
    | with_reducible assumption
    | with_reducible apply Module.bootEnd_kept

theorem Module.putMailbox_kept {r : Bool} {z m : Module} (h : Kept r z m) (bs : List Byte) :
    Kept r z (Module.putMailbox m bs) := by
  unfold Module.putMailbox
  repeat' first
    | with_reducible assumption
    | with_reducible apply Module.setReg_kept
    | (with_reducible apply Kept.foldl; intro b hb x)

theorem Module.opCerts_kept {r : Bool} {z m : Module} (h : Kept r z m) (r_35 : MbReq) :
    Kept r z (Module.opCerts m r_35).1 := by
  unfold Module.opCerts
  repeat' first
    | with_reducible assumption
    | split

theorem Module.opQuote_kept {r : Bool} {z m : Module} (h : Kept r z m) (r_35 : MbReq) :
    Kept r z (Module.opQuote m r_35).1 := by
  unfold Module.opQuote
  repeat' first
    | with_reducible assumption
    | with_reducible apply Module.quoteFor_kept
    | split

theorem Module.opSessionOpen_kept {r : Bool} {z m : Module} (h : Kept r z m) (r_35 : MbReq) :
    Kept r z (Module.opSessionOpen m r_35).1 := by
  unfold Module.opSessionOpen
  repeat' first
    | with_reducible assumption
    | (extract_lets +onlyGivenNames m
       first
       | (refine Kept.let_in (r := r) (z := z) (m := m) ?_ fun hm => ?_; subst m; rotate_left; clear_value m)
       | (refine Kept.let_snd (r := r) (z := z) (p := m) ?_ fun hm => ?_; subst m; rotate_left; clear_value m)
       | clear_value m)
    | with_reducible apply Module.post_kept
    | with_reducible apply Module.draw_kept
    | with_reducible apply Module.setAsy_kept
    | split
    | exact id

theorem Module.authorised_kept {r : Bool} {z m : Module} (h : Kept r z m) (q : MbReq) (n : Nat) :
    Kept r z (Module.authorised m q n).2 := by
  unfold Module.authorised
  dsimp only
  split
  · exact Module.sessionFail_kept h ..
  · exact h

theorem Module.authorised_some {r : Bool} {z m x y : Module} (h : Kept r z m) {q : MbReq} {n : Nat}
    (e : Module.authorised m q n = (some x, y)) : Kept r z x := by
  unfold Module.authorised at e
  dsimp only at e
  split at e
  · cases e
  · cases e; exact Module.acceptCounter_kept h ..

theorem Module.opSessionClose_kept {r : Bool} {z m : Module} (h : Kept r z m) (r_35 : MbReq) :
    Kept r z (Module.opSessionClose m r_35).1 := by
  unfold Module.opSessionClose
  repeat' first
    | with_reducible assumption
    | with_reducible apply Module.authorised_kept
    | with_reducible apply Module.setAsy_kept
    | split
    | refine Module.authorised_some ?_ (by with_reducible assumption)
    | refine Kept.snd_eq (by with_reducible assumption) ?_
    | exact id

theorem Module.opZeroise_kept {r : Bool} {z m : Module} (h : Kept r z m) (r_35 : MbReq) :
    Kept r z (Module.opZeroise m r_35).1 := by
  unfold Module.opZeroise
  repeat' first
    | with_reducible assumption
    | (extract_lets +onlyGivenNames m; clear_value m)
    | with_reducible apply Module.authorised_kept
    | with_reducible apply Module.zeroiseAll_kept
    | split
    | refine Module.authorised_some ?_ (by with_reducible assumption)
    | refine Kept.snd_eq (by with_reducible assumption) ?_

theorem Module.opSigners_kept {r : Bool} {z m : Module} (h : Kept r z m) (r_35 : MbReq) :
    Kept r z (Module.opSigners m r_35).1 := by
  unfold Module.opSigners
  repeat' first
    | with_reducible assumption
    | (extract_lets +onlyGivenNames m
       first
       | (refine Kept.let_in (r := r) (z := z) (m := m) ?_ fun hm => ?_; subst m; rotate_left; clear_value m)
       | clear_value m)
    | with_reducible apply Module.extendHallmark_kept
    | with_reducible apply Module.setAsy_kept
    | with_reducible apply Module.bootEnd_kept
    | split
    | exact id

theorem Module.opRoles_kept {r : Bool} {z m : Module} (h : Kept r z m) (r_35 : MbReq) :
    Kept r z (Module.opRoles m r_35).1 := by
  unfold Module.opRoles
  repeat' first
    | with_reducible assumption
    | (extract_lets +onlyGivenNames m
       first
       | (refine Kept.let_in (r := r) (z := z) (m := m) ?_ fun hm => ?_; subst m; rotate_left; clear_value m)
       | clear_value m)
    | with_reducible apply Module.setAsy_kept
    | with_reducible apply Module.extendHallmark_kept
    | with_reducible apply Module.bootEnd_kept
    | split
    | exact id

theorem Module.opPackage_kept {r : Bool} {z m : Module} (h : Kept r z m) (r_35 : MbReq) :
    Kept r z (Module.opPackage m r_35).1 := by
  unfold Module.opPackage
  repeat' first
    | with_reducible assumption
    | (extract_lets +onlyGivenNames m
       first
       | (refine Kept.let_in (r := r) (z := z) (m := m) ?_ fun hm => ?_; subst m; rotate_left; clear_value m)
       | clear_value m)
    | with_reducible apply Module.setAsy_kept
    | with_reducible apply Module.store_kept
    | with_reducible apply Module.bootPackage_kept
    | split
    | exact id

theorem Module.operate_kept {r : Bool} {z m : Module} (h : Kept r z m) (r_35 : MbReq) :
    Kept r z (Module.operate m r_35).1 := by
  unfold Module.operate
  repeat' first
    | with_reducible assumption
    | with_reducible apply Module.opCerts_kept
    | with_reducible apply Module.opQuote_kept
    | with_reducible apply Module.opSessionOpen_kept
    | with_reducible apply Module.opSessionClose_kept
    | with_reducible apply Module.opZeroise_kept
    | with_reducible apply Module.opSigners_kept
    | with_reducible apply Module.opRoles_kept
    | with_reducible apply Module.opPackage_kept
    | split

theorem Module.mailboxGo_kept {r : Bool} {z m : Module} (h : Kept r z m) :
    Kept r z (Module.mailboxGo m) := by
  unfold Module.mailboxGo
  repeat' first
    | with_reducible assumption
    | with_reducible apply Module.operate_kept
    | with_reducible apply Module.setAsy_kept
    | with_reducible apply Module.putMailbox_kept
    | split
    | exact id

theorem Module.goFor_kept {r : Bool} {z m : Module} (h : Kept r z m) (op : Nat) :
    Kept r z (Module.goFor m op) := by
  unfold Module.goFor
  repeat' first
    | with_reducible assumption
    | with_reducible apply Module.mailboxGo_kept
    | split

theorem execCerts_kept (s : State) :
    Keeps true s (execCerts s) := by
  unfold execCerts
  refine Keeps.on fun z m h => ?_
  repeat' first
    | with_reducible assumption
    | with_reducible apply Module.goFor_kept

theorem execQuote_kept (s : State) :
    Keeps true s (execQuote s) := by
  unfold execQuote
  refine Keeps.on fun z m h => ?_
  repeat' first
    | with_reducible assumption
    | with_reducible apply Module.goFor_kept

theorem execSessionOpen_kept (s : State) :
    Keeps true s (execSessionOpen s) := by
  unfold execSessionOpen
  refine Keeps.on fun z m h => ?_
  repeat' first
    | with_reducible assumption
    | with_reducible apply Module.goFor_kept

theorem execSessionClose_kept (s : State) :
    Keeps true s (execSessionClose s) := by
  unfold execSessionClose
  refine Keeps.on fun z m h => ?_
  repeat' first
    | with_reducible assumption
    | with_reducible apply Module.goFor_kept

theorem execZeroise_kept (s : State) :
    Keeps true s (execZeroise s) := by
  unfold execZeroise
  refine Keeps.on fun z m h => ?_
  repeat' first
    | with_reducible assumption
    | with_reducible apply Module.goFor_kept

theorem execSignersLoad_kept (s : State) :
    Keeps true s (execSignersLoad s) := by
  unfold execSignersLoad
  refine Keeps.on fun z m h => ?_
  repeat' first
    | with_reducible assumption
    | with_reducible apply Module.goFor_kept

theorem execRolesLoad_kept (s : State) :
    Keeps true s (execRolesLoad s) := by
  unfold execRolesLoad
  refine Keeps.on fun z m h => ?_
  repeat' first
    | with_reducible assumption
    | with_reducible apply Module.goFor_kept

theorem execPackageLoad_kept (s : State) :
    Keeps true s (execPackageLoad s) := by
  unfold execPackageLoad
  refine Keeps.on fun z m h => ?_
  repeat' first
    | with_reducible assumption
    | with_reducible apply Module.goFor_kept

theorem Module.setClaim_kept {r : Bool} {z m : Module} (h : Kept r z m) (v : BitVec 16) :
    Kept r z (Module.setClaim m v) := by
  unfold Module.setClaim
  repeat' first
    | with_reducible assumption
    | with_reducible apply Module.setAsy_kept
    | split
    | exact id

theorem execMbctlClaim_kept (v : BitVec 16) (s : State) :
    Keeps true s (execMbctlClaim v s) := by
  unfold execMbctlClaim
  refine Keeps.on fun z m h => ?_
  repeat' first
    | with_reducible assumption
    | with_reducible apply Module.setClaim_kept

theorem execClaimExpire_kept (s : State) :
    Keeps true s (execClaimExpire s) := by
  unfold execClaimExpire
  refine Keeps.on fun z m h => ?_
  repeat' first
    | with_reducible assumption
    | with_reducible apply Module.setAsy_kept
    | with_reducible apply Module.until_kept
    | split
    | exact id

theorem Module.blank_kept {z m : Module} (h : Kept false z m) : Kept false z (Module.blank m) :=
  h.trans ⟨fun _ => sparseWf_nil, fun _ => sparseWf_nil, fun _ => rfl, fun _ => by simp only [Module.blank, List.length_map, List.length_range],
    (List.length_map ..).trans, fun _ => rfl,
    Nat.le_refl _, List.prefix_refl _, id, hardUsed_map _ _ fun _ => Nat.le_refl _, (fun e => nomatch e), (fun e => nomatch e),
    (fun e => nomatch e)⟩

theorem Module.coldReset_kept {z m : Module} (h : Kept false z m) (cause : Nat) : Kept false z (Module.coldReset m cause) :=
  let b := Module.blank_kept h
  ⟨b.mem, b.regs, b.halls, b.benches, b.querns, b.ptns, b.free, b.sent, b.seed, b.hard, (fun e => nomatch e), (fun e => nomatch e),
    (fun e => nomatch e)⟩

theorem Module.warmReset_kept {z m : Module} (h : Kept false z m) : Kept false z (Module.warmReset m) :=
  let b := Module.coldReset_kept h 3
  ⟨b.mem, fun _ => SparseWf.foldl (fun _ _ y => sparsePut_wf y _ _) sparseWf_nil _,
    fun e => by simp only [Module.warmReset, List.length_map, List.length_zip, h.halls e]; rfl,
    b.benches, b.querns, b.ptns, b.free, b.sent, b.seed, b.hard, (fun e => nomatch e), (fun e => nomatch e), (fun e => nomatch e)⟩

theorem Module.enterExtended_kept {r : Bool} {z m : Module} (h : Kept r z m) (mv : Nat) :
    Kept r z (Module.enterExtended m mv) := by
  unfold Module.enterExtended
  repeat' first
    | with_reducible assumption
    | with_reducible apply Module.post_kept
    | with_reducible apply Module.setPwr_kept
    | split
    | exact fun _ => id

theorem execPowerApplied_kept (mv : Nat) (s : State) :
    Keeps false s (execPowerApplied mv s) := by
  unfold execPowerApplied
  refine Keeps.on fun z m h => ?_
  split
  · exact h
  · have b : Kept false z { m.blank with pwr := { input := true, pwrgd := true, rstLow := m.pwr.rstLow, vin := mv } } :=
      (Module.blank_kept h).pwr (fun e => nomatch e) (fun e => nomatch e)
    dsimp only
    split
    · exact Module.enterExtended_kept b _
    · exact b

theorem Module.powerOff_kept {z m : Module} (h : Kept false z m) :
    Kept false z (Module.powerOff m) := by
  unfold Module.powerOff
  repeat' first
    | with_reducible assumption
    | with_reducible apply Module.blank_kept

theorem execPowerLoss_kept (s : State) :
    Keeps false s (execPowerLoss s) := by
  unfold execPowerLoss
  refine Keeps.on fun z m h => ?_
  repeat' first
    | with_reducible assumption
    | with_reducible apply Module.powerOff_kept

theorem execInputRange_kept (mv : Nat) (s : State) :
    Keeps false s (execInputRange mv s) := by
  unfold execInputRange
  refine Keeps.on fun z m h => ?_
  repeat' first
    | with_reducible assumption
    | with_reducible apply Module.powerOff_kept
    | with_reducible apply Module.enterExtended_kept
    | with_reducible apply Module.setPwr_kept
    | split
    | exact fun _ => id

theorem execInputInRange_kept (mv : Nat) (s : State) :
    Keeps true s (execInputInRange mv s) := by
  unfold execInputInRange
  refine Keeps.on fun z m h => ?_
  repeat' first
    | with_reducible assumption
    | with_reducible apply Module.setPwr_kept
    | split
    | exact fun _ => id

theorem execModRstAssert_kept (s : State) :
    Keeps false s (execModRstAssert s) := by
  unfold execModRstAssert
  refine Keeps.on fun z m h => ?_
  repeat' first
    | with_reducible assumption
    | (extract_lets +onlyGivenNames m; refine Kept.let_in (r := false) (z := z) (m := m) ?_ fun hm => ?_; subst m; rotate_left; clear_value m)
    | with_reducible apply Module.setPwr_kept
    | with_reducible apply Module.coldReset_kept
    | with_reducible apply Module.enterMode_kept
    | split
    | exact fun _ => id

theorem execModRstRelease_kept (selfTestOk : Bool) (s : State) :
    Keeps false s (execModRstRelease selfTestOk s) := by
  unfold execModRstRelease
  refine Keeps.on fun z m h => ?_
  have b : Kept false z (m.setPwr fun x => { x with rstLow := false }) := Module.setPwr_kept h _ (fun e => nomatch e) (fun e => nomatch e)
  dsimp only
  split
  · refine Module.bootStart_kept ?_ _
    exact ⟨b.mem, b.regs, b.halls, b.benches, b.querns, b.ptns, b.free, b.sent, b.seed, b.hard, (fun e => nomatch e),
      (fun e => nomatch e), (fun e => nomatch e)⟩
  · exact b

theorem Module.resetCold_kept {z m : Module} (h : Kept false z m) : Kept false z (Module.resetCold m) := by
  unfold Module.resetCold
  split
  · exact h
  · have b := Module.coldReset_kept (Module.pick_kept h 2) 2
    refine Module.bootStart_kept ?_ _
    exact ⟨b.mem, b.regs, b.halls, b.benches, b.querns, b.ptns, b.free, b.sent, b.seed, b.hard,
      (fun e => nomatch e), (fun e => nomatch e), (fun e => nomatch e)⟩

theorem execPwrRstCold_kept (s : State) :
    Keeps false s (execPwrRstCold s) := by
  unfold execPwrRstCold
  refine Keeps.on fun z m h => ?_
  repeat' first
    | with_reducible assumption
    | with_reducible apply Module.resetCold_kept

theorem Module.resetWarm_kept {z m : Module} (h : Kept false z m) :
    Kept false z (Module.resetWarm m) := by
  unfold Module.resetWarm
  repeat' first
    | with_reducible assumption
    | with_reducible apply Module.pick_kept
    | with_reducible apply Module.bootStart_kept
    | with_reducible apply Module.warmReset_kept
    | split

theorem execPwrRstWarm_kept (s : State) :
    Keeps false s (execPwrRstWarm s) := by
  unfold execPwrRstWarm
  refine Keeps.on fun z m h => ?_
  repeat' first
    | with_reducible assumption
    | with_reducible apply Module.resetWarm_kept

theorem execPwrCmdDrain_kept (s : State) :
    Keeps true s (execPwrCmdDrain s) := by
  unfold execPwrCmdDrain
  refine Keeps.on fun z m h => ?_
  repeat' first
    | with_reducible assumption
    | with_reducible apply Module.drain_kept

theorem Module.stackTrained_kept {r : Bool} {z m : Module} (h : Kept r z m) (s : Nat) (lanes : Nat) (ok : Bool) :
    Kept r z (Module.stackTrained m s lanes ok) := by
  unfold Module.stackTrained
  repeat' first
    | with_reducible assumption
    | with_reducible apply Module.setQuern_kept
    | split
    | exact fun _ => Nat.le_refl _

theorem execTrainingDone_kept (untrained : BitVec 20) (laneSpares : List Byte) (badBenches : List (BitVec 68)) (s : State) :
    Keeps true s (execTrainingDone untrained laneSpares badBenches s) := by
  unfold execTrainingDone
  refine Keeps.on fun z m h => ?_
  repeat' first
    | with_reducible assumption
    | with_reducible apply Module.stackTrained_kept
    | with_reducible apply Module.setHall_kept
    | with_reducible apply Module.setBench_kept
    | with_reducible apply Module.setPwr_kept
    | with_reducible apply Module.hallLost_kept
    | with_reducible apply Module.checkTrained_kept
    | (with_reducible apply Kept.foldl; intro b hb x)
    | split
    | exact fun _ => id

theorem Module.sampleStack_kept {r : Bool} {z m : Module} (h : Kept r z m) (s : Nat) (t : BitVec 16) :
    Kept r z (Module.sampleStack m s t) := by
  unfold Module.sampleStack
  repeat' first
    | with_reducible assumption
    | (extract_lets +onlyGivenNames m
       first
       | (refine Kept.let_in (r := r) (z := z) (m := m) ?_ fun hm => ?_; subst m; rotate_left; clear_value m)
       | clear_value m)
    | with_reducible apply Module.setQuern_kept
    | with_reducible apply Module.withdrawStack_kept
    | with_reducible apply Module.post_kept
    | with_reducible apply Module.refill_kept
    | with_reducible apply Module.count_kept
    | split
    | exact fun _ => Nat.le_refl _

theorem Module.countClocks_kept {r : Bool} {z m : Module} (h : Kept r z m) (was : Module) :
    Kept r z (Module.countClocks m was) := by
  unfold Module.countClocks
  repeat' first
    | with_reducible assumption
    | with_reducible apply Module.count_kept

theorem Module.tripHall_kept {r : Bool} {z m : Module} (h : Kept r z m) (h_35 : Nat) (t : BitVec 16) :
    Kept r z (Module.tripHall m h_35 t) := by
  unfold Module.tripHall
  repeat' first
    | with_reducible assumption
    | with_reducible apply Module.enterFaulted_kept
    | with_reducible apply Module.post_kept

theorem Module.sampleHall_kept {r : Bool} {z m : Module} (h : Kept r z m) (h_35 : Nat) (t : BitVec 16) :
    Kept r z (Module.sampleHall m h_35 t) := by
  unfold Module.sampleHall
  repeat' first
    | with_reducible assumption
    | (extract_lets +onlyGivenNames m
       first
       | (refine Kept.let_in (r := r) (z := z) (m := m) ?_ fun hm => ?_; subst m; rotate_left; clear_value m)
       | clear_value m)
    | with_reducible apply Module.setHall_kept
    | with_reducible apply Module.tripHall_kept
    | with_reducible apply Module.countClocks_kept
    | with_reducible apply Module.post_kept
    | split

theorem execThermalSample_kept (temps : List (BitVec 16)) (halls : List (BitVec 16)) (s : State) :
    Keeps true s (execThermalSample temps halls s) := by
  unfold execThermalSample
  refine Keeps.on fun z m h => ?_
  repeat' first
    | with_reducible assumption
    | with_reducible apply Module.sampleStack_kept
    | with_reducible apply Module.sampleHall_kept
    | (with_reducible apply Kept.foldl; intro b hb x)
    | split

theorem execHallTrip_kept (hall : HallId) (temp : BitVec 16) (s : State) :
    Keeps true s (execHallTrip hall temp s) := by
  unfold execHallTrip
  refine Keeps.on fun z m h => ?_
  repeat' first
    | with_reducible assumption
    | (extract_lets +onlyGivenNames m; clear_value m)
    | with_reducible apply Module.tripHall_kept
    | with_reducible apply Module.setHall_kept
    | with_reducible apply Module.until_kept
    | split

theorem execPowerCapStep_kept (watts : Nat) (s : State) :
    Keeps true s (execPowerCapStep watts s) := by
  unfold execPowerCapStep
  refine Keeps.on fun z m h => ?_
  repeat' first
    | with_reducible assumption
    | (extract_lets +onlyGivenNames m
       first
       | (refine Kept.let_in (r := true) (z := z) (m := m) ?_ fun hm => ?_; subst m; rotate_left; clear_value m)
       | clear_value m)
    | with_reducible apply Module.setPwr_kept
    | with_reducible apply Module.countClocks_kept
    | with_reducible apply Module.post_kept
    | split
    | exact fun _ => id

theorem Module.shiftPort_kept {r : Bool} {z m : Module} (h : Kept r z m) (s : Nat) (x : Word) : Kept r z
    (Module.shiftPort m s x) := by
  unfold Module.shiftPort
  split
  · exact Module.setQuern_kept h.drawn _ _ fun _ => Nat.le_add_right ..
  · exact h

theorem execPwrT1500dWrite_kept (v : Word) (s : State) :
    Keeps true s (execPwrT1500dWrite v s) := by
  unfold execPwrT1500dWrite
  refine Keeps.on fun z m h => ?_
  repeat' first
    | with_reducible assumption
    | with_reducible apply Module.shiftPort_kept

theorem Module.denyReg_kept {r : Bool} {z m : Module} (h : Kept r z m) (M : Nat) (tclass : Nat) (target : Nat)
    (perm : Nat) :
    Kept r z (Module.denyReg m M tclass target perm) := by
  unfold Module.denyReg
  repeat' first
    | with_reducible assumption
    | (extract_lets +onlyGivenNames m; refine Kept.let_in (r := r) (z := z) (m := m) ?_ fun hm => ?_; subst m; rotate_left; clear_value m)
    | with_reducible apply Module.deny_kept
    | with_reducible apply Module.count_kept
    | with_reducible apply Module.setReg_kept
    | split

theorem Module.storeReg_kept {r : Bool} {z m : Module} (h : Kept r z m) (b : Block) (unit : Nat) (off : Nat) (addr : Nat)
    (v : Nat) :
    Kept r z (Module.storeReg m b unit off addr v) := by
  unfold Module.storeReg
  repeat' first
    | with_reducible assumption
    | (extract_lets +onlyGivenNames m; clear_value m)
    | with_reducible apply Module.setReg_kept
    | split

theorem Module.accclr_kept {r : Bool} {z m : Module} (h : Kept r z m) (b : Nat) :
    Kept r z (Module.accclr m b) := by
  unfold Module.accclr
  repeat' first
    | with_reducible assumption
    | with_reducible apply Module.setBench_kept
    | with_reducible apply Module.zeroAcc_kept
    | split

theorem execAccclr_kept (bench : BenchId) (s : State) :
    Keeps true s (execAccclr bench s) := by
  unfold execAccclr
  refine Keeps.on fun z m h => ?_
  repeat' first
    | with_reducible assumption
    | with_reducible apply Module.accclr_kept

theorem Module.reseed_kept {r : Bool} {z m : Module} (h : Kept r z m) (b : Nat) (v : Nat) :
    Kept r z (Module.reseed m b v) := by
  unfold Module.reseed
  repeat' first
    | with_reducible assumption
    | with_reducible apply Module.setBench_kept

theorem execBchVcseed_kept (bench : BenchId) (seed : Word) (s : State) :
    Keeps true s (execBchVcseed bench seed s) := by
  unfold execBchVcseed
  refine Keeps.on fun z m h => ?_
  repeat' first
    | with_reducible assumption
    | with_reducible apply Module.reseed_kept

theorem Module.onBit_kept {r : Bool} {z m : Module} (h : Kept r z m) (v : Nat) (i : Nat) (f : Module → Module)
    (hf : ∀ x, Kept r z x → Kept r z (f x)) :
    Kept r z (Module.onBit m v i f) := by
  unfold Module.onBit
  repeat' first
    | with_reducible apply_assumption -symm -exfalso
    | split

theorem Module.regAction_kept {z m : Module} (h : Kept false z m) (b : Block) (unit : Nat) (off : Nat) (v : Nat) :
    Kept false z (Module.regAction m b unit off v) := by
  unfold Module.regAction
  repeat' first
    | with_reducible assumption
    | with_reducible apply Module.onBit_kept
    | with_reducible apply Module.setClaim_kept
    | with_reducible apply Module.mailboxGo_kept
    | with_reducible apply Module.clearRing_kept
    | with_reducible apply Module.gcommit_kept
    | with_reducible apply Module.gdiscard_kept
    | with_reducible apply Module.setCacheEn_kept
    | with_reducible apply Module.cleanCache_kept
    | with_reducible apply Module.invalidateCache_kept
    | with_reducible apply Module.sresume_kept
    | with_reducible apply Module.dctlOos_kept
    | with_reducible apply Module.dctlWd_kept
    | with_reducible apply Module.clearLog_kept
    | with_reducible apply Module.accclr_kept
    | with_reducible apply Module.reseed_kept
    | with_reducible apply Module.flushQuern_kept
    | with_reducible apply Module.dropHotRows_kept
    | with_reducible apply Module.resetCold_kept
    | with_reducible apply Module.resetWarm_kept
    | with_reducible apply Module.drain_kept
    | with_reducible apply Module.bootEnd_kept
    | with_reducible apply Module.shiftPort_kept
    | split
    | intro x

theorem Module.writeEntry_kept {z m : Module} (h : Kept false z m) (k : Nat) (v : Word) :
    Kept false z (Module.writeEntry m k v) := by
  unfold Module.writeEntry
  repeat' first
    | with_reducible assumption
    | with_reducible apply Module.setRwk_kept
    | split

theorem Module.writeReg_kept {z m : Module} (h : Kept false z m) (addr : Nat) (v : Nat) :
    Kept false z (Module.writeReg m addr v) := by
  unfold Module.writeReg
  repeat' first
    | with_reducible assumption
    | with_reducible apply Module.writeEntry_kept
    | with_reducible apply Module.regAction_kept
    | with_reducible apply Module.storeReg_kept
    | split

theorem execRegisterWrite_kept (master : BitVec 12) (addr : Nat) (v : Word) (s : State) :
    Keeps false s (execRegisterWrite master addr v s) := by
  unfold execRegisterWrite
  refine Keeps.on fun z m h => ?_
  repeat' first
    | with_reducible assumption
    | with_reducible apply Module.denyReg_kept
    | with_reducible apply Module.writeReg_kept
    | split

theorem execRegisterBadAccess_kept (master : BitVec 12) (addr : Nat) (len : Nat) (isWrite : Bool) (k : Option FKey)
    (s : State) :
    Keeps true s (execRegisterBadAccess master addr len isWrite k s) := by
  unfold execRegisterBadAccess
  refine Keeps.on fun z m h => ?_
  repeat' first
    | with_reducible assumption
    | (extract_lets +onlyGivenNames m; refine Kept.let_in (r := true) (z := z) (m := m) ?_ fun hm => ?_; subst m; rotate_left; clear_value m)
    | with_reducible apply Module.send_kept
    | with_reducible apply Module.finish_kept
    | split

theorem Module.writeBytes_kept {r : Bool} {z m : Module} (h : Kept r z m) (hall : Nat) (key : Nat) (bs : List Byte) :
    Kept r z (Module.writeBytes m hall key bs) := by
  unfold Module.writeBytes
  repeat' first
    | with_reducible assumption
    | with_reducible apply Module.channelDo_kept
    | (with_reducible apply Kept.foldl; intro b hb x)
    | split

theorem Module.touchBytes_kept {r : Bool} {z m : Module} (h : Kept r z m) (hall : Nat) (key : Nat) (len : Nat) :
    Kept r z (Module.touchBytes m hall key len) := by
  unfold Module.touchBytes
  repeat' first
    | with_reducible assumption
    | with_reducible apply Module.access_kept
    | (with_reducible apply Kept.foldl; intro b hb x)

theorem Module.writeLocal_kept {z m : Module} (h : Kept false z m) (a : Nat) (v : Word) :
    Kept false z (Module.writeLocal m a v) := by
  unfold Module.writeLocal
  repeat' first
    | with_reducible assumption
    | with_reducible apply Module.writeBytes_kept
    | with_reducible apply Module.clearPoison_kept
    | with_reducible apply Module.store_kept
    | with_reducible apply Module.writeReg_kept
    | split

theorem Module.writeWords_kept {z m : Module} (h : Kept false z m) (on : Module → Bool) (a : Nat) (a_94 : List Word) :
    Kept false z (Module.writeWords m on a a_94) := by
  induction a_94 generalizing m a <;> unfold Module.writeWords <;>
  repeat' first
    | with_reducible apply Module.writeLocal_kept
    | with_reducible apply_assumption -symm -exfalso
    | split

theorem Module.tooLong_kept {r : Bool} {z m : Module} (h : Kept r z m) (q : Nat) :
    Kept r z (Module.tooLong m q) := by
  unfold Module.tooLong
  repeat' first
    | with_reducible assumption
    | with_reducible apply Module.qpError_kept
    | with_reducible apply Module.nak_kept

theorem execHostRdmaRead_kept (qp : Nat) (key : BitVec 32) (va : Word) (len : Nat) (s : State) :
    Keeps true s (execHostRdmaRead qp key va len s) := by
  unfold execHostRdmaRead
  refine Keeps.on fun z m h => ?_
  repeat' first
    | with_reducible assumption
    | (extract_lets +onlyGivenNames m
       first
       | (refine Kept.let_snd (r := true) (z := z) (p := m) ?_ fun hm => ?_; subst m; rotate_left; clear_value m)
       | clear_value m)
    | with_reducible apply Module.tooLong_kept
    | with_reducible apply Module.draw_kept
    | with_reducible apply Module.send_kept
    | with_reducible apply Module.nak_kept
    | with_reducible apply Module.qpError_kept
    | with_reducible apply Module.touchBytes_kept
    | with_reducible apply Module.cacheXlat_kept
    | with_reducible apply Module.xfault_kept
    | with_reducible apply Module.spend_kept
    | split

theorem execHostRdmaWrite_kept (qp : Nat) (key : BitVec 32) (va : Word) (data : List Byte) (s : State) :
    Keeps false s (execHostRdmaWrite qp key va data s) := by
  unfold execHostRdmaWrite
  refine Keeps.on fun z m h => ?_
  repeat' first
    | with_reducible assumption
    | (extract_lets +onlyGivenNames m; clear_value m)
    | with_reducible apply Module.tooLong_kept
    | with_reducible apply Module.mailboxWrite_kept
    | with_reducible apply Module.writeBytes_kept
    | with_reducible apply Module.cacheXlat_kept
    | with_reducible apply Module.nak_kept
    | with_reducible apply Module.xfault_kept
    | with_reducible apply Module.ringDoorbell_kept
    | with_reducible apply Module.writeWords_kept
    | split

theorem execSidebandPrivateWrite_kept (bytes : List Byte) (s : State) :
    Keeps false s (execSidebandPrivateWrite bytes s) := by
  unfold execSidebandPrivateWrite
  refine Keeps.on fun z m h => ?_
  repeat' first
    | (extract_lets +onlyGivenNames m
       first
       | (refine Kept.fn_in_fst (r := false) (z := z) (f := m) ?_ fun hm => ?_; subst m; rotate_left; clear_value m)
       | clear_value m)
    | with_reducible apply Module.setPwr_kept
    | with_reducible apply Module.writeWords_kept
    | intro x
    | with_reducible apply_assumption -symm -exfalso
    | split

theorem execSidebandPrivateRead_kept (s : State) :
    Keeps true s (execSidebandPrivateRead s) := by
  unfold execSidebandPrivateRead
  refine Keeps.on fun z m h => ?_
  repeat' first
    | with_reducible assumption
    | with_reducible apply Module.send_kept
    | with_reducible apply Module.spend_kept
    | split

theorem execSetdasa_kept (addr : BitVec 7) (s : State) :
    Keeps true s (execSetdasa addr s) := by
  unfold execSetdasa
  refine Keeps.on fun z m h => ?_
  repeat' first
    | with_reducible assumption
    | with_reducible apply Module.setPwr_kept
    | split
    | exact fun _ => id

theorem Module.tap_kept {r : Bool} {z m : Module} (h : Kept r z m) (ir : Nat) (bits : Nat) (v : Nat) :
    Kept r z (Module.tap m ir bits v) := by
  unfold Module.tap
  repeat' first
    | with_reducible assumption
    | with_reducible apply Module.send_kept
    | with_reducible apply Module.setPwr_kept
    | exact fun _ => id

theorem execIdcode_kept (s : State) :
    Keeps true s (execIdcode s) := by
  unfold execIdcode
  refine Keeps.on fun z m h => ?_
  repeat' first
    | with_reducible assumption
    | with_reducible apply Module.tap_kept
    | split

theorem execBypass_kept (s : State) :
    Keeps true s (execBypass s) := by
  unfold execBypass
  refine Keeps.on fun z m h => ?_
  repeat' first
    | with_reducible assumption
    | with_reducible apply Module.tap_kept
    | split

theorem execSamplePreload_kept (cells : BitVec 120) (s : State) :
    Keeps true s (execSamplePreload cells s) := by
  unfold execSamplePreload
  refine Keeps.on fun z m h => ?_
  repeat' first
    | with_reducible assumption
    | with_reducible apply Module.draw_kept
    | with_reducible apply Module.tap_kept
    | with_reducible apply Module.setPwr_kept
    | split
    | exact fun _ => id

theorem execExtest_kept (s : State) :
    Keeps true s (execExtest s) := by
  unfold execExtest
  refine Keeps.on fun z m h => ?_
  repeat' first
    | with_reducible assumption
    | with_reducible apply Module.setPwr_kept
    | split
    | exact fun _ => id

theorem execStack1500_kept (stack : BitVec 5) (v : Word) (s : State) :
    Keeps true s (execStack1500 stack v s) := by
  unfold execStack1500
  refine Keeps.on fun z m h => ?_
  repeat' first
    | with_reducible assumption
    | with_reducible apply Module.shiftPort_kept
    | with_reducible apply Module.tap_kept
    | split

theorem execTapReset_kept (s : State) :
    Keeps true s (execTapReset s) := by
  unfold execTapReset
  refine Keeps.on fun z m h => ?_
  repeat' first
    | with_reducible assumption
    | with_reducible apply Module.setPwr_kept
    | exact fun _ => id

theorem idle_kept (s : State) : Keeps true s (idle s) := by
  unfold idle
  refine Keeps.on fun z m h => ?_
  split
  · exact h.upd id id rfl rfl rfl rfl (Nat.le_refl _) (List.prefix_refl _) id (fun _ => Nat.le_refl _) (Nat.le_succ _)
  · exact h

end Sys2Proof.Machine
end

