-- ==== Sys2Proof/Laws/Stands.lean ====
section
/-! SUPPORT. What operations over the units leave as it is: one lemma per field and operation. -/
namespace Sys2Proof.Machine

theorem Module.enterMode_stands (m : Module) (x : Mode) :
    (m.enterMode x).ltime = m.ltime ∧ (m.enterMode x).regs = m.regs ∧ (m.enterMode x).mem = m.mem ∧
    (m.enterMode x).asy = m.asy ∧ (m.enterMode x).fab = m.fab ∧ (m.enterMode x).guild = m.guild ∧ (m.enterMode x).ctr = m.ctr ∧
    (m.enterMode x).ptns = m.ptns ∧ (m.enterMode x).halls = m.halls ∧ (m.enterMode x).benches = m.benches ∧
    (m.enterMode x).querns = m.querns ∧ (m.enterMode x).rwk = m.rwk ∧ (m.enterMode x).tables = m.tables ∧
    (m.enterMode x).xlat = m.xlat ∧ (m.enterMode x).heldAcc = m.heldAcc ∧ (m.enterMode x).tileBad = m.tileBad ∧
    (m.enterMode x).insts = m.insts ∧ (m.enterMode x).tokens = m.tokens ∧ (m.enterMode x).gathers = m.gathers ∧
    (m.enterMode x).scatters = m.scatters ∧ (m.enterMode x).samples = m.samples ∧ (m.enterMode x).chains = m.chains ∧
    (m.enterMode x).hubs = m.hubs ∧ (m.enterMode x).groups = m.groups ∧ (m.enterMode x).nextInst = m.nextInst ∧
    (m.enterMode x).instLog = m.instLog ∧ (m.enterMode x).nextSerial = m.nextSerial ∧ (m.enterMode x).nextBuf = m.nextBuf ∧
    (m.enterMode x).nextHandle = m.nextHandle ∧ (m.enterMode x).stamp = m.stamp ∧ (m.enterMode x).free = m.free := by
  unfold Module.enterMode; try dsimp only
  (repeat' split) <;> simp
@[simp] theorem Module.enterMode_ltime (m : Module) (x : Mode) : (m.enterMode x).ltime = m.ltime := (Module.enterMode_stands m x).1
@[simp] theorem Module.enterMode_regs (m : Module) (x : Mode) : (m.enterMode x).regs = m.regs := (Module.enterMode_stands m x).2.1
@[simp] theorem Module.enterMode_mem (m : Module) (x : Mode) : (m.enterMode x).mem = m.mem := (Module.enterMode_stands m x).2.2.1
@[simp] theorem Module.enterMode_asy (m : Module) (x : Mode) : (m.enterMode x).asy = m.asy := (Module.enterMode_stands m x).2.2.2.1
@[simp] theorem Module.enterMode_fab (m : Module) (x : Mode) : (m.enterMode x).fab = m.fab := (Module.enterMode_stands m x).2.2.2.2.1
@[simp] theorem Module.enterMode_guild (m : Module) (x : Mode) : (m.enterMode x).guild = m.guild := (Module.enterMode_stands m x).2.2.2.2.2.1
@[simp] theorem Module.enterMode_ctr (m : Module) (x : Mode) : (m.enterMode x).ctr = m.ctr := (Module.enterMode_stands m x).2.2.2.2.2.2.1
@[simp] theorem Module.enterMode_ptns (m : Module) (x : Mode) : (m.enterMode x).ptns = m.ptns := (Module.enterMode_stands m x).2.2.2.2.2.2.2.1
@[simp] theorem Module.enterMode_halls (m : Module) (x : Mode) : (m.enterMode x).halls = m.halls := (Module.enterMode_stands m x).2.2.2.2.2.2.2.2.1
@[simp] theorem Module.enterMode_benches (m : Module) (x : Mode) : (m.enterMode x).benches = m.benches := (Module.enterMode_stands m x).2.2.2.2.2.2.2.2.2.1
@[simp] theorem Module.enterMode_querns (m : Module) (x : Mode) : (m.enterMode x).querns = m.querns := (Module.enterMode_stands m x).2.2.2.2.2.2.2.2.2.2.1
@[simp] theorem Module.enterMode_rwk (m : Module) (x : Mode) : (m.enterMode x).rwk = m.rwk := (Module.enterMode_stands m x).2.2.2.2.2.2.2.2.2.2.2.1
@[simp] theorem Module.enterMode_tables (m : Module) (x : Mode) : (m.enterMode x).tables = m.tables := (Module.enterMode_stands m x).2.2.2.2.2.2.2.2.2.2.2.2.1
@[simp] theorem Module.enterMode_xlat (m : Module) (x : Mode) : (m.enterMode x).xlat = m.xlat := (Module.enterMode_stands m x).2.2.2.2.2.2.2.2.2.2.2.2.2.1
@[simp] theorem Module.enterMode_heldAcc (m : Module) (x : Mode) : (m.enterMode x).heldAcc = m.heldAcc := (Module.enterMode_stands m x).2.2.2.2.2.2.2.2.2.2.2.2.2.2.1
@[simp] theorem Module.enterMode_tileBad (m : Module) (x : Mode) : (m.enterMode x).tileBad = m.tileBad := (Module.enterMode_stands m x).2.2.2.2.2.2.2.2.2.2.2.2.2.2.2.1
@[simp] theorem Module.enterMode_insts (m : Module) (x : Mode) : (m.enterMode x).insts = m.insts := (Module.enterMode_stands m x).2.2.2.2.2.2.2.2.2.2.2.2.2.2.2.2.1
@[simp] theorem Module.enterMode_tokens (m : Module) (x : Mode) : (m.enterMode x).tokens = m.tokens := (Module.enterMode_stands m x).2.2.2.2.2.2.2.2.2.2.2.2.2.2.2.2.2.1
@[simp] theorem Module.enterMode_gathers (m : Module) (x : Mode) : (m.enterMode x).gathers = m.gathers := (Module.enterMode_stands m x).2.2.2.2.2.2.2.2.2.2.2.2.2.2.2.2.2.2.1
@[simp] theorem Module.enterMode_scatters (m : Module) (x : Mode) : (m.enterMode x).scatters = m.scatters := (Module.enterMode_stands m x).2.2.2.2.2.2.2.2.2.2.2.2.2.2.2.2.2.2.2.1
@[simp] theorem Module.enterMode_samples (m : Module) (x : Mode) : (m.enterMode x).samples = m.samples := (Module.enterMode_stands m x).2.2.2.2.2.2.2.2.2.2.2.2.2.2.2.2.2.2.2.2.1
@[simp] theorem Module.enterMode_chains (m : Module) (x : Mode) : (m.enterMode x).chains = m.chains := (Module.enterMode_stands m x).2.2.2.2.2.2.2.2.2.2.2.2.2.2.2.2.2.2.2.2.2.1
@[simp] theorem Module.enterMode_hubs (m : Module) (x : Mode) : (m.enterMode x).hubs = m.hubs := (Module.enterMode_stands m x).2.2.2.2.2.2.2.2.2.2.2.2.2.2.2.2.2.2.2.2.2.2.1
@[simp] theorem Module.enterMode_groups (m : Module) (x : Mode) : (m.enterMode x).groups = m.groups := (Module.enterMode_stands m x).2.2.2.2.2.2.2.2.2.2.2.2.2.2.2.2.2.2.2.2.2.2.2.1
@[simp] theorem Module.enterMode_nextInst (m : Module) (x : Mode) : (m.enterMode x).nextInst = m.nextInst := (Module.enterMode_stands m x).2.2.2.2.2.2.2.2.2.2.2.2.2.2.2.2.2.2.2.2.2.2.2.2.1
@[simp] theorem Module.enterMode_instLog (m : Module) (x : Mode) : (m.enterMode x).instLog = m.instLog := (Module.enterMode_stands m x).2.2.2.2.2.2.2.2.2.2.2.2.2.2.2.2.2.2.2.2.2.2.2.2.2.1
@[simp] theorem Module.enterMode_nextSerial (m : Module) (x : Mode) : (m.enterMode x).nextSerial = m.nextSerial := (Module.enterMode_stands m x).2.2.2.2.2.2.2.2.2.2.2.2.2.2.2.2.2.2.2.2.2.2.2.2.2.2.1
@[simp] theorem Module.enterMode_nextBuf (m : Module) (x : Mode) : (m.enterMode x).nextBuf = m.nextBuf := (Module.enterMode_stands m x).2.2.2.2.2.2.2.2.2.2.2.2.2.2.2.2.2.2.2.2.2.2.2.2.2.2.2.1
@[simp] theorem Module.enterMode_nextHandle (m : Module) (x : Mode) : (m.enterMode x).nextHandle = m.nextHandle := (Module.enterMode_stands m x).2.2.2.2.2.2.2.2.2.2.2.2.2.2.2.2.2.2.2.2.2.2.2.2.2.2.2.2.1
@[simp] theorem Module.enterMode_stamp (m : Module) (x : Mode) : (m.enterMode x).stamp = m.stamp := (Module.enterMode_stands m x).2.2.2.2.2.2.2.2.2.2.2.2.2.2.2.2.2.2.2.2.2.2.2.2.2.2.2.2.2.1
@[simp] theorem Module.enterMode_free (m : Module) (x : Mode) : (m.enterMode x).free = m.free := (Module.enterMode_stands m x).2.2.2.2.2.2.2.2.2.2.2.2.2.2.2.2.2.2.2.2.2.2.2.2.2.2.2.2.2.2

theorem Module.setMode_stands (m : Module) (x : Mode) :
    (m.setMode x).ltime = m.ltime ∧ (m.setMode x).regs = m.regs ∧ (m.setMode x).mem = m.mem ∧ (m.setMode x).asy = m.asy ∧
    (m.setMode x).fab = m.fab ∧ (m.setMode x).guild = m.guild ∧ (m.setMode x).ctr = m.ctr ∧ (m.setMode x).ptns = m.ptns ∧
    (m.setMode x).halls = m.halls ∧ (m.setMode x).benches = m.benches ∧ (m.setMode x).querns = m.querns ∧
    (m.setMode x).rwk = m.rwk ∧ (m.setMode x).tables = m.tables ∧ (m.setMode x).xlat = m.xlat ∧
    (m.setMode x).heldAcc = m.heldAcc ∧ (m.setMode x).tileBad = m.tileBad ∧ (m.setMode x).insts = m.insts ∧
    (m.setMode x).tokens = m.tokens ∧ (m.setMode x).gathers = m.gathers ∧ (m.setMode x).scatters = m.scatters ∧
    (m.setMode x).samples = m.samples ∧ (m.setMode x).chains = m.chains ∧ (m.setMode x).hubs = m.hubs ∧
    (m.setMode x).groups = m.groups ∧ (m.setMode x).nextInst = m.nextInst ∧ (m.setMode x).instLog = m.instLog ∧
    (m.setMode x).nextSerial = m.nextSerial ∧ (m.setMode x).nextBuf = m.nextBuf ∧ (m.setMode x).nextHandle = m.nextHandle ∧
    (m.setMode x).stamp = m.stamp ∧ (m.setMode x).free = m.free := by
  unfold Module.setMode; try dsimp only
  (repeat' split) <;> simp
@[simp] theorem Module.setMode_ltime (m : Module) (x : Mode) : (m.setMode x).ltime = m.ltime := (Module.setMode_stands m x).1
@[simp] theorem Module.setMode_regs (m : Module) (x : Mode) : (m.setMode x).regs = m.regs := (Module.setMode_stands m x).2.1
@[simp] theorem Module.setMode_mem (m : Module) (x : Mode) : (m.setMode x).mem = m.mem := (Module.setMode_stands m x).2.2.1
@[simp] theorem Module.setMode_asy (m : Module) (x : Mode) : (m.setMode x).asy = m.asy := (Module.setMode_stands m x).2.2.2.1
@[simp] theorem Module.setMode_fab (m : Module) (x : Mode) : (m.setMode x).fab = m.fab := (Module.setMode_stands m x).2.2.2.2.1
@[simp] theorem Module.setMode_guild (m : Module) (x : Mode) : (m.setMode x).guild = m.guild := (Module.setMode_stands m x).2.2.2.2.2.1
@[simp] theorem Module.setMode_ctr (m : Module) (x : Mode) : (m.setMode x).ctr = m.ctr := (Module.setMode_stands m x).2.2.2.2.2.2.1
@[simp] theorem Module.setMode_ptns (m : Module) (x : Mode) : (m.setMode x).ptns = m.ptns := (Module.setMode_stands m x).2.2.2.2.2.2.2.1
@[simp] theorem Module.setMode_halls (m : Module) (x : Mode) : (m.setMode x).halls = m.halls := (Module.setMode_stands m x).2.2.2.2.2.2.2.2.1
@[simp] theorem Module.setMode_benches (m : Module) (x : Mode) : (m.setMode x).benches = m.benches := (Module.setMode_stands m x).2.2.2.2.2.2.2.2.2.1
@[simp] theorem Module.setMode_querns (m : Module) (x : Mode) : (m.setMode x).querns = m.querns := (Module.setMode_stands m x).2.2.2.2.2.2.2.2.2.2.1
@[simp] theorem Module.setMode_rwk (m : Module) (x : Mode) : (m.setMode x).rwk = m.rwk := (Module.setMode_stands m x).2.2.2.2.2.2.2.2.2.2.2.1
@[simp] theorem Module.setMode_tables (m : Module) (x : Mode) : (m.setMode x).tables = m.tables := (Module.setMode_stands m x).2.2.2.2.2.2.2.2.2.2.2.2.1
@[simp] theorem Module.setMode_xlat (m : Module) (x : Mode) : (m.setMode x).xlat = m.xlat := (Module.setMode_stands m x).2.2.2.2.2.2.2.2.2.2.2.2.2.1
@[simp] theorem Module.setMode_heldAcc (m : Module) (x : Mode) : (m.setMode x).heldAcc = m.heldAcc := (Module.setMode_stands m x).2.2.2.2.2.2.2.2.2.2.2.2.2.2.1
@[simp] theorem Module.setMode_tileBad (m : Module) (x : Mode) : (m.setMode x).tileBad = m.tileBad := (Module.setMode_stands m x).2.2.2.2.2.2.2.2.2.2.2.2.2.2.2.1
@[simp] theorem Module.setMode_insts (m : Module) (x : Mode) : (m.setMode x).insts = m.insts := (Module.setMode_stands m x).2.2.2.2.2.2.2.2.2.2.2.2.2.2.2.2.1
@[simp] theorem Module.setMode_tokens (m : Module) (x : Mode) : (m.setMode x).tokens = m.tokens := (Module.setMode_stands m x).2.2.2.2.2.2.2.2.2.2.2.2.2.2.2.2.2.1
@[simp] theorem Module.setMode_gathers (m : Module) (x : Mode) : (m.setMode x).gathers = m.gathers := (Module.setMode_stands m x).2.2.2.2.2.2.2.2.2.2.2.2.2.2.2.2.2.2.1
@[simp] theorem Module.setMode_scatters (m : Module) (x : Mode) : (m.setMode x).scatters = m.scatters := (Module.setMode_stands m x).2.2.2.2.2.2.2.2.2.2.2.2.2.2.2.2.2.2.2.1
@[simp] theorem Module.setMode_samples (m : Module) (x : Mode) : (m.setMode x).samples = m.samples := (Module.setMode_stands m x).2.2.2.2.2.2.2.2.2.2.2.2.2.2.2.2.2.2.2.2.1
@[simp] theorem Module.setMode_chains (m : Module) (x : Mode) : (m.setMode x).chains = m.chains := (Module.setMode_stands m x).2.2.2.2.2.2.2.2.2.2.2.2.2.2.2.2.2.2.2.2.2.1
@[simp] theorem Module.setMode_hubs (m : Module) (x : Mode) : (m.setMode x).hubs = m.hubs := (Module.setMode_stands m x).2.2.2.2.2.2.2.2.2.2.2.2.2.2.2.2.2.2.2.2.2.2.1
@[simp] theorem Module.setMode_groups (m : Module) (x : Mode) : (m.setMode x).groups = m.groups := (Module.setMode_stands m x).2.2.2.2.2.2.2.2.2.2.2.2.2.2.2.2.2.2.2.2.2.2.2.1
@[simp] theorem Module.setMode_nextInst (m : Module) (x : Mode) : (m.setMode x).nextInst = m.nextInst := (Module.setMode_stands m x).2.2.2.2.2.2.2.2.2.2.2.2.2.2.2.2.2.2.2.2.2.2.2.2.1
@[simp] theorem Module.setMode_instLog (m : Module) (x : Mode) : (m.setMode x).instLog = m.instLog := (Module.setMode_stands m x).2.2.2.2.2.2.2.2.2.2.2.2.2.2.2.2.2.2.2.2.2.2.2.2.2.1
@[simp] theorem Module.setMode_nextSerial (m : Module) (x : Mode) : (m.setMode x).nextSerial = m.nextSerial := (Module.setMode_stands m x).2.2.2.2.2.2.2.2.2.2.2.2.2.2.2.2.2.2.2.2.2.2.2.2.2.2.1
@[simp] theorem Module.setMode_nextBuf (m : Module) (x : Mode) : (m.setMode x).nextBuf = m.nextBuf := (Module.setMode_stands m x).2.2.2.2.2.2.2.2.2.2.2.2.2.2.2.2.2.2.2.2.2.2.2.2.2.2.2.1
@[simp] theorem Module.setMode_nextHandle (m : Module) (x : Mode) : (m.setMode x).nextHandle = m.nextHandle := (Module.setMode_stands m x).2.2.2.2.2.2.2.2.2.2.2.2.2.2.2.2.2.2.2.2.2.2.2.2.2.2.2.2.1
@[simp] theorem Module.setMode_stamp (m : Module) (x : Mode) : (m.setMode x).stamp = m.stamp := (Module.setMode_stands m x).2.2.2.2.2.2.2.2.2.2.2.2.2.2.2.2.2.2.2.2.2.2.2.2.2.2.2.2.2.1
@[simp] theorem Module.setMode_free (m : Module) (x : Mode) : (m.setMode x).free = m.free := (Module.setMode_stands m x).2.2.2.2.2.2.2.2.2.2.2.2.2.2.2.2.2.2.2.2.2.2.2.2.2.2.2.2.2.2

theorem Module.toWarden_stands (m : Module) (x : FabMsg) :
    (m.toWarden x).pwr = m.pwr ∧ (m.toWarden x).ltime = m.ltime ∧ (m.toWarden x).regs = m.regs ∧ (m.toWarden x).mem = m.mem ∧
    (m.toWarden x).asy = m.asy ∧ (m.toWarden x).guild = m.guild ∧ (m.toWarden x).ctr = m.ctr ∧ (m.toWarden x).ptns = m.ptns ∧
    (m.toWarden x).halls = m.halls ∧ (m.toWarden x).benches = m.benches ∧ (m.toWarden x).querns = m.querns ∧
    (m.toWarden x).rwk = m.rwk ∧ (m.toWarden x).tables = m.tables ∧ (m.toWarden x).xlat = m.xlat ∧
    (m.toWarden x).heldAcc = m.heldAcc ∧ (m.toWarden x).tileBad = m.tileBad ∧ (m.toWarden x).insts = m.insts ∧
    (m.toWarden x).tokens = m.tokens ∧ (m.toWarden x).gathers = m.gathers ∧ (m.toWarden x).scatters = m.scatters ∧
    (m.toWarden x).samples = m.samples ∧ (m.toWarden x).chains = m.chains ∧ (m.toWarden x).hubs = m.hubs ∧
    (m.toWarden x).groups = m.groups ∧ (m.toWarden x).nextInst = m.nextInst ∧ (m.toWarden x).instLog = m.instLog ∧
    (m.toWarden x).nextSerial = m.nextSerial ∧ (m.toWarden x).nextBuf = m.nextBuf ∧ (m.toWarden x).nextHandle = m.nextHandle ∧
    (m.toWarden x).stamp = m.stamp ∧ (m.toWarden x).free = m.free := by
  unfold Module.toWarden; simp
@[simp] theorem Module.toWarden_pwr (m : Module) (x : FabMsg) : (m.toWarden x).pwr = m.pwr := (Module.toWarden_stands m x).1
@[simp] theorem Module.toWarden_ltime (m : Module) (x : FabMsg) : (m.toWarden x).ltime = m.ltime := (Module.toWarden_stands m x).2.1
@[simp] theorem Module.toWarden_regs (m : Module) (x : FabMsg) : (m.toWarden x).regs = m.regs := (Module.toWarden_stands m x).2.2.1
@[simp] theorem Module.toWarden_mem (m : Module) (x : FabMsg) : (m.toWarden x).mem = m.mem := (Module.toWarden_stands m x).2.2.2.1
@[simp] theorem Module.toWarden_asy (m : Module) (x : FabMsg) : (m.toWarden x).asy = m.asy := (Module.toWarden_stands m x).2.2.2.2.1
@[simp] theorem Module.toWarden_guild (m : Module) (x : FabMsg) : (m.toWarden x).guild = m.guild := (Module.toWarden_stands m x).2.2.2.2.2.1
@[simp] theorem Module.toWarden_ctr (m : Module) (x : FabMsg) : (m.toWarden x).ctr = m.ctr := (Module.toWarden_stands m x).2.2.2.2.2.2.1
@[simp] theorem Module.toWarden_ptns (m : Module) (x : FabMsg) : (m.toWarden x).ptns = m.ptns := (Module.toWarden_stands m x).2.2.2.2.2.2.2.1
@[simp] theorem Module.toWarden_halls (m : Module) (x : FabMsg) : (m.toWarden x).halls = m.halls := (Module.toWarden_stands m x).2.2.2.2.2.2.2.2.1
@[simp] theorem Module.toWarden_benches (m : Module) (x : FabMsg) : (m.toWarden x).benches = m.benches := (Module.toWarden_stands m x).2.2.2.2.2.2.2.2.2.1
@[simp] theorem Module.toWarden_querns (m : Module) (x : FabMsg) : (m.toWarden x).querns = m.querns := (Module.toWarden_stands m x).2.2.2.2.2.2.2.2.2.2.1
@[simp] theorem Module.toWarden_rwk (m : Module) (x : FabMsg) : (m.toWarden x).rwk = m.rwk := (Module.toWarden_stands m x).2.2.2.2.2.2.2.2.2.2.2.1
@[simp] theorem Module.toWarden_tables (m : Module) (x : FabMsg) : (m.toWarden x).tables = m.tables := (Module.toWarden_stands m x).2.2.2.2.2.2.2.2.2.2.2.2.1
@[simp] theorem Module.toWarden_xlat (m : Module) (x : FabMsg) : (m.toWarden x).xlat = m.xlat := (Module.toWarden_stands m x).2.2.2.2.2.2.2.2.2.2.2.2.2.1
@[simp] theorem Module.toWarden_heldAcc (m : Module) (x : FabMsg) : (m.toWarden x).heldAcc = m.heldAcc := (Module.toWarden_stands m x).2.2.2.2.2.2.2.2.2.2.2.2.2.2.1
@[simp] theorem Module.toWarden_tileBad (m : Module) (x : FabMsg) : (m.toWarden x).tileBad = m.tileBad := (Module.toWarden_stands m x).2.2.2.2.2.2.2.2.2.2.2.2.2.2.2.1
@[simp] theorem Module.toWarden_insts (m : Module) (x : FabMsg) : (m.toWarden x).insts = m.insts := (Module.toWarden_stands m x).2.2.2.2.2.2.2.2.2.2.2.2.2.2.2.2.1
@[simp] theorem Module.toWarden_tokens (m : Module) (x : FabMsg) : (m.toWarden x).tokens = m.tokens := (Module.toWarden_stands m x).2.2.2.2.2.2.2.2.2.2.2.2.2.2.2.2.2.1
@[simp] theorem Module.toWarden_gathers (m : Module) (x : FabMsg) : (m.toWarden x).gathers = m.gathers := (Module.toWarden_stands m x).2.2.2.2.2.2.2.2.2.2.2.2.2.2.2.2.2.2.1
@[simp] theorem Module.toWarden_scatters (m : Module) (x : FabMsg) : (m.toWarden x).scatters = m.scatters := (Module.toWarden_stands m x).2.2.2.2.2.2.2.2.2.2.2.2.2.2.2.2.2.2.2.1
@[simp] theorem Module.toWarden_samples (m : Module) (x : FabMsg) : (m.toWarden x).samples = m.samples := (Module.toWarden_stands m x).2.2.2.2.2.2.2.2.2.2.2.2.2.2.2.2.2.2.2.2.1
@[simp] theorem Module.toWarden_chains (m : Module) (x : FabMsg) : (m.toWarden x).chains = m.chains := (Module.toWarden_stands m x).2.2.2.2.2.2.2.2.2.2.2.2.2.2.2.2.2.2.2.2.2.1
@[simp] theorem Module.toWarden_hubs (m : Module) (x : FabMsg) : (m.toWarden x).hubs = m.hubs := (Module.toWarden_stands m x).2.2.2.2.2.2.2.2.2.2.2.2.2.2.2.2.2.2.2.2.2.2.1
@[simp] theorem Module.toWarden_groups (m : Module) (x : FabMsg) : (m.toWarden x).groups = m.groups := (Module.toWarden_stands m x).2.2.2.2.2.2.2.2.2.2.2.2.2.2.2.2.2.2.2.2.2.2.2.1
@[simp] theorem Module.toWarden_nextInst (m : Module) (x : FabMsg) : (m.toWarden x).nextInst = m.nextInst := (Module.toWarden_stands m x).2.2.2.2.2.2.2.2.2.2.2.2.2.2.2.2.2.2.2.2.2.2.2.2.1
@[simp] theorem Module.toWarden_instLog (m : Module) (x : FabMsg) : (m.toWarden x).instLog = m.instLog := (Module.toWarden_stands m x).2.2.2.2.2.2.2.2.2.2.2.2.2.2.2.2.2.2.2.2.2.2.2.2.2.1
@[simp] theorem Module.toWarden_nextSerial (m : Module) (x : FabMsg) : (m.toWarden x).nextSerial = m.nextSerial := (Module.toWarden_stands m x).2.2.2.2.2.2.2.2.2.2.2.2.2.2.2.2.2.2.2.2.2.2.2.2.2.2.1
@[simp] theorem Module.toWarden_nextBuf (m : Module) (x : FabMsg) : (m.toWarden x).nextBuf = m.nextBuf := (Module.toWarden_stands m x).2.2.2.2.2.2.2.2.2.2.2.2.2.2.2.2.2.2.2.2.2.2.2.2.2.2.2.1
@[simp] theorem Module.toWarden_nextHandle (m : Module) (x : FabMsg) : (m.toWarden x).nextHandle = m.nextHandle := (Module.toWarden_stands m x).2.2.2.2.2.2.2.2.2.2.2.2.2.2.2.2.2.2.2.2.2.2.2.2.2.2.2.2.1
@[simp] theorem Module.toWarden_stamp (m : Module) (x : FabMsg) : (m.toWarden x).stamp = m.stamp := (Module.toWarden_stands m x).2.2.2.2.2.2.2.2.2.2.2.2.2.2.2.2.2.2.2.2.2.2.2.2.2.2.2.2.2.1
@[simp] theorem Module.toWarden_free (m : Module) (x : FabMsg) : (m.toWarden x).free = m.free := (Module.toWarden_stands m x).2.2.2.2.2.2.2.2.2.2.2.2.2.2.2.2.2.2.2.2.2.2.2.2.2.2.2.2.2.2

theorem Module.sendEntry_stands (m : Module) (x : QueuePair) (e : QEvent) :
    (m.sendEntry x e).pwr = m.pwr ∧ (m.sendEntry x e).ltime = m.ltime ∧ (m.sendEntry x e).mem = m.mem ∧
    (m.sendEntry x e).asy = m.asy ∧ (m.sendEntry x e).fab = m.fab ∧ (m.sendEntry x e).guild = m.guild ∧
    (m.sendEntry x e).ptns = m.ptns ∧ (m.sendEntry x e).halls = m.halls ∧ (m.sendEntry x e).benches = m.benches ∧
    (m.sendEntry x e).querns = m.querns ∧ (m.sendEntry x e).rwk = m.rwk ∧ (m.sendEntry x e).tables = m.tables ∧
    (m.sendEntry x e).xlat = m.xlat ∧ (m.sendEntry x e).heldAcc = m.heldAcc ∧ (m.sendEntry x e).tileBad = m.tileBad ∧
    (m.sendEntry x e).insts = m.insts ∧ (m.sendEntry x e).tokens = m.tokens ∧ (m.sendEntry x e).gathers = m.gathers ∧
    (m.sendEntry x e).scatters = m.scatters ∧ (m.sendEntry x e).samples = m.samples ∧ (m.sendEntry x e).chains = m.chains ∧
    (m.sendEntry x e).hubs = m.hubs ∧ (m.sendEntry x e).groups = m.groups ∧ (m.sendEntry x e).nextInst = m.nextInst ∧
    (m.sendEntry x e).instLog = m.instLog ∧ (m.sendEntry x e).nextSerial = m.nextSerial ∧
    (m.sendEntry x e).nextBuf = m.nextBuf ∧ (m.sendEntry x e).nextHandle = m.nextHandle ∧ (m.sendEntry x e).stamp = m.stamp ∧
    (m.sendEntry x e).free = m.free := by
  unfold Module.sendEntry; try dsimp only
  (repeat' split) <;> simp
@[simp] theorem Module.sendEntry_pwr (m : Module) (x : QueuePair) (e : QEvent) : (m.sendEntry x e).pwr = m.pwr := (Module.sendEntry_stands m x e).1
@[simp] theorem Module.sendEntry_ltime (m : Module) (x : QueuePair) (e : QEvent) : (m.sendEntry x e).ltime = m.ltime := (Module.sendEntry_stands m x e).2.1
@[simp] theorem Module.sendEntry_mem (m : Module) (x : QueuePair) (e : QEvent) : (m.sendEntry x e).mem = m.mem := (Module.sendEntry_stands m x e).2.2.1
@[simp] theorem Module.sendEntry_asy (m : Module) (x : QueuePair) (e : QEvent) : (m.sendEntry x e).asy = m.asy := (Module.sendEntry_stands m x e).2.2.2.1
@[simp] theorem Module.sendEntry_fab (m : Module) (x : QueuePair) (e : QEvent) : (m.sendEntry x e).fab = m.fab := (Module.sendEntry_stands m x e).2.2.2.2.1
@[simp] theorem Module.sendEntry_guild (m : Module) (x : QueuePair) (e : QEvent) : (m.sendEntry x e).guild = m.guild := (Module.sendEntry_stands m x e).2.2.2.2.2.1
@[simp] theorem Module.sendEntry_ptns (m : Module) (x : QueuePair) (e : QEvent) : (m.sendEntry x e).ptns = m.ptns := (Module.sendEntry_stands m x e).2.2.2.2.2.2.1
@[simp] theorem Module.sendEntry_halls (m : Module) (x : QueuePair) (e : QEvent) : (m.sendEntry x e).halls = m.halls := (Module.sendEntry_stands m x e).2.2.2.2.2.2.2.1
@[simp] theorem Module.sendEntry_benches (m : Module) (x : QueuePair) (e : QEvent) : (m.sendEntry x e).benches = m.benches := (Module.sendEntry_stands m x e).2.2.2.2.2.2.2.2.1
@[simp] theorem Module.sendEntry_querns (m : Module) (x : QueuePair) (e : QEvent) : (m.sendEntry x e).querns = m.querns := (Module.sendEntry_stands m x e).2.2.2.2.2.2.2.2.2.1
@[simp] theorem Module.sendEntry_rwk (m : Module) (x : QueuePair) (e : QEvent) : (m.sendEntry x e).rwk = m.rwk := (Module.sendEntry_stands m x e).2.2.2.2.2.2.2.2.2.2.1
@[simp] theorem Module.sendEntry_tables (m : Module) (x : QueuePair) (e : QEvent) : (m.sendEntry x e).tables = m.tables := (Module.sendEntry_stands m x e).2.2.2.2.2.2.2.2.2.2.2.1
@[simp] theorem Module.sendEntry_xlat (m : Module) (x : QueuePair) (e : QEvent) : (m.sendEntry x e).xlat = m.xlat := (Module.sendEntry_stands m x e).2.2.2.2.2.2.2.2.2.2.2.2.1
@[simp] theorem Module.sendEntry_heldAcc (m : Module) (x : QueuePair) (e : QEvent) : (m.sendEntry x e).heldAcc = m.heldAcc := (Module.sendEntry_stands m x e).2.2.2.2.2.2.2.2.2.2.2.2.2.1
@[simp] theorem Module.sendEntry_tileBad (m : Module) (x : QueuePair) (e : QEvent) : (m.sendEntry x e).tileBad = m.tileBad := (Module.sendEntry_stands m x e).2.2.2.2.2.2.2.2.2.2.2.2.2.2.1
@[simp] theorem Module.sendEntry_insts (m : Module) (x : QueuePair) (e : QEvent) : (m.sendEntry x e).insts = m.insts := (Module.sendEntry_stands m x e).2.2.2.2.2.2.2.2.2.2.2.2.2.2.2.1
@[simp] theorem Module.sendEntry_tokens (m : Module) (x : QueuePair) (e : QEvent) : (m.sendEntry x e).tokens = m.tokens := (Module.sendEntry_stands m x e).2.2.2.2.2.2.2.2.2.2.2.2.2.2.2.2.1
@[simp] theorem Module.sendEntry_gathers (m : Module) (x : QueuePair) (e : QEvent) : (m.sendEntry x e).gathers = m.gathers := (Module.sendEntry_stands m x e).2.2.2.2.2.2.2.2.2.2.2.2.2.2.2.2.2.1
@[simp] theorem Module.sendEntry_scatters (m : Module) (x : QueuePair) (e : QEvent) : (m.sendEntry x e).scatters = m.scatters := (Module.sendEntry_stands m x e).2.2.2.2.2.2.2.2.2.2.2.2.2.2.2.2.2.2.1
@[simp] theorem Module.sendEntry_samples (m : Module) (x : QueuePair) (e : QEvent) : (m.sendEntry x e).samples = m.samples := (Module.sendEntry_stands m x e).2.2.2.2.2.2.2.2.2.2.2.2.2.2.2.2.2.2.2.1
@[simp] theorem Module.sendEntry_chains (m : Module) (x : QueuePair) (e : QEvent) : (m.sendEntry x e).chains = m.chains := (Module.sendEntry_stands m x e).2.2.2.2.2.2.2.2.2.2.2.2.2.2.2.2.2.2.2.2.1
@[simp] theorem Module.sendEntry_hubs (m : Module) (x : QueuePair) (e : QEvent) : (m.sendEntry x e).hubs = m.hubs := (Module.sendEntry_stands m x e).2.2.2.2.2.2.2.2.2.2.2.2.2.2.2.2.2.2.2.2.2.1
@[simp] theorem Module.sendEntry_groups (m : Module) (x : QueuePair) (e : QEvent) : (m.sendEntry x e).groups = m.groups := (Module.sendEntry_stands m x e).2.2.2.2.2.2.2.2.2.2.2.2.2.2.2.2.2.2.2.2.2.2.1
@[simp] theorem Module.sendEntry_nextInst (m : Module) (x : QueuePair) (e : QEvent) : (m.sendEntry x e).nextInst = m.nextInst := (Module.sendEntry_stands m x e).2.2.2.2.2.2.2.2.2.2.2.2.2.2.2.2.2.2.2.2.2.2.2.1
@[simp] theorem Module.sendEntry_instLog (m : Module) (x : QueuePair) (e : QEvent) : (m.sendEntry x e).instLog = m.instLog := (Module.sendEntry_stands m x e).2.2.2.2.2.2.2.2.2.2.2.2.2.2.2.2.2.2.2.2.2.2.2.2.1
@[simp] theorem Module.sendEntry_nextSerial (m : Module) (x : QueuePair) (e : QEvent) : (m.sendEntry x e).nextSerial = m.nextSerial := (Module.sendEntry_stands m x e).2.2.2.2.2.2.2.2.2.2.2.2.2.2.2.2.2.2.2.2.2.2.2.2.2.1
@[simp] theorem Module.sendEntry_nextBuf (m : Module) (x : QueuePair) (e : QEvent) : (m.sendEntry x e).nextBuf = m.nextBuf := (Module.sendEntry_stands m x e).2.2.2.2.2.2.2.2.2.2.2.2.2.2.2.2.2.2.2.2.2.2.2.2.2.2.1
@[simp] theorem Module.sendEntry_nextHandle (m : Module) (x : QueuePair) (e : QEvent) : (m.sendEntry x e).nextHandle = m.nextHandle := (Module.sendEntry_stands m x e).2.2.2.2.2.2.2.2.2.2.2.2.2.2.2.2.2.2.2.2.2.2.2.2.2.2.2.1
@[simp] theorem Module.sendEntry_stamp (m : Module) (x : QueuePair) (e : QEvent) : (m.sendEntry x e).stamp = m.stamp := (Module.sendEntry_stands m x e).2.2.2.2.2.2.2.2.2.2.2.2.2.2.2.2.2.2.2.2.2.2.2.2.2.2.2.2.1
@[simp] theorem Module.sendEntry_free (m : Module) (x : QueuePair) (e : QEvent) : (m.sendEntry x e).free = m.free := (Module.sendEntry_stands m x e).2.2.2.2.2.2.2.2.2.2.2.2.2.2.2.2.2.2.2.2.2.2.2.2.2.2.2.2.2

theorem Module.sendLost_stands (m : Module) (x : QueuePair) :
    (m.sendLost x).pwr = m.pwr ∧ (m.sendLost x).ltime = m.ltime ∧ (m.sendLost x).mem = m.mem ∧ (m.sendLost x).asy = m.asy ∧
    (m.sendLost x).fab = m.fab ∧ (m.sendLost x).guild = m.guild ∧ (m.sendLost x).ptns = m.ptns ∧
    (m.sendLost x).halls = m.halls ∧ (m.sendLost x).benches = m.benches ∧ (m.sendLost x).querns = m.querns ∧
    (m.sendLost x).rwk = m.rwk ∧ (m.sendLost x).tables = m.tables ∧ (m.sendLost x).xlat = m.xlat ∧
    (m.sendLost x).heldAcc = m.heldAcc ∧ (m.sendLost x).tileBad = m.tileBad ∧ (m.sendLost x).insts = m.insts ∧
    (m.sendLost x).tokens = m.tokens ∧ (m.sendLost x).gathers = m.gathers ∧ (m.sendLost x).scatters = m.scatters ∧
    (m.sendLost x).samples = m.samples ∧ (m.sendLost x).chains = m.chains ∧ (m.sendLost x).hubs = m.hubs ∧
    (m.sendLost x).groups = m.groups ∧ (m.sendLost x).nextInst = m.nextInst ∧ (m.sendLost x).instLog = m.instLog ∧
    (m.sendLost x).nextSerial = m.nextSerial ∧ (m.sendLost x).nextBuf = m.nextBuf ∧ (m.sendLost x).nextHandle = m.nextHandle ∧
    (m.sendLost x).stamp = m.stamp ∧ (m.sendLost x).free = m.free := by
  unfold Module.sendLost; try dsimp only
  (repeat' split) <;> simp
@[simp] theorem Module.sendLost_pwr (m : Module) (x : QueuePair) : (m.sendLost x).pwr = m.pwr := (Module.sendLost_stands m x).1
@[simp] theorem Module.sendLost_ltime (m : Module) (x : QueuePair) : (m.sendLost x).ltime = m.ltime := (Module.sendLost_stands m x).2.1
@[simp] theorem Module.sendLost_mem (m : Module) (x : QueuePair) : (m.sendLost x).mem = m.mem := (Module.sendLost_stands m x).2.2.1
@[simp] theorem Module.sendLost_asy (m : Module) (x : QueuePair) : (m.sendLost x).asy = m.asy := (Module.sendLost_stands m x).2.2.2.1
@[simp] theorem Module.sendLost_fab (m : Module) (x : QueuePair) : (m.sendLost x).fab = m.fab := (Module.sendLost_stands m x).2.2.2.2.1
@[simp] theorem Module.sendLost_guild (m : Module) (x : QueuePair) : (m.sendLost x).guild = m.guild := (Module.sendLost_stands m x).2.2.2.2.2.1
@[simp] theorem Module.sendLost_ptns (m : Module) (x : QueuePair) : (m.sendLost x).ptns = m.ptns := (Module.sendLost_stands m x).2.2.2.2.2.2.1
@[simp] theorem Module.sendLost_halls (m : Module) (x : QueuePair) : (m.sendLost x).halls = m.halls := (Module.sendLost_stands m x).2.2.2.2.2.2.2.1
@[simp] theorem Module.sendLost_benches (m : Module) (x : QueuePair) : (m.sendLost x).benches = m.benches := (Module.sendLost_stands m x).2.2.2.2.2.2.2.2.1
@[simp] theorem Module.sendLost_querns (m : Module) (x : QueuePair) : (m.sendLost x).querns = m.querns := (Module.sendLost_stands m x).2.2.2.2.2.2.2.2.2.1
@[simp] theorem Module.sendLost_rwk (m : Module) (x : QueuePair) : (m.sendLost x).rwk = m.rwk := (Module.sendLost_stands m x).2.2.2.2.2.2.2.2.2.2.1
@[simp] theorem Module.sendLost_tables (m : Module) (x : QueuePair) : (m.sendLost x).tables = m.tables := (Module.sendLost_stands m x).2.2.2.2.2.2.2.2.2.2.2.1
@[simp] theorem Module.sendLost_xlat (m : Module) (x : QueuePair) : (m.sendLost x).xlat = m.xlat := (Module.sendLost_stands m x).2.2.2.2.2.2.2.2.2.2.2.2.1
@[simp] theorem Module.sendLost_heldAcc (m : Module) (x : QueuePair) : (m.sendLost x).heldAcc = m.heldAcc := (Module.sendLost_stands m x).2.2.2.2.2.2.2.2.2.2.2.2.2.1
@[simp] theorem Module.sendLost_tileBad (m : Module) (x : QueuePair) : (m.sendLost x).tileBad = m.tileBad := (Module.sendLost_stands m x).2.2.2.2.2.2.2.2.2.2.2.2.2.2.1
@[simp] theorem Module.sendLost_insts (m : Module) (x : QueuePair) : (m.sendLost x).insts = m.insts := (Module.sendLost_stands m x).2.2.2.2.2.2.2.2.2.2.2.2.2.2.2.1
@[simp] theorem Module.sendLost_tokens (m : Module) (x : QueuePair) : (m.sendLost x).tokens = m.tokens := (Module.sendLost_stands m x).2.2.2.2.2.2.2.2.2.2.2.2.2.2.2.2.1
@[simp] theorem Module.sendLost_gathers (m : Module) (x : QueuePair) : (m.sendLost x).gathers = m.gathers := (Module.sendLost_stands m x).2.2.2.2.2.2.2.2.2.2.2.2.2.2.2.2.2.1
@[simp] theorem Module.sendLost_scatters (m : Module) (x : QueuePair) : (m.sendLost x).scatters = m.scatters := (Module.sendLost_stands m x).2.2.2.2.2.2.2.2.2.2.2.2.2.2.2.2.2.2.1
@[simp] theorem Module.sendLost_samples (m : Module) (x : QueuePair) : (m.sendLost x).samples = m.samples := (Module.sendLost_stands m x).2.2.2.2.2.2.2.2.2.2.2.2.2.2.2.2.2.2.2.1
@[simp] theorem Module.sendLost_chains (m : Module) (x : QueuePair) : (m.sendLost x).chains = m.chains := (Module.sendLost_stands m x).2.2.2.2.2.2.2.2.2.2.2.2.2.2.2.2.2.2.2.2.1
@[simp] theorem Module.sendLost_hubs (m : Module) (x : QueuePair) : (m.sendLost x).hubs = m.hubs := (Module.sendLost_stands m x).2.2.2.2.2.2.2.2.2.2.2.2.2.2.2.2.2.2.2.2.2.1
@[simp] theorem Module.sendLost_groups (m : Module) (x : QueuePair) : (m.sendLost x).groups = m.groups := (Module.sendLost_stands m x).2.2.2.2.2.2.2.2.2.2.2.2.2.2.2.2.2.2.2.2.2.2.1
@[simp] theorem Module.sendLost_nextInst (m : Module) (x : QueuePair) : (m.sendLost x).nextInst = m.nextInst := (Module.sendLost_stands m x).2.2.2.2.2.2.2.2.2.2.2.2.2.2.2.2.2.2.2.2.2.2.2.1
@[simp] theorem Module.sendLost_instLog (m : Module) (x : QueuePair) : (m.sendLost x).instLog = m.instLog := (Module.sendLost_stands m x).2.2.2.2.2.2.2.2.2.2.2.2.2.2.2.2.2.2.2.2.2.2.2.2.1
@[simp] theorem Module.sendLost_nextSerial (m : Module) (x : QueuePair) : (m.sendLost x).nextSerial = m.nextSerial := (Module.sendLost_stands m x).2.2.2.2.2.2.2.2.2.2.2.2.2.2.2.2.2.2.2.2.2.2.2.2.2.1
@[simp] theorem Module.sendLost_nextBuf (m : Module) (x : QueuePair) : (m.sendLost x).nextBuf = m.nextBuf := (Module.sendLost_stands m x).2.2.2.2.2.2.2.2.2.2.2.2.2.2.2.2.2.2.2.2.2.2.2.2.2.2.1
@[simp] theorem Module.sendLost_nextHandle (m : Module) (x : QueuePair) : (m.sendLost x).nextHandle = m.nextHandle := (Module.sendLost_stands m x).2.2.2.2.2.2.2.2.2.2.2.2.2.2.2.2.2.2.2.2.2.2.2.2.2.2.2.1
@[simp] theorem Module.sendLost_stamp (m : Module) (x : QueuePair) : (m.sendLost x).stamp = m.stamp := (Module.sendLost_stands m x).2.2.2.2.2.2.2.2.2.2.2.2.2.2.2.2.2.2.2.2.2.2.2.2.2.2.2.2.1
@[simp] theorem Module.sendLost_free (m : Module) (x : QueuePair) : (m.sendLost x).free = m.free := (Module.sendLost_stands m x).2.2.2.2.2.2.2.2.2.2.2.2.2.2.2.2.2.2.2.2.2.2.2.2.2.2.2.2.2

theorem Module.pump_stands (m : Module) (q : Nat) :
    (m.pump q).pwr = m.pwr ∧ (m.pump q).ltime = m.ltime ∧ (m.pump q).mem = m.mem ∧ (m.pump q).asy = m.asy ∧
    (m.pump q).fab = m.fab ∧ (m.pump q).guild = m.guild ∧ (m.pump q).ptns = m.ptns ∧ (m.pump q).halls = m.halls ∧
    (m.pump q).benches = m.benches ∧ (m.pump q).querns = m.querns ∧ (m.pump q).rwk = m.rwk ∧ (m.pump q).tables = m.tables ∧
    (m.pump q).xlat = m.xlat ∧ (m.pump q).heldAcc = m.heldAcc ∧ (m.pump q).tileBad = m.tileBad ∧ (m.pump q).insts = m.insts ∧
    (m.pump q).tokens = m.tokens ∧ (m.pump q).gathers = m.gathers ∧ (m.pump q).scatters = m.scatters ∧
    (m.pump q).samples = m.samples ∧ (m.pump q).chains = m.chains ∧ (m.pump q).hubs = m.hubs ∧ (m.pump q).groups = m.groups ∧
    (m.pump q).nextInst = m.nextInst ∧ (m.pump q).instLog = m.instLog ∧ (m.pump q).nextSerial = m.nextSerial ∧
    (m.pump q).nextBuf = m.nextBuf ∧ (m.pump q).nextHandle = m.nextHandle ∧ (m.pump q).stamp = m.stamp ∧
    (m.pump q).free = m.free := by
  unfold Module.pump
  generalize ((m.qp q).map fun x => x.outq.length + 1).getD 0 = n
  induction n generalizing m with
  | zero => simp [Module.pump.go]
  | succ n ih => unfold Module.pump.go; (repeat' split) <;> simp [ih]
@[simp] theorem Module.pump_pwr (m : Module) (q : Nat) : (m.pump q).pwr = m.pwr := (Module.pump_stands m q).1
@[simp] theorem Module.pump_ltime (m : Module) (q : Nat) : (m.pump q).ltime = m.ltime := (Module.pump_stands m q).2.1
@[simp] theorem Module.pump_mem (m : Module) (q : Nat) : (m.pump q).mem = m.mem := (Module.pump_stands m q).2.2.1
@[simp] theorem Module.pump_asy (m : Module) (q : Nat) : (m.pump q).asy = m.asy := (Module.pump_stands m q).2.2.2.1
@[simp] theorem Module.pump_fab (m : Module) (q : Nat) : (m.pump q).fab = m.fab := (Module.pump_stands m q).2.2.2.2.1
@[simp] theorem Module.pump_guild (m : Module) (q : Nat) : (m.pump q).guild = m.guild := (Module.pump_stands m q).2.2.2.2.2.1
@[simp] theorem Module.pump_ptns (m : Module) (q : Nat) : (m.pump q).ptns = m.ptns := (Module.pump_stands m q).2.2.2.2.2.2.1
@[simp] theorem Module.pump_halls (m : Module) (q : Nat) : (m.pump q).halls = m.halls := (Module.pump_stands m q).2.2.2.2.2.2.2.1
@[simp] theorem Module.pump_benches (m : Module) (q : Nat) : (m.pump q).benches = m.benches := (Module.pump_stands m q).2.2.2.2.2.2.2.2.1
@[simp] theorem Module.pump_querns (m : Module) (q : Nat) : (m.pump q).querns = m.querns := (Module.pump_stands m q).2.2.2.2.2.2.2.2.2.1
@[simp] theorem Module.pump_rwk (m : Module) (q : Nat) : (m.pump q).rwk = m.rwk := (Module.pump_stands m q).2.2.2.2.2.2.2.2.2.2.1
@[simp] theorem Module.pump_tables (m : Module) (q : Nat) : (m.pump q).tables = m.tables := (Module.pump_stands m q).2.2.2.2.2.2.2.2.2.2.2.1
@[simp] theorem Module.pump_xlat (m : Module) (q : Nat) : (m.pump q).xlat = m.xlat := (Module.pump_stands m q).2.2.2.2.2.2.2.2.2.2.2.2.1
@[simp] theorem Module.pump_heldAcc (m : Module) (q : Nat) : (m.pump q).heldAcc = m.heldAcc := (Module.pump_stands m q).2.2.2.2.2.2.2.2.2.2.2.2.2.1
@[simp] theorem Module.pump_tileBad (m : Module) (q : Nat) : (m.pump q).tileBad = m.tileBad := (Module.pump_stands m q).2.2.2.2.2.2.2.2.2.2.2.2.2.2.1
@[simp] theorem Module.pump_insts (m : Module) (q : Nat) : (m.pump q).insts = m.insts := (Module.pump_stands m q).2.2.2.2.2.2.2.2.2.2.2.2.2.2.2.1
@[simp] theorem Module.pump_tokens (m : Module) (q : Nat) : (m.pump q).tokens = m.tokens := (Module.pump_stands m q).2.2.2.2.2.2.2.2.2.2.2.2.2.2.2.2.1
@[simp] theorem Module.pump_gathers (m : Module) (q : Nat) : (m.pump q).gathers = m.gathers := (Module.pump_stands m q).2.2.2.2.2.2.2.2.2.2.2.2.2.2.2.2.2.1
@[simp] theorem Module.pump_scatters (m : Module) (q : Nat) : (m.pump q).scatters = m.scatters := (Module.pump_stands m q).2.2.2.2.2.2.2.2.2.2.2.2.2.2.2.2.2.2.1
@[simp] theorem Module.pump_samples (m : Module) (q : Nat) : (m.pump q).samples = m.samples := (Module.pump_stands m q).2.2.2.2.2.2.2.2.2.2.2.2.2.2.2.2.2.2.2.1
@[simp] theorem Module.pump_chains (m : Module) (q : Nat) : (m.pump q).chains = m.chains := (Module.pump_stands m q).2.2.2.2.2.2.2.2.2.2.2.2.2.2.2.2.2.2.2.2.1
@[simp] theorem Module.pump_hubs (m : Module) (q : Nat) : (m.pump q).hubs = m.hubs := (Module.pump_stands m q).2.2.2.2.2.2.2.2.2.2.2.2.2.2.2.2.2.2.2.2.2.1
@[simp] theorem Module.pump_groups (m : Module) (q : Nat) : (m.pump q).groups = m.groups := (Module.pump_stands m q).2.2.2.2.2.2.2.2.2.2.2.2.2.2.2.2.2.2.2.2.2.2.1
@[simp] theorem Module.pump_nextInst (m : Module) (q : Nat) : (m.pump q).nextInst = m.nextInst := (Module.pump_stands m q).2.2.2.2.2.2.2.2.2.2.2.2.2.2.2.2.2.2.2.2.2.2.2.1
@[simp] theorem Module.pump_instLog (m : Module) (q : Nat) : (m.pump q).instLog = m.instLog := (Module.pump_stands m q).2.2.2.2.2.2.2.2.2.2.2.2.2.2.2.2.2.2.2.2.2.2.2.2.1
@[simp] theorem Module.pump_nextSerial (m : Module) (q : Nat) : (m.pump q).nextSerial = m.nextSerial := (Module.pump_stands m q).2.2.2.2.2.2.2.2.2.2.2.2.2.2.2.2.2.2.2.2.2.2.2.2.2.1
@[simp] theorem Module.pump_nextBuf (m : Module) (q : Nat) : (m.pump q).nextBuf = m.nextBuf := (Module.pump_stands m q).2.2.2.2.2.2.2.2.2.2.2.2.2.2.2.2.2.2.2.2.2.2.2.2.2.2.1
@[simp] theorem Module.pump_nextHandle (m : Module) (q : Nat) : (m.pump q).nextHandle = m.nextHandle := (Module.pump_stands m q).2.2.2.2.2.2.2.2.2.2.2.2.2.2.2.2.2.2.2.2.2.2.2.2.2.2.2.1
@[simp] theorem Module.pump_stamp (m : Module) (q : Nat) : (m.pump q).stamp = m.stamp := (Module.pump_stands m q).2.2.2.2.2.2.2.2.2.2.2.2.2.2.2.2.2.2.2.2.2.2.2.2.2.2.2.2.1
@[simp] theorem Module.pump_free (m : Module) (q : Nat) : (m.pump q).free = m.free := (Module.pump_stands m q).2.2.2.2.2.2.2.2.2.2.2.2.2.2.2.2.2.2.2.2.2.2.2.2.2.2.2.2.2

theorem Module.dropNotice_stands (m : Module) (q : Nat) :
    (m.dropNotice q).pwr = m.pwr ∧ (m.dropNotice q).ltime = m.ltime ∧ (m.dropNotice q).mem = m.mem ∧
    (m.dropNotice q).asy = m.asy ∧ (m.dropNotice q).fab = m.fab ∧ (m.dropNotice q).guild = m.guild ∧
    (m.dropNotice q).ptns = m.ptns ∧ (m.dropNotice q).halls = m.halls ∧ (m.dropNotice q).benches = m.benches ∧
    (m.dropNotice q).querns = m.querns ∧ (m.dropNotice q).rwk = m.rwk ∧ (m.dropNotice q).tables = m.tables ∧
    (m.dropNotice q).xlat = m.xlat ∧ (m.dropNotice q).heldAcc = m.heldAcc ∧ (m.dropNotice q).tileBad = m.tileBad ∧
    (m.dropNotice q).insts = m.insts ∧ (m.dropNotice q).tokens = m.tokens ∧ (m.dropNotice q).gathers = m.gathers ∧
    (m.dropNotice q).scatters = m.scatters ∧ (m.dropNotice q).samples = m.samples ∧ (m.dropNotice q).chains = m.chains ∧
    (m.dropNotice q).hubs = m.hubs ∧ (m.dropNotice q).groups = m.groups ∧ (m.dropNotice q).nextInst = m.nextInst ∧
    (m.dropNotice q).instLog = m.instLog ∧ (m.dropNotice q).nextSerial = m.nextSerial ∧ (m.dropNotice q).nextBuf = m.nextBuf ∧
    (m.dropNotice q).nextHandle = m.nextHandle ∧ (m.dropNotice q).stamp = m.stamp ∧ (m.dropNotice q).free = m.free ∧
    (m.dropNotice q).sent = m.sent := by
  unfold Module.dropNotice; try dsimp only
  (repeat' split) <;> simp
@[simp] theorem Module.dropNotice_pwr (m : Module) (q : Nat) : (m.dropNotice q).pwr = m.pwr := (Module.dropNotice_stands m q).1
@[simp] theorem Module.dropNotice_ltime (m : Module) (q : Nat) : (m.dropNotice q).ltime = m.ltime := (Module.dropNotice_stands m q).2.1
@[simp] theorem Module.dropNotice_mem (m : Module) (q : Nat) : (m.dropNotice q).mem = m.mem := (Module.dropNotice_stands m q).2.2.1
@[simp] theorem Module.dropNotice_asy (m : Module) (q : Nat) : (m.dropNotice q).asy = m.asy := (Module.dropNotice_stands m q).2.2.2.1
@[simp] theorem Module.dropNotice_fab (m : Module) (q : Nat) : (m.dropNotice q).fab = m.fab := (Module.dropNotice_stands m q).2.2.2.2.1
@[simp] theorem Module.dropNotice_guild (m : Module) (q : Nat) : (m.dropNotice q).guild = m.guild := (Module.dropNotice_stands m q).2.2.2.2.2.1
@[simp] theorem Module.dropNotice_ptns (m : Module) (q : Nat) : (m.dropNotice q).ptns = m.ptns := (Module.dropNotice_stands m q).2.2.2.2.2.2.1
@[simp] theorem Module.dropNotice_halls (m : Module) (q : Nat) : (m.dropNotice q).halls = m.halls := (Module.dropNotice_stands m q).2.2.2.2.2.2.2.1
@[simp] theorem Module.dropNotice_benches (m : Module) (q : Nat) : (m.dropNotice q).benches = m.benches := (Module.dropNotice_stands m q).2.2.2.2.2.2.2.2.1
@[simp] theorem Module.dropNotice_querns (m : Module) (q : Nat) : (m.dropNotice q).querns = m.querns := (Module.dropNotice_stands m q).2.2.2.2.2.2.2.2.2.1
@[simp] theorem Module.dropNotice_rwk (m : Module) (q : Nat) : (m.dropNotice q).rwk = m.rwk := (Module.dropNotice_stands m q).2.2.2.2.2.2.2.2.2.2.1
@[simp] theorem Module.dropNotice_tables (m : Module) (q : Nat) : (m.dropNotice q).tables = m.tables := (Module.dropNotice_stands m q).2.2.2.2.2.2.2.2.2.2.2.1
@[simp] theorem Module.dropNotice_xlat (m : Module) (q : Nat) : (m.dropNotice q).xlat = m.xlat := (Module.dropNotice_stands m q).2.2.2.2.2.2.2.2.2.2.2.2.1
@[simp] theorem Module.dropNotice_heldAcc (m : Module) (q : Nat) : (m.dropNotice q).heldAcc = m.heldAcc := (Module.dropNotice_stands m q).2.2.2.2.2.2.2.2.2.2.2.2.2.1
@[simp] theorem Module.dropNotice_tileBad (m : Module) (q : Nat) : (m.dropNotice q).tileBad = m.tileBad := (Module.dropNotice_stands m q).2.2.2.2.2.2.2.2.2.2.2.2.2.2.1
@[simp] theorem Module.dropNotice_insts (m : Module) (q : Nat) : (m.dropNotice q).insts = m.insts := (Module.dropNotice_stands m q).2.2.2.2.2.2.2.2.2.2.2.2.2.2.2.1
@[simp] theorem Module.dropNotice_tokens (m : Module) (q : Nat) : (m.dropNotice q).tokens = m.tokens := (Module.dropNotice_stands m q).2.2.2.2.2.2.2.2.2.2.2.2.2.2.2.2.1
@[simp] theorem Module.dropNotice_gathers (m : Module) (q : Nat) : (m.dropNotice q).gathers = m.gathers := (Module.dropNotice_stands m q).2.2.2.2.2.2.2.2.2.2.2.2.2.2.2.2.2.1
@[simp] theorem Module.dropNotice_scatters (m : Module) (q : Nat) : (m.dropNotice q).scatters = m.scatters := (Module.dropNotice_stands m q).2.2.2.2.2.2.2.2.2.2.2.2.2.2.2.2.2.2.1
@[simp] theorem Module.dropNotice_samples (m : Module) (q : Nat) : (m.dropNotice q).samples = m.samples := (Module.dropNotice_stands m q).2.2.2.2.2.2.2.2.2.2.2.2.2.2.2.2.2.2.2.1
@[simp] theorem Module.dropNotice_chains (m : Module) (q : Nat) : (m.dropNotice q).chains = m.chains := (Module.dropNotice_stands m q).2.2.2.2.2.2.2.2.2.2.2.2.2.2.2.2.2.2.2.2.1
@[simp] theorem Module.dropNotice_hubs (m : Module) (q : Nat) : (m.dropNotice q).hubs = m.hubs := (Module.dropNotice_stands m q).2.2.2.2.2.2.2.2.2.2.2.2.2.2.2.2.2.2.2.2.2.1
@[simp] theorem Module.dropNotice_groups (m : Module) (q : Nat) : (m.dropNotice q).groups = m.groups := (Module.dropNotice_stands m q).2.2.2.2.2.2.2.2.2.2.2.2.2.2.2.2.2.2.2.2.2.2.1
@[simp] theorem Module.dropNotice_nextInst (m : Module) (q : Nat) : (m.dropNotice q).nextInst = m.nextInst := (Module.dropNotice_stands m q).2.2.2.2.2.2.2.2.2.2.2.2.2.2.2.2.2.2.2.2.2.2.2.1
@[simp] theorem Module.dropNotice_instLog (m : Module) (q : Nat) : (m.dropNotice q).instLog = m.instLog := (Module.dropNotice_stands m q).2.2.2.2.2.2.2.2.2.2.2.2.2.2.2.2.2.2.2.2.2.2.2.2.1
@[simp] theorem Module.dropNotice_nextSerial (m : Module) (q : Nat) : (m.dropNotice q).nextSerial = m.nextSerial := (Module.dropNotice_stands m q).2.2.2.2.2.2.2.2.2.2.2.2.2.2.2.2.2.2.2.2.2.2.2.2.2.1
@[simp] theorem Module.dropNotice_nextBuf (m : Module) (q : Nat) : (m.dropNotice q).nextBuf = m.nextBuf := (Module.dropNotice_stands m q).2.2.2.2.2.2.2.2.2.2.2.2.2.2.2.2.2.2.2.2.2.2.2.2.2.2.1
@[simp] theorem Module.dropNotice_nextHandle (m : Module) (q : Nat) : (m.dropNotice q).nextHandle = m.nextHandle := (Module.dropNotice_stands m q).2.2.2.2.2.2.2.2.2.2.2.2.2.2.2.2.2.2.2.2.2.2.2.2.2.2.2.1
@[simp] theorem Module.dropNotice_stamp (m : Module) (q : Nat) : (m.dropNotice q).stamp = m.stamp := (Module.dropNotice_stands m q).2.2.2.2.2.2.2.2.2.2.2.2.2.2.2.2.2.2.2.2.2.2.2.2.2.2.2.2.1
@[simp] theorem Module.dropNotice_free (m : Module) (q : Nat) : (m.dropNotice q).free = m.free := (Module.dropNotice_stands m q).2.2.2.2.2.2.2.2.2.2.2.2.2.2.2.2.2.2.2.2.2.2.2.2.2.2.2.2.2.1
@[simp] theorem Module.dropNotice_sent (m : Module) (q : Nat) : (m.dropNotice q).sent = m.sent := (Module.dropNotice_stands m q).2.2.2.2.2.2.2.2.2.2.2.2.2.2.2.2.2.2.2.2.2.2.2.2.2.2.2.2.2.2

theorem Module.queueNotice_stands (m : Module) (q : Nat) (n : Notice) :
    (m.queueNotice q n).pwr = m.pwr ∧ (m.queueNotice q n).ltime = m.ltime ∧ (m.queueNotice q n).mem = m.mem ∧
    (m.queueNotice q n).asy = m.asy ∧ (m.queueNotice q n).fab = m.fab ∧ (m.queueNotice q n).guild = m.guild ∧
    (m.queueNotice q n).ptns = m.ptns ∧ (m.queueNotice q n).halls = m.halls ∧ (m.queueNotice q n).benches = m.benches ∧
    (m.queueNotice q n).querns = m.querns ∧ (m.queueNotice q n).rwk = m.rwk ∧ (m.queueNotice q n).tables = m.tables ∧
    (m.queueNotice q n).xlat = m.xlat ∧ (m.queueNotice q n).heldAcc = m.heldAcc ∧ (m.queueNotice q n).tileBad = m.tileBad ∧
    (m.queueNotice q n).insts = m.insts ∧ (m.queueNotice q n).tokens = m.tokens ∧ (m.queueNotice q n).gathers = m.gathers ∧
    (m.queueNotice q n).scatters = m.scatters ∧ (m.queueNotice q n).samples = m.samples ∧
    (m.queueNotice q n).chains = m.chains ∧ (m.queueNotice q n).hubs = m.hubs ∧ (m.queueNotice q n).groups = m.groups ∧
    (m.queueNotice q n).nextInst = m.nextInst ∧ (m.queueNotice q n).instLog = m.instLog ∧
    (m.queueNotice q n).nextSerial = m.nextSerial ∧ (m.queueNotice q n).nextBuf = m.nextBuf ∧
    (m.queueNotice q n).nextHandle = m.nextHandle ∧ (m.queueNotice q n).stamp = m.stamp ∧ (m.queueNotice q n).free = m.free := by
  unfold Module.queueNotice; try dsimp only
  (repeat' split) <;> simp
@[simp] theorem Module.queueNotice_pwr (m : Module) (q : Nat) (n : Notice) : (m.queueNotice q n).pwr = m.pwr := (Module.queueNotice_stands m q n).1
@[simp] theorem Module.queueNotice_ltime (m : Module) (q : Nat) (n : Notice) : (m.queueNotice q n).ltime = m.ltime := (Module.queueNotice_stands m q n).2.1
@[simp] theorem Module.queueNotice_mem (m : Module) (q : Nat) (n : Notice) : (m.queueNotice q n).mem = m.mem := (Module.queueNotice_stands m q n).2.2.1
@[simp] theorem Module.queueNotice_asy (m : Module) (q : Nat) (n : Notice) : (m.queueNotice q n).asy = m.asy := (Module.queueNotice_stands m q n).2.2.2.1
@[simp] theorem Module.queueNotice_fab (m : Module) (q : Nat) (n : Notice) : (m.queueNotice q n).fab = m.fab := (Module.queueNotice_stands m q n).2.2.2.2.1
@[simp] theorem Module.queueNotice_guild (m : Module) (q : Nat) (n : Notice) : (m.queueNotice q n).guild = m.guild := (Module.queueNotice_stands m q n).2.2.2.2.2.1
@[simp] theorem Module.queueNotice_ptns (m : Module) (q : Nat) (n : Notice) : (m.queueNotice q n).ptns = m.ptns := (Module.queueNotice_stands m q n).2.2.2.2.2.2.1
@[simp] theorem Module.queueNotice_halls (m : Module) (q : Nat) (n : Notice) : (m.queueNotice q n).halls = m.halls := (Module.queueNotice_stands m q n).2.2.2.2.2.2.2.1
@[simp] theorem Module.queueNotice_benches (m : Module) (q : Nat) (n : Notice) : (m.queueNotice q n).benches = m.benches := (Module.queueNotice_stands m q n).2.2.2.2.2.2.2.2.1
@[simp] theorem Module.queueNotice_querns (m : Module) (q : Nat) (n : Notice) : (m.queueNotice q n).querns = m.querns := (Module.queueNotice_stands m q n).2.2.2.2.2.2.2.2.2.1
@[simp] theorem Module.queueNotice_rwk (m : Module) (q : Nat) (n : Notice) : (m.queueNotice q n).rwk = m.rwk := (Module.queueNotice_stands m q n).2.2.2.2.2.2.2.2.2.2.1
@[simp] theorem Module.queueNotice_tables (m : Module) (q : Nat) (n : Notice) : (m.queueNotice q n).tables = m.tables := (Module.queueNotice_stands m q n).2.2.2.2.2.2.2.2.2.2.2.1
@[simp] theorem Module.queueNotice_xlat (m : Module) (q : Nat) (n : Notice) : (m.queueNotice q n).xlat = m.xlat := (Module.queueNotice_stands m q n).2.2.2.2.2.2.2.2.2.2.2.2.1
@[simp] theorem Module.queueNotice_heldAcc (m : Module) (q : Nat) (n : Notice) : (m.queueNotice q n).heldAcc = m.heldAcc := (Module.queueNotice_stands m q n).2.2.2.2.2.2.2.2.2.2.2.2.2.1
@[simp] theorem Module.queueNotice_tileBad (m : Module) (q : Nat) (n : Notice) : (m.queueNotice q n).tileBad = m.tileBad := (Module.queueNotice_stands m q n).2.2.2.2.2.2.2.2.2.2.2.2.2.2.1
@[simp] theorem Module.queueNotice_insts (m : Module) (q : Nat) (n : Notice) : (m.queueNotice q n).insts = m.insts := (Module.queueNotice_stands m q n).2.2.2.2.2.2.2.2.2.2.2.2.2.2.2.1
@[simp] theorem Module.queueNotice_tokens (m : Module) (q : Nat) (n : Notice) : (m.queueNotice q n).tokens = m.tokens := (Module.queueNotice_stands m q n).2.2.2.2.2.2.2.2.2.2.2.2.2.2.2.2.1
@[simp] theorem Module.queueNotice_gathers (m : Module) (q : Nat) (n : Notice) : (m.queueNotice q n).gathers = m.gathers := (Module.queueNotice_stands m q n).2.2.2.2.2.2.2.2.2.2.2.2.2.2.2.2.2.1
@[simp] theorem Module.queueNotice_scatters (m : Module) (q : Nat) (n : Notice) : (m.queueNotice q n).scatters = m.scatters := (Module.queueNotice_stands m q n).2.2.2.2.2.2.2.2.2.2.2.2.2.2.2.2.2.2.1
@[simp] theorem Module.queueNotice_samples (m : Module) (q : Nat) (n : Notice) : (m.queueNotice q n).samples = m.samples := (Module.queueNotice_stands m q n).2.2.2.2.2.2.2.2.2.2.2.2.2.2.2.2.2.2.2.1
@[simp] theorem Module.queueNotice_chains (m : Module) (q : Nat) (n : Notice) : (m.queueNotice q n).chains = m.chains := (Module.queueNotice_stands m q n).2.2.2.2.2.2.2.2.2.2.2.2.2.2.2.2.2.2.2.2.1
@[simp] theorem Module.queueNotice_hubs (m : Module) (q : Nat) (n : Notice) : (m.queueNotice q n).hubs = m.hubs := (Module.queueNotice_stands m q n).2.2.2.2.2.2.2.2.2.2.2.2.2.2.2.2.2.2.2.2.2.1
@[simp] theorem Module.queueNotice_groups (m : Module) (q : Nat) (n : Notice) : (m.queueNotice q n).groups = m.groups := (Module.queueNotice_stands m q n).2.2.2.2.2.2.2.2.2.2.2.2.2.2.2.2.2.2.2.2.2.2.1
@[simp] theorem Module.queueNotice_nextInst (m : Module) (q : Nat) (n : Notice) : (m.queueNotice q n).nextInst = m.nextInst := (Module.queueNotice_stands m q n).2.2.2.2.2.2.2.2.2.2.2.2.2.2.2.2.2.2.2.2.2.2.2.1
@[simp] theorem Module.queueNotice_instLog (m : Module) (q : Nat) (n : Notice) : (m.queueNotice q n).instLog = m.instLog := (Module.queueNotice_stands m q n).2.2.2.2.2.2.2.2.2.2.2.2.2.2.2.2.2.2.2.2.2.2.2.2.1
@[simp] theorem Module.queueNotice_nextSerial (m : Module) (q : Nat) (n : Notice) : (m.queueNotice q n).nextSerial = m.nextSerial := (Module.queueNotice_stands m q n).2.2.2.2.2.2.2.2.2.2.2.2.2.2.2.2.2.2.2.2.2.2.2.2.2.1
@[simp] theorem Module.queueNotice_nextBuf (m : Module) (q : Nat) (n : Notice) : (m.queueNotice q n).nextBuf = m.nextBuf := (Module.queueNotice_stands m q n).2.2.2.2.2.2.2.2.2.2.2.2.2.2.2.2.2.2.2.2.2.2.2.2.2.2.1
@[simp] theorem Module.queueNotice_nextHandle (m : Module) (q : Nat) (n : Notice) : (m.queueNotice q n).nextHandle = m.nextHandle := (Module.queueNotice_stands m q n).2.2.2.2.2.2.2.2.2.2.2.2.2.2.2.2.2.2.2.2.2.2.2.2.2.2.2.1
@[simp] theorem Module.queueNotice_stamp (m : Module) (q : Nat) (n : Notice) : (m.queueNotice q n).stamp = m.stamp := (Module.queueNotice_stands m q n).2.2.2.2.2.2.2.2.2.2.2.2.2.2.2.2.2.2.2.2.2.2.2.2.2.2.2.2.1
@[simp] theorem Module.queueNotice_free (m : Module) (q : Nat) (n : Notice) : (m.queueNotice q n).free = m.free := (Module.queueNotice_stands m q n).2.2.2.2.2.2.2.2.2.2.2.2.2.2.2.2.2.2.2.2.2.2.2.2.2.2.2.2.2

theorem Module.ringNotice_stands (m : Module) (n : Notice) :
    (m.ringNotice n).pwr = m.pwr ∧ (m.ringNotice n).ltime = m.ltime ∧ (m.ringNotice n).mem = m.mem ∧
    (m.ringNotice n).asy = m.asy ∧ (m.ringNotice n).fab = m.fab ∧ (m.ringNotice n).guild = m.guild ∧
    (m.ringNotice n).ptns = m.ptns ∧ (m.ringNotice n).halls = m.halls ∧ (m.ringNotice n).benches = m.benches ∧
    (m.ringNotice n).querns = m.querns ∧ (m.ringNotice n).rwk = m.rwk ∧ (m.ringNotice n).tables = m.tables ∧
    (m.ringNotice n).xlat = m.xlat ∧ (m.ringNotice n).heldAcc = m.heldAcc ∧ (m.ringNotice n).tileBad = m.tileBad ∧
    (m.ringNotice n).insts = m.insts ∧ (m.ringNotice n).tokens = m.tokens ∧ (m.ringNotice n).gathers = m.gathers ∧
    (m.ringNotice n).scatters = m.scatters ∧ (m.ringNotice n).samples = m.samples ∧ (m.ringNotice n).chains = m.chains ∧
    (m.ringNotice n).hubs = m.hubs ∧ (m.ringNotice n).groups = m.groups ∧ (m.ringNotice n).nextInst = m.nextInst ∧
    (m.ringNotice n).instLog = m.instLog ∧ (m.ringNotice n).nextSerial = m.nextSerial ∧ (m.ringNotice n).nextBuf = m.nextBuf ∧
    (m.ringNotice n).nextHandle = m.nextHandle ∧ (m.ringNotice n).stamp = m.stamp ∧ (m.ringNotice n).free = m.free ∧
    (m.ringNotice n).sent = m.sent := by
  unfold Module.ringNotice; try dsimp only
  (repeat' split) <;> simp
@[simp] theorem Module.ringNotice_pwr (m : Module) (n : Notice) : (m.ringNotice n).pwr = m.pwr := (Module.ringNotice_stands m n).1
@[simp] theorem Module.ringNotice_ltime (m : Module) (n : Notice) : (m.ringNotice n).ltime = m.ltime := (Module.ringNotice_stands m n).2.1
@[simp] theorem Module.ringNotice_mem (m : Module) (n : Notice) : (m.ringNotice n).mem = m.mem := (Module.ringNotice_stands m n).2.2.1
@[simp] theorem Module.ringNotice_asy (m : Module) (n : Notice) : (m.ringNotice n).asy = m.asy := (Module.ringNotice_stands m n).2.2.2.1
@[simp] theorem Module.ringNotice_fab (m : Module) (n : Notice) : (m.ringNotice n).fab = m.fab := (Module.ringNotice_stands m n).2.2.2.2.1
@[simp] theorem Module.ringNotice_guild (m : Module) (n : Notice) : (m.ringNotice n).guild = m.guild := (Module.ringNotice_stands m n).2.2.2.2.2.1
@[simp] theorem Module.ringNotice_ptns (m : Module) (n : Notice) : (m.ringNotice n).ptns = m.ptns := (Module.ringNotice_stands m n).2.2.2.2.2.2.1
@[simp] theorem Module.ringNotice_halls (m : Module) (n : Notice) : (m.ringNotice n).halls = m.halls := (Module.ringNotice_stands m n).2.2.2.2.2.2.2.1
@[simp] theorem Module.ringNotice_benches (m : Module) (n : Notice) : (m.ringNotice n).benches = m.benches := (Module.ringNotice_stands m n).2.2.2.2.2.2.2.2.1
@[simp] theorem Module.ringNotice_querns (m : Module) (n : Notice) : (m.ringNotice n).querns = m.querns := (Module.ringNotice_stands m n).2.2.2.2.2.2.2.2.2.1
@[simp] theorem Module.ringNotice_rwk (m : Module) (n : Notice) : (m.ringNotice n).rwk = m.rwk := (Module.ringNotice_stands m n).2.2.2.2.2.2.2.2.2.2.1
@[simp] theorem Module.ringNotice_tables (m : Module) (n : Notice) : (m.ringNotice n).tables = m.tables := (Module.ringNotice_stands m n).2.2.2.2.2.2.2.2.2.2.2.1
@[simp] theorem Module.ringNotice_xlat (m : Module) (n : Notice) : (m.ringNotice n).xlat = m.xlat := (Module.ringNotice_stands m n).2.2.2.2.2.2.2.2.2.2.2.2.1
@[simp] theorem Module.ringNotice_heldAcc (m : Module) (n : Notice) : (m.ringNotice n).heldAcc = m.heldAcc := (Module.ringNotice_stands m n).2.2.2.2.2.2.2.2.2.2.2.2.2.1
@[simp] theorem Module.ringNotice_tileBad (m : Module) (n : Notice) : (m.ringNotice n).tileBad = m.tileBad := (Module.ringNotice_stands m n).2.2.2.2.2.2.2.2.2.2.2.2.2.2.1
@[simp] theorem Module.ringNotice_insts (m : Module) (n : Notice) : (m.ringNotice n).insts = m.insts := (Module.ringNotice_stands m n).2.2.2.2.2.2.2.2.2.2.2.2.2.2.2.1
@[simp] theorem Module.ringNotice_tokens (m : Module) (n : Notice) : (m.ringNotice n).tokens = m.tokens := (Module.ringNotice_stands m n).2.2.2.2.2.2.2.2.2.2.2.2.2.2.2.2.1
@[simp] theorem Module.ringNotice_gathers (m : Module) (n : Notice) : (m.ringNotice n).gathers = m.gathers := (Module.ringNotice_stands m n).2.2.2.2.2.2.2.2.2.2.2.2.2.2.2.2.2.1
@[simp] theorem Module.ringNotice_scatters (m : Module) (n : Notice) : (m.ringNotice n).scatters = m.scatters := (Module.ringNotice_stands m n).2.2.2.2.2.2.2.2.2.2.2.2.2.2.2.2.2.2.1
@[simp] theorem Module.ringNotice_samples (m : Module) (n : Notice) : (m.ringNotice n).samples = m.samples := (Module.ringNotice_stands m n).2.2.2.2.2.2.2.2.2.2.2.2.2.2.2.2.2.2.2.1
@[simp] theorem Module.ringNotice_chains (m : Module) (n : Notice) : (m.ringNotice n).chains = m.chains := (Module.ringNotice_stands m n).2.2.2.2.2.2.2.2.2.2.2.2.2.2.2.2.2.2.2.2.1
@[simp] theorem Module.ringNotice_hubs (m : Module) (n : Notice) : (m.ringNotice n).hubs = m.hubs := (Module.ringNotice_stands m n).2.2.2.2.2.2.2.2.2.2.2.2.2.2.2.2.2.2.2.2.2.1
@[simp] theorem Module.ringNotice_groups (m : Module) (n : Notice) : (m.ringNotice n).groups = m.groups := (Module.ringNotice_stands m n).2.2.2.2.2.2.2.2.2.2.2.2.2.2.2.2.2.2.2.2.2.2.1
@[simp] theorem Module.ringNotice_nextInst (m : Module) (n : Notice) : (m.ringNotice n).nextInst = m.nextInst := (Module.ringNotice_stands m n).2.2.2.2.2.2.2.2.2.2.2.2.2.2.2.2.2.2.2.2.2.2.2.1
@[simp] theorem Module.ringNotice_instLog (m : Module) (n : Notice) : (m.ringNotice n).instLog = m.instLog := (Module.ringNotice_stands m n).2.2.2.2.2.2.2.2.2.2.2.2.2.2.2.2.2.2.2.2.2.2.2.2.1
@[simp] theorem Module.ringNotice_nextSerial (m : Module) (n : Notice) : (m.ringNotice n).nextSerial = m.nextSerial := (Module.ringNotice_stands m n).2.2.2.2.2.2.2.2.2.2.2.2.2.2.2.2.2.2.2.2.2.2.2.2.2.1
@[simp] theorem Module.ringNotice_nextBuf (m : Module) (n : Notice) : (m.ringNotice n).nextBuf = m.nextBuf := (Module.ringNotice_stands m n).2.2.2.2.2.2.2.2.2.2.2.2.2.2.2.2.2.2.2.2.2.2.2.2.2.2.1
@[simp] theorem Module.ringNotice_nextHandle (m : Module) (n : Notice) : (m.ringNotice n).nextHandle = m.nextHandle := (Module.ringNotice_stands m n).2.2.2.2.2.2.2.2.2.2.2.2.2.2.2.2.2.2.2.2.2.2.2.2.2.2.2.1
@[simp] theorem Module.ringNotice_stamp (m : Module) (n : Notice) : (m.ringNotice n).stamp = m.stamp := (Module.ringNotice_stands m n).2.2.2.2.2.2.2.2.2.2.2.2.2.2.2.2.2.2.2.2.2.2.2.2.2.2.2.2.1
@[simp] theorem Module.ringNotice_free (m : Module) (n : Notice) : (m.ringNotice n).free = m.free := (Module.ringNotice_stands m n).2.2.2.2.2.2.2.2.2.2.2.2.2.2.2.2.2.2.2.2.2.2.2.2.2.2.2.2.2.1
@[simp] theorem Module.ringNotice_sent (m : Module) (n : Notice) : (m.ringNotice n).sent = m.sent := (Module.ringNotice_stands m n).2.2.2.2.2.2.2.2.2.2.2.2.2.2.2.2.2.2.2.2.2.2.2.2.2.2.2.2.2.2

theorem Module.deliverOwn_stands (m : Module) (n : Notice) (but : List Nat) :
    (m.deliverOwn n but).1.pwr = m.pwr ∧ (m.deliverOwn n but).1.ltime = m.ltime ∧ (m.deliverOwn n but).1.mem = m.mem ∧
    (m.deliverOwn n but).1.asy = m.asy ∧ (m.deliverOwn n but).1.fab = m.fab ∧ (m.deliverOwn n but).1.guild = m.guild ∧
    (m.deliverOwn n but).1.ptns = m.ptns ∧ (m.deliverOwn n but).1.halls = m.halls ∧
    (m.deliverOwn n but).1.benches = m.benches ∧ (m.deliverOwn n but).1.querns = m.querns ∧
    (m.deliverOwn n but).1.rwk = m.rwk ∧ (m.deliverOwn n but).1.tables = m.tables ∧ (m.deliverOwn n but).1.xlat = m.xlat ∧
    (m.deliverOwn n but).1.heldAcc = m.heldAcc ∧ (m.deliverOwn n but).1.tileBad = m.tileBad ∧
    (m.deliverOwn n but).1.insts = m.insts ∧ (m.deliverOwn n but).1.tokens = m.tokens ∧
    (m.deliverOwn n but).1.gathers = m.gathers ∧ (m.deliverOwn n but).1.scatters = m.scatters ∧
    (m.deliverOwn n but).1.samples = m.samples ∧ (m.deliverOwn n but).1.chains = m.chains ∧
    (m.deliverOwn n but).1.hubs = m.hubs ∧ (m.deliverOwn n but).1.groups = m.groups ∧
    (m.deliverOwn n but).1.nextInst = m.nextInst ∧ (m.deliverOwn n but).1.instLog = m.instLog ∧
    (m.deliverOwn n but).1.nextSerial = m.nextSerial ∧ (m.deliverOwn n but).1.nextBuf = m.nextBuf ∧
    (m.deliverOwn n but).1.nextHandle = m.nextHandle ∧ (m.deliverOwn n but).1.stamp = m.stamp ∧
    (m.deliverOwn n but).1.free = m.free := 
  ⟨foldl_stands (g := Module.pwr) _ fun m d => Module.queueNotice_pwr m d n,
   foldl_stands (g := Module.ltime) _ fun m d => Module.queueNotice_ltime m d n,
   foldl_stands (g := Module.mem) _ fun m d => Module.queueNotice_mem m d n,
   foldl_stands (g := Module.asy) _ fun m d => Module.queueNotice_asy m d n,
   foldl_stands (g := Module.fab) _ fun m d => Module.queueNotice_fab m d n,
   foldl_stands (g := Module.guild) _ fun m d => Module.queueNotice_guild m d n,
   foldl_stands (g := Module.ptns) _ fun m d => Module.queueNotice_ptns m d n,
   foldl_stands (g := Module.halls) _ fun m d => Module.queueNotice_halls m d n,
   foldl_stands (g := Module.benches) _ fun m d => Module.queueNotice_benches m d n,
   foldl_stands (g := Module.querns) _ fun m d => Module.queueNotice_querns m d n,
   foldl_stands (g := Module.rwk) _ fun m d => Module.queueNotice_rwk m d n,
   foldl_stands (g := Module.tables) _ fun m d => Module.queueNotice_tables m d n,
   foldl_stands (g := Module.xlat) _ fun m d => Module.queueNotice_xlat m d n,
   foldl_stands (g := Module.heldAcc) _ fun m d => Module.queueNotice_heldAcc m d n,
   foldl_stands (g := Module.tileBad) _ fun m d => Module.queueNotice_tileBad m d n,
   foldl_stands (g := Module.insts) _ fun m d => Module.queueNotice_insts m d n,
   foldl_stands (g := Module.tokens) _ fun m d => Module.queueNotice_tokens m d n,
   foldl_stands (g := Module.gathers) _ fun m d => Module.queueNotice_gathers m d n,
   foldl_stands (g := Module.scatters) _ fun m d => Module.queueNotice_scatters m d n,
   foldl_stands (g := Module.samples) _ fun m d => Module.queueNotice_samples m d n,
   foldl_stands (g := Module.chains) _ fun m d => Module.queueNotice_chains m d n,
   foldl_stands (g := Module.hubs) _ fun m d => Module.queueNotice_hubs m d n,
   foldl_stands (g := Module.groups) _ fun m d => Module.queueNotice_groups m d n,
   foldl_stands (g := Module.nextInst) _ fun m d => Module.queueNotice_nextInst m d n,
   foldl_stands (g := Module.instLog) _ fun m d => Module.queueNotice_instLog m d n,
   foldl_stands (g := Module.nextSerial) _ fun m d => Module.queueNotice_nextSerial m d n,
   foldl_stands (g := Module.nextBuf) _ fun m d => Module.queueNotice_nextBuf m d n,
   foldl_stands (g := Module.nextHandle) _ fun m d => Module.queueNotice_nextHandle m d n,
   foldl_stands (g := Module.stamp) _ fun m d => Module.queueNotice_stamp m d n,
   foldl_stands (g := Module.free) _ fun m d => Module.queueNotice_free m d n⟩
@[simp] theorem Module.deliverOwn_pwr (m : Module) (n : Notice) (but : List Nat) : (m.deliverOwn n but).1.pwr = m.pwr := (Module.deliverOwn_stands m n but).1
@[simp] theorem Module.deliverOwn_ltime (m : Module) (n : Notice) (but : List Nat) : (m.deliverOwn n but).1.ltime = m.ltime := (Module.deliverOwn_stands m n but).2.1
@[simp] theorem Module.deliverOwn_mem (m : Module) (n : Notice) (but : List Nat) : (m.deliverOwn n but).1.mem = m.mem := (Module.deliverOwn_stands m n but).2.2.1
@[simp] theorem Module.deliverOwn_asy (m : Module) (n : Notice) (but : List Nat) : (m.deliverOwn n but).1.asy = m.asy := (Module.deliverOwn_stands m n but).2.2.2.1
@[simp] theorem Module.deliverOwn_fab (m : Module) (n : Notice) (but : List Nat) : (m.deliverOwn n but).1.fab = m.fab := (Module.deliverOwn_stands m n but).2.2.2.2.1
@[simp] theorem Module.deliverOwn_guild (m : Module) (n : Notice) (but : List Nat) : (m.deliverOwn n but).1.guild = m.guild := (Module.deliverOwn_stands m n but).2.2.2.2.2.1
@[simp] theorem Module.deliverOwn_ptns (m : Module) (n : Notice) (but : List Nat) : (m.deliverOwn n but).1.ptns = m.ptns := (Module.deliverOwn_stands m n but).2.2.2.2.2.2.1
@[simp] theorem Module.deliverOwn_halls (m : Module) (n : Notice) (but : List Nat) : (m.deliverOwn n but).1.halls = m.halls := (Module.deliverOwn_stands m n but).2.2.2.2.2.2.2.1
@[simp] theorem Module.deliverOwn_benches (m : Module) (n : Notice) (but : List Nat) : (m.deliverOwn n but).1.benches = m.benches := (Module.deliverOwn_stands m n but).2.2.2.2.2.2.2.2.1
@[simp] theorem Module.deliverOwn_querns (m : Module) (n : Notice) (but : List Nat) : (m.deliverOwn n but).1.querns = m.querns := (Module.deliverOwn_stands m n but).2.2.2.2.2.2.2.2.2.1
@[simp] theorem Module.deliverOwn_rwk (m : Module) (n : Notice) (but : List Nat) : (m.deliverOwn n but).1.rwk = m.rwk := (Module.deliverOwn_stands m n but).2.2.2.2.2.2.2.2.2.2.1
@[simp] theorem Module.deliverOwn_tables (m : Module) (n : Notice) (but : List Nat) : (m.deliverOwn n but).1.tables = m.tables := (Module.deliverOwn_stands m n but).2.2.2.2.2.2.2.2.2.2.2.1
@[simp] theorem Module.deliverOwn_xlat (m : Module) (n : Notice) (but : List Nat) : (m.deliverOwn n but).1.xlat = m.xlat := (Module.deliverOwn_stands m n but).2.2.2.2.2.2.2.2.2.2.2.2.1
@[simp] theorem Module.deliverOwn_heldAcc (m : Module) (n : Notice) (but : List Nat) : (m.deliverOwn n but).1.heldAcc = m.heldAcc := (Module.deliverOwn_stands m n but).2.2.2.2.2.2.2.2.2.2.2.2.2.1
@[simp] theorem Module.deliverOwn_tileBad (m : Module) (n : Notice) (but : List Nat) : (m.deliverOwn n but).1.tileBad = m.tileBad := (Module.deliverOwn_stands m n but).2.2.2.2.2.2.2.2.2.2.2.2.2.2.1
@[simp] theorem Module.deliverOwn_insts (m : Module) (n : Notice) (but : List Nat) : (m.deliverOwn n but).1.insts = m.insts := (Module.deliverOwn_stands m n but).2.2.2.2.2.2.2.2.2.2.2.2.2.2.2.1
@[simp] theorem Module.deliverOwn_tokens (m : Module) (n : Notice) (but : List Nat) : (m.deliverOwn n but).1.tokens = m.tokens := (Module.deliverOwn_stands m n but).2.2.2.2.2.2.2.2.2.2.2.2.2.2.2.2.1
@[simp] theorem Module.deliverOwn_gathers (m : Module) (n : Notice) (but : List Nat) : (m.deliverOwn n but).1.gathers = m.gathers := (Module.deliverOwn_stands m n but).2.2.2.2.2.2.2.2.2.2.2.2.2.2.2.2.2.1
@[simp] theorem Module.deliverOwn_scatters (m : Module) (n : Notice) (but : List Nat) : (m.deliverOwn n but).1.scatters = m.scatters := (Module.deliverOwn_stands m n but).2.2.2.2.2.2.2.2.2.2.2.2.2.2.2.2.2.2.1
@[simp] theorem Module.deliverOwn_samples (m : Module) (n : Notice) (but : List Nat) : (m.deliverOwn n but).1.samples = m.samples := (Module.deliverOwn_stands m n but).2.2.2.2.2.2.2.2.2.2.2.2.2.2.2.2.2.2.2.1
@[simp] theorem Module.deliverOwn_chains (m : Module) (n : Notice) (but : List Nat) : (m.deliverOwn n but).1.chains = m.chains := (Module.deliverOwn_stands m n but).2.2.2.2.2.2.2.2.2.2.2.2.2.2.2.2.2.2.2.2.1
@[simp] theorem Module.deliverOwn_hubs (m : Module) (n : Notice) (but : List Nat) : (m.deliverOwn n but).1.hubs = m.hubs := (Module.deliverOwn_stands m n but).2.2.2.2.2.2.2.2.2.2.2.2.2.2.2.2.2.2.2.2.2.1
@[simp] theorem Module.deliverOwn_groups (m : Module) (n : Notice) (but : List Nat) : (m.deliverOwn n but).1.groups = m.groups := (Module.deliverOwn_stands m n but).2.2.2.2.2.2.2.2.2.2.2.2.2.2.2.2.2.2.2.2.2.2.1
@[simp] theorem Module.deliverOwn_nextInst (m : Module) (n : Notice) (but : List Nat) : (m.deliverOwn n but).1.nextInst = m.nextInst := (Module.deliverOwn_stands m n but).2.2.2.2.2.2.2.2.2.2.2.2.2.2.2.2.2.2.2.2.2.2.2.1
@[simp] theorem Module.deliverOwn_instLog (m : Module) (n : Notice) (but : List Nat) : (m.deliverOwn n but).1.instLog = m.instLog := (Module.deliverOwn_stands m n but).2.2.2.2.2.2.2.2.2.2.2.2.2.2.2.2.2.2.2.2.2.2.2.2.1
@[simp] theorem Module.deliverOwn_nextSerial (m : Module) (n : Notice) (but : List Nat) : (m.deliverOwn n but).1.nextSerial = m.nextSerial := (Module.deliverOwn_stands m n but).2.2.2.2.2.2.2.2.2.2.2.2.2.2.2.2.2.2.2.2.2.2.2.2.2.1
@[simp] theorem Module.deliverOwn_nextBuf (m : Module) (n : Notice) (but : List Nat) : (m.deliverOwn n but).1.nextBuf = m.nextBuf := (Module.deliverOwn_stands m n but).2.2.2.2.2.2.2.2.2.2.2.2.2.2.2.2.2.2.2.2.2.2.2.2.2.2.1
@[simp] theorem Module.deliverOwn_nextHandle (m : Module) (n : Notice) (but : List Nat) : (m.deliverOwn n but).1.nextHandle = m.nextHandle := (Module.deliverOwn_stands m n but).2.2.2.2.2.2.2.2.2.2.2.2.2.2.2.2.2.2.2.2.2.2.2.2.2.2.2.1
@[simp] theorem Module.deliverOwn_stamp (m : Module) (n : Notice) (but : List Nat) : (m.deliverOwn n but).1.stamp = m.stamp := (Module.deliverOwn_stands m n but).2.2.2.2.2.2.2.2.2.2.2.2.2.2.2.2.2.2.2.2.2.2.2.2.2.2.2.2.1
@[simp] theorem Module.deliverOwn_free (m : Module) (n : Notice) (but : List Nat) : (m.deliverOwn n but).1.free = m.free := (Module.deliverOwn_stands m n but).2.2.2.2.2.2.2.2.2.2.2.2.2.2.2.2.2.2.2.2.2.2.2.2.2.2.2.2.2

theorem Module.flushPosted_stands (m : Module) :
    m.flushPosted.pwr = m.pwr ∧ m.flushPosted.ltime = m.ltime ∧ m.flushPosted.mem = m.mem ∧ m.flushPosted.asy = m.asy ∧
    m.flushPosted.fab = m.fab ∧ m.flushPosted.guild = m.guild ∧ m.flushPosted.ptns = m.ptns ∧ m.flushPosted.halls = m.halls ∧
    m.flushPosted.benches = m.benches ∧ m.flushPosted.querns = m.querns ∧ m.flushPosted.rwk = m.rwk ∧
    m.flushPosted.tables = m.tables ∧ m.flushPosted.xlat = m.xlat ∧ m.flushPosted.heldAcc = m.heldAcc ∧
    m.flushPosted.tileBad = m.tileBad ∧ m.flushPosted.insts = m.insts ∧ m.flushPosted.tokens = m.tokens ∧
    m.flushPosted.gathers = m.gathers ∧ m.flushPosted.scatters = m.scatters ∧ m.flushPosted.samples = m.samples ∧
    m.flushPosted.chains = m.chains ∧ m.flushPosted.hubs = m.hubs ∧ m.flushPosted.groups = m.groups ∧
    m.flushPosted.nextInst = m.nextInst ∧ m.flushPosted.instLog = m.instLog ∧ m.flushPosted.nextSerial = m.nextSerial ∧
    m.flushPosted.nextBuf = m.nextBuf ∧ m.flushPosted.nextHandle = m.nextHandle ∧ m.flushPosted.stamp = m.stamp ∧
    m.flushPosted.free = m.free := 
  ⟨(foldl_stands (g := Module.pwr) _ fun m d => by dsimp only; split <;> simp).trans rfl,
   (foldl_stands (g := Module.ltime) _ fun m d => by dsimp only; split <;> simp).trans rfl,
   (foldl_stands (g := Module.mem) _ fun m d => by dsimp only; split <;> simp).trans rfl,
   (foldl_stands (g := Module.asy) _ fun m d => by dsimp only; split <;> simp).trans rfl,
   (foldl_stands (g := Module.fab) _ fun m d => by dsimp only; split <;> simp).trans rfl,
   (foldl_stands (g := Module.guild) _ fun m d => by dsimp only; split <;> simp).trans rfl,
   (foldl_stands (g := Module.ptns) _ fun m d => by dsimp only; split <;> simp).trans rfl,
   (foldl_stands (g := Module.halls) _ fun m d => by dsimp only; split <;> simp).trans rfl,
   (foldl_stands (g := Module.benches) _ fun m d => by dsimp only; split <;> simp).trans rfl,
   (foldl_stands (g := Module.querns) _ fun m d => by dsimp only; split <;> simp).trans rfl,
   (foldl_stands (g := Module.rwk) _ fun m d => by dsimp only; split <;> simp).trans rfl,
   (foldl_stands (g := Module.tables) _ fun m d => by dsimp only; split <;> simp).trans rfl,
   (foldl_stands (g := Module.xlat) _ fun m d => by dsimp only; split <;> simp).trans rfl,
   (foldl_stands (g := Module.heldAcc) _ fun m d => by dsimp only; split <;> simp).trans rfl,
   (foldl_stands (g := Module.tileBad) _ fun m d => by dsimp only; split <;> simp).trans rfl,
   (foldl_stands (g := Module.insts) _ fun m d => by dsimp only; split <;> simp).trans rfl,
   (foldl_stands (g := Module.tokens) _ fun m d => by dsimp only; split <;> simp).trans rfl,
   (foldl_stands (g := Module.gathers) _ fun m d => by dsimp only; split <;> simp).trans rfl,
   (foldl_stands (g := Module.scatters) _ fun m d => by dsimp only; split <;> simp).trans rfl,
   (foldl_stands (g := Module.samples) _ fun m d => by dsimp only; split <;> simp).trans rfl,
   (foldl_stands (g := Module.chains) _ fun m d => by dsimp only; split <;> simp).trans rfl,
   (foldl_stands (g := Module.hubs) _ fun m d => by dsimp only; split <;> simp).trans rfl,
   (foldl_stands (g := Module.groups) _ fun m d => by dsimp only; split <;> simp).trans rfl,
   (foldl_stands (g := Module.nextInst) _ fun m d => by dsimp only; split <;> simp).trans rfl,
   (foldl_stands (g := Module.instLog) _ fun m d => by dsimp only; split <;> simp).trans rfl,
   (foldl_stands (g := Module.nextSerial) _ fun m d => by dsimp only; split <;> simp).trans rfl,
   (foldl_stands (g := Module.nextBuf) _ fun m d => by dsimp only; split <;> simp).trans rfl,
   (foldl_stands (g := Module.nextHandle) _ fun m d => by dsimp only; split <;> simp).trans rfl,
   (foldl_stands (g := Module.stamp) _ fun m d => by dsimp only; split <;> simp).trans rfl,
   (foldl_stands (g := Module.free) _ fun m d => by dsimp only; split <;> simp).trans rfl⟩
@[simp] theorem Module.flushPosted_pwr (m : Module) : m.flushPosted.pwr = m.pwr := (Module.flushPosted_stands m).1
@[simp] theorem Module.flushPosted_ltime (m : Module) : m.flushPosted.ltime = m.ltime := (Module.flushPosted_stands m).2.1
@[simp] theorem Module.flushPosted_mem (m : Module) : m.flushPosted.mem = m.mem := (Module.flushPosted_stands m).2.2.1
@[simp] theorem Module.flushPosted_asy (m : Module) : m.flushPosted.asy = m.asy := (Module.flushPosted_stands m).2.2.2.1
@[simp] theorem Module.flushPosted_fab (m : Module) : m.flushPosted.fab = m.fab := (Module.flushPosted_stands m).2.2.2.2.1
@[simp] theorem Module.flushPosted_guild (m : Module) : m.flushPosted.guild = m.guild := (Module.flushPosted_stands m).2.2.2.2.2.1
@[simp] theorem Module.flushPosted_ptns (m : Module) : m.flushPosted.ptns = m.ptns := (Module.flushPosted_stands m).2.2.2.2.2.2.1
@[simp] theorem Module.flushPosted_halls (m : Module) : m.flushPosted.halls = m.halls := (Module.flushPosted_stands m).2.2.2.2.2.2.2.1
@[simp] theorem Module.flushPosted_benches (m : Module) : m.flushPosted.benches = m.benches := (Module.flushPosted_stands m).2.2.2.2.2.2.2.2.1
@[simp] theorem Module.flushPosted_querns (m : Module) : m.flushPosted.querns = m.querns := (Module.flushPosted_stands m).2.2.2.2.2.2.2.2.2.1
@[simp] theorem Module.flushPosted_rwk (m : Module) : m.flushPosted.rwk = m.rwk := (Module.flushPosted_stands m).2.2.2.2.2.2.2.2.2.2.1
@[simp] theorem Module.flushPosted_tables (m : Module) : m.flushPosted.tables = m.tables := (Module.flushPosted_stands m).2.2.2.2.2.2.2.2.2.2.2.1
@[simp] theorem Module.flushPosted_xlat (m : Module) : m.flushPosted.xlat = m.xlat := (Module.flushPosted_stands m).2.2.2.2.2.2.2.2.2.2.2.2.1
@[simp] theorem Module.flushPosted_heldAcc (m : Module) : m.flushPosted.heldAcc = m.heldAcc := (Module.flushPosted_stands m).2.2.2.2.2.2.2.2.2.2.2.2.2.1
@[simp] theorem Module.flushPosted_tileBad (m : Module) : m.flushPosted.tileBad = m.tileBad := (Module.flushPosted_stands m).2.2.2.2.2.2.2.2.2.2.2.2.2.2.1
@[simp] theorem Module.flushPosted_insts (m : Module) : m.flushPosted.insts = m.insts := (Module.flushPosted_stands m).2.2.2.2.2.2.2.2.2.2.2.2.2.2.2.1
@[simp] theorem Module.flushPosted_tokens (m : Module) : m.flushPosted.tokens = m.tokens := (Module.flushPosted_stands m).2.2.2.2.2.2.2.2.2.2.2.2.2.2.2.2.1
@[simp] theorem Module.flushPosted_gathers (m : Module) : m.flushPosted.gathers = m.gathers := (Module.flushPosted_stands m).2.2.2.2.2.2.2.2.2.2.2.2.2.2.2.2.2.1
@[simp] theorem Module.flushPosted_scatters (m : Module) : m.flushPosted.scatters = m.scatters := (Module.flushPosted_stands m).2.2.2.2.2.2.2.2.2.2.2.2.2.2.2.2.2.2.1
@[simp] theorem Module.flushPosted_samples (m : Module) : m.flushPosted.samples = m.samples := (Module.flushPosted_stands m).2.2.2.2.2.2.2.2.2.2.2.2.2.2.2.2.2.2.2.1
@[simp] theorem Module.flushPosted_chains (m : Module) : m.flushPosted.chains = m.chains := (Module.flushPosted_stands m).2.2.2.2.2.2.2.2.2.2.2.2.2.2.2.2.2.2.2.2.1
@[simp] theorem Module.flushPosted_hubs (m : Module) : m.flushPosted.hubs = m.hubs := (Module.flushPosted_stands m).2.2.2.2.2.2.2.2.2.2.2.2.2.2.2.2.2.2.2.2.2.1
@[simp] theorem Module.flushPosted_groups (m : Module) : m.flushPosted.groups = m.groups := (Module.flushPosted_stands m).2.2.2.2.2.2.2.2.2.2.2.2.2.2.2.2.2.2.2.2.2.2.1
@[simp] theorem Module.flushPosted_nextInst (m : Module) : m.flushPosted.nextInst = m.nextInst := (Module.flushPosted_stands m).2.2.2.2.2.2.2.2.2.2.2.2.2.2.2.2.2.2.2.2.2.2.2.1
@[simp] theorem Module.flushPosted_instLog (m : Module) : m.flushPosted.instLog = m.instLog := (Module.flushPosted_stands m).2.2.2.2.2.2.2.2.2.2.2.2.2.2.2.2.2.2.2.2.2.2.2.2.1
@[simp] theorem Module.flushPosted_nextSerial (m : Module) : m.flushPosted.nextSerial = m.nextSerial := (Module.flushPosted_stands m).2.2.2.2.2.2.2.2.2.2.2.2.2.2.2.2.2.2.2.2.2.2.2.2.2.1
@[simp] theorem Module.flushPosted_nextBuf (m : Module) : m.flushPosted.nextBuf = m.nextBuf := (Module.flushPosted_stands m).2.2.2.2.2.2.2.2.2.2.2.2.2.2.2.2.2.2.2.2.2.2.2.2.2.2.1
@[simp] theorem Module.flushPosted_nextHandle (m : Module) : m.flushPosted.nextHandle = m.nextHandle := (Module.flushPosted_stands m).2.2.2.2.2.2.2.2.2.2.2.2.2.2.2.2.2.2.2.2.2.2.2.2.2.2.2.1
@[simp] theorem Module.flushPosted_stamp (m : Module) : m.flushPosted.stamp = m.stamp := (Module.flushPosted_stands m).2.2.2.2.2.2.2.2.2.2.2.2.2.2.2.2.2.2.2.2.2.2.2.2.2.2.2.2.1
@[simp] theorem Module.flushPosted_free (m : Module) : m.flushPosted.free = m.free := (Module.flushPosted_stands m).2.2.2.2.2.2.2.2.2.2.2.2.2.2.2.2.2.2.2.2.2.2.2.2.2.2.2.2.2

theorem Module.zeroAcc_stands (m : Module) (b : Nat) :
    (m.zeroAcc b).pwr = m.pwr ∧ (m.zeroAcc b).ltime = m.ltime ∧ (m.zeroAcc b).regs = m.regs ∧ (m.zeroAcc b).asy = m.asy ∧
    (m.zeroAcc b).fab = m.fab ∧ (m.zeroAcc b).guild = m.guild ∧ (m.zeroAcc b).ctr = m.ctr ∧ (m.zeroAcc b).ptns = m.ptns ∧
    (m.zeroAcc b).halls = m.halls ∧ (m.zeroAcc b).querns = m.querns ∧ (m.zeroAcc b).rwk = m.rwk ∧
    (m.zeroAcc b).tables = m.tables ∧ (m.zeroAcc b).xlat = m.xlat ∧ (m.zeroAcc b).heldAcc = m.heldAcc ∧
    (m.zeroAcc b).tileBad = m.tileBad ∧ (m.zeroAcc b).insts = m.insts ∧ (m.zeroAcc b).tokens = m.tokens ∧
    (m.zeroAcc b).gathers = m.gathers ∧ (m.zeroAcc b).scatters = m.scatters ∧ (m.zeroAcc b).samples = m.samples ∧
    (m.zeroAcc b).chains = m.chains ∧ (m.zeroAcc b).hubs = m.hubs ∧ (m.zeroAcc b).groups = m.groups ∧
    (m.zeroAcc b).nextInst = m.nextInst ∧ (m.zeroAcc b).instLog = m.instLog ∧ (m.zeroAcc b).nextSerial = m.nextSerial ∧
    (m.zeroAcc b).nextBuf = m.nextBuf ∧ (m.zeroAcc b).nextHandle = m.nextHandle ∧ (m.zeroAcc b).stamp = m.stamp ∧
    (m.zeroAcc b).free = m.free ∧ (m.zeroAcc b).sent = m.sent := by
  unfold Module.zeroAcc; try dsimp only
  (repeat' split) <;> simp
@[simp] theorem Module.zeroAcc_pwr (m : Module) (b : Nat) : (m.zeroAcc b).pwr = m.pwr := (Module.zeroAcc_stands m b).1
@[simp] theorem Module.zeroAcc_ltime (m : Module) (b : Nat) : (m.zeroAcc b).ltime = m.ltime := (Module.zeroAcc_stands m b).2.1
@[simp] theorem Module.zeroAcc_regs (m : Module) (b : Nat) : (m.zeroAcc b).regs = m.regs := (Module.zeroAcc_stands m b).2.2.1
@[simp] theorem Module.zeroAcc_asy (m : Module) (b : Nat) : (m.zeroAcc b).asy = m.asy := (Module.zeroAcc_stands m b).2.2.2.1
@[simp] theorem Module.zeroAcc_fab (m : Module) (b : Nat) : (m.zeroAcc b).fab = m.fab := (Module.zeroAcc_stands m b).2.2.2.2.1
@[simp] theorem Module.zeroAcc_guild (m : Module) (b : Nat) : (m.zeroAcc b).guild = m.guild := (Module.zeroAcc_stands m b).2.2.2.2.2.1
@[simp] theorem Module.zeroAcc_ctr (m : Module) (b : Nat) : (m.zeroAcc b).ctr = m.ctr := (Module.zeroAcc_stands m b).2.2.2.2.2.2.1
@[simp] theorem Module.zeroAcc_ptns (m : Module) (b : Nat) : (m.zeroAcc b).ptns = m.ptns := (Module.zeroAcc_stands m b).2.2.2.2.2.2.2.1
@[simp] theorem Module.zeroAcc_halls (m : Module) (b : Nat) : (m.zeroAcc b).halls = m.halls := (Module.zeroAcc_stands m b).2.2.2.2.2.2.2.2.1
@[simp] theorem Module.zeroAcc_querns (m : Module) (b : Nat) : (m.zeroAcc b).querns = m.querns := (Module.zeroAcc_stands m b).2.2.2.2.2.2.2.2.2.1
@[simp] theorem Module.zeroAcc_rwk (m : Module) (b : Nat) : (m.zeroAcc b).rwk = m.rwk := (Module.zeroAcc_stands m b).2.2.2.2.2.2.2.2.2.2.1
@[simp] theorem Module.zeroAcc_tables (m : Module) (b : Nat) : (m.zeroAcc b).tables = m.tables := (Module.zeroAcc_stands m b).2.2.2.2.2.2.2.2.2.2.2.1
@[simp] theorem Module.zeroAcc_xlat (m : Module) (b : Nat) : (m.zeroAcc b).xlat = m.xlat := (Module.zeroAcc_stands m b).2.2.2.2.2.2.2.2.2.2.2.2.1
@[simp] theorem Module.zeroAcc_heldAcc (m : Module) (b : Nat) : (m.zeroAcc b).heldAcc = m.heldAcc := (Module.zeroAcc_stands m b).2.2.2.2.2.2.2.2.2.2.2.2.2.1
@[simp] theorem Module.zeroAcc_tileBad (m : Module) (b : Nat) : (m.zeroAcc b).tileBad = m.tileBad := (Module.zeroAcc_stands m b).2.2.2.2.2.2.2.2.2.2.2.2.2.2.1
@[simp] theorem Module.zeroAcc_insts (m : Module) (b : Nat) : (m.zeroAcc b).insts = m.insts := (Module.zeroAcc_stands m b).2.2.2.2.2.2.2.2.2.2.2.2.2.2.2.1
@[simp] theorem Module.zeroAcc_tokens (m : Module) (b : Nat) : (m.zeroAcc b).tokens = m.tokens := (Module.zeroAcc_stands m b).2.2.2.2.2.2.2.2.2.2.2.2.2.2.2.2.1
@[simp] theorem Module.zeroAcc_gathers (m : Module) (b : Nat) : (m.zeroAcc b).gathers = m.gathers := (Module.zeroAcc_stands m b).2.2.2.2.2.2.2.2.2.2.2.2.2.2.2.2.2.1
@[simp] theorem Module.zeroAcc_scatters (m : Module) (b : Nat) : (m.zeroAcc b).scatters = m.scatters := (Module.zeroAcc_stands m b).2.2.2.2.2.2.2.2.2.2.2.2.2.2.2.2.2.2.1
@[simp] theorem Module.zeroAcc_samples (m : Module) (b : Nat) : (m.zeroAcc b).samples = m.samples := (Module.zeroAcc_stands m b).2.2.2.2.2.2.2.2.2.2.2.2.2.2.2.2.2.2.2.1
@[simp] theorem Module.zeroAcc_chains (m : Module) (b : Nat) : (m.zeroAcc b).chains = m.chains := (Module.zeroAcc_stands m b).2.2.2.2.2.2.2.2.2.2.2.2.2.2.2.2.2.2.2.2.1
@[simp] theorem Module.zeroAcc_hubs (m : Module) (b : Nat) : (m.zeroAcc b).hubs = m.hubs := (Module.zeroAcc_stands m b).2.2.2.2.2.2.2.2.2.2.2.2.2.2.2.2.2.2.2.2.2.1
@[simp] theorem Module.zeroAcc_groups (m : Module) (b : Nat) : (m.zeroAcc b).groups = m.groups := (Module.zeroAcc_stands m b).2.2.2.2.2.2.2.2.2.2.2.2.2.2.2.2.2.2.2.2.2.2.1
@[simp] theorem Module.zeroAcc_nextInst (m : Module) (b : Nat) : (m.zeroAcc b).nextInst = m.nextInst := (Module.zeroAcc_stands m b).2.2.2.2.2.2.2.2.2.2.2.2.2.2.2.2.2.2.2.2.2.2.2.1
@[simp] theorem Module.zeroAcc_instLog (m : Module) (b : Nat) : (m.zeroAcc b).instLog = m.instLog := (Module.zeroAcc_stands m b).2.2.2.2.2.2.2.2.2.2.2.2.2.2.2.2.2.2.2.2.2.2.2.2.1
@[simp] theorem Module.zeroAcc_nextSerial (m : Module) (b : Nat) : (m.zeroAcc b).nextSerial = m.nextSerial := (Module.zeroAcc_stands m b).2.2.2.2.2.2.2.2.2.2.2.2.2.2.2.2.2.2.2.2.2.2.2.2.2.1
@[simp] theorem Module.zeroAcc_nextBuf (m : Module) (b : Nat) : (m.zeroAcc b).nextBuf = m.nextBuf := (Module.zeroAcc_stands m b).2.2.2.2.2.2.2.2.2.2.2.2.2.2.2.2.2.2.2.2.2.2.2.2.2.2.1
@[simp] theorem Module.zeroAcc_nextHandle (m : Module) (b : Nat) : (m.zeroAcc b).nextHandle = m.nextHandle := (Module.zeroAcc_stands m b).2.2.2.2.2.2.2.2.2.2.2.2.2.2.2.2.2.2.2.2.2.2.2.2.2.2.2.1
@[simp] theorem Module.zeroAcc_stamp (m : Module) (b : Nat) : (m.zeroAcc b).stamp = m.stamp := (Module.zeroAcc_stands m b).2.2.2.2.2.2.2.2.2.2.2.2.2.2.2.2.2.2.2.2.2.2.2.2.2.2.2.2.1
@[simp] theorem Module.zeroAcc_free (m : Module) (b : Nat) : (m.zeroAcc b).free = m.free := (Module.zeroAcc_stands m b).2.2.2.2.2.2.2.2.2.2.2.2.2.2.2.2.2.2.2.2.2.2.2.2.2.2.2.2.2.1
@[simp] theorem Module.zeroAcc_sent (m : Module) (b : Nat) : (m.zeroAcc b).sent = m.sent := (Module.zeroAcc_stands m b).2.2.2.2.2.2.2.2.2.2.2.2.2.2.2.2.2.2.2.2.2.2.2.2.2.2.2.2.2.2

theorem Module.clearAccs_stands (m : Module) (ended : Bench → Bool) :
    (m.clearAccs ended).pwr = m.pwr ∧ (m.clearAccs ended).ltime = m.ltime ∧ (m.clearAccs ended).regs = m.regs ∧
    (m.clearAccs ended).asy = m.asy ∧ (m.clearAccs ended).fab = m.fab ∧ (m.clearAccs ended).guild = m.guild ∧
    (m.clearAccs ended).ctr = m.ctr ∧ (m.clearAccs ended).ptns = m.ptns ∧ (m.clearAccs ended).halls = m.halls ∧
    (m.clearAccs ended).querns = m.querns ∧ (m.clearAccs ended).rwk = m.rwk ∧ (m.clearAccs ended).tables = m.tables ∧
    (m.clearAccs ended).xlat = m.xlat ∧ (m.clearAccs ended).heldAcc = m.heldAcc ∧ (m.clearAccs ended).tileBad = m.tileBad ∧
    (m.clearAccs ended).insts = m.insts ∧ (m.clearAccs ended).tokens = m.tokens ∧ (m.clearAccs ended).gathers = m.gathers ∧
    (m.clearAccs ended).scatters = m.scatters ∧ (m.clearAccs ended).samples = m.samples ∧
    (m.clearAccs ended).chains = m.chains ∧ (m.clearAccs ended).hubs = m.hubs ∧ (m.clearAccs ended).groups = m.groups ∧
    (m.clearAccs ended).nextInst = m.nextInst ∧ (m.clearAccs ended).instLog = m.instLog ∧
    (m.clearAccs ended).nextSerial = m.nextSerial ∧ (m.clearAccs ended).nextBuf = m.nextBuf ∧
    (m.clearAccs ended).nextHandle = m.nextHandle ∧ (m.clearAccs ended).stamp = m.stamp ∧ (m.clearAccs ended).free = m.free ∧
    (m.clearAccs ended).sent = m.sent := 
  ⟨foldl_stands (g := Module.pwr) _ fun m d => Module.zeroAcc_pwr m d,
   foldl_stands (g := Module.ltime) _ fun m d => Module.zeroAcc_ltime m d,
   foldl_stands (g := Module.regs) _ fun m d => Module.zeroAcc_regs m d,
   foldl_stands (g := Module.asy) _ fun m d => Module.zeroAcc_asy m d,
   foldl_stands (g := Module.fab) _ fun m d => Module.zeroAcc_fab m d,
   foldl_stands (g := Module.guild) _ fun m d => Module.zeroAcc_guild m d,
   foldl_stands (g := Module.ctr) _ fun m d => Module.zeroAcc_ctr m d,
   foldl_stands (g := Module.ptns) _ fun m d => Module.zeroAcc_ptns m d,
   foldl_stands (g := Module.halls) _ fun m d => Module.zeroAcc_halls m d,
   foldl_stands (g := Module.querns) _ fun m d => Module.zeroAcc_querns m d,
   foldl_stands (g := Module.rwk) _ fun m d => Module.zeroAcc_rwk m d,
   foldl_stands (g := Module.tables) _ fun m d => Module.zeroAcc_tables m d,
   foldl_stands (g := Module.xlat) _ fun m d => Module.zeroAcc_xlat m d,
   foldl_stands (g := Module.heldAcc) _ fun m d => Module.zeroAcc_heldAcc m d,
   foldl_stands (g := Module.tileBad) _ fun m d => Module.zeroAcc_tileBad m d,
   foldl_stands (g := Module.insts) _ fun m d => Module.zeroAcc_insts m d,
   foldl_stands (g := Module.tokens) _ fun m d => Module.zeroAcc_tokens m d,
   foldl_stands (g := Module.gathers) _ fun m d => Module.zeroAcc_gathers m d,
   foldl_stands (g := Module.scatters) _ fun m d => Module.zeroAcc_scatters m d,
   foldl_stands (g := Module.samples) _ fun m d => Module.zeroAcc_samples m d,
   foldl_stands (g := Module.chains) _ fun m d => Module.zeroAcc_chains m d,
   foldl_stands (g := Module.hubs) _ fun m d => Module.zeroAcc_hubs m d,
   foldl_stands (g := Module.groups) _ fun m d => Module.zeroAcc_groups m d,
   foldl_stands (g := Module.nextInst) _ fun m d => Module.zeroAcc_nextInst m d,
   foldl_stands (g := Module.instLog) _ fun m d => Module.zeroAcc_instLog m d,
   foldl_stands (g := Module.nextSerial) _ fun m d => Module.zeroAcc_nextSerial m d,
   foldl_stands (g := Module.nextBuf) _ fun m d => Module.zeroAcc_nextBuf m d,
   foldl_stands (g := Module.nextHandle) _ fun m d => Module.zeroAcc_nextHandle m d,
   foldl_stands (g := Module.stamp) _ fun m d => Module.zeroAcc_stamp m d,
   foldl_stands (g := Module.free) _ fun m d => Module.zeroAcc_free m d,
   foldl_stands (g := Module.sent) _ fun m d => Module.zeroAcc_sent m d⟩
@[simp] theorem Module.clearAccs_pwr (m : Module) (ended : Bench → Bool) : (m.clearAccs ended).pwr = m.pwr := (Module.clearAccs_stands m ended).1
@[simp] theorem Module.clearAccs_ltime (m : Module) (ended : Bench → Bool) : (m.clearAccs ended).ltime = m.ltime := (Module.clearAccs_stands m ended).2.1
@[simp] theorem Module.clearAccs_regs (m : Module) (ended : Bench → Bool) : (m.clearAccs ended).regs = m.regs := (Module.clearAccs_stands m ended).2.2.1
@[simp] theorem Module.clearAccs_asy (m : Module) (ended : Bench → Bool) : (m.clearAccs ended).asy = m.asy := (Module.clearAccs_stands m ended).2.2.2.1
@[simp] theorem Module.clearAccs_fab (m : Module) (ended : Bench → Bool) : (m.clearAccs ended).fab = m.fab := (Module.clearAccs_stands m ended).2.2.2.2.1
@[simp] theorem Module.clearAccs_guild (m : Module) (ended : Bench → Bool) : (m.clearAccs ended).guild = m.guild := (Module.clearAccs_stands m ended).2.2.2.2.2.1
@[simp] theorem Module.clearAccs_ctr (m : Module) (ended : Bench → Bool) : (m.clearAccs ended).ctr = m.ctr := (Module.clearAccs_stands m ended).2.2.2.2.2.2.1
@[simp] theorem Module.clearAccs_ptns (m : Module) (ended : Bench → Bool) : (m.clearAccs ended).ptns = m.ptns := (Module.clearAccs_stands m ended).2.2.2.2.2.2.2.1
@[simp] theorem Module.clearAccs_halls (m : Module) (ended : Bench → Bool) : (m.clearAccs ended).halls = m.halls := (Module.clearAccs_stands m ended).2.2.2.2.2.2.2.2.1
@[simp] theorem Module.clearAccs_querns (m : Module) (ended : Bench → Bool) : (m.clearAccs ended).querns = m.querns := (Module.clearAccs_stands m ended).2.2.2.2.2.2.2.2.2.1
@[simp] theorem Module.clearAccs_rwk (m : Module) (ended : Bench → Bool) : (m.clearAccs ended).rwk = m.rwk := (Module.clearAccs_stands m ended).2.2.2.2.2.2.2.2.2.2.1
@[simp] theorem Module.clearAccs_tables (m : Module) (ended : Bench → Bool) : (m.clearAccs ended).tables = m.tables := (Module.clearAccs_stands m ended).2.2.2.2.2.2.2.2.2.2.2.1
@[simp] theorem Module.clearAccs_xlat (m : Module) (ended : Bench → Bool) : (m.clearAccs ended).xlat = m.xlat := (Module.clearAccs_stands m ended).2.2.2.2.2.2.2.2.2.2.2.2.1
@[simp] theorem Module.clearAccs_heldAcc (m : Module) (ended : Bench → Bool) : (m.clearAccs ended).heldAcc = m.heldAcc := (Module.clearAccs_stands m ended).2.2.2.2.2.2.2.2.2.2.2.2.2.1
@[simp] theorem Module.clearAccs_tileBad (m : Module) (ended : Bench → Bool) : (m.clearAccs ended).tileBad = m.tileBad := (Module.clearAccs_stands m ended).2.2.2.2.2.2.2.2.2.2.2.2.2.2.1
@[simp] theorem Module.clearAccs_insts (m : Module) (ended : Bench → Bool) : (m.clearAccs ended).insts = m.insts := (Module.clearAccs_stands m ended).2.2.2.2.2.2.2.2.2.2.2.2.2.2.2.1
@[simp] theorem Module.clearAccs_tokens (m : Module) (ended : Bench → Bool) : (m.clearAccs ended).tokens = m.tokens := (Module.clearAccs_stands m ended).2.2.2.2.2.2.2.2.2.2.2.2.2.2.2.2.1
@[simp] theorem Module.clearAccs_gathers (m : Module) (ended : Bench → Bool) : (m.clearAccs ended).gathers = m.gathers := (Module.clearAccs_stands m ended).2.2.2.2.2.2.2.2.2.2.2.2.2.2.2.2.2.1
@[simp] theorem Module.clearAccs_scatters (m : Module) (ended : Bench → Bool) : (m.clearAccs ended).scatters = m.scatters := (Module.clearAccs_stands m ended).2.2.2.2.2.2.2.2.2.2.2.2.2.2.2.2.2.2.1
@[simp] theorem Module.clearAccs_samples (m : Module) (ended : Bench → Bool) : (m.clearAccs ended).samples = m.samples := (Module.clearAccs_stands m ended).2.2.2.2.2.2.2.2.2.2.2.2.2.2.2.2.2.2.2.1
@[simp] theorem Module.clearAccs_chains (m : Module) (ended : Bench → Bool) : (m.clearAccs ended).chains = m.chains := (Module.clearAccs_stands m ended).2.2.2.2.2.2.2.2.2.2.2.2.2.2.2.2.2.2.2.2.1
@[simp] theorem Module.clearAccs_hubs (m : Module) (ended : Bench → Bool) : (m.clearAccs ended).hubs = m.hubs := (Module.clearAccs_stands m ended).2.2.2.2.2.2.2.2.2.2.2.2.2.2.2.2.2.2.2.2.2.1
@[simp] theorem Module.clearAccs_groups (m : Module) (ended : Bench → Bool) : (m.clearAccs ended).groups = m.groups := (Module.clearAccs_stands m ended).2.2.2.2.2.2.2.2.2.2.2.2.2.2.2.2.2.2.2.2.2.2.1
@[simp] theorem Module.clearAccs_nextInst (m : Module) (ended : Bench → Bool) : (m.clearAccs ended).nextInst = m.nextInst := (Module.clearAccs_stands m ended).2.2.2.2.2.2.2.2.2.2.2.2.2.2.2.2.2.2.2.2.2.2.2.1
@[simp] theorem Module.clearAccs_instLog (m : Module) (ended : Bench → Bool) : (m.clearAccs ended).instLog = m.instLog := (Module.clearAccs_stands m ended).2.2.2.2.2.2.2.2.2.2.2.2.2.2.2.2.2.2.2.2.2.2.2.2.1
@[simp] theorem Module.clearAccs_nextSerial (m : Module) (ended : Bench → Bool) : (m.clearAccs ended).nextSerial = m.nextSerial := (Module.clearAccs_stands m ended).2.2.2.2.2.2.2.2.2.2.2.2.2.2.2.2.2.2.2.2.2.2.2.2.2.1
@[simp] theorem Module.clearAccs_nextBuf (m : Module) (ended : Bench → Bool) : (m.clearAccs ended).nextBuf = m.nextBuf := (Module.clearAccs_stands m ended).2.2.2.2.2.2.2.2.2.2.2.2.2.2.2.2.2.2.2.2.2.2.2.2.2.2.1
@[simp] theorem Module.clearAccs_nextHandle (m : Module) (ended : Bench → Bool) : (m.clearAccs ended).nextHandle = m.nextHandle := (Module.clearAccs_stands m ended).2.2.2.2.2.2.2.2.2.2.2.2.2.2.2.2.2.2.2.2.2.2.2.2.2.2.2.1
@[simp] theorem Module.clearAccs_stamp (m : Module) (ended : Bench → Bool) : (m.clearAccs ended).stamp = m.stamp := (Module.clearAccs_stands m ended).2.2.2.2.2.2.2.2.2.2.2.2.2.2.2.2.2.2.2.2.2.2.2.2.2.2.2.2.1
@[simp] theorem Module.clearAccs_free (m : Module) (ended : Bench → Bool) : (m.clearAccs ended).free = m.free := (Module.clearAccs_stands m ended).2.2.2.2.2.2.2.2.2.2.2.2.2.2.2.2.2.2.2.2.2.2.2.2.2.2.2.2.2.1
@[simp] theorem Module.clearAccs_sent (m : Module) (ended : Bench → Bool) : (m.clearAccs ended).sent = m.sent := (Module.clearAccs_stands m ended).2.2.2.2.2.2.2.2.2.2.2.2.2.2.2.2.2.2.2.2.2.2.2.2.2.2.2.2.2.2

theorem Module.stopWork_stands (m : Module) :
    m.stopWork.pwr = m.pwr ∧ m.stopWork.ltime = m.ltime ∧ m.stopWork.regs = m.regs ∧ m.stopWork.asy = m.asy ∧
    m.stopWork.fab = m.fab ∧ m.stopWork.guild = m.guild ∧ m.stopWork.ctr = m.ctr ∧ m.stopWork.tables = m.tables ∧
    m.stopWork.xlat = m.xlat ∧ m.stopWork.tileBad = m.tileBad ∧ m.stopWork.nextInst = m.nextInst ∧
    m.stopWork.instLog = m.instLog ∧ m.stopWork.nextSerial = m.nextSerial ∧ m.stopWork.nextBuf = m.nextBuf ∧
    m.stopWork.nextHandle = m.nextHandle ∧ m.stopWork.stamp = m.stamp ∧ m.stopWork.free = m.free ∧ m.stopWork.sent = m.sent := by
  unfold Module.stopWork; simp
@[simp] theorem Module.stopWork_pwr (m : Module) : m.stopWork.pwr = m.pwr := (Module.stopWork_stands m).1
@[simp] theorem Module.stopWork_ltime (m : Module) : m.stopWork.ltime = m.ltime := (Module.stopWork_stands m).2.1
@[simp] theorem Module.stopWork_regs (m : Module) : m.stopWork.regs = m.regs := (Module.stopWork_stands m).2.2.1
@[simp] theorem Module.stopWork_asy (m : Module) : m.stopWork.asy = m.asy := (Module.stopWork_stands m).2.2.2.1
@[simp] theorem Module.stopWork_fab (m : Module) : m.stopWork.fab = m.fab := (Module.stopWork_stands m).2.2.2.2.1
@[simp] theorem Module.stopWork_guild (m : Module) : m.stopWork.guild = m.guild := (Module.stopWork_stands m).2.2.2.2.2.1
@[simp] theorem Module.stopWork_ctr (m : Module) : m.stopWork.ctr = m.ctr := (Module.stopWork_stands m).2.2.2.2.2.2.1
@[simp] theorem Module.stopWork_tables (m : Module) : m.stopWork.tables = m.tables := (Module.stopWork_stands m).2.2.2.2.2.2.2.1
@[simp] theorem Module.stopWork_xlat (m : Module) : m.stopWork.xlat = m.xlat := (Module.stopWork_stands m).2.2.2.2.2.2.2.2.1
@[simp] theorem Module.stopWork_tileBad (m : Module) : m.stopWork.tileBad = m.tileBad := (Module.stopWork_stands m).2.2.2.2.2.2.2.2.2.1
@[simp] theorem Module.stopWork_nextInst (m : Module) : m.stopWork.nextInst = m.nextInst := (Module.stopWork_stands m).2.2.2.2.2.2.2.2.2.2.1
@[simp] theorem Module.stopWork_instLog (m : Module) : m.stopWork.instLog = m.instLog := (Module.stopWork_stands m).2.2.2.2.2.2.2.2.2.2.2.1
@[simp] theorem Module.stopWork_nextSerial (m : Module) : m.stopWork.nextSerial = m.nextSerial := (Module.stopWork_stands m).2.2.2.2.2.2.2.2.2.2.2.2.1
@[simp] theorem Module.stopWork_nextBuf (m : Module) : m.stopWork.nextBuf = m.nextBuf := (Module.stopWork_stands m).2.2.2.2.2.2.2.2.2.2.2.2.2.1
@[simp] theorem Module.stopWork_nextHandle (m : Module) : m.stopWork.nextHandle = m.nextHandle := (Module.stopWork_stands m).2.2.2.2.2.2.2.2.2.2.2.2.2.2.1
@[simp] theorem Module.stopWork_stamp (m : Module) : m.stopWork.stamp = m.stamp := (Module.stopWork_stands m).2.2.2.2.2.2.2.2.2.2.2.2.2.2.2.1
@[simp] theorem Module.stopWork_free (m : Module) : m.stopWork.free = m.free := (Module.stopWork_stands m).2.2.2.2.2.2.2.2.2.2.2.2.2.2.2.2.1
@[simp] theorem Module.stopWork_sent (m : Module) : m.stopWork.sent = m.sent := (Module.stopWork_stands m).2.2.2.2.2.2.2.2.2.2.2.2.2.2.2.2.2

end Sys2Proof.Machine
end

