-- ==== Sys2Proof/WellFormed.lean ====
section
/-! DEFINITION. Which commands can reach the block at all: the operand ranges that the spec gives the units that send them. Every
meaning is total all the same: an ill-formed command is one that no host, member or unit of the block sends. -/
namespace Sys2Proof

/-- A queue pair index (R451). -/
def qpOk (qp : Nat) : Bool := decide (qp < 4096)

/-- A capsule as one SEND brings it: at most 64 + 4,096 bytes, with as many inline bytes as it says (R349, R449). -/
def Capsule.ok (c : Capsule) : Bool := c.inl.length == c.inlen.toNat && decide (c.inl.length ≤ 4096)

/-- The payload of a Lightway packet (R390). -/
def payloadOk (bs : List Byte) : Bool := decide (bs.length ≤ 4096)

/-- The name of a collective: its partition, and a group of the table or an axis group (R412, R416). -/
def collOk (n : Nat) : Bool := decide (n / 8 % 512 < 0x140)

/-- A command that the rules of its row let its sender send. -/
def Instr.wellFormed : Instr → Bool
  | .run qp c | .cancel qp c | .query qp c | .draftActivate qp c | .draftUnload qp c | .pageEvict qp c | .pageRestore qp c
  | .editionBegin qp c | .editionSeal qp c | .editionDiscard qp c | .editionFlip qp c | .graphDefine qp c
  | .graphUndefine qp c | .graphUnload qp c => qpOk qp && c.ok
  | .graphLoad qp c image | .draftLoad qp c image => qpOk qp && c.ok && decide (image.length < 2 ^ 30)
  | .editionWrite qp c rows => qpOk qp && c.ok && decide (rows.length < 2 ^ 30)
  | .fallbackLaunch qp _ | .qpClose qp | .unsupportedVerb qp | .ackTimeout qp | .ecnMarkedReceive qp | .cnpReceive qp
  | .rateIncrease qp | .noticeHoldExpire qp | .rnrRetry qp _ | .hostRdmaRead qp _ _ _ | .slotRelease qp _ _ _
  | .doorbellWrite qp _ _ | .hostRdmaWrite qp _ _ _ => qpOk qp
  | .mailboxRetentionExpire qp slot => qpOk qp && decide (slot < 4096)
  | .nakReceive qp op _ _ => qpOk qp && decide (op ≤ 2)
  | .pageResume _ ra => decide (ra < 2 ^ 41)
  | .channelAccess _ _ _ ra len hint _ _ => decide (ra + len ≤ 2 ^ 41 ∧ 0 < len ∧ len ≤ 2048 ∧ hint ≤ 2)
  | .packetReceive _ _ payload _ | .tokenPacket _ _ payload | .gatherReq _ _ payload | .partialPkt _ _ payload
  | .sampleReq _ _ payload | .sampleAns _ _ payload | .addBatch _ _ payload | .addAck _ _ payload | .chunk _ _ payload =>
    payloadOk payload
  | .noticePacket _ payload => payload.length == 64
  | .rebuildPage _ _ _ page data => decide (page < 2 ^ 20) && data.length == 2097152
  | .keyAgree _ _ _ secret | .keyRenew _ secret => decide (secret.length ≤ 64)
  | .rwkReserveRetry coll | .collPassStart coll | .chunkNack _ coll _ | .hold _ coll _ | .stragglerExpire coll _ _
  | .late coll _ _ | .reform coll _ _ | .levelCSumReceive coll _ _ _ => collOk coll
  | .collAbort _ grp _ _ _ _ _ _ => decide (grp.toNat < 0x140)
  | .joinRequest _ _ charter _ _ _ => charter.length == 64
  | .joinWaitExpire _ serials charters => decide (serials.length ≤ 64 ∧ charters.length ≤ 64)
  | .benchOutOfService _ f => decide (f.pbench < 68) && f.word.all fun w => decide (w < 0x600000)
  | .stackWithdraw _ cause => decide (1 ≤ cause.val ∧ cause.val ≤ 4)
  | .trainingDone _ lanes bad => decide (lanes.length = 20 ∧ bad.length = 4)
  | .thermalSample temps halls => decide (temps.length = 20 ∧ halls.length = 4)
  | .powerApplied mv => decide (38000 ≤ mv ∧ mv ≤ 52000)
  | .inputRange mv => decide (mv < 40000 ∨ 50000 < mv)
  | .inputInRange mv => decide (40000 ≤ mv ∧ mv ≤ 50000)
  | .halDctlOos _ pbench => decide (pbench.toNat < 68)
  | .halDctlWd _ stack => decide (stack.toNat < 5)
  | .registerWrite _ addr _ => decide (addr % 8 = 0 ∧ 0x1FF00000000 ≤ addr ∧ addr < 0x20000000000)
  | .registerBadAccess _ addr len _ _ =>
    decide (0x1FF00000000 ≤ addr ∧ addr < 0x20000000000) && (len != 8 || addr % 8 != 0)
  | .sidebandPrivateWrite bytes => decide (1 ≤ bytes.length)
  | .stack1500 stack _ => decide (stack.toNat < 20)
  | .sample _ | .gather _ | .scatterAdd _ | .segmentReduce _ | .matmul _ | .chainFiring _ | .chainHoldExpire _
  | .chainSumArrive _ _ _ | .spmmCsr _ | .hubSegmentTake _ | .hubPartialArrive _ _ _ | .vector _ | .reduce _ | .topk _
  | .streamCopy _ | .fuse _ | .fusedGroupDispatch _ | .fuseCreditReturn _ | .barrier _ | .barrierRelease _ | .allreduce _
  | .pageEvictDrained _ _ | .editionSealDone _ _ | .inputFetchDone _ _ _ | .roundWindowClose _ | .admissionRetry _
  | .tokenArrive _ | .benchDispatch _ | .affinityHoldExpire _ | .matchStall _ _ | .nodeFiringEnd _ | .relay _ | .join _
  | .steer _ | .streamAdmit _ | .preadmit _ | .streamRequestComplete _ _ | .streamSlack _ _ | .haltLong _ _
  | .quernEntryAccept _ | .segmentOpen _ | .lineFetchDone _ _ _ | .bankFallback _ _ | .mergerPartial _ | .gatherPartial _
  | .addBatchArrive _ _ | .addBatchReserved _ _ | .addBatchEnd _ _ | .cbAgeWriteback _ _ _ | .hallCacheFillDone _ _
  | .scrubRead _ _ | .receiptExpire _ _ | .tallyEntryExpire _ _ | .pushRetentionExpire _ _ | .retireSlow _
  | .staleTokenDiscard _ | .cmReq _ _ _ _ | .pauseFrame _ _ _ | .linkState _ _ _ | .noticeDeliver | .portTrain _ _
  | .heldRetry _ | .linkFrameReceive _ _ _ _ | .portFail _ | .linkDown _ | .e2eTimeout _ _ _ | .e2e _ _ _
  | .commandPacket _ _ _ _ _ _ _ | .bulk _ _ _ _ | .prepare _ _ _ | .ready _ _ _ | .drainTimeout _ | .commit _ _
  | .abort _ _ | .drained _ _ _ | .release _ _ _ | .probeExpire _ | .lost _ _ _ _ | .routes _ _ | .fenceExpire _
  | .benchWatchdog _ | .benchCopyDone _ _ | .drainForced | .mbctlClaim _ | .claimExpire | .certs | .quote | .sessionOpen
  | .sessionClose | .zeroise | .signersLoad | .rolesLoad | .packageLoad | .tamper _ | .entropyTestFail | .powerLoss
  | .modRstAssert | .modRstRelease _ | .hallTrip _ _ | .powerCapStep _ | .pwrRstCold | .pwrRstWarm | .pwrCmdDrain
  | .pwrCmdRelease | .pwrT1500dWrite _ | .qrnFlush _ | .qrnHrcinv _ | .halCctlFlush _ | .halCctlInv _ | .halCctlEn _ _
  | .accclr _ | .bchVcseed _ _ | .halSresume _ _ | .elogClr _ | .nringClr | .rwkGcommitCommit | .rwkGcommitDiscard
  | .sidebandPrivateRead | .setdasa _ | .idcode | .bypass | .samplePreload _ | .extest | .pipeTileArrive _ _
  | .sampleNeighbourReturn _ | .pairSwitchDone _ _ | .pfcPauseExpire _ | .arpRequest _ _ | .neighbourSolicitation _ _
  | .tapReset => true

end Sys2Proof
end

