-- ==== Sys2Proof/Tests/Slice0.lean ====
section
/-! SUPPORT. A `witness_` theorem shows, clause by clause, concrete states and operands that meet the hypotheses of the
obligation of that name; a `test_` theorem compares one step with the spec's own figures. -/

namespace Sys2Proof.Tests

open Sys2Proof Sys2Proof.Machine

-- One theorem after the other: a thread for each would hold too much memory.
set_option Elab.async false

/-- A module without input power. -/
abbrev dark : Module := {}
/-- A module with input power, in a state. -/
abbrev on (x : Mode) : Module := { pwr := { input := true, pwrgd := true, rstLow := false, mode := x } }

/-- A module whose mailbox holds a request of an operation, with flags, a session and a length of zero operand bytes. -/
abbrev mbOf (x : Mode) (op flags session len : Nat) : Module :=
  ((on x).setReg (asyR 0x1000) (BitVec.ofNat 64 (op + 256 * flags + 2 ^ 32 * len))).setReg (asyR 0x1008) (BitVec.ofNat 64 session)

/-- What the hypotheses say of the request in the mailbox. -/
abbrev reads (m : Module) (P : MbReq → Bool) : Bool := (m.mbRequest.map P).getD false

/-- The firing of the jobs below. -/
abbrev key0 : FKey := ⟨0, 0, 0⟩

/-- The match entry of the jobs below: running on bench 0. -/
abbrev entry0 : MatchEntry := { key := key0, ptn := 0, hall := 0, state := .executing, tokens := [], bench := some 0, launched := true }

/-- Module `m` with the firing `key0` of one node, with the node's tensors and its match entry. -/
abbrev jobIn (m : Module) (n : Node) (ts : List Tensor) (e : MatchEntry) : Module :=
  let g : Graph := { handle := 0, maxgen := 4, exits := 1, arena := 0, slotq := 4, readyq := 4, tag := 0, nodes := [n], tensors := ts, image := [] }
  let i : Inst := { num := 0, ptn := 0, handle := 0, reqid := 1, arenaBase := 0, inBufs := [], outBufs := [], bindings := [] }
  { m with
    insts := [i]
    ptns := m.ptns.modify 0 fun p => { p with graphs := [g] }
    halls := m.halls.modify 0 fun h => { h with entries := [e] }
    benches := m.benches.modify 0 fun b => { b with busy := some key0 } }

abbrev job (n : Node) (ts : List Tensor) : Module := jobIn (on .joined) n ts entry0

/-- A node of a class with nothing but operands and results. -/
abbrev nodeOfClass (op : Nat) (opnd res : List Nat) (param : Nat) : Node :=
  { index := 0, op := op, exit := true, noaff := false, prio := false, nports := opnd.length, dyn := 0, bset := 0, opnd := opnd, res := res
    dest := [], param := param }

/-- A queue pair with one mailbox slot and a key for each window. -/
abbrev qp0 : QueuePair :=
  { num := 0, port := 0, kind := 0, ptn := 0, aclass := 0, ringMode := false, slotcap := 64, slots := [{ state := 2, reqid := 5 }], nmask := 0, gsel := 0, gkind := 0
    ringaddr := 0, ringkey := 0, ringlen := 0, keys := [1, 2, 3, 4] }
/-- A JOINED module with queue pairs. -/
abbrev withQps (qs : List QueuePair) : Module := { on .joined with ctr := { qps := qs, link := [true, true, true, true] } }

/-- Region 0 of one 2 MiB page, open to every queue pair and bench of partition 0. -/
abbrev draft0 : Draft :=
  { regions := [{ rgn := 0, page := 0, mode := 0, wh := 0, flags := 0, base := 0, size := 2 ^ 21 }]
    access := [{ tclass := 1, perm := 7, tfirst := 0, tcount := 1, mfirst := 0, mlast := 0xFFF, mkind := 0 }] }
abbrev region0 : RegionSt := { info := { rgn := 0, page := 0, mode := 0, wh := 0, flags := 0, base := 0, size := 2 ^ 21 }, serial := 0 }
/-- A module with that draft in force. -/
abbrev drafted (m : Module) : Module :=
  { m with ptns := m.ptns.modify 0 fun p => { p with active := 1, draft := some draft0, regions := [region0] } }

/-- Member 0 of a guild of three on the X axis, JOINED, with every Lightway port in a state. -/
abbrev guild3 (x : Mode) (st : Nat) : Module :=
  let m := (on x).setReg (fabR 0x000) (BitVec.ofNat 64 (2 * 2 ^ 6 + 3 * 2 ^ 12 + 2 ^ 14))
  { m with guild := { joined := 7, quorum := true }, fab := { ports := List.replicate 32 { state := st }, through := 0 } }

/-- A tensor in a region. -/
abbrev tens (type dim0 dim1 addr : Nat) : Tensor :=
  { type := type, layout := 0, hint := 0, space := 0, pat := 0, oobx := false, dim0 := dim0, dim1 := dim1, dim2 := 1, pitch := 0, aux := 0, addr := addr }

/-- Bench set 0 of hall 0's benches, a chain of two benches and a pipe between two others. -/
abbrev draft1 : Draft :=
  { draft0 with
    sets := [{ set := 0, hall := 0, share := 0, weight := 1, mask := 2 ^ 64 - 1 }]
    weaves := [{ kind := 2, hall := 0, id := 1, len := 2, bench := [0, 1] }, { kind := 1, hall := 0, id := 1, len := 2, bench := [2, 3] }]
    access := [{ tclass := 1, perm := 7, tfirst := 0, tcount := 1, mfirst := 0, mlast := 0x7FF, mkind := 0 }] }
/-- A JOINED module with that draft, and the match entries of an instance of a graph. -/
abbrev shop (ns : List Node) (ts : List Tensor) (es : List MatchEntry) : Module :=
  let g : Graph := { handle := 0, maxgen := 4, exits := 1, arena := 0, slotq := 4, readyq := 4, tag := 0, nodes := ns, tensors := ts, image := [] }
  let i : Inst := { num := 0, ptn := 0, handle := 0, reqid := 1, arenaBase := 0, inBufs := [], outBufs := [], bindings := [] }
  { on .joined with
    insts := [i]
    ptns := (List.replicate 8 {}).modify 0 fun p => { p with active := 1, draft := some draft1, regions := [region0], graphs := [g] }
    halls := (List.replicate 4 {}).modify 0 fun h => { h with entries := es } }
/-- A READY entry of a node. -/
abbrev ready0 (node : BitVec 16) : MatchEntry := { key := { key0 with node := node }, ptn := 0, hall := 0, state := .ready, tokens := [] }
/-- A token on a port for node 0. -/
abbrev tok0 (port : Byte) : Token := { (default : Token) with pk := port }

/-- No delta waits in a combining entry, and no fused group runs. -/
abbrev quiet (m : Module) : Bool := m.querns.all (·.comb.isEmpty) && m.groups.isEmpty

/-- Page 0 of the region lies on stack 0. -/
theorem stack_page0 {m : Module} (r : m.regionOfKey (regionKey 0 0) = some region0) : m.stackOfKey (regionKey 0 0) = 0 := by
  rw [Module.stackOfKey_some r]; decide +kernel

/-! ### Power, resets and start-up -/

theorem witness_PowerOnAndPowerLoss :
    (dark.pwr.input = false ∧ 40000 ≤ 40000 ∧ 40000 ≤ 50000) ∧ (dark.pwr.input = false ∧ 38000 ≤ 38000 ∧ 38000 < 40000) ∧
    (on .joined).pwr.input = true := by decide

theorem witness_InputRangeExcursion :
    ((on .joined).pwr.input = true ∧ 50000 < 50001 ∧ 50001 ≤ 52000) ∧ (on .joined).pwr.extended = false ∧
    { on .joined with pwr := { (on .joined).pwr with extended := true } }.pwr.extended = true ∧ 37999 < 38000 ∧ 52000 < 52001 ∧
    dark.pwr.input = false := by decide

theorem witness_ModRstPinResets :
    (on .joined).pwr.input = true ∧ dark.pwr.input = false ∧ (on .off).asy.seedErased = false ∧
    (let m : Module := { pwr := { input := true, pwrgd := true }, asy := { seedErased := true } }
     m.pwr.input = true ∧ m.pwr.rstLow = true ∧ m.pwr.mode = .off ∧ m.asy.seedErased = true) ∧
    (let m : Module := { pwr := { input := true, pwrgd := true } }
     m.pwr.input = true ∧ m.pwr.rstLow = true ∧ m.pwr.mode = .off ∧ m.asy.seedErased = false) ∧
    (on .joined).pwr.rstLow = false := by decide

theorem witness_RegisterResetsKeepWhatR502Says :
    SparseWf regDefault (on .joined).regs ∧ (on .joined).pwr.input = true ∧ (on .joined).pwr.rstLow = false ∧ dark.pwr.input = false ∧
    (on .joined).pwr.mode ≠ .off ∧ (on .joined).pwr.mode ≠ .faulted ∧ (on .joined).halls.length = 4 ∧
    (on .faulted).pwr.mode = .faulted := by decide +kernel

theorem witness_PwrCmdDrainAndRelease :
    (let m : Module := { on .joined with insts := [default] }
     m.pwr.mode = .joined ∧ m.insts ≠ []) ∧
    ((on .boot).pwr.mode ≠ .joined ∧ (on .boot).pwr.mode ≠ .quarantine) ∧
    (let m : Module := { on .boot with asy := { bootstep := 5 } }
     m.pwr.mode = .boot ∧ m.asy.bootstep = 5) ∧ (on .boot).asy.bootstep ≠ 5 := by decide +kernel

theorem witness_TrainingDoneTrainsOrWithdraws :
    (let m := on .training
     m.shaped ∧ (List.replicate 20 (0 : Byte)).length = 20 ∧ m.pwr.mode = .training ∧ m.pwr.memoryUp = false ∧
     (∀ h, h < 4 → popcount 68 (([15, 0, 0, 0] : List (BitVec 68)).getD h 0).toNat ≤ 4) ∧
     ∃ h, h < 4 ∧ 4 < popcount 68 (([31, 0, 0, 0] : List (BitVec 68)).getD h 0).toNat) ∧
    (on .joined).pwr.mode ≠ .training := by decide +kernel

theorem witness_ThermalSampleThrottles :
    (let m := on .joined
     let temps : List (BitVec 16) := List.replicate 20 839
     let halls : List (BitVec 16) := List.replicate 4 839
     m.shaped ∧ temps.length = 20 ∧ halls.length = 4 ∧ m.pwr.input = true ∧ m.pwr.mode ≠ .off ∧ m.pwr.mode ≠ .faulted ∧
     (temps.all fun t => decide (t.toInt < 840)) ∧ (halls.all fun t => decide (t.toInt < 840)) ∧ (m.quern 0).withdrawn = false) ∧
    840 ≤ (840 : BitVec 16).toInt ∧ dark.pwr.input = false ∧ 880 ≤ (880 : BitVec 16).toInt ∧
    (let m : Module := { on .joined with halls := List.replicate 4 { hotAt := some 0 } }
     m.shaped ∧ 840 ≤ (840 : BitVec 16).toInt ∧ (m.hall 3).hotAt.isSome = true) ∧
    (on .faulted).pwr.mode = .faulted := by decide +kernel

theorem witness_PowerCapStepsClocks :
    (let m := on .joined
     m.pwr.input = true ∧ m.pwr.extended = false ∧ m.fld (pwrR 0x020) 0 12 < 2701 ∧ m.pwr.capStep < 4 ∧ m.pwr.capStep = 0 ∧
     2700 ≤ m.fld (pwrR 0x020) 0 12) ∧
    (let m : Module := { on .joined with pwr := { (on .joined).pwr with capStep := 4 } }
     m.pwr.extended = false ∧ 4 ≤ m.pwr.capStep ∧ m.pwr.capStep ≠ 0) ∧ dark.pwr.input = false := by decide +kernel

theorem witness_Ieee1500Ports :
    (let m := on .boot
     m.fld (pwrR 0x078) 0 5 = 0 ∧ 0 < 20 ∧ m.querns.length = 20 ∧ (m.quern 0).hardUsed ≤ (Config.hardLeft 0).toNat) ∧
    ((on .joined).pwr.mode ≠ .boot ∧ (on .joined).pwr.mode ≠ .draining ∧ (on .joined).pwr.mode ≠ .faulted) ∧
    20 ≤ ((on .boot).setReg (pwrR 0x078) 20).fld (pwrR 0x078) 0 5 ∧
    (let m := (on .boot).setReg (pwrR 0x028) 1
     (19 : BitVec 5).toNat = 19 ∧ m.pwr.pwrgd = true ∧ m.fld (pwrR 0x028) 0 1 = 1 ∧ m.querns.length = 20) ∧
    (on .boot).fld (pwrR 0x028) 0 1 = 0 := by
  refine ⟨⟨?_, ?_, ?_, Nat.zero_le _⟩, ?_⟩ <;> decide +kernel


/-! ### Sideband, test access port and register space -/

theorem witness_TapAndSetdasa : (on .boot).pwr.pwrgd = true ∧ (on .boot).pwr.mode = .boot ∧ (on .joined).pwr.mode ≠ .boot ∧ dark.pwr.pwrgd = false := by
  decide

theorem witness_SidebandTransfers :
    (let m := on .joined
     0x18000000000 < 2 ^ 64 ∧ m.pwr.pwrgd = true ∧ m.sidebandOk 0x18000000000 64 = true ∧ (List.replicate 512 (0 : Byte)).length = 8 * 64 ∧
     0x18000000000 + 8 * 64 ≤ 0x18080000000) ∧
    ((0 : Byte) ≠ 1 ∧ (0 : Byte) ≠ 2) ∧ (1 % 8 ≠ 0) ∧ (64 < 65) ∧
    (let m : Module := { on .joined with pwr := { (on .joined).pwr with setup := some (0x1FF00000000, 1) } }
     m.pwr.setup = some (0x1FF00000000, 1) ∧ m.sidebandOk 0x1FF00000000 1 = true) ∧
    (on .joined).pwr.setup = none ∧ dark.pwr.pwrgd = false := by decide +kernel

theorem witness_RegisterWritesFollowAccessCodes :
    let m := on .boot
    SparseWf regDefault m.regs ∧
    (∀ a ∈ [chipR 0x018, pwrR 0x020, ptnR 0 0x18, ptnR 7 0x18, halR 3 0x238, chipR 0xFF8, fabR 0x000],
      a % 8 = 0 ∧ m.reaches a = true ∧ m.regDenied 0x140 a true = none) ∧ m.pwr.mode = .boot ∧ (on .joined).pwr.mode ≠ .boot ∧
    (chipR 0x018 % 8 = 0 ∧ (m.regDenied 0x000 (asyR 0x038) true).isSome = true ∧ masterPtn 0x000 = none) := by decide +kernel

theorem witness_UnalignedRegisterAccessesAreNotPerformed :
    (let m := on .joined
     (chipR 1 % 8 ≠ 0) ∧ m.reaches 0x1FF00000000 = true ∧ m.reaches 0x1FFFFFFFFFF = true ∧ (0x140 : BitVec 12).toNat ≠ mgmtMaster ∧
     (4 ≠ 8 ∨ chipR 0 % 8 ≠ 0)) ∧
    ((job (nodeOfClass 0x20 [] [] 0) []).firing key0).map (·.e.ran) = some false := by decide +kernel

theorem witness_CacheAndBufferActions :
    let m := on .joined
    m.shaped ∧ Memory.wf m.mem ∧ SparseWf regDefault m.regs ∧
    (let m : Module := { on .joined with querns := m.querns.modify 19 fun q => { q with comb := [default] } }
     m.shaped ∧ ((m.quern 19).comb.map (·.line)).Pairwise (· ≠ ·) ∧ (∀ q ∈ m.querns, q.poisoned = []) ∧
     (∀ e ∈ (m.quern 19).comb, e.deltas.length * (typeBits e.type / 8) ≤ 128)) := by decide +kernel

theorem witness_BenchAndTableActions :
    (on .joined).runningOn 255 = none ∧
    ((job (nodeOfClass 0x20 [] [] 0) []).runningOn 0).map (·.op) = some 0x20 := by decide +kernel


/-! ### The assay block. Whether a signature or a tag is valid is an uninterpreted answer of Config; no hypothesis rests on one. -/

theorem witness_MailboxClaim :
    (let m : Module := { on .joined with asy := { claim := 1 } }
     m.asy.claim ≠ 0) ∧ (on .joined).asy.claim = 0 := by decide

theorem witness_CertificatesAndQuotes :
    (let m := mbOf .boot 1 0 0 0
     SparseWf regDefault m.regs ∧ m.pwr.input = true ∧ m.asy.down = false ∧ reads m (fun r => r.op == 1 && r.operands.isEmpty) = true) ∧
    (let m := { mbOf .faulted 1 0 0 0 with asy := { down := true } }
     SparseWf regDefault m.regs ∧ m.pwr.input = true ∧ m.asy.down = true ∧ m.mbRequest.isSome = true) ∧
    (let m := { mbOf .joined 2 0 0 34 with asy := { locked := true } }
     SparseWf regDefault m.regs ∧ m.asy.down = false ∧ m.asy.locked = true ∧ m.asy.seedErased = false ∧
     reads m (fun r => r.op == 2 && r.operands.length == 34) = true ∧ (m.asy.hallmarks.all fun x => x.length == 64) = true ∧
     m.asy.hallmarks.length = 16) ∧
    reads (mbOf .boot 2 0 0 34) (fun r => r.op == 2) = true ∧ (mbOf .boot 2 0 0 34).asy.locked = false := by decide +kernel

theorem witness_HostSessions :
    (let m := { mbOf .joined 3 0 0 6203 with asy := { locked := true } }
     SparseWf regDefault m.regs ∧ m.pwr.input = true ∧ m.asy.locked = true ∧ m.asy.down = false ∧ m.asy.seedErased = false ∧
     reads m (fun r => r.op == 3 && r.operands.length == 6203) = true) ∧
    (let m := { mbOf .joined 4 0 7 20 with asy := { locked := true } }
     SparseWf regDefault m.regs ∧ m.pwr.input = true ∧ m.asy.locked = true ∧ m.asy.down = false ∧
     reads m (fun r => r.op == 4 && r.operands.length == 20) = true) := by decide +kernel

theorem witness_ZeroisationWipesEverySecret :
    (on .joined).pwr.input = true ∧ dark.pwr.input = false ∧
    (let m := { mbOf .joined 5 0 7 21 with asy := { locked := true } }
     m.pwr.input = true ∧ m.asy.down = false ∧ m.asy.locked = true ∧
     reads m (fun r => r.op == 5 && r.operands.length == 21 && decide (fieldAt r.operands 0 1 ≤ 1)) = true) := by decide +kernel

theorem witness_KeySetAndPackageLoads :
    (let m := { mbOf .boot 6 1 0 2592 with asy := { bootstep := 5 } }
     SparseWf regDefault m.regs ∧ Memory.wf m.mem ∧ m.pwr.input = true ∧ m.asy.down = false ∧ m.asy.locked = false ∧
     m.pwr.mode = .boot ∧ m.asy.bootstep = 5 ∧ reads m (fun r => r.op == 6 && r.operands.length == 2592) = true) ∧
    (let m := { mbOf .boot 7 0 0 2593 with asy := { bootstep := 5 } }
     m.asy.down = false ∧ m.asy.locked = false ∧
     reads m (fun r => r.op == 7 && r.operands.length == 2593 && decide (fieldAt r.operands 0 1 ≤ 3)) = true) ∧
    (on .boot).asy.bootstep ≠ 5 ∧
    (let m := mbOf .boot 8 0 0 4
     m.pwr.mode = .boot ∧ m.asy.pkgFinal = false ∧
     reads m (fun r => r.op == 8 && decide (4 ≤ r.operands.length) && r.flags == 0 &&
       decide (fieldAt r.operands 0 4 + (r.operands.length - 4) ≤ 3145728)) = true) ∧
    reads (mbOf .boot 8 1 0 4) (fun r => r.op == 8 && r.flags == 1) = true ∧
    (reads (mbOf .joined 8 0 0 4) (fun r => r.op == 8) = true ∧ (mbOf .joined 8 0 0 4).pwr.mode ≠ .boot) := by decide +kernel


/-! ### Sparing, stack withdrawal and draining -/

theorem witness_BenchOutOfServiceStartsSparing :
    (let m := job (nodeOfClass 0x20 [] [] 0) []
     m.shaped ∧ m.benchOf 0 0 = some 0 ∧ ((m.hall 0).copying.all fun c => c.2.2 != 0) = true ∧ m.pwr.mode = .joined ∧
     (m.hall 0).oos.toNat.testBit 0 = false ∧ (m.bench 0).phys = 0 ∧ (m.bench 0).busy = some key0 ∧
     (m.entry key0).map (fun e => (e.haltAt, e.chainHold)) = some (none, false) ∧ m.holdsFor key0 = false ∧ (m.bench 0).dbe = 0) ∧
    (let m : Module := { on .joined with benches := List.replicate 256 { dbe := 1 } }
     m.benchOf 0 0 = some 0 ∧ (m.bench 0).dbe ≠ 0 ∧ ((m.hall 0).spare.filter fun x => x != 0).head? = some 64) ∧
    (let m : Module := { job (nodeOfClass 0x20 [] [] 0) [] with
                         halls := (List.replicate 4 {}).modify 0 fun h => { h with spare := [64, 65], entries := [{ (default : MatchEntry) with key := key0, haltAt := some 0 }] } }
     m.shaped ∧ m.benchOf 0 0 = some 0 ∧ ((m.hall 0).spare.filter fun x => x != 0).head? = some 64 ∧
     (m.entry key0).map (fun e => e.haltAt.isSome) = some true) ∧
    (let m : Module := { on .joined with halls := List.replicate 4 { spare := [], oos := 2 } }
     m.shaped ∧ m.benchOf 0 0 = some 0 ∧ ((m.hall 0).spare.filter fun x => x != 0) = [] ∧ m.benchOf 0 1 = some 1 ∧
     (m.hall 0).oos.toNat.testBit 1 = true) ∧
    ((on .boot).pwr.mode ≠ .quarantine ∧ (on .boot).pwr.mode ≠ .joined ∧ (on .boot).pwr.mode ≠ .draining ∧ (on .boot).benchOf 3 63 = some 255 ∧
     ((on .boot).bench 255).busy = none) := by decide +kernel

theorem witness_BenchCopyHandsOverNumber :
    (let m : Module := { on .joined with halls := List.replicate 4 { copying := [(0, 0, 64)] } }
     m.shaped ∧ (m.hall 0).copying = (0, 0, 64) :: [] ∧ 0 < 256 ∧ (m.hall 0).elogHead < 64 ∧
     (∀ e ∈ (m.hall 0).entries, e.bench ≠ some 0 ∧ 0 ∉ e.benches) ∧ m.tileBad = []) ∧
    ((on .joined).hall 3).copying = [] := by decide +kernel

theorem witness_StackWithdrawalAndDrainForced :
    (let m := on .joined
     m.shaped ∧ (m.quern 19).withdrawn = false ∧ (m.quern (5 * 3 + (4 : BitVec 3).toNat)).withdrawn = false ∧ (4 : BitVec 3).toNat < 5 ∧
     m.pwr.drainAt = none) ∧
    (({ on .joined with querns := List.replicate 20 { withdrawn := true } } : Module).quern 0).withdrawn = true ∧ 5 ≤ (5 : BitVec 3).toNat ∧
    ({ on .draining with pwr := { (on .draining).pwr with drainAt := some 0 } } : Module).pwr.drainAt = some 0 := by decide +kernel


/-! ### The counter: Ethernet ports, queue pairs and notices -/

theorem witness_EthernetPorts :
    (let m := on .joined
     SparseWf regDefault m.regs ∧ m.ctr.link.getD 3 false = false ∧ m.portsLive = false ∧ m.ctr.paused.getD 3 none = none) ∧
    (let m := (on .joined).setReg (ctrR 0x000) (BitVec.ofNat 64 (2 ^ 34))
     SparseWf regDefault m.regs ∧ m.ctr.link.getD 0 false ≠ true ∧ m.portsLive = true) ∧
    ({ on .joined with ctr := { paused := [some 5, none, none, none] } } : Module).ctr.paused.getD 0 none = some 5 := by decide +kernel

theorem witness_QueuePairErrors :
    (let m := withQps [qp0]
     SparseWf regDefault m.regs ∧ m.liveQp 1 = none ∧ m.liveQp 0 = some qp0 ∧ m.rwk.colls = [] ∧ qp0.lastSent = none ∧
     (∀ p, p < 8 → (m.ptn p).requests = [] ∧ (5 : Word) ∉ (m.ptn p).refetch)) ∧
    (let q : QueuePair := { qp0 with lastSent := some (.notice default 0) }
     (withQps [q]).liveQp 0 = some q ∧ q.lastSent = some (.notice default 0) ∧ q.ringMode = false ∧ q.outq = []) := by decide +kernel

theorem witness_CongestionControl : SparseWf regDefault (withQps [qp0]).regs ∧ (withQps [qp0]).liveQp 0 = some qp0 := by decide +kernel

/-- A set-up record of a serving queue pair of partition 0 without mailbox slots. -/
abbrev setup0 : SetupRecord := { (default : SetupRecord) with magic := 0x50515A44 }

theorem witness_QueuePairLife :
    (let m := withQps [qp0]
     SparseWf regDefault m.regs ∧ Memory.wf m.mem ∧ dark.ctr.link.getD 0 false = false ∧ m.ctr.link.getD 3 false = true ∧
     setupOk default = false ∧ setupOk setup0 = true ∧ (on .boot).takesReq setup0.kind.toNat = false ∧ m.takesReq setup0.kind.toNat = true ∧
     m.qpFree setup0.ptn.toNat = true ∧ m.mailboxBytes + setup0.slots.toNat * (64 + setup0.slotcap.toNat) ≤ 2 ^ 30 ∧ setup0.session = 0 ∧
     setup0.kind ≠ 2 ∧ m.ctr.qps.length < 4096) ∧
    (let r : SetupRecord := { setup0 with slots := 4096, slotcap := 1048576 }
     setupOk r = true ∧ 2 ^ 30 < (withQps []).mailboxBytes + r.slots.toNat * (64 + r.slotcap.toNat)) ∧
    (let r : SetupRecord := { setup0 with kind := 2 }
     setupOk r = true ∧ (withQps []).takesReq r.kind.toNat = true ∧ r.session = 0) ∧
    4096 ≤ (withQps (List.replicate 4096 qp0)).ctr.qps.length ∧
    (let m := withQps [qp0]
     m.qp 1 = none ∧ m.qp 0 = some qp0 ∧ m.rwk.colls = [] ∧ m.liveQp 0 = some qp0 ∧ qp0.window 1 = some 1 ∧
     qp0.slots[0]? = some { state := 2, reqid := 5 } ∧ 0 * (64 + qp0.slotcap) < 2 ^ 64 ∧ qp0.window 2 ≠ some 1 ∧ qp0.window 3 = some 3 ∧
     qp0.prod - qp0.cons < (1 : Word).setWidth 32 - qp0.cons ∧ (0 : Word).setWidth 32 - qp0.cons ≤ qp0.prod - qp0.cons ∧ qp0.window 4 ≠ some 3) := by
  decide +kernel

theorem witness_NoticesAreDelivered :
    (let m := on .quarantine
     SparseWf regDefault m.regs ∧ m.ctr.posted = [] ∧ m.inGuild = false) ∧
    (let m : Module := { on .quarantine with ctr := { posted := [(default, [])], qps := [qp0] } }
     m.ctr.posted = (default, []) :: [] ∧ m.inGuild = false ∧ m.subscribers default [] = [] ∧ m.ctr.ring.length < 4096 ∧
     (m.ctr.qps.map (·.num)).Pairwise (· ≠ ·) ∧ (∀ q ∈ m.ctr.qps, q.outq.countP isNotice + q.behind.length ≤ 64) ∧ m.qp 0 = some qp0 ∧ qp0.outq.countP isNotice = 0) ∧
    ((on .joined).inGuild = true ∧ 1 ≠ (on .joined).member ∧ (on .joined).subscribers (noticeOfBytes []) [] = [] ∧ (on .joined).ctr.ring.length < 4096) ∧
    (let q : QueuePair := { qp0 with outq := [.notice default 7] }
     (withQps [q]).qp 0 = some q ∧ q.outq.find? isNotice = some (.notice default 7)) := by decide +kernel

theorem witness_HostRdma :
    (let m := drafted (withQps [qp0])
     SparseWf regDefault m.regs ∧ Memory.wf m.mem ∧ m.liveQp 0 = some qp0 ∧ qp0.window 9 = none ∧ qp0.window 3 = some 3 ∧ qp0.window 1 = some 1 ∧
     qp0.slots.length * (64 + qp0.slotcap) < 0 + 129 ∧ 0 + 128 ≤ qp0.slots.length * (64 + qp0.slotcap) ∧ qp0.window 2 = some 2 ∧
     m.translate qp0.ptn (queueMaster qp0.ptn qp0.aclass) (2 ^ 21 - 1) 1 permRead = .ok (regionKey 0 (2 ^ 21 - 1)) 0 ∧
     m.translate qp0.ptn (queueMaster qp0.ptn qp0.aclass) 0 4096 permWrite = .ok (regionKey 0 0) 0 ∧
     m.poisonedIn (regionKey 0 (2 ^ 21 - 1)) 1 = false ∧ qp0.window 4 = some 4 ∧ m.mgmtOk 0x1FF00000000 4096 = true ∧
     (∀ w ∈ wordsOf 0x1FF00000000 4096, m.wordPoisoned w = false) ∧ m.mgmtOk 0x1FF00000004 8 = false) := by decide +kernel


/-! ### The Lightway fabric -/

theorem witness_LinksComeUp :
    ((guild3 .joined 4).fab.ports.length = 32 ∧ (guild3 .joined 4).pairLocal 0 = true ∧ (guild3 .joined 4).pairLocal 15 = false) ∧
    (let m := guild3 .training 1
     m.fld (fabR 0x000) 14 1 = 1 ∧ m.cabled 0 = true ∧ m.fab.through.getLsbD 0 = false ∧ (m.port 0).state ≤ 2 ∧ (m.port 0).state ≠ 7) ∧
    ((guild3 .training 7).port 31).state = 7 ∧ ((guild3 .training 3).port 29).state = 3 ∧ ((guild3 .training 3).port 30).state = 3 ∧
    (let m := { guild3 .training 3 with pwr := { (guild3 .training 3).pwr with memoryUp := true } }
     m.pwr.mode = .training ∧ m.pwr.memoryUp = true ∧ (m.port 0).state = 3) ∧
    ((guild3 .joined 4).port 0).state = 4 ∧ ((guild3 .joined 5).port 31).state = 5 := by decide +kernel

theorem witness_LinksFailAndGoDown :
    (let m := guild3 .joined 4
     m.fab.ports.length = 32 ∧ SparseWf regDefault m.regs ∧ (m.port 29).state = 4 ∧ m.facing 29 = some (5, 4) ∧ (m.port 29).authFails.length < 16 ∧
     m.inGuild = true ∧ (m.port 29).discards = [] ∧ 1 ≤ m.fld (fabR 0x028) 40 16) ∧
    (let m : Module := { guild3 .joined 4 with fab := { ports := List.replicate 32 { state := 4, authFails := List.replicate 16 0 }, through := 0 } }
     m.fab.ports.length = 32 ∧ m.ltime < 0 + 1000000 ∧ 16 ≤ (m.ltime :: (m.port 0).authFails).length ∧ m.facing 0 ≠ none) ∧
    ((guild3 .joined 3).port 0).state ≠ 4 ∧ ((guild3 .joined 3).port 0).state ≠ 5 ∧
    (let m := (guild3 .joined 5).setReg (fabR 0x000) (BitVec.ofNat 64 (2 * 2 ^ 6 + 2 ^ 14))
     SparseWf regDefault m.regs ∧ m.facing 0 = some (0, 0) ∧ m.fld (fabR 0x000) 12 2 = 0 / 2 ∧ (m.port 30).state = 5 ∧
     m.facing 30 = some (0, 5)) := by decide +kernel

/-- A TOKENS packet without payload from member 1 to this one, first in its flow. -/
abbrev hdr0 : PacketHeader := { (default : PacketHeader) with kind := 0x10, vcc := 1, dst := 0, src := 1, pseq := 1 }

theorem witness_PacketsInSequence :
    (let m := guild3 .joined 4
     SparseWf regDefault m.regs ∧ (m.port 0).state = 4 ∧ m.pwr.mode ≠ .quarantine ∧ m.inGuild = true ∧ hdr0.dst.toNat % 64 = m.member ∧
     hdr0.src.toNat % 64 ≠ m.member ∧ kindKnown hdr0.kind.toNat = true ∧ hdr0.kind ≠ 0x01 ∧ crc32c (packetBytes hdr0 0 ++ []) ≠ 0 ∧
     kindKnown 0 = false ∧ m.flow 2 0 = { member := 2, vc := 0 } ∧ 1 ≠ m.member) ∧
    (let h : PacketHeader := { hdr0 with dst := 2, route := BitVec.ofNat 64 (2 ^ 36) }
     h.dst.toNat % 64 ≠ (guild3 .joined 4).member ∧ h.hop.toNat < h.route.toNat / 2 ^ 36 % 16 ∧ hdr0.route.toNat / 2 ^ 36 % 16 ≤ hdr0.hop.toNat) ∧
    ((guild3 .joined 3).port 0).state ≠ 4 ∧ ((guild3 .quarantine 4).pwr.mode = .quarantine ∧ hdr0.vcc.toNat % 4 ≠ 0) ∧
    (let m := { guild3 .joined 4 with fab := { flows := [{ member := 1, vc := 3, unacked := [(7, 0, .probe)] }] } }
     (m.flow 1 3).unacked.find? (fun x => x.1 == 7) = some (7, 0, .probe) ∧ ∀ x ∈ (m.flow 1 3).unacked, x.1 ≠ 8) := by decide +kernel


/-! ### The ropewalk: collectives -/

/-- A collective of three members over one chunk of one int32 element. -/
abbrev coll0 : Coll :=
  { id := collName 0 0x103 0, key := some key0, ptn := 0, grp := 0x103, seq := 0, sig := 0x55, type := 0x13, count := 1, csize := 4, qsize := 4, rnd := 0
    elastic := true, ranks := [0, 1, 2], masks := [7], xs := [], y := { t := tens 0x13 1 1 0, ra := 0, key := 0 }, m := none }

/-- Member 1 of the guild of three, with one collective and partition 0's grants. -/
abbrev ropes (cs : List Coll) : Module :=
  let m := (guild3 .joined 4).setReg (fabR 0x000) (BitVec.ofNat 64 (1 + 2 * 2 ^ 6 + 3 * 2 ^ 12 + 2 ^ 14))
  { m with
    rwk := { colls := cs }
    ptns := m.ptns.modify 0 fun p =>
      { p with active := 1, draft := some { draft0 with part := { collgrp := 1, rgbuf := 1 }, access := draft0.access ++
        [{ tclass := 4, perm := 2, tfirst := 0, tcount := 1, mfirst := 0, mlast := 0xFFF, mkind := 0 }] }, regions := [region0] } }

/-- A CHUNK packet of member 2 for that collective: one element, last or not. -/
abbrev chunk0 (last : Bool) (crc : Nat) : List Byte :=
  leBytes 8 0x55 ++ leBytes 4 0 ++ leBytes 2 0x103 ++ leBytes 1 (if last then 4 else 0) ++ leBytes 1 0 ++ leBytes 4 0 ++ leBytes 4 4 ++ leBytes 8 crc ++
    leBytes 4 9

theorem witness_CollectiveMessages :
    (let k : ChunkSt := { num := 0, own := [1], since := 0, saidHold := true }
     let c : Coll := { coll0 with chunks := [k] }
     let m := ropes [c]
     let good := chunk0 true (crc64 (leBytes 4 9)).toNat
     SparseWf regDefault m.regs ∧ m.member = 1 ∧ m.coll c.id = some c ∧ c.chunk 0 = some k ∧
     m.allowed tcRopewalk 0 0 (remoteMaster 2 0) permWrite = true ∧
     (m.rwk.colls.filter fun x => x.ptn == 0 && x.grp == fieldAt good 0x0C 2).find? (fun x => x.sig == BitVec.ofNat 64 (fieldAt good 0 8)) = some c ∧
     fieldAt good 8 4 = 0 ∧ fieldAt good 0x0F 1 = c.rfm ∧ 2 ∈ c.ranks ∧ c.ended ≠ some stAborted ∧
     fieldAt (chunk0 false 0) 0x0E 1 / 4 % 2 = 0 ∧ fieldAt good 0x0E 1 / 4 % 2 = 1 ∧ (slice good 0x20 4).length = 4 * c.elems 0 ∧
     (crc64 (slice good 0x20 4)).toNat = fieldAt good 0x18 8 ∧ fieldAt good 0x0E 1 / 2 % 2 = 0 ∧ kidsIn (c.tree 0) 1 = [0, 2] ∧ k.saidHold = true ∧
     c.ended = none ∧ k.root = none ∧ k.total = none ∧ k.upRfm ≠ some c.rfm ∧ k.kids = [] ∧
     (crc64 (slice (chunk0 true 0) 0x20 4)).toNat ≠ fieldAt (chunk0 true 0) 0x18 8 ∧ k.nacked = false ∧ 2 ≠ m.member ∧ m.isJoined 2 = true ∧
     (∀ x ∈ m.rwk.colls, x.ptn ≠ 1 ∨ x.grp ≠ fieldAt good 0x0C 2) ∧ m.coll (collName 0 0x103 1) = none ∧ k.sent = [] ∧ k.holds = [] ∧
     (m.groupOf c.grp).isSome = true ∧ coordinator c.live 2 = some 0) ∧
    (let k : ChunkSt := { num := 0, own := [1], since := 0, holds := [2], sent := [(1, 0, [1])] }
     2 ∈ k.holds ∧ k.sent.reverse.find? (fun x => x.1 == 1) = some (1, 0, [1])) := by decide +kernel

/-- A list group of three ranks with level C on member 1, its peer guild behind queue pair 0. -/
abbrev levelCGroup : WordMap :=
  [(0, BitVec.ofNat 64 (5 * 2 ^ 8 + 3 * 2 ^ 16 + 2 * 2 ^ 24)), (1, 7), (2, BitVec.ofNat 64 0xFFFFFFFFFF020100),
   (10, BitVec.ofNat 64 1), (11, BitVec.ofNat 64 0x0000FFFF)]

theorem witness_CollectiveReformsAndAborts :
    (let m := ropes [coll0]
     SparseWf regDefault m.regs ∧ (0x103 : BitVec 16).toNat < 512 ∧ collName 0 0x103 0 = coll0.id ∧ m.coll coll0.id = some coll0 ∧ coll0.ended = none ∧
     coll0.key.isSome = true ∧ m.coll (collName 0 0x103 1) = none ∧ (assocGet (0x103 * 8) m.rwk.seqs).getD 0 ≤ 1 ∧ (0 : Byte).toNat ≤ coll0.rfm ∧
     coll0.rfm < (1 : Byte).toNat ∧ (5 : Word).getLsbD m.member = false ∧ m.rwk.reforms = [] ∧ m.groupOf (nameGrp 0) = none ∧
     (m.groupOf 0x103).map (·.ranks) = some [0, 1, 2] ∧ coordinator [0, 1, 2] 2 ≠ some m.member ∧ coordinator [0, 1, 2] 0 = some m.member ∧
     ((m.groupOf 0x103).map fun g => (g.levelC, g.lcmember)) = some (false, 0)) ∧
    ({ coll0 with ended := some stAborted }.ended ≠ none) ∧
    (let m := { ropes [] with rwk := { seqs := [(0x103 * 8, 1)] } }
     m.coll coll0.id = none ∧ 0 < (assocGet (0x103 * 8) m.rwk.seqs).getD 0) ∧
    (let m := { ropes [] with rwk := { inForce := levelCGroup }, ctr := { qps := [qp0] } }
     let m := { m with ptns := m.ptns.modify 0 fun p => { p with draft := some { draft0 with access := [{ tclass := 3, perm := 1, tfirst := 0, tcount := 1, mfirst := 0, mlast := 0xFFF, mkind := 0 }] } } }
     ((m.groupOf (nameGrp 0)).map fun g => (g.levelC, g.lcmember, g.peers)) = some (true, m.member, [(1, 0)]) ∧ m.qp 0 = some qp0 ∧
     m.allowed tcQueue qp0.target qp0.ptn ropewalkMaster permRead = true ∧ m.coll 0 = none) := by decide +kernel

/-- An ALLREDUCE node over the axis group of the X axis, and its tensors. -/
abbrev sum0 (e : MatchEntry) : Module :=
  jobIn (ropes []) (nodeOfClass 0x50 [0] [1] (3 * 2 ^ 11)) [tens 0x13 16 1 0, tens 0x13 16 1 4096] e

theorem witness_CollectiveLaunch :
    (let m := sum0 { entry0 with state := .ready, bench := none, launched := false }
     let f := (m.storeFiring key0 0x50).getD default
     let l := m.launchOf f
     SparseWf regDefault m.regs ∧ m.storeFiring key0 0x50 = some f ∧ m.groupWaits (f.n.grp (m.draft f.ptn)) = false ∧ m.barred f.e = false ∧
     f.operands = .inr stOk ∧ ((allreduceRules m.extents (f.env (m.draft f.ptn))).all (·.1)) = true ∧
     (l.masters.all fun M => m.allowed tcRopewalk 0 l.ptn M permWrite) = true ∧
     (match m.collTensors l with | .ok _ => true | .error _ => false) = true ∧ (m.groupOf l.grp).map (·.ranks) = some [0, 1, 2] ∧ m.member ∈ [0, 1, 2] ∧
     (([0, 1, 2].map fun k => 2 ^ k).sum).testBit m.member = true ∧ l.reexec = false ∧ m.rwk.reforms = [] ∧ m.rwk.aborts = []) ∧
    ((sum0 entry0).storeFiring key0 0x50).isNone = true ∧
    (let e : MatchEntry := { entry0 with state := .ready, tokens := [(0, { (default : Token) with status := 0x10 }, .readyReserved)] }
     ((sum0 e).storeFiring key0 0x50).map (·.operands) = some (.inl 0x10)) ∧
    (let c := { coll0 with reserved := true }
     (ropes []).liveColl coll0.id = none ∧ (ropes [coll0]).liveColl coll0.id = some coll0 ∧ coll0.reserved = false ∧
     (ropes [c]).liveColl c.id = some c ∧ c.chunks.length < chunkCount c.count c.csize ∧ (ropes [c]).collLostPage c = none ∧
     (ropes [c]).collAbsent c = none ∧ ((ropes [c]).entry key0).isNone = true) ∧
    (let q : QueuePair := { qp0 with kind := 1, gkind := 1, gsel := 3 }
     let m := { ropes [] with ctr := { qps := [q] } }
     let d : FallbackDesc := { (default : FallbackDesc) with reqid := 1, type := 0x13, gkind := 1, gsel := 3, count := 16, yaddr := 4096 }
     SparseWf regDefault m.regs ∧ m.qp 1 = none ∧ m.qp 0 = some q ∧ q.kind = 1 ∧ q.err = false ∧ qp0.kind ≠ 1 ∧ m.pwr.mode = .joined ∧
     m.fallbackOk q { d with reqid := 0 } = false ∧ m.fallbackOk q d = true ∧ m.tallyOf 0 d.reqid = none ∧ (m.ptn 0).blocked = [] ∧
     (m.ptn 0).tally.length < 1048576 ∧ m.guild.twinCopy = false ∧ m.ctr.stagedBytes ≤ 2 ^ 30 ∧ m.rwk.fallbacks = [] ∧
     m.groupWaits (fallbackGrp d) = false ∧ (m.groupOf (fallbackGrp d)).map (·.ranks) = some [0, 1, 2] ∧
     m.allowed tcRopewalk 0 0 (queueMaster 0 q.aclass) permWrite = true ∧
     (match m.collTensor 0 (linear 0x13 16, 0) permRead, m.collTensor 0 (linear 0x13 16, 4096) permWrite with | .ok _, .ok _ => true | _, _ => false) = true) ∧
    (let q : QueuePair := { qp0 with kind := 1, gkind := 0, gsel := 0 }
     let t : WordMap := [(0, BitVec.ofNat 64 (1 * 2 ^ 8 + 3 * 2 ^ 16)), (1, 7), (2, BitVec.ofNat 64 0xFFFFFFFFFF020100)]
     let m := { ropes [] with ctr := { qps := [q] }, guild := { agr := some { epoch := 1, agr := .group t, since := 0, drainUs := 0 } } }
     m.groupWaits 0 = true) := by decide +kernel


/-! ### Matching, dispatch, fused groups and streams -/

/-- A VECTOR node with two dynamic ports. -/
abbrev dyn2 : Node := { nodeOfClass 0x30 [0xFFFF, 0xFFFF] [0] 0 with dyn := 3 }

/-- That token on its way from bench 5. -/
abbrev flight0 (t : Token) (since : Option Nat) : Flight := { tok := t, src := .bench 5, since := since }

/-- A hall whose general slots and ready entries a second graph has all reserved. -/
abbrev full : Module :=
  let m := shop [dyn2] [] []
  { m with
    insts := m.insts ++ m.insts.map fun i => { i with num := 1, handle := 1 }
    ptns := m.ptns.modify 0 fun p => { p with graphs := p.graphs.flatMap fun g =>
      [{ g with slotq := 0, readyq := 0 }, { g with handle := 1, slotq := 61440, readyq := 16384 }] } }

theorem witness_TokenMatching :
    (let t : Token := { tok0 1 with inst := 1 }
     let m := { shop [dyn2] [] [] with tokens := [flight0 (tok0 0) none, flight0 (tok0 1) none, flight0 t none] }
     let n := dyn2
     SparseWf regDefault m.regs ∧ m.halls.length = 4 ∧ m.inst 1 = none ∧ m.inst 0 = some m.insts.head! ∧ (m.graph 0 0).isSome = true ∧
     m.arrival (tok0 0) = some (flight0 (tok0 0) none, 0) ∧ m.arrival (tok0 1) = none ∧ m.undelivered (tok0 1) = none ∧
     ({ m with tokens := [flight0 t none] } : Module).arrival t = some (flight0 t none, 0) ∧
     (m.draft 0).nodeHall n = 0 ∧ (tokPort (tok0 1) < n.nports ∧ n.dyn.testBit (tokPort (tok0 1)) = true) ∧ tokPort (tok0 2) = n.nports ∧
     (m.hall 0).filled key0 1 = false ∧ (m.hall 0).early (tok0 1) 4 = false ∧ m.entry key0 = none ∧ 0 + 1 ≠ popcount 8 n.dyn ∧
     ((m.graph 0 0).bind fun g => m.slotFor 0 m.insts.head! g) = some .slotReserved) := by decide +kernel

theorem witness_TokenMatching_held :
    (let w : Flow := { member := 1, vc := 1, unacked := [(7, 0, .tokens 0 [tok0 1])] }
     let m := { shop [dyn2] [] [] with fab := { flows := [w] } }
     m.arrival (tok0 1) = none ∧ m.undelivered (tok0 1) = some (w, 7, 0, [tok0 1])) ∧
    (let e : MatchEntry := { entry0 with state := .filling, tokens := [(0, tok0 0, .slotReserved)] }
     let m := { shop [dyn2] [] [e] with tokens := [flight0 (tok0 1) none] }
     m.arrival (tok0 1) = some (flight0 (tok0 1) none, 0) ∧ (m.hall 0).early { tok0 1 with gen := 9 } 4 = true ∧
     (m.hall 0).filled key0 0 = true ∧ ((m.hall 0).entries.find? fun e => e.key == key0) = m.entry key0 ∧ e.tokens.length + 1 = popcount 8 dyn2.dyn ∧
     ((m.graph 0 0).bind fun g => m.readyFor 0 m.insts.head! g) = some .readyReserved ∧ (m.hall 0).tokensAt .completion none < 4096) := by decide +kernel

theorem witness_TokenMatching_stall :
    (let m := full
     (m.graph 0 0).map (fun g => (m.slotFor 0 m.insts.head! g, m.readyFor 0 m.insts.head! g)) = some (none, none)) ∧
    ({ m := { shop [dyn2] [] [] with insts := [{ (shop [dyn2] [] []).insts.head! with cancelled := true }] }, pending := [] : State }.m.insts.all (·.cancelled)) = true ∧
    ((shop [dyn2] [] []).entry key0).bind (·.holdTill) = none ∧
    (((shop [dyn2] [] [{ entry0 with holdTill := some 9 }]).entry key0).bind (·.holdTill)) = some 9 ∧
    (let m := { shop [dyn2] [] [] with tokens := [flight0 (tok0 0) (some 5)] }
     m.heldSince 0 = some 5 ∧ m.arrival (tok0 0) = some (flight0 (tok0 0) (some 5), 0) ∧ (m.insts.all fun i => !i.stallSaid) = true) ∧
    (shop [dyn2] [] []).heldSince 0 = none := by decide +kernel

/-- A RELAY, JOIN, STEER, FUSE or BARRIER node that is READY with tokens on ports 0 and 1. -/
abbrev store1 (op param : Nat) : Module :=
  shop [{ nodeOfClass op [0xFFFF, 0xFFFF] [] param with dyn := 3 }] []
    [{ ready0 0 with tokens := [(0, tok0 0, .readyReserved), (1, { tok0 1 with value := 1 }, .readyReserved)] }]

theorem witness_FiringsDispatchAndEnd :
    (let m := shop [dyn2] [] [ready0 0]
     SparseWf regDefault m.regs ∧ m.halls.length = 4 ∧ m.benches.length = 256 ∧ m.benchIdle 0 = true ∧ m.chosen 0 0 = some (ready0 0, [0]) ∧
     (m.firing (ready0 0).key).isSome = true ∧ m.chosen 3 255 = none ∧ (on .boot).benchIdle 0 = false) ∧
    (∀ x ∈ [(0x01, 0), (0x02, 0), (0x03, 0), (0x40, 1), (0x40, 0), (0x41, 0)],
      ((store1 x.1 x.2).storeFiring key0 x.1).map (fun f => (f.e.token 0).isSome) = some true) ∧
    ((shop [dyn2] [] [ready0 0]).storeFiring key0 0x01).isNone = true ∧ ((on .joined).firing key0).isNone = true ∧
    (((store1 0x41 0).storeFiring key0 0x41).map fun f => decide (f.e.hall < 4)) = some true ∧
    (let b : BarrierSt := { key := key0, ptn := 0, hall := 0, hold := false, scopePtn := false, waits := [{ key0 with inst := 7 }] }
     let m := shop [dyn2] [] [entry0]
     let n : Module := { m with halls := m.halls.modify 0 fun h => { h with barriers := [b] } }
     (n.hall 0).barriers.find? (fun b => b.key == key0) = some b ∧ n.inst 7 = none ∧ (m.hall 0).barriers = [] ∧
     (n.inst 0).map (·.cancelled) = some false) ∧
    (let m := shop [dyn2] [] [{ entry0 with ran := true }]
     (m.firing key0).map (fun f => (f.e.state, f.e.ran, f.e.haltAt, m.tilesLeft f)) = some (.executing, true, none, false)) ∧
    ((shop [dyn2] [] [entry0]).firing key0).map (·.e.ran) = some false := by decide +kernel

theorem witness_FiringsDispatchAndEnd_held :
    let d : Dest := { node := 1, port := 0, sel := 2, member := 0, remote := false, valid := true }
    let n0 : Node := { nodeOfClass 0x02 [0xFFFF, 0xFFFF] [] 0 with dyn := 3, dest := [d] }
    let m : Module := { full with
      ptns := full.ptns.modify 0 fun p => { p with graphs := p.graphs.map fun g => { g with nodes := [n0, { dyn2 with index := 1 }] } }
      halls := full.halls.modify 0 fun h => { h with
        entries := [{ ready0 0 with tokens := [(0, tok0 0, .readyGeneral), (1, tok0 1, .readyGeneral)] }] } }
    (m.storeFiring key0 0x02).map (fun f => (localDests m.member f.n.dest).map fun d => decide (m.fate (f.tokenTo m.member d 0 2 (storeStatus f.e) 0) = .hold 0)) =
      some [true] := by decide +kernel

/-- Two VECTOR nodes fused over pipe 1. -/
abbrev fused0 (es : List MatchEntry) : Module :=
  shop [nodeOfClass 0x30 [0] [1] 0, { nodeOfClass 0x30 [1] [2] 0 with index := 1 }, { nodeOfClass 0x40 [1] [] (1 + 2 ^ 8 + 2 ^ 32) with index := 2 }]
    [tens 0x00 32 1 0, tens 0x00 32 1 4096, tens 0x00 32 1 8192] es
/-- A hand-over between its two nodes. -/
abbrev link0 : GroupSt := { prod := key0, cons := { key0 with node := 1 }, pipe := 1, credits := 1, buffer := 2, tiles := 2, wb := false }
/-- A MATMUL node over chain 1. -/
abbrev chain0 (e : MatchEntry) : Module := shop [nodeOfClass 0x20 [] [] (2 ^ 16 + 2 ^ 17)] [] [e]

theorem witness_FusedCommands :
    (let m := fused0 [ready0 0, ready0 1]
     SparseWf regDefault m.regs ∧ m.halls.length = 4 ∧ m.benches.length = 256 ∧
     ((m.fusedGroup key0).map fun x => (x.1.map (·.2), x.2.1.length)) = some ([2, 3], 1) ∧
     ((m.fusedGroup key0).map fun x => x.1.all fun f => m.idleFor (x.1.map (·.1.key)) f.2 && !m.barred f.1.e) = some true ∧
     ((m.fusedGroup key0).map fun x => m.teamMay key0 0 (x.1.any (·.1.e.chainHold)) (x.1.map (·.2))) = some true ∧
     ([2, 3] : List Nat).Pairwise (· ≠ ·) ∧ m.groups = []) ∧
    (let m := { fused0 [ready0 0, ready0 1] with benches := List.replicate 256 { phys := 0, busy := some { key0 with inst := 9 } } }
     ((m.fusedGroup key0).map fun x => x.1.any fun f => !m.idleFor (x.1.map (·.1.key)) f.2) = some true ∧
     m.chainOf key0 = none ∧ m.waiting key0 = some ([2, 3], 0)) ∧
    (let m := { fused0 [{ entry0 with ran := true }, { entry0 with key := { key0 with node := 1 } }] with groups := [link0] }
     m.groups.find? (fun g => g.cons == { key0 with node := 1 }) = some link0 ∧ link0.sentTiles < link0.tiles ∧ 0 < link0.credits ∧
     m.passing link0 = true ∧ 1 ≠ link0.sentTiles) ∧
    ((shop [dyn2] [] [ready0 0]).fusedGroup key0).isNone = true ∧ ((shop [dyn2] [] [ready0 0]).chainOf key0).isNone = true ∧
    (let m := { chain0 (ready0 0) with benches := List.replicate 256 { phys := 0, busy := some { key0 with inst := 9 } } }
     (m.chainOf key0).map (fun x => (x.1.e.state, x.2)) = some (.ready, [0, 1]) ∧ m.waiting key0 = some ([0, 1], 0) ∧ (m.bench 1).busy ≠ none ∧
     ((chain0 (ready0 0)).bench 0).busy = none ∧ ((chain0 (ready0 0)).bench 1).busy = none) ∧
    (let s := shop [nodeOfClass 0x30 [] [] 0, { nodeOfClass 0x30 [] [] 0 with index := 1 }] [] [entry0, ready0 1]
     let m := { s with benches := s.benches.modify 0 fun b => { b with busy := some key0 } }
     (m.bench 0).busy = some key0 ∧ m.chosen 0 0 = some (ready0 1, [0]) ∧ (m.firing { key0 with node := 1 }).isSome = true ∧
     m.fld (halR 0 0x200) 48 1 = 1 ∧ (m.bench 0).next = none ∧ (m.bench 0).heldFor = none ∧ m.wantedBy 0 0 = false ∧
     m.remaining 0 0 key0 < m.fld (halR 0 0x200) 0 16 ∧ m.pwr.mode = .joined ∧
     ((m.firing { key0 with node := 1 }).map fun f => decide ((m.hall 0).areaUsed 0 + ((m.asks f [0] [] 0).1.held.map (·.area)).sum ≤ 0x100000)) = some true) := by
  decide +kernel

/-- A read stream of 4 KiB from region address 0. -/
abbrev ctx0 (state : Nat) : Context :=
  { idx := 0, state := state, kind := 0, ptn := 0, status := 0, key := key0, bench := 0, port := 0, ring := 4, src := 0, dst := 0x4F8000, total := 4096 }
/-- A firing with one operand, a result and that stream. -/
abbrev stream0 (c : Context) (e : MatchEntry) : Module :=
  let m := shop [nodeOfClass 0x30 [0] [1] 0] [tens 0x13 1024 1 0, tens 0x13 1024 1 8192] [e]
  { m with halls := m.halls.modify 0 fun h => { h with contexts := [c] } }

theorem witness_StreamEngine :
    (let m := on .joined
     SparseWf regDefault m.regs ∧ Memory.wf m.mem ∧ m.halls.length = 4 ∧ (m.hall 3).admq = [] ∧ (m.hall 3).ctx 0 = none ∧ (m.regionAt 7 0).isNone = true ∧
     (m.storeFiring key0 0x40).isNone = true ∧ (m.copying key0).isNone = true) ∧
    (let a : Admission := { keys := [key0], ptn := 0, rings := [ctx0 1], held := [{ key := key0, bench := 0, light := 0, area := 2048 }] }
     ({} : Hall).fits a = true ∧ ({} : Hall).fits { a with held := [{ key := key0, bench := 0, light := 1025, area := 0 }] } = false) ∧
    (let m := stream0 (ctx0 1) entry0
     (m.hall 0).ctx 0 = some (ctx0 1) ∧ (m.hall 0).served (ctx0 1) = true ∧ (ctx0 1).done < (ctx0 1).total ∧ (ctx0 1).kind ≠ 2 ∧
     ((m.firing key0).bind fun f => f.allTensors.find? fun t => t.1 == 0).isSome = true ∧
     ((m.firing key0).map fun f => ((f.allTensors.find? fun t => t.1 == 0).map fun t =>
       m.streamRanges f t.2 ((f.streamPart 0 t.1 (m.stored f t.2)).1 + 0) 2048)) = some (some [(0, 2048)]) ∧
     m.pageSpan 0 0 = (0, 2 ^ 21) ∧ m.translate 0 (streamMaster 0) 0 2048 permRead = .ok (regionKey 0 0) 0 ∧ (ctx0 1).slackSaid = false ∧
     m.tableAt 0 0 = false ∧ m.poisonedIn (regionKey 0 0) 2048 = false ∧
     m.querns.length = 20 ∧ m.residencyCode 0 0 = 0 ∧ m.regionAt 0 0 = some region0) := by decide +kernel

theorem witness_StreamEngine_access :
    let m := stream0 (ctx0 1) entry0
    m.stackOfKey (regionKey 0 0) < 20 ∧ m.canAccess 0 (regionKey 0 0) 2048 0 false false = true := by
  intro m
  have s := stack_page0 (m := m) (by decide +kernel)
  unfold Module.canAccess Module.missRuns
  rw [s]
  decide +kernel

theorem witness_StreamEngine_busy :
    let m := stream0 (ctx0 1) entry0
    let n : Module := { m with halls := m.halls.map fun h => { h with fills := List.replicate 4096 { line := 9, ptn := 0, install := true } } }
    n.canAccess 0 (regionKey 0 0) 2048 0 false false = false := by
  intro m n
  have s := stack_page0 (m := n) (by decide +kernel)
  unfold Module.canAccess Module.missRuns
  rw [s]
  decide +kernel

theorem witness_StreamEngine_halts :
    (let m := stream0 { ctx0 1 with total := 0 } entry0
     (m.hall 0).served { ctx0 1 with total := 0 } = true ∧ (ctx0 1).total - 4096 = 0) ∧
    (let m := stream0 (ctx0 1) entry0
     let n := { m with ptns := m.ptns.modify 0 fun p => { p with regions := [{ region0 with resid := [(0, .evicted)] }] } }
     n.translate 0 (streamMaster 0) 0 2048 permRead = .halt 0 ∧ n.residencyCode 0 0 ≠ 0) ∧
    (let m := stream0 (ctx0 1) entry0
     let n := { m with ptns := m.ptns.modify 0 fun p => { p with regions := [{ region0 with resid := [(0, .lost)] }] } }
     (match n.translate 0 (streamMaster 0) 0 2048 permRead with
      | .fault st _ => !resultValid st
      | _ => false) = true) ∧
    (let m := stream0 (ctx0 2) { entry0 with haltAt := some 0 }
     (m.entry key0).bind (·.haltAt) = some 0 ∧ (ctx0 2).state = 2 ∧ (ctx0 2).longSaid = false ∧ m.fld (halR 0 0x200) 49 10 ≠ 0) ∧
    (let m := shop [nodeOfClass 0x40 [0] [1] 0] [tens 0x13 64 1 0, tens 0x13 64 1 4096] [entry0]
     let m := { m with
       benches := m.benches.modify 0 fun b => { b with busy := some key0 }
       halls := m.halls.modify 0 fun h => { h with held := [{ key := key0, bench := 0, light := 1, area := 2048 }] } }
     (∃ x ∈ (m.hall 0).held, x.key = key0) ∧ (m.storeFiring key0 0x40).isNone = true ∧
     (m.copying key0).map (fun x => (x.2.1.dim0 * x.2.1.rows * x.2.1.bits, x.2.1.layout, x.2.1.pitch, x.2.2.pitch, x.2.1.isMx)) = some (8 * 256, 0, 0, 0, false) ∧
     m.groups = [] ∧ (m.hall 0).contexts = [] ∧ (m.querns.all fun q => q.comb.isEmpty) = true ∧
     ((m.copying key0).map fun x => match m.placeRun x.1 0 x.2.1 0 (8 * 256) permRead, m.placeRun x.1 8 x.2.2 0 (8 * 256) permWrite with
       | .ok a, .ok b => decide (a.key + 256 ≤ b.key)
       | _, _ => false) = some true) := by decide +kernel


/-! ### The channel path and the retentions -/

theorem witness_ChannelPath :
    (let m := drafted (on .joined)
     m.shaped ∧ SparseWf regDefault m.regs ∧ Memory.wf m.mem ∧ 0 / 2048 = (0 + 2048 - 1) / 2048 ∧ 2047 / 2048 ≠ (2047 + 2 - 1) / 2048 ∧
     m.translate 0 0x120 0 2048 permWrite = .ok (regionKey 0 0) 0 ∧ m.translate 0 0x120 0 2048 permRead = .ok (regionKey 0 0) 0 ∧
     m.translate 1 0x120 0 1 permRead = .fault stFaultAddress 1 ∧
     (∀ f ∈ (m.hall 0).fills, f.has 0 = false)) ∧
    (let m := drafted (on .joined)
     let n := { m with ptns := m.ptns.modify 0 fun p => { p with regions := [{ region0 with resid := [(0, .evicted)] }] } }
     n.translate 0 0x120 0 1 permRead = .halt 0) ∧
    (let f : Fill := { line := 0, count := 2, ptn := 0, install := true }
     let m := { drafted (on .joined) with halls := List.replicate 4 { fills := [f] } }
     (m.hall 0).fills.find? (fun f => f.has 1) = some f ∧ f.install = true ∧ 1 + 1 = f.line + f.count ∧ 1 ∉ f.snooped ∧ m.heldAcc = [] ∧
     m.fld (halR 0 0x180) 0 1 = 1 ∧ m.wayMask (halR 0 0x188) f.ptn ≠ 0 ∧ ({ f with install := false } : Fill).install = false) ∧
    (let m := { on .joined with querns := List.replicate 20 { trained := true } }
     m.shaped ∧ m.fld (qrnR 19 0x100) 0 1 = 1 ∧ (m.quern 19).trained = true ∧ (m.quern 19).withdrawn = false ∧
     m.dramKey (19 * 2 ^ 36) / 32 ∉ (m.quern 19).poisoned ∧ (m.quern 19).ueScrub < 15) ∧
    ((on .joined).quern 0).trained = false := by decide +kernel

/-- In a module with empty lists an access can be made, whatever it is. -/
theorem witness_canAccess : (drafted (on .joined)).canAccess 0 (regionKey 0 0) 2048 0 false true = true ∧
    (drafted (on .joined)).canAccess 0 (regionKey 0 0) 2048 0 false false = true := by
  have s := stack_page0 (m := drafted (on .joined)) (by decide +kernel)
  unfold Module.canAccess Module.missRuns
  rw [s]
  decide +kernel

/-- With every miss register of its hall in use a read that misses can not be made. -/
theorem witness_missRegistersFull :
    let m : Module := { drafted (on .joined) with halls := List.replicate 4 { fills := List.replicate 4096 { line := 9, ptn := 0, install := true } } }
    m.canAccess 0 (regionKey 0 0) 2048 0 false false = false := by
  intro m
  have s := stack_page0 (m := m) (by decide +kernel)
  unfold Module.canAccess Module.missRuns
  rw [s]
  decide +kernel

/-- A tally entry, in flight or done. -/
abbrev tally0 (done : Bool) : TallyEntry :=
  { reqid := 5, opc := 0x20, digest := [], budget := 0, elapsed := 0, arrival := 0, done := done, retained := done }

theorem witness_RecordsAreKeptTheirTime :
    ((on .joined).ptns.length = 8 ∧ (on .joined).tallyOf 7 5 = none ∧ (on .joined).qp 0 = none ∧ (on .joined).table 0 = none ∧
     (∀ r ∈ ((on .joined).ptn 0).receipts, r.tag ≠ default)) ∧
    (let m : Module := { on .joined with ptns := List.replicate 8 { tally := [tally0 true], receipts := [{ tag := default, table := 0, at_ := 0 }] } }
     m.ptns.length = 8 ∧ (m.ptn 0).receipts.find? (fun r => r.tag == default) = some { tag := default, table := 0, at_ := 0 } ∧
     m.tallyOf 0 5 = some (tally0 true)) ∧ (tally0 false).done = false ∧ (tally0 false).retained = false ∧
    ((withQps [qp0]).qp 0 = some qp0 ∧ qp0.slots[1]? = none ∧ qp0.slots[0]? = some { state := 2, reqid := 5 } ∧ (1 : Nat) ≠ 2) ∧
    (let e : Edition := { num := 1, state := .retiring, fresh := false, primary := none, twin := none }
     let x : Table := { ptn := 0, place := { (default : PlacementRec) with table := 5 }, highest := 1, flip := 0, editions := [e] }
     let m : Module := { on .joined with tables := [x] }
     m.table 5 = some x ∧ x.editions.find? (fun e => e.state == .retiring) = some e ∧ e.slowSaid = false ∧ m.isWarden = true) ∧
    (let m : Module := { on .joined with guild := { warden := 1 } }
     m.isWarden = false) := by decide +kernel


/-! ### The querns -/

/-- Table 5 of sixteen rows of 32 fp32 elements, wholly on this member, in region 0. -/
abbrev place5 : PlacementRec :=
  { table := 5, type := 0x01, mode := 0, wh := 0, twin := false, rows := 16, dim := 32, rgn := 0, shards := 1, readers := 0, adders := 0 }
abbrev table5 : Table :=
  { ptn := 0, place := place5, highest := 1, flip := 0, editions := [{ num := 0, state := .current, fresh := false, primary := some [0], twin := none }] }
/-- A module with that table, every quern open to partition 0's masters. -/
abbrev tabled (m : Module) : Module :=
  let a (c perm last : Nat) : AccessRec := { tclass := c, perm := perm, tfirst := 0, tcount := 20, mfirst := 0, mlast := last, mkind := 0 }
  { m with
    tables := [table5]
    guild := { joined := 1 }
    ptns := m.ptns.modify 0 fun p => { p with active := 1, draft := some { draft1 with placements := [place5], access := [a 1 7 0x7FF, a 2 5 0xFFF] }, regions := [region0] } }

/-- A GATHER_REQ of one bag with one entry of table 5, row 3, without weights. -/
abbrev req0 : List Byte :=
  leBytes 4 5 ++ leBytes 4 0 ++ leBytes 4 0 ++ leBytes 2 0 ++ leBytes 2 0 ++ leBytes 1 0 ++ leBytes 1 0 ++ leBytes 2 1 ++ leBytes 12 0 ++
    leBytes 4 0 ++ leBytes 2 1 ++ leBytes 2 0 ++ leBytes 8 3
/-- A quern's entry of that row. -/
abbrev qentry0 : QEntry :=
  { key := key0, src := 0, ptn := 0, bag := 0, slot := 0, index := 3, weight := 0x3F800000, table := 5, edition := 0, hint := 0, none_ := false }
abbrev seg0 (isOpen : Bool) : Segment :=
  { id := 0, key := key0, src := 0, ptn := 0, bag := 0, isOpen := isOpen, entries := [qentry0], table := 5, none_ := false }

theorem witness_QuernReads :
    (let m := tabled (on .joined)
     m.shaped ∧ SparseWf regDefault m.regs ∧
     requestEntries req0 ((fieldAt req0 0x11 1).testBit 0) (fieldAt req0 0x12 2) 0x20 = [(0, 3, 0x3F800000)] ∧ m.table (fieldAt req0 0 4) = some table5 ∧
     m.allowed tcQuern (place5.rowAt 3).stack 0 (remoteMaster 1 0) permRead = true ∧ (m.quern 19).segs = [] ∧ (m.quern 19).inq = []) ∧
    (let m := { tabled (on .joined) with querns := List.replicate 20 { segs := [seg0 false] } }
     (m.quern 0).segs.find? (fun g => !g.isOpen) = some (seg0 false) ∧ ((m.quern 0).segs.map (·.id)).Pairwise (· ≠ ·)) ∧
    (let m := { tabled (on .joined) with querns := List.replicate 20 { segs := [seg0 true] } }
     (m.quern 0).segs.find? (fun g => g.isOpen && !g.entries.isEmpty) = some (seg0 true) ∧ (seg0 true).entries = qentry0 :: [] ∧ (seg0 true).rows = [] ∧
     (match m.findRow 5 0 3 with
      | .found _ => true
      | _ => false) = true ∧ (m.quern 0).win = [] ∧ (m.quern 0).current 9 = none) ∧
    (let w : WinLine := { id := 0, seg := none, line := 9, fetched := false, data := [], hint := 0, ptn := 0, fromHrc := true }
     let m := { tabled (on .joined) with querns := List.replicate 20 { win := [w] } }
     (m.quern 0).win.find? (fun w => w.line == 9 && !w.fetched) = some w ∧ (m.quern 0).withdrawn = false ∧ w.fromHrc = true) := by decide +kernel

/-- A GATHER firing of one bag of entries of table 5, the list with or without an offsets array (which reads zero). -/
abbrev gather0 (aux : Nat) (oobx : Bool) : Module :=
  let n := nodeOfClass 0x10 [0, 1] [2, 0xFFFF] 0
  let ts : List Tensor := [{ tens 0x13 1 1 0 with layout := 6, aux := aux, oobx := oobx }, { tens 0x01 0 0 5 with space := 3, dim2 := 0 }, tens 0x01 32 1 8192]
  let m := tabled (shop [n] ts [entry0])
  let g : Graph := { handle := 0, maxgen := 4, exits := 1, arena := 0, slotq := 4, readyq := 4, tag := 0, nodes := [n], tensors := ts, image := [] }
  { m with ptns := m.ptns.modify 0 (fun p => { p with graphs := [g] }), benches := m.benches.modify 0 fun b => { b with busy := some key0 } }

/-- What the hypotheses say of a gather before its entries are looked at. -/
abbrev gatherReady (m : Module) (ok : Bool) : Bool :=
  match m.running key0 0x10 with
  | none => false
  | some f =>
    (m.tableRules f.ptn (f.env (m.draft f.ptn)) ++ gatherRules m.places (f.env (m.draft f.ptn))).all (·.1) && m.gathers.isEmpty &&
    match f.tensor 0, f.tensor 1, m.placeRes f 0 with
    | some lt, some tt, .ok _ => m.table tt.tableId == some table5 && match m.readBags f 0 lt with
      | .ok b => b.ok m.mem == ok && (!ok || ((m.quernDenied f place5 permRead).isNone &&
          (m.chooseAll table5 (f.edition 5) ((b.entries m.mem).map fun e => (e.1, e.2, (b.index m.mem e.2).toNat, b.weight m.mem e.2))).isSome))
      | .error _ => false
    | _, _, _ => false

/-- A partial of one entry, and a gather that waits for it. -/
abbrev part0 (status : Nat) : PoolPartial :=
  { key := key0, src := 0, ptn := 0, bag := 0, covered := 1, slots := [0], member := 0, hall := 0, status := status, vals := [] }
abbrev gst0 (n : Nat) (ps : List PoolPartial) : GatherSt :=
  { key := key0, ptn := 0, hall := 0, bench := 0, table := 5, edition := 0, pool := 0, rnd := 0, hint := 0, result := tens 0x01 32 1 8192
    issued := [{ slot := 0, bag := 0, index := 3, weight := 0, member := 1, hall := 0 }], bags := [{ bag := 0, n := n }], arriving := ps }

theorem witness_GatherPooling :
    ((on .joined).shaped ∧ SparseWf regDefault (on .joined).regs ∧ Memory.wf (on .joined).mem ∧ ((on .joined).running key0 0x10).isNone = true) ∧
    (gatherReady (gather0 0 true) true = true ∧ gatherReady (gather0 256 false) false = true ∧
     ((gather0 0 true).querns.all fun q => q.comb.isEmpty) = true) ∧
    (let m := { gather0 0 true with mem := [(regionKey 0 0, 0xFF)] }
     Memory.wf m.mem ∧ gatherReady m true = true ∧ place5.inRange (m.mem.num (regionKey 0 0) 4) = false) ∧
    (let m := gather0 0 true
     let n := { m with ptns := m.ptns.modify 0 fun p => { p with draft := some { draft1 with placements := [place5] } } }
     ((n.firing key0).bind fun f => n.quernDenied f place5 permRead) = some 0) ∧
    (let h : Hall := { arriving := [part0 0], quotas := [{ key := key0, src := 0, bench := 0, bag := 0, count := 3 }] }
     h.arriving = part0 0 :: [] ∧ (part0 0).status ≠ stFaultAccess ∧ (part0 0).status ≠ 0x10 ∧
     h.quotaOf key0 0 0 = some { key := key0, src := 0, bench := 0, bag := 0, count := 3 } ∧ h.slotOf key0 0 0 = none ∧ (part0 0).covered < 3 ∧
     h.merger.length < 16384 ∧
     let s : MergerSlot := { key := key0, src := 0, ptn := 0, bag := 0, covered := 1, slots := [1], flagged := false, vals := [] }
     ({ h with merger := [s] } : Hall).slotOf key0 0 0 = some s ∧ s.covered + (part0 0).covered < 3) ∧
    (let m := { gather0 0 true with gathers := [gst0 3 [part0 0]] }
     m.gathers.find? (fun g => g.key == key0) = some (gst0 3 [part0 0]) ∧ (gst0 3 [part0 0]).bags.find? (fun b => b.bag == 0) = some { bag := 0, n := 3 } ∧
     0 + (part0 0).covered ≠ 3 ∧ (m.firing key0).isSome = true ∧ (part0 stFaultAccess).status = stFaultAccess ∧ (gst0 3 []).arriving = [] ∧
     (∀ e ∈ (gst0 3 []).issued, e.done = true → e.slot ∉ (part0 0).slots) ∧
     (let g : GatherSt := { gst0 3 [part0 0] with issued := (gst0 3 []).issued.map fun e => { e with done := true } }
      ∃ e ∈ g.issued, e.done = true ∧ e.slot ∈ (part0 0).slots)) ∧
    (let g := gst0 1 []
     let m := { tabled (on .joined) with gathers := [g] }
     let pl := leBytes 4 0 ++ leBytes 2 0 ++ leBytes 2 0 ++ leBytes 8 0 ++ leBytes 4 0 ++ leBytes 4 1 ++ leBytes 1 0 ++ leBytes 1 0 ++ leBytes 1 0 ++ leBytes 5 0 ++
       List.replicate 128 0
     (m.gathers.find? (fun g => g.key == { inst := BitVec.ofNat 32 (fieldAt pl 0 4), node := BitVec.ofNat 16 (fieldAt pl 4 2), gen := BitVec.ofNat 16 (fieldAt pl 6 2) })) = some g ∧
     (partialGroups pl (if 0x10 ≤ fieldAt pl 0x1A 1 then 0 else if g.pool = 2 then 128 else 4 * 32)).length = 1 ∧
     ((g.issued.filter fun e => e.bag == 0 && e.member == 1 && e.hall == 0 && !e.done && !(g.arriving.flatMap (·.slots)).contains e.slot).map
       (·.slot)).length = fieldAt pl 0x14 4 ∧
     (let g := gst0 1 [part0 0]
      ((g.issued.filter fun e => e.bag == 0 && e.member == 1 && e.hall == 0 && !e.done && !(g.arriving.flatMap (·.slots)).contains e.slot).map
        (·.slot)).length < fieldAt pl 0x14 4)) := by decide +kernel

/-- A batch of two adds. -/
abbrev batch0 (reserved ended : Bool) : Batch :=
  { tag := default, src := 0, table := 5, adds := [{ index := 3, delta := [] }, { index := 4, delta := [] }], reserved := reserved, ended := ended }
/-- A SCATTER_ADD firing of one entry. -/
abbrev scatter0 (aux dim1 : Nat) : Module :=
  let n := nodeOfClass 0x11 [0, 1, 2] [0xFFFF, 0xFFFF] 0
  let ts : List Tensor := [{ tens 0x13 1 dim1 0 with layout := 6, aux := aux }, { tens 0x01 0 0 5 with space := 3, dim2 := 0 }, tens 0x01 32 dim1 8192]
  let m := tabled (shop [n] ts [entry0])
  let g : Graph := { handle := 0, maxgen := 4, exits := 1, arena := 0, slotq := 4, readyq := 4, tag := 0, nodes := [n], tensors := ts, image := [] }
  { m with ptns := m.ptns.modify 0 (fun p => { p with graphs := [g] }), benches := m.benches.modify 0 fun b => { b with busy := some key0 } }
abbrev scatterReady (m : Module) (ok : Bool) (batches : Nat) : Bool :=
  match m.running key0 0x11 with
  | none => false
  | some f =>
    (m.tableRules f.ptn (f.env (m.draft f.ptn)) ++ scatterRules m.places (f.env (m.draft f.ptn))).all (·.1) && m.scatters.isEmpty &&
    match f.tensor 0, m.placePort f 2 with
    | some lt, .ok d => match m.readBags f 0 lt with
      | .ok b => b.ok m.mem == ok && (!ok || ((m.quernDenied f place5 permAtomic).isNone &&
          (b.entries m.mem).all (fun e => place5.inRange (b.index m.mem e.2)) &&
          ((m.batchesOf f table5 ((b.entries m.mem).map fun e =>
            (e.2, ({ index := (b.index m.mem e.2).toNat, delta := addRow m.mem place5 d e.1 (b.weight m.mem e.2) } : AddEntry)))).filter
              fun x => m.isJoined x.2.1).length == batches))
      | .error _ => false
    | _, _ => false

theorem witness_QuernAdds :
    (let m := tabled (on .joined)
     m.shaped ∧ SparseWf regDefault m.regs ∧ Memory.wf m.mem ∧ fieldAt (List.replicate 32 20) 0x18 1 = 20 ∧ fieldAt [] 0x18 1 < 20 ∧ (m.quern 0).batches = [] ∧
     m.scatters = [] ∧ (m.batch 0 default).isNone = true ∧ (m.quern 0).comb = []) ∧
    (let m := { tabled (on .joined) with querns := List.replicate 20 { batches := [{ batch0 false false with tag := tagOf 0 0 [] }] } }
     (m.quern 0).batches.any (fun b => b.tag == tagOf 0 (fieldAt [] 0x18 1) [] && b.src == 0) = true) ∧
    (let m := { tabled (on .joined) with querns := List.replicate 20 { batches := [batch0 false true] } }
     m.batch 0 default = some (batch0 false true) ∧ m.joinHolds 5 = false ∧ m.batchLines (batch0 false true) ≤ 8192 ∧ m.batchDenied 0 (batch0 false true) = false ∧
     (m.ptn 0).receipts = [] ∧ m.table 5 = some table5 ∧ m.adderDenied 0 table5 = false) ∧
    (let m := { tabled (on .joined) with querns := List.replicate 20 { batches := [batch0 true true] } }
     m.batch 0 default = some (batch0 true true) ∧ (m.ptn 0).receipts.length < 1048576) ∧
    (let m := { tabled (on .joined) with ptns := List.replicate 8 { receipts := [{ tag := default, table := 5, at_ := 0 }] } }
     ((m.ptn 0).receipts.any fun r => r.tag == default) = true) ∧
    (let e : CombEntry := { line := 9, type := 0x01, ptn := 0, deltas := [1], lastAdd := 0 }
     let m := { on .joined with querns := List.replicate 20 { comb := [e] } }
     (m.quern 0).comb.find? (fun e => e.line == 9) = some e ∧ m.fld (qrnR 0 0x008) 4 16 ≠ 0 ∧ e.deltas.length * (typeBits e.type / 8) ≤ 128 ∧
     m.poisonedIn (9 * 128) 128 = false ∧
     ({ m with querns := List.replicate 20 { poisoned := [36] } } : Module).poisonedIn (9 * 128) 128 = true) ∧
    ((on .joined).running key0 0x11).isNone = true ∧ scatterReady (scatter0 0 1) true 1 = true ∧ scatterReady (scatter0 256 1) false 0 = true ∧
    scatterReady { scatter0 0 1 with guild := {} } true 0 = true := by decide +kernel

theorem witness_QuernAdds_acks : ∀ st ∈ [0, stFaultAccess],
    let pl := leBytes 0x15 0 ++ leBytes 1 st ++ leBytes 10 0
    let o : BatchTag × Nat × List AddEntry := ({ tagOf 0 0 pl with stack := 7 }, 1, [])
    let x : ScatterSt := { key := key0, ptn := 0, out := [o, ({ tagOf 0 0 pl with stack := 7 }, 2, [])], table := 5 }
    let m := { scatter0 0 1 with scatters := [x] }
    let n := { m with scatters := [{ x with out := [o] }] }
    (m.scatters.flatMap (·.out)).filter (fun o => o.2.1 == 1 && { o.1 with stack := 0 } == tagOf 0 0 pl) = [o] ∧
    m.scatters.find? (fun y => y.key == key0) = some x ∧ (m.firing key0).isSome = true ∧ (x.out.filter fun y => !(y.1 == o.1 && y.2.1 == 1)) ≠ [] ∧
    (n.scatters.flatMap (·.out)).filter (fun o => o.2.1 == 1 && { o.1 with stack := 0 } == tagOf 0 0 pl) = [o] ∧
    fieldAt pl 0x15 1 = st := by decide +kernel

/-! ### Matrix, vector and sparse firings -/

/-- A tensor in a bench's tile. -/
abbrev tile (type dim0 dim1 addr : Nat) : Tensor := { tens type dim0 dim1 addr with space := 1 }
/-- The only firing of a `job`. -/
abbrev fir (m : Module) : Firing := (m.firing key0).getD default
/-- Where a tile tensor of bench 0 lies. -/
abbrev inTile (t : Tensor) : Placed := { t := t, key := tileBase 0 + t.addr }

/-- A MATMUL of a bf16 element by another. -/
abbrev matJob : Module := job (nodeOfClass 0x20 [0, 1] [2, 0xFFFF] 0) [tile 0x02 1 1 0, tile 0x02 1 1 4096, tile 0x01 1 1 8192]
/-- One of a node with a port that it may not have. -/
abbrev badJob (op : Nat) : Module := job (nodeOfClass op [0, 0, 0, 0, 0] [0, 0xFFFF] 0) [tile 0x01 1 1 0]
/-- A READY chain node of the chain of benches 0 and 1, and a chain that runs. -/
abbrev chainJob : Module :=
  let m := shop [nodeOfClass 0x20 [0, 1] [2, 0xFFFF] (2 ^ 16 + 2 ^ 17)] [tile 0x02 1 1 0, tile 0x02 1 1 4096, tile 0x01 1 1 8192] [ready0 0]
  { m with benches := (on .joined).benches }
abbrev chainSt0 (got : List Nat) : ChainSt := { key := key0, benches := [0, 1], tiles := 2, got := got }

theorem witness_MatrixFirings :
    (matJob.canonical ∧ matJob.halls.length = 4 ∧ matJob.benches.length = 256 ∧ ((on .joined).running key0 0x20).isNone = true ∧
     matJob.running key0 0x20 = some (fir matJob) ∧ matJob.sumsPassed key0 = true ∧ matJob.pipePassed key0 = true ∧ (fir matJob).e.hall < 4 ∧
     quiet matJob = true ∧ (fir matJob).e.benches = [] ∧ (fir matJob).res 1 = none ∧
     ((matmulRules ((fir matJob).env (matJob.draft (fir matJob).ptn))).all (·.1)) = true ∧
     (matJob.placeOn (fir matJob) (fir matJob).bench 0).toOption = some (inTile (tile 0x02 1 1 0)) ∧
     (matJob.placeOn (fir matJob) (fir matJob).bench 1).toOption = some (inTile (tile 0x02 1 1 4096)) ∧
     (fir matJob).res 0 = some (tile 0x01 1 1 8192) ∧
     (matJob.place (fir matJob) (fir matJob).bench 8 (tile 0x01 1 1 8192) 4 permWrite).toOption = some (inTile (tile 0x01 1 1 8192)) ∧
     (tile 0x01 1 1 8192).extent = 4 ∧ prePort (fir matJob).n = none ∧ epiPort (fir matJob).n = none ∧ (tile 0x02 1 1 0).layout ≠ 3 ∧
     (let o : MatOps := { a := inTile (tile 0x02 1 1 0), b := inTile (tile 0x02 1 1 4096), t0 := false, t1 := false, lo := 0, hi := 1 }
      (fir matJob).n.par 1 1 = 0 ∧ (fir matJob).n.par 0 1 = 0 ∧ (dimsA (fir matJob).n o.a.t).2 = 1 ∧
      o.a.patternBad matJob.mem false o.readsA = false ∧ o.b.patternBad matJob.mem true (o.readsB matJob.mem 1 1) = false)) ∧
    ((badJob 0x20).running key0 0x20 = some (fir (badJob 0x20)) ∧ (fir (badJob 0x20)).e.hall < 4 ∧ quiet (badJob 0x20) = true ∧
     ((matmulRules ((fir (badJob 0x20)).env ((badJob 0x20).draft 0))).all (·.1)) = false) ∧
    (let m := { matJob with chains := [chainSt0 [0, 1]] }
     m.sumsPassed key0 = false ∧
     let g : GroupSt := { prod := { key0 with node := 1 }, cons := key0, pipe := 1, credits := 1, buffer := 1, tiles := 1, wb := false, buf := 0 }
     { matJob with groups := [g] }.pipePassed key0 = false) := by decide +kernel

theorem witness_MatmulApart : matJob.apart (fir matJob) 8 (inTile (tile 0x01 1 1 8192)) :=
  Module.apart_of_tiles (by decide +kernel) (by decide +kernel)

theorem witness_ChainFirings :
    ((on .joined).chainOf key0 = none ∧ chainJob.chainOf key0 = some (fir chainJob, [0, 1]) ∧ (fir chainJob).e.state = .ready ∧
     chainJob.barred (fir chainJob).e = false ∧ ([0, 1].all fun b => chainJob.idleFor [key0] b && decide (b < 256)) = true ∧
     chainJob.teamMay key0 0 false [0, 1] = true ∧ (fir chainJob).e.hall < 4 ∧
     (let m := { chainJob with benches := chainJob.benches.modify 1 fun b => { b with busy := some key0 } }
      (m.idleFor [key0] 1 = false ∧ m.chainOf key0 = some (fir m, [0, 1]))) ∧
     ((fir matJob).e.state ≠ .ready)) ∧
    (let m := { matJob with chains := [chainSt0 [1, 0]] }
     (∀ c ∈ matJob.chains, c.key ≠ key0) ∧ m.chains.find? (fun c => c.key == key0) = some (chainSt0 [1, 0]) ∧
     (0 : Nat) = (chainSt0 [1, 0]).got.getD 1 0 ∧ 0 < (chainSt0 [1, 0]).tiles ∧ 1 < (chainSt0 [1, 0]).benches.length ∧
     (chainSt0 [1, 0]).benches.Pairwise (· ≠ ·) ∧ (1 : Nat) ≠ (chainSt0 [1, 0]).got.getD 1 0) := by decide +kernel

/-- A VECTOR node with an empty chain, one under a mask, a REDUCE of a line of two, and a TOPK of one. -/
abbrev vecJob : Module := job (nodeOfClass 0x30 [0] [1, 0xFFFF] 0) [tile 0x01 2 1 0, tile 0x01 2 1 8192]
abbrev maskedJob : Module :=
  job (nodeOfClass 0x30 [0, 1] [2, 0xFFFF] (2 ^ 11)) [tile 0x01 2 1 0, tile 0x10 2 1 4096, tile 0x01 2 1 8192]
abbrev redJob : Module := job (nodeOfClass 0x31 [0] [1, 0xFFFF] 0) [tile 0x01 2 1 0, tile 0x01 1 1 8192]
abbrev topJob : Module := job (nodeOfClass 0x32 [0] [1, 0xFFFF] 1) [tile 0x01 2 1 0, tile 0x13 1 1 8192]
/-- What the hypotheses of a computing firing say: it runs, its rules hold, its first operand and its result are placed. -/
abbrev computes (m : Module) (op : Nat) (rules : RuleEnv → List Rule) (x y : Tensor) : Bool :=
  m.running key0 op == some (fir m) && m.pipePassed key0 && decide ((fir m).e.hall < 4) && quiet m &&
  (rules ((fir m).env (m.draft (fir m).ptn))).all (·.1) && (m.placePort (fir m) 0).toOption == some (inTile x) &&
  (m.placeRes (fir m) 0).toOption == some (inTile y) && !x.oobx && !(inTile x).patternBad m.mem false (fun _ => true) &&
  decide (SparseWf regDefault m.regs) && decide (m.halls.length = 4) && decide (m.benches.length = 256) && ((fir m).res 1).isNone
/-- A firing that runs, and a rule of its class fails. -/
abbrev breaks (op : Nat) (rules : RuleEnv → List Rule) : Bool :=
  (badJob op).running key0 op == some (fir (badJob op)) && (badJob op).pipePassed key0 && quiet (badJob op) &&
  !(rules ((fir (badJob op)).env ((badJob op).draft 0))).all (·.1)

theorem witness_VectorFirings :
    computes vecJob 0x30 vectorRules (tile 0x01 2 1 0) (tile 0x01 2 1 8192) = true ∧
    computes maskedJob 0x30 vectorRules (tile 0x01 2 1 0) (tile 0x01 2 1 8192) = true ∧
    ((maskedJob.placePort (fir maskedJob) 1).toOption = some (inTile (tile 0x10 2 1 4096)) ∧ (fir maskedJob).n.par 11 2 = 1) ∧
    computes redJob 0x31 reduceRules (tile 0x01 2 1 0) (tile 0x01 1 1 8192) = true ∧
    computes topJob 0x32 topkRules (tile 0x01 2 1 0) (tile 0x13 1 1 8192) = true ∧
    breaks 0x30 vectorRules = true ∧ breaks 0x31 reduceRules = true ∧ breaks 0x32 topkRules = true ∧
    ([0x30, 0x31, 0x32].all fun op => ((on .joined).running key0 op).isNone) = true := by decide +kernel

theorem witness_VectorApart :
    vecJob.apart (fir vecJob) 8 (inTile (tile 0x01 2 1 8192)) ∧
    maskedJob.apartAt (fir maskedJob) 8 ((inTile (tile 0x01 2 1 8192)).keys ((tile 0x01 2 1 8192).spansAt fun q =>
      active maskedJob.mem (some (inTile (tile 0x10 2 1 4096))) q.1 q.2.1 q.2.2)) ∧
    redJob.apart (fir redJob) 8 (inTile (tile 0x01 1 1 8192)) ∧ topJob.apart (fir topJob) 8 (inTile (tile 0x13 1 1 8192)) :=
  ⟨Module.apart_of_tiles (by decide +kernel) (by decide +kernel), Module.apart_of_tiles (by decide +kernel) (by decide +kernel),
   Module.apart_of_tiles (by decide +kernel) (by decide +kernel), Module.apart_of_tiles (by decide +kernel) (by decide +kernel)⟩

/-- A CSR tensor of one row, its indexes at 16384 of the tile and its offsets 1024 behind. -/
abbrev csr0 : Tensor := { tile 0x01 1 1 16384 with layout := 4, aux := 1024 }
/-- An SPMM_CSR node, and a segment reduction with an offsets tensor, over a memory. -/
abbrev spmJob (mem : Memory) : Module :=
  { job (nodeOfClass 0x21 [0, 1] [2, 0xFFFF] 8) [csr0, tile 0x01 1 1 4096, tile 0x01 1 1 8192] with mem := mem }
abbrev segJob (unif : Bool) : Module :=
  if unif then job (nodeOfClass 0x13 [0] [1, 0xFFFF] (2 ^ 5 + 2 ^ 6)) [tile 0x01 1 1 0, tile 0x01 1 1 8192]
  else job (nodeOfClass 0x13 [0, 1] [2, 0xFFFF] 0) [tile 0x01 1 1 0, tile 0x14 2 1 4096, tile 0x01 1 1 8192]
abbrev csrIn : Csr := { t := csr0, idx := 0, offs := tileBase 0 + 17408, vals := none }
abbrev piece0 (b : Option Nat) : HubSegment :=
  { owner := key0, ptn := 0, set := 0, prio := false, row := 0, seg := 0, block := 0, first := 0, count := 1, bench := b }
/-- The owner of a hub row, with a piece of it in the queue. -/
abbrev hubJob (b : Option Nat) : Module :=
  let m := spmJob []
  { m with
    hubs := [{ key := key0, bench := 0, rows := [(0, 0, 1)] }]
    ptns := m.ptns.modify 0 (fun p => { p with draft := some draft1 })
    halls := m.halls.modify 0 fun h => { h with hubq := [piece0 b] } }

theorem witness_SparseFirings :
    (let m := spmJob []
     let f := fir m
     m.running key0 0x21 = some f ∧ f.e.hall < 4 ∧ f.bench < 256 ∧ quiet m = true ∧ m.benches.length = 256 ∧
     (m.spmmOps f).toOption = some (.ok csrIn, inTile (tile 0x01 1 1 4096), inTile (tile 0x01 1 1 8192)) ∧ csr0.oobx = false ∧
     ((spmmRules (f.env (m.draft f.ptn))).all (·.1)) = true ∧ m.hubs = [] ∧ f.n.par 3 1 = 1) ∧
    (let m := spmJob [(tileBase 0 + 17408, 1)]
     Memory.wf m.mem ∧ m.running key0 0x21 = some (fir m) ∧
     (m.spmmOps (fir m)).toOption = some (.bad, inTile (tile 0x01 1 1 4096), inTile (tile 0x01 1 1 8192))) ∧
    (let m := segJob true
     let f := fir m
     m.running key0 0x13 = some f ∧ (m.segmentOps f).toOption = some (some (.unif 1), inTile (tile 0x01 1 1 0), inTile (tile 0x01 1 1 8192), false) ∧
     quiet m = true ∧ m.hubs = [] ∧ f.n.par 5 1 = 1) ∧
    (let m := segJob false
     m.running key0 0x13 = some (fir m) ∧
     (m.segmentOps (fir m)).toOption = some (none, inTile (tile 0x01 1 1 0), inTile (tile 0x01 1 1 8192), false)) ∧
    breaks 0x21 spmmRules = true ∧ breaks 0x13 segmentRules = true := by decide +kernel

theorem witness_HubFirings :
    (let m := hubJob none
     m.firing key0 = some (fir m) ∧ (fir m).e.hall = 0 ∧ (fir m).e.bench = some 0 ∧
     (m.bench 0).busy.bind m.firing = some (fir m) ∧ (∀ s ∈ (m.hall 0).hubq, s.bench ≠ some 0) ∧
     (m.hall 0).hubq.find? (fun s => s.owner == key0 && s.bench.isNone) = some (piece0 none) ∧
     (m.bench 1).busy.bind m.firing = none ∧ m.benchIdle 1 = true ∧
     (m.best 0 1).map (fun j => (j.kind, j.key)) = some (.segment 0 0, key0) ∧
     (m.hall 0).hubq.find? (fun s => s.owner == key0 && s.row == 0 && s.seg == 0) = some (piece0 none)) ∧
    (let m := hubJob (some 0)
     (m.bench 0).busy.bind m.firing = some (fir m) ∧ (∃ s ∈ (m.hall 0).hubq, s.bench = some 0) ∧ m.best 0 1 = none) ∧
    (let m := { hubJob (some 9) with hubs := [] }
     (∀ s ∈ (m.hall 0).hubq, s.owner = key0 → s.bench ≠ none) ∧ (∀ x ∈ m.hubs, x.key ≠ key0) ∧ (∀ s ∈ (m.hall 0).hubq, s.bench ≠ some 0)) ∧
    (let m := shop [nodeOfClass 0x30 [] [] 0] [] [ready0 0]
     m.benchIdle 1 = true ∧ (m.best 0 1).map (·.kind) = some .node) := by decide +kernel

theorem witness_HubPartials :
    (let m := hubJob (some 1)
     m.hubs.find? (fun x => x.key == key0) = some { key := key0, bench := 0, rows := [(0, 0, 1)] } ∧ (fir m).e.hall < 4 ∧ m.firing key0 = some (fir m) ∧
     ((m.hall 0).hubq.find? fun s => s.owner == key0 && s.row == 0 && s.seg == 0 && s.bench.isSome) = some (piece0 (some 1)) ∧
     ((m.hall 0).hubq.find? fun s => s.owner == key0 && s.row == 0 && s.seg == 1 && s.bench.isSome) = none) ∧
    (on .joined).hubs = [] := by decide +kernel

theorem witness_SparseApart :
    (spmJob []).apart (fir (spmJob [])) 8 (inTile (tile 0x01 1 1 8192)) ∧
    (segJob true).apart (fir (segJob true)) 8 (inTile (tile 0x01 1 1 8192)) :=
  ⟨Module.apart_of_tiles (by decide +kernel) (by decide +kernel), Module.apart_of_tiles (by decide +kernel) (by decide +kernel)⟩

/-! ### Sampling -/

/-- Tables 5 and 6 of a guild graph: OFFS and NBR, wholly on this member. -/
abbrev offs5 : PlacementRec := { place5 with type := 0x14, dim := 2 }
abbrev nbr6 : PlacementRec := { place5 with type := 0x14, dim := 16, table := 6 }
abbrev graph5 : GuildGraph :=
  { graph := 1, offs := 5, nbr := 6, wgt := 0, sink := 0, verts := 16, ecap := 256, sets := [[(5, 0), (6, 0)]] }
/-- A SAMPLE firing of one hop over that graph, or over a local graph of one vertex without edges, over a memory. -/
abbrev samJob (guild : Bool) (fan : Nat) (oobx : Bool) (mem : Memory) : Module :=
  let n := nodeOfClass 0x12 [0, 1] [2, 0xFFFF] (1 + 2 ^ 2 * fan)
  let gt : Tensor := if guild then { tens 0x14 0 0 5 with space := 3, dim2 := 0 } else { tile 0x01 1 1 16384 with layout := 4, aux := 1024 }
  let m := tabled (job n [{ tile 0x13 1 1 4096 with oobx := oobx }, gt, { tile 0x14 fan 1 8192 with layout := 6 }])
  { m with
    mem := mem
    tables := [{ table5 with place := offs5 }, { table5 with place := nbr6 }]
    ptns := m.ptns.modify 0 fun p =>
      { p with draft := p.draft.map (fun d => { d with placements := [offs5, nbr6] }), ggraphs := [graph5] } }

/-- What the hypotheses of a sample say before its seeds are looked at. -/
abbrev samples (m : Module) : Bool :=
  let f := fir m
  m.running key0 0x12 == some f && m.samples.isEmpty && quiet m && decide (f.e.hall < 4) && decide (Memory.wf m.mem) && f.n.nports == 2 &&
  (m.tableRules f.ptn (f.env (m.draft f.ptn)) ++ sampleRules (m.isOffs f.ptn) (f.env (m.draft f.ptn))).all (·.1) &&
  (m.placePort f 0).toOption == (f.tensor 0).map inTile
abbrev par0 (slot member : Nat) : Parent := { vertex := 0, bag := 0, slot := slot, pathW := 0, member := member }
abbrev sst0 (ps : List Parent) : SampleSt := { key := key0, ptn := 0, hop := 1, parents := ps }
/-- A SAMPLE_ANS payload of one group of a status for the parent in bag 0, slot 0; and a SAMPLE_REQ of one parent. -/
abbrev ans0 (status : Nat) : List Byte :=
  leBytes 16 0 ++ leBytes 4 0 ++ leBytes 4 0 ++ leBytes 4 0 ++ leBytes 2 0 ++ leBytes 1 status ++ leBytes 1 1
abbrev sreq0 (table : Nat) : List Byte := leBytes 4 table ++ leBytes 14 0 ++ leBytes 2 1 ++ leBytes 28 0 ++ leBytes 16 0

theorem witness_Sampling :
    (samples (samJob false 1 false []) = true ∧ samples (samJob true 1 false []) = true ∧ ((on .joined).running key0 0x12).isNone = true) ∧
    (let m := badJob 0x12
     m.running key0 0x12 = some (fir m) ∧
     ((m.tableRules 0 ((fir m).env (m.draft 0)) ++ sampleRules (m.isOffs 0) ((fir m).env (m.draft 0))).all (·.1)) = false) ∧
    (let m := samJob true 1 true [(tileBase 0 + 4096, 16)]
     samples m = true ∧ seedsOf m.mem (inTile { tile 0x13 1 1 4096 with oobx := true }) = [16] ∧ (offs5.rows : Int) ≤ 16 ∧
     (m.places 5).map (·.rows) = some 16) ∧
    (let m := samJob false 1 false []
     let f := fir m
     let gt := (f.tensor 1).getD default
     let rt := (f.res 0).getD default
     let c : Csr := { t := gt, idx := 0, offs := tileBase 0 + 17408, vals := none }
     let hops := (localHops m.mem c f.n f.i.reqid f.n.hops 1 (seedParents c.t.dim1 [0]).1).1
     gt.space ≠ 3 ∧ gt.oobx = false ∧ f.n.full = false ∧ (m.readCsr f 1 gt).toOption = some (.ok c) ∧ f.res 0 = some rt ∧ rt.pitch = 0 ∧
     ((sampleBags f.n 1 hops).flatten.flatMap fun e => idxBytesOf rt e.1).length = 8 ∧
     (m.placeAt f 8 rt 0 8 permWrite).toOption.map (·.key) = some (tileBase 0 + 8192)) ∧
    (let m := samJob true 1 false []
     let f := fir m
     m.ggraph 0 5 = some graph5 ∧ m.table 5 = some { table5 with place := offs5 } ∧ f.n.hops ≠ 0 ∧
     (graph5.tables.all fun r => ((m.places r).bind fun r => m.quernDenied f r permRead).isNone) = true ∧
     (match m.assignParents f { table5 with place := offs5 } (seedParents 16 [0]).1 with
      | .inl ps => ps.any fun y => !y.answered
      | .inr _ => false) = true) := by decide +kernel

theorem witness_SampleApart :
    (samJob false 1 false []).apartAt (fir (samJob false 1 false [])) 8 [(tileBase 0 + 8192, tileBase 0 + 8192 + 8)] :=
  Module.apart_of_tiles (by decide +kernel) (by decide +kernel)

theorem witness_SampleAnswers :
    (let st := sst0 [par0 0 0, par0 1 0]
     let m := { samJob true 2 false [] with samples := [st] }
     (on .joined).samples = [] ∧ m.samples.find? (fun x => x.key == key0) = some st ∧ m.firing key0 = some (fir m) ∧
     ((fir m).tensor 1).map (·.tableId) = some 5 ∧ m.ggraph 0 5 = some graph5 ∧ m.table 5 = some { table5 with place := offs5 } ∧
     st.parents.find? (fun p => !p.answered && p.member == m.member) = some (par0 0 0) ∧ (m.readOffs 0 0 graph5 0 0).1 = .ok 0 0 ∧
     (par0 1 0).answered = false ∧ (par0 0 1).member ≠ m.member) ∧
    (let m := samJob true 2 false [(regionKey 0 8, 1)]
     Memory.wf m.mem ∧ (m.readOffs 0 0 graph5 0 0).1 = .ok 0 1 ∧ (fir m).n.full = false ∧
     (match (m.readNbr 0 0 none graph5 0 0 0 false).1 with
      | .inr x => some x
      | .inl _ => none) = some (0, 0x3F800000) ∧
     (positions (Config.sampleDraw ((fir m).n.par 30 16) (fir m).i.reqid.toNat 1 0 0) 2 1).getD 0 0 = 0) := by decide +kernel

theorem witness_SampleMessages :
    (let m := { samJob true 2 false [] with samples := [sst0 [par0 0 1, par0 1 0]] }
     key0 = { inst := BitVec.ofNat 32 (fieldAt (ans0 0) 0 4), node := BitVec.ofNat 16 (fieldAt (ans0 0) 4 2), gen := BitVec.ofNat 16 (fieldAt (ans0 0) 6 2) } ∧
     (answerGroups (ans0 0) (ans0 0).length 16 == [(0, 0, 0, 0, true, [])]) = true ∧
     (answerGroups (ans0 stFaultAccess) (ans0 stFaultAccess).length 16 == [(0, 0, 0, stFaultAccess, true, [])]) = true ∧
     (sst0 [par0 0 1, par0 1 0]).parents.find? (fun p => !p.answered && p.member == 1 && p.bag == 0 && p.slot == 0 && p.got.length == 0) = some (par0 0 1) ∧
     (sst0 [par0 0 1]).parents.find? (fun p => !p.answered && p.member == 2 && p.bag == 0 && p.slot == 0 && p.got.length == 0) = none ∧
     (fir m).e.hall < 4) := by decide +kernel

theorem witness_SampleRequests :
    (let m := { samJob true 2 false [] with guild := { joined := 3 } }
     fieldAt (sreq0 5) 0x12 2 = 1 ∧ (1 : Nat) ≠ m.member ∧ m.isJoined 1 = true ∧ m.ggraph 0 (fieldAt (sreq0 7) 0 4) = none ∧
     m.ggraph 0 (fieldAt (sreq0 5) 0 4) = some graph5 ∧ (m.table (fieldAt (sreq0 5) 0 4)).isSome = true ∧
     m.allowed tcQuern (offs5.rowAt 0).stack 0 (remoteMaster 1 0) permRead = true ∧
     let n := { m with ptns := m.ptns.modify 0 fun p => { p with draft := some draft1 } }
     n.allowed tcQuern (offs5.rowAt 0).stack 0 (remoteMaster 1 0) permRead = false) := by decide +kernel

/-! ### The guild: agreements, joining and loss -/

/-- Member 0 of the guild of three, with something of its guild state set. -/
abbrev inG (x : Mode) (f : Guild → Guild) : Module := { guild3 x 4 with guild := f (guild3 x 4).guild }
/-- An agreement with which this member has to do, reported or not. -/
abbrev magr (a : Agreement) (r : Option Bool) : MemberAgr := { epoch := 4, agr := a, since := 0, drainUs := 10, reported := r }
/-- Two editions of table 5, the second CURRENT. -/
abbrev flipped : Table :=
  { table5 with editions := [{ num := 0, state := .retiring, fresh := false, primary := some [0], twin := none },
                             { num := 1, state := .current, fresh := false, primary := some [0], twin := none }] }

theorem witness_MembersOfAgreements :
    ((on .joined).ptns.length = 8 ∧ (on .joined).rwk.fallbacks = [] ∧ (on .quarantine).inGuild = false ∧
     (let m := inG .joined fun g => { g with floor := 5 }
      m.inGuild = true ∧ 4 < m.guild.floor)) ∧
    (let m := inG .joined id
     m.inGuild = true ∧ m.guild.floor ≤ 4 ∧ m.outcome 4 = none ∧ m.guild.agr = none) ∧
    ([true, false].all fun ok => (inG .joined fun g => { g with outcomes := [(4, ok)] }).outcome 4 == some ok) = true ∧
    (let m := inG .joined fun g => { g with agr := some (magr (.flip 5 1) (some true)) }
     m.inGuild = true ∧ m.outcome 4 = none ∧ m.guild.agr = some (magr (.flip 5 1) (some true)) ∧ (magr (.flip 5 1) (some true)).epoch = 4) ∧
    (let m := inG .joined fun g => { g with agr := some (magr (.flip 5 1) none) }
     m.guild.agr = some (magr (.flip 5 1) none) ∧ (magr (.flip 5 1) none).limit = some 10 ∧ (magr (.charter []) none).limit = none) ∧
    (let m := { ropes [coll0] with ptns := List.replicate 8 {} }
     m.inGuild = true ∧ coll0.ended = none ∧ coll0.grp = 0x103 ∧ 0x103 ∉ changedGroups m.rwk.inForce []) ∧
    (let t : WordMap := [(0, 1)]
     let m := { ropes [{ coll0 with grp := 0 }] with ptns := List.replicate 8 {} }
     0 ∈ changedGroups m.rwk.inForce t ∧ m.rwk.fallbacks = []) := by decide +kernel

theorem witness_Commits :
    (let m := { inG .joined id with tables := [flipped], ptns := ((on .joined).ptns.modify 0 fun p => { p with regions := [region0] }) }
     m.table 5 = some flipped ∧ m.ptns.all (·.ggraphs.isEmpty) = true ∧ (flipped.editions.any (·.num == 1)) = true ∧
     flipped.editions.find? (fun y => y.num == 0 && y.state == .retiring) =
       some { num := 0, state := .retiring, fresh := false, primary := some [0], twin := none } ∧
     m.regionNo flipped.ptn flipped.place.rgn = some region0) ∧
    (let m := { inG .joined id with ptns := ((on .joined).ptns.modify 1 fun p => { p with staged := some draft0 }) }
     (m.ptn 1).staged = some draft0 ∧ m.inGuild = true ∧ m.outcome 4 = none) ∧
    (let t : WordMap := [(0, 1)]
     let m := { inG .joined id with rwk := { busy := true, stagedT := t } }
     m.rwk.busy = true ∧ m.rwk.stagedT = t) := by decide +kernel

/-- The warden's agreement, for a number of members that have reported. -/
abbrev wagr (a : Agreement) (phase : Nat) (ready acked : List Nat) : WardenAgr :=
  { agr := a, epoch := 4, drainUs := 10, origin := 0, phase := phase, ready := ready, acked := acked }

/-- A charter differs from itself in nothing. -/
theorem witness_charterSelf (c : List Byte) : charterDiff c c = 0 := by
  unfold charterDiff
  rw [show (charterFields.zipIdx.filter fun f => fieldAt c f.1.1 f.1.2 != fieldAt c f.1.1 f.1.2) = [] from by simp]
  rfl

/-! The length of a digest, which the charter's form rests on. -/

theorem length_foldl {α β : Type} {f : List α → β → List α} (hf : ∀ x y, (f x y).length = x.length) (l : List β) (a : List α) :
    (l.foldl f a).length = a.length := by
  induction l generalizing a with
  | nil => rfl
  | cons x t ih => rw [List.foldl_cons, ih, hf]

theorem length_permuteRound (a : List Word) (rc : Nat) : (permuteRound a rc).length = a.length := by
  unfold permuteRound
  simp only [List.length_modify, List.length_map, List.length_zipIdx, length_foldl (fun (x : List Word) (y : Nat × Nat) => List.length_set ..)]

theorem length_permute1600 (a : List Word) : (permute1600 a).length = a.length := by
  unfold permute1600
  have h : ∀ (l : List Nat) (s : Nat × List Word),
      ((l.foldl (fun (s : Nat × List Word) _ => let k := iotaWord s.1; (k.1, permuteRound s.2 k.2)) s).2).length = s.2.length := by
    intro l
    induction l with
    | nil => intro s; rfl
    | cons x t ih => intro s; rw [List.foldl_cons, ih, length_permuteRound]
  exact h ..

theorem length_leBytes (n v : Nat) : (leBytes n v).length = n := by
  induction n generalizing v with
  | zero => rfl
  | succ n ih => exact congrArg (· + 1) (ih _)

theorem length_digest8 (bs : List Byte) : (digest8 bs).length = 8 := by
  unfold digest8 sha3 sponge
  have h : (((padded 72 0x06 bs).foldl meetBlock (List.replicate 25 0))).length = 25 := by
    refine (length_foldl (fun x y => ?_) _ _).trans List.length_replicate
    unfold meetBlock
    rw [length_permute1600, List.length_map, List.length_zipIdx]
  rw [show ceilDiv 64 72 = 1 from rfl]
  generalize (padded 72 0x06 bs).foldl meetBlock (List.replicate 25 0) = s at h
  have e : (s.flatMap fun w => leBytes 8 w.toNat).length = 8 * s.length := by
    clear h
    induction s with
    | nil => rfl
    | cons x t ih => simp only [List.flatMap_cons, List.length_append, length_leBytes, ih, List.length_cons]; omega
  simp only [outBlocks, List.length_take, List.length_append, e, h, List.length_nil]
  decide

/-- A member's own charter has the form of R400 where its geometry has. -/
theorem charterOk_charter (m : Module) (h : m.geom < 64) : charterOk m.charter = true := by
  have d (a b : List Byte) (n k : Nat) (x : a.length = n) : slice (a ++ b) n k = slice b 0 k := by
    unfold slice; rw [← x, List.drop_append_of_le_length (Nat.le_refl _), List.drop_length]; rfl
  have g : fieldAt m.charter 6 1 = m.geom := by
    unfold fieldAt Module.charter
    simp only [List.append_assoc]
    rw [← List.append_assoc (leBytes 4 _), d _ _ 6 1 (by simp only [List.length_append, length_leBytes])]
    show m.geom % 256 + 256 * 0 = m.geom
    omega
  have z : fieldAt m.charter 0x3C 4 = 0 := by
    unfold fieldAt Module.charter
    dsimp only
    rw [d _ _ 0x3C 4 (by simp only [List.length_append, length_leBytes, length_digest8])]
    decide
  unfold charterOk
  rw [g, z]
  simp [h]

theorem witness_WardenDecides :
    (let m := inG .joined id
     m.guild.current = none ∧ m.ptns.all (·.waitCmds.isEmpty) = true ∧ m.guild.warden = m.member) ∧
    (let m := inG .joined fun g => { g with current := some (wagr (.flip 5 1) 0 [] []) }
     m.guild.current = some (wagr (.flip 5 1) 0 [] []) ∧ m.voters = [0, 1, 2]) ∧
    (let m := inG .joined fun g => { g with current := some (wagr (.flip 5 1) 0 [0, 1] []) }
     m.guild.current = some (wagr (.flip 5 1) 0 [0, 1] []) ∧ (m.voters.all fun k => k == 2 || [0, 1].contains k) = true ∧ m.guild.queue = []) ∧
    (let m := inG .joined fun g => { g with current := some (wagr (.flip 5 1) 1 [0, 1, 2] [0, 1]) }
     m.guild.current = some (wagr (.flip 5 1) 1 [0, 1, 2] [0, 1]) ∧ m.guild.drainLost = [] ∧
     (m.voters.all fun k => k == 2 || [0, 1].contains k) = true ∧ ([0, 2].any fun k => m.voters.contains k && k != 2 && !([1].contains k)) = true) ∧
    (let m := inG .joined fun g => { g with acks := [{ epoch := 4, waits := [2] }] }
     m.guild.current = none ∧ m.guild.drainLost = [] ∧ m.guild.acks = [{ epoch := 4, waits := [2], charters := [], lost := none }] ∧
     fieldAt [] 4 2 ≠ fieldAt m.charter 4 2 ∧ m.geom < 64) ∧
    (let m := inG .joined fun g => { g with drainedBy := [(5, 0, 0), (5, 0, 1)] }
     m.joinedList = [0, 1, 2] ∧ (5, 0, 2) ∉ m.guild.drainedBy ∧ (5, 0, 1) ∈ m.guild.drainedBy ∧
     (m.joinedList.all fun k => (m.guild.drainedBy ++ [(5, 0, 2)]).contains (5, 0, k)) = true ∧
     (m.joinedList.any fun k => !(m.guild.drainedBy ++ [(6, 0, 2)]).contains (6, 0, k)) = true) ∧
    (let m := inG .joined fun g => { g with drainedBy := [(5, 0, 0)] }
     ((m.guild.drainedBy ++ [(5, 0, 2)]).all fun x => m.joinedList.any fun k => !(m.guild.drainedBy ++ [(5, 0, 2)]).contains (x.1, x.2.1, k)) = true) ∧
    (let m := inG .joined fun g => { g with probing := [2] }
     2 ∈ m.guild.probing ∧ m.guild.warden = m.member ∧ 1 ∉ m.guild.probing) ∧
    (let m := inG .joined fun g => { g with warden := 1 }
     m.guild.warden ≠ m.member) := by decide +kernel

/-- The module whose charter a JOIN is compared with: no guild yet but this member, its warden. -/
abbrev alone : Module := inG .joined fun g => { g with joined := 1 }
/-- A charter that differs in the version differs in the first place of the mask. -/
theorem witness_charterOther {a b : List Byte} (h : fieldAt a 4 2 ≠ fieldAt b 4 2) : charterDiff a b % 2 = 1 := by
  have e : ∀ p : (Nat × Nat) × Nat → Bool, p ((4, 2), 0) = true → ((charterFields.zipIdx.filter p).foldl (fun x f => setBit x f.2) 0) % 2 = 1 := by
    intro p h
    rw [show charterFields.zipIdx = [((0x04, 2), 0), ((0x06, 1), 1), ((0x08, 8), 2), ((0x18, 8), 3), ((0x20, 8), 4), ((0x28, 8), 5), ((0x30, 8), 6)] from rfl]
    simp only [List.filter_cons, h, if_true, List.filter_nil]
    split <;> split <;> split <;> split <;> split <;> split <;> decide
  exact e _ (bne_iff_ne.mpr h)

theorem witness_charterAgrees (m : Module) (h : m.geom < 64) : agrees m.charter m.charter = true := by
  unfold agrees
  rw [charterOk_charter m h, witness_charterSelf]
  rfl

/-- Whatever a quote answers, one clause holds (its signature and chain are opaque to Lean); a charter without bytes differs from
this member's in its first field. -/
theorem witness_Joins :
    (Memory.wf alone.mem ∧ SparseWf regDefault alone.regs ∧ alone.shaped ∧ alone.inGuild = true ∧ alone.guild.warden = alone.member ∧
     (2 : Nat) ≠ alone.member ∧ 2 < alone.guildSize ∧ alone.guildSize ≤ 3 ∧ alone.guild.current = none ∧ alone.guild.queue = [] ∧
     alone.isJoined 2 = false ∧ alone.voters ≠ []) ∧
    (let m := inG .quarantine id
     m.pwr.mode = .quarantine ∧ (0 : Nat) = m.member) ∧ fieldAt [] 4 2 ≠ fieldAt alone.charter 4 2 ∧
    charterOk [] = true ∧ charterOk (List.replicate 64 0xFF) = false ∧ alone.geom < 64 := by decide +kernel

/-- The pages of a member that rebuilds: table 5's edition 0, which the warden's answer lists. -/
abbrev rebuilds0 : Module :=
  let m := inG .quarantine fun g =>
    { g with answer := some { charter := [], digests := [], handles := [], groups := [], editions := [(5, 0, 2, 0)], joined := 7, serials := [] } }
  { m with tables := [table5], ptns := m.ptns.modify 0 fun p => { p with regions := [region0] } }

theorem witness_MembershipChanges :
    (let m := guild3 .quarantine 4
     let peers := fun reach : Word => (bitsSet 64 reach.toNat).filter fun k => k != m.member && decide (k < m.guildSize)
     m.pwr.mode = .quarantine ∧ m.guild.answer = none ∧ peers 0 = [] ∧ 1 * 2 ≤ m.guildSize ∧ m.guild.noQuorumSaid = false ∧ peers 6 = [1, 2] ∧
     m.guildSize < 3 * 2 ∧ (1 : Nat) ≠ m.member ∧ (2 : Nat) ≠ m.member) ∧
    (let m := inG .joined id
     m.inGuild = true ∧ m.guild.floor ≤ 4 ∧ m.outcome 4 = none ∧ (2 : Nat) ≠ m.member ∧ (0 : Nat) = m.member ∧
     (m.joinedList.filter fun k => k == m.member || (2 : Word).toNat.testBit k) = [0, 1] ∧ m.quorate [0, 1] = true ∧ m.guild.warden ∈ [0, 1] ∧
     (m.joinedList.filter fun k => k == m.member || (0 : Word).toNat.testBit k) = [0] ∧ m.quorate [0] = false ∧ m.insts = []) ∧
    (let m := rebuilds0
     m.table 5 = some table5 ∧ m.regionNo 0 0 = some region0 ∧ m.pwr.mode = .quarantine ∧ (1 : Nat) ≠ m.member ∧ 0 % 2 ^ 32 < place5.shpages ∧
     ((m.guild.answer.map fun a => a.editions.any fun y => y.1 == 5 && y.2.1 == 0)) = some true ∧
     (table5.edition 0).bind (·.primary) = some [0] ∧ (0 : Nat) ≠ unmapped ∧ region0.info.shift = 21 ∧
     quiet m = true) := by decide +kernel

/-! ### Serving -/

/-- A capsule of a command for partition 0, with operands, and with one input list entry of a length where it has one. -/
abbrev cap (opc : Byte) (arg0 arg1 arg2 : Word) (inLen : Option Nat := none) : Capsule :=
  { opc := opc, flags := 0, ptn := 0, policy := 0, inlen := if inLen.isSome then 16 else 0, target := 0xFF, rsv07 := 0, reqid := 9, handle := 0, budget := 0
    cseq := 0, nin := if inLen.isSome then 1 else 0, nout := 0, listoff := 0, npin := 0, pinoff := 0, arg0 := arg0, arg1 := arg1, arg2 := arg2
    inl := match inLen with
      | some n => leBytes 12 0 ++ leBytes 4 n
      | none => [] }
/-- A draft with quotas in hall 0. -/
abbrev quotas : Draft := { draft1 with part := { livemax := [1], slots := [1024], readys := [1024] } }
/-- A JOINED member of a guild of three with table 5 and a command queue pair; and the same one alone in its guild. -/
abbrev serve : Module :=
  let m := tabled (inG .joined id)
  { m with
    ctr := { qps := [qp0], link := [true, true, true, true] }
    guild := (inG .joined id).guild
    ptns := m.ptns.modify 0 fun p => { p with draft := some { quotas with placements := [place5], access := [{ tclass := 1, perm := 7, tfirst := 0, tcount := 1, mfirst := 0, mlast := 0xFFF, mkind := 0 }] } } }
abbrev lone (m : Module) : Module := { m with guild := { m.guild with joined := 1 } }
/-- What `admitsHere` says. -/
abbrev admitsB (m : Module) (opc : Nat) (c : Capsule) : Bool :=
  let p := c.ptn.toNat % 8
  let r := m.received
  m.takesCapsules 0 && c.opc.toNat == opc && (capsuleFault c).isNone && m.ptns.length == 8 && m.admitter c (m.effectful c) == m.member &&
  r.admitter c (r.effectful c) == m.member && (m.tallyOf p c.reqid).isNone && (r.lateFault (m.originOf 0 c)).isNone &&
  decide ((m.ptn p).tally.length < 1048576) && (!m.effectful c || !m.guild.twinCopy) && (m.ptn p).cand.isNone &&
  decide (m.ctr.stagedBytes + stagingOf c ≤ 2 ^ 30) && (m.ptn p).waitCmds.all (fun x => x.capsule.reqid != c.reqid) &&
  (m.ptn p).requests.all fun x => x.reqid != c.reqid

/-- The seventeen commands, each in a form that R351 and R352 accept. -/
abbrev caps : List (Nat × Capsule) :=
  [(0x01, cap 0x01 0 0 0 (some 64)), (0x02, cap 0x02 5 0 0), (0x03, cap 0x03 5 0 0), (0x10, cap 0x10 0 0 0 (some 64)), (0x11, cap 0x11 0 0 0),
   (0x20, cap 0x20 0 0 0 (some 64)), (0x21, cap 0x21 0 0 0), (0x22, cap 0x22 0 0 0), (0x30, cap 0x30 0 1 0), (0x31, cap 0x31 0 1 0),
   (0x40, cap 0x40 5 0 0), (0x41, cap 0x41 5 3 1 (some 128)), (0x42, cap 0x42 5 0 0), (0x43, cap 0x43 5 0 0), (0x44, cap 0x44 5 0 0),
   (0x50, cap 0x50 0 0 0), (0x51, cap 0x51 1 0 0)]

/-- A record of a command in the tally, and the request of a RUN. -/
abbrev rec0 (opc : Nat) (c : Capsule) (done : Bool) : TallyEntry :=
  { reqid := 9, opc := opc, digest := digestOf c, budget := 0, elapsed := 0, arrival := 0, done := done }
abbrev reqst (s : ReqState) (dest : Nat) : Request :=
  { reqid := 9, ptn := 0, qp := 0, capsule := cap 0x01 0 0 0, arrival := 0, deadline := none, state := s, dest := dest }
/-- Partition 0 with something set. -/
abbrev onPtn (m : Module) (f : Partition → Partition) : Module := { m with ptns := m.ptns.modify 0 f }

theorem witness_CapsulesAreChecked :
    (serve.ptns.length = 8 ∧ (on .joined).takesCapsules 0 = false ∧ serve.takesCapsules 0 = true ∧ opcKnown 0x02 = true ∧
     (caps.all fun x => x.2.opc.toNat == x.1 && capsuleFault { x.2 with reqid := 0 } == some 8 && (capsuleFault x.2).isNone) = true ∧ serve.qp 0 = some qp0 ∧
     qp0.outq = []) ∧
    ((caps.drop 3).all fun x =>
      let c := { x.2 with reqid := 10 }
      (capsuleFault c).isNone && (x.1 != 0x41 || (serve.rowsDenied 0 c).isNone) && serve.received.admitter c (serve.received.effectful c) == 1) = true ∧
    ((caps.drop 3).all fun x =>
      let m := onPtn serve fun p => { p with tally := [rec0 x.1 x.2 false] }
      m.received.admitter x.2 (m.received.effectful x.2) == m.member && m.tallyOf 0 9 == some (rec0 x.1 x.2 false) &&
        digestOf x.2 == (rec0 x.1 x.2 false).digest && digestOf { x.2 with handle := 1 } != (rec0 x.1 x.2 false).digest) = true ∧
    serve.isJoined 1 = true ∧
    (let c := { cap 0x01 0 0 0 (some 64) with target := 1 }
     capsuleFault c = none ∧ serve.admitter c (serve.effectful c) = 1 ∧ isMailbox c = false) := by decide +kernel

/-- A work graph of one JOIN node that runs in hall 0's store. -/
abbrev graph0 : Graph :=
  { handle := 0, maxgen := 1, exits := 1, arena := 0, slotq := 1, readyq := 1, tag := 0, tensors := [], image := []
    nodes := [{ nodeOfClass 0x02 [0xFFFF] [0xFFFF, 0xFFFF] 0 with bset := 0xFFFF, dyn := 1 }] }

theorem witness_RequestsRun :
    (caps.all fun x => admitsB serve x.1 x.2 && admitsB (lone serve) x.1 x.2) = true ∧
    (let m := onPtn serve fun p => { p with requests := [reqst .fetching 0] }
     let n := onPtn serve fun p => { p with requests := [reqst .fetching 1], rounds := { isOpen := true } }
     (m.ptn 0).refetch = [] ∧ ((m.ptn 0).requests.find? fun r => r.reqid == 9 && r.state == .fetching) = some (reqst .fetching 0) ∧
     ((m.ptn 0).requests.find? fun r => r.reqid == 8 && r.state == .fetching) = none ∧
     ((n.ptn 0).requests.find? fun r => r.reqid == 9 && r.state == .fetching) = some (reqst .fetching 1) ∧ n.isJoined 1 = true ∧
     (m.ptn 0).rounds.isOpen = false ∧ (n.ptn 0).rounds.isOpen = true) ∧
    ((onPtn serve fun p => { p with admitting := false }).ptn 0).admitting = false ∧
    (let m := onPtn serve fun p => { p with requests := [reqst .waiting 0], graphs := [graph0] }
     (m.ptn 0).blocked = [] ∧ (m.ptn 0).admitting = true ∧ (m.ptn 0).requests = [reqst .waiting 0] ∧ m.loaded 0 0 = some graph0 ∧
     m.bindTables 0 graph0 (pinsOf (cap 0x01 0 0 0)) false = some [] ∧ m.canReserve 0 graph0 = true ∧ graph0.arena = 0 ∧ 0 < graph0.exits ∧ m.insts = []) ∧
    ((serve.ptn 0).blocked = [] ∧ serve.tallyOf 0 5 = none ∧
     let m := onPtn serve fun p => { p with tally := [rec0 0x01 (cap 0x01 0 0 0) true] }
     m.tallyOf 0 9 = some (rec0 0x01 (cap 0x01 0 0 0) true) ∧ (rec0 0x01 (cap 0x01 0 0 0) true).heldFor = none) ∧
    ([serve, lone serve].all fun m => [cap 0x02 5 0 0, cap 0x03 5 0 0].all fun c => (m.received.lateFault (m.originOf 0 c)).isNone) = true ∧
    (serve.joinedList.filter (· != serve.member)) = [1, 2] ∧ ((lone serve).joinedList.filter (· != (lone serve).member)) = [] ∧
    (let m := onPtn serve fun p => { p with requests := [{ reqst .window 0 with reqid := 5 }], tally := [{ rec0 0x01 (cap 0x01 0 0 0) false with reqid := 5 }] }
     ((m.ptn 0).requests.find? fun y => y.reqid == 5 && y.dest == m.member).isSome = true ∧ (reqst .window 0).state ≠ .executing ∧
     (m.tallyOf 0 5).map (·.done) = some false) := by decide +kernel

/-- A work graph image of one JOIN node and one tensor, as R41, R42 and R47 lay one out. -/
abbrev image0 : List Byte :=
  leBytes 4 0x46575A44 ++ leBytes 1 0 ++ leBytes 1 1 ++ leBytes 1 1 ++ leBytes 1 0 ++ leBytes 2 1 ++ leBytes 2 1 ++ leBytes 4 1 ++ leBytes 8 0 ++ leBytes 4 0 ++
  leBytes 4 1 ++ leBytes 8 64 ++ leBytes 8 128 ++ leBytes 8 0 ++ leBytes 8 0 ++
  (leBytes 2 0 ++ leBytes 1 1 ++ leBytes 1 1 ++ leBytes 1 1 ++ leBytes 1 1 ++ List.replicate 22 0xFF ++ leBytes 4 0 ++ leBytes 32 0) ++
  (leBytes 1 0x13 ++ leBytes 3 0 ++ leBytes 4 1 ++ leBytes 4 1 ++ leBytes 4 1 ++ leBytes 16 0)
abbrev load0 : Capsule := cap 0x10 0 0 0 (some 160)
/-- The module with the tables of a guild graph, defined or not, and a graph that samples it loaded or not. -/
abbrev graphed (defined loaded : Bool) : Module :=
  let m := { serve with tables := [{ table5 with place := offs5 }, { table5 with place := nbr6 }] }
  onPtn m fun p => { p with
    ggraphs := if defined then [graph5] else []
    graphs := if loaded then [{ graph0 with nodes := [nodeOfClass 0x12 [0, 0] [0xFFFF, 0xFFFF] 5], tensors := [{ tens 0x14 0 0 5 with space := 3 }] }] else [] }
abbrev define0 : Capsule := cap 0x50 (1 + 5 * 2 ^ 32) 6 0

/-- Images that pass R53; drafts, which are signed, only fail here: their signature is opaque to Lean. -/
theorem witness_GraphsAndDrafts :
    (let m := serve
     (admitsB m 0x10 load0 && admitsB m 0x10 (cap 0x10 0 0 0)) = true ∧ m.pwr.mode ≠ .quarantine ∧ ((m.ptn 0).graphs).length < 256 ∧
     (m.tallied 0 load0).graphFault 0 ((m.tallied 0 load0).draft 0) (payloadOf load0 image0) = none ∧
     (m.tallied 0 (cap 0x10 0 0 0)).graphFault 0 ((m.tallied 0 (cap 0x10 0 0 0)).draft 0) (payloadOf (cap 0x10 0 0 0) []) = some 0 ∧
     qp0.outq = []) ∧
    (let m := onPtn serve fun p => { p with graphs := List.replicate 256 graph0 }
     ¬ ((m.ptn 0).graphs.filter fun g => !(m.ptn 0).unloaded.contains g.handle).length < 256 ∧ admitsB m 0x10 load0 = true) ∧
    (let m := onPtn serve fun p => { p with graphs := [graph0] }
     admitsB m 0x11 (cap 0x11 0 0 0) = true ∧ m.loaded 0 0 = some graph0 ∧ serve.loaded 0 0 = none ∧ m.insts = []) ∧
    (match checkDraft (serve.tallied 0 (cap 0x20 0 0 0)) 0 (payloadOf (cap 0x20 0 0 0) []) with
     | .error _ => true
     | .ok _ => false) = true ∧
    (let m := { serve with guild := { serve.guild with warden := 1 } }
     (admitsB m 0x21 (cap 0x21 0 0 0) && admitsB m 0x22 (cap 0x22 0 0 0)) = true ∧ m.guild.warden ≠ m.member ∧ m.isJoined m.guild.warden = true ∧
     serve.guild.warden = serve.member ∧ serve.guild.current = none ∧ serve.guild.queue = []) := by decide +kernel

theorem witness_GraphsOfTheGuild :
    (let m : Module := { onPtn serve fun p => { p with staged := some draft0 } with pwr := (on .quarantine).pwr }
     let n : Module := { serve with pwr := (on .quarantine).pwr }
     (admitsB m 0x21 (cap 0x21 0 0 0) && admitsB n 0x21 (cap 0x21 0 0 0)) = true ∧ (m.ptn 0).staged = some draft0 ∧ (n.ptn 0).staged = none) ∧
    (serve.unloadBarred 0 = false ∧ admitsB serve 0x22 (cap 0x22 0 0 0) = true ∧ ({ serve with tables := [flipped] } : Module).unloadBarred 0 = true) ∧
    (admitsB (graphed false false) 0x50 define0 = true ∧ (((graphed false false).tallied 0 define0).definePart define0).2 = stOk ∧
     (((graphed true false).tallied 0 define0).definePart define0).2 = stAborted) ∧
    (admitsB (graphed true false) 0x51 (cap 0x51 1 0 0) = true ∧ ((serve.ptn 0).ggraphs.find? fun g => g.graph == 1) = none ∧
     (((graphed true false).ptn 0).ggraphs.find? fun g => g.graph == 1) = some graph5 ∧
     (((graphed true true).ptn 0).graphs.any fun w => w.samples graph5.offs) = true ∧
     (((graphed true false).ptn 0).graphs.any fun w => w.samples graph5.offs) = false ∧
     (graphed true false).others (graphed true false).joinedList ≠ [] ∧ (lone (graphed true false)).others (lone (graphed true false)).joinedList = [] ∧
     admitsB (lone (graphed true false)) 0x51 (cap 0x51 1 0 0) = true) := by decide +kernel

/-- Table 5 with an edition in a state after its CURRENT one. -/
abbrev withEd (s : EdState) : Table :=
  { table5 with editions := table5.editions ++ [{ num := 1, state := s, fresh := false, primary := some [1], twin := none }] }
abbrev editing (x : Table) : Module := { serve with tables := [x], ptns := serve.ptns.modify 0 fun p => { p with regions := [{ region0 with info := { region0.info with size := 2 ^ 22 } }] } }
/-- EDITION_WRITE of row 3 of edition 1, and a command that waits. -/
abbrev write0 : Capsule := cap 0x41 (5 + 2 ^ 32) 3 1 (some 128)
abbrev wait0 (c : Capsule) (v : Nat) : PendingCmd := { capsule := c, mine := true, waits := [], value := v }

theorem witness_EditionsAndPages :
    (let m := editing table5
     m.canonical ∧ m.table 5 = some table5 ∧ table5.ptn = 0 ∧ m.holds table5.place = true ∧ table5.building = false ∧ table5.aside = none ∧
     (caps.all fun x => !within x.1 0x40 0x44 || (admitsB m x.1 x.2 && admitsB (lone m) x.1 x.2)) = true ∧ m.rowsDenied 0 write0 = none ∧
     (0 : Nat) / 2 ^ 32 % 256 ≠ 1 ∧ (m.regionNo 0 0).isSome = true ∧ (table5.editions.find? (fun e => e.state == .current)).isSome = true ∧
     m.table 7 = none ∧ m.others (m.holders table5.place) = [] ∧
     table5.editions.find? (fun e => e.num == 1 && (e.state == .building || e.state == .sealed)) = none) ∧
    (let m := editing (withEd .building)
     (withEd .building).building = true ∧ m.rowsDenied 0 write0 = none ∧ admitsB m 0x41 write0 = true ∧ quiet m = true ∧
     ((withEd .building).edition 1).map (fun e => (e.state, e.primary)) = some (.building, some [1]) ∧ write0.arg2 = 1 ∧ write0.arg1.toNat < place5.rows ∧
     place5.rowBytes ≤ (payloadOf write0 (List.replicate 128 1)).length ∧ place5.primaryOf m.member = some (place5.rowAt 3).shard ∧
     place5.twinOf m.guildSize m.member = none ∧ [1][(place5.rowAt 3).page]? = some 1 ∧ (withEd .building).shares 1 1 = false ∧
     ((m.regionNo 0 0).map fun g => m.residency g 1) = some .present ∧ isMailbox write0 = false) := by decide +kernel

theorem witness_EditionsAndPagesOn :
    (let m := editing (withEd .sealed)
     ((withEd .sealed).editions.find? (fun e => e.num == 1 && (e.state == .building || e.state == .sealed))).isSome = true ∧
     (withEd .sealed).editions.find? (fun e => e.num == 1 && e.state == .building) = none ∧ place5.rows < write0.arg1.toNat + 2 ^ 4 ∧
     let n : Module := { m with guild := { m.guild with warden := 1 } }
     (admitsB n 0x44 (cap 0x44 5 0 0) && (n.ptn 0).ggraphs.isEmpty && n.isJoined 1) = true) ∧
    (let m := onPtn (editing (withEd .building)) fun p => { p with draft := some { quotas with placements := [place5], access := [] } }
     (m.rowsDenied 0 write0).isSome = true ∧ m.takesCapsules 0 = true ∧ capsuleFault write0 = none) ∧
    (let x := wait0 (cap 0x42 (5 + 2 ^ 32) 0 0) 0
     let e := rec0 0x42 (cap 0x42 0 0 0) false
     let m := onPtn serve fun p => { p with waitCmds := [x], tally := [e] }
     let n := onPtn serve fun p => { p with waitCmds := [wait0 { write0 with reqid := 8 } 0, x] }
     let found (m : Module) := (m.ptn 0).waitCmds.find? fun x => x.capsule.reqid == 9 && x.capsule.opc == 0x42
     found m = some x ∧ found serve = none ∧ found n = some x ∧ ((m.ptn 0).waitCmds.takeWhile fun x => x.capsule.reqid != 9) = [] ∧
     ((n.ptn 0).waitCmds.takeWhile fun x => x.capsule.reqid != 9) = [wait0 { write0 with reqid := 8 } 0] ∧ editionTable write0 = editionTable x.capsule ∧
     m.tallyOf 0 9 = some e ∧ e.done = false) ∧
    (let m := onPtn serve fun p => { p with draft := some { quotas with placements := [] } }
     m.pagesNamed (cap 0x30 0 1 0) = some (region0, [0]) ∧ serve.pagesNamed (cap 0x30 0 1 0) = none ∧ m.regionNo 0 0 = some region0 ∧
     (admitsB m 0x30 (cap 0x30 0 1 0) && admitsB m 0x31 (cap 0x31 0 1 0) && (m.ptn 0).waitCmds.isEmpty) = true) ∧
    (let x := wait0 (cap 0x30 0 1 0) 1
     let m := onPtn serve fun p => { p with waitCmds := [x], tally := [rec0 0x30 (cap 0x30 0 1 0) false] }
     (m.ptn 0).waitCmds = [x] ∧ x.capsule.reqid = 9 ∧ x.value = 1 ∧ m.tallyOf 0 9 = some (rec0 0x30 (cap 0x30 0 1 0) false)) := by decide +kernel

theorem witness_SealsOfOthers :
    (let c := cap 0x42 (5 + 2 ^ 32) 0 0
     let m := onPtn serve fun p => { p with seals := [(c, 1, [8])], waitCmds := [wait0 { write0 with reqid := 8 } 0] }
     let n := onPtn serve fun p => { p with seals := [(c, 1, [8])] }
     (m.ptn 0).waitCmds.find? (fun x => x.capsule.reqid == 9 && x.capsule.opc == 0x42) = none ∧
     (m.ptn 0).seals.find? (fun x => x.1.reqid == 9) = some (c, 1, [8]) ∧ 8 ∈ m.openWrites 0 (editionTable c) ∧
     n.openWrites 0 (editionTable c) = [] ∧ c.opc = 0x42 ∧ c.ptn.toNat % 8 = 0 ∧ (1 : Nat) ≠ n.member ∧ n.isJoined 1 = true ∧ n.ptns.length = 8 ∧
     (serve.ptn 0).seals = []) := by decide +kernel

theorem witness_MembersExchangeCommands :
    (serve.ptns.length = 8 ∧ (0 : Nat) = serve.member ∧ (1 : Nat) ≠ serve.member ∧ serve.inGuild = true ∧ (on .quarantine).inGuild = false ∧ serve.isJoined 1 = true) ∧
    (let c := cap 0x01 0 0 0
     serve.tallyOf 0 9 = none ∧ serve.lateFault { own := none, recv := 1, capsule := c } = none ∧ serve.effectful c = false ∧
     serve.ctr.stagedBytes + stagingOf c ≤ 2 ^ 30 ∧ (serve.ptn 0).requests = [] ∧ (cap 0x03 0 0 0).opc = 0x03) ∧
    (let f : Forwarded := { origin := serve.originOf 0 (cap 0x03 5 0 0), waits := [1, 2] }
     let m : Module := { serve with ctr := { serve.ctr with forwarded := [f] } }
     serve.ctr.forwarded = [] ∧ m.ctr.forwarded.find? (fun f => f.origin.capsule == cap 0x03 5 0 0) = some f ∧ 2 ∈ f.waits) ∧
    ([[1], [1, 2]].all fun w =>
      let x : PendingCmd := { capsule := cap 0x42 5 0 0, mine := false, waits := w }
      let m := onPtn serve fun p => { p with waitCmds := [x], tally := [rec0 0x42 (cap 0x42 5 0 0) false] }
      (m.ptn 0).waitCmds.find? (fun x => x.capsule.reqid == 9) == some x && m.tallyOf 0 9 == some (rec0 0x42 (cap 0x42 5 0 0) false)) = true ∧
    ((capsuleOf (leBytes 1 0x20)).1.opc = 0x20 ∧ (capsuleOf []).1.opc = 0 ∧
     (tallyOfBytes 0 1 (leBytes 8 7)).reqid = 7 ∧ serve.tallyOf 0 7 = none ∧ fieldAt (leBytes 8 7) 0 8 = 7) ∧
    (let m := onPtn serve fun p => { p with tally := [rec0 0x42 (cap 0x42 5 0 0) false] }
     (m.tallyOf 0 (BitVec.ofNat 64 (fieldAt (leBytes 8 9) 0 8))).isSome = true) ∧
    (serve.guild.warden = serve.member ∧ groupTableOk serve.guildSize (tableOfBytes []) = true ∧ serve.guild.current = none ∧ serve.guild.queue = [] ∧
     serve.guild.resolved = [] ∧ serve.voters ≠ [] ∧ serve.guild.copyBack = false) ∧
    (let m : Module := { serve with guild := { serve.guild with copyBack := true, warden := 1 } }
     m.guild.copyBack = true ∧ m.guild.warden ≠ m.member) := by decide +kernel

/-! ### The whole block -/

/-- States with a front command that cannot bring a reset, with none, in OFF, FAULTED and JOINED; and what `canonical` and `shaped` ask. -/
theorem witness_WholeBlock :
    (let s : State := { m := dark, pending := [.idcode, .bypass] }
     (∀ c, s.pending.head? = some c → mayReset c = false) ∧ s.m.pwr.mode = .off ∧ s.m.canonical ∧ s.m.shaped) ∧
    (on .faulted).pwr.mode = .faulted ∧ (on .faulted).canonical ∧ (on .joined).shaped ∧ State.reset.pending = [] ∧
    (on .joined).pwr.input = true ∧ dark.pwr.input = false ∧ ({ dark with asy := { seedErased := true } } : Module).asy.seedErased = true := by
  refine ⟨⟨?_, by decide +kernel⟩, by decide +kernel⟩
  intro c h
  cases h; rfl

/-- A step of a state with a command, and of one without. -/
theorem witness_Steps :
    (∃ s', step { m := dark, pending := [.idcode] } = .next s') ∧ (∃ s', step { m := dark, pending := [] } = .next s') := ⟨⟨_, rfl⟩, ⟨_, rfl⟩⟩

/-! ### Which commands are well formed -/

/-- A capsule that says it has 16 inline bytes and has none. -/
abbrev capBad : Capsule := { cap 0x02 0 0 0 with inlen := 16 }
abbrev long : List Byte := List.replicate 4097 0

theorem test_ill_formed_commands_are_refused :
    ([.run 4096 (cap 0x01 0 0 0), .cancel 0 capBad, .graphLoad 4096 (cap 0x10 0 0 0) [], .editionWrite 0 capBad [], .qpClose 4096,
      .mailboxRetentionExpire 0 4096, .mailboxRetentionExpire 4096 0, .nakReceive 0 3 0 0, .pageResume 0 (2 ^ 41), .channelAccess 0 0 0 0 0 0 .read .clean,
      .channelAccess 0 0 0 0 2049 0 .read .clean, .channelAccess 0 0 0 0 1 3 .read .clean, .channelAccess 0 0 0 (2 ^ 41) 1 0 .read .clean,
      .tokenPacket 0 0 long, .chunk 0 0 long, .noticePacket 0 [], .rebuildPage 0 0 0 (2 ^ 20) [], .rebuildPage 0 0 0 0 [],
      .keyAgree 0 true true (List.replicate 65 0), .hold 0 (0x140 * 8) 0, .collAbort 0 0x140 0 0 0 0 0 0, .joinRequest 0 0 [] [] 0 default,
      .joinWaitExpire 0 (List.replicate 65 0) [], .benchOutOfService 0 ⟨68, none⟩, .benchOutOfService 0 ⟨0, some 0x600000⟩, .stackWithdraw 0 0, .stackWithdraw 0 5, .trainingDone 0 [] [],
      .thermalSample [] [], .powerApplied 37999, .powerApplied 52001, .inputRange 40000, .inputInRange 50001, .halDctlOos 0 68, .halDctlWd 0 5,
      .registerWrite 0 0x1FF00000004 0, .registerWrite 0 0 0, .registerBadAccess 0 0x1FF00000000 8 true none, .registerBadAccess 0 0 4 true none,
      .sidebandPrivateWrite [], .stack1500 20 0] : List Instr).all (fun c => !c.wellFormed) = true := by decide +kernel

theorem test_well_formed_commands :
    ([.run 4095 (cap 0x01 0 0 0 (some 64)), .mailboxRetentionExpire 0 4095, .channelAccess 0 0 0 0 2048 2 .read .clean, .hold 0 (0x13F * 8) 0,
      .benchOutOfService 0 ⟨67, none⟩, .benchOutOfService 0 ⟨0, some 0x5FFFFF⟩, .stackWithdraw 0 4, .powerApplied 48000, .inputRange 39999, .registerWrite 0 0x1FF00000008 0,
      .registerBadAccess 0 0x1FF00000004 8 true none, .sidebandPrivateWrite [0], .stack1500 19 0, .idcode] : List Instr).all (·.wellFormed) = true := by
  decide +kernel

/-! ### The spec's own figures -/

/-- "Addresses worked out", in the address index: QRN12_RGCNT1, BCH_SPCTL of bench 133, PTN0_LAG, bank 0 of bench 133. -/
theorem test_addresses_worked_out :
    qrnR 12 0x188 = 0x1FF08C00188 ∧ bchR 133 0x100 = 0x1FF03850100 ∧ ptnR 0 0xC8 = 0x1FF0E0000C8 ∧ tileBase 133 + 0x5F8000 = 0x18042DF8000 := by
  decide

/-- Table 12 of "A bag followed through", in the chapter on querns. -/
abbrev table12 : PlacementRec :=
  { table := 12, type := 0x03, mode := 0, wh := 0, twin := true, rows := 410000000, dim := 64, rgn := 0, shards := 16, readers := 0, adders := 0 }

/-- Its entries: shard, shard page and stack of four indices, the one out of range, and the byte of the first in its page. -/
theorem test_rows_of_the_bag :
    table12.rowAt 52000007 = { shard := 7, page := 198, stack := 12, off := 0xBA800 } ∧ (table12.rowAt 9101234).shard = 2 ∧
    (table12.rowAt 9101234).page = 34 ∧ (table12.rowAt 9101234).stack = 11 ∧ (table12.rowAt 17).shard = 1 ∧ (table12.rowAt 17).stack = 3 ∧
    table12.inRange 410000000 = false := by decide +kernel

/-- Its mean: 0.125 − 0.75 + 1.5, times the fp32 value nearest to one fifth, is 0x3E33 in bf16. -/
theorem test_mean_of_the_bag :
    let s := sumF32 Machine.Num.zero [fp16.decode 0x3000, (fp32.mul (fp16.decode 0xB600) (.fin false 2 0)).v, fp16.decode 0x3E00]
    (bf16.encode .even (fp32.mul s.v (f32Of (invDeg 5))).v).1 = 0x3E33 := by decide +kernel

/-- "A hub row", in the chapter on sparsity: the segments of 11,000,000 entries. -/
theorem test_segments_of_the_hub_row : (segmentsOf 0 11000000).length = 1343 ∧ (segmentsOf 0 11000000).getLast? = some (1342 * 8192, 6336) := by
  decide +kernel

/-- The check values that the two CRCs of R372 and R422 are published with, over the digits 1 to 9. -/
theorem test_crcs :
    let nine : List Byte := [0x31, 0x32, 0x33, 0x34, 0x35, 0x36, 0x37, 0x38, 0x39]
    crc32c nine = 0xE3069283 ∧ crc64 nine = 0x6C40DF5F0B497347 := by decide +kernel

/-- "A group of weights", in the chapter on sparsity: row 3, group 10, code 0x8 and the values 0x3F00 and 0xBF40 in their places. -/
theorem test_group_of_weights :
    let t : Tensor := { tens 0x02 1024 512 0 with layout := 2, aux := 0x80000 }
    let mem : Memory := [(0xC28, 0), (0xC29, 0x3F), (0xC2A, 0x40), (0xC2B, 0xBF), (0x80185, 0x08)]
    ([40, 41, 42, 43].map fun d0 => (bf16.encode .even (({ t := t, key := 0 } : Placed).elem mem d0 3 0).num).1) =
      [0x3F00, 0, 0xBF40, 0] := by decide +kernel

/-- PWR_CAP holds 1,200 to 2,700 (R503). -/
theorem test_power_cap_is_bounded :
    clampReg .pwr 0x020 0 100 % 2 ^ 12 = 1200 ∧ clampReg .pwr 0x020 0 4000 % 2 ^ 12 = 2700 := by decide

end Sys2Proof.Tests
end

/-! ### What every step keeps (O59) -/

section
namespace Sys2Proof.Machine

/-- Every command answers a next state that keeps what `Kept` says, and one that can bring no reset leaves neither OFF nor FAULTED
and takes no time back. -/
theorem exec_keeps : ∀ (i : Instr) (s : State), Keeps (!mayReset i) s (exec i s)
  | .run qp c, s => execRun_kept qp c s
  | .cancel qp c, s => execCancel_kept qp c s
  | .query qp c, s => execQuery_kept qp c s
  | .graphLoad qp c image, s => execGraphLoad_kept qp c image s
  | .graphUnload qp c, s => execGraphUnload_kept qp c s
  | .draftLoad qp c image, s => execDraftLoad_kept qp c image s
  | .draftActivate qp c, s => execDraftActivate_kept qp c s
  | .draftUnload qp c, s => execDraftUnload_kept qp c s
  | .pageEvict qp c, s => execPageEvict_kept qp c s
  | .pageEvictDrained ptn reqid, s => execPageEvictDrained_kept ptn reqid s
  | .pageRestore qp c, s => execPageRestore_kept qp c s
  | .editionBegin qp c, s => execEditionBegin_kept qp c s
  | .editionWrite qp c rows, s => execEditionWrite_kept qp c rows s
  | .editionSeal qp c, s => execEditionSeal_kept qp c s
  | .editionSealDone ptn reqid, s => execEditionSealDone_kept ptn reqid s
  | .editionDiscard qp c, s => execEditionDiscard_kept qp c s
  | .editionFlip qp c, s => execEditionFlip_kept qp c s
  | .graphDefine qp c, s => execGraphDefine_kept qp c s
  | .graphUndefine qp c, s => execGraphUndefine_kept qp c s
  | .inputFetchDone ptn reqid inputs, s => execInputFetchDone_kept ptn reqid inputs s
  | .roundWindowClose ptn, s => execRoundWindowClose_kept ptn s
  | .admissionRetry ptn, s => execAdmissionRetry_kept ptn s
  | .tokenArrive t, s => execTokenArrive_kept t s
  | .benchDispatch bench, s => execBenchDispatch_kept bench s
  | .affinityHoldExpire k, s => execAffinityHoldExpire_kept k s
  | .matchStall hall inst, s => execMatchStall_kept hall inst s
  | .nodeFiringEnd k, s => execNodeFiringEnd_kept k s
  | .relay k, s => execRelay_kept k s
  | .join k, s => execJoin_kept k s
  | .steer k, s => execSteer_kept k s
  | .gather k, s => execGather_kept k s
  | .scatterAdd k, s => execScatterAdd_kept k s
  | .sample k, s => execSample_kept k s
  | .segmentReduce k, s => execSegmentReduce_kept k s
  | .matmul k, s => execMatmul_kept k s
  | .chainFiring k, s => execChainFiring_kept k s
  | .chainHoldExpire k, s => execChainHoldExpire_kept k s
  | .chainSumArrive k pos tile, s => execChainSumArrive_kept k pos tile s
  | .spmmCsr k, s => execSpmmCsr_kept k s
  | .hubSegmentTake bench, s => execHubSegmentTake_kept bench s
  | .hubPartialArrive k row seg, s => execHubPartialArrive_kept k row seg s
  | .vector k, s => execVector_kept k s
  | .reduce k, s => execReduce_kept k s
  | .topk k, s => execTopk_kept k s
  | .streamCopy k, s => execStreamCopy_kept k s
  | .fuse k, s => execFuse_kept k s
  | .fusedGroupDispatch k, s => execFusedGroupDispatch_kept k s
  | .fuseCreditReturn k, s => execFuseCreditReturn_kept k s
  | .barrier k, s => execBarrier_kept k s
  | .barrierRelease k, s => execBarrierRelease_kept k s
  | .allreduce k, s => execAllreduce_kept k s
  | .rwkReserveRetry coll, s => execRwkReserveRetry_kept coll s
  | .collPassStart coll, s => execCollPassStart_kept coll s
  | .fallbackLaunch qp d, s => execFallbackLaunch_kept qp d s
  | .streamAdmit hall, s => execStreamAdmit_kept hall s
  | .preadmit bench, s => execPreadmit_kept bench s
  | .streamRequestComplete hall ctx, s => execStreamRequestComplete_kept hall ctx s
  | .pageResume ptn ra, s => execPageResume_kept ptn ra s
  | .streamSlack hall ctx, s => execStreamSlack_kept hall ctx s
  | .haltLong hall ctx, s => execHaltLong_kept hall ctx s
  | .quernEntryAccept stack, s => execQuernEntryAccept_kept stack s
  | .segmentOpen stack, s => execSegmentOpen_kept stack s
  | .lineFetchDone stack line o, s => execLineFetchDone_kept stack line o s
  | .bankFallback stack line, s => execBankFallback_kept stack line s
  | .mergerPartial hall, s => execMergerPartial_kept hall s
  | .gatherPartial k, s => execGatherPartial_kept k s
  | .addBatchArrive stack tag, s => execAddBatchArrive_kept stack tag s
  | .addBatchReserved stack tag, s => execAddBatchReserved_kept stack tag s
  | .addBatchEnd stack tag, s => execAddBatchEnd_kept stack tag s
  | .cbAgeWriteback stack line o, s => execCbAgeWriteback_kept stack line o s
  | .channelAccess master hall ptn ra len hint a o, s => execChannelAccess_kept master hall ptn ra len hint a o s
  | .hallCacheFillDone hall line, s => execHallCacheFillDone_kept hall line s
  | .scrubRead stack o, s => execScrubRead_kept stack o s
  | .receiptExpire ptn tag, s => execReceiptExpire_kept ptn tag s
  | .tallyEntryExpire ptn reqid, s => execTallyEntryExpire_kept ptn reqid s
  | .mailboxRetentionExpire qp slot, s => execMailboxRetentionExpire_kept qp slot s
  | .pushRetentionExpire ptn reqid, s => execPushRetentionExpire_kept ptn reqid s
  | .retireSlow table, s => execRetireSlow_kept table s
  | .staleTokenDiscard t, s => execStaleTokenDiscard_kept t s
  | .cmReq port r counter tag, s => execCmReq_kept port r counter tag s
  | .qpClose qp, s => execQpClose_kept qp s
  | .hostRdmaRead qp key va len, s => execHostRdmaRead_kept qp key va len s
  | .hostRdmaWrite qp key va data, s => execHostRdmaWrite_kept qp key va data s
  | .slotRelease qp key va data, s => execSlotRelease_kept qp key va data s
  | .doorbellWrite qp key c, s => execDoorbellWrite_kept qp key c s
  | .unsupportedVerb qp, s => execUnsupportedVerb_kept qp s
  | .ackTimeout qp, s => execAckTimeout_kept qp s
  | .ecnMarkedReceive qp, s => execEcnMarkedReceive_kept qp s
  | .cnpReceive qp, s => execCnpReceive_kept qp s
  | .rateIncrease qp, s => execRateIncrease_kept qp s
  | .pauseFrame port prio ns, s => execPauseFrame_kept port prio ns s
  | .linkState port up pfc, s => execLinkState_kept port up pfc s
  | .noticeHoldExpire qp, s => execNoticeHoldExpire_kept qp s
  | .noticeDeliver, s => execNoticeDeliver_kept s
  | .portTrain port peer, s => execPortTrain_kept port peer s
  | .heldRetry port, s => execHeldRetry_kept port s
  | .keyAgree port certOk sigOk secret, s => execKeyAgree_kept port certOk sigOk secret s
  | .keyRenew port secret, s => execKeyRenew_kept port secret s
  | .linkFrameReceive port codewordOk tagOk corrected, s => execLinkFrameReceive_kept port codewordOk tagOk corrected s
  | .portFail port, s => execPortFail_kept port s
  | .linkDown port, s => execLinkDown_kept port s
  | .packetReceive port h payload crc, s => execPacketReceive_kept port h payload crc s
  | .e2eTimeout dst vc pseq, s => execE2eTimeout_kept dst vc pseq s
  | .e2e dst vc pseq, s => execE2e_kept dst vc pseq s
  | .tokenPacket src ptn payload, s => execTokenPacket_kept src ptn payload s
  | .commandPacket src reply elapsed c data status value, s => execCommandPacket_kept src reply elapsed c data status value s
  | .noticePacket src payload, s => execNoticePacket_kept src payload s
  | .gatherReq src ptn payload, s => execGatherReq_kept src ptn payload s
  | .partialPkt src ptn payload, s => execPartialPkt_kept src ptn payload s
  | .sampleReq src ptn payload, s => execSampleReq_kept src ptn payload s
  | .sampleAns src ptn payload, s => execSampleAns_kept src ptn payload s
  | .addBatch src ptn payload, s => execAddBatch_kept src ptn payload s
  | .addAck src ptn payload, s => execAddAck_kept src ptn payload s
  | .chunk src ptn payload, s => execChunk_kept src ptn payload s
  | .chunkNack src coll chunk, s => execChunkNack_kept src coll chunk s
  | .bulk src kind ptn payload, s => execBulk_kept src kind ptn payload s
  | .stragglerExpire coll chunk neighbour, s => execStragglerExpire_kept coll chunk neighbour s
  | .hold src coll chunk, s => execHold_kept src coll chunk s
  | .late coll member elastic, s => execLate_kept coll member elastic s
  | .reform coll mask rfm, s => execReform_kept coll mask rfm s
  | .collAbort ptn grp seq cause detector member sigA sigB, s => execCollAbort_kept ptn grp seq cause detector member sigA sigB s
  | .prepare epoch a drainUs, s => execPrepare_kept epoch a drainUs s
  | .ready src epoch r, s => execReady_kept src epoch r s
  | .drainTimeout epoch, s => execDrainTimeout_kept epoch s
  | .commit epoch a, s => execCommit_kept epoch a s
  | .abort epoch a, s => execAbort_kept epoch a s
  | .drained src table edition, s => execDrained_kept src table edition s
  | .release epoch table edition, s => execRelease_kept epoch table edition s
  | .joinRequest member serial charter quote linkSerial answer, s => execJoinRequest_kept member serial charter quote linkSerial answer s
  | .joinWaitExpire reachable serials charters, s => execJoinWaitExpire_kept reachable serials charters s
  | .probeExpire member, s => execProbeExpire_kept member s
  | .lost epoch member cause routes, s => execLost_kept epoch member cause routes s
  | .routes epoch routes, s => execRoutes_kept epoch routes s
  | .fenceExpire reached, s => execFenceExpire_kept reached s
  | .rebuildPage src table edition page data, s => execRebuildPage_kept src table edition page data s
  | .benchOutOfService hall pbench, s => execBenchOutOfService_kept hall pbench s
  | .benchWatchdog bench, s => execBenchWatchdog_kept bench s
  | .benchCopyDone hall clean, s => execBenchCopyDone_kept hall clean s
  | .stackWithdraw stack cause, s => execStackWithdraw_kept stack cause s
  | .drainForced, s => execDrainForced_kept s
  | .mbctlClaim v, s => execMbctlClaim_kept v s
  | .claimExpire, s => execClaimExpire_kept s
  | .certs, s => execCerts_kept s
  | .quote, s => execQuote_kept s
  | .sessionOpen, s => execSessionOpen_kept s
  | .sessionClose, s => execSessionClose_kept s
  | .zeroise, s => execZeroise_kept s
  | .signersLoad, s => execSignersLoad_kept s
  | .rolesLoad, s => execRolesLoad_kept s
  | .packageLoad, s => execPackageLoad_kept s
  | .tamper sensor, s => execTamper_kept sensor s
  | .entropyTestFail, s => execEntropyTestFail_kept s
  | .powerApplied mv, s => execPowerApplied_kept mv s
  | .powerLoss, s => execPowerLoss_kept s
  | .inputRange mv, s => execInputRange_kept mv s
  | .modRstAssert, s => execModRstAssert_kept s
  | .modRstRelease selfTestOk, s => execModRstRelease_kept selfTestOk s
  | .trainingDone untrained laneSpares badBenches, s => execTrainingDone_kept untrained laneSpares badBenches s
  | .thermalSample temps halls, s => execThermalSample_kept temps halls s
  | .hallTrip hall temp, s => execHallTrip_kept hall temp s
  | .powerCapStep watts, s => execPowerCapStep_kept watts s
  | .pwrRstCold, s => execPwrRstCold_kept s
  | .pwrRstWarm, s => execPwrRstWarm_kept s
  | .pwrCmdDrain, s => execPwrCmdDrain_kept s
  | .pwrCmdRelease, s => execPwrCmdRelease_kept s
  | .pwrT1500dWrite v, s => execPwrT1500dWrite_kept v s
  | .qrnFlush stack, s => execQrnFlush_kept stack s
  | .qrnHrcinv stack, s => execQrnHrcinv_kept stack s
  | .halCctlFlush hall, s => execHalCctlFlush_kept hall s
  | .halCctlInv hall, s => execHalCctlInv_kept hall s
  | .halCctlEn hall en, s => execHalCctlEn_kept hall en s
  | .accclr bench, s => execAccclr_kept bench s
  | .bchVcseed bench seed, s => execBchVcseed_kept bench seed s
  | .halSresume hall mask, s => execHalSresume_kept hall mask s
  | .halDctlOos hall pbench, s => execHalDctlOos_kept hall pbench s
  | .halDctlWd hall stack, s => execHalDctlWd_kept hall stack s
  | .elogClr hall, s => execElogClr_kept hall s
  | .nringClr, s => execNringClr_kept s
  | .rwkGcommitCommit, s => execRwkGcommitCommit_kept s
  | .rwkGcommitDiscard, s => execRwkGcommitDiscard_kept s
  | .registerWrite master addr v, s => execRegisterWrite_kept master addr v s
  | .registerBadAccess master addr len isWrite k, s => execRegisterBadAccess_kept master addr len isWrite k s
  | .sidebandPrivateWrite bytes, s => execSidebandPrivateWrite_kept bytes s
  | .sidebandPrivateRead, s => execSidebandPrivateRead_kept s
  | .setdasa addr, s => execSetdasa_kept addr s
  | .idcode, s => execIdcode_kept s
  | .bypass, s => execBypass_kept s
  | .samplePreload cells, s => execSamplePreload_kept cells s
  | .extest, s => execExtest_kept s
  | .stack1500 stack v, s => execStack1500_kept stack v s
  | .pipeTileArrive k tile, s => execPipeTileArrive_kept k tile s
  | .sampleNeighbourReturn k, s => execSampleNeighbourReturn_kept k s
  | .levelCSumReceive coll chunk guildPos sums, s => execLevelCSumReceive_kept coll chunk guildPos sums s
  | .pairSwitchDone pair through, s => execPairSwitchDone_kept pair through s
  | .pfcPauseExpire port, s => execPfcPauseExpire_kept port s
  | .arpRequest port ip, s => execArpRequest_kept port ip s
  | .neighbourSolicitation port ip, s => execNeighbourSolicitation_kept port ip s
  | .nakReceive qp op reqid entry, s => execNakReceive_kept qp op reqid entry s
  | .rnrRetry qp taken, s => execRnrRetry_kept qp taken s
  | .inputInRange mv, s => execInputInRange_kept mv s
  | .tapReset, s => execTapReset_kept s

/-- The front command, if there is one, is among those by which a reset can come. -/
def State.frontMayReset (s : State) : Bool := s.pending.head?.any mayReset

/-- A step always answers a next state, and it keeps what its front command keeps, or what idling keeps. -/
theorem step_keeps (s : State) : ∃ s', step s = .next s' ∧ Kept (!s.frontMayReset) s.m s'.m := by
  obtain ⟨m, pending⟩ := s
  cases pending with
  | nil =>
    obtain ⟨m', he, hk⟩ := idle_kept { m := m, pending := [] }
    exact ⟨_, he, hk⟩
  | cons c rest =>
    obtain ⟨m', he, hk⟩ := exec_keeps c { m := m, pending := rest }
    exact ⟨_, he, hk⟩

/-- Settles O59: `Kept`, which holds the canonical forms, the units, the fuses and what only grows, holds between the module before any
step and the one after it. -/
theorem canonicalFormsAreKept : Obligations.CanonicalFormsAreKept := by
  intro s s' hs
  obtain ⟨s'', he, hk⟩ := step_keeps s
  cases he.symm.trans hs
  exact ⟨fun ⟨hm, hr⟩ => ⟨hk.mem hm, hk.regs hr⟩,
    fun ⟨hh, hb, hq, hp⟩ => ⟨hk.halls hh, hk.benches hb, hk.querns hq, hk.ptns hp⟩, hk.seed, hk.hard, hk.sent, hk.free⟩

end Sys2Proof.Machine
end

/-! ### Resets by register (O4) -/

section
namespace Sys2Proof.Machine

/-- A claim of the module that a command leaves is one of what it completes with. -/
theorem Leaves.completes {c : Instr} {m m' : Module} {P : Module → Prop} (h : Leaves c m m') (hp : P m') : Completes c m P :=
  fun q => ⟨m', h q, hp⟩

/-! #### Sparse maps: a fold of writes over the entries of another map -/

section
variable {β : Type} [DecidableEq β] {d : Nat → β}

omit [DecidableEq β] in
/-- A key without an entry reads as its default. -/
theorem sparseGet_of_not_mem {l : List (Nat × β)} {k : Nat} (h : ∀ c ∈ l, c.1 ≠ k) : sparseGet d l k = d k := by
  induction l with
  | nil => rfl
  | cons c t ih =>
    rw [sparseGet, if_neg (h c (List.mem_cons_self ..))]
    exact ih fun x hx => h x (List.mem_cons_of_mem _ hx)

omit [DecidableEq β] in
/-- A filter by key keeps what is read at the keys it keeps, and leaves the default at every other. -/
theorem sparseGet_filter (l : List (Nat × β)) (p : Nat → Bool) (k : Nat) :
    sparseGet d (l.filter fun c => p c.1) k = if p k then sparseGet d l k else d k := by
  induction l with
  | nil => exact (ite_self _).symm
  | cons c t ih =>
    by_cases hk : c.1 = k
    · subst hk
      by_cases hp : p c.1 = true
      · rw [List.filter_cons_of_pos (p := fun c : Nat × β => p c.1) hp, sparseGet, if_pos rfl, if_pos hp, sparseGet, if_pos rfl]
      · rw [List.filter_cons_of_neg (p := fun c : Nat × β => p c.1) hp, ih, if_neg hp, if_neg hp]
    · rw [sparseGet, if_neg hk]
      by_cases hp : p c.1 = true
      · rw [List.filter_cons_of_pos (p := fun c : Nat × β => p c.1) hp, sparseGet, if_neg hk, ih]
      · rw [List.filter_cons_of_neg (p := fun c : Nat × β => p c.1) hp, ih]

/-- The entries of a map, each put into a second map as `G` makes it, read back as `G` makes them; every key without an entry reads
as in the second map. -/
theorem sparseGet_foldl_put (G : Nat → β → β) {l acc : List (Nat × β)} (hl : SparseWf d l) (ha : SparseWf d acc) (k : Nat) :
    sparseGet d (l.foldl (fun acc c => sparsePut d acc c.1 (G c.1 c.2)) acc) k =
      if k ∈ l.map Prod.fst then G k (sparseGet d l k) else sparseGet d acc k := by
  induction l generalizing acc with
  | nil => rfl
  | cons c t ih =>
    rw [List.foldl_cons, ih hl.tail (sparsePut_wf ha ..), sparseGet_put ha, sparseGet, List.map_cons]
    by_cases hk : c.1 = k
    · subst hk
      have ht : c.1 ∉ t.map Prod.fst := by
        intro hm
        obtain ⟨x, hx, he⟩ := List.mem_map.mp hm
        exact Nat.ne_of_gt (hl.head_lt x hx) he
      simp [ht]
    · simp only [hk, Ne.symm hk, if_false, List.mem_cons, false_or]

end

/-- The RWS bits of a word stored at an address; every other bit takes its reset value (R10, R502). -/
def rwsPart (a : Nat) (w : Word) : Word :=
  (w &&& BitVec.ofNat 64 (rwsMask a)) ||| (regDefault a &&& ~~~BitVec.ofNat 64 (rwsMask a))

theorem rwsPart_default (a : Nat) : rwsPart a (regDefault a) = regDefault a := by
  refine BitVec.eq_of_getLsbD_eq fun i hi => ?_
  simp only [rwsPart, BitVec.getLsbD_or, BitVec.getLsbD_and, BitVec.getLsbD_not, hi, decide_true, Bool.true_and]
  cases (regDefault a).getLsbD i <;> cases (BitVec.ofNat 64 (rwsMask a)).getLsbD i <;> rfl

theorem rwsPart_unmasked {a : Nat} (h : rwsMask a = 0) (w : Word) : rwsPart a w = regDefault a := by
  unfold rwsPart
  rw [h, BitVec.and_zero, BitVec.zero_or, BitVec.not_zero, BitVec.and_allOnes]

/-- What a warm reset keeps of a register map in canonical form (R502). -/
theorem Module.rwsKept_reg {m : Module} (hw : SparseWf regDefault m.regs) (a : Nat) :
    sparseGet regDefault m.rwsKept a = rwsPart a (m.reg a) := by
  have hf : SparseWf regDefault (m.regs.filter fun r => rwsMask r.1 != 0) := hw.filter _
  have hg := sparseGet_filter (d := regDefault) m.regs (fun a => rwsMask a != 0) a
  refine (sparseGet_foldl_put rwsPart hf sparseWf_nil a).trans ?_
  split
  · rw [hg]
    split
    · rfl
    · next h => rw [rwsPart_default, rwsPart_unmasked (by simpa using h)]
  · next h =>
    have h0 := sparseGet_of_not_mem (d := regDefault) fun c hc e => h (List.mem_map.mpr ⟨c, hc, e⟩)
    rw [hg] at h0
    change regDefault a = _
    split at h0
    · rw [← rwsPart_default a, ← h0]; rfl
    · next h => rw [rwsPart_unmasked (by simpa using h)]

/-! #### The start of BOOT after a reset -/

/-- What each element keeps in a map over a list of units is kept at every number. -/
theorem map_getD_stands {α β : Type} {f : α → α} {g : α → β} (hf : ∀ x, g (f x) = g x) (l : List α) (i : Nat) (d : α) :
    g ((l.map f).getD i d) = g (l.getD i d) := by
  rw [List.getD_eq_getElem?_getD, List.getD_eq_getElem?_getD, List.getElem?_map]
  cases l[i]? with
  | none => rfl
  | some x => exact hf x

/-- From `a` to `b` what a reset has set stands: the cause, local time, registers, absent memory, the fuses and the event logs. Each
field is `rfl` for an update of other fields. -/
structure ResetStands (a b : Module) : Prop where
  cause : b.pwr.rstCause = a.pwr.rstCause := by rfl
  ltime : b.ltime = a.ltime := by rfl
  regs : b.regs = a.regs := by rfl
  mem : a.mem = [] → b.mem = [] := by exact id
  seed : b.asy.seedErased = a.asy.seedErased := by rfl
  hard : ∀ s, (b.quern s).hardUsed = (a.quern s).hardUsed := by exact fun _ => rfl
  elog : ∀ h, (b.hall h).elog = (a.hall h).elog := by exact fun _ => rfl
  elogHead : ∀ h, (b.hall h).elogHead = (a.hall h).elogHead := by exact fun _ => rfl

theorem ResetStands.refl (a : Module) : ResetStands a a := {}

theorem ResetStands.trans {a b c : Module} (h : ResetStands a b) (g : ResetStands b c) : ResetStands a c where
  cause := g.cause.trans h.cause
  ltime := g.ltime.trans h.ltime
  regs := g.regs.trans h.regs
  mem := g.mem ∘ h.mem
  seed := g.seed.trans h.seed
  hard s := (g.hard s).trans (h.hard s)
  elog i := (g.elog i).trans (h.elog i)
  elogHead i := (g.elogHead i).trans (h.elogHead i)

theorem Module.enterMode_mode (m : Module) (x : Mode) : (m.enterMode x).pwr.mode = x := by
  unfold Module.enterMode
  split
  · assumption
  · rfl

theorem Module.enterMode_resetStands (m : Module) (x : Mode) : ResetStands m (m.enterMode x) := by
  unfold Module.enterMode
  split
  · exact .refl m
  · exact {}

theorem Module.setMode_resetStands (m : Module) (x : Mode) : ResetStands m (m.setMode x) := by
  unfold Module.setMode
  split
  · exact .refl m
  · exact m.enterMode_resetStands x

/-- Where no notice waits, none goes out. -/
theorem Module.flushPosted_of_empty {m : Module} (h : m.ctr.posted = []) :
    m.flushPosted = m.setCtr fun c => { c with posted := [] } := by
  unfold Module.flushPosted
  rw [h]
  rfl

theorem Module.clearAccs_mem_nil {m : Module} (h : m.mem = []) (p : Bench → Bool) : (m.clearAccs p).mem = [] := by
  unfold Module.clearAccs
  generalize (List.range 256).filter _ = bs
  induction bs generalizing m with
  | nil => exact h
  | cons b t ih => exact ih (m := m.zeroAcc b) (by change m.mem.zero _ _ = []; rw [h]; rfl)

theorem Module.stopWork_resetStands (m : Module) : ResetStands m m.stopWork where
  cause := by rw [Module.stopWork_pwr]
  ltime := m.stopWork_ltime
  regs := m.stopWork_regs
  mem h := Module.clearAccs_mem_nil h _
  seed := by rw [Module.stopWork_asy]
  hard s := by
    change Quern.hardUsed ((List.map _ (m.clearAccs fun _ => true).querns).getD s {}) = _
    refine (map_getD_stands (g := Quern.hardUsed) ?_ _ s {}).trans ?_
    · exact fun _ => rfl
    · rw [Module.clearAccs_querns]; rfl
  elog h := by
    change Hall.elog ((List.map _ (m.clearAccs fun _ => true).halls).getD h {}) = _
    refine (map_getD_stands (g := Hall.elog) ?_ _ h {}).trans ?_
    · exact fun _ => rfl
    · rw [Module.clearAccs_halls]; rfl
  elogHead h := by
    change Hall.elogHead ((List.map _ (m.clearAccs fun _ => true).halls).getD h {}) = _
    refine (map_getD_stands (g := Hall.elogHead) ?_ _ h {}).trans ?_
    · exact fun _ => rfl
    · rw [Module.clearAccs_halls]; rfl

/-- A module that has posted nothing enters FAULTED: what a reset has set stands. -/
theorem Module.enterFaulted_resetStands {m : Module} (hp : m.ctr.posted = []) : ResetStands m m.enterFaulted := by
  unfold Module.enterFaulted
  rw [Module.flushPosted_of_empty hp]
  have h0 : ResetStands m (m.setCtr fun c => { c with posted := [] }) := {}
  have h1 := h0.trans (Module.setMode_resetStands _ .faulted)
  refine ResetStands.trans (b := Module.stopWork _) ((h1.trans ?_).trans (Module.stopWork_resetStands _)) {}
  exact {}

theorem Module.enterFaulted_mode {m : Module} (h : m.pwr.mode ≠ .off) : m.enterFaulted.pwr.mode = .faulted := by
  unfold Module.enterFaulted
  change (Module.stopWork _).pwr.mode = _
  rw [Module.stopWork_pwr]
  change (m.flushPosted.setMode .faulted).pwr.mode = _
  unfold Module.setMode
  rw [Module.flushPosted_pwr]
  split
  · next hm => rw [Module.flushPosted_pwr]; exact hm.resolve_left h
  · exact Module.enterMode_mode _ _

/-- A boot failure of a module that is not OFF and has posted nothing. -/
theorem Module.bootFail_stands {m : Module} (hp : m.ctr.posted = []) (h : m.pwr.mode ≠ .off) (step fail : Nat) :
    ResetStands m (m.bootFail step fail) ∧ (m.bootFail step fail).pwr.mode = .faulted := by
  have h0 : ResetStands m (m.setAsy fun a => { a with bootstep := step, fail := fail })  := {}
  exact ⟨h0.trans (Module.enterFaulted_resetStands hp), Module.enterFaulted_mode h⟩

/-- What BOOT starts with after a reset: step 2, or FAULTED where a self-test fails or the identity seed is gone (R473, R474, R483). -/
theorem Module.bootStart_stands {m : Module} (hp : m.ctr.posted = []) (ok : Bool) :
    ResetStands m (m.bootStart ok) ∧
    ((m.bootStart ok).pwr.mode = .boot ∧ (m.bootStart ok).asy.bootstep = 2 ∨ (m.bootStart ok).pwr.mode = .faulted) ∧
    (m.asy.seedErased = true → (m.bootStart ok).pwr.mode = .faulted) := by
  have hb := m.enterMode_resetStands .boot
  have hm := m.enterMode_mode .boot
  have hn : (m.enterMode .boot).pwr.mode ≠ .off := by rw [hm]; decide
  have hp' : (m.enterMode .boot).ctr.posted = [] := by rw [Module.enterMode_ctr]; exact hp
  unfold Module.bootStart
  dsimp only
  split
  · obtain ⟨hs, hf⟩ := Module.bootFail_stands hp' hn 1 1
    exact ⟨hb.trans hs, .inr hf, fun _ => hf⟩
  split
  · obtain ⟨hs, hf⟩ := Module.bootFail_stands hp' hn 2 4
    exact ⟨hb.trans hs, .inr hf, fun _ => hf⟩
  · next he =>
    exact ⟨hb.trans {}, .inl ⟨hm, rfl⟩, fun h => absurd (hb.seed.trans h) he⟩

/-! #### PWR_RST -/

theorem Module.blank_hardUsed (m : Module) (s : Nat) : (m.blank.quern s).hardUsed = (m.quern s).hardUsed := by
  change Quern.hardUsed ((List.map _ m.querns).getD s {}) = _
  refine (map_getD_stands (g := Quern.hardUsed) ?_ _ s {}).trans rfl
  exact fun _ => rfl

/-- A warm reset keeps the event log of every hall (R502). -/
theorem Module.warmReset_log {m : Module} (hl : m.halls.length = 4) {h : Nat} (hh : h < 4) :
    (m.warmReset.hall h).elog = (m.hall h).elog ∧ (m.warmReset.hall h).elogHead = (m.hall h).elogHead := by
  have hx : m.halls[h]? = some (m.hall h) := by simp [Module.hall, List.getD_eq_getElem?_getD, hl, hh]
  have hz : ((List.replicate 4 ({} : Hall)).zip m.halls)[h]? = some ({}, m.hall h) :=
    List.getElem?_zip_eq_some.mpr ⟨List.getElem?_replicate_of_lt hh, hx⟩
  have e : m.warmReset.hall h = { ({} : Hall) with elog := (m.hall h).elog, elogHead := (m.hall h).elogHead } := by
    change (List.map _ ((List.replicate 4 ({} : Hall)).zip m.halls)).getD h ({} : Hall) = _
    rw [List.getD_eq_getElem?_getD, List.getElem?_map, hz]
    rfl
  rw [e]
  exact ⟨rfl, rfl⟩

theorem leaves_pwrRstCold (m : Module) : Leaves .pwrRstCold m m.resetCold := fun _ => rfl

theorem leaves_pwrRstWarm (m : Module) : Leaves .pwrRstWarm m m.resetWarm := fun _ => rfl

/-- A cold reset by register: the block it leaves is blank, with cause 2 and local time zero, and BOOT starts on it (R502). -/
theorem Module.resetCold_powered {m : Module} (hi : m.pwr.input = true) (hr : m.pwr.rstLow = false) :
    ∃ (m0 : Module) (ok : Bool), m.resetCold = m0.bootStart ok ∧ m0.ctr.posted = [] ∧ m0.pwr.rstCause = 2 ∧ m0.ltime = 0 ∧
      m0.regs = [] ∧ m0.mem = [] ∧ m0.asy.seedErased = m.asy.seedErased ∧ ∀ s, (m0.quern s).hardUsed = (m.quern s).hardUsed := by
  unfold Module.resetCold
  rw [if_neg (by simp [hi, hr])]
  exact ⟨_, _, rfl, rfl, rfl, rfl, rfl, rfl, rfl, fun s => Module.blank_hardUsed (m.pick 2).2 s⟩

/-- A warm reset by register: like a cold one, with cause 3, but local time stands, and RWS fields and the event logs stay (R502). -/
theorem Module.resetWarm_running {m : Module} (ho : m.pwr.mode ≠ .off) (hf : m.pwr.mode ≠ .faulted) :
    ∃ ok : Bool, m.resetWarm = (m.pick 2).2.warmReset.bootStart ok := by
  unfold Module.resetWarm
  rw [if_neg (by simp [ho, hf])]
  exact ⟨_, rfl⟩

/-- Settles O4: a reset is a blank block with what R502 keeps, on which BOOT starts, and the start of BOOT changes none of it. -/
theorem registerResetsKeepWhatR502Says : Obligations.RegisterResetsKeepWhatR502Says := by
  intro m hw
  refine ⟨fun hi hr => ?cold, fun h => ?coldIgnored, fun ho hf => ?warm, fun h => ?warmIgnored⟩
  case cold =>
    obtain ⟨m0, ok, he, hp, hcause, htime, hregs, hmem, hseed, hhard⟩ := Module.resetCold_powered hi hr
    obtain ⟨hs, hmode, hgone⟩ := Module.bootStart_stands hp ok
    refine (leaves_pwrRstCold m).completes ?_
    rw [he]
    exact ⟨hmode, fun h => hgone (hseed.trans h), hs.cause.trans hcause, hs.ltime.trans htime, hs.regs.trans hregs, hs.mem hmem,
      hs.seed.trans hseed, fun s => (hs.hard s).trans (hhard s)⟩
  case coldIgnored =>
    have e : m.resetCold = m := by
      unfold Module.resetCold
      exact if_pos (by rcases h with h | h <;> simp [h])
    simpa only [e] using leaves_pwrRstCold m
  case warm =>
    obtain ⟨ok, he⟩ := Module.resetWarm_running ho hf
    obtain ⟨hs, hmode, hgone⟩ := Module.bootStart_stands (m := (m.pick 2).2.warmReset) rfl ok
    refine (leaves_pwrRstWarm m).completes ?_
    rw [he]
    refine ⟨hmode, hgone, hs.cause, hs.ltime, hs.mem rfl, fun a => ?_, fun hl h hh => ?_, hs.seed,
      fun s => (hs.hard s).trans (Module.blank_hardUsed _ s)⟩
    · unfold Module.reg
      rw [hs.regs]
      exact Module.rwsKept_reg hw a
    · obtain ⟨hlog, hhead⟩ := Module.warmReset_log (m := (m.pick 2).2) hl hh
      exact ⟨(hs.elog h).trans hlog, (hs.elogHead h).trans hhead⟩
  case warmIgnored =>
    have e : m.resetWarm = m := if_pos h
    simpa only [e] using leaves_pwrRstWarm m

end Sys2Proof.Machine
end

/-! ### Register accesses (O12, O13) -/

section
namespace Sys2Proof.Machine

/-! #### REGISTER_WRITE, by what its check answers -/

section
variable {m : Module} {M : BitVec 12} {a : Nat}

/-- A write to an unaligned address does nothing (R8). -/
theorem leaves_registerWrite_unaligned (ha : a % 8 ≠ 0) (v : Word) : Leaves (.registerWrite M a v) m m := by
  intro q
  change execRegisterWrite M a v _ = _
  rw [execRegisterWrite, State.on_eq, if_pos (by simp [ha])]

/-- A write that the access tables allow writes its register. -/
theorem leaves_registerWrite_allowed (ha : a % 8 = 0) (hr : m.reaches a = true) (hd : m.regDenied M.toNat a true = none) (v : Word) :
    Leaves (.registerWrite M a v) m (m.writeReg a v.toNat) := by
  intro q
  change execRegisterWrite M a v _ = _
  rw [execRegisterWrite, State.on_eq, if_neg (by simp [ha, hr]), hd]

/-- A write that the access tables deny is recorded as a denial, and writes nothing. -/
theorem leaves_registerWrite_denied (ha : a % 8 = 0) (hr : m.reaches a = true) {c t perm : Nat}
    (hd : m.regDenied M.toNat a true = some (c, t, perm)) (v : Word) :
    Leaves (.registerWrite M a v) m (m.denyReg M.toNat c t perm) := by
  intro q
  change execRegisterWrite M a v _ = _
  rw [execRegisterWrite, State.on_eq, if_neg (by simp [ha, hr]), hd]

end

/-! #### REGISTER_BAD_ACCESS (O13) -/

/-- What goes out for an access to register space that R8 does not perform: all ones for a read, nothing for a write. -/
def Module.answerBad (m : Module) (write : Bool) : Module := if write then m else m.send (.regRead (BitVec.allOnes 64))

theorem Module.firing_answerBad (m : Module) (write : Bool) (k : FKey) : (m.answerBad write).firing k = m.firing k := by
  cases write <;> rfl

section
variable {m : Module} {M : BitVec 12} {a len : Nat} (write : Bool) (hr : m.reaches a = true) (hb : badRegAccess a len = true)
  (hM : M.toNat ≠ mgmtMaster)
include hr hb hM

/-- An access that R8 does not perform, made by no firing, is answered and does nothing else. -/
theorem leaves_registerBadAccess : Leaves (.registerBadAccess M a len write none) m (m.answerBad write) := by
  intro q
  change execRegisterBadAccess M a len write none _ = _
  rw [execRegisterBadAccess, State.on_eq, if_neg (by simp [hr, hb, hM])]
  rfl

/-- An access that R8 does not perform, made by a firing that has not ended, is answered and ends the firing. -/
theorem leaves_registerBadAccess_firing {k : FKey} {f : Firing} (hf : m.firing k = some f) (hn : f.e.ran = false) :
    Leaves (.registerBadAccess M a len write (some k)) m ((m.answerBad write).finish f stFaultAddress) := by
  intro q
  have hf' : (some k).bind (m.answerBad write).firing = some f := (m.firing_answerBad write k).trans hf
  change execRegisterBadAccess M a len write (some k) _ = _
  rw [execRegisterBadAccess, State.on_eq, if_neg (by simp [hr, hb, hM])]
  rw [Module.answerBad] at hf' ⊢
  dsimp only
  rw [hf']
  dsimp only
  rw [if_neg (by simp [hn])]

end

/-- Settles O13: such an access is answered without a look at any register, and `Module.finish_spec` says how the node that made it
ends, since FAULT_ADDRESS is a status without a valid result. -/
theorem unalignedRegisterAccessesAreNotPerformed : Obligations.UnalignedRegisterAccessesAreNotPerformed := by
  intro m M a len
  refine ⟨fun ha v => leaves_registerWrite_unaligned ha v, fun hr hlo hhi hbad hM => ?_⟩
  have hb : badRegAccess a len = true := by simp [badRegAccess, hlo, hhi, hbad]
  refine ⟨leaves_registerBadAccess false hr hb hM, leaves_registerBadAccess true hr hb hM, fun k f write hf hn => ?_⟩
  obtain ⟨hrun, hmem, hframe, hsent, hstands⟩ := Module.finish_spec ((m.firing_answerBad write k).trans hf) stFaultAddress
  obtain ⟨-, hregs⟩ := hstands rfl
  refine (leaves_registerBadAccess_firing write hr hb hM hf hn).completes ⟨hrun, ?_⟩
  cases write with
  | false => exact ⟨hmem, hframe, hregs, hsent⟩
  | true => exact ⟨hmem, hframe, hregs, hsent.trans (List.append_nil _).symm⟩

/-! #### Stored fields of a register (O12) -/

/-- The bits of a register that a write stores: its RW, RWS and RWL fields, but those that a draft in force locks (R10, R71, R75). -/
def Module.storeMask (m : Module) (b : Block) (unit off : Nat) : Word :=
  BitVec.ofNat 64 ((regRow b off).rw ||| (regRow b off).rws ||| (regRow b off).rwl) &&&
    ~~~(BitVec.ofNat 64 (if b = .hal ∧ off = 0 then m.lockedBits unit else 0))

/-- A draft locks bits of HAL_MCTL alone. -/
theorem Module.storeMask_unlocked (m : Module) {b : Block} (u : Nat) {off : Nat} (h : ¬(b = .hal ∧ off = 0)) :
    m.storeMask b u off = BitVec.ofNat 64 ((regRow b off).rw ||| (regRow b off).rws ||| (regRow b off).rwl) := by
  unfold Module.storeMask
  rw [if_neg h]
  exact BitVec.and_allOnes

section
variable {m : Module} {b : Block} {u off a v : Nat}

/-- Outside BOOT a register that takes writes only there stands. -/
theorem Module.storeReg_bootOnly (hb : bootOnly b off = true) (hm : m.pwr.mode ≠ .boot) : m.storeReg b u off a v = m := by
  unfold Module.storeReg
  exact if_pos (by simp [hb, hm])

/-- A 1 in a write-1-to-clear bit clears the record. -/
theorem Module.storeReg_clear (hb : bootOnly b off = false) (hc : BitVec.ofNat 64 v &&& BitVec.ofNat 64 (regRow b off).w1c ≠ 0) :
    m.storeReg b u off a v = m.setReg a 0 := by
  unfold Module.storeReg
  exact (if_neg (by simp [hb])).trans (if_pos hc)

/-- A register without a field to store stands. -/
theorem Module.storeReg_none (hc : BitVec.ofNat 64 v &&& BitVec.ofNat 64 (regRow b off).w1c = 0) (hs : m.storeMask b u off = 0) :
    m.storeReg b u off a v = m := by
  unfold Module.storeReg
  refine ite_eq_left_iff.mpr fun _ => (if_neg (not_not_intro hc)).trans (if_pos hs)

/-- Stored fields take what is written, as far as the register's limits let them; every other bit stands. -/
theorem Module.storeReg_fields (hb : bootOnly b off = false ∨ m.pwr.mode = .boot)
    (hc : BitVec.ofNat 64 v &&& BitVec.ofNat 64 (regRow b off).w1c = 0) (hs : m.storeMask b u off ≠ 0) :
    m.storeReg b u off a v = m.setReg a (m.reg a &&& ~~~m.storeMask b u off |||
      BitVec.ofNat 64 (clampReg b off (m.reg a).toNat (BitVec.ofNat 64 v &&& m.storeMask b u off).toNat)) := by
  unfold Module.storeReg
  refine (if_neg ?_).trans ((if_neg (not_not_intro hc)).trans (if_neg hs))
  rcases hb with h | h <;> simp [h]

end

/-! #### The words that stored fields hold -/

/-- No register of CHIP but CHIP_SCRATCH has a field that a write stores or clears (R32). -/
theorem regRow_chip_readOnly {off : Nat} (h : off ≠ 0x018) :
    (regRow .chip off).rw = 0 ∧ (regRow .chip off).rws = 0 ∧ (regRow .chip off).rwl = 0 ∧ (regRow .chip off).w1c = 0 := by
  unfold regRow
  cases hf : (blockRows .chip).find? _ with
  | none => exact ⟨rfl, rfl, rfl, rfl⟩
  | some r =>
    have hr := List.mem_of_find?_eq_some hf
    have ho := List.find?_some hf
    simp only [blockRows, rowsChip, List.mem_cons, List.not_mem_nil, or_false] at hr
    rcases hr with rfl | rfl | rfl
    · exact ⟨rfl, rfl, rfl, rfl⟩
    · exact ⟨rfl, rfl, rfl, rfl⟩
    · simp only [decide_eq_true_eq] at ho
      omega

/-- A word whose low bits are replaced. -/
def replaceLow (n : Nat) (r : Word) (x : Nat) : Word := r &&& ~~~BitVec.ofNat 64 (2 ^ n - 1) ||| BitVec.ofNat 64 x

theorem toNat_replaceLow_mod (r : Word) {n x : Nat} (hn : n ≤ 64) (hx : x < 2 ^ n) : (replaceLow n r x).toNat % 2 ^ n = x := by
  refine Nat.eq_of_testBit_eq fun i => ?_
  rw [Nat.testBit_mod_two_pow]
  by_cases hi : i < n
  · have h64 : i < 64 := by omega
    rw [replaceLow, BitVec.testBit_toNat, BitVec.getLsbD_or, BitVec.getLsbD_and, BitVec.getLsbD_not, BitVec.getLsbD_ofNat,
      BitVec.getLsbD_ofNat, Nat.testBit_two_pow_sub_one]
    simp [hi, h64]
  · have : x < 2 ^ i := Nat.lt_of_lt_of_le hx (Nat.pow_le_pow_right (by decide) (by omega))
    simp [hi, Nat.testBit_lt_two_pow this]

theorem toNat_ofNat_ones {n : Nat} (hn : n ≤ 64) : (BitVec.ofNat 64 (2 ^ n - 1)).toNat = 2 ^ n - 1 := by
  have := Nat.pow_le_pow_right (n := 2) (by decide) hn
  have := Nat.two_pow_pos n
  exact (BitVec.toNat_ofNat _ _).trans (Nat.mod_eq_of_lt (by omega))

theorem toNat_and_ones (v : Word) {n : Nat} (hn : n ≤ 64) : (v &&& BitVec.ofNat 64 (2 ^ n - 1)).toNat = v.toNat % 2 ^ n := by
  rw [BitVec.toNat_and, toNat_ofNat_ones hn, Nat.and_two_pow_sub_one_eq_mod]

/-- A field from bit 0 on. -/
theorem Module.fld_low (m : Module) (a w : Nat) : m.fld a 0 w = (m.reg a).toNat % 2 ^ w := by
  unfold Module.fld bitsOf
  rw [Nat.pow_zero, Nat.div_one]

/-- Bit 63 of a word alone. -/
theorem and_bit63_eq_zero (v : Word) : v &&& BitVec.ofNat 64 0x8000000000000000 = 0 ↔ v.getLsbD 63 = false := by
  constructor
  · intro h
    have := congrArg (·.getLsbD 63) h
    simpa using this
  · intro h
    refine BitVec.eq_of_getLsbD_eq fun i hi => ?_
    by_cases e : i = 63
    · rw [e, BitVec.getLsbD_and, h, Bool.false_and]; rfl
    · have : (BitVec.ofNat 64 0x8000000000000000).getLsbD i = false := by
        rw [BitVec.getLsbD_ofNat, show (0x8000000000000000 : Nat) = 2 ^ 63 from rfl, Nat.testBit_two_pow_of_ne (Ne.symm e), Bool.and_false]
      simp [this]

/-! #### One register at a time -/

/-- Between `m` and `m'` no register but the one at `a` changes, and no other field of the module. -/
def OnlyReg (m m' : Module) (a : Nat) : Prop := (∀ b, b ≠ a → m'.reg b = m.reg b) ∧ m' = { m with regs := m'.regs }

theorem onlyReg_refl (m : Module) (a : Nat) : OnlyReg m m a := ⟨fun _ _ => rfl, rfl⟩

theorem onlyReg_setReg (m : Module) (a : Nat) (w : Word) : OnlyReg m (m.setReg a w) a :=
  ⟨fun _ hb => Module.reg_setReg_ne m w hb, rfl⟩

section
variable {m : Module} {a : Nat} {v : Word} {b : Block} {u off : Nat}

/-- A write that only stores into the low bits of a register leaves there what the register's limits make of the bits written, and
changes no other register and no other field of the module (R10). -/
theorem Module.writeReg_lowBits {n : Nat} (hw : SparseWf regDefault m.regs)
    (hl : m.writeReg a v.toNat = m.storeReg b u off a v.toNat) (hu : ¬(b = .hal ∧ off = 0)) (hn : 0 < n ∧ n ≤ 64)
    (hm : (regRow b off).rw ||| (regRow b off).rws ||| (regRow b off).rwl = 2 ^ n - 1) (hc : (regRow b off).w1c = 0)
    (hb : bootOnly b off = false ∨ m.pwr.mode = .boot) (hx : clampReg b off (m.reg a).toNat (v.toNat % 2 ^ n) < 2 ^ n) :
    ((m.writeReg a v.toNat).reg a).toNat % 2 ^ n = clampReg b off (m.reg a).toNat (v.toNat % 2 ^ n) ∧
      OnlyReg m (m.writeReg a v.toNat) a := by
  have hs : m.storeMask b u off = BitVec.ofNat 64 (2 ^ n - 1) := by rw [m.storeMask_unlocked u hu, hm]
  have h0 : m.storeMask b u off ≠ 0 := by
    intro e
    have h1 : (0 : Word).toNat = 2 ^ n - 1 := by rw [← toNat_ofNat_ones hn.2, ← hs, e]
    have h2 := Nat.one_lt_two_pow (Nat.ne_of_gt hn.1)
    change 0 = _ at h1
    omega
  have hc' : BitVec.ofNat 64 v.toNat &&& BitVec.ofNat 64 (regRow b off).w1c = 0 := by rw [hc]; exact BitVec.and_zero
  have h : m.writeReg a v.toNat = m.setReg a (replaceLow n (m.reg a) (clampReg b off (m.reg a).toNat (v.toNat % 2 ^ n))) := by
    rw [hl, Module.storeReg_fields hb hc' h0, hs, BitVec.ofNat_toNat, BitVec.setWidth_eq, toNat_and_ones v hn.2, replaceLow]
  rw [h]
  refine ⟨?_, onlyReg_setReg m a _⟩
  rw [Module.reg_setReg hw, if_pos rfl]
  exact toNat_replaceLow_mod _ hn.2 hx

end

section
variable {m : Module} (v : Word)

/-- CHIP_SCRATCH is stored whole (R32). -/
theorem Module.writeReg_scratch (hw : SparseWf regDefault m.regs) :
    (m.writeReg (chipR 0x018) v.toNat).reg (chipR 0x018) = v ∧ OnlyReg m (m.writeReg (chipR 0x018) v.toNat) (chipR 0x018) := by
  have hl : m.writeReg (chipR 0x018) v.toNat = m.storeReg .chip 0 0x018 (chipR 0x018) v.toNat := rfl
  obtain ⟨hv, ho⟩ := Module.writeReg_lowBits (n := 64) hw hl (by decide) (by decide) (by decide) rfl (.inl rfl)
    (Nat.mod_lt _ (by decide))
  refine ⟨BitVec.eq_of_toNat_eq ?_, ho⟩
  rw [← Nat.mod_eq_of_lt (BitVec.isLt (Module.reg _ _)), hv]
  exact Nat.mod_eq_of_lt v.isLt

/-- PWR_CAP takes the written 12 bits, moved into its range (R515). -/
theorem Module.writeReg_cap (hw : SparseWf regDefault m.regs) :
    (m.writeReg (pwrR 0x020) v.toNat).fld (pwrR 0x020) 0 12 = min 2700 (max 1200 (v.toNat % 4096)) ∧
      OnlyReg m (m.writeReg (pwrR 0x020) v.toNat) (pwrR 0x020) := by
  have hl : m.writeReg (pwrR 0x020) v.toNat = m.storeReg .pwr 0 0x020 (pwrR 0x020) v.toNat := rfl
  have hx : clampReg .pwr 0x020 (m.reg (pwrR 0x020)).toNat (v.toNat % 2 ^ 12) = min 2700 (max 1200 (v.toNat % 4096)) := by
    simp [clampReg, bitsOf]
  obtain ⟨hv, ho⟩ := Module.writeReg_lowBits (n := 12) hw hl (by decide) (by decide) (by decide) rfl (.inl rfl) (by rw [hx]; omega)
  exact ⟨(Module.fld_low _ _ 12).trans (hv.trans hx), ho⟩

/-- FAB_GCFG takes the written 15 bits in BOOT (R410). -/
theorem Module.writeReg_gcfg_boot (hw : SparseWf regDefault m.regs) (hm : m.pwr.mode = .boot) :
    (m.writeReg (fabR 0x000) v.toNat).fld (fabR 0x000) 0 15 = v.toNat % 2 ^ 15 ∧
      OnlyReg m (m.writeReg (fabR 0x000) v.toNat) (fabR 0x000) := by
  have hl : m.writeReg (fabR 0x000) v.toNat = m.storeReg .fab 0 0x000 (fabR 0x000) v.toNat := rfl
  obtain ⟨hv, ho⟩ := Module.writeReg_lowBits (n := 15) hw hl (by decide) (by decide) (by decide) rfl (.inr hm)
    (Nat.mod_lt _ (by decide))
  exact ⟨(Module.fld_low _ _ 15).trans hv, ho⟩

/-- PTNp_DFLOOR is only raised, and reads as it is stored (R91). -/
theorem Module.writeReg_dfloor (hw : SparseWf regDefault m.regs) {p : Nat} (hp : p < 8) :
    ((m.writeReg (ptnR p 0x18) v.toNat).readReg (ptnR p 0x18)).toNat = max (m.reg (ptnR p 0x18)).toNat v.toNat ∧
      OnlyReg m (m.writeReg (ptnR p 0x18) v.toNat) (ptnR p 0x18) := by
  have hu : ∀ p < 8, regLocate (ptnR p 0x18) = some (.ptng, p, 0x18) := by decide
  have hl : m.writeReg (ptnR p 0x18) v.toNat = m.storeReg .ptng p 0x18 (ptnR p 0x18) v.toNat := by
    unfold Module.writeReg; rw [hu p hp]; rfl
  have hx : clampReg .ptng 0x18 (m.reg (ptnR p 0x18)).toNat (v.toNat % 2 ^ 64) = max (m.reg (ptnR p 0x18)).toNat v.toNat := by
    rw [Nat.mod_eq_of_lt v.isLt]; rfl
  obtain ⟨hv, ho⟩ := Module.writeReg_lowBits (n := 64) hw hl (by decide) (by decide) (by decide) rfl (.inl rfl)
    (by rw [hx]; exact Nat.max_lt.mpr ⟨BitVec.isLt _, v.isLt⟩)
  refine ⟨?_, ho⟩
  unfold Module.readReg
  rw [hu p hp, ← hx, ← hv]
  rfl

/-- Every register of CHIP but CHIP_SCRATCH stands (R32). -/
theorem Module.writeReg_chip_readOnly {off : Nat} (ho : off < 0x1000) (h : off ≠ 0x018) : m.writeReg (chipR off) v.toNat = m := by
  have hl : regLocate (chipR off) = some (.chip, 0, off) := by
    unfold regLocate chipR
    rw [if_pos (by omega), Nat.add_sub_cancel_left]
  obtain ⟨hrw, hrws, hrwl, hw1c⟩ := regRow_chip_readOnly h
  unfold Module.writeReg
  rw [hl]
  change m.storeReg .chip 0 off (chipR off) v.toNat = m
  refine Module.storeReg_none ?_ ?_
  · rw [hw1c]; exact BitVec.and_zero
  · rw [m.storeMask_unlocked 0 (by simp), hrw, hrws, hrwl]; rfl

/-- A write of HAL_SHALT has no action beside what it stores. -/
theorem Module.writeReg_shalt_store {a h : Nat} (hl : regLocate a = some (.hal, h, 0x238)) :
    m.writeReg a v.toNat = m.storeReg .hal h 0x238 a v.toNat := by
  unfold Module.writeReg
  rw [hl]
  rfl

/-- HAL_SHALT is cleared by a 1 in its valid bit, and takes no other write (R348). -/
theorem Module.writeReg_shalt (hw : SparseWf regDefault m.regs) {h : Nat} (hh : h < 4) :
    (m.writeReg (halR h 0x238) v.toNat).reg (halR h 0x238) = (if v.getLsbD 63 then 0 else m.reg (halR h 0x238)) ∧
      OnlyReg m (m.writeReg (halR h 0x238) v.toNat) (halR h 0x238) := by
  have hl : ∀ h < 4, regLocate (halR h 0x238) = some (.hal, h, 0x238) := by decide
  have hc : BitVec.ofNat 64 v.toNat &&& BitVec.ofNat 64 (regRow .hal 0x238).w1c = 0 ↔ v.getLsbD 63 = false := by
    rw [show (regRow .hal 0x238).w1c = 0x8000000000000000 by decide, BitVec.ofNat_toNat, BitVec.setWidth_eq, and_bit63_eq_zero]
  rw [Module.writeReg_shalt_store v (hl h hh)]
  split
  · next hv =>
    have h1 : BitVec.ofNat 64 v.toNat &&& BitVec.ofNat 64 (regRow .hal 0x238).w1c ≠ 0 := fun e => by
      rw [hc.mp e] at hv; cases hv
    rw [Module.storeReg_clear rfl h1]
    exact ⟨(Module.reg_setReg hw ..).trans (if_pos rfl), onlyReg_setReg m _ 0⟩
  · next hv =>
    have h0 : m.storeMask .hal h 0x238 = 0 := by rw [m.storeMask_unlocked h (by decide)]; decide
    rw [Module.storeReg_none (hc.mpr (Bool.eq_false_iff.mpr hv)) h0]
    exact ⟨rfl, onlyReg_refl m _⟩

/-- FAB_GCFG stands outside BOOT (R410). -/
theorem Module.writeReg_gcfg_locked (hm : m.pwr.mode ≠ .boot) : m.writeReg (fabR 0x000) v.toNat = m := by
  unfold Module.writeReg
  rw [show regLocate (fabR 0x000) = some (.fab, 0, 0x000) from rfl]
  exact Module.storeReg_bootOnly rfl hm

/-- The denial of a master of no partition changes ASY_ACNT and ASY_AFAULT only (R489). -/
theorem Module.denyReg_unpartitioned (m : Module) {M c t perm : Nat} (hM : masterPtn M = none) :
    let m' := m.denyReg M c t perm
    (∀ b, b ≠ asyR 0x028 → b ≠ asyR 0x030 → m'.reg b = m.reg b) ∧ m' = { m with regs := m'.regs } := by
  unfold Module.denyReg
  rw [hM]
  dsimp only
  split
  · exact ⟨fun _ hb _ => Module.reg_count_ne m _ _ _ hb, rfl⟩
  · exact ⟨fun _ hb hb' => (Module.reg_setReg_ne _ _ hb').trans (Module.reg_count_ne m _ _ _ hb), rfl⟩

end

/-- Settles O12: an allowed write is `Module.writeReg`, and the lemma on the register says what that leaves; a denied one is
`Module.denyReg`. -/
theorem registerWritesFollowAccessCodes : Obligations.RegisterWritesFollowAccessCodes := by
  intro m M v hw
  refine ⟨fun a ha hr hd => ?_, fun a ha hr hd hM => ?_⟩
  · have hwrite := leaves_registerWrite_allowed ha hr hd v
    refine ⟨?scratch, ?cap, ?dfloor, ?shalt, ?chip, ?gcfg⟩
    case scratch =>
      rintro rfl
      obtain ⟨hv, ho⟩ := Module.writeReg_scratch v hw
      exact hwrite.completes ⟨hv, (BitVec.ofNat_toNat ..).trans ((BitVec.setWidth_eq _).trans hv), ho⟩
    case cap => rintro rfl; exact hwrite.completes (Module.writeReg_cap v hw)
    case dfloor => rintro p hp rfl; exact hwrite.completes (Module.writeReg_dfloor v hw hp)
    case shalt => rintro h hh rfl; exact hwrite.completes (Module.writeReg_shalt v hw hh)
    case chip => rintro off ho hne rfl; rwa [Module.writeReg_chip_readOnly v ho hne] at hwrite
    case gcfg =>
      rintro rfl
      exact ⟨fun hm => hwrite.completes (Module.writeReg_gcfg_boot v hw hm),
        fun hm => by rwa [Module.writeReg_gcfg_locked v hm] at hwrite⟩
  · obtain ⟨⟨c, t, perm⟩, hd⟩ := Option.isSome_iff_exists.mp hd
    exact (leaves_registerWrite_denied ha hr hd v).completes (m.denyReg_unpartitioned hM)

end Sys2Proof.Machine
end

/-! ### Steps and the reset state (O57, O58, O60) -/

section
namespace Sys2Proof.Machine

/-- Settles O60: `Kept` with `run` says that OFF and FAULTED are not left and that time does not go back, and it holds over every step
whose front command can bring no reset. -/
theorem onlyResetsLeaveOffAndFaulted : Obligations.OnlyResetsLeaveOffAndFaulted := by
  intro s s' hfront hs
  obtain ⟨s'', he, hk⟩ := step_keeps s
  cases he.symm.trans hs
  have hrun : (!s.frontMayReset) = true := by
    rw [Bool.not_eq_true', State.frontMayReset, Option.any_eq_false]
    exact fun c hc => Bool.not_eq_true _ ▸ hfront c hc
  exact ⟨hk.off hrun, hk.faulted hrun, hk.ltime hrun⟩

/-- Settles O57: both are what `step` and `idle` say of each form of the queue. -/
theorem stepRunsTheFrontCommand : Obligations.StepRunsTheFrontCommand := by
  refine ⟨fun c m rest => rfl, fun m => ⟨fun h => ?_, fun h => ?_⟩⟩
  · change idle _ = _
    rw [idle, State.on_eq, if_pos h]
  · change idle _ = _
    rw [idle, State.on_eq, if_neg (by simp [h])]

/-- Settles O58: the reset state is the module of default fields, and each field of the register tables is a closed value. -/
theorem resetStateHoldsTheSpecsValues : Obligations.ResetStateHoldsTheSpecsValues := by
  unfold Obligations.ResetStateHoldsTheSpecsValues
  refine ⟨⟨sparseWf_nil, sparseWf_nil⟩, ⟨rfl, ?benches, rfl, rfl⟩, rfl, rfl, rfl, rfl, rfl, rfl, rfl, rfl, rfl, ?fields⟩
  case benches => simp [State.reset]
  case fields => decide

end Sys2Proof.Machine
end

/-! ### Input power and MOD_RST_N (O1, O3) -/

section
namespace Sys2Proof.Machine

/-! #### POWER_APPLIED and POWER_LOSS (O1) -/

/-- The block as its input power brings it up: blank, with MOD_PWRGD high and VIN holding the input (R500 steps 1 and 2). -/
def Module.poweredUp (m : Module) (mv : Nat) : Module :=
  { m.blank with pwr := { input := true, pwrgd := true, rstLow := m.pwr.rstLow, vin := mv } }

section
variable {m : Module} {mv : Nat}

/-- An input within 38.0 to 52.0 V brings up a module without power; the extended range begins an excursion (R494). -/
theorem leaves_powerApplied (hi : m.pwr.input = false) (hlo : 38000 ≤ mv) (hhi : mv ≤ 52000) :
    Leaves (.powerApplied mv) m (if inExtended mv then (m.poweredUp mv).enterExtended mv else m.poweredUp mv) := by
  intro q
  change execPowerApplied mv _ = _
  rw [execPowerApplied, State.on_eq, if_neg (by simp [hi, hlo, hhi])]
  rfl

/-- A powered module takes no power-on. -/
theorem leaves_powerApplied_powered (hi : m.pwr.input = true) (mv : Nat) : Leaves (.powerApplied mv) m m := by
  intro q
  change execPowerApplied mv _ = _
  rw [execPowerApplied, State.on_eq, if_pos (.inl hi)]

end

theorem inExtended_iff (mv : Nat) : inExtended mv = true ↔ (38000 ≤ mv ∧ mv < 40000) ∨ (50000 < mv ∧ mv ≤ 52000) := by
  simp [inExtended]

/-- A module without a stored register is member 0 (R410). -/
theorem Module.member_of_regs_nil {m : Module} (h : m.regs = []) : m.member = 0 := by
  unfold Module.member Module.fld Module.reg
  rw [h]
  decide

/-- An input in the extended range at power-on begins an excursion, and INPUT_RANGE is the first notice of the block (R494, R514). -/
theorem Module.enterExtended_poweredUp (m : Module) (mv : Nat) :
    (m.poweredUp mv).enterExtended mv =
      { m.poweredUp mv with
        pwr := { (m.poweredUp mv).pwr with extended := true }, sent := m.sent ++ [.ibi 0x02]
        ctr := { posted := [({ sev := 2, code := 0x0708, member := 0, ptn := none, nseq := 0, obj := 0, ltime := 0
                               detail := slice (leBytes 1 0xFF ++ leBytes 2 mv) 0 40 }, [])]
                 nseq := 1 } } := by
  have hmem : ((m.poweredUp mv).setPwr fun x => { x with extended := true }).member = 0 := Module.member_of_regs_nil rfl
  unfold Module.enterExtended Module.post Module.postBut
  rw [if_neg (show ¬(m.poweredUp mv).pwr.extended = true from Bool.false_ne_true), if_pos (by decide), hmem]
  rfl

/-- Settles O1: an input in range leaves the block powered up, and in the extended range the notice that begins an excursion is its
first; POWER_LOSS leaves `Module.blank`. -/
theorem powerOnAndPowerLoss : Obligations.PowerOnAndPowerLoss := by
  intro m mv
  refine ⟨fun hi hlo hhi => ?operating, fun hi hx => ?extended, fun hi => leaves_powerApplied_powered hi mv, fun q => rfl⟩
  case operating =>
    have h := leaves_powerApplied hi (by omega) (by omega : mv ≤ 52000)
    rwa [if_neg (by rw [inExtended_iff]; omega)] at h
  case extended =>
    have h := leaves_powerApplied hi (by omega) (by omega : mv ≤ 52000)
    rw [if_pos ((inExtended_iff mv).mpr hx)] at h
    exact h.completes (Module.enterExtended_poweredUp m mv)

/-! #### MOD_RST_N (O3) -/

/-- A change of state raises the in-band interrupt 0x01; a module in the state already sends nothing (R505). -/
theorem Module.enterMode_sent (m : Module) (x : Mode) :
    (m.enterMode x).sent = m.sent ++ (if m.pwr.mode = x then [] else [.ibi 0x01]) := by
  unfold Module.enterMode
  split
  · exact (List.append_nil _).symm
  · rfl

/-- Of the power block, a change of state changes the state alone. -/
theorem Module.enterMode_pwr (m : Module) (x : Mode) : (m.enterMode x).pwr = { m.pwr with mode := x } := by
  unfold Module.enterMode
  split
  · next h => rw [← h]
  · rfl

theorem Module.enterFaulted_asy (m : Module) : m.enterFaulted.asy = m.asy := by
  unfold Module.enterFaulted
  simp

section
variable {m : Module}

theorem leaves_modRstAssert (hi : m.pwr.input = true) :
    Leaves .modRstAssert m (((m.setPwr fun x => { x with rstLow := true }).enterMode .off).coldReset 1) := by
  intro q
  change execModRstAssert _ = _
  rw [execModRstAssert, State.on_eq]
  dsimp only
  rw [if_pos (by simpa using hi)]

theorem leaves_modRstAssert_dark (hi : m.pwr.input = false) :
    Leaves .modRstAssert m { m with pwr := { m.pwr with rstLow := true } } := by
  intro q
  change execModRstAssert _ = _
  rw [execModRstAssert, State.on_eq, if_neg (by simp [hi])]
  rfl

/-- What BOOT starts from when the pin is released: local time zero after an assertion, else standing (R31). -/
def Module.released (m : Module) : Module :=
  { m with ltime := if m.pwr.rstCause = 1 then 0 else m.ltime, pwr := { m.pwr with rstLow := false } }

theorem leaves_modRstRelease (hi : m.pwr.input = true) (hr : m.pwr.rstLow = true) (ok : Bool) :
    Leaves (.modRstRelease ok) m (m.released.bootStart ok) := by
  intro q
  change execModRstRelease ok _ = _
  rw [execModRstRelease, State.on_eq]
  dsimp only
  rw [if_pos (by simp [hi, hr])]
  rfl

/-- Without power, or with MOD_RST_N high, the pin alone changes. -/
theorem leaves_modRstRelease_ignored (h : m.pwr.input = false ∨ m.pwr.rstLow = false) (ok : Bool) :
    Leaves (.modRstRelease ok) m { m with pwr := { m.pwr with rstLow := false } } := by
  intro q
  change execModRstRelease ok _ = _
  rw [execModRstRelease, State.on_eq]
  dsimp only
  rw [if_neg (by rcases h with h | h <;> simp [h])]
  rfl

/-- BOOT starts from OFF with its self-tests passed and the seed present, and waits at step 2 (R473). -/
theorem Module.bootStart_waits (hm : m.pwr.mode = .off) (he : m.asy.seedErased = false) :
    m.bootStart true =
      { m with pwr := { m.pwr with mode := .boot }, asy := { m.asy with bootstep := 2 }, sent := m.sent ++ [.ibi 0x01] } := by
  have hb : m.enterMode .boot = (m.setPwr fun p => { p with mode := .boot }).send (.ibi 0x01) := if_neg (by rw [hm]; decide)
  unfold Module.bootStart
  rw [hb]
  exact (if_neg (by decide)).trans (if_neg (by simp [he]))

/-- A boot failure after BOOT has begun: FAULTED, with the step and the cause recorded (R474). -/
theorem Module.bootFail_boot (m : Module) (step fail : Nat) :
    ((m.enterMode .boot).bootFail step fail).pwr.mode = .faulted ∧
      ((m.enterMode .boot).bootFail step fail).asy = { m.asy with bootstep := step, fail := fail } := by
  constructor
  · exact Module.enterFaulted_mode (by rw [Module.setAsy_pwr, Module.enterMode_mode]; decide)
  · exact (Module.enterFaulted_asy _).trans (by rw [Module.setAsy_asy, Module.enterMode_asy])

/-- A failed self-test ends BOOT at step 1. -/
theorem Module.bootStart_selfTest (m : Module) : m.bootStart false = (m.enterMode .boot).bootFail 1 1 := rfl

/-- Without its identity seed a module halts at step 2 (R483). -/
theorem Module.bootStart_seedErased (he : m.asy.seedErased = true) : m.bootStart true = (m.enterMode .boot).bootFail 2 4 := by
  unfold Module.bootStart
  exact (if_neg (by decide)).trans (if_pos (by rw [Module.enterMode_asy]; exact he))

end

/-- Settles O3: an assertion leaves a cold reset of the module in OFF, and a release starts BOOT, which waits at step 2 or fails. -/
theorem modRstPinResets : Obligations.ModRstPinResets := by
  intro m
  refine ⟨fun hi => ?assert, leaves_modRstAssert_dark, fun hi hr hm => ⟨fun he => ?waits, fun he => ?erased, ?selfTest⟩,
    fun ok h => leaves_modRstRelease_ignored h ok⟩
  case assert =>
    refine (leaves_modRstAssert hi).completes ?_
    generalize hx : (m.setPwr fun x => { x with rstLow := true }).enterMode .off = x
    have hp : x.pwr = { m.pwr with rstLow := true, mode := .off } := by rw [← hx, Module.enterMode_pwr]; rfl
    have hs : x.sent = m.sent ++ (if m.pwr.mode = .off then [] else [.ibi 0x01]) := by rw [← hx, Module.enterMode_sent]; rfl
    have hl : x.ltime = m.ltime := by rw [← hx, Module.enterMode_ltime]; rfl
    have ha : x.asy = m.asy := by rw [← hx, Module.enterMode_asy]; rfl
    have hf : x.fab = m.fab := by rw [← hx, Module.enterMode_fab]; rfl
    have hq : x.querns = m.querns := by rw [← hx, Module.enterMode_querns]; rfl
    have hfree : x.free = m.free := by rw [← hx, Module.enterMode_free]; rfl
    simp [Module.coldReset, Module.blank, Power.kept, hp, hs, hl, ha, hf, hq, hfree, hi]
  case waits =>
    have h := leaves_modRstRelease hi hr true
    rwa [Module.bootStart_waits (m := m.released) hm he] at h
  case erased =>
    have h := leaves_modRstRelease hi hr true
    rw [Module.bootStart_seedErased (m := m.released) he] at h
    exact h.completes (Module.bootFail_boot m.released 2 4)
  case selfTest =>
    have h := leaves_modRstRelease hi hr false
    rw [Module.bootStart_selfTest] at h
    exact h.completes (Module.bootFail_boot m.released 1 1)

end Sys2Proof.Machine
end

/-! ### CERTS and QUOTE (O17) -/

section
namespace Sys2Proof.Machine

/-! #### Byte strings: slices of appended strings, and little-endian fields (R3) -/

section
variable {a b : List Byte} {off n v : Nat}

@[simp] theorem leBytes_length (n v : Nat) : (leBytes n v).length = n := by
  induction n generalizing v with
  | zero => rfl
  | succ n ih => rw [leBytes, List.length_cons, ih]

@[simp] theorem slice_length (a : List Byte) (off n : Nat) : (slice a off n).length = n := by
  simp only [slice, List.length_append, List.length_replicate, List.length_take, List.length_drop]
  omega

/-- A slice within the string takes no zeros beyond it. -/
theorem slice_within (h : off + n ≤ a.length) : slice a off n = (a.drop off).take n := by
  have hl : ((a.drop off).take n).length = n := by
    rw [List.length_take, List.length_drop]
    omega
  rw [slice, hl, Nat.sub_self, List.replicate_zero, List.append_nil]

theorem slice_append_left (h : off + n ≤ a.length) : slice (a ++ b) off n = slice a off n := by
  rw [slice_within h, slice_within (by rw [List.length_append]; omega), List.drop_append_of_le_length (by omega),
    List.take_append_of_le_length (by rw [List.length_drop]; omega)]

theorem slice_append_right (h : a.length ≤ off) : slice (a ++ b) off n = slice b (off - a.length) n := by
  rw [slice, slice, List.drop_append, List.drop_eq_nil_of_le h, List.nil_append]

/-- A slice that begins at a string of its own length is that string, whatever follows. -/
theorem slice_append_self (h : a.length = n) : slice (a ++ b) 0 n = a := by
  rw [slice_within (by rw [List.length_append]; omega), List.drop_zero, ← h, List.take_left]

theorem slice_whole (h : a.length = n) : slice a 0 n = a := by
  simpa using slice_append_self (b := []) h

theorem leNat_leBytes (n v : Nat) : leNat (leBytes n v) = v % 256 ^ n := by
  induction n generalizing v with
  | zero => rw [leBytes, leNat, Nat.pow_zero, Nat.mod_one]
  | succ n ih => rw [leBytes, leNat, ih, BitVec.toNat_ofNat, show 256 ^ (n + 1) = 256 * 256 ^ n from Nat.pow_succ', Nat.mod_mul]

theorem leNat_lt (a : List Byte) : leNat a < 256 ^ a.length := by
  induction a with
  | nil => exact Nat.one_pos
  | cons x t ih =>
    have hx : x.toNat < 256 := x.isLt
    rw [leNat, List.length_cons, Nat.pow_succ]
    omega

theorem leBytes_leNat (a : List Byte) : leBytes a.length (leNat a) = a := by
  induction a with
  | nil => rfl
  | cons x t ih =>
    have hx : x.toNat < 256 := x.isLt
    have hdiv : (x.toNat + 256 * leNat t) / 256 = leNat t := by omega
    rw [List.length_cons, leNat, leBytes, hdiv, ih]
    congr 1
    refine BitVec.eq_of_toNat_eq ?_
    rw [BitVec.toNat_ofNat]
    omega

theorem fieldAt_append_right (h : a.length ≤ off) : fieldAt (a ++ b) off n = fieldAt b (off - a.length) n := by
  rw [fieldAt, fieldAt, slice_append_right h]

/-- A field that begins a string reads the number stored there. -/
theorem fieldAt_leBytes (hv : v < 256 ^ n) : fieldAt (leBytes n v ++ b) 0 n = v := by
  rw [fieldAt, slice_append_self (leBytes_length n v), leNat_leBytes, Nat.mod_eq_of_lt hv]

/-- A machine word stored in its own number of bytes. -/
theorem fieldAt_leBytes_toNat {w : Nat} (x : BitVec w) (h : w = 8 * n) : fieldAt (leBytes n x.toNat ++ b) 0 n = x.toNat := by
  refine fieldAt_leBytes ?_
  rw [show (256 : Nat) = 2 ^ 8 from rfl, ← Nat.pow_mul, ← h]
  exact x.isLt

theorem fieldAt_lt (a : List Byte) (off n : Nat) : fieldAt a off n < 256 ^ n := by
  simpa [fieldAt] using leNat_lt (slice a off n)

end

/-! #### Strings of 8-byte words -/

/-- The words of a string, one after the other, are the string. -/
theorem flatMap_words {l : List Byte} {k : Nat} (h : 8 * k ≤ l.length) :
    ((List.range k).flatMap fun i => slice l (8 * i) 8) = l.take (8 * k) := by
  induction k with
  | zero => rfl
  | succ k ih =>
    rw [List.range_succ, List.flatMap_append, ih (by omega), List.flatMap_singleton, slice_within (by omega), Nat.mul_succ, List.take_add]

theorem flatMap_range_length {f : Nat → List Byte} (hf : ∀ i, (f i).length = 8) (n : Nat) :
    ((List.range n).flatMap f).length = 8 * n := by
  induction n with
  | zero => rfl
  | succ n ih => rw [List.range_succ, List.flatMap_append, List.length_append, ih, List.flatMap_singleton, hf, Nat.mul_succ]

/-- Word `i` of a string made of words. -/
theorem slice_flatMap_range {f : Nat → List Byte} (hf : ∀ i, (f i).length = 8) {i n : Nat} (hi : i < n) :
    slice ((List.range n).flatMap f) (8 * i) 8 = f i := by
  have hl := flatMap_range_length hf
  induction n with
  | zero => cases hi
  | succ n ih =>
    rw [List.range_succ, List.flatMap_append, List.flatMap_singleton]
    rcases Nat.lt_succ_iff_lt_or_eq.mp hi with h | rfl
    · rw [slice_append_left (by rw [hl]; omega), ih h]
    · rw [slice_append_right (Nat.le_of_eq (hl _)), hl, Nat.sub_self, slice_whole (hf i)]

/-! #### The mailbox buffer (R477) -/

/-- The address of word `i` of the mailbox. -/
def mailboxWord (i : Nat) : Nat := asyR (0x1000 + 8 * i)

theorem mailboxWord_inj {i j : Nat} : mailboxWord i = mailboxWord j ↔ i = j := by
  unfold mailboxWord asyR
  omega

/-- The words 0 to `n - 1` of the mailbox stored. -/
def Module.putWords (m : Module) (f : Nat → Word) : Nat → Module
  | 0 => m
  | n + 1 => (m.putWords f n).setReg (mailboxWord n) (f n)

theorem Module.putWords_eq_foldl (m : Module) (f : Nat → Word) (n : Nat) :
    m.putWords f n = (List.range n).foldl (fun (m : Module) i => m.setReg (mailboxWord i) (f i)) m := by
  induction n with
  | zero => rfl
  | succ n ih => rw [List.range_succ, List.foldl_append, ← ih]; rfl

theorem Module.putWords_wf {m : Module} (hw : SparseWf regDefault m.regs) (f : Nat → Word) (n : Nat) :
    SparseWf regDefault (m.putWords f n).regs := by
  induction n with
  | zero => exact hw
  | succ n ih => exact Module.setReg_wf ih _ _

/-- The words stored read back, and every other register stands. -/
theorem Module.reg_putWords {m : Module} (hw : SparseWf regDefault m.regs) (f : Nat → Word) (n i : Nat) :
    (m.putWords f n).reg (mailboxWord i) = if i < n then f i else m.reg (mailboxWord i) := by
  induction n with
  | zero => rfl
  | succ n ih =>
    rw [Module.putWords, Module.reg_setReg (Module.putWords_wf hw f n)]
    by_cases h : i = n
    · rw [if_pos (mailboxWord_inj.mpr h), if_pos (by omega), h]
    · rw [if_neg (fun e => h (mailboxWord_inj.mp e)), ih]
      by_cases hn : i < n
      · rw [if_pos hn, if_pos (by omega)]
      · rw [if_neg hn, if_neg (by omega)]

theorem Module.reg_putWords_out (m : Module) (f : Nat → Word) (n : Nat) {a : Nat} (h : ∀ i < n, a ≠ mailboxWord i) :
    (m.putWords f n).reg a = m.reg a := by
  induction n with
  | zero => rfl
  | succ n ih => exact (Module.reg_setReg_ne _ _ (h n (Nat.lt_succ_self n))).trans (ih fun i hi => h i (by omega))

theorem Module.putWords_regsOnly (m : Module) (f : Nat → Word) (n : Nat) :
    m.putWords f n = { m with regs := (m.putWords f n).regs } := by
  induction n with
  | zero => rfl
  | succ n ih =>
    rw [Module.putWords]
    generalize m.putWords f n = x at ih
    rw [ih]
    rfl

theorem Module.mailbox_length (m : Module) : m.mailbox.length = 8192 :=
  flatMap_range_length (fun i => leBytes_length 8 (m.reg (mailboxWord i)).toNat) 1024

theorem Module.slice_mailbox (m : Module) {i : Nat} (h : i < 1024) :
    slice m.mailbox (8 * i) 8 = leBytes 8 (m.reg (mailboxWord i)).toNat :=
  slice_flatMap_range (fun i => leBytes_length 8 (m.reg (mailboxWord i)).toNat) h

/-- The mailbox once a byte string has been written at its start. -/
def Module.mailboxAfter (m : Module) (bs : List Byte) : List Byte := bs ++ m.mailbox.drop bs.length

section
variable {m : Module} {bs : List Byte}

theorem Module.mailboxAfter_length (h : bs.length ≤ 8192) : (m.mailboxAfter bs).length = 8192 := by
  rw [Module.mailboxAfter, List.length_append, List.length_drop, m.mailbox_length]
  omega

/-- Words beyond the string written are those of the buffer before. -/
theorem Module.slice_mailboxAfter {off : Nat} (h : bs.length ≤ off) (hoff : off + 8 ≤ 8192) :
    slice (m.mailboxAfter bs) off 8 = slice m.mailbox off 8 := by
  have hl := m.mailbox_length
  rw [Module.mailboxAfter, slice_append_right h, slice_within (by rw [List.length_drop]; omega), slice_within (by omega),
    List.drop_drop, Nat.add_sub_cancel' h]

theorem Module.putMailbox_eq (h : bs.length ≤ 8192) :
    m.putMailbox bs = m.putWords (fun i => BitVec.ofNat 64 (fieldAt (m.mailboxAfter bs) (8 * i) 8)) (ceilDiv bs.length 8) := by
  rw [Module.putWords_eq_foldl, ← slice_whole (m.mailboxAfter_length h)]
  rfl

/-- A byte string written at the start of the mailbox stands there, and the rest of the buffer with it. -/
theorem Module.mailbox_putMailbox (hw : SparseWf regDefault m.regs) (h : bs.length ≤ 8192) :
    (m.putMailbox bs).mailbox = m.mailboxAfter bs := by
  have hl := m.mailboxAfter_length h
  have hword : ∀ i < 1024, leBytes 8 ((m.putMailbox bs).reg (mailboxWord i)).toNat = slice (m.mailboxAfter bs) (8 * i) 8 := by
    intro i hi
    rw [Module.putMailbox_eq h, Module.reg_putWords hw]
    split
    · have hlt : fieldAt (m.mailboxAfter bs) (8 * i) 8 < 2 ^ 64 := fieldAt_lt _ _ 8
      have hb := leBytes_leNat (slice (m.mailboxAfter bs) (8 * i) 8)
      rw [BitVec.toNat_ofNat, Nat.mod_eq_of_lt hlt]
      rwa [slice_length] at hb
    · next hn =>
      rw [Module.slice_mailboxAfter (by unfold ceilDiv at hn; omega) (by omega), m.slice_mailbox hi]
  calc (m.putMailbox bs).mailbox
      = (List.range 1024).flatMap fun i => leBytes 8 ((m.putMailbox bs).reg (mailboxWord i)).toNat := rfl
    _ = (List.range 1024).flatMap fun i => slice (m.mailboxAfter bs) (8 * i) 8 :=
        congrArg List.flatten (List.map_congr_left fun i hi => hword i (List.mem_range.mp hi))
    _ = (m.mailboxAfter bs).take (8 * 1024) := flatMap_words (by omega)
    _ = m.mailboxAfter bs := List.take_of_length_le (by omega)

/-- A write of the mailbox changes no register outside it. -/
theorem Module.reg_putMailbox_out (h : bs.length ≤ 8192) {a : Nat} (ha : a < asyR 0x1000 ∨ asyR 0x3000 ≤ a) :
    (m.putMailbox bs).reg a = m.reg a := by
  rw [Module.putMailbox_eq h]
  refine m.reg_putWords_out _ _ fun i hi => ?_
  unfold ceilDiv at hi
  unfold mailboxWord
  unfold asyR at ha ⊢
  omega

/-- A write of the mailbox changes no other field of the module. -/
theorem Module.putMailbox_regsOnly (h : bs.length ≤ 8192) : m.putMailbox bs = { m with regs := (m.putMailbox bs).regs } := by
  rw [Module.putMailbox_eq h]
  exact m.putWords_regsOnly _ _

end

/-! #### GO: a request is performed, and its answer takes its place (R477) -/

/-- `m'` is `d`, what an operation asked for in the mailbox of `m` left, with the result recorded and the answer in the mailbox. -/
structure MbAnswers (m d : Module) (res : Nat) (ans : List Byte) (m' : Module) : Prop where
  answer : m'.mbAnswer = ans
  frame : m' = { d with regs := m'.regs, asy := { d.asy with mbResult := res, lastGo := m.ltime } }
  reg : ∀ a, a < asyR 0x1000 ∨ asyR 0x3000 ≤ a → m'.reg a = d.reg a

section
variable {m d : Module} {r : MbReq} {res : Nat} {ans : List Byte}

theorem Module.mbRequest_op (h : m.mbRequest = some r) : r.op = fieldAt m.mailbox 0 1 := by
  unfold Module.mbRequest at h
  generalize m.mailbox = buffer at h ⊢
  dsimp only at h
  split at h
  · exact congrArg MbReq.op (Option.some.inj h).symm
  · cases h

/-- The answer in the mailbox is what stands behind a header of 16 bytes with its length. -/
theorem Module.mbAnswer_eq {m' : Module} {x y rest : List Byte} (h : m'.mailbox = x ++ (leBytes 4 ans.length ++ (y ++ (ans ++ rest))))
    (hx : x.length = 4) (hy : y.length = 8) (hl : ans.length ≤ 8176) : m'.mbAnswer = ans := by
  have hlen : fieldAt m'.mailbox 4 4 = ans.length := by
    rw [h, fieldAt_append_right (by omega), hx, Nat.sub_self]
    exact fieldAt_leBytes (Nat.lt_of_le_of_lt hl (by decide))
  rw [Module.mbAnswer, hlen, h, slice_append_right (by omega), slice_append_right (by rw [leBytes_length]; omega),
    slice_append_right (by rw [leBytes_length]; omega), leBytes_length, hx, hy]
  exact slice_append_self rfl

/-- GO performs the request, whatever its operation. -/
theorem Module.mailboxGo_answers (hr : m.mbRequest = some r) (hop : m.operate r = (d, res, ans)) (hw : SparseWf regDefault d.regs)
    (hl : ans.length ≤ 8176) : MbAnswers m d res ans m.mailboxGo := by
  have hold := m.mailbox_length
  generalize he : d.setAsy (fun a => { a with mbResult := res, lastGo := m.ltime }) = e
  generalize hb : m.mailbox.take 1 ++ [0, 0, 0] ++ leBytes 4 ans.length ++ slice m.mailbox 8 8 ++ ans = bs
  have hbs : bs.length ≤ 8192 := by
    rw [← hb]
    simp only [List.length_append, List.length_take, hold, List.length_cons, List.length_nil, leBytes_length, slice_length]
    omega
  have hew : SparseWf regDefault e.regs := by rw [← he]; exact hw
  have hgo : m.mailboxGo = e.putMailbox bs := by
    unfold Module.mailboxGo
    simp only [hr, hop, he, hb]
  rw [hgo]
  refine ⟨?answer, ?frame, ?reg⟩
  case answer =>
    refine Module.mbAnswer_eq (x := m.mailbox.take 1 ++ [0, 0, 0]) (y := slice m.mailbox 8 8) (rest := e.mailbox.drop bs.length) ?_ ?_
      (slice_length ..) hl
    · rw [Module.mailbox_putMailbox hew hbs, Module.mailboxAfter]
      generalize e.mailbox.drop bs.length = rest
      rw [← hb]
      simp only [List.append_assoc]
    · simp [hold]
  case frame =>
    refine (Module.putMailbox_regsOnly hbs).trans ?_
    rw [← he]
    rfl
  case reg =>
    intro a ha
    rw [Module.reg_putMailbox_out hbs ha, ← he]
    rfl

/-- GO for the operation that the request names. -/
theorem Module.goFor_answers (hi : m.pwr.input = true) (hd : m.asy.down = false) (hr : m.mbRequest = some r)
    (hop : m.operate r = (d, res, ans)) (hw : SparseWf regDefault d.regs) (hl : ans.length ≤ 8176) :
    MbAnswers m d res ans (m.goFor r.op) := by
  have he : m.goFor r.op = m.mailboxGo := if_pos (by simp [hi, hd, Module.mbRequest_op hr])
  rw [he]
  exact Module.mailboxGo_answers hr hop hw hl

/-- Without hall H0 no operation is performed (R22). -/
theorem Module.goFor_down (hd : m.asy.down = true) (op : Nat) : m.goFor op = m := if_neg (by simp [hd])

end

/-! #### The quote (R481) -/

/-- The hallmark registers that a mask selects, one after the other. -/
def Module.marks (m : Module) (mask : Nat) : List Byte := (bitsSet 16 mask).flatMap fun i => m.asy.hallmarks.getD i []

theorem Module.marks_length_le {m : Module} (hm : ∀ x ∈ m.asy.hallmarks, x.length = 64) (mask : Nat) :
    (m.marks mask).length ≤ 1024 := by
  have hone : ∀ i, (m.asy.hallmarks.getD i []).length ≤ 64 := by
    intro i
    rw [List.getD_eq_getElem?_getD]
    cases h : m.asy.hallmarks[i]? with
    | none => exact Nat.zero_le _
    | some x => exact Nat.le_of_eq (hm x (List.mem_of_getElem? h))
  have hall : ∀ l : List Nat, (l.flatMap fun i => m.asy.hallmarks.getD i []).length ≤ 64 * l.length := by
    intro l
    induction l with
    | nil => exact Nat.zero_le _
    | cons i t ih =>
      have := hone i
      rw [List.flatMap_cons, List.length_append, List.length_cons]
      omega
  have hbits : (bitsSet 16 mask).length ≤ 16 := List.length_filter_le ..
  exact Nat.le_trans (hall _) (by omega)

/-- The fields of a quote before its hallmark registers, each with its number of bytes. -/
def Module.quoteHead (m : Module) (nonce : List Byte) (mask : Nat) (rest : List Byte) : List Byte :=
  leBytes 4 0x51415A44 ++ (leBytes 2 (m.fld (chipR 0) 32 16) ++ (leBytes 2 mask ++ (leBytes 8 (m.reg (chipR 0)).toNat ++
    (leBytes 16 Config.serial.toNat ++ (slice nonce 0 32 ++ (leBytes 2 m.asy.running ++ (leBytes 1 m.member ++
      (leBytes 1 m.pwr.mode.code ++ (leBytes 60 0 ++ rest)))))))))

/-- The 4,627 bytes of a quote's signature, over its fields and the selected registers. -/
def Module.quoteSig (m : Module) (nonce : List Byte) (mask : Nat) : List Byte :=
  slice (Config.mldsaSign m.asy.drbg (m.quoteHead nonce mask (m.marks mask))) 0 4627

/-- What follows the fields of a quote: the selected registers and a signature block of SIGLEN 4,627 (R74). -/
def Module.quoteTail (m : Module) (nonce : List Byte) (mask : Nat) : List Byte :=
  m.marks mask ++ (leBytes 2 4627 ++ (leBytes 6 0 ++ (m.quoteSig nonce mask ++ leBytes 5 0)))

theorem Module.quoteFor_fst (m : Module) (nonce : List Byte) (mask : Nat) :
    (m.quoteFor nonce mask).1 = m.quoteHead nonce mask (m.quoteTail nonce mask) := by
  simp only [Module.quoteFor, Module.quoteTail, Module.quoteSig, Module.quoteHead, Module.marks, List.append_assoc]

section
variable {m : Module} {nonce rest : List Byte} {mask : Nat}

theorem Module.quoteHead_length : (m.quoteHead nonce mask rest).length = 128 + rest.length := by
  simp only [Module.quoteHead, List.length_append, leBytes_length, slice_length]
  omega

theorem Mode.code_lt (x : Mode) : x.code < 256 := by
  cases x <;> decide

theorem Module.member_lt (m : Module) : m.member < 256 := by
  have : m.member < 2 ^ 6 := Nat.mod_lt _ (by decide)
  omega

/-- The fields of a quote, each at its place (R481). -/
theorem Module.quoteHead_fields (hn : nonce.length = 32) (hmask : mask < 65536) :
    let a := m.quoteHead nonce mask rest
    a.take 4 = leBytes 4 0x51415A44 ∧ fieldAt a 6 2 = mask ∧ fieldAt a 8 8 = (m.reg (chipR 0)).toNat ∧
    fieldAt a 0x10 16 = Config.serial.toNat ∧ slice a 0x20 32 = nonce ∧ fieldAt a 0x42 1 = m.member ∧
    fieldAt a 0x43 1 = m.pwr.mode.code := by
  unfold Module.quoteHead
  refine ⟨List.take_left' (leBytes_length ..), ?_⟩
  simp [fieldAt_append_right, slice_append_right, fieldAt_leBytes, fieldAt_leBytes_toNat, slice_append_self, slice_whole, hmask, hn,
    Module.member_lt, Mode.code_lt]

/-- What follows the fields of a quote begins at byte 128. -/
theorem Module.slice_quoteHead {off : Nat} (h : 128 ≤ off) (n : Nat) :
    slice (m.quoteHead nonce mask rest) off n = slice rest (off - 128) n := by
  have e : m.quoteHead nonce mask rest = m.quoteHead nonce mask [] ++ rest := by
    simp only [Module.quoteHead, List.append_assoc, List.nil_append]
  have hl : (m.quoteHead nonce mask []).length = 128 := Module.quoteHead_length
  rw [e, slice_append_right (by omega), hl]

/-- The selected registers and SIGLEN, each at its place behind the fields. -/
theorem Module.quoteTail_fields (m : Module) (nonce : List Byte) (mask : Nat) :
    let t := m.quoteTail nonce mask
    slice t 0 (m.marks mask).length = m.marks mask ∧ fieldAt t (m.marks mask).length 2 = 4627 ∧
      t.length = (m.marks mask).length + 4640 := by
  unfold Module.quoteTail
  refine ⟨slice_append_self rfl, ?_, ?_⟩
  · rw [fieldAt_append_right (Nat.le_refl _), Nat.sub_self]
    exact fieldAt_leBytes (by decide)
  · simp only [List.length_append, leBytes_length, Module.quoteSig, slice_length]

/-- Every part of a quote at its place (R481). -/
theorem Module.quoteFor_fields (hn : nonce.length = 32) (hmask : mask < 65536) :
    let a := (m.quoteFor nonce mask).1
    a.take 4 = leBytes 4 0x51415A44 ∧ fieldAt a 6 2 = mask ∧ fieldAt a 8 8 = (m.reg (chipR 0)).toNat ∧
    fieldAt a 0x10 16 = Config.serial.toNat ∧ slice a 0x20 32 = nonce ∧ fieldAt a 0x42 1 = m.member ∧
    fieldAt a 0x43 1 = m.pwr.mode.code ∧ slice a 128 (m.marks mask).length = m.marks mask ∧
    fieldAt a (128 + (m.marks mask).length) 2 = 4627 ∧ a.length = 128 + (m.marks mask).length + 4640 := by
  obtain ⟨hmarks, hsig, hl⟩ := m.quoteTail_fields nonce mask
  obtain ⟨hmagic, hmsk, hchip, hserial, hnonce, hmember, hmode⟩ :=
    Module.quoteHead_fields (m := m) (rest := m.quoteTail nonce mask) hn hmask
  rw [Module.quoteFor_fst]
  refine ⟨hmagic, hmsk, hchip, hserial, hnonce, hmember, hmode, ?_, ?_, ?_⟩
  · rw [Module.slice_quoteHead (Nat.le_refl _), Nat.sub_self, hmarks]
  · rw [fieldAt, Module.slice_quoteHead (Nat.le_add_right ..), Nat.add_sub_cancel_left]
    exact hsig
  · rw [Module.quoteHead_length, hl, Nat.add_assoc]

end

/-! #### CERTS and QUOTE -/

section
variable {m : Module} {r : MbReq}

theorem Module.operate_certs (ho : r.op = 1) (hr : r.operands = []) : m.operate r = (m, mbOk, Config.certChain.take 8176) := by
  unfold Module.operate
  rw [ho]
  exact if_pos (by rw [hr]; rfl)

theorem Module.operate_quote (ho : r.op = 2) : m.operate r = m.opQuote r := by
  obtain ⟨op, flags, session, header, operands⟩ := r
  obtain rfl : op = 2 := ho
  rfl

/-- Before BOOT ends there is no quote (R481). -/
theorem Module.opQuote_early (hb : m.asy.locked = false) : m.opQuote r = (m, mbState, []) :=
  if_pos (by simp [Module.booted, hb])

theorem Module.opQuote_booted (hb : m.asy.locked = true) (he : m.asy.seedErased = false) (hr : r.operands.length = 34) :
    m.opQuote r = ((m.quoteFor (r.operands.take 32) (fieldAt r.operands 32 2)).2, mbOk,
      (m.quoteFor (r.operands.take 32) (fieldAt r.operands 32 2)).1) := by
  unfold Module.opQuote
  rw [if_neg (by simp [Module.booted, hb, he]), if_neg (not_not_intro hr)]

end

theorem exec_certs (s : State) : exec .certs s = s.on fun m => m.goFor 1 := rfl

theorem exec_quote (s : State) : exec .quote s = s.on fun m => m.goFor 2 := rfl

/-- Settles O17: GO puts what the operation answers in the mailbox (`Module.goFor_answers`), CERTS answers the chain, and QUOTE the
fields of `Module.quoteHead`, then the selected registers, then the signature block. -/
theorem certificatesAndQuotes : Obligations.CertificatesAndQuotes := by
  intro m r hw hi hr
  refine ⟨fun hd => ?down, fun hd ho hnone => ?certs, fun hd ho hb he hlen hmarks _ => ?quote, fun hd ho hb => ?early⟩
  case down =>
    have hgo (op : Nat) : m.goFor op = m := Module.goFor_down hd op
    have hleaves {c : Instr} {op : Nat} (hc : ∀ s, exec c s = s.on fun m => m.goFor op) : Leaves c m m := leaves_of_on hc (hgo op)
    exact ⟨hleaves fun _ => rfl, hleaves fun _ => rfl, hleaves fun _ => rfl, hleaves fun _ => rfl, hleaves fun _ => rfl,
      hleaves fun _ => rfl, hleaves fun _ => rfl, hleaves fun _ => rfl⟩
  case certs =>
    have ha := Module.goFor_answers hi hd hr (Module.operate_certs ho hnone) hw (List.length_take_le ..)
    rw [ho] at ha
    exact completes_of_on exec_certs ⟨congrArg (·.asy.mbResult) ha.frame, ha.answer, ha.frame, ha.reg⟩
  case quote =>
    have hnonce : (r.operands.take 32).length = 32 := by rw [List.length_take]; omega
    obtain ⟨hmagic, hmask, hchip, hserial, hnon, hmember, hmode, hsel, hsig, hl⟩ :=
      Module.quoteFor_fields (m := m) hnonce (fieldAt_lt r.operands 32 2)
    have hle := Module.marks_length_le hmarks (fieldAt r.operands 32 2)
    have ha := Module.goFor_answers hi hd hr ((Module.operate_quote ho).trans (Module.opQuote_booted hb he hlen)) hw (by omega)
    rw [ho] at ha
    refine completes_of_on exec_quote ?_
    dsimp only
    rw [ha.answer]
    exact ⟨congrArg (·.asy.mbResult) ha.frame, hmagic, hmask, hchip, hserial, hnon, hmember, hmode, hsel, hsig, hl, ha.frame, ha.reg⟩
  case early =>
    have ha := Module.goFor_answers hi hd hr ((Module.operate_quote ho).trans (Module.opQuote_early hb)) hw (Nat.zero_le _)
    rw [ho] at ha
    exact completes_of_on exec_quote ⟨ha.frame, ha.reg⟩

end Sys2Proof.Machine
end

/-! ### The channel path, editions and pages (O40, O55)

Both statements fail, each on one concrete module: the module that a command leaves there is evaluated, and one clause says otherwise. -/

section
namespace Sys2Proof.Machine

/-- The module that a command leaves. -/
def Module.after (m : Module) (c : Instr) : Module :=
  match exec c { m := m, pending := [] } with
  | .next s => s.m
  | _ => m

/-- What a command completes with holds of the module that it leaves. -/
theorem Completes.after {c : Instr} {m : Module} {P : Module → Prop} (h : Completes c m P) : P (m.after c) := by
  obtain ⟨m', he, hp⟩ := h []
  unfold Module.after
  rw [he]
  exact hp

/-- What holds of every quern and of the quern without content holds of the quern under any number. -/
theorem Module.quern_of_forall {m : Module} {P : Quern → Prop} (h : ∀ q ∈ m.querns, P q) (h0 : P {}) (s : Nat) : P (m.quern s) := by
  unfold Module.quern
  rw [List.getD_eq_getElem?_getD]
  cases hs : m.querns[s]? with
  | none => exact h0
  | some q => exact h q (List.mem_of_getElem? hs)

/-! #### CHANNEL_ACCESS beside a combining entry of too many deltas (O40) -/

/-- Region 0 of one 2 MiB page, which holds a table: its page 0 lies on stack 0. -/
abbrev spillRegion : RegionSt :=
  { info := { rgn := 0, page := 0, mode := 0, wh := 0, flags := 0, base := 0, size := 2 ^ 21 }, serial := 0 }

/-- Table 5 of rows of sixteen int64 elements, which fill a line. -/
abbrev spillTable : PlacementRec :=
  { table := 5, type := 0x14, mode := 0, wh := 0, twin := false, rows := 16, dim := 16, rgn := 0, shards := 1, readers := 0, adders := 0 }

/-- A combining entry of the region's first line with seventeen int64 deltas, one more than the line has elements. -/
abbrev spillEntry : CombEntry :=
  { line := regionKey 0 0 / 128, type := 0x14, ptn := 0, deltas := List.replicate 17 1, lastAdd := 0 }

/-- The module with that region and table in force, and that entry pending at stack 0. -/
def spilling : Module :=
  { ptns := (List.replicate 8 {}).modify 0 fun p => { p with draft := some { placements := [spillTable] }, regions := [spillRegion] }
    querns := (List.replicate 20 {}).modify 0 fun q => { q with comb := [spillEntry] } }

/-- The assay block, whose fixed entry stands in every access table (R487), writes the first byte of the region. -/
abbrev spillWrite : Instr := .channelAccess 0x140 0 0 0 1 0 (.write [7]) .clean

/-- No combining entry is pending for the region's second line. -/
theorem spilling_second_line_free (s : Nat) : ∀ e ∈ (spilling.quern s).comb, e.line ≠ (regionKey 0 0 + 128) / 128 :=
  Module.quern_of_forall (P := fun q => ∀ e ∈ q.comb, e.line ≠ (regionKey 0 0 + 128) / 128) (by decide +kernel) (by decide +kernel) s

/-- The write-back that comes before the write stores all seventeen sums, the last of them in the second line. -/
theorem spilling_write_back : (spilling.after spillWrite).mem.read (regionKey 0 0 + 128) = 1 := by decide +kernel

/-- Refutes O40: the clause on a write keeps every byte of a line for which no combining entry is pending, and the write to a table page
writes the pending entries of its own lines back first (R310). The hypotheses do not bound an entry's deltas by the elements of its line,
so the entry of `spilling` runs over into the next line, for which none is pending. -/
theorem not_channelPath : ¬ Obligations.ChannelPath := by
  intro h
  obtain ⟨haccess, -, -⟩ := h spilling (by decide +kernel) (by decide +kernel) (by decide +kernel)
  obtain ⟨-, hspan⟩ := haccess 0x140 0 0 0 1 0 (.write [7]) .clean
  obtain ⟨-, -, -, hwrite, -⟩ := hspan (by decide) (by decide)
  obtain ⟨-, hframe, -⟩ := (hwrite (regionKey 0 0) 0 [7] rfl rfl (by decide +kernel) (by decide +kernel)).after
  have hread : (spilling.after spillWrite).mem.read (regionKey 0 0 + 128) = spilling.mem.read (regionKey 0 0 + 128) :=
    hframe _ (.inr (Nat.add_le_add_left (by decide) _)) spilling_second_line_free
  rw [spilling_write_back] at hread
  exact absurd hread (by decide +kernel)

/-! #### EDITION_SEAL_DONE on a member without a copy of the table (O55) -/

/-- Table 5 as member 2 of a guild of three keeps it: its one shard is on member 0, so that member 2 keeps the numbers and states of its
editions alone, a CURRENT one and a BUILDING one. -/
abbrev remoteTable : Table :=
  { ptn := 0, highest := 1, flip := 0
    place := { table := 5, type := 0x01, mode := 0, wh := 0, twin := false, rows := 16, dim := 32, rgn := 0, shards := 1, readers := 0, adders := 0 }
    editions := [{ num := 0, state := .current, fresh := false, primary := none, twin := none },
      { num := 1, state := .building, fresh := false, primary := none, twin := none }] }

/-- EDITION_SEAL of edition 1 of that table. -/
abbrev remoteSeal : Capsule :=
  { opc := 0x42, flags := 0, ptn := 0, policy := 0, inlen := 0, target := 2, rsv07 := 0, reqid := 9, handle := 0, budget := 0, cseq := 0
    nin := 0, nout := 0, listoff := 0, npin := 0, pinoff := 0, arg0 := 5 + 2 ^ 32, arg1 := 0, arg2 := 0, inl := [] }

/-- That command where the member that holds the copy has sealed it, so that only this member's own part is still to end. -/
abbrev remoteWait : PendingCmd := { capsule := remoteSeal, mine := true, waits := [] }

/-- Its record in the tally, in flight. -/
abbrev remoteTally : TallyEntry :=
  { reqid := 9, opc := 0x42, digest := digestOf remoteSeal, budget := 0, elapsed := 0, arrival := 0, effectful := true, recv := 2 }

/-- Member 2 of the guild of three, JOINED, on which the command arrived. -/
def sealing : Module :=
  { Module.setReg {} (fabR 0x000) (BitVec.ofNat 64 (2 + 2 * 2 ^ 6)) with
    pwr := { input := true, pwrgd := true, rstLow := false, mode := .joined }
    guild := { joined := 7 }
    tables := [remoteTable]
    ptns := (List.replicate 8 {}).modify 0 fun p => { p with waitCmds := [remoteWait], tally := [remoteTally] } }

/-- The end of the seal on a member without a copy notes the edition as SEALED (log entry 172). -/
theorem sealing_done_notes_edition : (sealing.after (.editionSealDone 0 9)).tables =
    [{ remoteTable with editions := updWhere (fun e => e.num == 1) (fun e => { e with state := .sealed }) remoteTable.editions }] := by
  decide +kernel

/-- Refutes O55: the clause on the EDITION_SEAL_DONE that ends a command keeps the tables as they are, for a member with or without a copy
of the command's table. One without a copy has had nothing to seal until then: it notes the outcome in its own record of the edition. -/
theorem not_editionsAndPages : ¬ Obligations.EditionsAndPages := by
  intro h
  obtain ⟨-, -, -, hdone, -, -⟩ := h sealing 0 remoteSeal [] (by decide +kernel)
  obtain ⟨-, -, -, hend⟩ := hdone 0 9
  obtain ⟨-, -, htables⟩ := (hend remoteWait remoteTally (by decide +kernel) (by decide +kernel) rfl rfl (by decide +kernel)
    (by decide +kernel) (by decide +kernel) rfl).after
  rw [sealing_done_notes_edition] at htables
  exact absurd htables (by decide +kernel)

end Sys2Proof.Machine
end
